-- ==== Sys2Proof/Word.lean ====
section
/-! DEFINITION. The words of the DN7: register words, double words, bytes (00_scope.md R2), and their plainest arithmetic. -/

namespace Sys2Proof

/-- A 32-bit register word (03_integer.md R60). -/
abbrev Word := BitVec 32
/-- A 64-bit value, held by a register pair (03_integer.md R60). -/
abbrev DWord := BitVec 64
/-- A byte of memory (09_ordering.md R251). -/
abbrev Byte := BitVec 8

/-- The low word of a double word. -/
def DWord.lo (x : DWord) : Word := x.setWidth 32
/-- The high word of a double word. -/
def DWord.hi (x : DWord) : Word := (x >>> 32).setWidth 32
/-- A double word from its high and low words. -/
def DWord.ofWords (hi lo : Word) : DWord := hi ++ lo

end Sys2Proof
end

