-- ==== Sys2Proof/Machine/Aes.lean ====
section
/-! DEFINITION. AES-256 and AES-256-XTS as their standards define them (FIPS 197, IEEE 1619; 08_memory.md R232 names the cipher). PRESUMED, log 137. -/

namespace Sys2Proof.Machine

/-! ## The field GF(2⁸) of AES, with x⁸ + x⁴ + x³ + x + 1 -/

/-- Multiplication by x. -/
def aesTwice (a : Nat) : Nat := if 2 * a < 256 then 2 * a else (2 * a) ^^^ 0x11B
/-- Multiplication, by k bits of the second factor. -/
def aesMulBits : Nat → Nat → Nat → Nat
  | 0, _, _ => 0
  | k + 1, a, b => (if b % 2 = 1 then a else 0) ^^^ aesMulBits k (aesTwice a) (b / 2)
def aesMul (a b : Nat) : Nat := aesMulBits 8 a b
/-- a to the power 2^(n + 1) − 2: with n = 7, the inverse, and 0 for 0. -/
def aesPow : Nat → Nat → Nat
  | 0, _ => 1
  | n + 1, a => let q := aesMul a a
    aesMul q (aesPow n q)
def aesInv (a : Nat) : Nat := aesPow 7 a

/-- A byte rotated left. -/
def rotByte (k a : Nat) : Nat := a * 2 ^ k % 256 + a / 2 ^ (8 - k)
/-- The S-box and its inverse. -/
def aesSub (a : Nat) : Nat :=
  let x := aesInv a
  x ^^^ rotByte 1 x ^^^ rotByte 2 x ^^^ rotByte 3 x ^^^ rotByte 4 x ^^^ 0x63
def aesUnsub (a : Nat) : Nat := aesInv (rotByte 1 a ^^^ rotByte 3 a ^^^ rotByte 6 a ^^^ 5)

/-! ## The cipher, on 16 bytes in the order of its input -/

/-- Bytes XORed. -/
def xorNats (a b : List Nat) : List Nat := List.zipWith (· ^^^ ·) a b

/-- The key schedule: the words of 4 bytes that follow 8, one at a time. -/
def aesExpand : Nat → Nat → List (List Nat) → List (List Nat)
  | 0, _, w => w
  | n + 1, i, w =>
    let t := w.getD (i - 1) []
    let t := if i % 8 = 0 then xorNats ((t.drop 1 ++ t.take 1).map aesSub) [2 ^ (i / 8 - 1), 0, 0, 0]
      else if i % 8 = 4 then t.map aesSub else t
    aesExpand n (i + 1) (w ++ [xorNats (w.getD (i - 8) []) t])

/-- The fifteen round keys of a key of 32 bytes. -/
def aesKeys (k : List Nat) : List (List Nat) :=
  let w := aesExpand 52 8 ((List.range 8).map (fun i => (k.drop (4 * i)).take 4))
  (List.range 15).map (fun r => ((w.drop (4 * r)).take 4).flatten)

/-- The rows of the state rotated, row r by r columns times n. -/
def aesShift (n : Nat) (b : List Nat) : List Nat := (List.range 16).map (fun i => b.getD ((i + 4 * n * (i % 4)) % 16) 0)
/-- Each column multiplied by a circulant matrix, given by its first row. -/
def aesMix (row b : List Nat) : List Nat :=
  (List.range 16).map (fun i =>
    (List.range 4).foldl (fun a j => a ^^^ aesMul (b.getD (i / 4 * 4 + j) 0) (row.getD ((j + 4 - i % 4) % 4) 0)) 0)

/-- AES-256 of a block under its round keys. -/
def aesBlock (ks : List (List Nat)) (b : List Nat) : List Nat :=
  let round (mix : Bool) (k b : List Nat) : List Nat :=
    let s := aesShift 1 (b.map aesSub)
    xorNats (if mix then aesMix [2, 3, 1, 1] s else s) k
  round false (ks.getD 14 []) (((ks.drop 1).take 13).foldl (fun b k => round true k b) (xorNats b (ks.getD 0 [])))

/-- The inverse of AES-256. -/
def aesUnblock (ks : List (List Nat)) (b : List Nat) : List Nat :=
  let unround (mix : Bool) (k b : List Nat) : List Nat :=
    let s := xorNats b k
    (aesShift 3 (if mix then aesMix [14, 11, 13, 9] s else s)).map aesUnsub
  xorNats (((ks.drop 1).take 13).foldr (fun k b => unround true k b) (unround false (ks.getD 14 []) b)) (ks.getD 0 [])

/-! ## XTS -/

/-- The 16 bytes of a number, the lowest first. -/
def block16 (n : Nat) : List Nat := (List.range 16).map (fun i => n / 256 ^ i % 256)
/-- The number of some bytes, the lowest first. -/
def blockNat (l : List Nat) : Nat := l.foldr (fun b a => b + 256 * a) 0

/-- A tweak multiplied by α. -/
def xtsNext (t : Nat) : Nat := if 2 * t < 2 ^ 128 then 2 * t else (2 * t) % 2 ^ 128 ^^^ 0x87

/-- One block between two additions of the tweak. -/
def xtsOne (f : List Nat → List Nat) (t : Nat) (b : List Nat) : List Nat := xorNats (f (xorNats b (block16 t))) (block16 t)

/-- A data unit, block by block; the last two blocks share bytes when the unit is no multiple of 16 bytes long. In a deciphering the two tweaks
there change places. -/
def xtsUnit (f : List Nat → List Nat) (back : Bool) : Nat → Nat → List Nat → List Nat
  | 0, _, d => d
  | n + 1, t, d =>
    if d.length < 16 then d
    else if d.length % 16 ≠ 0 && d.length < 32 then
      let r := d.length - 16
      let p := xtsOne f (if back then xtsNext t else t) (d.take 16)
      xtsOne f (if back then t else xtsNext t) (d.drop 16 ++ p.drop r) ++ p.take r
    else xtsOne f t (d.take 16) ++ xtsUnit f back n (xtsNext t) (d.drop 16)

/-- AES-256-XTS of a data unit: the key's first 32 bytes cipher the data and its last 32 the tweak, a number whose lowest byte comes first. -/
def aesXts (back : Bool) (key : BitVec 512) (tweak : Nat) (d : List Byte) : List Byte :=
  let k : List Nat := (List.range 64).map (fun i => key.toNat / 256 ^ i % 256)
  let ks := aesKeys (k.take 32)
  let t := blockNat (aesBlock (aesKeys (k.drop 32)) (block16 tweak))
  (xtsUnit (if back then aesUnblock ks else aesBlock ks) back (d.length / 16) t (d.map BitVec.toNat)).map (BitVec.ofNat 8)

end Sys2Proof.Machine
end

