-- ==== Sys2Proof/Config.lean ====
section
/-! DEFINITION. What one device fixes and the free values (00_scope.md R7): constants without a body, of which nothing can be proved.
Log 5 lists them. -/

namespace Sys2Proof

/-- Which of two allowed values an uncovered read or write leaves (02_encoding.md R44): draw, fibre, register. -/
opaque Config.pickNew : Nat → Nat → Nat → Bool
/-- A special function's polynomial (05_special.md R129, R131), in fixed point: function, reduced argument. -/
opaque Config.sfu : Nat → Int → Int
/-- Whether an L1 data sector is still held when it is read again (09_ordering.md R254). -/
opaque Config.l1Keeps : Nat → Bool
/-- From which draw on a fibre finds a 32-byte unit as another fibre's write left it, without an acquire (09_ordering.md R254): draw of the write,
unit, fibre. -/
opaque Config.showsAt : Nat → Nat → Nat → Nat
/-- Whether an instruction-cache word is still held when it is fetched again (08_memory.md R239). -/
opaque Config.icacheKeeps : Nat → Bool
/-- A byte that a device outside the package returns: draw, address (08_memory.md R221). -/
opaque Config.outsideByte : Nat → Nat → BitVec 8
/-- Whether a peer leaves a request unanswered for the link timeout (08_memory.md R221): draw. -/
opaque Config.peerSilent : Nat → Bool
/-- REFCLK cycles that pass in a stretch of time (15_system.md R433): draw. -/
opaque Config.refclkTicks : Nat → Nat
/-- Core-island cycles that pass in a stretch of time (15_system.md R433): draw, core. -/
opaque Config.coreTicks : Nat → Nat → Nat
/-- How many cycles of a stretch of time a plait that waits for its turn is eligible in (07_work.md R209): draw, plait slot. -/
opaque Config.eligibleTicks : Nat → Nat → Nat
/-- PWRWAIT cycles that a refused request adds (11_matrix.md R338): draw. -/
opaque Config.pwrWait : Nat → Nat
/-- The n of SIDE_ECC_FRACTION 1/n that firmware sets at a boot, within 8 to 64 (08_memory.md R247): draw. -/
opaque Config.sideFraction : Nat → Nat
/-- The bytes of a die's firmware area, at most 256 MiB (01_machine.md R22): die. -/
opaque Config.firmwareArea : Nat → Nat
/-- Whether a member of a group does not answer a request for its sector (14_survivable.md R394): draw. -/
opaque Config.memberSilent : Nat → Bool
/-- The XOR of the sectors that the other members of a group answer (14_survivable.md R394): draw. -/
opaque Config.memberXor : Nat → BitVec 256
/-- The die that homes a 2 MiB physical frame (01_machine.md R11). -/
opaque Config.frameDie : Nat → Nat
/-- The pool block that holds a resident scratch block (08_memory.md R226): draw, block. -/
opaque Config.poolBlock : Nat → Nat → BitVec 7
/-- A profiling count that the model does not keep (15_system.md R439): draw, source, counter. -/
opaque Config.profCount : Nat → Nat → Nat → BitVec 32
/-- The task that used a unit most (15_system.md R438): draw, source. -/
opaque Config.profTask : Nat → Nat → BitVec 64
/-- Which of the ports that reach a device a delta goes through (17_module.md R459): draw. -/
opaque Config.deltaPort : Nat → Nat
/-- The coil id that the device assigns, if it is not in use (15_system.md R402): draw. -/
opaque Config.coilId : Nat → BitVec 32
/-- Which 64 KiB step of the save pool a frame starts at, if it is free there (08_memory.md R217): draw. -/
opaque Config.frameStep : Nat → Nat
/-- A byte of a sector whose stored form has no meaning: a payload with no valid header, or more wrong bytes than a code can find
(08_memory.md R232, R246): draw, address. -/
opaque Config.wrongKeyByte : Nat → Nat → BitVec 8
/-- SHA-384 (17_module.md R463, R464), named by the manual and not defined by it. -/
opaque Config.sha384 : List (BitVec 8) → BitVec 384
/-- Whether an ECDSA P-384 signature by Oprum's key verifies (17_module.md R463, R466): message, signature. -/
opaque Config.ecdsaOk : List (BitVec 8) → List (BitVec 8) → Bool
/-- Whether an LMS signature by Oprum's key verifies (17_module.md R463, R466): message, signature. -/
opaque Config.lmsOk : List (BitVec 8) → List (BitVec 8) → Bool
/-- The signature of an attestation report under the key derived from a fused secret and MR0 (17_module.md R464). -/
opaque Config.attestSign : BitVec 384 → List (BitVec 8) → List (BitVec 8)
/-- A fresh management nonce (17_module.md R462): draw. -/
opaque Config.freshNonce : Nat → BitVec 384
/-- The device identity in the fuses (17_module.md R463). -/
opaque Config.devid : BitVec 128
/-- The rollback counter in the fuses (17_module.md R463). -/
opaque Config.rollback : Nat
/-- The version of a firmware image (17_module.md R463, whose layout is not given). -/
opaque Config.fwVersion : List (BitVec 8) → Nat
/-- The signatures that stand in a firmware image (17_module.md R463): ECDSA, LMS. -/
opaque Config.fwSigs : List (BitVec 8) → List (BitVec 8) × List (BitVec 8)
/-- The boot flash as it stands at power-on, and the loaders it verifies (17_module.md R463). -/
opaque Config.bootImages : List (List (BitVec 8))
/-- A merged element of a range whose SCOUT ended in a fault is old or new (12_scout.md R350): draw, element. -/
opaque Config.scoutMerged : Nat → Nat → Bool
/-- Whether a core's surrogate store still holds a copy that no slot holds (13_surrogate.md R368): draw. -/
opaque Config.sgKeeps : Nat → Bool
/-- Whether a fibre has waited for longer than its coil's checker threshold (15_system.md R435): draw, fibre. -/
opaque Config.waitedLong : Nat → Nat → Bool
/-- The device's own Osier number in the management configuration (17_module.md R459). -/
opaque Config.osierNum : BitVec 16

end Sys2Proof
end

