-- ==== Sys2Proof/Syntax.lean ====
section
/-! DEFINITION. The instruction set: one constructor for each row of the opcode table. Encoded rows carry the fields of their
format (02_encoding.md R28, R36; 11_matrix.md R326); event rows carry what the event brings with it. -/

namespace Sys2Proof

/-- The fields of a compact instruction (02_encoding.md R36). `b` is v0 to v63 or the 6-bit immediate. -/
structure Compact where
  dist : BitVec 2
  w : BitVec 1
  d : BitVec 8
  a : BitVec 8
  b : BitVec 6
  deriving DecidableEq, Repr

/-- The fields of a main-format instruction (02_encoding.md R28), with the literal of the 96-bit form (R30). `x` is bits 63:53,
read in the layout of R29 that the instruction names. -/
structure Main where
  dist : BitVec 3
  wait : BitVec 12
  gsel : BitVec 3
  gneg : BitVec 1
  d : BitVec 8
  a : BitVec 8
  b : BitVec 8
  x : BitVec 11
  lit : Option (BitVec 32)
  deriving DecidableEq, Repr

/-- The fields of an MCC instruction (11_matrix.md R326). Bits 28:25 are reserved and zero. -/
structure Mcc where
  e : BitVec 15
  d : BitVec 8
  a : BitVec 8
  b : BitVec 8
  x : BitVec 11
  lit : Option (BitVec 32)
  deriving DecidableEq, Repr

/-- A decode fault: code 1 to 4 (15_system.md R419), subtype and offending bit (02_encoding.md R51), the first word, and the length in words. -/
structure DecodeFault where
  code : BitVec 16
  sub : Nat
  bit : Nat
  word0 : BitVec 32
  words : Nat
  deriving DecidableEq, Repr

/-- What an agent outside the fibres does to device memory (09_ordering.md R263). -/
inductive MemAct where
  | load (bytes : Nat)
  | store (data : List (BitVec 8))
  | amo (op : BitVec 4) (wide : Bool) (x : BitVec 64)
  | fence
  deriving DecidableEq, Repr

/-- A request to device memory from outside: the address space it is translated in, if any, and the address. -/
structure MemReq where
  asid : Option (BitVec 12)
  addr : BitVec 64
  act : MemAct
  deriving DecidableEq, Repr

/-- Another device's request, with the Osier port that it comes through. -/
structure PeerReq where
  port : Nat
  req : MemReq
  deriving DecidableEq, Repr

/-- An unlock token (17_module.md R466). -/
structure Token where
  devid : BitVec 128
  state : BitVec 3
  nonce : BitVec 384
  ecdsa : List (BitVec 8)
  lms : List (BitVec 8)
  deriving DecidableEq, Repr

/-- An AER error of a root port (17_module.md R461). -/
structure AerError where
  port : Nat
  uncorrectable : Bool
  linkDown : Bool
  status : BitVec 32
  requester : BitVec 16
  header : BitVec 32
  deriving DecidableEq, Repr

/-- Where an uncorrectable SRAM error is found (15_system.md R418), offsets in bytes; or a soft error that no code sees, in the cell of the matrix
array that holds element k of an accumulator (11_matrix.md R317 to R320; 19_programs_engines.md R481; log 138). -/
inductive SramError where
  | l1 (core : Nat) (line : Nat)
  | icache (core : Nat) (line : Nat)
  | l2 (addr : Nat)
  | scratch (coil off : Nat)
  | tile (coil tile off : Nat)
  | acc (coil acc off : Nat)
  | mask (coil mask : Nat)
  | cell (coil acc k : Nat) (value : BitVec 32)
  deriving DecidableEq, Repr

/-- The instructions and events of the DN7. -/
inductive Instr where
  /-- IADD (R69). -/
  | iadd (m : Main)
  /-- ISUB (R69). -/
  | isub (m : Main)
  /-- INEG (R69). -/
  | ineg (m : Main)
  /-- IABS (R69). -/
  | iabs (m : Main)
  /-- IMUL (R69). -/
  | imul (m : Main)
  /-- IMULH (R69). -/
  | imulh (m : Main)
  /-- IMAD (R70). -/
  | imad (m : Main)
  /-- IMADW (R70). -/
  | imadw (m : Main)
  /-- IDIV (R71). -/
  | idiv (m : Main)
  /-- IREM (R71). -/
  | irem (m : Main)
  /-- IMIN (R69). -/
  | imin (m : Main)
  /-- IMAX (R69). -/
  | imax (m : Main)
  /-- ISAT (R72). -/
  | isat (m : Main)
  /-- ICMP (R73). -/
  | icmp (m : Main)
  /-- AND (R74). -/
  | andOp (m : Main)
  /-- OR (R74). -/
  | orOp (m : Main)
  /-- XOR (R74). -/
  | xorOp (m : Main)
  /-- ANDN (R74). -/
  | andn (m : Main)
  /-- NOT (R74). -/
  | notOp (m : Main)
  /-- LUT3 (R74). -/
  | lut3 (m : Main)
  /-- SHL (R75). -/
  | shl (m : Main)
  /-- SHR (R75). -/
  | shr (m : Main)
  /-- SAR (R75). -/
  | sar (m : Main)
  /-- ROT (R75). -/
  | rot (m : Main)
  /-- FSHL (R75). -/
  | fshl (m : Main)
  /-- BFX (R76). -/
  | bfx (m : Main)
  /-- BFI (R76). -/
  | bfi (m : Main)
  /-- POPC (R77). -/
  | popc (m : Main)
  /-- CLZ (R77). -/
  | clz (m : Main)
  /-- CTZ (R77). -/
  | ctz (m : Main)
  /-- BREV (R77). -/
  | brev (m : Main)
  /-- BSWAP (R77). -/
  | bswap (m : Main)
  /-- SEL (R80). -/
  | sel (m : Main)
  /-- MOV (R78). -/
  | mov (m : Main)
  /-- MOVL (R79). -/
  | movl (m : Main)
  /-- PSET (R81). -/
  | pset (m : Main)
  /-- PLOP (R81). -/
  | plop (m : Main)
  /-- PRDW (R81). -/
  | prdw (m : Main)
  /-- PWRW (R81). -/
  | pwrw (m : Main)
  /-- PADD2 (R82). -/
  | padd2 (m : Main)
  /-- PSUB2 (R82). -/
  | psub2 (m : Main)
  /-- PMIN2 (R82). -/
  | pmin2 (m : Main)
  /-- PMAX2 (R82). -/
  | pmax2 (m : Main)
  /-- PMAC2 (R83). -/
  | pmac2 (m : Main)
  /-- PMAC4 (R83). -/
  | pmac4 (m : Main)
  /-- SHRR (R84). -/
  | shrr (m : Main)
  /-- LEA (R85). -/
  | lea (m : Main)
  /-- ADR (R86). -/
  | adr (m : Main)
  /-- CTXA (R87). -/
  | ctxa (m : Main)
  /-- SMSET (R91). -/
  | smset (m : Main)
  /-- SMBIND (R92). -/
  | smbind (m : Main)
  /-- SMPOS (R93). -/
  | smpos (m : Main)
  /-- SMADV (R94). -/
  | smadv (m : Main)
  /-- FADD (R112). -/
  | fadd (m : Main)
  /-- FSUB (R112). -/
  | fsub (m : Main)
  /-- FMUL (R112). -/
  | fmul (m : Main)
  /-- FFMA (R112). -/
  | ffma (m : Main)
  /-- FMIN (R113). -/
  | fmin (m : Main)
  /-- FMAX (R113). -/
  | fmax (m : Main)
  /-- FCMP (R114). -/
  | fcmp (m : Main)
  /-- DCMP (R114). -/
  | dcmp (m : Main)
  /-- FCLASS (R115). -/
  | fclass (m : Main)
  /-- FRND (R116). -/
  | frnd (m : Main)
  /-- FSCALE (R116). -/
  | fscale (m : Main)
  /-- FGETEXP (R116). -/
  | fgetexp (m : Main)
  /-- FADD2 (R117). -/
  | fadd2 (m : Main)
  /-- FMUL2 (R117). -/
  | fmul2 (m : Main)
  /-- FFMA2 (R117). -/
  | ffma2 (m : Main)
  /-- DADD (R118). -/
  | dadd (m : Main)
  /-- DMUL (R118). -/
  | dmul (m : Main)
  /-- DFMA (R118). -/
  | dfma (m : Main)
  /-- FCVT (R120). -/
  | fcvt (m : Main)
  /-- FCVT_SR (R121). -/
  | fcvtSr (m : Main)
  /-- F2I (R122). -/
  | f2i (m : Main)
  /-- I2F (R123). -/
  | i2f (m : Main)
  /-- SRSEED (R108). -/
  | srseed (m : Main)
  /-- HADM (R124). -/
  | hadm (m : Main)
  /-- QCVT (R125). -/
  | qcvt (m : Main)
  /-- DQCVT (R126). -/
  | dqcvt (m : Main)
  /-- EXP2 (R133). -/
  | exp2 (m : Main)
  /-- LOG2 (R133). -/
  | log2 (m : Main)
  /-- RCP (R133). -/
  | rcp (m : Main)
  /-- RSQ (R133). -/
  | rsq (m : Main)
  /-- SQRT (R133). -/
  | sqrt (m : Main)
  /-- SIN (R133). -/
  | sinOp (m : Main)
  /-- COS (R133). -/
  | cosOp (m : Main)
  /-- TANH (R133). -/
  | tanh (m : Main)
  /-- SIGM (R133). -/
  | sigm (m : Main)
  /-- ERF (R133). -/
  | erf (m : Main)
  /-- GELU (R136). -/
  | gelu (m : Main)
  /-- SILU (R136). -/
  | silu (m : Main)
  /-- FACT (R137). -/
  | fact (m : Main)
  /-- ROWMAX (R141). -/
  | rowmax (m : Main)
  /-- ROWSUM (R141). -/
  | rowsum (m : Main)
  /-- ROWSTAT (R142). -/
  | rowstat (m : Main)
  /-- ROWNORM (R143). -/
  | rownorm (m : Main)
  /-- SMAXR (R144). -/
  | smaxr (m : Main)
  /-- LSE (R145). -/
  | lse (m : Main)
  /-- BRA (R152). -/
  | bra (m : Main)
  /-- BRA_U (R153). -/
  | braU (m : Main)
  /-- BRX (R154). -/
  | brx (m : Main)
  /-- CALL (R155). -/
  | call (m : Main)
  /-- CALLX (R155). -/
  | callx (m : Main)
  /-- RET (R155). -/
  | ret (m : Main)
  /-- LOOP (R157). -/
  | loopOp (m : Main)
  /-- PACK (R160). -/
  | pack (m : Main)
  /-- CONVM (R161). -/
  | convm (m : Main)
  /-- YIELD (R162). -/
  | yieldOp (m : Main)
  /-- NOP (R163). -/
  | nop (m : Main)
  /-- PART (R165). -/
  | part (m : Main)
  /-- GSYNC (R176). -/
  | gsync (m : Main)
  /-- VOTE (R170). -/
  | vote (m : Main)
  /-- BALLOT (R170). -/
  | ballot (m : Main)
  /-- MATCH (R170). -/
  | matchOp (m : Main)
  /-- ELECT (R170). -/
  | elect (m : Main)
  /-- SHFL (R171). -/
  | shfl (m : Main)
  /-- SLIDE (R173). -/
  | slide (m : Main)
  /-- BCAST (R172). -/
  | bcast (m : Main)
  /-- SCAN (R174). -/
  | scan (m : Main)
  /-- GRED (R175). -/
  | gred (m : Main)
  /-- FIBNEW (R197). -/
  | fibnew (m : Main)
  /-- FIBEND (R198). -/
  | fibend (m : Main)
  /-- SPAWN (R199). -/
  | spawn (m : Main)
  /-- LAUNCH (R201). -/
  | launch (m : Main)
  /-- FORK (R202). -/
  | fork (m : Main)
  /-- REGION (R190). -/
  | region (m : Main)
  /-- FNEW (R206). -/
  | fnew (m : Main)
  /-- FRES (R204). -/
  | fres (m : Main)
  /-- FTHEN (R204). -/
  | fthen (m : Main)
  /-- FREAD (R206). -/
  | fread (m : Main)
  /-- FWAIT (R206). -/
  | fwait (m : Main)
  /-- ENGFORK (R207). -/
  | engfork (m : Main)
  /-- RDV (R207). -/
  | rdv (m : Main)
  /-- PRIO (R208). -/
  | prio (m : Main)
  /-- QPOLL (R208). -/
  | qpoll (m : Main)
  /-- SLEEPN (R208). -/
  | sleepn (m : Main)
  /-- LD_B8 (R237). -/
  | ldB8 (m : Main)
  /-- LD_B16 (R237). -/
  | ldB16 (m : Main)
  /-- LD_B32 (R237). -/
  | ldB32 (m : Main)
  /-- LD_B64 (R237). -/
  | ldB64 (m : Main)
  /-- LD_B128 (R237). -/
  | ldB128 (m : Main)
  /-- ST_B8 (R237). -/
  | stB8 (m : Main)
  /-- ST_B16 (R237). -/
  | stB16 (m : Main)
  /-- ST_B32 (R237). -/
  | stB32 (m : Main)
  /-- ST_B64 (R237). -/
  | stB64 (m : Main)
  /-- ST_B128 (R237). -/
  | stB128 (m : Main)
  /-- LDS (R237). -/
  | lds (m : Main)
  /-- STS (R237). -/
  | sts (m : Main)
  /-- LDU_B32 (R237). -/
  | lduB32 (m : Main)
  /-- LDU_B64 (R237). -/
  | lduB64 (m : Main)
  /-- LDMX (R238). -/
  | ldmx (m : Main)
  /-- STMX (R238). -/
  | stmx (m : Main)
  /-- PF_L1 (R239). -/
  | pfL1 (m : Main)
  /-- PF_L2 (R239). -/
  | pfL2 (m : Main)
  /-- CCTL_INV (R239). -/
  | cctlInv (m : Main)
  /-- CCTL_INVALL (R239). -/
  | cctlInvall (m : Main)
  /-- CCTL_WB (R239). -/
  | cctlWb (m : Main)
  /-- CCTL_WBINV (R239). -/
  | cctlWbinv (m : Main)
  /-- ICINV_CORE (R239). -/
  | icinvCore (m : Main)
  /-- ICINV_DEV (R240). -/
  | icinvDev (m : Main)
  /-- ATOM (R242). -/
  | atom (m : Main)
  /-- ATOMS (R242). -/
  | atoms (m : Main)
  /-- ATRED (R242). -/
  | atred (m : Main)
  /-- CAS (R243). -/
  | cas (m : Main)
  /-- HBIND (R218). -/
  | hbind (m : Main)
  /-- HQRY (R219). -/
  | hqry (m : Main)
  /-- SPTMAP_SWAP (R226). -/
  | sptmapSwap (m : Main)
  /-- SPTMAP_RD (R226). -/
  | sptmapRd (m : Main)
  /-- ACQ (R267). -/
  | acq (m : Main)
  /-- REL (R267). -/
  | rel (m : Main)
  /-- FENCE (R268). -/
  | fence (m : Main)
  /-- GBAR_ARV (R270). -/
  | gbarArv (m : Main)
  /-- GBAR_WAIT (R270). -/
  | gbarWait (m : Main)
  /-- BINIT (R273). -/
  | binit (m : Main)
  /-- BARV (R274). -/
  | barv (m : Main)
  /-- BARX (R274). -/
  | barx (m : Main)
  /-- BWAIT (R275). -/
  | bwait (m : Main)
  /-- BTEST (R275). -/
  | btest (m : Main)
  /-- BCAN (R276). -/
  | bcan (m : Main)
  /-- CPY (R284). -/
  | cpy (m : Main)
  /-- CPYT (R291). -/
  | cpyt (m : Main)
  /-- CPYM (R293). -/
  | cpym (m : Main)
  /-- CPYC (R282). -/
  | cpyc (m : Main)
  /-- GATH (R296). -/
  | gath (m : Main)
  /-- SCAT (R296). -/
  | scat (m : Main)
  /-- SCATA (R297). -/
  | scata (m : Main)
  /-- GSTAT (R301). -/
  | gstat (m : Main)
  /-- TLD (R341). -/
  | tld (m : Main)
  /-- TLD_T (R341). -/
  | tldT (m : Main)
  /-- TST (R341). -/
  | tst (m : Main)
  /-- ACCRD (R341). -/
  | accrd (m : Main)
  /-- SCOUT (R350). -/
  | scout (m : Main)
  /-- TMASK (R353). -/
  | tmask (m : Main)
  /-- MKAND (R355). -/
  | mkand (m : Main)
  /-- MKOR (R355). -/
  | mkor (m : Main)
  /-- MKPOP (R355). -/
  | mkpop (m : Main)
  /-- MKRD (R355). -/
  | mkrd (m : Main)
  /-- MKWR (R355). -/
  | mkwr (m : Main)
  /-- SGLOAD (R370). -/
  | sgload (m : Main)
  /-- SGCALL (R374). -/
  | sgcall (m : Main)
  /-- SGREC (R371). -/
  | sgrec (m : Main)
  /-- SGMERGE (R379). -/
  | sgmerge (m : Main)
  /-- SGREL (R371). -/
  | sgrel (m : Main)
  /-- SGQB (R373). -/
  | sgqb (m : Main)
  /-- SGCNT (R382). -/
  | sgcnt (m : Main)
  /-- SGCNT_CLR (R382). -/
  | sgcntClr (m : Main)
  /-- SGDIS (R382). -/
  | sgdis (m : Main)
  /-- SGDIS_EN (R382). -/
  | sgdisEn (m : Main)
  /-- SGDIS_RD (R382). -/
  | sgdisRd (m : Main)
  /-- SGINV (R372). -/
  | sginv (m : Main)
  /-- PGRP (R396). -/
  | pgrp (m : Main)
  /-- PSTAT (R396). -/
  | pstat (m : Main)
  /-- PWAIT (R397). -/
  | pwait (m : Main)
  /-- PSCRUB (R399). -/
  | pscrub (m : Main)
  /-- PSCRUB_FIX (R399). -/
  | pscrubFix (m : Main)
  /-- PREBUILD (R399). -/
  | prebuild (m : Main)
  /-- TRAP (R421). -/
  | trapOp (m : Main)
  /-- SYSC (R422). -/
  | sysc (m : Main)
  /-- HRET_RETRY (R424). -/
  | hretRetry (m : Main)
  /-- HRET_SKIP (R424). -/
  | hretSkip (m : Main)
  /-- RDSR (R426). -/
  | rdsr (m : Main)
  /-- WRSR (R426). -/
  | wrsr (m : Main)
  /-- BRK (R428). -/
  | brk (m : Main)
  /-- WATCH (R429). -/
  | watch (m : Main)
  /-- DBGMARK (R431). -/
  | dbgmark (m : Main)
  /-- RDCNT (R433). -/
  | rdcnt (m : Main)
  /-- ERRQ (R432). -/
  | errq (m : Main)
  /-- CHKSET (R434). -/
  | chkset (m : Main)
  /-- NOP_COMPACT (R38). -/
  | nopCompact (f : Compact)
  /-- MOV_COMPACT (R37). -/
  | movCompact (f : Compact)
  /-- MOV_IMM_COMPACT (R78). -/
  | movImmCompact (f : Compact)
  /-- IADD_S32_COMPACT (R37). -/
  | iaddS32Compact (f : Compact)
  /-- IADD_S32_IMM_COMPACT (R37). -/
  | iaddS32ImmCompact (f : Compact)
  /-- ISUB_S32_COMPACT (R37). -/
  | isubS32Compact (f : Compact)
  /-- ISUB_S32_IMM_COMPACT (R37). -/
  | isubS32ImmCompact (f : Compact)
  /-- AND_COMPACT (R37). -/
  | andCompact (f : Compact)
  /-- AND_IMM_COMPACT (R37). -/
  | andImmCompact (f : Compact)
  /-- OR_COMPACT (R37). -/
  | orCompact (f : Compact)
  /-- OR_IMM_COMPACT (R37). -/
  | orImmCompact (f : Compact)
  /-- XOR_COMPACT (R37). -/
  | xorCompact (f : Compact)
  /-- XOR_IMM_COMPACT (R37). -/
  | xorImmCompact (f : Compact)
  /-- ANDN_COMPACT (R37). -/
  | andnCompact (f : Compact)
  /-- NOT_COMPACT (R37). -/
  | notCompact (f : Compact)
  /-- SHL_COMPACT (R75). -/
  | shlCompact (f : Compact)
  /-- SHL_IMM_COMPACT (R75). -/
  | shlImmCompact (f : Compact)
  /-- SHR_COMPACT (R75). -/
  | shrCompact (f : Compact)
  /-- SHR_IMM_COMPACT (R75). -/
  | shrImmCompact (f : Compact)
  /-- SAR_COMPACT (R75). -/
  | sarCompact (f : Compact)
  /-- SAR_IMM_COMPACT (R75). -/
  | sarImmCompact (f : Compact)
  /-- IMIN_S32_COMPACT (R37). -/
  | iminS32Compact (f : Compact)
  /-- IMAX_S32_COMPACT (R37). -/
  | imaxS32Compact (f : Compact)
  /-- IMIN_N32_COMPACT (R37). -/
  | iminN32Compact (f : Compact)
  /-- IMAX_N32_COMPACT (R37). -/
  | imaxN32Compact (f : Compact)
  /-- INEG_S32_COMPACT (R37). -/
  | inegS32Compact (f : Compact)
  /-- AMOV (R329). -/
  | amov (m : Mcc)
  /-- ALI (R329). -/
  | ali (m : Mcc)
  /-- AADD (R329). -/
  | aadd (m : Mcc)
  /-- ASUB (R329). -/
  | asub (m : Mcc)
  /-- AMUL (R329). -/
  | amul (m : Mcc)
  /-- AAND (R329). -/
  | aand (m : Mcc)
  /-- AOR (R329). -/
  | aor (m : Mcc)
  /-- ASHL (R329). -/
  | ashl (m : Mcc)
  /-- ASHR (R329). -/
  | ashr (m : Mcc)
  /-- ACMP (R329). -/
  | acmp (m : Mcc)
  /-- ABR (R329). -/
  | abr (m : Mcc)
  /-- ABC (R329). -/
  | abc (m : Mcc)
  /-- ALOOP (R329). -/
  | aloop (m : Mcc)
  /-- ACALL (R329). -/
  | acall (m : Mcc)
  /-- ARET (R329). -/
  | aret (m : Mcc)
  /-- ALD (R330). -/
  | ald (m : Mcc)
  /-- AST (R330). -/
  | ast (m : Mcc)
  /-- EVWAIT (R335). -/
  | evwait (m : Mcc)
  /-- EVPOP (R335). -/
  | evpop (m : Mcc)
  /-- TRES (R333). -/
  | tres (m : Mcc)
  /-- TREL (R333). -/
  | trel (m : Mcc)
  /-- MMA (R332). -/
  | mma (m : Mcc)
  /-- MMA_M (R317). -/
  | mmaM (m : Mcc)
  /-- MXZERO (R332). -/
  | mxzero (m : Mcc)
  /-- MXDRAIN (R332). -/
  | mxdrain (m : Mcc)
  /-- MXDRAIN_ACC (R332). -/
  | mxdrainAcc (m : Mcc)
  /-- MXDRAIN_CHK (R332). -/
  | mxdrainChk (m : Mcc)
  /-- MXSCL (R323). -/
  | mxscl (m : Mcc)
  /-- MXTOL (R334). -/
  | mxtol (m : Mcc)
  /-- MXSTAT (R334). -/
  | mxstat (m : Mcc)
  /-- ABWAIT (R336). -/
  | abwait (m : Mcc)
  /-- ABARV (R336). -/
  | abarv (m : Mcc)
  /-- AREL (R336). -/
  | arel (m : Mcc)
  /-- AHALT (R336). -/
  | ahalt (m : Mcc)
  /-- YIELD_EXPIRY (R162). -/
  | yieldExpiry (coil slot : Nat)
  /-- FWAIT_COMPLETE (R206). -/
  | fwaitComplete (coil k : Nat)
  /-- SLEEPN_EXPIRY (R208). -/
  | sleepnExpiry (coil slot : Nat)
  /-- RESULT_WRITEBACK (R41). -/
  | resultWriteback (coil fibre flag : Nat)
  /-- GBAR_WAIT_COMPLETE (R270). -/
  | gbarWaitComplete (coil k : Nat)
  /-- COPY_COMMAND_START (R305). -/
  | copyCommandStart (id : Nat)
  /-- ENGINE_BYTES_LANDED (R288). -/
  | engineBytesLanded (id granule : Nat)
  /-- GATHER_ELEMENT (R296). -/
  | gatherElement (id element : Nat)
  /-- COPY_COMMAND_END (R286). -/
  | copyCommandEnd (id : Nat)
  /-- SCOUT_COMMAND_EXECUTE (R349). -/
  | scoutCommandExecute (core : Nat)
  /-- SG_IMAGE_LOADED (R370). -/
  | sgImageLoaded (coil slot : Nat)
  /-- SURROGATE_CALL_EVALUATE (R375). -/
  | surrogateCallEvaluate (core : Nat)
  /-- PWAIT_TIMEOUT (R397). -/
  | pwaitTimeout (coil k : Nat)
  /-- SCRUB_STEP (R399). -/
  | scrubStep (id : Nat) (peers : List (BitVec 256))
  /-- MATRIX_COMMAND_START (R338). -/
  | matrixCommandStart (core : Nat)
  /-- MATRIX_COMMAND_END (R322). -/
  | matrixCommandEnd (core : Nat)
  /-- QUEUE_PACKET_CONSUME (R16). -/
  | queuePacketConsume (slot : Nat)
  /-- COIL_PLACE (R15). -/
  | coilPlace (launch core : Nat)
  /-- COIL_RESTART (R194). -/
  | coilRestart (coil core : Nat)
  /-- PACKING_WINDOW_EXPIRY (R160). -/
  | packingWindowExpiry (core : Nat)
  /-- PARKING (R149). -/
  | parking (core slot : Nat)
  /-- PREEMPTION (R193). -/
  | preemption (coil : Nat)
  /-- REGISTRY_SCAN (R185). -/
  | registryScan (die : Nat)
  /-- NOTIFY (R183). -/
  | notify (slot : Nat) (w : BitVec 64)
  /-- MAP (R185). -/
  | mapQueue (slot : Nat) (w : BitVec 64)
  /-- UNMAP (R185). -/
  | unmapQueue (slot : Nat) (w : BitVec 64)
  /-- TLB_INVALIDATE (R231). -/
  | tlbInvalidate (w : BitVec 64)
  /-- GSDRAIN (R302). -/
  | gsdrain (w : BitVec 64)
  /-- PREEMPT (R415). -/
  | preemptCoil (w : BitVec 64)
  /-- KILL (R415). -/
  | killCoil (w : BitVec 64)
  /-- RESTART (R415). -/
  | restartCoil (w : BitVec 64)
  /-- STOP (R430). -/
  | stopCoil (w : BitVec 64)
  /-- RESUME (R430). -/
  | resumeCoil (w : BitVec 64)
  /-- STEP (R430). -/
  | stepCoil (w : BitVec 64)
  /-- ACTIVATE (R390). -/
  | survActivate (w : BitVec 64)
  /-- REPLACE (R390). -/
  | survReplace (w : BitVec 64)
  /-- DEACTIVATE (R390). -/
  | survDeactivate (w : BitVec 64)
  /-- SYSRVAL_WRITE (R423). -/
  | sysrvalWrite (app : Nat) (x : BitVec 64)
  /-- INTSTAT_WRITE (R458). -/
  | intstatWrite (w : BitVec 64)
  /-- DBGDATA_ACCESS (R467). -/
  | dbgdataAccess (w : Option (BitVec 64))
  /-- REGISTER_WRITE (R457). -/
  | registerWrite (off : Nat) (w : BitVec 64)
  /-- BARRIER_CHECKER_PERIOD (R435). -/
  | barrierCheckerPeriod (core : Nat)
  /-- PROFILING_TICK (R437). -/
  | profilingTick
  /-- SIDE_ECC_LOW (R247). -/
  | sideEccLow (die : Nat)
  /-- POWER_BUCKET_REFILL (R468). -/
  | powerBucketRefill
  /-- ISLAND_FREQUENCY_CHANGE (R468). -/
  | islandFrequencyChange (island mhz : Nat)
  /-- THERMSTAT_UPDATE (R469). -/
  | thermstatUpdate (temps : BitVec 64)
  /-- POWER_ON (R463). -/
  | powerOn
  /-- PIN (R470). -/
  | pinReset
  /-- SOFTWARE (R470). -/
  | softwareReset (w : BitVec 64)
  /-- WATCHDOG (R470). -/
  | watchdogReset
  /-- FW_FATAL (R470). -/
  | fwFatal (code : BitVec 16)
  /-- CHALLENGE (R462). -/
  | challenge
  /-- ATTEST (R464). -/
  | attest (nonce : BitVec 384)
  /-- UNLOCK (R466). -/
  | unlock (token : Token)
  /-- RESET (R462). -/
  | mgmtReset
  /-- FWUPDATE (R462). -/
  | fwupdate (image : List (BitVec 8))
  /-- TELEMETRY (R462). -/
  | telemetry
  /-- KEYLOAD (R462). -/
  | keyload (slot : Nat) (key : BitVec 512)
  /-- KEYZERO (R462). -/
  | keyzero (slot : Nat)
  /-- OSIER_PORT_STATE_CHANGE (R459). -/
  | osierPortStateChange (port : Nat) (peer : BitVec 16) (lanes : BitVec 4) (state : BitVec 2)
  /-- OSIER_FLIT_RECEIVE (R459). -/
  | osierFlitReceive (port : Nat) (retried : Bool)
  /-- PEER_REQUEST (R263), through a port. -/
  | peerRequest (r : PeerReq)
  /-- LINK_TIMEOUT (R460). -/
  | linkTimeout (dev : Nat)
  /-- MEMBER_RESET_REPORT (R390). -/
  | memberResetReport (dev : Nat)
  /-- PARITY_DELTA_APPLY (R391). -/
  | parityDeltaApply (group sender seq stripe off : Nat) (delta : BitVec 256)
  /-- DELTA_ACK (R392). -/
  | deltaAck (group holder seq : Nat)
  /-- SURV_SECTOR_REQUEST (R394). -/
  | survSectorRequest (group stripe off : Nat)
  /-- SURV_RECONSTRUCTED (R394). -/
  | survReconstructed (group sector : Nat) (peers : List (BitVec 256))
  /-- PCIE_AER (R461). -/
  | pcieAer (e : AerError)
  /-- PCIE_INBOUND_DMA (R461). -/
  | pcieInboundDma (port : Nat) (rid : BitVec 16) (r : MemReq)
  /-- UNIT_RETIRED (R23). -/
  | unitRetired (cluster : Bool) (n : Nat)
  /-- PAGE_RETIRED (R23). -/
  | pageRetired (stack pch : Nat) (page : Option (BitVec 64))
  /-- REGFILE_LATENT (R416). -/
  | regfileLatent (coil : Nat) (fibre : Option Nat) (reg : Nat)
  /-- SRAM_ERROR (R418). -/
  | sramError (e : SramError)
  /-- UNASSIGNED_ENCODING (R49). -/
  | unassignedEncoding (f : DecodeFault)
  /-- INSTRUCTION_FETCH_FAULT (R27). -/
  | instructionFetchFault (code : BitVec 16) (sub : Nat) (word : Nat)
  /-- APPLICATION_CORE_MEMORY_ACCESS (R263). -/
  | applicationCoreMemoryAccess (app : Nat) (r : MemReq)
  /-- PCIE_PORT_STATE_CHANGE (R458). -/
  | pciePortStateChange (port : Nat)
  /-- FUSE_TRANSITION (R465). -/
  | fuseTransition (state : BitVec 3)
  /-- MEASUREMENT_EXTENSION (R464). -/
  | measurementExtension (reg : Nat) (digest : BitVec 384)
  deriving DecidableEq, Repr

end Sys2Proof
end

