-- ==== Sys2Proof/Decode.lean ====
section
/-! DEFINITION. The instruction formats (02_encoding.md R26 to R51; 11_matrix.md R326): what each field of each instruction may hold,
the decoder on the words of an instruction, the decode faults, and the encoder. -/

namespace Sys2Proof

/-! ## Fields -/

/-- Sign extension to an integer. -/
def sext (w : Nat) (n : Nat) : Int := if n < 2 ^ (w - 1) then (n : Int) else (n : Int) - 2 ^ w

/-- The lowest set bit of a number below 2^fuel. -/
def lowBit : Nat → Nat → Nat
  | 0, _ => 0
  | fuel + 1, n => if n % 2 = 1 then 0 else lowBit fuel (n / 2) + 1

/-- MOD, bits 63:61 (R29). -/
def Main.mod (m : Main) : Nat := m.x.toNat / 256
/-- C, bits 60:53 (R29). -/
def Main.c (m : Main) : Nat := m.x.toNat % 256
/-- SETF, bits 56:53 (R29). -/
def Main.setf (m : Main) : Nat := m.x.toNat % 16
/-- IMM11, bits 63:53 (R29). -/
def Main.imm (m : Main) : Nat := m.x.toNat
/-- IMM11 extended by the literal, sign-extended (R30). -/
def Main.simm (m : Main) : Int :=
  match m.lit with
  | none => sext 11 m.imm
  | some l => sext 43 (l.toNat * 2048 + m.imm)
/-- Bit k of MOD. -/
def Main.modBit (m : Main) (k : Nat) : Bool := m.x.getLsbD (8 + k)
/-- The uniform form of an instruction marked U (R67). -/
def Main.uni (m : Main) : Bool := m.modBit 2
/-- A 64-bit type T (R67). -/
def Main.wide (m : Main) : Bool := m.modBit 1

/-- MOD of an MCC instruction (R326). -/
def Mcc.mod (m : Mcc) : Nat := m.x.toNat / 256
/-- C of an MCC instruction (R326). -/
def Mcc.c (m : Mcc) : Nat := m.x.toNat % 256
/-- IMM26 with the literal that extends it, sign-extended (R326). -/
def Mcc.simm (m : Mcc) : Int :=
  let n := m.e.toNat * 2048 + m.x.toNat
  match m.lit with
  | none => sext 26 n
  | some l => sext 58 (l.toNat * 67108864 + n)

/-! ## Shapes -/

/-- What a field may hold (R31). `zero` is an unused field; `to n` is 0 to n; `v k` names k consecutive vector registers, `va k` such
a block at a multiple of k; `s k` names k uniform registers at a multiple of k; `bits z ok` is a field whose bits of mask z are zero
and whose value is in range when ok. -/
inductive Fld where
  | zero
  | any
  | to (n : Nat)
  | v (k : Nat)
  | va (k : Nat)
  | vpair2
  | s (k : Nat)
  | bits (z : Nat) (ok : Bool)
  deriving DecidableEq, Repr

/-- The bits of a field that must be zero. -/
def Fld.mask : Fld → Nat
  | .zero => 255
  | .bits z _ => z
  | _ => 0

/-- Whether a field value is in the class, for a window of win registers (R31). -/
def Fld.ok (win : Nat) (n : Nat) : Fld → Bool
  | .zero => true
  | .any => true
  | .to k => n ≤ k
  | .v k => n + k ≤ win
  | .va k => n % k = 0 && n + k ≤ win
  | .vpair2 => n % 2 = 0 && n + 3 ≤ win
  | .s k => n % k = 0 && n + k ≤ 64
  | .bits _ b => b

/-- Whether a field names one vector register or a pair, which counts for the bank rule (R35). -/
def Fld.banked : Fld → Bool
  | .v k => k = 1
  | .va k => k = 2
  | _ => false

/-- The layout of X (R29). -/
inductive Layout where
  | c | setf | imm
  deriving DecidableEq, Repr

/-- The role of the literal (R30). -/
inductive LitRole where
  | none | repB | repBReq | ext
  deriving DecidableEq, Repr

/-- What an instruction's fields may hold. `immZero` are bits of IMM11 and `litZero` bits of the literal that must be zero; `immOk` and
`litOk` are the range conditions on them; `dSrc` says that D counts as a source for the bank rule; `needSetf` that SETF names a flag. -/
structure Shape where
  lay : Layout
  modOk : Bool
  d : Fld
  a : Fld
  b : Fld
  c : Fld
  lit : LitRole
  unguarded : Bool
  immZero : Nat
  immOk : Bool
  litZero : Nat
  dSrc : Bool
  needSetf : Bool
  deriving DecidableEq, Repr

/-- A shape of the SETF layout with nothing used. -/
def Shape.setf : Shape :=
  { lay := .setf, modOk := true, d := .zero, a := .zero, b := .zero, c := .any, lit := .none, unguarded := false,
    immZero := 0, immOk := true, litZero := 0, dSrc := false, needSetf := false }
/-- A shape of the C layout with nothing used. -/
def Shape.cl : Shape := { Shape.setf with lay := .c, c := .zero }
/-- A shape of the IMM11 layout with nothing used. -/
def Shape.im : Shape := { Shape.setf with lay := .imm }

/-- P class. -/
def Fld.p : Fld := .to 15
/-- B class. -/
def Fld.bar : Fld := .to 15
/-- G, HS, SM, M and SG classes. -/
def Fld.r8 : Fld := .to 7
/-- A register of V or S class, single or pair (R67). -/
def Fld.reg (uni wide : Bool) : Fld :=
  match uni, wide with
  | false, false => .v 1
  | false, true => .va 2
  | true, false => .s 1
  | true, true => .s 2

/-- `OP.T d, a, b` with U:T in MOD. -/
def Shape.arith (m : Main) : Shape :=
  { Shape.setf with d := .reg m.uni m.wide, a := .reg m.uni m.wide, b := .reg m.uni m.wide, lit := .repB }
/-- `OP.T d, a` with U:T in MOD. -/
def Shape.arith1 (m : Main) : Shape :=
  { Shape.setf with d := .reg m.uni m.wide, a := .reg m.uni m.wide }
/-- `OP d, a, b` on 32 bits, uniform by MOD bit 2. -/
def Shape.logic (m : Main) : Shape :=
  { Shape.setf with d := .reg m.uni false, a := .reg m.uni false, b := .reg m.uni false, lit := .repB }
/-- `OP d, a` on 32 bits, uniform by MOD bit 2. -/
def Shape.unary (m : Main) : Shape := { Shape.setf with d := .reg m.uni false, a := .reg m.uni false }
/-- `OP vd, va, vb`, with MOD at most k. -/
def Shape.v3 (m : Main) (k : Nat) (lit : LitRole) : Shape :=
  { Shape.setf with modOk := m.mod ≤ k, d := .v 1, a := .v 1, b := .v 1, lit := lit }
/-- `OP vd, va, vb, vc` in the C layout, with MOD at most k. -/
def Shape.v4 (m : Main) (k : Nat) : Shape :=
  { Shape.cl with modOk := m.mod ≤ k, d := .v 1, a := .v 1, b := .v 1, c := .v 1 }
/-- `OP vd, va`, with MOD at most k. -/
def Shape.v2 (m : Main) (k : Nat) : Shape := { Shape.setf with modOk := m.mod ≤ k, d := .v 1, a := .v 1 }
/-- A memory operand through slot MOD with a V base (R32), data in D. -/
def Shape.mem (d : Fld) : Shape := { Shape.setf with d := d, a := .v 1, b := .any, lit := .repB }
/-- A memory operand through slot MOD with an S base (R32). -/
def Shape.umem (d : Fld) : Shape := { Shape.setf with d := d, a := .s 1, b := .any, lit := .repB }
/-- A branch with a label (R152). -/
def Shape.branch : Shape := { Shape.im with lit := .ext }

/-- The number of element containers of a format that FCVT and F2I can name (R100, R119). -/
def containers : Nat → Nat
  | 1 => 2
  | 2 => 2
  | 4 => 4
  | 5 => 4
  | 6 => 4
  | 7 => 4
  | 8 => 8
  | _ => 1

/-- A V register, or a pair for F64 (code 3). -/
def Fld.fmt (code : Nat) : Fld := if code = 3 then .va 2 else .v 1

/-- Element registers of a quantised block (R125): n/4, or n/8 for E2M1. -/
def blockRegs (fmt : Nat) (n32 : Bool) : Nat :=
  let n := if n32 then 32 else 16
  if fmt = 4 then n / 8 else n / 4

/-- A QCVT or DQCVT selector (R125). -/
def selFmt (b : BitVec 8) : Nat := b.toNat % 8
/-- Selector bit 3: 32 elements. -/
def selN32 (b : BitVec 8) : Bool := b.getLsbD 3
/-- The block length a selector names. -/
def selN (b : BitVec 8) : Nat := if selN32 b then 32 else 16
/-- Selector bits 5:4: the transform. -/
def selH (b : BitVec 8) : Nat := b.toNat / 16 % 4
/-- Whether a selector's values are assigned. -/
def selOk (b : BitVec 8) : Bool := selFmt b ≤ 5 && selH b ≤ 2 && (selH b ≠ 2 || selN32 b)

/-- The register numbers that RDSR and WRSR may name (15_system.md R425). -/
def sysRegs : List Nat :=
  [0, 1, 2, 3, 4, 5, 6, 7, 8, 9, 0xC, 0xD, 0xE, 0xF, 0x10, 0x11, 0x12, 0x13, 0x20, 0x21, 0x22, 0x23]
  ++ [0x24, 0x25, 0x26, 0x27, 0x28, 0x29, 0x2A, 0x2B, 0x2C, 0x2D, 0x2E, 0x2F, 0x30, 0x31, 0x32, 0x38, 0x39, 0x3A, 0x3B]
  ++ [0x40, 0x41, 0x48, 0x49, 0x50, 0x51, 0x58, 0x59, 0x5A, 0x5B, 0x60]

/-- The shape of a main-format instruction, as its description gives it. A literal of SHRR with a bit above 5 set is RESERVED at that bit
(03_integer.md R84; DESIGN CHOICE, log 112). -/
def Instr.shape : Instr → Shape
  -- 03_integer.md
  | .iadd m => .arith m
  | .isub m => .arith m
  | .ineg m => .arith1 m
  | .iabs m => .arith1 m
  | .imul m => .arith m
  | .imulh m => .arith m
  | .imad m => { Shape.cl with d := .reg m.uni m.wide, a := .reg m.uni m.wide, b := .reg m.uni m.wide, c := .reg m.uni m.wide }
  | .imadw m => { Shape.cl with modOk := m.mod % 4 ≤ 1, d := .reg m.uni true, a := .reg m.uni false, b := .reg m.uni false,
                                c := .reg m.uni true }
  | .idiv m => .arith m
  | .irem m => .arith m
  | .imin m => .arith m
  | .imax m => .arith m
  | .isat m => { Shape.setf with d := .reg false m.wide, a := .reg false m.wide,
                                 b := .bits 0 (1 ≤ m.b.toNat && m.b.toNat ≤ if m.wide then 64 else 32) }
  | .icmp m => { Shape.cl with d := .p, a := .reg m.uni m.wide, b := .reg m.uni m.wide, c := .to 5, lit := .repB }
  | .andOp m => .logic m
  | .orOp m => .logic m
  | .xorOp m => .logic m
  | .andn m => .logic m
  | .notOp m => { Shape.unary m with modOk := m.mod % 4 = 0 }
  | .lut3 _ => { Shape.im with d := .v 1, a := .v 1, b := .v 1, immZero := 0x700, dSrc := true }
  | .shl m => .logic m
  | .shr m => .logic m
  | .sar m => .logic m
  | .rot m => .logic m
  | .fshl m => .v4 m 0
  | .bfx _ => { Shape.im with d := .v 1, a := .v 1 }
  | .bfi _ => { Shape.im with d := .v 1, a := .v 1, immZero := 0x400, dSrc := true }
  | .popc m => .unary m
  | .clz m => .unary m
  | .ctz m => .unary m
  | .brev m => .unary m
  | .bswap m => { Shape.unary m with modOk := m.mod % 4 ≤ 1 }
  | .sel m => { Shape.cl with modOk := m.mod ≤ 1, d := .reg false (m.mod = 1), a := .reg false (m.mod = 1),
                              b := .reg false (m.mod = 1), c := .p, lit := .repB }
  | .mov m => { Shape.setf with d := .reg (m.mod % 4 ≥ 2) m.uni, a := .reg (m.mod % 4 = 1 || m.mod % 4 = 2) m.uni }
  | .movl m => { Shape.setf with d := .reg m.uni (m.mod % 4 ≠ 0), b := .any, lit := .repBReq }
  | .pset _ => { Shape.im with d := .p, a := .v 1, immZero := 0x7E0 }
  | .plop _ => { Shape.im with d := .p, a := .p, b := .p, immZero := 0x7F0 }
  | .prdw m => { Shape.setf with modOk := m.mod = 0, d := .v 1 }
  | .pwrw m => { Shape.im with a := .v 1, lit := .ext, immOk := match m.lit with | none => true | some l => l.toNat < 32 }
  | .padd2 m => .v3 m 3 .repB
  | .psub2 m => .v3 m 3 .repB
  | .pmin2 m => .v3 m 1 .repB
  | .pmax2 m => .v3 m 1 .repB
  | .pmac2 m => .v4 m 1
  | .pmac4 m => .v4 m 2
  | .shrr m => { Shape.setf with d := .reg false (m.wide && !m.uni), a := .reg false m.wide, b := .v 1, lit := .repB,
                                 litZero := 0xFFFFFFC0 }
  | .lea m => { Shape.cl with d := .reg m.uni (m.mod % 4 ≠ 0), a := .reg m.uni (m.mod % 4 ≠ 0), b := .reg m.uni (m.mod % 4 = 3),
                              c := .to (if m.mod % 4 = 0 then 31 else 63) }
  | .adr m => { Shape.im with d := if m.b = 0 then .s 2 else if m.b = 1 then .va 2 else .any, b := .to 1, lit := .ext }
  | .ctxa m => { Shape.im with d := if m.b = 0 then .s 2 else if m.b = 1 then .va 2 else .any, b := .to 1, lit := .ext }
  | .smset m => { Shape.setf with modOk := m.mod = 0, d := .r8, a := .s 8 }
  | .smbind m => { Shape.setf with a := if m.b = 0 then .zero else .r8, b := .to 2 }
  | .smpos m => { Shape.setf with modOk := m.mod ≤ 2, d := if m.mod = 2 then .zero else .va 2, a := if m.mod = 2 then .va 2 else .zero,
                                  b := .r8 }
  | .smadv m => { Shape.setf with modOk := m.mod = 0, d := .r8, b := .v 1, lit := .repB }
  -- 04_floating.md
  | .fadd m => .v3 m 4 .repB
  | .fsub m => .v3 m 4 .repB
  | .fmul m => .v3 m 4 .repB
  | .ffma m => .v4 m 4
  | .fmin m => { Shape.setf with modOk := m.mod ≤ 3, d := .reg false m.wide, a := .reg false m.wide, b := .reg false m.wide }
  | .fmax m => { Shape.setf with modOk := m.mod ≤ 3, d := .reg false m.wide, a := .reg false m.wide, b := .reg false m.wide }
  | .fcmp m => { Shape.cl with modOk := m.mod ≤ 1, d := .p, a := .v 1, b := .v 1, c := .to 7, lit := .repB }
  | .dcmp m => { Shape.cl with modOk := m.mod ≤ 1, d := .p, a := .va 2, b := .va 2, c := .to 7 }
  | .fclass m => { Shape.setf with modOk := m.mod ≤ 3, d := .v 1, a := .reg false (m.mod = 1) }
  | .frnd m => .v2 m 4
  | .fscale m => .v3 m 4 .repB
  | .fgetexp m => .v2 m 0
  | .fadd2 m => .v3 m 7 .repB
  | .fmul2 m => .v3 m 7 .repB
  | .ffma2 m => .v4 m 7
  | .dadd m => { Shape.setf with modOk := m.mod ≤ 4, d := .va 2, a := .va 2, b := .va 2 }
  | .dmul m => { Shape.setf with modOk := m.mod ≤ 4, d := .va 2, a := .va 2, b := .va 2 }
  | .dfma m => { Shape.cl with modOk := m.mod ≤ 4, d := .va 2, a := .va 2, b := .va 2, c := .va 2 }
  | .fcvt m => { Shape.im with d := .fmt (m.imm % 16), a := .fmt (m.imm / 16 % 16), b := .to (containers (m.imm / 16 % 16) - 1),
                               immOk := m.imm % 16 ≤ 8 && m.imm / 16 % 16 ≤ 8 && m.imm / 256 ≤ 4 }
  | .fcvtSr m => { Shape.im with d := .fmt (m.imm % 16), a := .fmt (m.imm / 16 % 16), b := .to (containers (m.imm / 16 % 16) - 1),
                                 immZero := 0x700, immOk := m.imm % 16 ≤ 8 && m.imm / 16 % 16 ≤ 8 }
  | .f2i m => { Shape.im with d := .reg false (m.imm / 16 % 8 = 2 || m.imm / 16 % 8 = 3), a := .fmt (m.imm % 16),
                              b := .to (containers (m.imm % 16) - 1), immZero := 0x80,
                              immOk := m.imm % 16 ≤ 5 && m.imm / 16 % 8 ≤ 6 && m.imm / 256 ≤ 4 }
  | .i2f m => { Shape.im with d := .fmt (m.imm % 16), a := .reg false (m.imm / 16 % 4 ≥ 2), immZero := 0xC0,
                              immOk := m.imm % 16 ≤ 3 && m.imm / 256 ≤ 4 }
  | .srseed m => { Shape.setf with modOk := m.mod ≤ 1, a := .reg (m.mod = 1) false }
  | .hadm m => { Shape.setf with modOk := m.mod = 0, d := .v (if m.b = 1 then 32 else 16), a := .v (if m.b = 1 then 32 else 16), b := .to 1 }
  | .qcvt m => { Shape.setf with modOk := m.mod ≤ 5, d := .v (blockRegs (selFmt m.b) (selN32 m.b) + 1), a := .v (selN m.b),
                                 b := .bits 0x80 (selOk m.b) }
  | .dqcvt m => { Shape.setf with modOk := m.mod ≤ 4, d := .v (selN m.b), a := .v (blockRegs (selFmt m.b) (selN32 m.b) + 1),
                                  b := .bits 0xC0 (selOk m.b) }
  -- 05_special.md
  | .exp2 m => .v2 m 7
  | .log2 m => .v2 m 7
  | .rcp m => .v2 m 7
  | .rsq m => .v2 m 7
  | .sqrt m => .v2 m 7
  | .sinOp m => .v2 m 7
  | .cosOp m => .v2 m 7
  | .tanh m => .v2 m 7
  | .sigm m => .v2 m 3
  | .erf m => .v2 m 3
  | .gelu m => .v2 m 3
  | .silu m => .v2 m 3
  | .fact m => { Shape.v4 m 5 with lit := .repB }
  | .rowmax m => { Shape.v2 m 3 with b := .to 63 }
  | .rowsum m => { Shape.v2 m 0 with b := .to 63 }
  | .rowstat m => { Shape.v2 m 0 with b := .to 63 }
  | .rownorm m => { Shape.v2 m 1 with b := .to 62 }
  | .smaxr m => { Shape.v2 m 0 with b := .to 62 }
  | .lse m => { Shape.v2 m 0 with b := .to 63 }
  -- 06_control.md
  | .bra _ => .branch
  | .braU _ => .branch
  | .brx m => { Shape.cl with modOk := m.mod ≤ 1, a := .va 2 }
  | .call _ => { Shape.branch with d := .va 2 }
  | .callx m => { Shape.cl with modOk := m.mod = 0, d := .va 2, a := .va 2 }
  | .ret m => { Shape.cl with modOk := m.mod = 0, a := .va 2 }
  | .loopOp m => { Shape.branch with
      d := .to 2
      a := if m.d = 0 then .v 1 else if m.d = 1 then .s 1 else if m.d = 2 then .zero else .any
      b := if m.d = 2 then .any else if m.d.toNat ≤ 1 then .zero else .any
      immOk := 4 * m.simm > if m.lit.isSome then 12 else 8 }
  | .pack m => { Shape.cl with modOk := m.mod = 0 }
  | .convm m => { Shape.cl with modOk := m.mod ≤ 1, a := if m.mod = 1 then .zero else .r8 }
  | .yieldOp _ => .im
  | .nop m => { Shape.setf with modOk := m.mod = 0 }
  | .part m => { Shape.im with d := .r8, b := if m.imm / 4 % 2 = 1 then .s 1 else .zero, immZero := 0x7F8 }
  | .gsync m => { Shape.setf with modOk := m.mod ≤ 1, b := .r8 }
  | .vote m => { Shape.setf with modOk := m.mod ≤ 2, d := .p, a := .p, b := .r8 }
  | .ballot m => { Shape.setf with modOk := m.mod = 0, d := .v 1, a := .p, b := .r8 }
  | .matchOp m => { Shape.setf with modOk := m.mod ≤ 1, d := .v 1, a := .reg false (m.mod = 1), b := .r8 }
  | .elect m => { Shape.setf with modOk := m.mod = 0, d := .p, b := .r8 }
  | .shfl m => { Shape.v2 m 3 with b := .bits (if m.b.getLsbD 3 then 0xF0 else 0) true }
  | .slide m => { Shape.v2 m 7 with modOk := m.mod % 4 ≠ 3, b := .to 63 }
  | .bcast m => { Shape.setf with modOk := m.mod ≤ 1, d := .reg false (m.mod = 1), a := .reg false (m.mod = 1), b := .bits 8 true }
  | .scan m => { Shape.v2 m 7 with modOk := m.mod = 0 || m.b.getLsbD 7, b := .any }
  | .gred m => { Shape.v2 m 0 with b := .bits 0x80 (m.b.toNat / 8 % 16 ≤ 10) }
  -- 07_work.md
  | .fibnew m => { Shape.cl with modOk := m.mod = 0, d := .v 1, a := .va 2, b := .v 4 }
  | .fibend _ => { Shape.im with immZero := 0x7FF }
  | .spawn m => { Shape.cl with modOk := m.mod = 0, a := .s 2, b := .va 2, c := .v 4 }
  | .launch _ => .umem .zero
  | .fork _ => .umem .zero
  | .region _ => { Shape.im with immZero := 0x600, unguarded := true }
  | .fnew _ => .mem .zero
  | .fres _ => .mem (.va 2)
  | .fthen _ => .mem (.va 2)
  | .fread _ => .mem .vpair2
  | .fwait _ => .mem .vpair2
  | .engfork m => { Shape.setf with modOk := m.mod = 0, a := .s 2, b := .s 8 }
  | .rdv m => { Shape.setf with modOk := m.mod = 0, d := .s 2 }
  | .prio _ => { Shape.im with immZero := 0x7FC }
  | .qpoll m => { Shape.setf with modOk := m.mod = 0, d := .s 2, a := .s 1 }
  | .sleepn m => { Shape.im with a := if m.x.getLsbD 10 then .s 1 else .zero, immZero := if m.x.getLsbD 10 then 0x3FF else 0 }
  -- 08_memory.md
  | .ldB8 _ => .mem (.v 1)
  | .ldB16 _ => .mem (.v 1)
  | .ldB32 _ => .mem (.v 1)
  | .ldB64 _ => .mem (.va 2)
  | .ldB128 _ => .mem (.va 4)
  | .stB8 _ => .mem (.v 1)
  | .stB16 _ => .mem (.v 1)
  | .stB32 _ => .mem (.v 1)
  | .stB64 _ => .mem (.va 2)
  | .stB128 _ => .mem (.va 4)
  | .lds m => { Shape.mem (if m.mod = 3 then .va 2 else if m.mod = 4 then .va 4 else .v 1) with modOk := m.mod ≤ 4 }
  | .sts m => { Shape.mem (if m.mod = 3 then .va 2 else if m.mod = 4 then .va 4 else .v 1) with modOk := m.mod ≤ 4 }
  | .lduB32 _ => .umem (.s 1)
  | .lduB64 _ => .umem (.s 2)
  | .ldmx _ => .mem (.v 1)
  | .stmx _ => .mem (.v 1)
  | .pfL1 _ => .mem .any
  | .pfL2 _ => .mem .any
  | .cctlInv _ => .mem .any
  | .cctlInvall m => { Shape.setf with d := .any, modOk := m.mod = 0, lit := .repB }
  | .cctlWb _ => .mem .any
  | .cctlWbinv _ => .mem .any
  | .icinvCore _ => .mem .any
  | .icinvDev _ => .mem .any
  | .atom m => { Shape.setf with d := .reg false (m.b.getLsbD 4), a := .v 1, b := .bits 0 (m.b.toNat % 16 ≤ 13) }
  | .atoms m => { Shape.setf with modOk := m.mod = 0, d := .reg false (m.b.getLsbD 4), a := .v 1,
                                  b := .bits 0x80 (m.b.toNat % 16 ≤ 13) }
  | .atred m => { Shape.setf with d := .reg false (m.b.getLsbD 4), a := .v 1, b := .bits 0 (m.b.toNat % 16 ≤ 13) }
  | .cas m => { Shape.setf with d := if m.b.getLsbD 4 then .va 4 else .v 2, a := .v 1, b := .bits 0x0F true }
  | .hbind _ => { Shape.setf with a := .s 1, b := .s 2 }
  | .hqry _ => { Shape.setf with d := .s 4 }
  | .sptmapSwap m => { Shape.setf with modOk := m.mod ≤ 1, a := .s 1, b := .s 1 }
  | .sptmapRd m => { Shape.setf with modOk := m.mod ≤ 1, d := .s 2, a := .s 1 }
  -- 09_ordering.md
  | .acq m => { Shape.setf with d := .s 2, b := .bits 0 (m.b.toNat < 16 && m.b.toNat % 8 ≠ 0 && m.b.toNat % 8 ≠ 7) }
  | .rel m => { Shape.setf with b := .bits 0 (m.b.toNat < 16 && m.b.toNat % 8 ≠ 0 && m.b.toNat % 8 ≠ 7) }
  | .fence m => { Shape.setf with modOk := m.mod ≠ 0, b := .to (if m.mod = 7 then 0 else 2) }
  | .gbarArv _ => { Shape.setf with d := .s 1, a := .s 1, b := .to 3 }
  | .gbarWait _ => { Shape.setf with d := .s 1, a := .s 1, b := .to 3 }
  | .binit m => { Shape.setf with modOk := m.mod = 0, d := .bar, a := .s 1 }
  | .barv m => { Shape.setf with modOk := m.mod = 0, d := .v 1, a := .bar }
  | .barx m => { Shape.setf with modOk := m.mod = 0, d := .v 1, a := .bar, b := .v 1, lit := .repB }
  | .bwait m => { Shape.setf with modOk := m.mod = 0, d := .p, a := .bar, b := .v 1 }
  | .btest m => { Shape.setf with modOk := m.mod = 0, d := .va 2, a := .bar }
  | .bcan m => { Shape.setf with modOk := m.mod = 0, a := .bar }
  -- 10_copy_gather.md
  | .cpy _ => .umem .zero
  | .cpyt _ => .umem .zero
  | .cpym _ => .umem .zero
  | .cpyc m => { Shape.setf with modOk := m.mod ≤ 3, d := if m.mod = 3 then .s 1 else .zero, a := if m.mod = 1 then .s 1 else .zero,
                                 b := if m.mod = 1 then .r8 else .zero }
  | .gath _ => .umem .zero
  | .scat _ => .umem .zero
  | .scata _ => .umem .zero
  | .gstat m => { Shape.setf with modOk := m.mod ≤ 2, d := if m.mod = 0 then .s 1 else .s 2, a := if m.mod = 2 then .s 1 else .zero }
  -- 11_matrix.md
  | .tld m => { Shape.setf with modOk := m.mod = 0, d := .v 1, a := .v 1, b := .to 63 }
  | .tldT m => { Shape.setf with modOk := m.mod = 0, d := .v 1, a := .v 1, b := .to 63 }
  | .tst m => { Shape.setf with modOk := m.mod = 0, d := .v 1, a := .v 1, b := .to 63 }
  | .accrd m => { Shape.setf with modOk := m.mod = 0, d := .v 1, a := .v 1, b := .to 63 }
  -- 12_scout.md
  | .scout _ => { Shape.setf with b := .s 8 }
  | .tmask m => { Shape.setf with modOk := m.mod = 0, d := .r8, b := .to 62 }
  | .mkand m => { Shape.setf with modOk := m.mod ≤ 1, d := .r8, a := .r8, b := .r8 }
  | .mkor m => { Shape.setf with modOk := m.mod ≤ 1, d := .r8, a := .r8, b := .r8 }
  | .mkpop m => { Shape.setf with modOk := m.mod ≤ 1, d := .s 1, a := .r8, b := if m.mod = 1 then .s 1 else .zero }
  | .mkrd m => { Shape.setf with modOk := m.mod = 0, d := .s 4, a := .r8 }
  | .mkwr m => { Shape.setf with modOk := m.mod = 0, d := .r8, a := .s 4 }
  -- 13_surrogate.md
  | .sgload _ => { Shape.umem .r8 with lit := .repB }
  | .sgcall m => { Shape.setf with modOk := m.mod = 0, d := .v 1, a := .v 1, b := .bits 0x80 true, needSetf := true }
  | .sgrec m => { Shape.setf with modOk := m.mod = 0, d := .r8, a := .s 2 }
  | .sgmerge m => { Shape.setf with modOk := m.mod = 0, a := .v 1, unguarded := true }
  | .sgrel m => { Shape.setf with modOk := m.mod = 0, d := .r8 }
  | .sgqb m => { Shape.setf with modOk := m.mod ≤ 1, d := if m.mod = 1 then .s 2 else .to 15, a := if m.mod = 1 then .to 15 else .s 2 }
  | .sgcnt _ => { Shape.setf with d := .s 2, a := .r8, b := .to 5 }
  | .sgcntClr _ => { Shape.setf with a := .r8 }
  | .sgdis _ => { Shape.setf with a := .r8 }
  | .sgdisEn _ => { Shape.setf with a := .r8 }
  | .sgdisRd _ => { Shape.setf with d := .s 2 }
  | .sginv _ => .umem .zero
  -- 14_survivable.md
  | .pgrp m => { Shape.setf with modOk := m.mod = 0, d := .s 2, a := .s 1, b := .to 7 }
  | .pstat m => { Shape.setf with modOk := m.mod = 0, d := .s 2, a := .s 1, b := .to 6 }
  | .pwait m => { Shape.setf with modOk := m.mod = 0, d := .p, a := .s 1, b := .s 1 }
  | .pscrub _ => { Shape.setf with d := .s 2, a := .s 1, b := .s 2 }
  | .pscrubFix _ => { Shape.setf with d := .s 2, a := .s 1, b := .s 2 }
  | .prebuild _ => { Shape.setf with d := .s 2, a := .s 1, b := .s 2 }
  -- 15_system.md
  | .trapOp _ => .im
  | .sysc _ => .mem .any
  | .hretRetry _ => .setf
  | .hretSkip _ => .setf
  | .rdsr m => { Shape.setf with modOk := m.mod ≤ 3, d := .reg (m.mod ≥ 2) (m.mod % 2 = 1), b := .bits 0 (sysRegs.contains m.b.toNat) }
  | .wrsr m => { Shape.setf with modOk := m.mod ≤ 3, a := .reg (m.mod ≥ 2) (m.mod % 2 = 1), b := .bits 0 (sysRegs.contains m.b.toNat) }
  | .brk _ => .im
  | .watch m => { Shape.setf with d := .bits 0xF0 true, a := if m.d.toNat / 4 % 4 = 0 then .zero else .s 1,
                                  b := if m.d.toNat / 4 % 4 = 0 then .zero else .s 1 }
  | .dbgmark m => { Shape.setf with modOk := m.mod = 0, a := .s 1, b := .any }
  | .rdcnt m => { Shape.setf with modOk := m.mod = 0, d := .s 2, b := .to 7 }
  | .errq m => { Shape.setf with modOk := m.mod = 0, a := .s 2, b := .any }
  | .chkset m => { Shape.setf with modOk := m.mod = 0, a := .s 1 }
  | _ => .setf

/-! ## MCC shapes (11_matrix.md R326, R327, R331) -/

/-- What an MCC instruction's fields may hold. `eMask` are the bits of E that must be zero. -/
structure MccShape where
  imm : Bool
  modOk : Bool
  d : Fld
  a : Fld
  b : Fld
  c : Fld
  eMask : Nat
  lit : LitRole
  deriving DecidableEq, Repr

/-- The A class, a0 to a31. -/
def Fld.ar : Fld := .to 31
/-- An engine field: 0 to 3, or 4 for SELF. -/
def Fld.eng : Fld := .to 4
/-- An MCC shape with C plus MOD and nothing used. -/
def MccShape.cl : MccShape :=
  { imm := false, modOk := true, d := .zero, a := .zero, b := .zero, c := .zero, eMask := 0x7FFF, lit := .none }
/-- An MCC shape with IMM26. -/
def MccShape.im : MccShape := { MccShape.cl with imm := true, c := .any, eMask := 0, lit := .ext }
/-- `OP ad, aa, x` (R329). -/
def MccShape.alu (m : Mcc) : MccShape :=
  { MccShape.cl with modOk := m.mod ≤ 1, d := .ar, a := .ar, b := if m.mod % 2 = 1 then .any else .ar, lit := .repB }
/-- A shift (R329). -/
def MccShape.shift (m : Mcc) (k : Nat) : MccShape :=
  { MccShape.cl with modOk := m.mod ≤ k, d := .ar, a := .ar, b := if m.mod % 2 = 1 then .to 63 else .ar }

/-- The shape of an MCC instruction. -/
def Instr.mccShape : Instr → MccShape
  | .amov m => { MccShape.cl with modOk := m.mod = 0, d := .ar, a := .ar }
  | .ali _ => { MccShape.im with d := .ar }
  | .aadd m => .alu m
  | .asub m => .alu m
  | .amul m => .alu m
  | .aand m => .alu m
  | .aor m => .alu m
  | .ashl m => .shift m 1
  | .ashr m => .shift m 3
  | .acmp m => { MccShape.alu m with c := .to 5 }
  | .abr _ => .im
  | .abc _ => { MccShape.im with d := .to 1, a := .ar }
  | .aloop _ => { MccShape.im with a := .ar }
  | .acall _ => { MccShape.im with d := .ar }
  | .aret m => { MccShape.cl with modOk := m.mod = 0, a := .ar }
  | .ald _ => { MccShape.cl with d := .ar, a := .ar, b := .any, lit := .repB }
  | .ast _ => { MccShape.cl with d := .ar, a := .ar, b := .any, lit := .repB }
  | .evwait m => { MccShape.cl with modOk := m.mod = 0 }
  | .evpop m => { MccShape.cl with modOk := m.mod = 0, d := .bits 0 (m.d.toNat % 2 = 0 && m.d.toNat < 32) }
  | .tres m => { MccShape.cl with modOk := m.mod = 0, d := .eng, a := .to 31, b := .ar }
  | .trel m => { MccShape.cl with modOk := m.mod = 0, d := .eng, a := .to 31 }
  | .mma m => { MccShape.cl with modOk := m.mod = 0, d := .eng, a := .to 15, b := .to 31, c := .to 31, eMask := 0x80 }
  | .mmaM _ => { MccShape.cl with d := .eng, a := .to 15, b := .to 31, c := .to 31, eMask := 0 }
  | .mxzero m => { MccShape.cl with modOk := m.mod ≤ 1, d := .eng, a := .to 15, eMask := 0xFF }
  | .mxdrain _ => { MccShape.cl with d := .eng, a := .to 15, b := .to 31, eMask := 0xE0 }
  | .mxdrainAcc _ => { MccShape.cl with d := .eng, a := .to 15, eMask := 0xE0 }
  | .mxdrainChk _ => { MccShape.cl with d := .eng, a := .to 15, b := .to 15, eMask := 0xE0 }
  | .mxscl m => { MccShape.cl with modOk := m.mod = 0, d := .eng, a := .ar, b := .ar }
  | .mxtol m => { MccShape.cl with modOk := m.mod = 0, a := .ar }
  | .mxstat m => { MccShape.cl with modOk := m.mod = 0, d := .ar, a := .ar, b := .eng, c := .to 3 }
  | .abwait m => { MccShape.cl with modOk := m.mod = 0, d := .ar, a := .to 15, b := .ar }
  | .abarv m => { MccShape.cl with modOk := m.mod = 0, d := .ar, a := .to 15 }
  | .arel m => { MccShape.cl with modOk := 1 ≤ m.mod && m.mod ≤ 6 }
  | .ahalt m => { MccShape.cl with modOk := m.mod = 0 }
  | _ => .cl

/-- What the fields of a compact instruction may hold (02_encoding.md R37). -/
def Instr.compactShape : Instr → Fld × Fld × Fld
  | .nopCompact _ => (.zero, .zero, .zero)
  | .movCompact _ => (.v 1, .v 1, .zero)
  | .movImmCompact _ => (.v 1, .zero, .any)
  | .iaddS32ImmCompact _ => (.v 1, .v 1, .any)
  | .isubS32ImmCompact _ => (.v 1, .v 1, .any)
  | .andImmCompact _ => (.v 1, .v 1, .any)
  | .orImmCompact _ => (.v 1, .v 1, .any)
  | .xorImmCompact _ => (.v 1, .v 1, .any)
  | .notCompact _ => (.v 1, .v 1, .zero)
  | .shlImmCompact _ => (.v 1, .v 1, .to 31)
  | .shrImmCompact _ => (.v 1, .v 1, .to 31)
  | .sarImmCompact _ => (.v 1, .v 1, .to 31)
  | .inegS32Compact _ => (.v 1, .v 1, .zero)
  | _ => (.v 1, .v 1, .v 1)

/-! ## Opcodes -/

/-- How an instruction is encoded: compact with its COP, main with its OPC, on the MCC, or not at all (an event). -/
inductive Form where
  | compact (cop : Nat) (f : Compact)
  | main (opc : Nat) (m : Main)
  | mcc (opc : Nat) (m : Mcc)
  | event
  deriving DecidableEq, Repr

/-- The format and opcode of an instruction (the opcode tables of each chapter). -/
def Instr.form : Instr → Form
  | .iadd m => .main 0x01 m
  | .isub m => .main 0x02 m
  | .ineg m => .main 0x03 m
  | .iabs m => .main 0x04 m
  | .imul m => .main 0x05 m
  | .imulh m => .main 0x06 m
  | .imad m => .main 0x07 m
  | .imadw m => .main 0x08 m
  | .idiv m => .main 0x09 m
  | .irem m => .main 0x0A m
  | .imin m => .main 0x0B m
  | .imax m => .main 0x0C m
  | .isat m => .main 0x0D m
  | .icmp m => .main 0x0E m
  | .andOp m => .main 0x0F m
  | .orOp m => .main 0x0F m
  | .xorOp m => .main 0x0F m
  | .andn m => .main 0x0F m
  | .notOp m => .main 0x10 m
  | .lut3 m => .main 0x11 m
  | .shl m => .main 0x12 m
  | .shr m => .main 0x12 m
  | .sar m => .main 0x12 m
  | .rot m => .main 0x12 m
  | .fshl m => .main 0x13 m
  | .bfx m => .main 0x14 m
  | .bfi m => .main 0x15 m
  | .popc m => .main 0x16 m
  | .clz m => .main 0x16 m
  | .ctz m => .main 0x16 m
  | .brev m => .main 0x16 m
  | .bswap m => .main 0x17 m
  | .sel m => .main 0x18 m
  | .mov m => .main 0x19 m
  | .movl m => .main 0x1A m
  | .pset m => .main 0x1B m
  | .plop m => .main 0x1C m
  | .prdw m => .main 0x1D m
  | .pwrw m => .main 0x1E m
  | .padd2 m => .main 0x1F m
  | .psub2 m => .main 0x20 m
  | .pmin2 m => .main 0x21 m
  | .pmax2 m => .main 0x22 m
  | .pmac2 m => .main 0x23 m
  | .pmac4 m => .main 0x24 m
  | .shrr m => .main 0x25 m
  | .lea m => .main 0x26 m
  | .adr m => .main 0x27 m
  | .ctxa m => .main 0x28 m
  | .smset m => .main 0x29 m
  | .smbind m => .main 0x2A m
  | .smpos m => .main 0x2B m
  | .smadv m => .main 0x2C m
  | .fadd m => .main 0x30 m
  | .fsub m => .main 0x31 m
  | .fmul m => .main 0x32 m
  | .ffma m => .main 0x33 m
  | .fmin m => .main 0x34 m
  | .fmax m => .main 0x35 m
  | .fcmp m => .main 0x36 m
  | .dcmp m => .main 0x45 m
  | .fclass m => .main 0x37 m
  | .frnd m => .main 0x38 m
  | .fscale m => .main 0x39 m
  | .fgetexp m => .main 0x3A m
  | .fadd2 m => .main 0x3F m
  | .fmul2 m => .main 0x40 m
  | .ffma2 m => .main 0x41 m
  | .dadd m => .main 0x42 m
  | .dmul m => .main 0x43 m
  | .dfma m => .main 0x44 m
  | .fcvt m => .main 0x3B m
  | .fcvtSr m => .main 0x3C m
  | .f2i m => .main 0x3D m
  | .i2f m => .main 0x3E m
  | .srseed m => .main 0x49 m
  | .hadm m => .main 0x48 m
  | .qcvt m => .main 0x46 m
  | .dqcvt m => .main 0x47 m
  | .exp2 m => .main 0x50 m
  | .log2 m => .main 0x50 m
  | .rcp m => .main 0x50 m
  | .rsq m => .main 0x50 m
  | .sqrt m => .main 0x50 m
  | .sinOp m => .main 0x50 m
  | .cosOp m => .main 0x50 m
  | .tanh m => .main 0x50 m
  | .sigm m => .main 0x51 m
  | .erf m => .main 0x51 m
  | .gelu m => .main 0x51 m
  | .silu m => .main 0x51 m
  | .fact m => .main 0x52 m
  | .rowmax m => .main 0x53 m
  | .rowsum m => .main 0x54 m
  | .rowstat m => .main 0x55 m
  | .rownorm m => .main 0x56 m
  | .smaxr m => .main 0x57 m
  | .lse m => .main 0x58 m
  | .bra m => .main 0x60 m
  | .braU m => .main 0x61 m
  | .brx m => .main 0x62 m
  | .call m => .main 0x63 m
  | .callx m => .main 0x64 m
  | .ret m => .main 0x65 m
  | .loopOp m => .main 0x66 m
  | .pack m => .main 0x67 m
  | .convm m => .main 0x68 m
  | .yieldOp m => .main 0x69 m
  | .nop m => .main 0x6A m
  | .part m => .main 0x6B m
  | .gsync m => .main 0x6C m
  | .vote m => .main 0x6D m
  | .ballot m => .main 0x6E m
  | .matchOp m => .main 0x6F m
  | .elect m => .main 0x75 m
  | .shfl m => .main 0x70 m
  | .slide m => .main 0x71 m
  | .bcast m => .main 0x72 m
  | .scan m => .main 0x73 m
  | .gred m => .main 0x74 m
  | .fibnew m => .main 0x78 m
  | .fibend m => .main 0x79 m
  | .spawn m => .main 0x7A m
  | .launch m => .main 0x7B m
  | .fork m => .main 0x7C m
  | .region m => .main 0x7D m
  | .fnew m => .main 0x7E m
  | .fres m => .main 0x7F m
  | .fthen m => .main 0x80 m
  | .fread m => .main 0x81 m
  | .fwait m => .main 0x82 m
  | .engfork m => .main 0x83 m
  | .rdv m => .main 0x84 m
  | .prio m => .main 0x85 m
  | .qpoll m => .main 0x86 m
  | .sleepn m => .main 0x87 m
  | .ldB8 m => .main 0x88 m
  | .ldB16 m => .main 0x89 m
  | .ldB32 m => .main 0x8A m
  | .ldB64 m => .main 0x8B m
  | .ldB128 m => .main 0x8C m
  | .stB8 m => .main 0x8D m
  | .stB16 m => .main 0x8E m
  | .stB32 m => .main 0x8F m
  | .stB64 m => .main 0x90 m
  | .stB128 m => .main 0x91 m
  | .lds m => .main 0x92 m
  | .sts m => .main 0x93 m
  | .lduB32 m => .main 0x94 m
  | .lduB64 m => .main 0x9F m
  | .ldmx m => .main 0x95 m
  | .stmx m => .main 0x96 m
  | .pfL1 m => .main 0x97 m
  | .pfL2 m => .main 0x97 m
  | .cctlInv m => .main 0x97 m
  | .cctlInvall m => .main 0x97 m
  | .cctlWb m => .main 0x97 m
  | .cctlWbinv m => .main 0x97 m
  | .icinvCore m => .main 0x97 m
  | .icinvDev m => .main 0x97 m
  | .atom m => .main 0x98 m
  | .atoms m => .main 0x99 m
  | .atred m => .main 0x9A m
  | .cas m => .main 0x9B m
  | .hbind m => .main 0x9C m
  | .hqry m => .main 0x9D m
  | .sptmapSwap m => .main 0x9E m
  | .sptmapRd m => .main 0x9E m
  | .acq m => .main 0xA0 m
  | .rel m => .main 0xA1 m
  | .fence m => .main 0xA2 m
  | .gbarArv m => .main 0xA3 m
  | .gbarWait m => .main 0xA3 m
  | .binit m => .main 0xA4 m
  | .barv m => .main 0xA5 m
  | .barx m => .main 0xA6 m
  | .bwait m => .main 0xA7 m
  | .btest m => .main 0xA8 m
  | .bcan m => .main 0xA9 m
  | .cpy m => .main 0xAC m
  | .cpyt m => .main 0xAD m
  | .cpym m => .main 0xAE m
  | .cpyc m => .main 0xAF m
  | .gath m => .main 0xB0 m
  | .scat m => .main 0xB1 m
  | .scata m => .main 0xB2 m
  | .gstat m => .main 0xB3 m
  | .tld m => .main 0xB4 m
  | .tldT m => .main 0xB5 m
  | .tst m => .main 0xB6 m
  | .accrd m => .main 0xB7 m
  | .scout m => .main 0xC0 m
  | .tmask m => .main 0xC1 m
  | .mkand m => .main 0xC2 m
  | .mkor m => .main 0xC3 m
  | .mkpop m => .main 0xC4 m
  | .mkrd m => .main 0xC5 m
  | .mkwr m => .main 0xC6 m
  | .sgload m => .main 0xC8 m
  | .sgcall m => .main 0xC9 m
  | .sgrec m => .main 0xCA m
  | .sgmerge m => .main 0xCB m
  | .sgrel m => .main 0xCC m
  | .sgqb m => .main 0xCD m
  | .sgcnt m => .main 0xCE m
  | .sgcntClr m => .main 0xCE m
  | .sgdis m => .main 0xCE m
  | .sgdisEn m => .main 0xCE m
  | .sgdisRd m => .main 0xCE m
  | .sginv m => .main 0xCF m
  | .pgrp m => .main 0xD0 m
  | .pstat m => .main 0xD1 m
  | .pwait m => .main 0xD2 m
  | .pscrub m => .main 0xD3 m
  | .pscrubFix m => .main 0xD3 m
  | .prebuild m => .main 0xD3 m
  | .trapOp m => .main 0xD4 m
  | .sysc m => .main 0xD5 m
  | .hretRetry m => .main 0xD6 m
  | .hretSkip m => .main 0xD6 m
  | .rdsr m => .main 0xD7 m
  | .wrsr m => .main 0xD8 m
  | .brk m => .main 0xD9 m
  | .watch m => .main 0xDA m
  | .dbgmark m => .main 0xDB m
  | .rdcnt m => .main 0xDC m
  | .errq m => .main 0xDD m
  | .chkset m => .main 0xDE m
  | .nopCompact f => .compact 0x01 f
  | .movCompact f => .compact 0x02 f
  | .movImmCompact f => .compact 0x03 f
  | .iaddS32Compact f => .compact 0x04 f
  | .iaddS32ImmCompact f => .compact 0x05 f
  | .isubS32Compact f => .compact 0x06 f
  | .isubS32ImmCompact f => .compact 0x07 f
  | .andCompact f => .compact 0x08 f
  | .andImmCompact f => .compact 0x09 f
  | .orCompact f => .compact 0x0A f
  | .orImmCompact f => .compact 0x0B f
  | .xorCompact f => .compact 0x0C f
  | .xorImmCompact f => .compact 0x0D f
  | .andnCompact f => .compact 0x0E f
  | .notCompact f => .compact 0x0F f
  | .shlCompact f => .compact 0x10 f
  | .shlImmCompact f => .compact 0x11 f
  | .shrCompact f => .compact 0x12 f
  | .shrImmCompact f => .compact 0x13 f
  | .sarCompact f => .compact 0x14 f
  | .sarImmCompact f => .compact 0x15 f
  | .iminS32Compact f => .compact 0x16 f
  | .imaxS32Compact f => .compact 0x17 f
  | .iminN32Compact f => .compact 0x18 f
  | .imaxN32Compact f => .compact 0x19 f
  | .inegS32Compact f => .compact 0x1A f
  | .amov m => .mcc 0xE0 m
  | .ali m => .mcc 0xE1 m
  | .aadd m => .mcc 0xE2 m
  | .asub m => .mcc 0xE3 m
  | .amul m => .mcc 0xE4 m
  | .aand m => .mcc 0xE5 m
  | .aor m => .mcc 0xE6 m
  | .ashl m => .mcc 0xE7 m
  | .ashr m => .mcc 0xE8 m
  | .acmp m => .mcc 0xE9 m
  | .abr m => .mcc 0xEA m
  | .abc m => .mcc 0xEB m
  | .aloop m => .mcc 0xEC m
  | .acall m => .mcc 0xED m
  | .aret m => .mcc 0xEE m
  | .ald m => .mcc 0xEF m
  | .ast m => .mcc 0xF0 m
  | .evwait m => .mcc 0xF1 m
  | .evpop m => .mcc 0xF2 m
  | .tres m => .mcc 0xF3 m
  | .trel m => .mcc 0xF4 m
  | .mma m => .mcc 0xF5 m
  | .mmaM m => .mcc 0xF6 m
  | .mxzero m => .mcc 0xF7 m
  | .mxdrain m => .mcc 0xF8 m
  | .mxdrainAcc m => .mcc 0xF8 m
  | .mxdrainChk m => .mcc 0xF8 m
  | .mxscl m => .mcc 0xF9 m
  | .mxtol m => .mcc 0xFA m
  | .mxstat m => .mcc 0xFB m
  | .abwait m => .mcc 0xFC m
  | .abarv m => .mcc 0xFD m
  | .arel m => .mcc 0xFE m
  | .ahalt m => .mcc 0xFF m
  | .yieldExpiry _ _ => .event
  | .fwaitComplete _ _ => .event
  | .sleepnExpiry _ _ => .event
  | .resultWriteback _ _ _ => .event
  | .gbarWaitComplete _ _ => .event
  | .copyCommandStart _ => .event
  | .engineBytesLanded _ _ => .event
  | .gatherElement _ _ => .event
  | .copyCommandEnd _ => .event
  | .scoutCommandExecute _ => .event
  | .sgImageLoaded _ _ => .event
  | .surrogateCallEvaluate _ => .event
  | .pwaitTimeout _ _ => .event
  | .scrubStep _ _ => .event
  | .matrixCommandStart _ => .event
  | .matrixCommandEnd _ => .event
  | .queuePacketConsume _ => .event
  | .coilPlace _ _ => .event
  | .coilRestart _ _ => .event
  | .packingWindowExpiry _ => .event
  | .parking _ _ => .event
  | .preemption _ => .event
  | .registryScan _ => .event
  | .notify _ _ => .event
  | .mapQueue _ _ => .event
  | .unmapQueue _ _ => .event
  | .tlbInvalidate _ => .event
  | .gsdrain _ => .event
  | .preemptCoil _ => .event
  | .killCoil _ => .event
  | .restartCoil _ => .event
  | .stopCoil _ => .event
  | .resumeCoil _ => .event
  | .stepCoil _ => .event
  | .survActivate _ => .event
  | .survReplace _ => .event
  | .survDeactivate _ => .event
  | .sysrvalWrite _ _ => .event
  | .intstatWrite _ => .event
  | .dbgdataAccess _ => .event
  | .registerWrite _ _ => .event
  | .barrierCheckerPeriod _ => .event
  | .profilingTick => .event
  | .sideEccLow _ => .event
  | .powerBucketRefill => .event
  | .islandFrequencyChange _ _ => .event
  | .thermstatUpdate _ => .event
  | .powerOn => .event
  | .pinReset => .event
  | .softwareReset _ => .event
  | .watchdogReset => .event
  | .fwFatal _ => .event
  | .challenge => .event
  | .attest _ => .event
  | .unlock _ => .event
  | .mgmtReset => .event
  | .fwupdate _ => .event
  | .telemetry => .event
  | .keyload _ _ => .event
  | .keyzero _ => .event
  | .osierPortStateChange _ _ _ _ => .event
  | .osierFlitReceive _ _ => .event
  | .peerRequest _ => .event
  | .linkTimeout _ => .event
  | .memberResetReport _ => .event
  | .parityDeltaApply _ _ _ _ _ _ => .event
  | .deltaAck _ _ _ => .event
  | .survSectorRequest _ _ _ => .event
  | .survReconstructed _ _ _ => .event
  | .pcieAer _ => .event
  | .pcieInboundDma _ _ _ => .event
  | .unitRetired _ _ => .event
  | .pageRetired _ _ _ => .event
  | .regfileLatent _ _ _ => .event
  | .sramError _ => .event
  | .unassignedEncoding _ => .event
  | .instructionFetchFault _ _ _ => .event
  | .applicationCoreMemoryAccess _ _ => .event
  | .pciePortStateChange _ => .event
  | .fuseTransition _ => .event
  | .measurementExtension _ _ => .event

/-- The compact instruction of a COP (R37). -/
noncomputable def pickCompact (cop : Nat) (f : Compact) : Option Instr :=
  match cop with
  | 0x01 => some (.nopCompact f)
  | 0x02 => some (.movCompact f)
  | 0x03 => some (.movImmCompact f)
  | 0x04 => some (.iaddS32Compact f)
  | 0x05 => some (.iaddS32ImmCompact f)
  | 0x06 => some (.isubS32Compact f)
  | 0x07 => some (.isubS32ImmCompact f)
  | 0x08 => some (.andCompact f)
  | 0x09 => some (.andImmCompact f)
  | 0x0A => some (.orCompact f)
  | 0x0B => some (.orImmCompact f)
  | 0x0C => some (.xorCompact f)
  | 0x0D => some (.xorImmCompact f)
  | 0x0E => some (.andnCompact f)
  | 0x0F => some (.notCompact f)
  | 0x10 => some (.shlCompact f)
  | 0x11 => some (.shlImmCompact f)
  | 0x12 => some (.shrCompact f)
  | 0x13 => some (.shrImmCompact f)
  | 0x14 => some (.sarCompact f)
  | 0x15 => some (.sarImmCompact f)
  | 0x16 => some (.iminS32Compact f)
  | 0x17 => some (.imaxS32Compact f)
  | 0x18 => some (.iminN32Compact f)
  | 0x19 => some (.imaxN32Compact f)
  | 0x1A => some (.inegS32Compact f)
  | _ => none

/-- What an opcode and the fields that select within it name. -/
inductive Picked where
  | op (i : Instr)
  | noOpcode
  | badMod
  | badD
  deriving DecidableEq, Repr

/-- The SIMT instruction of an OPC from 0x00 to 0x17. -/
def pickSimt0 (opc : Nat) (m : Main) : Picked :=
  match opc with
  | 0x01 => .op (.iadd m)
  | 0x02 => .op (.isub m)
  | 0x03 => .op (.ineg m)
  | 0x04 => .op (.iabs m)
  | 0x05 => .op (.imul m)
  | 0x06 => .op (.imulh m)
  | 0x07 => .op (.imad m)
  | 0x08 => .op (.imadw m)
  | 0x09 => .op (.idiv m)
  | 0x0A => .op (.irem m)
  | 0x0B => .op (.imin m)
  | 0x0C => .op (.imax m)
  | 0x0D => .op (.isat m)
  | 0x0E => .op (.icmp m)
  | 0x0F => if m.mod % 4 = 0 then .op (.andOp m) else if m.mod % 4 = 1 then .op (.orOp m) else if m.mod % 4 = 2 then .op (.xorOp m) else .op (.andn m)
  | 0x10 => .op (.notOp m)
  | 0x11 => .op (.lut3 m)
  | 0x12 => if m.mod % 4 = 0 then .op (.shl m) else if m.mod % 4 = 1 then .op (.shr m) else if m.mod % 4 = 2 then .op (.sar m) else .op (.rot m)
  | 0x13 => .op (.fshl m)
  | 0x14 => .op (.bfx m)
  | 0x15 => .op (.bfi m)
  | 0x16 => if m.mod % 4 = 0 then .op (.popc m) else if m.mod % 4 = 1 then .op (.clz m) else if m.mod % 4 = 2 then .op (.ctz m) else .op (.brev m)
  | 0x17 => .op (.bswap m)
  | _ => .noOpcode

/-- The SIMT instruction of an OPC from 0x18 to 0x2F. -/
def pickSimt1 (opc : Nat) (m : Main) : Picked :=
  match opc with
  | 0x18 => .op (.sel m)
  | 0x19 => .op (.mov m)
  | 0x1A => .op (.movl m)
  | 0x1B => .op (.pset m)
  | 0x1C => .op (.plop m)
  | 0x1D => .op (.prdw m)
  | 0x1E => .op (.pwrw m)
  | 0x1F => .op (.padd2 m)
  | 0x20 => .op (.psub2 m)
  | 0x21 => .op (.pmin2 m)
  | 0x22 => .op (.pmax2 m)
  | 0x23 => .op (.pmac2 m)
  | 0x24 => .op (.pmac4 m)
  | 0x25 => .op (.shrr m)
  | 0x26 => .op (.lea m)
  | 0x27 => .op (.adr m)
  | 0x28 => .op (.ctxa m)
  | 0x29 => .op (.smset m)
  | 0x2A => .op (.smbind m)
  | 0x2B => .op (.smpos m)
  | 0x2C => .op (.smadv m)
  | _ => .noOpcode

/-- The SIMT instruction of an OPC from 0x30 to 0x4F. -/
def pickSimt2 (opc : Nat) (m : Main) : Picked :=
  match opc with
  | 0x30 => .op (.fadd m)
  | 0x31 => .op (.fsub m)
  | 0x32 => .op (.fmul m)
  | 0x33 => .op (.ffma m)
  | 0x34 => .op (.fmin m)
  | 0x35 => .op (.fmax m)
  | 0x36 => .op (.fcmp m)
  | 0x37 => .op (.fclass m)
  | 0x38 => .op (.frnd m)
  | 0x39 => .op (.fscale m)
  | 0x3A => .op (.fgetexp m)
  | 0x3B => .op (.fcvt m)
  | 0x3C => .op (.fcvtSr m)
  | 0x3D => .op (.f2i m)
  | 0x3E => .op (.i2f m)
  | 0x3F => .op (.fadd2 m)
  | 0x40 => .op (.fmul2 m)
  | 0x41 => .op (.ffma2 m)
  | 0x42 => .op (.dadd m)
  | 0x43 => .op (.dmul m)
  | 0x44 => .op (.dfma m)
  | 0x45 => .op (.dcmp m)
  | 0x46 => .op (.qcvt m)
  | 0x47 => .op (.dqcvt m)
  | 0x48 => .op (.hadm m)
  | 0x49 => .op (.srseed m)
  | _ => .noOpcode

/-- The SIMT instruction of an OPC from 0x50 to 0x5F. -/
def pickSimt3 (opc : Nat) (m : Main) : Picked :=
  match opc with
  | 0x50 => if m.mod = 0 then .op (.exp2 m) else if m.mod = 1 then .op (.log2 m) else if m.mod = 2 then .op (.rcp m) else if m.mod = 3 then .op (.rsq m) else if m.mod = 4 then .op (.sqrt m) else if m.mod = 5 then .op (.sinOp m) else if m.mod = 6 then .op (.cosOp m) else .op (.tanh m)
  | 0x51 => if m.mod = 0 then .op (.sigm m) else if m.mod = 1 then .op (.erf m) else if m.mod = 2 then .op (.gelu m) else if m.mod = 3 then .op (.silu m) else .badMod
  | 0x52 => .op (.fact m)
  | 0x53 => .op (.rowmax m)
  | 0x54 => .op (.rowsum m)
  | 0x55 => .op (.rowstat m)
  | 0x56 => .op (.rownorm m)
  | 0x57 => .op (.smaxr m)
  | 0x58 => .op (.lse m)
  | _ => .noOpcode

/-- The SIMT instruction of an OPC from 0x60 to 0x77. -/
def pickSimt4 (opc : Nat) (m : Main) : Picked :=
  match opc with
  | 0x60 => .op (.bra m)
  | 0x61 => .op (.braU m)
  | 0x62 => .op (.brx m)
  | 0x63 => .op (.call m)
  | 0x64 => .op (.callx m)
  | 0x65 => .op (.ret m)
  | 0x66 => .op (.loopOp m)
  | 0x67 => .op (.pack m)
  | 0x68 => .op (.convm m)
  | 0x69 => .op (.yieldOp m)
  | 0x6A => .op (.nop m)
  | 0x6B => .op (.part m)
  | 0x6C => .op (.gsync m)
  | 0x6D => .op (.vote m)
  | 0x6E => .op (.ballot m)
  | 0x6F => .op (.matchOp m)
  | 0x70 => .op (.shfl m)
  | 0x71 => .op (.slide m)
  | 0x72 => .op (.bcast m)
  | 0x73 => .op (.scan m)
  | 0x74 => .op (.gred m)
  | 0x75 => .op (.elect m)
  | _ => .noOpcode

/-- The SIMT instruction of an OPC from 0x78 to 0x87. -/
def pickSimt5 (opc : Nat) (m : Main) : Picked :=
  match opc with
  | 0x78 => .op (.fibnew m)
  | 0x79 => .op (.fibend m)
  | 0x7A => .op (.spawn m)
  | 0x7B => .op (.launch m)
  | 0x7C => .op (.fork m)
  | 0x7D => .op (.region m)
  | 0x7E => .op (.fnew m)
  | 0x7F => .op (.fres m)
  | 0x80 => .op (.fthen m)
  | 0x81 => .op (.fread m)
  | 0x82 => .op (.fwait m)
  | 0x83 => .op (.engfork m)
  | 0x84 => .op (.rdv m)
  | 0x85 => .op (.prio m)
  | 0x86 => .op (.qpoll m)
  | 0x87 => .op (.sleepn m)
  | _ => .noOpcode

/-- The SIMT instruction of an OPC from 0x88 to 0x9F. -/
def pickSimt6 (opc : Nat) (m : Main) : Picked :=
  match opc with
  | 0x88 => .op (.ldB8 m)
  | 0x89 => .op (.ldB16 m)
  | 0x8A => .op (.ldB32 m)
  | 0x8B => .op (.ldB64 m)
  | 0x8C => .op (.ldB128 m)
  | 0x8D => .op (.stB8 m)
  | 0x8E => .op (.stB16 m)
  | 0x8F => .op (.stB32 m)
  | 0x90 => .op (.stB64 m)
  | 0x91 => .op (.stB128 m)
  | 0x92 => .op (.lds m)
  | 0x93 => .op (.sts m)
  | 0x94 => .op (.lduB32 m)
  | 0x95 => .op (.ldmx m)
  | 0x96 => .op (.stmx m)
  | 0x97 => if m.d.toNat = 0 then .op (.pfL1 m) else if m.d.toNat = 1 then .op (.pfL2 m) else if m.d.toNat = 16 then .op (.cctlInv m) else if m.d.toNat = 17 then .op (.cctlInvall m) else if m.d.toNat = 18 then .op (.cctlWb m) else if m.d.toNat = 19 then .op (.cctlWbinv m) else if m.d.toNat = 32 then .op (.icinvCore m) else if m.d.toNat = 33 then .op (.icinvDev m) else .badD
  | 0x98 => .op (.atom m)
  | 0x99 => .op (.atoms m)
  | 0x9A => .op (.atred m)
  | 0x9B => .op (.cas m)
  | 0x9C => .op (.hbind m)
  | 0x9D => .op (.hqry m)
  | 0x9E => if m.mod = 0 then .op (.sptmapSwap m) else if m.mod = 1 then .op (.sptmapRd m) else .badMod
  | 0x9F => .op (.lduB64 m)
  | _ => .noOpcode

/-- The SIMT instruction of an OPC from 0xA0 to 0xAF. -/
def pickSimt7 (opc : Nat) (m : Main) : Picked :=
  match opc with
  | 0xA0 => .op (.acq m)
  | 0xA1 => .op (.rel m)
  | 0xA2 => .op (.fence m)
  | 0xA3 => if m.b.toNat % 2 = 0 then .op (.gbarArv m) else .op (.gbarWait m)
  | 0xA4 => .op (.binit m)
  | 0xA5 => .op (.barv m)
  | 0xA6 => .op (.barx m)
  | 0xA7 => .op (.bwait m)
  | 0xA8 => .op (.btest m)
  | 0xA9 => .op (.bcan m)
  | 0xAC => .op (.cpy m)
  | 0xAD => .op (.cpyt m)
  | 0xAE => .op (.cpym m)
  | 0xAF => .op (.cpyc m)
  | _ => .noOpcode

/-- The SIMT instruction of an OPC from 0xB0 to 0xC7. -/
def pickSimt8 (opc : Nat) (m : Main) : Picked :=
  match opc with
  | 0xB0 => .op (.gath m)
  | 0xB1 => .op (.scat m)
  | 0xB2 => .op (.scata m)
  | 0xB3 => .op (.gstat m)
  | 0xB4 => .op (.tld m)
  | 0xB5 => .op (.tldT m)
  | 0xB6 => .op (.tst m)
  | 0xB7 => .op (.accrd m)
  | 0xC0 => .op (.scout m)
  | 0xC1 => .op (.tmask m)
  | 0xC2 => .op (.mkand m)
  | 0xC3 => .op (.mkor m)
  | 0xC4 => .op (.mkpop m)
  | 0xC5 => .op (.mkrd m)
  | 0xC6 => .op (.mkwr m)
  | _ => .noOpcode

/-- The SIMT instruction of an OPC from 0xC8 to 0xDF. -/
def pickSimt9 (opc : Nat) (m : Main) : Picked :=
  match opc with
  | 0xC8 => .op (.sgload m)
  | 0xC9 => .op (.sgcall m)
  | 0xCA => .op (.sgrec m)
  | 0xCB => .op (.sgmerge m)
  | 0xCC => .op (.sgrel m)
  | 0xCD => .op (.sgqb m)
  | 0xCE => if m.mod = 0 then .op (.sgcnt m) else if m.mod = 1 then .op (.sgcntClr m) else if m.mod = 2 then .op (.sgdis m) else if m.mod = 3 then .op (.sgdisEn m) else if m.mod = 4 then .op (.sgdisRd m) else .badMod
  | 0xCF => .op (.sginv m)
  | 0xD0 => .op (.pgrp m)
  | 0xD1 => .op (.pstat m)
  | 0xD2 => .op (.pwait m)
  | 0xD3 => if m.mod = 0 then .op (.pscrub m) else if m.mod = 1 then .op (.pscrubFix m) else if m.mod = 2 then .op (.prebuild m) else .badMod
  | 0xD4 => .op (.trapOp m)
  | 0xD5 => .op (.sysc m)
  | 0xD6 => if m.mod = 0 then .op (.hretRetry m) else if m.mod = 1 then .op (.hretSkip m) else .badMod
  | 0xD7 => .op (.rdsr m)
  | 0xD8 => .op (.wrsr m)
  | 0xD9 => .op (.brk m)
  | 0xDA => .op (.watch m)
  | 0xDB => .op (.dbgmark m)
  | 0xDC => .op (.rdcnt m)
  | 0xDD => .op (.errq m)
  | 0xDE => .op (.chkset m)
  | _ => .noOpcode

/-- The SIMT instruction of an OPC (R47). -/
def pickSimt (opc : Nat) (m : Main) : Picked :=
  if opc < 0x18 then pickSimt0 opc m else
  if opc < 0x30 then pickSimt1 opc m else
  if opc < 0x50 then pickSimt2 opc m else
  if opc < 0x60 then pickSimt3 opc m else
  if opc < 0x78 then pickSimt4 opc m else
  if opc < 0x88 then pickSimt5 opc m else
  if opc < 0xA0 then pickSimt6 opc m else
  if opc < 0xB0 then pickSimt7 opc m else
  if opc < 0xC8 then pickSimt8 opc m else
  if opc < 0xE0 then pickSimt9 opc m else
  .noOpcode

/-- The MCC instruction of an OPC (11_matrix.md R327). -/
noncomputable def pickMcc (opc : Nat) (m : Mcc) : Option (Option Instr) :=
  match opc with
  | 0xE0 => some (some (.amov m))
  | 0xE1 => some (some (.ali m))
  | 0xE2 => some (some (.aadd m))
  | 0xE3 => some (some (.asub m))
  | 0xE4 => some (some (.amul m))
  | 0xE5 => some (some (.aand m))
  | 0xE6 => some (some (.aor m))
  | 0xE7 => some (some (.ashl m))
  | 0xE8 => some (some (.ashr m))
  | 0xE9 => some (some (.acmp m))
  | 0xEA => some (some (.abr m))
  | 0xEB => some (some (.abc m))
  | 0xEC => some (some (.aloop m))
  | 0xED => some (some (.acall m))
  | 0xEE => some (some (.aret m))
  | 0xEF => some (some (.ald m))
  | 0xF0 => some (some (.ast m))
  | 0xF1 => some (some (.evwait m))
  | 0xF2 => some (some (.evpop m))
  | 0xF3 => some (some (.tres m))
  | 0xF4 => some (some (.trel m))
  | 0xF5 => some (some (.mma m))
  | 0xF6 => some (some (.mmaM m))
  | 0xF7 => some (some (.mxzero m))
  | 0xF9 => some (some (.mxscl m))
  | 0xFA => some (some (.mxtol m))
  | 0xFB => some (some (.mxstat m))
  | 0xFC => some (some (.abwait m))
  | 0xFD => some (some (.abarv m))
  | 0xFE => some (some (.arel m))
  | 0xFF => some (some (.ahalt m))
  | 0xF8 => some (if m.mod = 0 then some (.mxdrain m) else if m.mod = 1 then some (.mxdrainAcc m) else if m.mod = 2 then some (.mxdrainChk m) else none)
  | _ => none

/-! ## Faults -/

/-- The offence of an instruction word: its code and subtype, and the bit position (R50, R51). -/
structure Offence where
  code : BitVec 16
  sub : Nat
  bit : Nat
  deriving DecidableEq, Repr

/-- The first offence of a list of (offends, offence). -/
def firstOffence : List (Bool × Offence) → Option Offence
  | [] => none
  | (true, o) :: _ => some o
  | (false, _) :: r => firstOffence r

/-- The lowest field position whose value is out of range. -/
def rangeBit : List (Nat × Bool) → Option Nat
  | [] => none
  | (_, true) :: r => rangeBit r
  | (p, false) :: _ => some p

/-- Whether the register is the source of a banked field: its number, or nothing. -/
def bankOf (f : Fld) (n : Nat) : List Nat := if f.banked then [n] else []

/-- The vector registers that an instruction reads as single registers or pairs (R35). -/
def Shape.sources (sh : Shape) (m : Main) : List Nat :=
  (if sh.dSrc then bankOf sh.d m.d.toNat else []) ++ bankOf sh.a m.a.toNat
  ++ (if m.lit.isSome && (sh.lit = .repB || sh.lit = .repBReq) then [] else bankOf sh.b m.b.toNat)
  ++ (if sh.lay = .c then bankOf sh.c m.c else [])

/-- Three distinct sources in one bank (R35). -/
def threeInBank : List Nat → Bool
  | [x, y, z] => x % 4 = y % 4 && y % 4 = z % 4 && x ≠ y && y ≠ z && x ≠ z
  | _ => false

/-- Two distinct sources in one bank, which costs one cycle (R35). -/
def twoInBank : List Nat → Bool
  | [] => false
  | x :: r => r.any (fun y => x ≠ y && x % 4 = y % 4) || twoInBank r

/-- The bits that must be zero and are set (R49), each at its place in the instruction. -/
def Shape.reserved (sh : Shape) (m : Main) : Nat :=
  (if sh.unguarded then (m.gneg.toNat * 8 + m.gsel.toNat) * 2 ^ 25 else 0)
  + (m.d.toNat &&& sh.d.mask) * 2 ^ 29 + (m.a.toNat &&& sh.a.mask) * 2 ^ 37 + (m.b.toNat &&& sh.b.mask) * 2 ^ 45
  + (match sh.lay with
     | .c => (m.c &&& sh.c.mask) * 2 ^ 53
     | .imm => (m.imm &&& sh.immZero) * 2 ^ 53
     | .setf => 0)
  + (match m.lit with
     | some l => (l.toNat &&& sh.litZero) * 2 ^ 64
     | none => 0)

/-- Whether the literal stands for B. -/
def Shape.litB (sh : Shape) (m : Main) : Bool := m.lit.isSome && (sh.lit = .repB || sh.lit = .repBReq)

/-- Where a literal offends (R49, R51). -/
def Shape.litFault (sh : Shape) (m : Main) : Option Nat :=
  if m.lit.isSome && sh.lit = .none then some 64
  else if sh.lit = .repBReq && m.lit.isNone then some 0
  else if sh.litB m && m.b ≠ 0 then some (45 + lowBit 8 m.b.toNat)
  else none

/-- The range test of IMM11 for REGION, whose count may not pass the window (07_work.md R190). -/
def Instr.immInWindow (win : Nat) : Instr → Bool
  | .region m => m.imm % 512 ≤ win
  | _ => true

/-- The decode offence of a main-format instruction for a window of win registers (R49 to R51). -/
def mainOffence (win : Nat) (i : Instr) (m : Main) : Option Offence :=
  let sh := i.shape
  let rsv := sh.reserved m
  let rng := rangeBit [(29, sh.d.ok win m.d.toNat), (37, sh.a.ok win m.a.toNat), (45, sh.litB m || sh.b.ok win m.b.toNat),
    (53, (sh.lay ≠ .c || sh.c.ok win m.c) && sh.immOk && i.immInWindow win)]
  let lit := sh.litFault m
  firstOffence [
    (sh.lay ≠ .imm && !sh.modOk, ⟨3, 0, 61⟩),
    (rsv ≠ 0, ⟨4, 1, lowBit 96 rsv⟩),
    (rng.isSome, ⟨4, 2, rng.getD 0⟩),
    (sh.lay = .setf && ((12 ≤ m.setf && m.setf ≤ 14) || (sh.needSetf && m.setf = 15)), ⟨4, 3, 53⟩),
    (lit.isSome, ⟨4, 4, lit.getD 0⟩),
    (threeInBank (sh.sources m), ⟨4, 5, 0xFF⟩)]

/-- The decode offence of an MCC instruction whose bits 28:25, which must be 0, hold g (R51; 11_matrix.md R326, R327). -/
def mccOffence (i : Instr) (m : Mcc) (g : Nat) : Option Offence :=
  let sh := i.mccShape
  let litB := m.lit.isSome && sh.lit = .repB
  let rsv := g * 2 ^ 25 + (m.e.toNat &&& sh.eMask) * 4 + (m.d.toNat &&& sh.d.mask) * 2 ^ 29 + (m.a.toNat &&& sh.a.mask) * 2 ^ 37
    + (m.b.toNat &&& sh.b.mask) * 2 ^ 45 + (if sh.imm then 0 else (m.c &&& sh.c.mask) * 2 ^ 53)
  let rng := rangeBit [(29, sh.d.ok 256 m.d.toNat), (37, sh.a.ok 256 m.a.toNat), (45, litB || sh.b.ok 256 m.b.toNat),
    (53, sh.imm || sh.c.ok 256 m.c)]
  firstOffence [
    (!sh.imm && !sh.modOk, ⟨3, 0, 61⟩),
    (rsv ≠ 0, ⟨4, 1, lowBit 96 rsv⟩),
    (rng.isSome, ⟨4, 2, rng.getD 0⟩),
    (m.lit.isSome && sh.lit = .none, ⟨4, 4, 64⟩),
    (litB && m.b ≠ 0, ⟨4, 4, 45 + lowBit 8 m.b.toNat⟩)]

/-- The decode offence of a compact instruction (R37, R49). -/
def compactOffence (win : Nat) (i : Instr) (f : Compact) : Option Offence :=
  let (d, a, b) := i.compactShape
  let rsv := (f.d.toNat &&& d.mask) * 2 ^ 10 + (f.a.toNat &&& a.mask) * 2 ^ 18 + (f.b.toNat &&& b.mask) * 2 ^ 26
  let rng := rangeBit [(10, d.ok win f.d.toNat), (18, a.ok win f.a.toNat), (26, b.ok win f.b.toNat)]
  firstOffence [(rsv ≠ 0, ⟨4, 1, lowBit 96 rsv⟩), (rng.isSome, ⟨4, 2, rng.getD 0⟩)]

/-! ## The decoder -/

/-- LEN (R26). -/
def lenOf (w0 : Word) : Nat := w0.toNat % 4

/-- How many words the first word announces: 1, 2 or 3 (R26); a LEN of 0b11 announces no more. -/
def wordsOf (w0 : Word) : Nat := if lenOf w0 = 1 then 2 else if lenOf w0 = 2 then 3 else 1

/-- The compact fields of a word (R36). -/
def Compact.ofWord (w : Word) : Compact :=
  { dist := w.extractLsb' 2 2, w := w.extractLsb' 4 1, d := w.extractLsb' 10 8, a := w.extractLsb' 18 8, b := w.extractLsb' 26 6 }

/-- The main-format fields of the words (R28, R30). -/
def Main.ofWords (w0 w1 : Word) (lit : Option Word) : Main :=
  let w : BitVec 64 := w1 ++ w0
  { dist := w.extractLsb' 2 3, wait := w.extractLsb' 5 12, gsel := w.extractLsb' 25 3, gneg := w.extractLsb' 28 1,
    d := w.extractLsb' 29 8, a := w.extractLsb' 37 8, b := w.extractLsb' 45 8, x := w.extractLsb' 53 11, lit := lit }

/-- The MCC fields of the words (11_matrix.md R326). -/
def Mcc.ofWords (w0 w1 : Word) (lit : Option Word) : Mcc :=
  let w : BitVec 64 := w1 ++ w0
  { e := w.extractLsb' 2 15, d := w.extractLsb' 29 8, a := w.extractLsb' 37 8, b := w.extractLsb' 45 8, x := w.extractLsb' 53 11,
    lit := lit }

/-- Bits 24:17, OPC. -/
def opcOf (w0 : Word) : Nat := w0.toNat / 2 ^ 17 % 256
/-- Bits 9:5 of a compact form, COP. -/
def copOf (w0 : Word) : Nat := w0.toNat / 32 % 32

/-- The result of decoding: an instruction, or the offence. -/
inductive Decoded where
  | ok (i : Instr)
  | bad (o : Offence)
  deriving DecidableEq, Repr

/-- An instruction, unless it offends. -/
def Decoded.unless (i : Instr) : Option Offence → Decoded
  | none => .ok i
  | some o => .bad o

/-- The decode fault of a result, with the words it came from (R51). -/
def Offence.fault (o : Offence) (w0 : Word) : DecodeFault :=
  { code := o.code, sub := o.sub, bit := o.bit, word0 := w0, words := wordsOf w0 }

/-- Decoding on a SIMT core, for a fibre whose window holds win registers (R26 to R51). -/
noncomputable def decodeSimt (win : Nat) (w0 w1 w2 : Word) : Decoded :=
  if lenOf w0 = 3 then .bad ⟨1, 0, 0xFF⟩
  else if lenOf w0 = 0 then
    match pickCompact (copOf w0) (Compact.ofWord w0) with
    | none => .bad ⟨2, 0, 5⟩
    | some i => .unless i (compactOffence win i (Compact.ofWord w0))
  else
    let m := Main.ofWords w0 w1 (if lenOf w0 = 2 then some w2 else none)
    match pickSimt (opcOf w0) m with
    | .noOpcode => .bad ⟨2, 0, 17⟩
    | .badMod => .bad ⟨3, 0, 61⟩
    | .badD => .bad ⟨4, 2, 29⟩
    | .op i => .unless i (mainOffence win i m)

/-- Decoding on the MCC (R48; 11_matrix.md R326). -/
noncomputable def decodeMcc (w0 w1 w2 : Word) : Decoded :=
  if lenOf w0 = 3 || lenOf w0 = 0 then .bad ⟨1, 0, 0xFF⟩
  else
    let m := Mcc.ofWords w0 w1 (if lenOf w0 = 2 then some w2 else none)
    match pickMcc (opcOf w0) m with
    | none => .bad ⟨2, 0, 17⟩
    | some none => .bad ⟨3, 0, 61⟩
    | some (some i) => .unless i (mccOffence i m (w0.extractLsb' 25 4).toNat)

/-! ## The encoder -/

/-- The word of a compact instruction (R36). -/
def Compact.word (cop : Nat) (f : Compact) : Word :=
  f.b ++ f.a ++ f.d ++ BitVec.ofNat 5 cop ++ f.w ++ f.dist ++ (0 : BitVec 2)

/-- The two bits of LEN for a main format (R28). -/
def litLen (lit : Option Word) : BitVec 2 := if lit.isSome then 2 else 1

/-- The first two words of a main-format instruction (R28). -/
def Main.bits (opc : Nat) (m : Main) : BitVec 64 :=
  m.x ++ m.b ++ m.a ++ m.d ++ m.gneg ++ m.gsel ++ BitVec.ofNat 8 opc ++ m.wait ++ m.dist ++ litLen m.lit

/-- The first two words of an MCC instruction (11_matrix.md R326). -/
def Mcc.bits (opc : Nat) (m : Mcc) : BitVec 64 :=
  m.x ++ m.b ++ m.a ++ m.d ++ (0 : BitVec 4) ++ BitVec.ofNat 8 opc ++ m.e ++ litLen m.lit

/-- The words of an instruction (R26 to R36; 11_matrix.md R326); an event has none. -/
def encode (i : Instr) : List Word :=
  match i.form with
  | .compact cop f => [f.word cop]
  | .main opc m => [DWord.lo (m.bits opc), DWord.hi (m.bits opc)] ++ m.lit.toList
  | .mcc opc m => [DWord.lo (m.bits opc), DWord.hi (m.bits opc)] ++ m.lit.toList
  | .event => []

/-- Word k of a list, zero where there is none. -/
def wordAt (ws : List Word) (k : Nat) : Word := ws.getD k 0

/-- Decoding a list of words; `mcc` says for which core. -/
noncomputable def decode (mcc : Bool) (win : Nat) (ws : List Word) : Decoded :=
  if mcc then decodeMcc (wordAt ws 0) (wordAt ws 1) (wordAt ws 2)
  else decodeSimt win (wordAt ws 0) (wordAt ws 1) (wordAt ws 2)

/-- Whether an instruction's form is that of the MCC. -/
def Instr.isMcc (i : Instr) : Bool :=
  match i.form with
  | .mcc _ _ => true
  | _ => false

/-- The words of a table word: word k is bits 32k + 31 to 32k (02_encoding.md R27). -/
def tableWords (w : Nat) : List Word := [BitVec.ofNat 32 w, BitVec.ofNat 32 (w / 2 ^ 32), BitVec.ofNat 32 (w / 2 ^ 64)]

/-- The low nbits bits of a table word. -/
def tableBits (nbits w : Nat) : Nat := w % 2 ^ nbits

/-- Whether a table word belongs to the MCC: a main form with OPC 0xE0 or above (R48). -/
def tableIsMcc (w : Nat) : Bool := w % 4 ≠ 0 && w / 2 ^ 17 % 256 ≥ 0xE0

/-- The instruction that the decoder reads from a table word, for a window of 256 registers. -/
noncomputable def decodeTableWord (nbits w : Nat) : Option Instr :=
  match decode (tableIsMcc (tableBits nbits w)) 256 (tableWords (tableBits nbits w)) with
  | .ok i => some i
  | .bad _ => none

end Sys2Proof
end

