-- ==== Sys2Proof/WellFormed.lean ====
section
/-! DEFINITION. Well-formed instructions: the fields that select within an opcode are those of the constructor, and no field offends
(02_encoding.md R29 to R37, R49), for a window of 256 registers. An event is always well formed. -/

namespace Sys2Proof

/-- The fields that select an instruction within its opcode hold that instruction's values (02_encoding.md R29 and the opcode tables). -/
def Instr.selects : Instr → Bool
  | .andOp m => m.mod % 4 = 0
  | .orOp m => m.mod % 4 = 1
  | .xorOp m => m.mod % 4 = 2
  | .andn m => m.mod % 4 = 3
  | .shl m => m.mod % 4 = 0
  | .shr m => m.mod % 4 = 1
  | .sar m => m.mod % 4 = 2
  | .rot m => m.mod % 4 = 3
  | .popc m => m.mod % 4 = 0
  | .clz m => m.mod % 4 = 1
  | .ctz m => m.mod % 4 = 2
  | .brev m => m.mod % 4 = 3
  | .exp2 m => m.mod = 0
  | .log2 m => m.mod = 1
  | .rcp m => m.mod = 2
  | .rsq m => m.mod = 3
  | .sqrt m => m.mod = 4
  | .sinOp m => m.mod = 5
  | .cosOp m => m.mod = 6
  | .tanh m => m.mod = 7
  | .sigm m => m.mod = 0
  | .erf m => m.mod = 1
  | .gelu m => m.mod = 2
  | .silu m => m.mod = 3
  | .pfL1 m => m.d.toNat = 0
  | .pfL2 m => m.d.toNat = 1
  | .cctlInv m => m.d.toNat = 16
  | .cctlInvall m => m.d.toNat = 17
  | .cctlWb m => m.d.toNat = 18
  | .cctlWbinv m => m.d.toNat = 19
  | .icinvCore m => m.d.toNat = 32
  | .icinvDev m => m.d.toNat = 33
  | .sptmapSwap m => m.mod = 0
  | .sptmapRd m => m.mod = 1
  | .gbarArv m => m.b.toNat % 2 = 0
  | .gbarWait m => m.b.toNat % 2 = 1
  | .sgcnt m => m.mod = 0
  | .sgcntClr m => m.mod = 1
  | .sgdis m => m.mod = 2
  | .sgdisEn m => m.mod = 3
  | .sgdisRd m => m.mod = 4
  | .pscrub m => m.mod = 0
  | .pscrubFix m => m.mod = 1
  | .prebuild m => m.mod = 2
  | .hretRetry m => m.mod = 0
  | .hretSkip m => m.mod = 1
  | .mxdrain m => m.mod = 0
  | .mxdrainAcc m => m.mod = 1
  | .mxdrainChk m => m.mod = 2
  | _ => true

/-- The decode offence of an instruction for a window of win registers, if it has one (02_encoding.md R49). -/
def Instr.offence (win : Nat) (i : Instr) : Option Offence :=
  match i.form with
  | .compact _ f => compactOffence win i f
  | .main _ m => mainOffence win i m
  | .mcc _ m => mccOffence i m 0
  | .event => none

/-- An instruction that has an encoding, for a window of win registers. -/
def Instr.wfIn (win : Nat) (i : Instr) : Bool := i.selects && (i.offence win).isNone

/-- A well-formed instruction (the largest window, 256 registers). -/
def Instr.wf (i : Instr) : Bool := i.wfIn 256

end Sys2Proof
end

