-- ==== Sys2Proof/Machine/State.lean ====
section
/-! DEFINITION. The state of the device as plain data, the reasons a step can stop, and the state after reset.
INVENTORY.md lists each piece with its rule; the files of spec/ are named in the docstrings. -/

namespace Sys2Proof.Machine

/-! ## Fibres (06_control.md, 07_work.md) -/

/-- The poison state of a register (15_system.md R416); a register that is not listed has state NONE. -/
inductive Poison where
  | latent | data
  deriving DecidableEq, Repr

/-- The classes of registers that a pending write may name (02_encoding.md R44; 03_integer.md R65; 08_memory.md R244): v, s, p and mask registers,
stream patterns, a fibre's positions in them, the bindings of handle slots, and the slots. -/
inductive RegCls where
  | v | s | p | m | sm | pos | bind | hs
  deriving DecidableEq, Repr

/-- The contents of a handle slot (08_memory.md R218): the snapshot of an entry, and the scale window of an MX pair. -/
structure Handle where
  base : BitVec 64
  len : Nat
  attr : Word
  peer : BitVec 16
  egrp : Nat
  tkey : Nat
  sync : BitVec 64
  idx : Nat
  scale : Option (BitVec 64 × Nat)
  deriving DecidableEq, Repr

/-- The binding of a handle slot to a stream pattern (03_integer.md R92). -/
structure Binding where
  sm : Nat
  advance : Bool
  deriving DecidableEq, Repr

/-- What a register held before a pending write: bits, a binding, or a handle slot's contents. -/
inductive OldVal where
  | bits (x : BitVec 256)
  | bind (b : Option Binding)
  | slot (h : Option Handle)
  deriving DecidableEq, Repr

/-- A pending write (02_encoding.md R44): the register holds the new value, `old` is the value before it. `flag` is the completion flag
of the instruction, `left` the cycles until the writeback, none when the time is not fixed; `known` is false while the new value
is still to come (log 4). -/
structure Pend where
  cls : RegCls
  reg : Nat
  old : OldVal
  flag : Option Nat
  left : Option Nat
  known : Bool
  deriving DecidableEq, Repr

/-- An active hardware-loop level (06_control.md R157). -/
structure Loop where
  start : BitVec 64
  lend : BitVec 64
  count : Nat
  deriving DecidableEq, Repr

/-- A region record (07_work.md R190). -/
structure Region where
  start : BitVec 64
  livein : Nat
  p : BitVec 16
  pos : List Nat
  srs : Word
  loops : List Loop
  deriving DecidableEq, Repr

/-- Where a fibre is: a plait slot of its core, or waiting in the packing unit on a side (06_control.md R148, R149). Fibres of one coil
with the same place form one plait. -/
inductive Place where
  | slot (n : Nat)
  | side (k : Nat)
  deriving DecidableEq, Repr

/-- A pack point (06_control.md R150, R160, R161): PACK, CONVM.COIL, or CONVM on a group register with the value it held. -/
inductive PackKind where
  | pack
  | convmCoil
  | convm (greg : Nat) (gval : Word)
  deriving DecidableEq, Repr

/-- The status of a fibre (07_work.md R212). Waits on flags are seen from cf; collectives wait on an instance; `held` names the pack
point; `asleep` and `yielded` wait for their expiry. -/
inductive FStatus where
  | provisional (creator : Nat)
  | runnable
  | arrived (inst : Nat)
  | held (pc : BitVec 64) (kind : PackKind)
  | asleep
  | yielded
  deriving DecidableEq, Repr

/-- A recovery queue entry (13_surrogate.md R377), with the coil and the SGCALL's PC. -/
structure RecEntry where
  coil : Nat
  fibre : Nat
  seq : Nat
  callPc : BitVec 64
  dreg : Nat
  sg : Nat
  nin : Nat
  nout : Nat
  flags : BitVec 8
  rpc : BitVec 64
  args : List Word
  sval : List Word
  bound : Word
  fctl : Word
  flag : Nat
  deriving DecidableEq, Repr

/-- A fibre. `strand` is its strand within the plait: fibres of one place with one strand share it (06_control.md R148); `since` orders the
placements of plaits (R149), `arrived` are the barriers at whose current phase it has arrived (15_system.md R435), and `waited` counts the cycles since the plait last issued in which it could have (07_work.md R209). `holds` counts its
SGCALL, SCOUT and scrub commands that hold back its next commit point (07_work.md R188). -/
structure Fibre where
  idx : Nat
  status : FStatus
  place : Place
  strand : Nat
  since : Nat
  waited : Nat
  pc : BitVec 64
  v : List Word
  p : BitVec 16
  cf : BitVec 12
  fstat : Word
  fctl : Word
  srs : Word
  pos : List Nat
  loops : List Loop
  region : Region
  handler : Bool
  outer : Nat
  epc : BitVec 64
  ecode : Word
  eaddr : BitVec 64
  einfo : BitVec 64
  poison : List (Nat × Poison)
  arrivals : List (Nat × BitVec 8)
  arrived : List Nat
  pend : List Pend
  holds : Nat
  recov : Option RecEntry
  deriving DecidableEq, Repr

/-! ## Coils -/

/-- The state of a coil (07_work.md R212). `saved` says whether the device itself asks for the restart; `forkwait` names the child RCB. A coil that
is `leaving` has stopped issuing and still holds its place, until the commands that land in its core are done (R193): for FORK's swap-out
with the child RCB, or to be saved; `entry` says that it will start again from its launch state (R196). -/
inductive CoilState where
  | queued
  | running
  | stopped
  | forkwait (rcb : BitVec 64)
  | saved (restart : Bool)
  | leaving (fork : Option (BitVec 64)) (restart entry : Bool)
  | ended
  | killed
  deriving DecidableEq, Repr

/-- Where a buffered store goes (08_memory.md R221, R234), translated when it entered the buffer: a physical address with its virtual
address, whether its page has 2 MiB (R228), coding and compression, and whether it is UNCACHED; a peer device; a PCIe window. -/
inductive Target where
  | mem (pa : Nat) (va : BitVec 64) (big side compr unc : Bool) (tkey : Nat)
  | peer (dev : BitVec 16) (va : BitVec 64) (tkey : Nat)
  | hostio (pa : Nat) (va : BitVec 64) (big : Bool)
  deriving DecidableEq, Repr

/-- What a store-buffer entry does when it is performed (08_memory.md R233, R234; 09_ordering.md R268). -/
inductive StoreOp where
  | bytes (data : List Byte) (poisoned : Bool)
  | red (op : Nat) (wide : Bool) (x : DWord)
  | marker (scope : Nat)
  deriving DecidableEq, Repr

/-- An entry of a coil's store buffer (08_memory.md R233). -/
structure Store where
  fibre : Nat
  pc : BitVec 64
  tgt : Target
  op : StoreOp
  deriving DecidableEq, Repr

/-- What a fibre or its coil waits for without holding an issue slot (09_ordering.md R268, R270, R275; 07_work.md R206; 14_survivable.md
R397; log 16), the image that an SGLOAD loads (13_surrogate.md R370), and the lanes that a committed SYSC has still to post (15_system.md R422). Register fields say where the result goes. -/
inductive WaitKind where
  | bwait (fibre bar pd : Nat) (phase : BitVec 8)
  | fwait (fibre vd : Nat) (va : BitVec 64) (pa : Nat)
  | gbar (gen : Word) (pa : Nat)
  | sysc (call : Nat) (left : List (Nat × BitVec 64))
  | pwait (pd : Nat) (group : Nat) (snap : List Nat) (left : Option Nat)
  | surv (fibre : Nat) (snap : List (Nat × Nat × Nat))
  | sgload (slot : Nat)
  deriving DecidableEq, Repr

/-- A wait with the fibres whose flag it holds, the flag, and the ASID-wide acquire it makes. -/
structure Wait where
  id : Nat
  fibres : List Nat
  flag : Option Nat
  kind : WaitKind
  deriving DecidableEq, Repr

/-- One member's arrival at a collective (06_control.md R166, R167): its issue-time data. `vals` are the registers it contributes. -/
structure Arrival where
  fibre : Nat
  contrib : Bool
  vals : List Word
  preds : BitVec 16
  deriving DecidableEq, Repr

/-- A collective instance (06_control.md R166): where, which group, the captured group value, the instruction and who has arrived. One that is
`done` has given its results, and some members' plaits still wait for other groups. -/
structure Inst where
  id : Nat
  pc : BitVec 64
  greg : Nat
  group : Nat
  gval : Word
  instr : Instr
  members : List Arrival
  done : Bool
  deriving DecidableEq, Repr

/-- A tile register reserved by a coil: number, reservation record, contents (11_matrix.md R309, R311). Bytes not listed are 0. -/
structure Tile where
  num : Nat
  record : BitVec 64
  bytes : List Host.Cell
  poison : List Nat
  deriving DecidableEq, Repr

/-- The state of an accumulator (11_matrix.md R312). -/
inductive AccState where
  | idle | opened | drained | faulted | base
  deriving DecidableEq, Repr

/-- A logged step of an accumulation (11_matrix.md R321): the operand tiles and the mask, with AXIS and KT0. -/
structure MxStep where
  ta : Nat
  tb : Nat
  mask : Option (BitVec 128)
  axis : Bool
  kt0 : Nat
  deriving DecidableEq, Repr

/-- An accumulator tile (11_matrix.md R312, R318, R321, R334). Elements are keyed by 128·row + column; those not listed are 0.
`cc`, `mc`, `cr`, `mr` are the checks; `baseOf` is the index of the BASE accumulator; `names` are the tiles that the segment's commands name;
`poison` the 32-byte units, eight elements each, that are poisoned (15_system.md R418). -/
structure Acc where
  num : Nat
  st : AccState
  int : Bool
  elems : List (Nat × Word)
  cc : List Word
  mc : List Word
  cr : List Word
  mr : List Word
  baseOf : Option Nat
  log : List MxStep
  names : List Nat
  ovfl : Bool
  corr : Nat
  repl : Nat
  nv : Bool
  overflow : Bool
  lastCorr : DWord
  poison : List Nat
  deriving DecidableEq, Repr

/-- The state of an sg slot (13_surrogate.md R366, R382). -/
inductive SgState where
  | empty | loading | loaded
  deriving DecidableEq, Repr

/-- An sg slot with its image as read, recovery PC, DIS bit and counters (13_surrogate.md R366, R368, R382). `stale` says that the image's CHECK
did not match when the store of a new core reloaded it (R368). -/
structure SgSlot where
  st : SgState
  stale : Bool
  addr : BitVec 64
  asid : BitVec 12
  image : List Byte
  recPc : BitVec 64
  dis : Bool
  calls : Nat
  fallback : Nat
  sampled : Nat
  viol : Nat
  errmax : Word
  deriving DecidableEq, Repr

/-- A copy of an image in a core's surrogate store (13_surrogate.md R358, R368). -/
structure SgCopy where
  core : Nat
  asid : BitVec 12
  addr : BitVec 64
  image : List Byte
  deriving DecidableEq, Repr

/-- A producer declaration (10_copy_gather.md R281). -/
inductive Decl where
  | all
  | none
  | range (lo hi : Nat)
  deriving DecidableEq, Repr

/-- ENGSTATE (07_work.md R207). HALTED keeps the a0 given at AHALT. -/
inductive EngState where
  | idle
  | queued
  | running
  | halted (a0 : DWord)
  | faulted
  deriving DecidableEq, Repr

/-- The epilogue of one engine (11_matrix.md R323). -/
structure Epilogue where
  scale : Word
  ctrl : Word
  deriving DecidableEq, Repr

/-- An MCC program context (11_matrix.md R325, R331, R335). `slot` is the program context of the cluster's MCC that it holds, `run` tells one
program of a coil from another, `reserved` counts event entries reserved at issue, `ignore` lets the next instruction pass a watchpoint
(15_system.md R430). -/
structure MccCtx where
  slot : Option Nat
  run : Nat
  ignore : Bool
  a : List DWord
  pc : BitVec 64
  mxtol : Word
  epi : List Epilogue
  events : List (DWord × DWord)
  reserved : Nat
  seq : Nat
  deriving DecidableEq, Repr

/-- A watchpoint (15_system.md R429). -/
structure Watch where
  kind : Nat
  scratch : Bool
  lo : Nat
  hi : Nat
  deriving DecidableEq, Repr

/-- The trap descriptor as read when the coil was placed (15_system.md R411). -/
structure TrapDesc where
  hvec : BitVec 64
  sysring : BitVec 64
  hmask : BitVec 16
  dbg : Bool
  syslog : Nat
  deriving DecidableEq, Repr

/-- What a 32-byte unit of a tile register, or of the scratchpad where `tile` is none, held before its last write by fibres, and the fibres of the
coil that may still find that content there: they have neither written the unit since nor made an acquire (09_ordering.md R251, R254, R256). -/
structure OldUnit where
  tile : Option Nat
  unit : Nat
  old : List (Byte × Bool)
  hid : List Nat
  at_ : Nat
  deriving DecidableEq, Repr

/-- A coil. `blocks` are the logical scratch blocks that are resident, `pool` the pool blocks that hold them
(08_memory.md R224, R226), `own` is the frame of a recovery coil itself, `priv` what the private part of the frame held when the coil was saved, none where
nothing has been saved (08_memory.md R217). `deadlock` says that the checker has reported its deadlock, and `stalled` which fibres' waits (15_system.md R435). Lists of registers are s0 to s63, sm0 to sm7, hs0 to hs7, g0 to g7, b0 to b15, q0 to q15, sg0 to sg7, m0 to m7. -/
structure Coil where
  id : Nat
  core : Nat
  cslot : Nat
  resident : Bool
  st : CoilState
  asid : BitVec 12
  ctxbase : BitVec 64
  rcb : BitVec 64
  partw : Word
  window : Nat
  task : BitVec 64
  launch : Nat
  pin : Bool
  packet : Option (BitVec 512)
  index : Nat
  sub : Nat
  fibres : List Fibre
  s : List Word
  spoison : List (Nat × Poison)
  sm : List (BitVec 256)
  hs : List (Option Handle)
  binds : List (Option Binding)
  g : List Word
  b : List DWord
  q : List DWord
  sg : List SgSlot
  m : List (BitVec 128)
  tiles : List Tile
  accs : List Acc
  scratch : List Host.Cell
  spoiled : List Nat
  blocks : List Nat
  pool : List Nat
  frame : Option (BitVec 64)
  own : Option (BitVec 64)
  priv : Option (List Host.Cell)
  stores : List Store
  waits : List Wait
  insts : List Inst
  decl : Decl
  last : DWord
  chk : Word
  watch : List Watch
  trap : TrapDesc
  instrs : Nat
  pwr : Nat
  resTime : Nat
  preempts : Nat
  relaunches : Nat
  stops : Nat
  deadlock : Bool
  stalled : List Nat
  eng : EngState
  mcc : Option MccCtx
  callNo : Nat
  ueAt : List (BitVec 64 × Nat)
  stepping : List Place
  ignoreWatch : List Place
  restop : Bool
  recOf : Option Nat
  olds : List OldUnit
  deriving DecidableEq, Repr

/-! ## Engine commands and queued work -/

/-- The copy and gather commands (10_copy_gather.md R283). -/
inductive CopyKind where
  | cpy | cpyt | cpym | gath | scat | scata
  deriving DecidableEq, Repr

/-- An element or granule fault: its index, code, the engine instance that found it, and its address (10_copy_gather.md R296; 15_system.md
R490). -/
structure ElemFault where
  elem : Nat
  code : BitVec 16
  inst : Nat
  addr : BitVec 64
  deriving DecidableEq, Repr

/-- An accepted copy or gather command (10_copy_gather.md R279 to R305), with the slots it names as they stood at issue. `src` is the
source or table slot, `lin` the destination or linear slot. `todo` are the granules or elements not yet performed; `drain` says that a drain has stopped it (R302).
`dests` are the coils that a CPYM has found on its destination cores, `destFaults` the cores that faulted with the granule that came there (R293). -/
structure CopyCmd where
  id : Nat
  kind : CopyKind
  core : Nat
  coil : Nat
  launch : Nat
  asid : BitVec 12
  task : BitVec 64
  desc : BitVec 512
  src : Handle
  lin : Option Handle
  idx : Option Handle
  cpl : Option Handle
  started : Bool
  drain : Bool
  todo : List Nat
  faults : List ElemFault
  dests : List (Nat × Nat)
  destFaults : List (Nat × Nat)
  deriving DecidableEq, Repr

/-- What a matrix command does (11_matrix.md R332). -/
inductive MxOp where
  | mma (st : MxStep) (masked : Option Nat)
  | zero (int : Bool)
  | drain (tile : Nat) (epi : Epilogue)
  | drainAcc (epi : Epilogue)
  | drainChk (accm : Nat)
  deriving DecidableEq, Repr

/-- A matrix command in its engine's queue (11_matrix.md R308, R331): the engine's core, the owning coil and its program, the target coil.
`replayed` counts the logged commands of a replay that have leave (R320, R338). -/
structure MxCmd where
  core : Nat
  owner : Nat
  run : Nat
  target : Nat
  acc : Nat
  op : MxOp
  ev : Bool
  tag : Nat
  seq : Nat
  bar : Option Nat
  entry : Bool
  mxtol : Word
  task : BitVec 64
  started : Bool
  replayed : Nat
  deriving DecidableEq, Repr

/-- An accepted SCOUT (12_scout.md R343, R348, R350): its PC, the descriptor's registers and the key slot. -/
structure ScoutCmd where
  core : Nat
  coil : Nat
  pc : BitVec 64
  fibres : List Nat
  flag : Option Nat
  desc : List Word
  key : Handle
  task : BitVec 64
  deriving DecidableEq, Repr

/-- An accepted SGCALL (13_surrogate.md R374, R375): the image, the q register and each lane's arguments. -/
structure SgCall where
  core : Nat
  coil : Nat
  pc : BitVec 64
  seq : Nat
  sg : Nat
  slot : SgSlot
  q : DWord
  dev : Bool
  flag : Nat
  dreg : Nat
  lanes : List (Nat × List Word × Word)
  deriving DecidableEq, Repr

/-- A scrub or rebuild in progress (14_survivable.md R398, R399). `deliver` says that the fibres that issued it still wait for its result; after
a pre-emption it only holds back their commit points (R400). -/
structure Scrub where
  id : Nat
  coil : Nat
  fibres : List Nat
  flag : Option Nat
  deliver : Bool
  kind : Nat
  group : Nat
  sd : Nat
  stripe : Nat
  left : Nat
  off : Nat
  count : Nat
  extra : Nat
  task : BitVec 64
  deriving DecidableEq, Repr

/-- A spawned item waiting in a core's hardware work queue (07_work.md R199), or a released continuation (R204). -/
structure SpawnItem where
  core : Nat
  rcb : BitVec 64
  asid : BitVec 12
  pc : BitVec 64
  args : List Word
  fctl : Word
  acquire : Bool
  spill : Bool
  deriving DecidableEq, Repr

/-- A launch whose coils are not all placed (07_work.md R182, R201; 01_machine.md R16). -/
structure Launch where
  id : Nat
  packet : BitVec 512
  rcb : BitVec 64
  asid : BitVec 12
  next : Nat
  queue : BitVec 16
  seq : Option Nat
  die : Nat
  deriving DecidableEq, Repr

/-- The context that an RCB belongs to (07_work.md R200), with the RCB's physical address, the die of its queue scheduler (15_system.md R490), the
queue id of its root launch (R406), how many items have gone to its spill ring (R199), and whether NO_ELIGIBLE_CORE has been reported
(01_machine.md R24). -/
structure RcbCtx where
  rcb : BitVec 64
  asid : BitVec 12
  pa : Nat
  die : Nat
  ctxbase : Option (BitVec 64)
  queue : BitVec 16
  spilled : Nat
  noCore : Bool
  deriving DecidableEq, Repr

/-- One of the 256 queue slots (07_work.md R183, R185): its registers, the address space and descriptor of the queue it holds, or held last, and the
last NOTIFY that it took for each queue that it has held: address space, descriptor and time. -/
structure QSlot where
  desc : BitVec 64
  asid : BitVec 12
  op : BitVec 2
  result : BitVec 3
  mapped : Bool
  held : Bool
  casid : BitVec 12
  cur : BitVec 64
  write : Nat
  read : Nat
  notified : Nat
  seen : List (BitVec 12 × BitVec 64 × Nat)
  deriving DecidableEq, Repr

/-- The live state of an erasure group (14_survivable.md R390 to R401). `devs` are the devices that have replaced the member of a rank. Sequence
numbers are per holder rank; a replacement has applied none of a sender's yet, whatever number comes first (R392, log 90). -/
structure Group where
  st : Nat
  lost : List Nat
  repl : BitVec 16
  devs : List (Nat × BitVec 16)
  sent : List Nat
  acked : List Nat
  applied : List (Option Nat)
  nApplied : Nat
  nRebuilt : Nat
  nLost : Nat
  nMismatch : Nat
  stale : List (Nat × Nat)
  lostStripes : List Nat
  deriving DecidableEq, Repr

/-- A delta that has been sent and not acknowledged (14_survivable.md R391, R392). -/
structure Delta where
  group : Nat
  holder : Nat
  seq : Nat
  stripe : Nat
  off : Nat
  val : BitVec 256
  deriving DecidableEq, Repr

/-- A 32-byte sector of an L1 data cache (08_memory.md R230): tags, whether its page has 2 MiB, physical sector and bytes. `block` is shared by
sectors that one lane's LDMX filled together (09_ordering.md R251). -/
structure L1Line where
  core : Nat
  asid : BitVec 12
  vsec : Nat
  big : Bool
  psec : Nat
  bytes : List Byte
  block : Option Nat
  deriving DecidableEq, Repr

/-- A word of an instruction cache (08_memory.md R239, R240). -/
structure IcLine where
  core : Nat
  asid : BitVec 12
  va : BitVec 64
  word : Word
  deriving DecidableEq, Repr

/-- The tenant key of an L2 line (08_memory.md R232) and whether the line is held. -/
structure L2Key where
  line : Nat
  tkey : Nat
  held : Bool
  deriving DecidableEq, Repr

/-- The key under which a sector of 32 bytes reads as it stands, 0 for none (08_memory.md R232), and, where a fill deciphered it with another key
than it was written with, that key and what memory still holds. -/
structure SecKey where
  sec : Nat
  key : BitVec 512
  orig : Option (BitVec 512 × List Byte)
  deriving DecidableEq, Repr

/-- A sector state other than COMPRESSED and POISONED (08_memory.md R248): SIDE or UNPROTECTED. -/
inductive Coding where
  | side | unprotected
  deriving DecidableEq, Repr

/-- Who asks for power leave: a copy or gather command, or the head of a core's matrix, scout or surrogate queue. -/
inductive PowerUser where
  | copy (id : Nat)
  | matrix
  | scout
  | surrogate
  deriving DecidableEq, Repr

/-- The power admission controller of a core: its bucket, and the requests that wait, oldest first (17_module.md R468). -/
structure Bucket where
  tokens : Nat
  waiting : List PowerUser
  deriving DecidableEq, Repr

/-- What leaves the package: an MSI (17_module.md R458), a write to a peer or to a PCIe window (08_memory.md R221), a delta or an
acknowledgement (14_survivable.md R391, R392), the sector that a peer asked for (R394), repaired parity for its holder (R399), what a read or a request from outside is answered
(17_module.md R457, R461, R462), the access fault of an application core (R457), and Unsupported Request for an inbound DMA (R461). -/
inductive OutMsg where
  | msi (route : Word)
  | peerStore (dev : BitVec 16) (va : BitVec 64) (data : List Byte)
  | peerAtomic (dev : BitVec 16) (va : BitVec 64) (op : Nat) (wide : Bool) (x : DWord)
  | peerCas (dev : BitVec 16) (va : BitVec 64) (wide : Bool) (old new : DWord)
  | hostStore (pa : Nat) (data : List Byte)
  | delta (d : Delta)
  | ack (group sender seq : Nat)
  | sector (group stripe off : Nat) (val : BitVec 256)
  | parity (group stripe off : Nat) (val : BitVec 256)
  | answer (data : List Byte)
  | accessFault (app : Nat)
  | unsupported (port : Nat) (requester : BitVec 16)
  deriving DecidableEq, Repr

/-! ## The device -/

/-- What issues next (log 2): nobody has been chosen, a plait of a coil, or the MCC context of a coil. -/
inductive Turn where
  | free
  | plait (coil : Nat) (place : Place)
  | mcc (coil : Nat)
  deriving DecidableEq, Repr

/-- What comes from outside the fibres (log 2): an event of the opcode table; the choice of who issues next; an L2 line that the L2 gives up
(log 24); wrong bytes that a memory controller reads in a sector's codeword, by position and difference (08_memory.md R246); corrected
parity that reaches its holder (14_survivable.md R399); and what the survivors of a BROKEN group tell a replacement (R401, log 92). -/
inductive Input where
  | event (i : Instr)
  | turn (t : Turn)
  | evict (line : Nat)
  | dramError (sector : Nat) (errs : List (Nat × Byte))
  | parity (group stripe off : Nat) (val : BitVec 256)
  | groupBroken (group : Nat) (other : Nat) (lost : List Nat)
  deriving DecidableEq, Repr

/-- The per-core registers that software writes (07_work.md R210; 15_system.md R431), and the command counts of the core's copy engine, scout
unit and surrogate engine (15_system.md R406). -/
structure CoreRegs where
  pkwait : Nat
  agelog : Nat
  marklast : Word
  markcnt : Word
  copySeq : Nat
  scoutSeq : Nat
  sgSeq : Nat
  deriving DecidableEq, Repr

/-- The device registers (15_system.md R425; 17_module.md R457), with the number of the next profiling tick, and whether an interval has begun that ends
with it (R437). -/
structure DevRegs where
  coresAvail : BitVec 256
  memAvail : List DWord
  resetcause : DWord
  lifecycle : DWord
  errqbase : DWord
  errqctl : DWord
  errqhead : DWord
  errqtail : DWord
  profctl : DWord
  profbase : DWord
  profNext : Nat
  profOpen : Bool
  sgctl : DWord
  sgvtotal : DWord
  survbase : DWord
  survctl : DWord
  gsdrain : DWord
  tlbinvc : DWord
  tlbinva : DWord
  asidtab : DWord
  coilcmd : DWord
  qmapctl : List Nat
  sysrasid : List DWord
  sysraddr : List DWord
  pwrctl : DWord
  thermstat : DWord
  linktmo : BitVec 24
  osrtbase : DWord
  osierstat : List DWord
  intstat : BitVec 4
  introute : List DWord
  dbgsel : DWord
  pciasid0 : DWord
  pciasid1 : DWord
  sideEcc : Nat
  qreg : DWord
  osierNum : BitVec 16
  deriving DecidableEq, Repr

/-- The state of the Root Service Core that the manual names (17_module.md R462 to R470): measurement registers, the management nonce, the image
that FWUPDATE wrote, the one that runs, whether the boot ended well, whether an unlock stopped the queues, tenant keys by slot, dies under a thermal limit,
measurements extended since boot; and the retirements kept in the flash (01_machine.md R23): the cores that are left, the pseudo-channels and the
pages of 64 KiB. -/
structure Rsc where
  mr : List (BitVec 384)
  nonce : Option (BitVec 384)
  pending : Option (List Byte)
  image : Option (List Byte)
  booted : Bool
  queuesStopped : Bool
  tkeys : List (Nat × BitVec 512)
  throttled : List Nat
  recorded : Nat
  cores : BitVec 256
  pchs : List (Nat × Nat)
  pages : List Nat
  deriving DecidableEq, Repr

/-- A count of the profiling unit in the current interval (15_system.md R437, R439): a source, one of its counters, and how many. Counter 24, which no
record holds, counts the retirements of the source. -/
structure Tally where
  source : Nat
  counter : Nat
  n : Nat
  deriving DecidableEq, Repr

/-- The device. `prof` are the counts since the last profiling tick, `profClk` the cores' clocks at it. `engines` are the contexts that the gather-scatter engines hold, ASID and TKEY (10_copy_gather.md R299, R301); `tried` are those
whose turn it has been and who could not issue, since anything last happened (07_work.md R209; log 2). -/
structure State where
  mem : List Host.Cell
  poison : List Nat
  coding : List (Nat × Coding)
  sideDir : List (Nat × Nat)
  l2keys : List L2Key
  skeys : List SecKey
  l1 : List L1Line
  icache : List IcLine
  coils : List Coil
  launches : List Launch
  rcbs : List RcbCtx
  spawns : List SpawnItem
  recovery : List RecEntry
  sgstore : List SgCopy
  sgcalls : List SgCall
  copies : List CopyCmd
  mxq : List MxCmd
  scouts : List ScoutCmd
  scrubs : List Scrub
  mccq : List Nat
  qslots : List QSlot
  groups : List Group
  deltas : List Delta
  scanned : List Nat
  cores : List CoreRegs
  buckets : List Bucket
  regs : DevRegs
  rsc : Rsc
  refclk : Nat
  coreclk : List Nat
  coilSeq : List Nat
  engines : List (List (BitVec 12 × Nat))
  prof : List Tally
  profClk : List Nat
  out : List OutMsg
  turn : Turn
  tried : List Turn
  inputs : List Input
  rr : Nat
  free : Nat
  nextId : Nat
  deriving DecidableEq, Repr

/-! ## Stops -/

/-- Why a step stops with a fault. -/
inductive Fault where
  /-- Raised by every meaning of an encoded instruction when no plait, or no MCC context, is the one that issues: the machine never
  executes an instruction without an issuer (log 23). Safe: no step of the machine reaches it. -/
  | noIssuer
  deriving DecidableEq, Repr

/-- Why a step has no meaning. -/
inductive Refusal where
  /-- Raised by an arm of exec that has no meaning yet. Safe: nothing can be proved of such an instruction's effect. -/
  | notModelled (mnemonic : String)
  deriving DecidableEq, Repr

/-! ## Reset -/

/-- A core's registers at reset (07_work.md R210; MARKLAST and MARKCNT: log 6). -/
def CoreRegs.reset : CoreRegs := { pkwait := 8, agelog := 6, marklast := 0, markcnt := 0, copySeq := 0, scoutSeq := 0, sgSeq := 0 }

/-- A queue slot at reset (07_work.md R185). -/
def QSlot.reset : QSlot :=
  { desc := 0, asid := 0, op := 0, result := 0, mapped := false, held := false, casid := 0, cur := 0, write := 0, read := 0, notified := 0, seen := [] }

/-- An erasure group at reset: INACTIVE (14_survivable.md R390). -/
def Group.reset : Group :=
  { st := 0, lost := [], repl := 0, devs := [], sent := List.replicate 16 0, acked := List.replicate 16 0, applied := List.replicate 16 (some 0),
    nApplied := 0, nRebuilt := 0, nLost := 0, nMismatch := 0, stale := [], lostStripes := [] }

/-- USABLE, in units of 64 KiB, from the pseudo-channels that each die has: what is left of its DRAM after the side table, the sector state
map, the side directory and the firmware area (01_machine.md R22; 08_memory.md R247, R248; log 18). -/
def usableDram (channels : List Nat) (sideEcc : Nat) : Nat :=
  (channels.zipIdx.map (fun (e : Nat × Nat) =>
    let dram := 750000000 * e.1
    dram - dram / sideEcc - dram / 128 - dram / 16384 - Config.firmwareArea e.2 % (2 ^ 28 + 1))).sum / 65536

/-- MEM_AVAIL of a device that has retired some pseudo-channels, stack and channel, and some pages of 64 KiB: USABLE, which a retired page makes
smaller by one (DEDUCED, log 143), and a 1 for each channel of each stack that is present (01_machine.md R22, R23). -/
def memAvailOf (pchs : List (Nat × Nat)) (pages : List Nat) (sideEcc : Nat) : List DWord :=
  let words := (List.range 12).map (fun s =>
    (pchs.filter (fun e => e.1 = s)).foldl (fun (w : DWord) e => w &&& ~~~(1#64 <<< e.2)) (BitVec.allOnes 64))
  let ones (w : DWord) : Nat := ((List.range 64).filter (fun i => w.getLsbD i)).length
  let channels := (List.range 4).map (fun d => ((List.range 3).map (fun j => ones (words.getD (3 * d + j) 0))).sum)
  BitVec.ofNat 64 ((usableDram channels sideEcc - pages.length) % 2 ^ 32) :: words

/-- MEM_AVAIL at reset: every pseudo-channel of every stack (log 18). -/
def memAvailReset : List DWord := memAvailOf [] [] 16

/-- The device registers at reset (15_system.md R425 and the rules INVENTORY.md names; logs 6, 18, 19). -/
def DevRegs.reset : DevRegs :=
  { coresAvail := BitVec.allOnes 256, memAvail := memAvailReset, resetcause := 1, lifecycle := 2,
    errqbase := 0, errqctl := 0xA0, errqhead := 0, errqtail := 0, profctl := 0x28, profbase := 0, profNext := 0, profOpen := false, sgctl := 0x0001000000000000, sgvtotal := 0,
    survbase := 0, survctl := 0, gsdrain := 0, tlbinvc := 0, tlbinva := 0, asidtab := 0, coilcmd := 0,
    qmapctl := List.replicate 4 1000, sysrasid := List.replicate 16 0, sysraddr := List.replicate 16 0,
    pwrctl := 0x00000E10C0040000, thermstat := 0, linktmo := 100, osrtbase := 0, osierstat := List.replicate 18 0, intstat := 0,
    introute := List.replicate 4 0, dbgsel := 0, pciasid0 := 0, pciasid1 := 0, sideEcc := 16, qreg := 0, osierNum := Config.osierNum }

/-- The n little-endian bytes of a value. -/
def leBytes : Nat → Nat → List Byte
  | 0, _ => []
  | n + 1, x => BitVec.ofNat 8 x :: leBytes n (x / 256)

/-- Extends a measurement register (17_module.md R464). -/
def mrExtend (m : BitVec 384) (d : List Byte) : BitVec 384 := Config.sha384 (leBytes 48 m.toNat ++ d)

/-- An image of the boot flash (17_module.md R463): the RSC's, the application cores', the OS loader. -/
def bootImage (k : Nat) : List Byte := Config.bootImages.getD k []

/-- The measurement registers after a boot from an RSC image in a lifecycle state (17_module.md R463, R464). -/
def bootMeasures (image : List Byte) (state : Nat) : List (BitVec 384) :=
  let m (d : List Byte) : BitVec 384 := mrExtend 0 (leBytes 48 (Config.sha384 d).toNat)
  [m image, m (bootImage 1), m (bootImage 2), 0, 0, 0, 0, mrExtend 0 (leBytes 1 state)]

/-- The Root Service Core at reset: after a boot that ended well (17_module.md R463, R464; log 20). -/
def Rsc.reset : Rsc :=
  { mr := bootMeasures (bootImage 0) 2, nonce := none, pending := none, image := none, booted := true, queuesStopped := false, tkeys := [], throttled := [],
    recorded := 0, cores := BitVec.allOnes 256, pchs := [], pages := [] }

/-- The device right after reset. -/
def State.reset : State :=
  { mem := [], poison := [], coding := [], sideDir := [], l2keys := [], skeys := [], l1 := [], icache := [], coils := [],
    launches := [], rcbs := [], spawns := [], recovery := [], sgstore := [], sgcalls := [], copies := [], mxq := [], scouts := [], scrubs := [],
    mccq := [], qslots := List.replicate 256 QSlot.reset, groups := List.replicate 256 Group.reset, deltas := [], scanned := [],
    cores := List.replicate 256 CoreRegs.reset, buckets := List.replicate 256 { tokens := 1316, waiting := [] }, regs := DevRegs.reset,
    rsc := Rsc.reset, refclk := 0, coreclk := List.replicate 256 0, coilSeq := List.replicate 4 0,
    engines := List.replicate 12 [], prof := [], profClk := List.replicate 256 0, out := [], turn := .free, tried := [], inputs := [], rr := 0,
    free := 0, nextId := 0 }

end Sys2Proof.Machine
end

