-- ==== Sys2Proof/Machine/Memory.lean ====
section
/-! DEFINITION. Device memory: bytes by physical address in one canonical form, words in little-endian order (00_scope.md R2),
tenant keys (08_memory.md R232), sector states, their coding and poison (R245 to R248), and what a performed write does, parity deltas and
reconstruction included (14_survivable.md R389 to R394); and the L1 data caches (R230). -/

namespace Sys2Proof.Machine

/-! ## Bytes -/

/-- The byte at an address; an address that is not listed reads 0 (log 11). -/
def cellGet : List Host.Cell → Nat → Byte
  | [], _ => 0
  | (k, x) :: r, a => if k = a then x else if a < k then 0 else cellGet r a

/-- Puts a byte at an address, in canonical form: addresses rise and no listed byte is 0. -/
def cellSet : List Host.Cell → Nat → Byte → List Host.Cell
  | [], a, b => if b = 0 then [] else [(a, b)]
  | (k, x) :: r, a, b =>
    if k = a then if b = 0 then r else (a, b) :: r
    else if a < k then if b = 0 then (k, x) :: r else (a, b) :: (k, x) :: r
    else (k, x) :: cellSet r a b

/-- Every address is at least n, they rise strictly, and no byte is 0. -/
def cellsFrom : Nat → List Host.Cell → Bool
  | _, [] => true
  | n, (k, x) :: r => decide (n ≤ k) && x != 0 && cellsFrom (k + 1) r

/-- The canonical form of memory. -/
def cellsWf (l : List Host.Cell) : Bool := cellsFrom 0 l

/-- n bytes from an address upward. -/
def cellsRead (l : List Host.Cell) (a : Nat) : Nat → List Byte
  | 0 => []
  | n + 1 => cellGet l a :: cellsRead l (a + 1) n

/-- Stores bytes from an address upward. -/
def cellsWrite (l : List Host.Cell) (a : Nat) : List Byte → List Host.Cell
  | [] => l
  | b :: r => cellsWrite (cellSet l a b) (a + 1) r

/-- The little-endian value of bytes. -/
def leNat : List Byte → Nat
  | [] => 0
  | b :: r => b.toNat + 256 * leNat r

/-- The word of four bytes. -/
def leWord (l : List Byte) : Word := BitVec.ofNat 32 (leNat l)
/-- The double word of eight bytes. -/
def leDWord (l : List Byte) : DWord := BitVec.ofNat 64 (leNat l)

/-- n bytes of device memory. -/
def State.peek (s : State) (pa n : Nat) : List Byte := cellsRead s.mem pa n
/-- The 64-bit value at a physical address. -/
def State.peek64 (s : State) (pa : Nat) : DWord := leDWord (s.peek pa 8)
/-- Stores bytes in device memory, with no other effect. -/
def State.poke (s : State) (pa : Nat) (d : List Byte) : State := { s with mem := cellsWrite s.mem pa d }

/-- Draws a free value's index (log 5). -/
def State.draw (s : State) : Nat × State := (s.free, { s with free := s.free + 1 })

/-- Time passes: REFCLK and the cycles of each core island, which has a clock of its own (01_machine.md R10), move on by free counts
(15_system.md R433, log 3). -/
def State.tick (s : State) : State :=
  let d := s.draw
  { d.2 with refclk := s.refclk + Config.refclkTicks d.1, coreclk := s.coreclk.zipIdx.map (fun p => p.1 + Config.coreTicks d.1 p.2) }

/-! ## The home of an address (01_machine.md R8, R11, R22) -/

/-- The home die of a physical address. -/
def homeDie (pa : Nat) : Nat := Config.frameDie (pa / 2 ^ 21) % 4

/-- Whether MEM_AVAIL shows a pseudo-channel of a stack, 0 to 11. -/
def State.channel (s : State) (stack pch : Nat) : Bool := (s.regs.memAvail.getD (stack + 1) 0).getLsbD pch

/-- The order in which consecutive lines of a frame go round the present pseudo-channels of a die: its stacks in turn, and then the next
channel of each (R11, R23; log 103). -/
def State.rotation (s : State) (die : Nat) : List (Nat × Nat) :=
  ((List.range 64).flatMap (fun p => (List.range 3).map (fun j => (3 * die + j, p)))).filter (fun e => s.channel e.1 e.2)

/-- The stack and the pseudo-channel that serve a physical address. -/
def State.channelOf (s : State) (pa : Nat) : Nat × Nat :=
  let l := s.rotation (homeDie pa)
  l.getD (pa % 2 ^ 21 / 256 % l.length) (3 * homeDie pa, 0)

/-- The stack, 0 to 11, that serves a physical address (R11). -/
def State.stackIdx (s : State) (pa : Nat) : Nat := (s.channelOf pa).1

/-- The bytes of DRAM of a die: 48 GB for a stack, in 64 pseudo-channels (R8). -/
def State.dieDram (s : State) (die : Nat) : Nat := (s.rotation die).length * 750000000

/-! ## Sectors (R245 to R248) -/

/-- The 32-bit words of a sector. -/
def wordsIn : Nat → List Byte → List Nat
  | 0, _ => []
  | n + 1, l => leNat (l.take 4) :: wordsIn n (l.drop 4)
/-- The 16-bit halves of a sector. -/
def halvesIn : Nat → List Byte → List Nat
  | 0, _ => []
  | n + 1, l => leNat (l.take 2) :: halvesIn n (l.drop 2)

/-- Whether x - y, modulo 2^w, fits a signed k-bit value. -/
def diffFits (w k x y : Nat) : Bool :=
  let d := (x + 2 ^ w - y) % 2 ^ w
  d < 2 ^ (k - 1) || d ≥ 2 ^ w - 2 ^ (k - 1)

/-- The first compression form that fits a sector: its header (R245). -/
def sectorForm (l : List Byte) : Option Nat :=
  let w := wordsIn 8 l
  let h := halvesIn 16 l
  let w0 := w.headD 0
  let h0 := h.headD 0
  if l.all (fun b => b = 0) then some 0
  else if w.all (fun x => x = w0) then some 1
  else if w.all (fun x => diffFits 32 8 x w0) then some 2
  else if h.all (fun x => diffFits 16 8 x h0) then some 3
  else if w.all (fun x => diffFits 32 16 x w0) then some 4
  else if w.all (fun x => diffFits 32 24 x w0) then some 5
  else none

/-- A number as n little-endian bytes of difference to another, modulo 2^w (R245). -/
def diffBytes (w n x y : Nat) : List Byte := leBytes n ((x + 2 ^ w - y) % 2 ^ w)

/-- The payload of a sector that a compression form fits: its header, and what the form keeps (R245; log 104). -/
def payloadOf (l : List Byte) : Option (List Byte) :=
  let w := wordsIn 8 l
  let h := halvesIn 16 l
  let w0 := w.headD 0
  let h0 := h.headD 0
  (sectorForm l).map (fun k =>
    BitVec.ofNat 8 k ::
      (if k = 0 then []
       else if k = 3 then leBytes 2 h0 ++ h.tail.flatMap (fun x => diffBytes 16 1 x h0)
       else leBytes 4 w0 ++ (if k = 1 then [] else w.tail.flatMap (fun x => diffBytes 32 (if k = 2 then 1 else if k = 4 then 2 else 3) x w0))))

/-- The 32 bytes that a payload stands for, by its header; none for a header that no form has (R245). -/
def expandPayload (p : List Byte) : Option (List Byte) :=
  let part (k n : Nat) : Nat := leNat ((p.drop k).take n)
  let signed (n x : Nat) : Nat := if x ≥ 2 ^ (8 * n - 1) then x + 2 ^ 32 - 2 ^ (8 * n) else x
  let words (n : Nat) : List Byte :=
    leBytes 4 (part 1 4) ++ (List.range 7).flatMap (fun i => leBytes 4 (part 1 4 + signed n (part (5 + n * i) n)))
  match part 0 1 with
  | 0 => some (List.replicate 32 0)
  | 1 => some ((List.range 8).flatMap (fun _ => leBytes 4 (part 1 4)))
  | 2 => some (words 1)
  | 3 => some (leBytes 2 (part 1 2) ++ (List.range 15).flatMap (fun i => leBytes 2 (part 1 2 + signed 1 (part (3 + i) 1))))
  | 4 => some (words 2)
  | 5 => some (words 3)
  | _ => none

/-- Multiplication by α = 0x02 in GF(2⁸) with x⁸ + x⁴ + x³ + x² + 1 (R245). -/
def gfTwice (a : Nat) : Nat := if 2 * a < 256 then 2 * a else (2 * a) ^^^ 0x11D
/-- Multiplication in GF(2⁸), by k bits of the second factor. -/
def gfMulBits : Nat → Nat → Nat → Nat
  | 0, _, _ => 0
  | k + 1, a, b => (if b % 2 = 1 then a else 0) ^^^ gfMulBits k (gfTwice a) (b / 2)
def gfMul (a b : Nat) : Nat := gfMulBits 8 a b
/-- Powers in GF(2⁸). -/
def gfPow (a : Nat) : Nat → Nat
  | 0 => 1
  | n + 1 => gfMul a (gfPow a n)
/-- The inverse in GF(2⁸). -/
def gfInv (a : Nat) : Nat := gfPow a 254

/-- The product of a polynomial, its highest coefficient first, with x − r. -/
def gfTimesRoot (p : List Nat) (r : Nat) : List Nat := List.zipWith (· ^^^ ·) (p ++ [0]) (0 :: p.map (gfMul r))
/-- The generator (x − 1)(x − α)(x − α²)(x − α³) (R245). -/
def rsGen : List Nat := (List.range 4).foldl (fun p i => gfTimesRoot p (gfPow 2 i)) [1]

/-- One step of the division by the generator: the remainder after one more byte. -/
def rsStep (r : List Nat) (b : Byte) : List Nat :=
  let f := b.toNat ^^^ r.headD 0
  List.zipWith (fun x g => x ^^^ gfMul f g) (r.tail ++ [0]) rsGen.tail

/-- The 4 check bytes of a word of bytes, whose first byte is the highest coefficient (R245; log 104). -/
def rsCheck (d : List Byte) : List Byte := (d.foldl rsStep [0, 0, 0, 0]).map (BitVec.ofNat 8)

/-- A syndrome of wrong bytes, position and difference, in a codeword of n bytes. -/
def rsSyndrome (n j : Nat) (errs : List (Nat × Byte)) : Nat :=
  errs.foldl (fun a e => a ^^^ gfMul e.2.toNat (gfPow 2 (j * (n - 1 - e.1)))) 0

/-- The at most two wrong bytes that explain four syndromes, position and difference; none when no two do (R246). -/
def rsLocate (n : Nat) (s0 s1 s2 s3 : Nat) : Option (List (Nat × Nat)) :=
  let fits (l : List (Nat × Nat)) : Bool :=
    let at_ (j : Nat) : Nat := l.foldl (fun a e => a ^^^ gfMul e.2 (gfPow 2 (j * (n - 1 - e.1)))) 0
    l.all (fun e => e.2 ≠ 0) && at_ 0 = s0 && at_ 1 = s1 && at_ 2 = s2 && at_ 3 = s3
  let pair (p q : Nat) : List (Nat × Nat) :=
    let xp := gfPow 2 (n - 1 - p)
    let xq := gfPow 2 (n - 1 - q)
    let ep := gfMul (s1 ^^^ gfMul s0 xq) (gfInv (xp ^^^ xq))
    [(p, ep), (q, s0 ^^^ ep)]
  let cands := [[]] ++ (List.range n).map (fun p => [(p, s0)])
    ++ (List.range n).flatMap (fun p => (List.range p).map (fun q => pair p q))
  cands.find? fits

/-- What the decoder makes of a codeword of n bytes with some wrong bytes: none for a failure, or whether it gives back the word as it was
(R246). -/
def rsDecode (n : Nat) (errs : List (Nat × Byte)) : Option Bool :=
  let e := (errs.filter (fun x => x.1 < n && x.2 ≠ 0))
  (rsLocate n (rsSyndrome n 0 e) (rsSyndrome n 1 e) (rsSyndrome n 2 e) (rsSyndrome n 3 e)).map (fun l =>
    l.length = e.length && l.all (fun x => e.any (fun y => y.1 = x.1 && y.2.toNat = x.2)))

/-- Whether a physical sector (32 bytes, numbered by its address div 32) is poisoned. -/
def State.sectorPoisoned (s : State) (sec : Nat) : Bool := s.poison.contains sec

/-- Whether any of n bytes at a physical address is poisoned. -/
def State.poisoned (s : State) (pa n : Nat) : Bool :=
  s.poison.any (fun sec => decide (sec * 32 < pa + n) && decide (pa < sec * 32 + 32))

/-- The die's side directory: the frames of 64 KiB that have a block of side entries, and the block (R247, R248). -/
def State.sideFrames (s : State) (die : Nat) : List (Nat × Nat) := s.sideDir.filter (fun e => homeDie (65536 * e.1) = die)

/-- The blocks of 2,048 entries of 4 bytes that a die's side table holds at SIDE_ECC_FRACTION 1/n (R247). -/
def State.sideCapacity (s : State) (die : Nat) : Nat := s.dieDram die / s.regs.sideEcc / 8192

/-- A directory entry's word: the block, and the valid bit (R248). -/
def State.sideEntry (s : State) (frame : Nat) : Word :=
  match s.sideDir.find? (fun e => e.1 = frame) with
  | some e => BitVec.ofNat 32 (2 ^ 31 + e.2)
  | none => 0

/-- A frame's block goes back to the pool when every sector that it covers has been rewritten compressed: none is SIDE, UNPROTECTED or
POISONED (R247, R248). -/
def State.sideRelease (s : State) (frame : Nat) : State :=
  if s.coding.any (fun e => e.1 / 2048 = frame) || s.poison.any (fun sec => sec / 2048 = frame) then s
  else { s with sideDir := s.sideDir.filter (fun e => e.1 ≠ frame) }

/-- A block for a frame's side entries: the one it has, or the lowest that is free on its die; none when the table is full (R247). -/
def State.sideBlock (s : State) (frame : Nat) : Option State :=
  if s.sideDir.any (fun e => e.1 = frame) then some s
  else
    let used := s.sideFrames (homeDie (65536 * frame))
    if used.length < s.sideCapacity (homeDie (65536 * frame)) then
      ((List.range (used.length + 1)).find? (fun b => !used.any (fun e => e.2 = b))).map (fun b => { s with sideDir := (frame, b) :: s.sideDir })
    else none

/-- Takes a sector's state out of SIDE and UNPROTECTED. -/
def State.uncode (s : State) (sec : Nat) : State := { s with coding := s.coding.filter (fun e => e.1 ≠ sec) }

/-- Marks a sector POISONED, or no longer so (R248). -/
def State.setPoison (s : State) (sec : Nat) (b : Bool) : State :=
  if b then if s.poison.contains sec then s else { s.uncode sec with poison := sec :: s.poison }
  else { s with poison := s.poison.filter (fun x => x ≠ sec) }

/-- The sector state after a write, from the sector's content, the coding mode and the compression permission (R245, R247, R248): true when
the sector is left without check bytes. A POISONED sector has no coding. -/
def State.recode (s : State) (sec : Nat) (side compr : Bool) : State × Bool :=
  if s.sectorPoisoned sec then (s.uncode sec, false)
  else if !side && compr && (sectorForm (s.peek (32 * sec) 32)).isSome then ((s.uncode sec).sideRelease (sec / 2048), false)
  else
    let rest := s.coding.filter (fun e => e.1 ≠ sec)
    match s.sideBlock (sec / 2048) with
    | some t => ({ t with coding := (sec, .side) :: rest }, false)
    | none => ({ s with coding := (sec, .unprotected) :: rest }, true)

/-- The four states of a sector (R248). -/
def State.sectorState (s : State) (sec : Nat) : Nat :=
  if s.sectorPoisoned sec then 3
  else match s.coding.find? (fun e => e.1 = sec) with
    | some (_, .side) => 1
    | some (_, .unprotected) => 2
    | none => 0

/-! ## Tenant keys (R232) -/

/-- The entry of an L2 line of 256 bytes. -/
def State.l2key (s : State) (line : Nat) : Option L2Key := s.l2keys.find? (fun e => e.line = line)

/-- Marks a line as held under a key. -/
def State.setL2key (s : State) (line tkey : Nat) : State :=
  { s with l2keys := { line := line, tkey := tkey, held := true } :: s.l2keys.filter (fun e => e.line ≠ line) }

/-- Whether a tenant key slot holds zeros (17_module.md R462). -/
def State.noKey (s : State) (tkey : Nat) : Bool := tkey ≠ 0 && !s.rsc.tkeys.any (fun e => e.1 = tkey)

/-- Whether an access under a tenant key meets a line held under another, or its key slot holds zeros (R232; 17_module.md R462). -/
def State.keyClash (s : State) (pa tkey : Nat) : Bool :=
  s.noKey tkey ||
  (match s.l2key (pa / 256) with
   | some e => e.held && e.tkey ≠ tkey
   | none => false)

/-- The key in a tenant key slot; slot 0 has none (R215). -/
def State.slotKey (s : State) (tkey : Nat) : BitVec 512 := ((s.rsc.tkeys.find? (fun e => e.1 = tkey)).map Prod.snd).getD 0

/-- The key of a sector; one that is not listed is not encrypted. -/
def State.skey (s : State) (sec : Nat) : Option SecKey := s.skeys.find? (fun e => e.sec = sec)

/-- Puts the key of a sector. -/
def State.setSkey (s : State) (e : SecKey) : State :=
  let rest := s.skeys.filter (fun x => x.sec ≠ e.sec)
  { s with skeys := if e.key = 0 && e.orig.isNone then rest else e :: rest }

/-- The key of a sector as it reads now. -/
def State.keyNow (s : State) (sec : Nat) : BitVec 512 := ((s.skey sec).map SecKey.key).getD 0

/-- A payload under a key, with the physical sector address as the tweak, and the payload deciphered (R232). -/
def sealUnder (k : BitVec 512) (sec : Nat) (d : List Byte) : List Byte := if k = 0 then d else aesXts false k (32 * sec) d
def unsealUnder (k : BitVec 512) (sec : Nat) (d : List Byte) : List Byte := if k = 0 then d else aesXts true k (32 * sec) d

/-- What a sector was last written with: the key, and the data. -/
def State.written (s : State) (sec : Nat) : BitVec 512 × List Byte :=
  ((s.skey sec).bind SecKey.orig).getD (s.keyNow sec, s.peek (32 * sec) 32)

/-- The data unit that DRAM holds of a sector, enciphered: the padded payload of a COMPRESSED sector, and the 32 bytes of another (R232, R245). -/
def State.cipherText (s : State) (sec : Nat) : List Byte :=
  let w := s.written sec
  let p := (payloadOf w.2).getD []
  sealUnder w.1 sec (if s.sectorState sec = 0 then p ++ List.replicate (28 - p.length) 0 else w.2)

/-- What a sector gives under a key that it was not written with: its data unit deciphered under that key. No form has the header that a
deciphered payload may begin with: the bytes are free then (log 137). -/
def State.misread (s : State) (key : BitVec 512) (sec n : Nat) : List Byte :=
  let d := unsealUnder key sec (s.cipherText sec)
  if s.sectorState sec = 0 then (expandPayload d).getD ((List.range 32).map (fun i => Config.wrongKeyByte n (32 * sec + i))) else d

/-- Fills a sector under a key (R232). The memory itself keeps what it held, so that a later fill under the right key gives the data again. -/
def State.fillSector (s : State) (tkey : BitVec 512) (sec : Nat) : State :=
  let w := s.written sec
  if s.keyNow sec = tkey then s
  else if w.1 = tkey then (s.poke (32 * sec) w.2).setSkey { sec := sec, key := tkey, orig := none }
  else
    let q := s.draw
    (q.2.poke (32 * sec) (s.misread tkey sec q.1)).setSkey { sec := sec, key := tkey, orig := some w }

/-- An access that takes the line under a key: the line is filled if the L2 does not hold it (R232). -/
def State.touchLine (s : State) (pa tkey : Nat) : State :=
  let fill := ((List.range 8).foldl (fun s i => s.fillSector (s.slotKey tkey) (pa / 256 * 8 + i)) s).setL2key (pa / 256) tkey
  match s.l2key (pa / 256) with
  | some e => if e.held && e.tkey = tkey then s else fill
  | none => fill

/-- An access that is UNCACHED takes no line (R230): a line that the L2 holds answers it, and otherwise the sector is deciphered under the
key of the access. -/
def State.touchUncached (s : State) (pa tkey : Nat) : State :=
  match s.l2key (pa / 256) with
  | some e => if e.held then s else s.fillSector (s.slotKey tkey) (pa / 32)
  | none => s.fillSector (s.slotKey tkey) (pa / 32)

/-- A sector that is written has the key of the line that the L2 holds. With no line, the write has gone to memory as it stood there. -/
def State.sealSector (s : State) (sec : Nat) : State :=
  let key : BitVec 512 :=
    match s.l2key (sec / 8) with
    | some e => if e.held then s.slotKey e.tkey else s.keyNow sec
    | none => s.keyNow sec
  s.setSkey { sec := sec, key := key, orig := none }

/-- The L2 writes a line back and drops it, by CCTL or of its own (R239; log 24). -/
def State.dropLine (s : State) (line : Nat) : State :=
  { s with l2keys := s.l2keys.map (fun (e : L2Key) => if e.line = line then { e with held := false } else e) }

/-- What DRAM holds of a sector: its 32 bytes, and its side entry where it has one (R245, R248). -/
def State.stored (s : State) (sec : Nat) : List Byte × Option (List Byte) :=
  let q := s.cipherText sec
  match s.sectorState sec with
  | 0 => (q ++ rsCheck q, none)
  | 1 => (q, some (rsCheck q))
  | _ => (q, none)

/-! ## Erasure groups as the table in memory describes them (14_survivable.md R387, R388) -/

/-- The physical address of a group's table entry. -/
def State.groupAt (s : State) (g : Nat) : Nat := s.regs.survbase.toNat + 256 * g
def State.groupG (s : State) (g : Nat) : Nat := leNat (s.peek (s.groupAt g + 1) 1)
def State.groupRank (s : State) (g : Nat) : Nat := leNat (s.peek (s.groupAt g + 2) 1)
def State.groupPBase (s : State) (g : Nat) : Nat := leNat (s.peek (s.groupAt g + 8) 8)
def State.groupPLen (s : State) (g : Nat) : Nat := leNat (s.peek (s.groupAt g + 0x10) 8)
def State.groupQBase (s : State) (g : Nat) : Nat := leNat (s.peek (s.groupAt g + 0x18) 8)
def State.groupMember (s : State) (g r : Nat) : Nat := leNat (s.peek (s.groupAt g + 0x20 + 2 * r) 2)
def State.groupPKey (s : State) (g : Nat) : Nat := leNat (s.peek (s.groupAt g + 6) 1)
def State.groupRBase (s : State) (g : Nat) : Nat := leNat (s.peek (s.groupAt g + 0x40) 8)

/-- The parity area's length. -/
def State.groupQLen (s : State) (g : Nat) : Nat := s.groupPLen g / (s.groupG g - 1)

/-- Whether an address lies in a group's data region, or in its parity area. -/
def State.inData (s : State) (g pa : Nat) : Bool := s.groupPBase g ≤ pa && pa < s.groupPBase g + s.groupPLen g
def State.inParity (s : State) (g pa : Nat) : Bool := s.groupQBase g ≤ pa && pa < s.groupQBase g + s.groupQLen g
def State.inGroup (s : State) (g pa : Nat) : Bool := s.inData g pa || s.inParity g pa

/-- A group's live state. -/
def State.grp (s : State) (g : Nat) : Group := s.groups.getD g Group.reset
/-- Puts a group's live state. -/
def State.setGrp (s : State) (g : Nat) (x : Group) : State := { s with groups := s.groups.set g x }

/-- The stripe of unit u of rank d's data region in a group of G (R388). -/
def stripeOf (G d u : Nat) : Nat :=
  let q := u / (G - 1)
  let r := u % (G - 1)
  q * G + r + (if r ≥ d then 1 else 0)

/-- The groups whose data region holds a physical address and that send deltas (R389). -/
def State.groupsOf (s : State) (pa : Nat) : List Nat :=
  (List.range 256).filter (fun g => 1 ≤ (s.grp g).st && (s.grp g).st ≤ 3 && s.inData g pa)

/-- The group whose parity area holds a physical address. -/
def State.parityGroup (s : State) (pa : Nat) : Option Nat := (List.range 256).find? (fun g => (s.grp g).st ≠ 0 && s.inParity g pa)

/-- The device's own access to a sector: one of a parity area is under the key of that area, which its line then carries (R232, R387; log 141). -/
def State.asOwner (s : State) (pa : Nat) : State :=
  match s.parityGroup pa with
  | some g => s.touchLine pa (s.groupPKey g)
  | none => s

/-- Whether this device is the replacement of a group that is being rebuilt, and a byte lies in its data region: every write there but a
PREBUILD's is refused (R390). -/
def State.refuses (s : State) (pa : Nat) : Bool :=
  (s.groupsOf pa).any (fun g => (s.grp g).st = 3 && (s.grp g).lost.contains (s.groupRank g))

/-- The bytes XORed. -/
def xorBytes (a b : List Byte) : List Byte := List.zipWith (fun x y => x ^^^ y) a b

/-- 32 bytes as one value. -/
def leSector (l : List Byte) : BitVec 256 := BitVec.ofNat 256 (leNat l)

/-- Writes a sector of this device without a delta: rebuilt data, or parity. -/
def State.putSector (s : State) (pa : Nat) (d : BitVec 256) : State :=
  (((((s.asOwner pa).poke pa (leBytes 32 d.toNat)).setPoison (pa / 32) false).sealSector (pa / 32)).recode (pa / 32) false true).1

/-- The ACTIVE group that can reconstruct a poisoned sector (R394). -/
def State.healer (s : State) (sec : Nat) : Option Nat :=
  if s.sectorPoisoned sec then (List.range 256).find? (fun g => (s.grp g).st = 1 && s.inGroup g (32 * sec)) else none

/-- Reconstructs a poisoned sector of an ACTIVE group from what the other members answer, which is outside the device and free; when a
member does not answer, nothing changes (R394; log 88). True when it has been reconstructed. -/
def State.heal (s : State) (sec : Nat) : State × Bool :=
  match s.healer sec with
  | none => (s, false)
  | some _ =>
    let d := s.draw
    if Config.memberSilent d.1 then (d.2, false) else (d.2.putSector (32 * sec) (Config.memberXor d.1), true)

/-- Applies a delta to the parity sector this device holds, which is reconstructed first where it is poisoned (R391, R394). -/
def State.applyDelta (s : State) (g stripe off : Nat) (d : BitVec 256) : State :=
  let pa := s.groupQBase g + 4096 * (stripe / s.groupG g) + off
  let s := (s.heal (pa / 32)).1.asOwner pa
  let new := leSector (xorBytes (s.peek pa 32) (leBytes 32 d.toNat))
  if s.sectorPoisoned (pa / 32) then s.poke pa (leBytes 32 new.toNat) else s.putSector pa new

/-- Whether a stripe's bit is set in the rebuild map (R390). -/
def State.rebuilt (s : State) (g stripe : Nat) : Bool := (leNat (s.peek (s.groupRBase g + stripe / 8) 1)).testBit (stripe % 8)

/-- Sends a delta of a write at pa for one group (R391, R392): to the holder, or applied here when this device holds the stripe. A lost
holder's deltas are dropped, until the stripe has been rebuilt (R399). -/
def State.sendFor (s : State) (pa : Nat) (d : BitVec 256) (g : Nat) : State :=
  let G := s.groupG g
  let o := pa - s.groupPBase g
  let stripe := stripeOf G (s.groupRank g) (o / 4096)
  let h := stripe % G
  let x := s.grp g
  if h = s.groupRank g then s.applyDelta g stripe (o % 4096) d
  else if x.lost.contains h && !(x.st = 3 && s.rebuilt g stripe) then s
  else
    let n := x.sent.getD h 0 + 1
    let dl : Delta := { group := g, holder := h, seq := n, stripe := stripe, off := o % 4096, val := d }
    { (s.setGrp g { x with sent := x.sent.set h n }) with deltas := s.deltas ++ [dl], out := s.out ++ [.delta dl] }

/-- Sends the delta of a protected sector's write for every group that protects it (R389). -/
def State.sendDelta (s : State) (pa : Nat) (old : List Byte) : State :=
  let d := leSector (xorBytes old (s.peek pa 32))
  (s.groupsOf pa).foldl (fun s g => s.sendFor pa d g) s

/-- Marks the parity of a poisoned sector stale, in every group that protects it (R393). -/
def State.markStale (s : State) (pa : Nat) : State :=
  (s.groupsOf pa).foldl (fun s g =>
    let o := pa - s.groupPBase g
    let stripe := stripeOf (s.groupG g) (s.groupRank g) (o / 4096)
    let x := s.grp g
    if x.stale.contains (stripe, o % 4096) then s else s.setGrp g { x with stale := (stripe, o % 4096) :: x.stale }) s

/-! ## Performed accesses -/

/-- What the writes of sectors leave to report: the physical addresses of sectors written without check bytes (R247), of those that were
reconstructed first (14_survivable.md R394), and of the writes that a replacement refuses (R390). -/
structure Wrote where
  s : State
  bare : List Nat
  healed : List Nat := []
  refused : List Nat := []

/-- Reconstructs the sector that an access finds poisoned (14_survivable.md R394). -/
def Wrote.heal (w : Wrote) (sec : Nat) : Wrote :=
  let h := w.s.heal sec
  { w with s := h.1, healed := if h.2 then w.healed ++ [32 * sec] else w.healed }

/-- Performs a write inside one sector (R246, R248; 14_survivable.md R391, R393): the bytes at pa, all in one sector. A replacement that is
being rebuilt refuses it (R390). -/
def writeSector (w : Wrote) (pa : Nat) (d : List Byte) (bad side compr : Bool) : Wrote :=
  if w.s.refuses pa then { w with refused := w.refused ++ [pa] }
  else
    let sec := pa / 32
    let w := w.heal sec
    let s := w.s
    let old := s.peek (32 * sec) 32
    let was := s.sectorPoisoned sec
    let s := (s.poke pa d).sealSector sec
    let s := if was then s.markStale (32 * sec) else s.sendDelta (32 * sec) old
    let s := s.setPoison sec (bad || (was && d.length < 32))
    let (s, bare) := s.recode sec side compr
    { w with s := s, bare := if bare then w.bare ++ [32 * sec] else w.bare }

/-- Performs a write of bytes, sector by sector, in at most `fuel` sectors. -/
def writeSectors : Nat → Wrote → Nat → List Byte → Bool → Bool → Bool → Wrote
  | 0, w, _, _, _, _, _ => w
  | fuel + 1, w, pa, d, bad, side, compr =>
    if d.isEmpty then w
    else
      let n := 32 - pa % 32
      writeSectors fuel (writeSector w pa (d.take n) bad side compr) (pa + n) (d.drop n) bad side compr

/-- A write that is performed in memory (09_ordering.md R252). -/
def State.perform (s : State) (pa : Nat) (d : List Byte) (bad side compr : Bool) : Wrote :=
  writeSectors (d.length / 32 + 2) { s := s, bare := [] } pa d bad side compr

/-- Reconstructs the poisoned sectors of a range that an access reads. -/
def State.healRange (s : State) (pa n : Nat) : Wrote :=
  (List.range ((pa + n + 31) / 32 - pa / 32)).foldl (fun w i => w.heal (pa / 32 + i)) { s := s, bare := [] }

/-! ## The L1 data cache (08_memory.md R230; 09_ordering.md R254, R256, R489; log 9) -/

/-- A memory fault: its code, subtype (15_system.md R419) and address. -/
structure MemFault where
  code : BitVec 16
  sub : Nat
  addr : BitVec 64
  deriving DecidableEq, Repr

/-- Whether an L1 sector is the one that a core and an address space name by a virtual sector. -/
def L1Line.is (e : L1Line) (core : Nat) (asid : BitVec 12) (vsec : Nat) : Bool :=
  e.core = core && e.asid = asid && e.vsec = vsec

/-- Drops every L1 data line of an address space in a core (R489). -/
def State.dropL1 (s : State) (core : Nat) (asid : BitVec 12) : State :=
  { s with l1 := s.l1.filter (fun e => !(e.core = core && e.asid = asid)) }

/-- What the agents of a core write, or read past its L1, is what the L1 of that core then holds, whichever address space a line belongs to
(R230; 09_ordering.md R253, R256, R489). -/
def State.l1Update (s : State) (core : Nat) (pa : Nat) : State :=
  { s with l1 := s.l1.map (fun (e : L1Line) =>
      if e.core = core && e.psec = pa / 32 then { e with bytes := s.peek (pa / 32 * 32) 32, block := none } else e) }

/-- The sectors of 32 bytes that an L1 data cache of 256 KiB holds (01_machine.md R9). -/
def l1Sectors : Nat := 8192

/-- Puts a sector in an L1, from which older ones of the core give way. -/
def State.l1Put (s : State) (e : L1Line) : State :=
  { s with l1 := e :: (s.l1.filter (fun x => x.core = e.core)).take (l1Sectors - 1) ++ s.l1.filter (fun x => x.core ≠ e.core) }

/-- The profiling source of a cluster's MCC, for one of its cores (15_system.md R439). -/
def mccSource (core : Nat) : Nat := 256 + core / 4

/-- A count with another added to it (15_system.md R439). -/
def addTally (l : List Tally) (e : Tally) : List Tally :=
  if e.n = 0 then l
  else
    let same (x : Tally) : Bool := x.source = e.source && x.counter = e.counter
    match l.find? same with
    | some x => { e with n := x.n + e.n } :: l.filter (fun y => !same y)
    | none => e :: l

/-- The sector that an L1 holds for a core and a virtual address. -/
def State.l1Line (s : State) (core : Nat) (asid : BitVec 12) (va : BitVec 64) : Option L1Line :=
  s.l1.find? (fun e => e.is core asid (va.toNat / 32))

/-- The 32 bytes of the sector that a cached load sees, filling the L1, which counts as a sector missed (R230, R254; 15_system.md R439), or MEM_ALIAS, where the L1 holds the same physical line
under another virtual address of the ASID (R229). -/
def State.l1Sector (s : State) (core : Nat) (asid : BitVec 12) (va : BitVec 64) (big : Bool) (pa : Nat) : Except MemFault (List Byte) × State :=
  let vsec := va.toNat / 32
  let mem := s.peek (pa / 32 * 32) 32
  let fill (s : State) : Except MemFault (List Byte) × State :=
    if s.l1.any (fun e => e.core = core && e.asid = asid && e.psec / 8 = pa / 256 && e.vsec / 8 ≠ vsec / 8) then (.error ⟨0x108, 0, va⟩, s)
    else
      let t := s.l1Put { core := core, asid := asid, vsec := vsec, big := big, psec := pa / 32, bytes := mem, block := none }
      (.ok mem, { t with prof := addTally t.prof ⟨core, 11, 1⟩ })
  match s.l1Line core asid va with
  | none => fill s
  | some e =>
    let (k, s) := s.draw
    if Config.l1Keeps k then (.ok e.bytes, s)
    else fill { s with l1 := s.l1.filter (fun e => !e.is core asid vsec) }

end Sys2Proof.Machine
end

