-- ==== Sys2Proof/Machine/Records.lean ====
section
/-! DEFINITION. Error records, their ring and its interrupt (15_system.md R402 to R408, R490; 17_module.md R458), and what the writes of memory
report. -/

namespace Sys2Proof.Machine

/-- Bit n of a word set to b. -/
def putBit {w : Nat} (x : BitVec w) (n : Nat) (b : Bool) : BitVec w :=
  if b then x ||| (1#w <<< n) else x &&& ~~~(1#w <<< n)
/-- The die of a core, 64 cores to a die (01_machine.md R8). -/
def dieOf (core : Nat) : Nat := core / 64
/-- The cluster of a core within its die. -/
def clusterOf (core : Nat) : Nat := core / 4 % 16

/-! ## Error records (15_system.md R402 to R408, R490) -/

/-- The fields of an error record that a writer fills; the rest follow from the code (R419) or are absent. -/
structure Rec where
  code : Nat
  sev : Nat
  act : Nat
  kind : Nat
  soft : Bool
  loc : Word
  asid : Option (BitVec 12)
  rcb : Option Word
  coil : Option Nat
  fibre : Option Nat
  count : Nat
  addr : Option (BitVec 64)
  task : Option (BitVec 64)
  detail : DWord
  aux : Word
  deriving DecidableEq, Repr

/-- The 64 bytes of a record (R402). -/
def Rec.bytes (r : Rec) (loss : Bool) (time : Nat) : List Byte :=
  let flags := (if r.addr.isSome then 1 else 0) + (if r.task.isSome then 2 else 0) + (if r.soft then 4 else 0) + (if loss then 8 else 0)
  let t := (r.task.getD 0).toNat
  leBytes 4 (r.code % 65536 + r.sev * 2 ^ 16 + r.act * 2 ^ 20 + r.kind * 2 ^ 24 + flags * 2 ^ 28)
  ++ leBytes 4 r.loc.toNat
  ++ leBytes 4 (match r.asid with | some a => a.toNat | none => 0xFFFF)
  ++ leBytes 4 (r.rcb.getD 0xFFFFFFFF).toNat
  ++ leBytes 4 (r.coil.getD 0xFFFFFFFF)
  ++ leBytes 2 (r.fibre.getD 0xFFFF) ++ leBytes 2 (min r.count 0xFFFF)
  ++ leBytes 8 (r.addr.getD 0).toNat
  ++ leBytes 2 (t / 2 ^ 48) ++ leBytes 6 (t % 2 ^ 48)
  ++ leBytes 8 r.detail.toNat ++ leBytes 8 time ++ leBytes 4 r.aux.toNat ++ leBytes 4 0

/-- Sets an interrupt bit, sending its MSI when the bit was 0 and its route is enabled (17_module.md R458). -/
def State.interrupt (s : State) (bit : Nat) : State :=
  let route := s.regs.introute.getD bit 0
  let s' := { s with regs := { s.regs with intstat := putBit s.regs.intstat bit true } }
  if s.regs.intstat.getLsbD bit || !route.getLsbD 16 || route.toNat / 16 % 2 ^ 12 = 0 then s'
  else { s' with out := s'.out ++ [.msi (route.setWidth 32)] }

/-- ERRQCTL.EN. -/
def State.errqEn (s : State) : Bool := s.regs.errqctl.getLsbD 0
/-- The ring's size in records, 2^SIZE (R407). -/
def State.errqSize (s : State) : Nat := 2 ^ (s.regs.errqctl.toNat / 16 % 32)
/-- ERRQCTL.LOST. -/
def State.errqLost (s : State) : Nat := s.regs.errqctl.toNat / 2 ^ 32
/-- ERRQCTL with another LOST. -/
def State.setLost (s : State) (n : Nat) : State :=
  { s with regs := { s.regs with errqctl := BitVec.ofNat 64 (s.regs.errqctl.toNat % 2 ^ 32 + min n (2 ^ 32 - 1) * 2 ^ 32) } }

/-- Writes one record at the head of the ring (R407), a write like any other of the device (14_survivable.md R389; log 105). -/
def State.putRecord (s : State) (r : Rec) (loss : Bool) : State :=
  let s := s.tick
  let n := s.regs.errqhead.toNat
  let at_ := s.regs.errqbase.toNat / 2 ^ 16 * 2 ^ 16 + 64 * (n % s.errqSize)
  let s := (s.perform at_ (r.bytes loss s.refclk) false false true).s
  ({ s with regs := { s.regs with errqhead := s.regs.errqhead + 1 } }).interrupt 0

/-- Whether the ring takes a record (R408). -/
def State.errqRoom (s : State) : Bool :=
  s.errqEn && (s.regs.errqhead - s.regs.errqtail).toNat ≠ s.errqSize

/-- The ERRQ_OVERFLOW record (R408). -/
def overflowRec (lost : Nat) : Rec :=
  { code := 0x900, sev := 0, act := 0, kind := 10, soft := false, loc := 0x00FFFFFF, asid := none, rcb := none, coil := none,
    fibre := none, count := 0, addr := none, task := none, detail := 0, aux := BitVec.ofNat 32 lost }

/-- Writes a record, or counts it as lost (R407, R408). -/
def State.record (s : State) (r : Rec) : State :=
  if !s.errqRoom then s.setLost (s.errqLost + 1)
  else if s.errqLost = 0 then s.putRecord r false
  else
    let s := (s.putRecord (overflowRec s.errqLost) true).setLost 0
    if s.errqRoom then s.putRecord r false else s.setLost 1

/-- The LOC word of a core, with an engine instance (R490). -/
def locOf (core inst : Nat) : Word :=
  BitVec.ofNat 32 (dieOf core * 2 ^ 24 + clusterOf core * 2 ^ 16 + core % 4 * 2 ^ 8 + inst)
/-- A LOC word of a die with no cluster and core. -/
def locDie (die inst : Nat) : Word := BitVec.ofNat 32 (die * 2 ^ 24 + 0xFFFF00 + inst)

/-- The default severity and action of a code (R419). -/
def codeSev (code : Nat) : Nat × Nat :=
  if [0x107, 0x108, 0x109, 0x10C].contains code then (4, 3)
  else if [0x20C, 0x20E].contains code then (4, 0)
  else if [0x308, 0x900, 0x901, 0x902, 0x903].contains code then (0, 0)
  else if [0x309, 0x606, 0x706, 0x801, 0x803, 0x804, 0x807, 0x808, 0x905].contains code then (2, 0)
  else if code = 0x704 then (2, 8)
  else if code = 0x705 then (1, 6)
  else if code = 0x707 then (5, 0)
  else if [0x504, 0x800, 0x802, 0x907].contains code then (1, 0)
  else if code = 0x805 then (3, 2)
  else if code = 0x809 then (2, 5)
  else if code = 0x80A then (2, 4)
  else if [0x904, 0x906].contains code then (5, 7)
  else (3, 0)

/-- A record with nothing but a code, its default severity and action, a kind and a place. -/
def Rec.plain (code kind : Nat) (loc : Word) : Rec :=
  { code := code, sev := (codeSev code).1, act := (codeSev code).2, kind := kind, soft := false, loc := loc, asid := none, rcb := none,
    coil := none, fibre := none, count := 0, addr := none, task := none, detail := 0, aux := 0 }

/-- The LOC word of the memory controller of a physical address (R490). -/
def State.locMem (s : State) (pa : Nat) : Word := locDie (homeDie pa) (s.stackIdx pa)

/-- A record of a memory controller for a physical address (R246, R247). -/
def State.dramRec (s : State) (code pa : Nat) : Rec := { Rec.plain code 7 (s.locMem pa) with addr := some (BitVec.ofNat 64 pa) }

/-- A record for a group (R405, R490), written by a die. -/
def groupRec (code die : Nat) : Rec := Rec.plain code 8 (locDie die 0xFF)

/-- Reports sectors that were reconstructed, those that a write left without check bytes, and the writes that a replacement refused
(08_memory.md R247; 14_survivable.md R390, R394). -/
def Wrote.report (w : Wrote) : State :=
  let s := w.healed.foldl (fun s pa => s.record (groupRec 0x705 (homeDie pa))) w.s
  let s := w.bare.foldl (fun s pa => s.record (s.dramRec 0x808 pa)) s
  w.refused.foldl (fun s pa => s.record { groupRec 0x702 (homeDie pa) with addr := some (BitVec.ofNat 64 pa) }) s

/-! ## Errors of DRAM (08_memory.md R246) -/

/-- A sector's codeword is read with some wrong bytes (R246): up to two are corrected; when the decoder fails, the sector is POISONED. With no check
bytes, or with so many wrong bytes that the decoder finds another codeword, the sector's bytes are free. -/
def State.dramError (s : State) (sec : Nat) (errs : List (Nat × Byte)) : State :=
  let n := if s.sectorState sec = 1 then 36 else 32
  let errs := errs.filter (fun e => e.1 < n && e.2 ≠ 0)
  let spoil : State :=
    let d := s.draw
    (d.2.poke (32 * sec) ((List.range 32).map (fun i => Config.wrongKeyByte d.1 (32 * sec + i)))).setSkey
      { sec := sec, key := s.keyNow sec, orig := none }
  if s.sectorState sec = 3 || errs.isEmpty then s
  else if s.sectorState sec = 2 then spoil
  else
    match rsDecode n errs with
    | some same => (if same then s else spoil).record (s.dramRec 0x800 (32 * sec))
    | none => (s.setPoison sec true).record (s.dramRec 0x801 (32 * sec))

end Sys2Proof.Machine
end

