-- ==== Sys2Proof/Machine/Translate.lean ====
section
/-! DEFINITION. Translation of virtual addresses (08_memory.md R228, R229). -/

namespace Sys2Proof.Machine

/-! ## Addresses and translation -/

/-- What an access is, for its permission (08_memory.md R229). -/
inductive Access where
  | read | write | fetch
  deriving DecidableEq, Repr

/-- A translation: the physical address, the leaf's CODING bit, and whether the page has 2 MiB. -/
structure Xlat where
  pa : Nat
  side : Bool
  big : Bool
  deriving DecidableEq, Repr

/-- The fields of a page-table entry (R228): valid, leaf, writable, executable, SIDE. -/
def pteV (e : DWord) : Bool := e.getLsbD 0
def pteLeaf (e : DWord) : Bool := e.getLsbD 1
def pteW (e : DWord) : Bool := e.getLsbD 2
def pteX (e : DWord) : Bool := e.getLsbD 3
def pteSide (e : DWord) : Bool := e.getLsbD 4
/-- ADDR, bits 51:8, as an address. -/
def pteAddr (e : DWord) : Nat := e.toNat / 256 % 2 ^ 44 * 256
/-- Reserved bits 63:52 and 7. -/
def pteRsv (e : DWord) : Bool := e.toNat / 2 ^ 52 ≠ 0 || e.getLsbD 7

/-- Bits hi:lo of an address. -/
def bitsOf (n lo w : Nat) : Nat := n / 2 ^ lo % 2 ^ w

/-- Sets A, and D for a write, in the table entry at a physical address (R228), a write like any other (14_survivable.md R389). -/
def State.touchPte (s : State) (at_ : Nat) (e : DWord) (k : Access) : State :=
  let e' := e ||| 0x20 ||| (if k = .write then 0x40 else 0)
  if e' = e then s else (s.perform at_ (leBytes 8 e'.toNat) false false true).report

/-- A level of the walk: the lowest index bit, the index width, and the log2 of the alignment of what an entry of it points to when it
is no leaf. -/
structure Level where
  shift : Nat
  width : Nat
  align : Nat
  deriving DecidableEq, Repr

/-- L4 to L0 (R228). -/
def levels : List Level := [⟨48, 9, 12⟩, ⟨39, 9, 12⟩, ⟨30, 9, 12⟩, ⟨21, 9, 8⟩, ⟨16, 5, 16⟩]

/-- The permission of a leaf (R229). -/
def leafFault (e : DWord) (k : Access) (va : BitVec 64) : Option MemFault :=
  match k with
  | .read => none
  | .write => if pteW e then none else some ⟨0x104, 2, va⟩
  | .fetch => if pteX e then none else some ⟨0x106, 0, va⟩

/-- The walk from a table at a physical address through the levels left (R228, R229). -/
def State.walk (s : State) (va : BitVec 64) (k : Access) : List Level → Nat → Except MemFault Xlat × State
  | [], _ => (.error ⟨0x107, 0, va⟩, s)
  | l :: r, tbl =>
    let at_ := tbl + 8 * bitsOf va.toNat l.shift l.width
    let e := s.peek64 at_
    let leaf := l.shift = 16 || (l.shift = 21 && pteLeaf e)
    let size := if leaf then l.shift else l.align
    if !pteV e then (.error ⟨0x105, 0, va⟩, s)
    else if pteRsv e || pteAddr e % 2 ^ size ≠ 0 || (l.shift ≥ 30 && pteLeaf e) then (.error ⟨0x107, 0, va⟩, s)
    else if leaf then
      match leafFault e k va with
      | some f => (.error f, s)
      | none => (.ok ⟨pteAddr e + bitsOf va.toNat 0 l.shift, pteSide e, l.shift = 21⟩, s.touchPte at_ e k)
    else
      let (res, s') := s.walk va k r (pteAddr e)
      match res with
      | .error f => (.error f, s')
      | .ok x => (.ok x, s'.touchPte at_ e .read)

/-- Translation of a virtual address in an address space (R228, R229). -/
def State.translate (s : State) (asid : BitVec 12) (va : BitVec 64) (k : Access) : Except MemFault Xlat × State :=
  if va.toNat ≥ 2 ^ 57 then (.error ⟨0x105, 0, va⟩, s)
  else
    let root := s.peek64 (s.regs.asidtab.toNat + 8 * asid.toNat)
    if !root.getLsbD 0 then (.error ⟨0x105, 0, va⟩, s)
    else s.walk va k levels (root.toNat / 4096 % 2 ^ 40 * 4096)

end Sys2Proof.Machine
end

