-- ==== Sys2Proof/Machine/Ops.lean ====
section
/-! DEFINITION. Shared operations: registers, coils, their error records (15_system.md R402, R406), hardware loops (06_control.md R157, R158),
splits (R148), and the retiring of an instruction. -/

namespace Sys2Proof.Machine

/-! ## Registers -/

/-- Reads a v register. -/
def Fibre.getV (f : Fibre) (n : Nat) : Word := f.v.getD n 0
/-- Reads a V pair (03_integer.md R60). -/
def Fibre.getVD (f : Fibre) (n : Nat) : DWord := DWord.ofWords (f.getV (n + 1)) (f.getV n)
/-- Writes a v register, whose poison state becomes NONE (15_system.md R416). -/
def Fibre.setV (f : Fibre) (n : Nat) (x : Word) : Fibre :=
  { f with v := f.v.set n x, poison := f.poison.filter (fun e => e.1 ≠ n) }
/-- Writes a V pair. -/
def Fibre.setVD (f : Fibre) (n : Nat) (x : DWord) : Fibre := (f.setV n x.lo).setV (n + 1) x.hi
/-- Writes consecutive v registers. -/
def Fibre.setVs (f : Fibre) (n : Nat) : List Word → Fibre
  | [] => f
  | x :: r => (f.setV n x).setVs (n + 1) r
/-- Reads consecutive v registers. -/
def Fibre.getVs (f : Fibre) (n k : Nat) : List Word := (List.range k).map (fun i => f.getV (n + i))
/-- Reads a predicate; p0 is true (02_encoding.md R31). -/
def Fibre.getP (f : Fibre) (n : Nat) : Bool := n = 0 || f.p.getLsbD n
/-- Writes a predicate; a write to p0 is discarded (02_encoding.md R31). -/
def Fibre.setP (f : Fibre) (n : Nat) (b : Bool) : Fibre := if n = 0 then f else { f with p := putBit f.p n b }
/-- Raises sticky flags (03_integer.md R63). -/
def Fibre.raise (f : Fibre) (flags : Word) : Fibre := { f with fstat := f.fstat ||| flags }
/-- The poison state of a v register. -/
def Fibre.poisonOf (f : Fibre) (n : Nat) : Option Poison := (f.poison.find? (fun e => e.1 = n)).map Prod.snd
/-- Makes a v register poisoned. -/
def Fibre.taint (f : Fibre) (n : Nat) (k : Poison) : Fibre :=
  { f with poison := (n, k) :: f.poison.filter (fun e => e.1 ≠ n) }

/-- Reads an s register. -/
def Coil.getS (c : Coil) (n : Nat) : Word := c.s.getD n 0
/-- Reads an S pair (03_integer.md R60). -/
def Coil.getSD (c : Coil) (n : Nat) : DWord := DWord.ofWords (c.getS (n + 1)) (c.getS n)
/-- Writes an s register, whose poison state becomes NONE. -/
def Coil.setS (c : Coil) (n : Nat) (x : Word) : Coil :=
  { c with s := c.s.set n x, spoison := c.spoison.filter (fun e => e.1 ≠ n) }
/-- Writes an S pair. -/
def Coil.setSD (c : Coil) (n : Nat) (x : DWord) : Coil := (c.setS n x.lo).setS (n + 1) x.hi
/-- Writes consecutive s registers. -/
def Coil.setSs (c : Coil) (n : Nat) : List Word → Coil
  | [] => c
  | x :: r => (c.setS n x).setSs (n + 1) r
/-- Reads consecutive s registers. -/
def Coil.getSs (c : Coil) (n k : Nat) : List Word := (List.range k).map (fun i => c.getS (n + i))
/-- The poison state of an s register. -/
def Coil.poisonOf (c : Coil) (n : Nat) : Option Poison := (c.spoison.find? (fun e => e.1 = n)).map Prod.snd
/-- Makes an s register poisoned. -/
def Coil.taint (c : Coil) (n : Nat) (k : Poison) : Coil :=
  { c with spoison := (n, k) :: c.spoison.filter (fun e => e.1 ≠ n) }

/-! ## Coils and fibres -/

/-- A coil by its id. -/
def State.coil? (s : State) (id : Nat) : Option Coil := s.coils.find? (fun c => c.id = id)
/-- Puts a coil back in its place. -/
def State.setCoil (s : State) (c : Coil) : State := { s with coils := s.coils.map (fun d => if d.id = c.id then c else d) }
/-- A fibre of a coil by its index. -/
def Coil.fibre? (c : Coil) (i : Nat) : Option Fibre := c.fibres.find? (fun f => f.idx = i)
/-- Changes one fibre of a coil. -/
def Coil.onFibre (c : Coil) (i : Nat) (g : Fibre → Fibre) : Coil :=
  { c with fibres := c.fibres.map (fun f => if f.idx = i then g f else f) }
/-- Changes the fibres of a list. -/
def Coil.onFibres (c : Coil) (l : List Nat) (g : Fibre → Fibre) : Coil :=
  { c with fibres := c.fibres.map (fun f => if l.contains f.idx then g f else f) }
/-- The active fibres of a plait, in increasing index (06_control.md R147): runnable fibres at one place. -/
def Coil.plait (c : Coil) (pl : Place) : List Fibre :=
  c.fibres.filter (fun f => f.status = .runnable && f.place = pl)
/-- Live fibres: all that are created and have not ended, provisional ones included. -/
def Coil.live (c : Coil) : List Nat := c.fibres.map Fibre.idx

/-- An acquire by some fibres: they find every unit of the coil's scratchpad and tiles as it stands (09_ordering.md R256). -/
def Coil.sees (c : Coil) (who : List Nat) : Coil :=
  { c with olds := c.olds.filterMap (fun e =>
      let h := e.hid.filter (fun f => !who.contains f)
      if h.isEmpty then none else some { e with hid := h }) }
/-- Whether a unit may still show a fibre its old content (log 144). -/
def OldUnit.hides (e : OldUnit) (s : State) (f : Nat) : Bool := e.hid.contains f && s.free < Config.showsAt e.at_ e.unit f
/-- Bytes of the scratchpad, or of a tile register, from an offset as a fibre finds them: `l` are the bytes that stand there. A unit that another
fibre has written shows its old content whole or its new content whole (09_ordering.md R251, R254; log 144). -/
def Coil.asSeen (c : Coil) (s : State) (f : Nat) (tile : Option Nat) (off : Nat) (l : List (Byte × Bool)) : List (Byte × Bool) :=
  let h := c.olds.filter (fun e => e.tile = tile && off / 32 ≤ e.unit && e.unit ≤ (off + l.length) / 32 && e.hides s f)
  if h.isEmpty then l
  else l.zipIdx.map (fun p =>
    match h.find? (fun e => e.unit = (off + p.2) / 32) with
    | some e => e.old.getD ((off + p.2) % 32) p.1
    | none => p.1)
/-- The writes of one instruction to units, each a fibre and a unit: every other fibre of the coil may go on finding what `old` gives. -/
def Coil.noteOld (c : Coil) (s : State) (tile : Option Nat) (old : Nat → List (Byte × Bool)) (w : List (Nat × Nat)) : Coil :=
  let units := (w.map Prod.snd).eraseDups
  let new := units.filterMap (fun u =>
    let by_ := (w.filter (fun e => e.2 = u)).map Prod.fst
    let hid := (c.live).filter (fun f => !by_.contains f)
    if hid.isEmpty then none else some ({ tile := tile, unit := u, old := old u, hid := hid, at_ := s.free } : OldUnit))
  { c with olds := new ++ c.olds.filter (fun e => !(e.tile = tile && units.contains e.unit)) }
/-- A write of units that every fibre finds at once. -/
def Coil.showAll (c : Coil) (tile : Option Nat) (units : List Nat) : Coil :=
  { c with olds := c.olds.filter (fun e => !(e.tile = tile && units.contains e.unit)) }

/-- Clears a completion flag of a fibre and ends the pending writes of the instruction that set it (02_encoding.md R41, R44). -/
def Fibre.clearFlag (f : Fibre) (n : Nat) : Fibre :=
  { f with cf := putBit f.cf n false, pend := f.pend.filter (fun e => e.flag ≠ some n) }
/-- Clears the flag that an instruction named, if it named one. -/
def Fibre.clearFlag? (f : Fibre) : Option Nat → Fibre
  | none => f
  | some n => f.clearFlag n

/-! ## Places (01_machine.md R14; 06_control.md R148 to R150) -/

/-- The plait slots in use on a core. -/
def State.slotsUsed (s : State) (core : Nat) : List Nat :=
  (s.coils.filter (fun c => c.resident && c.core = core)).flatMap
    (fun c => c.fibres.filterMap (fun f => match f.place with | .slot n => some n | .side _ => none))

/-- The lowest free slot of a quadrant of 16, if there is one. -/
def freeIn (used : List Nat) (quad : Nat) : Option Nat :=
  ((List.range 16).map (fun i => 16 * quad + i)).find? (fun n => !used.contains n)

/-- The quadrant with the fewest plaits that has a free slot, and that slot (R148). -/
def freeSlot (used : List Nat) : Option Nat :=
  let count (q : Nat) : Nat := (used.eraseDups.filter (fun n => n / 16 = q)).length
  let best := (List.range 4).foldl (fun b q => if count q < count b then q else b) 0
  freeIn used best

/-! ## Records of coils (15_system.md R402, R406) -/

/-- The id of an RCB, read from memory (07_work.md R178). -/
def State.rcbId (s : State) (asid : BitVec 12) (rcb : BitVec 64) : Word :=
  match (s.translate asid (rcb + 8) .read).1 with
  | .ok x => leWord (s.peek x.pa 4)
  | .error _ => 0xFFFFFFFF

/-- A record that concerns a coil: its context, RCB, coil id and task identity (R402, R406). -/
def State.coilRec (s : State) (c : Coil) (code kind inst : Nat) : Rec :=
  { Rec.plain code kind (locOf c.core inst) with
    asid := some c.asid, rcb := some (s.rcbId c.asid c.rcb), coil := some c.id, task := some c.task }

/-! ## Hardware loops (06_control.md R157, R158) -/

/-- How an instruction leaves: to the next one; taken to a target, as a branch or as a call; or past a body whose LOOP has count 0,
which falls through to its end (06_control.md R157); or with the levels that a return from the handler leaves (15_system.md R424). -/
inductive Leave where
  | fall
  | branch (t : BitVec 64)
  | call (t : BitVec 64)
  | skip (t : BitVec 64)
  | to (loops : List Loop) (t : BitVec 64)
  deriving DecidableEq, Repr

/-- Whether an address lies in a level's body. -/
def Loop.covers (l : Loop) (a : BitVec 64) : Bool := l.start.toNat ≤ a.toNat && a.toNat < l.lend.toNat

/-- A fall-through to the end of the innermost levels (R158): the levels that are left, innermost first, and the PC. -/
def settleFall : List Loop → BitVec 64 → List Loop × BitVec 64
  | [], next => ([], next)
  | l :: r, next =>
    if l.lend = next then
      if l.count > 1 then ({ l with count := l.count - 1 } :: r, l.start) else settleFall r next
    else (l :: r, next)

/-- The levels left after a taken branch that is not a call, or after one that ended the innermost level (R158): a level whose body the
target lies outside ends. -/
def endOutside : List Loop → BitVec 64 → List Loop
  | [], _ => []
  | l :: r, t => if l.covers t then l :: r else endOutside r t

/-- The levels left after a taken branch or call at the last instruction of the innermost body (R158). The count is decremented; a level
that ends leaves the next one, when it has the same end, to be settled likewise. -/
def settleTaken (isCall : Bool) : List Loop → BitVec 64 → List Loop
  | [], _ => []
  | l :: r, t =>
    if l.count > 1 && l.covers t then { l with count := l.count - 1 } :: r
    else if r.any (fun o => o.lend = l.lend) then settleTaken isCall r t
    else if isCall then r
    else endOutside r t

/-- The levels and the PC after an instruction at y of n bytes that leaves so (R158). -/
def settle (loops : List Loop) (y : BitVec 64) (n : Nat) (lv : Leave) : List Loop × BitVec 64 :=
  let next := y + BitVec.ofNat 64 n
  let inBody := match loops with | [] => false | l :: _ => l.covers y
  let last := match loops with | [] => false | l :: _ => l.covers y && l.lend = next
  match lv with
  | .fall => if last then settleFall loops next else (loops, next)
  | .branch t => (if last then settleTaken false loops t else if inBody then endOutside loops t else loops, t)
  | .call t => (if last then settleTaken true loops t else loops, t)
  | .skip t => if inBody then settleFall loops t else (loops, t)
  | .to l t => (l, t)

/-! ## Retiring and splitting (06_control.md R147, R148) -/

/-- Where a plait's fibres go: each fibre's way of leaving. A fibre that is not listed falls through. -/
abbrev Leaves := List (Nat × Leave)

/-- How a fibre leaves. -/
def leaveOf (l : Leaves) (i : Nat) : Leave := ((l.find? (fun e => e.1 = i)).map Prod.snd).getD .fall

/-- The levels of a fibre that no loop-back test applies to: while the handler runs, those that were active at its entry (R158; 15_system.md
R412). -/
def Fibre.outerLoops (f : Fibre) : List Loop := if f.handler then f.loops.drop (f.loops.length - f.outer) else []
/-- The levels that the tests of R158 apply to. -/
def Fibre.ownLoops (f : Fibre) : List Loop := if f.handler then f.loops.take (f.loops.length - f.outer) else f.loops

/-- The levels and the PC of a fibre after an instruction at y of n bytes. -/
def Fibre.onward (f : Fibre) (y : BitVec 64) (n : Nat) (lv : Leave) : List Loop × BitVec 64 :=
  match lv with
  | .to l t => (l, t)
  | lv => let r := settle f.ownLoops y n lv; (r.1 ++ f.outerLoops, r.2)

/-- Moves one fibre past the instruction. -/
def Fibre.retire (f : Fibre) (y : BitVec 64) (n : Nat) (lv : Leave) : Fibre :=
  let r := f.onward y n lv
  { f with loops := r.1, pc := r.2, waited := 0 }

/-- The PCs that the fibres of a list have, each once, in the order of their lowest fibre. -/
def pcsOf (l : List Fibre) : List (BitVec 64) := (l.map Fibre.pc).eraseDups

/-- Places for the sides of a split after the first: a free slot of the plait's quadrant, or the packing unit (R148). -/
def sidePlaces : List (BitVec 64) → List Nat → Nat → Nat → List (BitVec 64 × Place)
  | [], _, _, _ => []
  | t :: r, used, quad, fresh =>
    match freeIn used quad with
    | some n => (t, .slot n) :: sidePlaces r (n :: used) quad fresh
    | none => (t, .side fresh) :: sidePlaces r used quad (fresh + 1)

/-- The fibres that stand at a place and belong to its plait: those that can go on, and those that wait at a collective. -/
def Coil.atPlace (c : Coil) (pl : Place) : List Fibre :=
  c.fibres.filter (fun f => f.place = pl && (match f.status with | .runnable => true | .arrived _ => true | _ => false))

/-- Splits a plait whose fibres have come to stand at more than one PC (R148): the side of the lowest fibre keeps the place. A strand that the
split divides is one strand on each side. -/
def State.split (s : State) (c : Coil) (pl : Place) : State × Coil :=
  let here := c.atPlace pl
  match pcsOf here with
  | [] => (s, c)
  | [_] => (s, c)
  | _ :: others =>
    let quad := match pl with | .slot n => n / 16 | .side _ => 0
    let used := (s.setCoil c).slotsUsed c.core
    let places := sidePlaces others used quad s.nextId
    let move (f : Fibre) : Fibre :=
      if here.any (fun g => g.idx = f.idx) then
        match places.find? (fun e => e.1 = f.pc) with
        | some e => { f with place := e.2, since := s.nextId }
        | none => f
      else f
    ({ s with nextId := s.nextId + others.length + 1 }, { c with fibres := c.fibres.map move })

/-- Moves the fibres of a list past an instruction at y of n bytes, and splits their plait. -/
def State.retire (s : State) (c : Coil) (pl : Place) (l : List Nat) (y : BitVec 64) (n : Nat) (lv : Leaves) : State × Coil :=
  s.split (c.onFibres l (fun f => f.retire y n (leaveOf lv f.idx))) pl

end Sys2Proof.Machine
end

