-- ==== Sys2Proof/Machine/Tree.lean ====
section
/-! DEFINITION. The device's own accesses to memory: region control blocks (07_work.md R178 to R180), spawned items (R199), futures and
continuations (R203 to R205). -/

namespace Sys2Proof.Machine

/-! ## Virtual accesses by the device -/

/-- Reads bytes at a virtual address. -/
def State.vread (s : State) (asid : BitVec 12) (va : BitVec 64) (n : Nat) : Except MemFault (List Byte) × State :=
  let r := s.translate asid va .read
  match r.1 with
  | .ok x => (.ok (r.2.peek x.pa n), r.2)
  | .error f => (.error f, r.2)

/-- Performs a write of bytes at a virtual address, unless it does not translate. -/
def State.vwrite (s : State) (asid : BitVec 12) (va : BitVec 64) (d : List Byte) : Except MemFault Unit × State :=
  let r := s.translate asid va .write
  match r.1 with
  | .ok x => (.ok (), (r.2.perform x.pa d false x.side true).report)
  | .error f => (.error f, r.2)

/-- A value of n bytes at a virtual address, 0 when it does not translate. -/
def State.vnat (s : State) (asid : BitVec 12) (va : BitVec 64) (n : Nat) : Nat :=
  match (s.vread asid va n).1 with
  | .ok l => leNat l
  | .error _ => 0

/-- Performs a write of a value of n bytes; a write that does not translate is dropped. -/
def State.vput (s : State) (asid : BitVec 12) (va : BitVec 64) (n x : Nat) : State := (s.vwrite asid va (leBytes n x)).2

/-! ## Region control blocks -/

def State.rcbParent (s : State) (asid : BitVec 12) (r : BitVec 64) : BitVec 64 := BitVec.ofNat 64 (s.vnat asid r 8)
def State.rcbFlags (s : State) (asid : BitVec 12) (r : BitVec 64) : BitVec 16 := BitVec.ofNat 16 (s.vnat asid (r + 0xC) 2)
/-- STATE: 0 NEW, 1 ACTIVE, 2 DONE, 3 FAULTED (R180). -/
def State.rcbState (s : State) (asid : BitVec 12) (r : BitVec 64) : Nat := s.vnat asid (r + 0xF) 1
def State.rcbLive (s : State) (asid : BitVec 12) (r : BitVec 64) : Nat := s.vnat asid (r + 0x20) 4
def State.rcbChildren (s : State) (asid : BitVec 12) (r : BitVec 64) : Nat := s.vnat asid (r + 0x24) 4
def State.rcbFuture (s : State) (asid : BitVec 12) (r : BitVec 64) : BitVec 64 := BitVec.ofNat 64 (s.vnat asid (r + 0x28) 8)
def State.rcbSpwin (s : State) (asid : BitVec 12) (r : BitVec 64) : Nat := s.vnat asid (r + 0x38) 1
def State.rcbSppartw (s : State) (asid : BitVec 12) (r : BitVec 64) : Word := BitVec.ofNat 32 (s.vnat asid (r + 0x3C) 4)

/-- The RCB and its ancestors, nearest first, at most `fuel` of them. -/
def State.rcbChain (s : State) (asid : BitVec 12) : Nat → BitVec 64 → List (BitVec 64)
  | 0, _ => []
  | fuel + 1, r => if r = 0 then [] else r :: s.rcbChain asid fuel (s.rcbParent asid r)

/-- More RCBs than a chain can have: every ancestor of a coil's RCB has been made ACTIVE by the device. -/
def State.chainFuel (s : State) : Nat := s.rcbs.length + 64

/-- The effective value of a field along a chain, nearest first (R179): a root's own value; otherwise the parent's, combined with the own
value where the OVR bit is set. -/
def State.effective (s : State) (asid : BitVec 12) (ovr : Nat) (own : BitVec 64 → Nat) (comb : Nat → Nat → Nat) :
    List (BitVec 64) → Nat
  | [] => 0
  | [r] => own r
  | r :: rest =>
    let up := s.effective asid ovr own comb rest
    if (s.rcbFlags asid r).getLsbD ovr then comb (own r) up else up

/-- The effective fault domain (R179). -/
def State.effDomain (s : State) (asid : BitVec 12) (r : BitVec 64) : BitVec 64 :=
  BitVec.ofNat 64 (s.effective asid 4 (fun r => s.vnat asid (r + 0x18) 8) (fun a b => a &&& b) (s.rcbChain asid s.chainFuel r))
/-- The effective priority of an RCB (R179). -/
def State.effPrio (s : State) (asid : BitVec 12) (r : BitVec 64) : Nat :=
  s.effective asid 2 (fun r => s.vnat asid (r + 0xE) 1 % 16) min (s.rcbChain asid s.chainFuel r)

/-- The effective CORESHARE (R179). -/
def State.effShare (s : State) (asid : BitVec 12) (r : BitVec 64) : Nat :=
  s.effective asid 3 (fun r => s.vnat asid (r + 0x10) 2) min (s.rcbChain asid s.chainFuel r)
/-- The effective COILMAX (R179), 0 for no limit. -/
def State.effCoilMax (s : State) (asid : BitVec 12) (r : BitVec 64) : Nat :=
  s.effective asid 3 (fun r => s.vnat asid (r + 0x14) 4) (fun a b => if a = 0 then b else if b = 0 then a else min a b)
    (s.rcbChain asid s.chainFuel r)

/-- Whether a core is present (01_machine.md R21). -/
def State.present (s : State) (core : Nat) : Bool := s.regs.coresAvail.getLsbD core
/-- Whether an RCB's coils may be placed on a core (R178, R179; 01_machine.md R24). -/
def State.eligible (s : State) (asid : BitVec 12) (r : BitVec 64) (core : Nat) : Bool :=
  s.present core && (s.effDomain asid r).getLsbD (core / 4)

/-- The context of an ACTIVE RCB (R200). -/
def State.rcbCtx (s : State) (asid : BitVec 12) (r : BitVec 64) : Option RcbCtx := s.rcbs.find? (fun e => e.rcb = r && e.asid = asid)
/-- The physical address of an RCB. -/
def State.rcbPa (s : State) (asid : BitVec 12) (r : BitVec 64) : Nat :=
  match (s.translate asid r .read).1 with
  | .ok x => x.pa
  | .error _ => 0
/-- Whether the memory of an RCB is an ACTIVE RCB of another ASID (R200). -/
def State.rcbForeign (s : State) (asid : BitVec 12) (r : BitVec 64) : Bool :=
  s.rcbs.any (fun e => e.asid ≠ asid && e.pa = s.rcbPa asid r)
/-- Fixes an RCB's context and the queue id of its root launch; its queue scheduler is that of a die (15_system.md R490). -/
def State.setRcbCtx (s : State) (asid : BitVec 12) (r : BitVec 64) (ctx : Option (BitVec 64)) (queue : BitVec 16) (die : Nat) : State :=
  let pa := s.rcbPa asid r
  { s with rcbs := { rcb := r, asid := asid, pa := pa, die := die, ctxbase := ctx, queue := queue, spilled := 0, noCore := false }
                     :: s.rcbs.filter (fun e => !(e.rcb = r && e.asid = asid) && e.pa ≠ pa) }
/-- The die of an RCB's queue scheduler. -/
def State.rcbDie (s : State) (asid : BitVec 12) (r : BitVec 64) : Nat := ((s.rcbCtx asid r).map RcbCtx.die).getD 0

/-- A record of the queue scheduler for an RCB (15_system.md R490). -/
def State.rcbRec (s : State) (asid : BitVec 12) (r : BitVec 64) : Rec :=
  { Rec.plain 0 9 (locDie (s.rcbDie asid r) 0xFF) with asid := some asid, rcb := some (s.rcbId asid r) }

/-- Reports an RCB whose coils wait and no present core may serve, once (01_machine.md R24). -/
def State.checkCores (s : State) (asid : BitVec 12) (rcb : BitVec 64) : State :=
  if (List.range 256).any (fun k => s.eligible asid rcb k) || ((s.rcbCtx asid rcb).map RcbCtx.noCore).getD true then s
  else
    let s := { s with rcbs := s.rcbs.map (fun (e : RcbCtx) => if e.rcb = rcb && e.asid = asid then { e with noCore := true } else e) }
    s.record { s.rcbRec asid rcb with code := 0x20C, sev := (codeSev 0x20C).1, act := 0 }

/-! ## Spawned items (R199) -/

/-- The items waiting in a core's hardware work queue. -/
def State.queuedOn (s : State) (core : Nat) : Nat := (s.spawns.filter (fun i => i.core = core && !i.spill)).length
/-- The items of an RCB in its spill ring. -/
def State.spilledOf (s : State) (asid : BitVec 12) (r : BitVec 64) : Nat :=
  (s.spawns.filter (fun i => i.rcb = r && i.asid = asid && i.spill)).length

/-- The 32 bytes of an item (R199). -/
def SpawnItem.bytes (i : SpawnItem) : List Byte :=
  leBytes 8 i.pc.toNat ++ i.args.flatMap (fun w => leBytes 4 w.toNat) ++ leBytes 8 (i.fctl.toNat % 8)

/-- The address space and the address by which the device knows an RCB (R200): those of the context that its memory is ACTIVE in, or the
agent's own. -/
def State.rcbHome (s : State) (asid : BitVec 12) (r : BitVec 64) : BitVec 12 × BitVec 64 :=
  if (s.rcbCtx asid r).isSome then (asid, r)
  else match s.rcbs.find? (fun e => e.pa = s.rcbPa asid r) with
    | some e => (e.asid, e.rcb)
    | none => (asid, r)

/-- Pushes an item to the hardware queue of a core, or to the RCB's spill ring; none when neither takes it (R199). It belongs to its RCB's
context, whoever spawns it (R200). Of the cores that the RCB may have when the agent's is not one of them, the model takes the lowest (DESIGN
CHOICE, log 130: the spec leaves it to the queue scheduler). -/
def State.pushItem (s : State) (i0 : SpawnItem) : Option State :=
  let h := s.rcbHome i0.asid i0.rcb
  let i := { i0 with asid := h.1, rcb := h.2 }
  let core := if s.eligible i.asid i.rcb i.core then i.core
    else ((List.range 256).find? (fun k => s.eligible i.asid i.rcb k)).getD i.core
  if s.queuedOn core < 4096 then some ({ s with spawns := s.spawns ++ [{ i with core := core, spill := false }] }.checkCores i.asid i.rcb)
  else
    let log := s.vnat i.asid (i.rcb + 0x39) 1
    let ring := BitVec.ofNat 64 (s.vnat i.asid (i.rcb + 0x30) 8)
    if log = 0 || s.spilledOf i.asid i.rcb ≥ 2 ^ log then none
    else
      let k := ((s.rcbCtx i.asid i.rcb).map RcbCtx.spilled).getD 0
      let s := (s.vwrite i.asid (ring + BitVec.ofNat 64 (32 * (k % 2 ^ log))) i.bytes).2
      some ({ s with
        spawns := s.spawns ++ [{ i with core := core, spill := true }]
        rcbs := s.rcbs.map (fun (e : RcbCtx) => if e.rcb = i.rcb && e.asid = i.asid then { e with spilled := e.spilled + 1 } else e) }.checkCores i.asid i.rcb)

/-! ## Futures (R203 to R205) -/

/-- What decrementing a record's JOIN does (R204): nothing more to do, a fault code for the agent, or the record is released. -/
inductive Join where
  | waits (s : State)
  | zero (s : State)
  | released (s : State)

/-- Decrements JOIN of the record at a virtual address (R204). -/
def State.join (s : State) (asid : BitVec 12) (c : BitVec 64) : Join :=
  let j := s.vnat asid (c + 0x28) 4
  if j = 0 then .zero s
  else
    let s := s.vput asid (c + 0x28) 4 (j - 1)
    if j = 1 then .released s else .waits s

/-- A record of an agent's DEFERRED report (R204). -/
def State.deferred (s : State) (r : Rec) (code : Nat) (a : BitVec 64) : State :=
  s.record { r with code := code, sev := 2, act := 0, addr := some a }

/-- Releases a continuation record (R204): spawns its fibre under TARGET, or reports that TARGET is not ACTIVE. `r` is the record of the
releasing agent and `core` its core. A full queue and ring is reported likewise (log 28). -/
def State.release (s : State) (asid : BitVec 12) (core : Nat) (r : Rec) (c : BitVec 64) : State :=
  let target := BitVec.ofNat 64 (s.vnat asid (c + 8) 8)
  if s.rcbState asid target ≠ 1 then s.deferred r 0x203 c
  else
    let item : SpawnItem :=
      { core := core, rcb := target, asid := asid, pc := BitVec.ofNat 64 (s.vnat asid (c + 0x10) 8),
        args := (List.range 4).map (fun k => BitVec.ofNat 32 (s.vnat asid (c + 0x18 + BitVec.ofNat 64 (4 * k)) 4)),
        fctl := BitVec.ofNat 32 (s.vnat asid (c + 0x2C) 1 % 8), acquire := true, spill := false }
    match s.pushItem item with
    | some s => s
    | none => s.deferred r 0x205 c

/-- Decrements and releases each record of a future's former list, from the head, at most `fuel` of them (R204). -/
def State.releaseList (asid : BitVec 12) (core : Nat) (r : Rec) : Nat → State → BitVec 64 → State
  | 0, s, _ => s
  | fuel + 1, s, c =>
    if c = 0 then s
    else
      let next := BitVec.ofNat 64 (s.vnat asid c 8)
      match s.join asid c with
      | .waits s => State.releaseList asid core r fuel s next
      | .zero s => State.releaseList asid core r fuel (s.deferred r 0x207 c) next
      | .released s => State.releaseList asid core r fuel (s.release asid core r c) next

/-- More continuation records than a list that ends can have: all but its last have a NEXT in memory that is not 0. -/
def State.listFuel (s : State) : Nat := s.mem.length + 2

/-- What an attempt to resolve a future finds (R204). -/
inductive Resolved where
  | done (s : State)
  | settled (s : State)
  | bad (f : MemFault) (s : State)

/-- An access through a slot's tenant key takes its line (08_memory.md R232); the device's own has none. -/
def State.touchBy (s : State) (pa : Nat) : Option Nat → State
  | none => s
  | some k => s.touchLine pa k

/-- Resolves a future: VALUE, STATE and the list in one step, then its records (R204). An access through a slot has that slot's tenant key
(08_memory.md R232). -/
def State.resolve (s : State) (asid : BitVec 12) (fut : BitVec 64) (core : Nat) (r : Rec) (st : Nat) (x : DWord) (key : Option Nat) : Resolved :=
  let t := s.translate asid fut .write
  match t.1 with
  | .error f => .bad f t.2
  | .ok p =>
    if key.any (fun k => t.2.keyClash p.pa k) then .bad ⟨0x109, 0, fut⟩ t.2
    else
      let s := ((t.2.touchBy p.pa key).healRange p.pa 16).report
      let w := s.peek64 p.pa
      if w.toNat % 4 ≠ 0 then .settled s
      else if s.refuses p.pa then .bad ⟨0x702, 0, fut⟩ s
      else
        let s := (s.perform p.pa (leBytes 8 st ++ leBytes 8 x.toNat) false p.side true).report
        .done (State.releaseList asid core r s.listFuel s (w &&& 0xFFFFFFFFFFFFFFC0))

/-- A resolution by the device itself: a settled future gives a DEFERRED record with the value (19_programs_engines.md
R486), a fault a record with the fault's code (R204, R287). -/
def State.resolveByDevice (s : State) (asid : BitVec 12) (fut : BitVec 64) (core : Nat) (r : Rec) (st : Nat) (x : DWord) (key : Option Nat) : State :=
  match s.resolve asid fut core r st x key with
  | .done s => s
  | .settled s => s.deferred { r with detail := x } 0x206 fut
  | .bad f s => s.record { r with code := f.code.toNat, sev := (codeSev f.code.toNat).1, act := 0, addr := some f.addr }

/-! ## The end of an RCB (R180) -/

/-- Whether a coil, launch, item or command still belongs to an RCB (R180). -/
def State.rcbBusy (s : State) (asid : BitVec 12) (r : BitVec 64) : Bool :=
  s.coils.any (fun c => c.asid = asid && c.rcb = r && c.recOf.isNone && c.st ≠ .ended && c.st ≠ .killed)
  || s.coils.any (fun c => c.asid = asid && c.rcb = r && c.recOf.isSome && c.resident)
  || s.recovery.any (fun e => s.coils.any (fun c => c.id = e.coil && c.asid = asid && c.rcb = r))
  || s.launches.any (fun l => l.asid = asid && l.rcb = r)
  || s.spawns.any (fun i => i.asid = asid && i.rcb = r)
  || s.copies.any (fun k => s.coils.any (fun c => c.id = k.coil && c.asid = asid && c.rcb = r))
  || s.scrubs.any (fun k => s.coils.any (fun c => c.id = k.coil && c.asid = asid && c.rcb = r))
  || s.mxq.any (fun k => s.coils.any (fun c => c.id = k.owner && c.asid = asid && c.rcb = r))

/-- Resolves the FUTURE of an RCB, if it has one: the continuations go to the die of its queue scheduler (R180). -/
def State.resolveRcb (s : State) (asid : BitVec 12) (r : BitVec 64) (st : Nat) (x : DWord) : State :=
  let fut := s.rcbFuture asid r
  if fut = 0 then s else s.resolveByDevice asid fut (64 * s.rcbDie asid r) (s.rcbRec asid r) st x none

/-- Wakes the coils whose FORK waits on an RCB (R202): they are queued for placement, or will be once they have left their core; an RCB of
theirs that no core may serve is reported (01_machine.md R24). -/
def State.wakeFork (s : State) (asid : BitVec 12) (r : BitVec 64) : State :=
  let woken := s.coils.filter (fun (c : Coil) => c.asid = asid && c.st = .forkwait r)
  woken.foldl (fun s c => s.checkCores c.asid c.rcb)
    { s with coils := s.coils.map (fun (c : Coil) =>
        if c.asid = asid && c.st = .forkwait r then { c with st := .saved true }
        else if c.asid = asid && c.st = .leaving (some r) false false then { c with st := .leaving none true false }
        else c) }

/-- Takes an RCB from ACTIVE to DONE when nothing of it is left, and then its ancestors likewise (R180). -/
def State.rcbSettle (asid : BitVec 12) : Nat → State → BitVec 64 → State
  | 0, s, _ => s
  | fuel + 1, s, r =>
    if r = 0 || s.rcbState asid r ≠ 1 || s.rcbChildren asid r ≠ 0 || s.rcbLive asid r ≠ 0 || s.rcbBusy asid r
        || (s.rcbFlags asid r).getLsbD 1 then s
    else
      let parent := s.rcbParent asid r
      let s := ((s.vput asid (r + 0xF) 1 2).resolveRcb asid r 1 0).wakeFork asid r
      if parent = 0 then s
      else State.rcbSettle asid fuel (s.vput asid (parent + 0x24) 4 (s.rcbChildren asid parent - 1)) parent

/-- Looks whether an RCB is DONE. -/
def State.rcbCheck (s : State) (asid : BitVec 12) (r : BitVec 64) : State := State.rcbSettle asid s.chainFuel s r

/-- Takes an ACTIVE RCB to FAULTED with a code, and looks whether its parent is now DONE (R180). -/
def State.rcbFault (s : State) (asid : BitVec 12) (r : BitVec 64) (code : Nat) : State :=
  if r = 0 || s.rcbState asid r ≠ 1 then s
  else
    let parent := s.rcbParent asid r
    let s := ((s.vput asid (r + 0xF) 1 3).resolveRcb asid r 2 (BitVec.ofNat 64 code)).wakeFork asid r
    if parent = 0 then s
    else (s.vput asid (parent + 0x24) 4 (s.rcbChildren asid parent - 1)).rcbCheck asid parent

/-- The RCBs of a context at or below one, each after its parent. -/
def State.below (s : State) (asid : BitVec 12) (r : BitVec 64) : List (BitVec 64) :=
  let chain (e : RcbCtx) : List (BitVec 64) := s.rcbChain asid s.chainFuel e.rcb
  let l := s.rcbs.filter (fun e => e.asid = asid && (chain e).contains r)
  (List.range (s.chainFuel + 1)).flatMap (fun n => (l.filter (fun e => (chain e).length = n)).map RcbCtx.rcb)

/-- A fault ends the subtree of an RCB: it and every ACTIVE RCB below it become FAULTED with the code (R180; 15_system.md R414). -/
def State.treeFault (s : State) (asid : BitVec 12) (r : BitVec 64) (code : Nat) : State :=
  (r :: (s.below asid r).filter (fun x => x ≠ r)).foldl (fun s x => s.rcbFault asid x code) s

/-- Takes an RCB from NEW to ACTIVE under a parent (R180): PARENT, LIVE, CHILDREN, FUTURE and the context. -/
def State.rcbActivate (s : State) (asid : BitVec 12) (r parent : BitVec 64) (fut : BitVec 64) (ctx : Option (BitVec 64))
    (queue : BitVec 16) (die : Nat) : State :=
  let s := s.vput asid (r + 0xF) 1 1
  let s := if parent = 0 then s else s.vput asid r 8 parent.toNat
  let s := s.vput asid (r + 0x20) 8 0
  let s := s.vput asid (r + 0x28) 8 fut.toNat
  let s := if parent = 0 then s else s.vput asid (parent + 0x24) 4 (s.rcbChildren asid parent + 1)
  s.setRcbCtx asid r ctx queue die

end Sys2Proof.Machine
end

