-- ==== Sys2Proof/Machine/Coils.lean ====
section
/-! DEFINITION. The life of a coil: launch state (07_work.md R182, R197, R200), saving and restarting (R193, R194), ending (R198),
killing (15_system.md R414) and relaunching (07_work.md R196; 15_system.md R417). -/

namespace Sys2Proof.Machine

/-! ## Launch state -/

/-- SRSEED's value for a seed and a fibre index (04_floating.md R108). -/
def srsSeed (seed : Word) (f : Nat) : Word :=
  let z := seed + BitVec.ofNat 32 f * 0x9E3779B9
  let z := (z ^^^ (z >>> 16)) * 0x85EBCA6B
  let z := (z ^^^ (z >>> 13)) * 0xC2B2AE35
  let z := z ^^^ (z >>> 16)
  if z = 0 then 0x6D2B79F5 else z

/-- A fibre as it is created (07_work.md R197; log 6 for a packet's fibre's predicates). -/
def Fibre.new (idx : Nat) (window : Nat) (pc : BitVec 64) (args : List Word) (fctl : Word) (livein : Nat) : Fibre :=
  { idx := idx, status := .runnable, place := .side idx, strand := 0, since := 0, waited := 0, pc := pc, v := (args ++ List.replicate (window - args.length) 0).take window,
    p := 1, cf := 0, fstat := 0, fctl := fctl, srs := srsSeed 0 idx, pos := List.replicate 8 0, loops := [],
    region := { start := pc, livein := livein, p := 1, pos := List.replicate 8 0, srs := srsSeed 0 idx, loops := [] },
    handler := false, outer := 0, epc := 0, ecode := 0, eaddr := 0, einfo := 0, poison := [], arrivals := [], arrived := [], pend := [], holds := 0, recov := none }

/-- An empty sg slot (13_surrogate.md R366). -/
def SgSlot.empty : SgSlot :=
  { st := .empty, stale := false, addr := 0, asid := 0, image := [], recPc := 0, dis := false, calls := 0, fallback := 0, sampled := 0, viol := 0, errmax := 0 }

/-- A watchpoint that is off (15_system.md R429). -/
def Watch.off : Watch := { kind := 0, scratch := false, lo := 0, hi := 0 }

/-- A trap descriptor of zeros: no handler, no DEBUG, no SYSC (15_system.md R411). -/
def TrapDesc.none : TrapDesc := { hvec := 0, sysring := 0, hmask := 0, dbg := false, syslog := 0 }

/-- Fields of PARTW (08_memory.md R223). -/
def partSlog (w : Word) : Nat := w.toNat / 2 ^ 24 % 128
def partAblk (w : Word) : Nat := w.toNat / 2 ^ 16 % 32
def partSblk (w : Word) : Nat := w.toNat / 2 ^ 8 % 128
def partWblk (w : Word) : Nat := w.toNat % 128

/-- An accumulator at launch (11_matrix.md R312). -/
def Acc.new (n : Nat) : Acc :=
  { num := n, st := .idle, int := false, elems := [], cc := [], mc := [], cr := [], mr := [], baseOf := none, log := [], names := [], ovfl := false,
    corr := 0, repl := 0, nv := false, overflow := false, lastCorr := 0, poison := [] }

/-- A coil with the register state of a launch (03_integer.md R60, 07_work.md R200), with no fibres. -/
def Coil.new (id : Nat) (asid : BitVec 12) (ctxbase rcb : BitVec 64) (partw : Word) (window : Nat) (task : BitVec 64) (launch : Nat) : Coil :=
  { id := id, core := 0, cslot := 0, resident := false, st := .queued, asid := asid, ctxbase := ctxbase, rcb := rcb, partw := partw,
    window := window, task := task, launch := launch, pin := false, packet := none, index := 0, sub := 0, fibres := [],
    s := List.replicate 64 0, spoison := [], sm := List.replicate 8 0, hs := List.replicate 8 none, binds := List.replicate 8 none,
    g := 0xC0100000 :: List.replicate 7 0, b := List.replicate 16 0, q := List.replicate 16 0,
    sg := List.replicate 8 SgSlot.empty, m := List.replicate 8 0, tiles := [],
    accs := (List.range (partAblk partw)).map Acc.new, scratch := [], spoiled := [], blocks := List.range (partSblk partw), pool := [], frame := none, own := none, priv := none,
    stores := [], waits := [], insts := [], decl := .all, last := 0, chk := 20, watch := List.replicate 4 Watch.off, trap := TrapDesc.none,
    instrs := 0, pwr := 0, resTime := 0, preempts := 0, relaunches := 0, stops := 0, deadlock := false, stalled := [], eng := .idle, mcc := none,
    callNo := 0, ueAt := [], stepping := [], ignoreWatch := [], restop := false, recOf := none, olds := [] }

/-- Bits hi:lo of a launch packet (07_work.md R182), by byte offset and width in bytes. -/
def pkt (p : BitVec 512) (off n : Nat) : Nat := p.toNat / 2 ^ (8 * off) % 2 ^ (8 * n)

/-- A coil of a launch packet, with its fibres (R182): s0 to s3 from the packet, s4 the coil's index. -/
def Coil.ofPacket (id : Nat) (p : BitVec 512) (asid : BitVec 12) (rcb : BitVec 64) (task : BitVec 64) (launch index : Nat) : Coil :=
  let pc := BitVec.ofNat 64 (pkt p 8 8)
  let win := pkt p 0x1C 2
  let fctl := BitVec.ofNat 32 (pkt p 0x1E 1 % 8)
  let c := Coil.new id asid (BitVec.ofNat 64 (pkt p 0x20 8)) rcb (BitVec.ofNat 32 (pkt p 0x18 4)) win task launch
  { c with
    pin := pkt p 1 1 % 2 = 1, packet := some p, index := index
    s := (List.range 4).map (fun k => BitVec.ofNat 32 (pkt p (0x30 + 4 * k) 4)) ++ BitVec.ofNat 32 index :: List.replicate 59 0
    fibres := (List.range (pkt p 2 2 + 1)).map (fun i => Fibre.new i win pc [] fctl win) }

/-! ## Scratchpad residency (08_memory.md R217, R224) -/

/-- The virtual address that backs logical scratch block i (R224). -/
def Coil.backing (c : Coil) (i : Nat) : BitVec 64 := c.frame.getD 0 + BitVec.ofNat 64 (65536 * i)

/-- The cells of a list that lie in [lo, hi), moved so that lo becomes base. -/
def cellsMove (l : List Host.Cell) (lo hi base : Nat) : List Host.Cell :=
  (l.filter (fun e => decide (lo ≤ e.1) && decide (e.1 < hi))).map (fun e => (e.1 - lo + base, e.2))

/-- Replaces what a list holds in [base, base + n) by other cells of that range. -/
def cellsReplace (l : List Host.Cell) (base n : Nat) (new : List Host.Cell) : List Host.Cell :=
  l.filter (fun e => decide (e.1 < base)) ++ new ++ l.filter (fun e => decide (base + n ≤ e.1))

/-- Whether a write of 32 zero bytes to a sector changes nothing at all: it holds zeros with no poison, coding or key, and no group protects it. -/
def State.clearSector (s : State) (sec : Nat) : Bool :=
  (s.peek (32 * sec) 32).all (fun b => b = 0) && !s.sectorPoisoned sec && s.sectorState sec = 0 && (s.skey sec).isNone
  && (s.l2key (sec / 8)).isNone && (s.groupsOf (32 * sec)).isEmpty

/-- A coil without what the pool holds of scratch block i. -/
def Coil.dropBlock (c : Coil) (i : Nat) : Coil :=
  { c with scratch := cellsReplace c.scratch (65536 * i) 65536 [], spoiled := c.spoiled.filter (fun u => u / 2048 ≠ i) }

/-- Writes scratch block i to its backing with its poison (R193, R226), sector by sector, without a fault when the frame does not translate. -/
def State.blockOut (s : State) (c : Coil) (i : Nat) : State × Coil :=
  let r := s.translate c.asid (c.backing i) .write
  match r.1 with
  | .error _ => (r.2, c.dropBlock i)
  | .ok x =>
    let one (w : Wrote) (k : Nat) : Wrote :=
      let d := cellsRead c.scratch (65536 * i + 32 * k) 32
      let bad := c.spoiled.contains (2048 * i + k)
      if !x.side && !bad && d.all (fun b => b = 0) && w.s.clearSector (x.pa / 32 + k) then w else writeSector w (x.pa + 32 * k) d bad x.side true
    (((List.range 2048).foldl one { s := r.2, bare := [] }).report, c.dropBlock i)

/-- Reads scratch block i from its backing into the pool, with its poison (R194, R226). -/
def State.blockIn (s : State) (c : Coil) (i : Nat) : State × Coil :=
  let r := s.translate c.asid (c.backing i) .read
  match r.1 with
  | .error _ => (r.2, c)
  | .ok x =>
    let s := (r.2.healRange x.pa 65536).report
    let bad := (List.range 2048).filter (fun k => s.sectorPoisoned (x.pa / 32 + k))
    (s, { c with scratch := cellsReplace c.scratch (65536 * i) 65536 (cellsMove s.mem x.pa (x.pa + 65536) (65536 * i))
                 spoiled := c.spoiled.filter (fun u => u / 2048 ≠ i) ++ bad.map (fun k => 2048 * i + k) })

/-- Writes out, or reads in, each block of a list. -/
def State.blocksOut (s : State) (c : Coil) : List Nat → State × Coil
  | [] => (s, c)
  | i :: r => let p := s.blockOut c i; p.1.blocksOut p.2 r
def State.blocksIn (s : State) (c : Coil) : List Nat → State × Coil
  | [] => (s, c)
  | i :: r => let p := s.blockIn c i; p.1.blocksIn p.2 r

/-- Pool blocks for n logical blocks: a free choice among some blocks, each at most once (R226). -/
def pickBlocks (d : Nat) : List Nat → Nat → List Nat
  | _, 0 => []
  | l, n + 1 =>
    let k := l.getD ((Config.poolBlock d n).toNat % l.length) 0
    k :: pickBlocks d (l.erase k) n

/-- The pool blocks of a core that hold no other coil's scratchpad. -/
def State.poolFree (s : State) (core id : Nat) : List Nat :=
  let used := (s.coils.filter (fun c => c.resident && c.core = core && c.id ≠ id)).flatMap Coil.pool
  (List.range 128).filter (fun b => !used.contains b)

/-! ## Commands that land in a core (R193; 10_copy_gather.md R291) -/

/-- CTRL of a copy or gather descriptor (10_copy_gather.md R290, R295), and the cores that CMASK names. -/
def cmdCtrl (d : BitVec 512) : Nat := pkt d 0x20 4
def ctrlLtile (d : BitVec 512) : Bool := (cmdCtrl d).testBit 26
def cpyMask (d : BitVec 512) : Nat := pkt d 0x24 4 % 16

/-- The coil of a launch on a core, the lowest coil slot when there are several. -/
def State.launchCoil (s : State) (launch core : Nat) : Option Coil :=
  (List.range 16).findSome? (fun k => s.coils.find? (fun c => c.resident && c.core = core && c.launch = launch && c.cslot = k))

/-- The cores that a CPYM names. -/
def CopyCmd.cores (k : CopyCmd) : List Nat := ((List.range 4).filter (fun i => (cpyMask k.desc).testBit i)).map (fun i => k.core / 4 * 4 + i)

/-- The coil that a CPYM writes on a destination core: the one that it has found there, or that it finds when its data arrives; a core that is not
present has none (10_copy_gather.md R293; 01_machine.md R25). -/
def State.cpymCoil (s : State) (k : CopyCmd) (core : Nat) : Option Coil :=
  match k.dests.find? (fun e => e.1 = core) with
  | some e => (s.coil? e.2).filter (fun c => c.resident && s.present core)
  | none => if s.present core then s.launchCoil k.launch core else none

/-- Whether a copy or gather command writes tile registers or scratchpad of a coil. -/
def State.landsIn (s : State) (c : Coil) (k : CopyCmd) : Bool :=
  let scratch := k.lin.any (fun h => h.attr.toNat / 2 % 4 = 3)
  match k.kind with
  | .cpym => k.cores.any (fun core => (s.cpymCoil k core).any (fun d => d.id = c.id))
  | .cpyt => k.coil = c.id
  | .cpy => k.coil = c.id && scratch
  | .gath => k.coil = c.id && (scratch || ctrlLtile k.desc)
  | .scat => false
  | .scata => false

/-- The waits that outlive the instruction that made them: committed SYSCs that have entries to post (15_system.md R422), and images that are
being loaded (13_surrogate.md R370). -/
def Coil.standing (c : Coil) : List Wait :=
  (c.waits.filter (fun w => match w.kind with | .sysc _ _ => true | .sgload _ => true | _ => false)).map
    (fun w => { w with fibres := [], flag := none })

/-- What a coil that leaves its core waits for (R193): engine commands that land in it, the matrix commands of its MCC program
(11_matrix.md R325), its SCOUTs (12_scout.md R351), the images that it loads, and the system calls that it has to post (15_system.md R422). -/
def State.landing (s : State) (c : Coil) : Bool :=
  !c.standing.isEmpty || s.copies.any (s.landsIn c) || s.mxq.any (fun k => k.owner = c.id || k.target = c.id)
  || s.scouts.any (fun k => k.coil = c.id)

/-! ## Saving and restarting -/

/-- A fibre's state at a restart (07_work.md R194). A stream position is the recorded one, whatever N its pattern now has (DESIGN CHOICE,
log 108). -/
def Fibre.restart (f : Fibre) : Fibre :=
  let g := f.region
  { f with status := .runnable, place := .side f.idx, pc := g.start,
           v := f.v.take g.livein ++ List.replicate (f.v.length - g.livein) 0, p := g.p, cf := 0, srs := g.srs, pos := g.pos,
           loops := g.loops, handler := false, poison := f.poison.filter (fun e => e.1 < g.livein), pend := [], holds := 0 }

/-- The recovery coil of a coil, its waiting entries and its calls are discarded (13_surrogate.md R381). -/
def State.dropRecovery (s : State) (id : Nat) : State :=
  { s with
    recovery := s.recovery.filter (fun e => e.coil ≠ id)
    sgcalls := s.sgcalls.filter (fun k => k.coil ≠ id)
    coils := s.coils.map (fun c => if c.recOf = some id then { c with st := .killed, resident := false, fibres := [], stores := [] } else c) }

/-- Sampled lanes of ended coils go on (log 42); those of the coils that a kill takes in are discarded with them. -/
def State.dropEnded (s : State) (p : Coil → Bool) : State :=
  (s.coils.filter (fun c => c.st = .ended && p c)).foldl (fun s c => s.dropRecovery c.id) s

/-- Accepted scout and scrub commands of a coil no longer hold a flag and have nobody to answer; a scrub still holds back the commit points
of the fibres that issued it (12_scout.md R351; 14_survivable.md R400). -/
def State.orphan (s : State) (id : Nat) : State :=
  { s with
    scouts := s.scouts.map (fun k => if k.coil = id then { k with fibres := [], flag := none } else k)
    scrubs := s.scrubs.map (fun k => if k.coil = id then { k with flag := none, deliver := false } else k) }

/-- How many scrubs hold back the commit points of a fibre of a coil. -/
def State.scrubHolds (s : State) (id fibre : Nat) : Nat := (s.scrubs.filter (fun k => k.coil = id && k.fibres.contains fibre)).length

/-- Discards what a coil has not committed and sets its fibres to their region starts (07_work.md R193, R194). -/
def Coil.discard (c : Coil) : Coil :=
  { c with
    fibres := (c.fibres.filter (fun f => match f.status with | .provisional _ => false | _ => true)).map Fibre.restart
    stores := [], waits := c.standing, insts := [], stepping := [], ignoreWatch := [], deadlock := false, stalled := [] }

/-- The CCB of a context: SAVEBASE, SAVESIZE and SPILLLOG; none when it cannot be read or breaks its rules (08_memory.md R216; log 36). -/
def State.ccb (s : State) (asid : BitVec 12) (ctx : BitVec 64) : Option (Nat × Nat × Nat) :=
  match (s.vread asid (ctx + 0x10000) 24).1 with
  | .error _ => none
  | .ok l =>
    let base := leNat (l.take 8)
    let size := leNat ((l.drop 8).take 8)
    let spill := leNat ((l.drop 16).take 1)
    if base % 2 ^ 21 ≠ 0 || spill < 16 || spill > 24 then none else some (base, size, spill)

/-- What memory holds in the private part of a coil's frame (08_memory.md R217): a block of 64 KiB for each accumulator, 1 MiB, and the
spill area. The device's own layout of that part is not modelled; what a restart checks is that nothing has changed it. -/
def State.framePrivate (s : State) (c : Coil) : List Host.Cell :=
  let spill := match s.ccb c.asid c.ctxbase with | some (_, _, n) => 2 ^ n / 65536 | none => 0
  (List.range (partAblk c.partw + 16 + spill)).flatMap (fun i =>
    match (s.translate c.asid (c.backing (partSlog c.partw + i)) .read).1 with
    | .error _ => []
    | .ok x => cellsMove s.mem x.pa (x.pa + 65536) (65536 * i))

/-- A coil with the launch state of its packet again, keeping what belongs to the coil itself (R196). Nothing of its frame comes back. -/
def Coil.reenter (c : Coil) (p : BitVec 512) : Coil :=
  let n := Coil.ofPacket c.id p c.asid c.rcb c.task c.launch c.index
  { n with st := c.st, core := c.core, cslot := c.cslot, frame := c.frame, instrs := c.instrs, pwr := c.pwr, resTime := c.resTime,
           preempts := c.preempts, relaunches := c.relaunches, stops := c.stops, restop := c.restop, ueAt := c.ueAt }

/-- What a device keeps for a coil that starts again from its launch state: its queued MCC program is gone, and a scrub that still runs holds back
the commit points of those of its fibres that there are again (R196; 14_survivable.md R400). -/
def State.enterAgain (s : State) (id : Nat) : State :=
  let first := match (s.coil? id).bind Coil.packet with | some q => pkt q 2 2 + 1 | none => 0
  { s with
    mccq := s.mccq.filter (fun i => i ≠ id)
    scrubs := s.scrubs.map (fun k => if k.coil = id then { k with fibres := k.fibres.filter (fun i => i < first) } else k) }

/-- A coil whose fibres the scrubs that they issued hold back. -/
def Coil.heldBy (c : Coil) (s : State) : Coil := { c with fibres := c.fibres.map (fun f => { f with holds := s.scrubHolds c.id f.idx }) }

/-- The end of leaving a core (R193, item 4): once nothing lands in it any more, the scratch blocks are written out and the place is free. -/
def State.depart (s : State) (id : Nat) : State :=
  match s.coil? id with
  | none => s
  | some c =>
    match c.st with
    | .leaving fork restart entry =>
      if s.landing c then s
      else
        let p := s.blocksOut c c.blocks
        let d := { p.2 with st := match fork with | some r => .forkwait r | none => .saved restart
                            resident := false, pool := [], priv := some (p.1.framePrivate c)
                            mcc := c.mcc.map (fun x => { x with slot := none, ignore := false }) }
        match if entry then c.packet else none with
        | some q => ((p.1.enterAgain c.id).setCoil ((d.reenter q).heldBy (p.1.enterAgain c.id))).checkCores c.asid c.rcb
        | none => (p.1.setCoil d).checkCores c.asid c.rcb
    | _ => s

/-- Takes a coil off its core (R193): it stops issuing, what it has not committed is discarded, and it goes when nothing lands in the core any
more. -/
def State.save (s : State) (c : Coil) (fork : Option (BitVec 64)) (restart entry : Bool) : State :=
  let s := (s.dropRecovery c.id).orphan c.id
  let d := c.discard
  let d := { d with st := .leaving fork restart entry, fibres := d.fibres.map (fun f => { f with holds := s.scrubHolds c.id f.idx }) }
  (s.setCoil d).depart c.id

/-- Whether a coil is leaving its core. -/
def Coil.leaves (c : Coil) : Bool := match c.st with | .leaving _ _ _ => true | _ => false

/-- The coils that leave their cores go as soon as they can. -/
def State.departs (s : State) : State := ((s.coils.filter Coil.leaves).map Coil.id).foldl State.depart s

/-- The trap descriptor at entry 0 of a context's handle table (15_system.md R411); a descriptor that breaks a rule counts as zeros. -/
def State.readTrap (s : State) (asid : BitVec 12) (ctxbase : BitVec 64) : TrapDesc :=
  match (s.vread asid ctxbase 32).1 with
  | .error _ => TrapDesc.none
  | .ok l =>
    let x := leNat l
    let hvec := x % 2 ^ 64
    let hmask := x / 2 ^ 64 % 2 ^ 16
    let flags := x / 2 ^ 80 % 2 ^ 16
    let syslog := x / 2 ^ 96 % 2 ^ 8
    let ring := x / 2 ^ 128 % 2 ^ 64
    let bad := hvec % 4 ≠ 0 || hmask ≥ 1024 || flags > 1 || (syslog ≠ 0 && (syslog < 4 || syslog > 16)) || x / 2 ^ 104 % 2 ^ 24 ≠ 0
      || ring % 64 ≠ 0 || x / 2 ^ 192 ≠ 0
    let dbgOk := [1, 3, 4].contains (s.regs.lifecycle.toNat % 8)
    if bad then TrapDesc.none
    else { hvec := BitVec.ofNat 64 hvec, sysring := BitVec.ofNat 64 ring, hmask := BitVec.ofNat 16 hmask, dbg := flags = 1 && dbgOk,
           syslog := syslog }

/-! ## Forming plaits (01_machine.md R15; 06_control.md R150) -/

/-- For each fibre its PC and how many fibres before it are at that PC: 4 of them make a strand, and 64 a plait (01_machine.md R14). -/
def plaitKeys : List Fibre → List (BitVec 64) → List (BitVec 64 × Nat)
  | [], _ => []
  | f :: r, seen => (f.pc, (seen.filter (fun x => x = f.pc)).length) :: plaitKeys r (f.pc :: seen)

/-- A place for each key: a free slot of the core, or the packing unit. -/
def allocPlaces : List (BitVec 64 × Nat) → List Nat → Nat → List ((BitVec 64 × Nat) × Place)
  | [], _, _ => []
  | k :: r, used, fresh =>
    match freeSlot used with
    | some n => (k, .slot n) :: allocPlaces r (n :: used) fresh
    | none => (k, .side fresh) :: allocPlaces r used (fresh + 1)

/-- The fibres of a list as new plaits: those of one key share a place. `pick` says which fibres of the coil are meant. -/
def State.formPlaits (s : State) (c : Coil) (pick : Fibre → Bool) : State × Coil :=
  let l := c.fibres.filter pick
  let ranks := plaitKeys l []
  let keys := ranks.map (fun e => (e.1, e.2 / 64))
  let used := ({ s with coils := s.coils.filter (fun d => d.id ≠ c.id) }).slotsUsed c.core
    ++ (c.fibres.filter (fun f => !pick f)).filterMap (fun f => match f.place with | .slot n => some n | .side _ => none)
  let places := allocPlaces keys.eraseDups used s.nextId
  let where_ := List.zip (l.map Fibre.idx) ranks
  let move (f : Fibre) : Fibre :=
    if pick f then
      match where_.find? (fun e => e.1 = f.idx) with
      | some e =>
        match places.find? (fun q => q.1 = (e.2.1, e.2.2 / 64)) with
        | some q => { f with place := q.2, strand := e.2.2 % 64 / 4, since := s.nextId, waited := 0 }
        | none => f
      | none => f
    else f
  ({ s with nextId := s.nextId + keys.length + 1 }, { c with fibres := c.fibres.map move })

/-- Puts a coil on a core (07_work.md R194, R212): the trap descriptor is read, the device chooses pool blocks (08_memory.md R226), the scratch
blocks of a list come in, plaits are formed. What the core's L1 holds of the address space is older than what the coil has seen
elsewhere, and goes (09_ordering.md R253). -/
def State.seat (s : State) (c : Coil) (core cslot : Nat) (blocks : List Nat) : State :=
  let d := (s.dropL1 core c.asid).draw
  let c := { c with core := core, cslot := cslot, resident := true, st := if c.restop then .stopped else .running, restop := false,
                    olds := [], trap := s.readTrap c.asid c.ctxbase, pool := pickBlocks d.1 (s.poolFree core c.id) c.blocks.length }
  let p := d.2.blocksIn c blocks
  let q := p.1.formPlaits p.2 (fun _ => true)
  q.1.setCoil q.2

/-! ## Ending and killing -/

/-- A coil that is over holds nothing on its core (07_work.md R198; 15_system.md R414). What it held is still there for the commands that it has
issued, until they end (10_copy_gather.md R303). An MCC program that still runs or waits is dropped, and ENGSTATE is FAULTED (DESIGN CHOICE, log
147: R198 speaks of commands and not of it). -/
def Coil.over (c : Coil) (st : CoilState) : Coil :=
  { c with st := st, resident := false, fibres := [], stores := [], waits := c.standing, insts := [], pool := [], mcc := none, eng := match c.eng with | .running => .faulted | .queued => .faulted | e => e }

/-- One live coil fewer in an RCB (07_work.md R178; log 14). -/
def State.lessLive (s : State) (c : Coil) : State :=
  if c.recOf.isSome then s else s.vput c.asid (c.rcb + 0x20) 4 (s.rcbLive c.asid c.rcb - 1)

/-- Ends a coil whose last fibre has ended (R198). Its sampled lanes still recover, and read its scratchpad as it stands (13_surrogate.md R359,
R381; log 42). -/
def State.endCoil (s : State) (c : Coil) : State :=
  let s := s.orphan c.id
  ((s.setCoil (c.over .ended)).lessLive c).rcbCheck c.asid c.rcb

/-- Takes a coil out by a kill, with its commands drained (15_system.md R414, items 1 to 4). -/
def State.removeCoil (s : State) (c : Coil) : State :=
  let s := (s.dropRecovery c.id).orphan c.id
  let s := { s with
    copies := s.copies.map (fun (k : CopyCmd) => if k.coil = c.id then { k with drain := true } else k)
    mccq := s.mccq.filter (fun i => i ≠ c.id) }
  (s.setCoil { c.over .killed with accs := [] }).lessLive c

/-- Whether a coil belongs to an RCB or to its subtree. -/
def State.under (s : State) (asid : BitVec 12) (r : BitVec 64) (c : Coil) : Bool :=
  c.asid = asid && (s.rcbChain asid s.chainFuel c.rcb).contains r

/-- Kills every other coil of an RCB's subtree with COIL_KILLED, one record each (R414). -/
def killUnder : List Coil → State → State
  | [], s => s
  | c :: r, s => killUnder r ((s.record (s.coilRec c 0x20D 0 0xFF)).removeCoil c)

/-- The coils that are alive. -/
def State.alive (s : State) : List Coil := s.coils.filter (fun c => c.st ≠ .ended && c.st ≠ .killed)

/-- Kills a coil with a code whose record has been written (R414): the subtree's coils are killed, and its RCBs become FAULTED (log 109). -/
def State.killCoil (s : State) (id code : Nat) : State :=
  match s.coil? id with
  | none => s
  | some c =>
    let s := s.removeCoil c
    if c.recOf.isSome then s
    else
      let s := (killUnder (s.alive.filter (fun d => s.under c.asid c.rcb d)) s).dropEnded (fun d => s.under c.asid c.rcb d)
      let gone (asid : BitVec 12) (r : BitVec 64) : Bool := asid = c.asid && (s.rcbChain c.asid s.chainFuel r).contains c.rcb
      let s := { s with launches := s.launches.filter (fun l => !gone l.asid l.rcb), spawns := s.spawns.filter (fun i => !gone i.asid i.rcb) }
      s.treeFault c.asid c.rcb code

/-- Unmaps a queue slot (07_work.md R183): READ goes back to the descriptor, SLOT becomes 0xFFFF. -/
def State.unmap (s : State) (n : Nat) : State :=
  let q := s.qslots.getD n QSlot.reset
  if !q.mapped then s
  else
    let s := s.vput q.casid (q.cur + 0x20) 8 q.read
    let s := s.vput q.casid (q.cur + 0x28) 2 0xFFFF
    { s with qslots := s.qslots.set n { q with mapped := false } }

/-- Kills a whole context (15_system.md R410, R414): every coil, each but the one whose record has been written with COIL_KILLED; every queue of
the ASID; and every ACTIVE RCB, each after its parent. -/
def State.killContext (s : State) (asid : BitVec 12) (who : Option Nat) (code : Nat) : State :=
  let s := (s.alive.filter (fun c => c.asid = asid && who = some c.id)).foldl State.removeCoil s
  let s := (killUnder (s.alive.filter (fun c => c.asid = asid && c.recOf.isNone)) s).dropEnded (fun c => c.asid = asid)
  let s := { s with launches := s.launches.filter (fun l => l.asid ≠ asid), spawns := s.spawns.filter (fun i => i.asid ≠ asid) }
  let s := (List.range 256).foldl (fun s n => if (s.qslots.getD n QSlot.reset).casid = asid then s.unmap n else s) s
  let l := s.rcbs.filter (fun e => e.asid = asid)
  l.foldl (fun s e => s.rcbFault asid e.rcb code) ((l.filter (fun e => s.rcbParent asid e.rcb = 0)).foldl (fun s e => s.treeFault asid e.rcb code) s)

/-! ## Relaunching (07_work.md R196; 15_system.md R417) -/

/-- Whether a live-in of a fibre is poisoned. -/
def Fibre.poisonedLivein (f : Fibre) : Bool := f.poison.any (fun e => e.1 < f.region.livein)

/-- Relaunches a coil that consumed an uncorrectable error (R196, R417). `start` is the region start where it happened, and the record has
been written by the caller unless the context falls. -/
def State.relaunch (s : State) (c : Coil) (start : BitVec 64) (r : Rec) : State :=
  let n := ((c.ueAt.find? (fun e => e.1 = start)).map Prod.snd).getD 0 + 1
  let c := { c with ueAt := (start, n) :: c.ueAt.filter (fun e => e.1 ≠ start), relaunches := c.relaunches + 1 }
  if n ≥ 8 then (s.record { r with sev := 4, act := 3 }).killContext c.asid (some c.id) 0x805
  else if c.fibres.any Fibre.poisonedLivein then
    match c.packet with
    | none => (s.record { r with sev := 4, act := 3 }).killContext c.asid (some c.id) 0x805
    | some _ =>
      if (s.rcbFlags c.asid c.rcb).getLsbD 0 then (s.record r).save c none true true
      else (s.record { r with sev := 4, act := 3 }).killContext c.asid (some c.id) 0x805
  else (s.record r).save c none true false

end Sys2Proof.Machine
end

