-- ==== Sys2Proof/Machine/Issue.lean ====
section
/-! DEFINITION. Issuing an instruction (02_encoding.md R33 to R45): waits, the execution mask, hazards, poisoned sources, the effect, and
what follows it; and taking an exception (15_system.md R409 to R414) and returning from one (R424). -/

namespace Sys2Proof.Machine

/-! ## Faults of an instruction -/

/-- A fault of an instruction: code and subtype (15_system.md R419), the address where the code states one, element count, detail, the fibres
whose lane faulted, the record's AUX (log 29), and whether it is imprecise, raised after effects of the instruction (R409). -/
structure Trap where
  code : Nat
  sub : Nat
  addr : Option (BitVec 64)
  count : Nat
  detail : DWord
  lanes : List Nat
  aux : Word
  late : Bool := false
  deriving DecidableEq, Repr

/-- A fault of the instruction as a whole, with nothing else to say. -/
def Trap.of (code : Nat) : Trap := { code := code, sub := 0, addr := none, count := 0, detail := 0, lanes := [], aux := 0 }

/-- Deliveries (15_system.md R410). -/
inductive Delivery where
  | handler | kill | hold | relaunch | context | record
  deriving DecidableEq, Repr

/-- The delivery of a code raised by a fibre instruction (R419). MEM_WRITE has subtype 1 for an RO handle and 2 for a page. -/
def deliveryOf (code sub : Nat) : Delivery :=
  if code = 0x104 then if sub = 2 then .hold else .handler
  else if code = 0x105 then .hold
  else if [0x00F, 0x10A, 0x202, 0x600, 0x605, 0x806].contains code then .kill
  else if code = 0x805 then .relaunch
  else if [0x107, 0x108, 0x109, 0x10C].contains code then .context
  else if [0x304, 0x305, 0x404, 0x405].contains code then .record
  else .handler

/-- The delivery of a fault (R410): an imprecise one that would go to a handler acts as Kill, but for TRAP, which is delivered after its commit
(R421). -/
def Trap.delivery (t : Trap) : Delivery :=
  match deliveryOf t.code t.sub with
  | .handler => if t.late && t.code ≠ 0xB then .kill else .handler
  | d => d

/-- ECODE (R427): LANE, LEN, SUB, CODE. -/
def ecodeOf (t : Trap) (lane : Bool) (words : Nat) : Word :=
  BitVec.ofNat 32 ((if lane then 1 else 0) * 2 ^ 28 + words * 2 ^ 24 + t.sub % 256 * 2 ^ 16 + t.code % 65536)

/-- Handler entry in one fibre (R412). A fault that no single lane raised is every lane's (log 40). -/
def Fibre.enter (f : Fibre) (t : Trap) (pc : BitVec 64) (words : Nat) (hvec : BitVec 64) : Fibre :=
  { f with epc := pc, ecode := ecodeOf t (t.lanes.isEmpty || t.lanes.contains f.idx) words, eaddr := t.addr.getD 0, einfo := t.detail, handler := true,
           outer := f.loops.length, pc := hvec }

/-- Return from the handler (R424): RETRY to EPC, SKIP past the instruction at EPC, which settles a loop that ends there as a fall-through. -/
def Fibre.hret (f : Fibre) (skip : Bool) : Leave :=
  if skip then
    let q := settle f.loops f.epc (4 * (f.ecode.toNat / 2 ^ 24 % 16)) .fall
    .to q.1 q.2
  else .to f.loops f.epc

/-! ## The issue record -/

/-- An instruction that issues: the device, the coil as it is and as it stood when the instruction captured its sources (02_encoding.md
R43, R44), the plait, the PC and length in words, the active fibres and the execution mask in increasing index, how fibres leave,
the flag that is marked, and the fibres whose result is there at once though the instruction's result comes later (log 4). -/
structure Iss where
  s : State
  c : Coil
  src : Coil
  place : Place
  pc : BitVec 64
  words : Nat
  act : List Nat
  mask : List Nat
  leaves : Leaves
  setf : Option Nat
  early : List Nat

/-- The fibres of the mask find the coil's own memories as they stand (09_ordering.md R256). -/
def Iss.sees (x : Iss) : Iss := { x with c := x.c.sees x.mask }

/-- What an effect answers: the instruction has executed; it raises a precise fault, which leaves none of its effects (00_scope.md R6); it raises
a fault after its commit, or an imprecise one, with what the coil then holds (15_system.md R409); a watchpoint or a breakpoint stops the coil
before it, with a record (R430); it cannot issue yet; or the coil has left its core, with the device as it then is. -/
inductive Res where
  | ok (x : Iss)
  | trap (t : Trap) (x : Iss)
  | late (t : Trap) (x : Iss)
  | stop (r : Rec) (x : Iss)
  | stall
  | gone (s : State)

/-- What an instruction states about itself before its effect: length, DIST, WAIT, SETF, guard; the registers it reads, those it
reads without consuming poison, those that only the lowest fibre of its mask reads, those it writes, the handle slots that it goes
through; its latency, none when it is not fixed, and whether the value it writes is there at
once (log 4); whether it is a collective (06_control.md R166), one that exact code may not hold (13_surrogate.md R360), a commit
point (07_work.md R188); whether it accesses memory, arrives or starts a command (09_ordering.md R256); whether it does nothing where it would
fault (PF, 08_memory.md R239). -/
structure Info where
  words : Nat
  dist : Nat
  wait : BitVec 12
  setf : Option Nat
  gsel : Nat
  gneg : Bool
  reads : List (RegCls × Nat)
  soft : List (RegCls × Nat)
  first : List (RegCls × Nat) := []
  slots : List Nat := []
  writes : List (RegCls × Nat)
  lat : Option Nat
  known : Bool
  coll : Bool := false
  impure : Bool := false
  commits : Bool := false
  ordered : Bool := false
  mild : Bool := false

/-! ## Hazards (02_encoding.md R44, R45) -/

/-- A pending write that no distance covers. -/
def Pend.open (e : Pend) : Bool :=
  match e.left with
  | none => true
  | some n => n > 0

/-- The open pending write of a register in a fibre. -/
def Fibre.pendOf (f : Fibre) (r : RegCls × Nat) : Option Pend := f.pend.find? (fun e => e.cls = r.1 && e.reg = r.2 && e.open)

/-- Time passes for a fibre's pending writes (02_encoding.md R39). -/
def Fibre.age (f : Fibre) (d : Nat) : Fibre :=
  { f with pend := f.pend.filterMap (fun e =>
      match e.left with
      | none => some e
      | some n => if n ≤ d && e.flag.isNone then none else some { e with left := some (n - d) }) }

/-- Whether the value a read sees is the old one: the new one is not known yet, or the free choice says so. -/
def pickOld (k : Nat) (f : Nat) (e : Pend) : Bool := !e.known || Config.pickNew k f e.reg

/-- Whether a register belongs to the coil, and not to a fibre. -/
def RegCls.shared : RegCls → Bool
  | .v => false | .p => false | .pos => false | _ => true

/-- The bits of an old value. -/
def OldVal.word : OldVal → BitVec 256
  | .bits x => x
  | _ => 0

/-- The value of a register of a fibre. -/
def Fibre.putReg (f : Fibre) (cls : RegCls) (n : Nat) (x : OldVal) : Fibre :=
  match cls with
  | .v => { f with v := f.v.set n (x.word.setWidth 32) }
  | .p => if n = 0 then f else { f with p := putBit f.p n (x.word ≠ 0) }
  | .pos => { f with pos := f.pos.set n x.word.toNat }
  | _ => f

/-- A fibre as its sources see it: each open pending register it reads holds the old or the new value (R44). -/
def seenBy (k : Nat) (reads : List (RegCls × Nat)) (f : Fibre) : Fibre :=
  reads.foldl (fun f r =>
    match f.pendOf r with
    | some e => if !r.1.shared && pickOld k f.idx e then f.putReg r.1 r.2 e.old else f
    | none => f) f

/-- The value of a register of the coil. -/
def Coil.putReg (c : Coil) (cls : RegCls) (n : Nat) (x : OldVal) : Coil :=
  match cls, x with
  | .s, .bits w => { c with s := c.s.set n (w.setWidth 32) }
  | .m, .bits w => { c with m := c.m.set n (w.setWidth 128) }
  | .sm, .bits w => { c with sm := c.sm.set n w }
  | .bind, .bind b => { c with binds := c.binds.set n b }
  | .hs, .slot h => { c with hs := c.hs.set n h }
  | _, _ => c

/-- The s and mask registers as the plait's sources see them (R62): its own uncovered writes aside, they hold the latest write in step order, also
where another plait made it and no coil barrier came between (DESIGN CHOICE, log 145: such a read may give any value that the register had). -/
def seenS (k : Nat) (reads : List (RegCls × Nat)) (act : List Fibre) (c : Coil) : Coil :=
  reads.foldl (fun c r =>
    if !r.1.shared then c
    else match act.findSome? (fun f => f.pendOf r) with
      | some e => if pickOld k 0 e then c.putReg r.1 r.2 e.old else c
      | none => c) c

/-- The coil as the sources of an instruction see it. -/
def Coil.seen (c : Coil) (k : Nat) (reads : List (RegCls × Nat)) (act : List Nat) : Coil :=
  let l := c.fibres.filter (fun f => act.contains f.idx)
  { seenS k reads l c with fibres := c.fibres.map (fun f => if act.contains f.idx then seenBy k reads f else f) }

/-- The registers that an access through a handle slot reads: the slot, its binding, and the pattern and the position that this names
(03_integer.md R92). -/
def Coil.slotRegs (c : Coil) (k : Nat) : List (RegCls × Nat) :=
  [(.hs, k), (.bind, k)] ++ (match c.binds.getD k none with | some b => [(.sm, b.sm), (.pos, b.sm)] | none => [])

/-- Whether an instruction would read or write a register with an open pending write in some active fibre, whatever its mask (R44, R45), or,
of the registers that only the lowest fibre of the mask reads, in that one. -/
def hazard (l : List Fibre) (mask : List Nat) (regs first : List (RegCls × Nat)) : Bool :=
  l.any (fun f => regs.any (fun r => (f.pendOf r).isSome) || (mask.head? = some f.idx && first.any (fun r => (f.pendOf r).isSome)))

/-! ## Poisoned sources (15_system.md R416) -/

/-- The poison state of the first poisoned register of a list, in a fibre and its coil. -/
def firstPoison (c : Coil) (f : Fibre) (reads : List (RegCls × Nat)) : Option Poison :=
  reads.findSome? (fun r =>
    match r.1 with
    | .v => f.poisonOf r.2
    | .s => c.poisonOf r.2
    | _ => none)

/-- The fault of consuming a poisoned register in some lanes: REGFILE_UE for LATENT, POISON_CONSUMED for DATA. -/
def poisonTrap (k : Poison) (lanes : List Nat) : Trap :=
  { Trap.of (match k with | .latent => 0x805 | .data => 0x806) with lanes := lanes, count := lanes.length }

/-- The fault of an instruction that consumes poison, by the state that its lowest fibre of those that do consumes; `first` are the registers
that only the lowest fibre of the mask reads. -/
def poisonFault (c : Coil) (mask : List Fibre) (reads first : List (RegCls × Nat)) : Option Trap :=
  let low := (mask.head?).map Fibre.idx
  let hit (f : Fibre) : Option Poison := firstPoison c f (reads ++ if low = some f.idx then first else [])
  (mask.findSome? hit).map (fun k => poisonTrap k ((mask.filter (fun f => (hit f).isSome)).map Fibre.idx))

/-! ## Waiting to issue -/

/-- A stalled issue gives up its turn: what could not issue is not eligible until something has happened (07_work.md R209; log 2). -/
def State.stall (s : State) : State := { s with turn := .free, rr := s.rr + 1, tried := s.turn :: s.tried }

/-- The flags that must be clear in every fibre: those of WAIT, and the flag of SETF (02_encoding.md R40, R41). -/
def Info.flags (n : Info) : BitVec 12 :=
  n.wait ||| (match n.setf with | some k => (1#12 <<< k) | none => 0)

/-- Whether a wait that orders later accesses, arrivals and commits, or a SYSC that has entries to post, holds a fibre back (09_ordering.md
R267, R268, R270; 15_system.md R422; log 16). -/
def Coil.heldBack (c : Coil) (l : List Nat) : Bool :=
  c.waits.any (fun w =>
    (match w.kind with | .surv _ _ => true | .gbar _ _ => true | .sysc _ _ => true | _ => false)
    && w.fibres.any (fun i => l.contains i))

/-- Whether a BWAIT or an FWAIT of one of these fibres has still to acquire: what follows it in program order comes after it (09_ordering.md R256). -/
def Coil.acquiring (c : Coil) (l : List Nat) : Bool :=
  c.waits.any (fun w =>
    (match w.kind with | .bwait _ _ _ _ => true | .fwait _ _ _ _ => true | _ => false) && w.fibres.any (fun i => l.contains i))

/-! ## Delivery (15_system.md R410 to R414) -/

/-- The record of a fault of a fibre instruction (R402). -/
def State.faultRec (s : State) (c : Coil) (t : Trap) (first : Nat) : Rec :=
  { s.coilRec c t.code 0 0xFF with
    sev := (codeSev t.code).1, act := (codeSev t.code).2
    fibre := some (t.lanes.headD first), count := t.count, addr := t.addr, detail := t.detail, aux := t.aux }

/-- Kills the issuing coil with a record (R414). -/
def State.killWith (s : State) (c : Coil) (r : Rec) (code : Nat) : State :=
  ((s.setCoil c).record { r with code := code }).killCoil c.id code

/-- Whether entries still wait for a recovery coil (13_surrogate.md R378). -/
def State.recoveryWaits (s : State) (c : Coil) : Bool := s.recovery.any (fun e => c.recOf = some e.coil)

/-- A coil whose last fibre has ended ends, unless it is a recovery coil that more entries wait for. -/
def State.putOrEnd (s : State) (c : Coil) : State := if c.fibres.isEmpty && !s.recoveryWaits c then s.endCoil c else s.setCoil c

/-- A recovery fibre's fault is delivered to the issuing coil as a fault of its SGCALL (13_surrogate.md R380; 15_system.md R410). When that
coil has ended, its record is all there is (log 42). The SGCALL's PC stands where a record gives a PC: in the address field for a decode fault
(02_encoding.md R51), and its low 32 bits in AUX (DEDUCED, log 140). -/
def State.recoveryFault (s : State) (c : Coil) (e : RecEntry) (t : Trap) (pc : BitVec 64) : State :=
  let s := s.setCoil { c with fibres := c.fibres.filter (fun f => f.recov ≠ some e) }
  match s.coil? e.coil with
  | none => s
  | some d =>
    let r := { s.faultRec d t e.fibre with
                 fibre := some e.fibre
                 addr := if t.code ≤ 4 then some e.callPc else t.addr
                 aux := if t.code = 0xD then t.aux else e.callPc.setWidth 32
                 detail := BitVec.ofNat 64 ((pc - e.rpc).toNat % 2 ^ 32 * 2 ^ 32 + t.detail.toNat % 2 ^ 32) }
    if d.st = .ended then (s.record r).putOrEnd { c with fibres := c.fibres.filter (fun f => f.recov ≠ some e) }
    else if t.code = 0x805 then s.relaunch d ((d.fibre? e.fibre).map (fun f => f.region.start) |>.getD 0) r
    else s.killWith d r t.code

/-- Whether a fault of this class goes to a handler (R410 to R412). TRAP ignores HMASK (R421). -/
def TrapDesc.takes (d : TrapDesc) (code : Nat) : Bool :=
  d.hvec ≠ 0 && (code = 0xB || d.hmask.getLsbD (code / 256))

/-- Takes the exception of an instruction: `who` are the fibres it is delivered to; the plait's other fibres go on (R412). -/
def State.takeTrap (s : State) (c : Coil) (pl : Place) (act who : List Nat) (pc : BitVec 64) (words : Nat) (t : Trap) : State :=
  let first := who.headD (act.headD 0)
  let r := s.faultRec c t first
  let fs := c.fibres.filter (fun f => who.contains f.idx)
  match (fs.filter (fun f => t.lanes.contains f.idx) ++ fs).findSome? Fibre.recov with
  | some e => s.recoveryFault c e t pc
  | none =>
    match fs.find? (fun f => f.handler) with
    | some f =>
      s.killWith c { r with detail := BitVec.ofNat 64 (t.code % 65536 + f.ecode.toNat % 65536 * 65536), sev := 3, act := 0 } 0xF
    | none =>
      match t.delivery with
      | .record =>
        let s := s.record r
        let p := s.retire c pl act pc (4 * words) []
        p.1.setCoil p.2
      | .kill => s.killWith c r t.code
      | .hold => ((s.setCoil c).record r).save { c with preempts := c.preempts + 1 } none false false
      | .relaunch => s.relaunch c ((fs.map (fun f => f.region.start)).headD 0) r
      | .context => ((s.setCoil c).record r).killContext c.asid (some c.id) t.code
      | .handler =>
        if c.trap.takes t.code then
          let c := c.onFibres who (fun f => f.enter t pc words c.trap.hvec)
          let others := act.filter (fun i => !who.contains i)
          let c := c.onFibres others (fun f => f.retire pc (4 * words) .fall)
          let p := s.split c pl
          p.1.setCoil p.2
        else s.killWith c r t.code

/-! ## Stops of a coil (15_system.md R430) -/

/-- The record of a stop (R430), an INFO record with the stop's code and how many lanes hit. -/
def State.stopRec (s : State) (c : Coil) (code count : Nat) (detail : DWord) (aux : Word) : Rec :=
  { s.coilRec c code 0 0xFF with sev := 0, act := 0, count := count, detail := detail, aux := aux }

/-- Stops a coil before an instruction of a plait, which will issue with watchpoints ignored (R430). -/
def State.stopAt (s : State) (c : Coil) (pl : Place) (r : Rec) : State :=
  (s.setCoil { c with st := .stopped, stops := c.stops + 1, stepping := [], ignoreWatch := pl :: c.ignoreWatch }).record r

/-- Stops a coil between two instructions (R430). -/
def State.stopNow (s : State) (c : Coil) : State :=
  (s.setCoil { c with st := .stopped, stops := c.stops + 1, stepping := [] }).record (s.stopRec c 0xC 0 0 0xFFFFFFFF)

/-! ## After the effect -/

/-- The value of a register, as a fibre of a coil sees it. -/
def Coil.regOf (c : Coil) (f : Fibre) (r : RegCls × Nat) : OldVal :=
  match r.1 with
  | .v => .bits ((f.getV r.2).setWidth 256)
  | .p => .bits (if f.getP r.2 then 1 else 0)
  | .s => .bits ((c.getS r.2).setWidth 256)
  | .m => .bits ((c.m.getD r.2 0).setWidth 256)
  | .sm => .bits (c.sm.getD r.2 0)
  | .pos => .bits (BitVec.ofNat 256 (f.pos.getD r.2 0))
  | .bind => .bind (c.binds.getD r.2 none)
  | .hs => .slot (c.hs.getD r.2 none)

/-- After the effect: the registers written get their pending entries, the flag of SETF is marked, and the plait moves on (R41, R44). -/
def Fibre.addPend (old f : Fibre) (s : Coil) (n : Info) (known : Bool) (k : Nat) (r : RegCls × Nat) : Fibre :=
  let was := s.regOf old r
  match old.pendOf r with
  | some e =>
    -- two pending writes overlap: the register ends with the value of one of them (R44)
    let f := if !r.1.shared && e.known && Config.pickNew k f.idx r.2 then f.putReg r.1 r.2 was else f
    { f with pend := { e with flag := n.setf, left := n.lat, known := known } :: f.pend.filter (fun e => !(e.cls = r.1 && e.reg = r.2)) }
  | none =>
    { f with pend := { cls := r.1, reg := r.2, old := was, flag := n.setf, left := n.lat, known := known }
                     :: f.pend.filter (fun e => !(e.cls = r.1 && e.reg = r.2)) }

/-- The pending writes of an instruction in one fibre: its own registers in fibres of the mask, those of the coil in every fibre of the plait. -/
def Fibre.addPends (old f : Fibre) (s : Coil) (n : Info) (known : Bool) (k : Nat) (masked : Bool) : Fibre :=
  n.writes.foldl (fun f r => if r.1.shared || masked then Fibre.addPend old f s n known k r else f) f

/-- Two pending writes to a register of the coil overlap: it ends with the value of one of them (R44). -/
def Coil.clash (before c : Coil) (n : Info) (k : Nat) (act : List Nat) : Coil :=
  n.writes.foldl (fun c r =>
    if !r.1.shared then c
    else match (before.fibres.filter (fun f => act.contains f.idx)).findSome? (fun f => (f.pendOf r).map (fun e => (f, e))) with
      | some (f, e) => if e.known && Config.pickNew k 0 r.2 then c.putReg r.1 r.2 (before.regOf f r) else c
      | none => c) c

/-- Marks the completion flag of SETF in a fibre (R41). -/
def Fibre.mark (f : Fibre) (setf : Option Nat) : Fibre :=
  match setf with
  | some k => { f with cf := putBit f.cf k true }
  | none => f

/-- The pending writes and the flag, after the effect. `before` is the coil before it. -/
def Coil.pendWrites (before c : Coil) (n : Info) (k : Nat) (act mask early : List Nat) : Coil :=
  { before.clash c n k act with fibres := c.fibres.map (fun f =>
      if act.contains f.idx then
        match before.fibre? f.idx with
        | some old => (Fibre.addPends old f before n (n.known || early.contains f.idx) k (mask.contains f.idx)).mark n.setf
        | none => f
      else f) }

/-- Watchpoints are ignored for one issue of a plait only (15_system.md R430). -/
def Coil.watched (c : Coil) (pl : Place) : Coil := { c with ignoreWatch := c.ignoreWatch.filter (fun p => p ≠ pl) }

/-- An instruction that has issued is counted, one that faults too (15_system.md R433; log 113). -/
def Coil.counted (c : Coil) (pl : Place) : Coil := { c.watched pl with instrs := c.instrs + 1 }

/-- An instruction that has executed: it is counted, its writes are pending, its fibres move on. -/
def finish (n : Info) (before : Coil) (x : Iss) : State :=
  let n := { n with setf := x.setf }
  let d := x.s.draw
  let c := before.pendWrites x.c n d.1 x.act x.mask x.early
  let c := { c.counted x.place with deadlock := false, stalled := c.stalled.filter (fun i => !x.act.contains i) }
  let p := d.2.retire c x.place x.act x.pc (4 * n.words) x.leaves
  p.1.putOrEnd p.2

/-- The execution mask (R33): the active fibres whose guard holds. -/
def maskOf (n : Info) (l : List Fibre) : List Nat :=
  (l.filter (fun f => f.getP n.gsel != n.gneg)).map Fibre.idx

/-- Whether a plait may issue: flags clear, no ordering wait holds a fibre (R40, R41), a commit point waits for what holds it back
(07_work.md R188; 13_surrogate.md R376), and accesses wait for an earlier acquire (09_ordering.md R256). -/
def mayIssue (n : Info) (c : Coil) (l : List Fibre) : Bool :=
  l.all (fun f => f.cf &&& n.flags = 0) && !c.heldBack (l.map Fibre.idx) && !(n.commits && l.any (fun f => f.holds > 0))
  && !((n.ordered || n.commits) && c.acquiring (maskOf n l))

/-- A recovery coil reads the issuing coil's s registers, slots, stream patterns, watchpoints and scratchpad as they stand (13_surrogate.md R359). -/
def State.lend (s : State) (c : Coil) : Coil :=
  match c.recOf.bind s.coil? with
  | some d => { c with s := d.s, spoison := d.spoison, sm := d.sm, hs := d.hs, binds := d.binds, watch := d.watch,
                       partw := d.partw, scratch := d.scratch, spoiled := d.spoiled, blocks := d.blocks, frame := d.frame }
  | none => c

/-- The issue of one instruction by a plait (R33, R34, R40 to R45): `eff` is its effect on the issue record. A guard with a pending write is read
like an operand, once (R43, R44). FCTL.CHKH is a fibre's: where the fibres of a plait differ in it, one that has it set is enough for HAZARD,
and the instruction faults as a whole (DESIGN CHOICE, log 106). -/
def issueIn (n : Info) (eff : Iss → Res) (s : State) (c0 : Coil) (pl : Place) (l : List Fibre) (pc : BitVec 64) : State :=
  if !mayIssue n c0 l then s.stall
  else
    let act := l.map Fibre.idx
    let c := c0.onFibres act (fun f => f.age (max n.dist 1))
    let soft := n.soft ++ n.slots.flatMap c.slotRegs
    let d := s.draw
    let src := c.seen d.1 (n.reads ++ soft ++ n.first) act
    let la := src.fibres.filter (fun f => act.contains f.idx)
    let mask := maskOf n la
    let done := c.counted pl
    let fault (t : Trap) : State :=
      if n.mild then finish { n with writes := [] } c ⟨d.2, c, src, pl, pc, n.words, act, mask, [], n.setf, []⟩
      else d.2.takeTrap done pl act mask pc n.words t
    if mask.isEmpty && (!n.coll || c.recOf.isSome) then
      finish { n with setf := none, writes := [] } c ⟨d.2, c, src, pl, pc, n.words, act, mask, [], none, []⟩
    else if n.impure && c.recOf.isSome then
      d.2.takeTrap done pl act mask pc n.words { Trap.of 0x600 with count := mask.length, lanes := mask }
    else if !mask.isEmpty && hazard la mask (n.reads ++ soft ++ n.writes) n.first && la.any (fun f => f.fctl.getLsbD 0) then
      fault { Trap.of 5 with count := mask.length, lanes := mask }
    else
      match poisonFault src (la.filter (fun f => mask.contains f.idx)) n.reads n.first with
      | some t => fault t
      | none =>
        match eff ⟨d.2, c, src, pl, pc, n.words, act, mask, [], n.setf, []⟩ with
        | .ok x => finish n c x
        | .trap t x => x.s.takeTrap done pl act mask pc n.words t
        | .late t x => x.s.takeTrap (x.c.counted pl) pl act mask pc n.words t
        | .stop r x => x.s.stopAt c0 pl r
        | .stall => s.stall
        | .gone s' => s'

/-- The issue of an instruction by whoever has the turn (log 2, log 23). -/
def issue (n : Info) (eff : Iss → Res) (s : State) : Host.Outcome State Fault Refusal :=
  match s.turn with
  | .plait id pl =>
    match s.coil? id with
    | none => .fault .noIssuer
    | some c =>
      match c.plait pl with
      | [] => .fault .noIssuer
      | f :: r => .next (issueIn n eff s (s.lend c) pl (f :: r) f.pc)
  | _ => .fault .noIssuer

end Sys2Proof.Machine
end

