-- ==== Sys2Proof/Machine/Flags.lean ====
section
/-! DEFINITION. The sticky flags of FSTAT (03_integer.md R63) and the clamps that raise them. -/

namespace Sys2Proof.Machine

/-! ## FSTAT (R63) -/

/-- SAT: an integer or packed result was clamped. -/
def flagSat : Word := 0x001
/-- DIVZ: an integer division by zero. -/
def flagDivz : Word := 0x002
/-- NV: floating-point invalid operation. -/
def flagNv : Word := 0x004
/-- DZ: floating-point division by zero. -/
def flagDz : Word := 0x008
/-- OF: floating-point overflow. -/
def flagOf : Word := 0x010
/-- UF: floating-point underflow. -/
def flagUf : Word := 0x020
/-- NX: floating-point inexact. -/
def flagNx : Word := 0x040
/-- CVSAT: a conversion saturated. -/
def flagCvsat : Word := 0x080
/-- DIVU: a uniform branch saw a condition or target that was not uniform. -/
def flagDivu : Word := 0x100
/-- EMPTYROW: a row instruction found every position masked. -/
def flagEmptyRow : Word := 0x200
/-- SWRAP: a stream position wrapped. -/
def flagSwrap : Word := 0x400

/-- A flag when a condition holds. -/
def flagIf (b : Bool) (f : Word) : Word := if b then f else 0

/-! ## Ranges -/

/-- The least value of a w-bit integer. -/
def intLo (w : Nat) (signed : Bool) : Int := if signed then -(2 ^ (w - 1) : Int) else 0
/-- The greatest value of a w-bit integer. -/
def intHi (w : Nat) (signed : Bool) : Int := if signed then (2 ^ (w - 1) : Int) - 1 else (2 ^ w : Int) - 1
/-- The value held within [lo, hi] (00_scope.md R4). -/
def clamp (x lo hi : Int) : Int := if x < lo then lo else if x > hi then hi else x
/-- The clamp of a value, with SAT when it changes it. -/
def satFlag (x lo hi : Int) : Int × Word := (clamp x lo hi, flagIf (x < lo || x > hi) flagSat)

end Sys2Proof.Machine
end

