-- ==== Sys2Proof/Machine/Operands.lean ====
section
/-! DEFINITION. Operand forms (02_encoding.md R29 to R32; 03_integer.md R60 to R62, R67): what an instruction reads and writes, how it
computes in each fibre of its mask or once for the coil. -/

namespace Sys2Proof.Machine

/-- What a meaning answers. -/
abbrev Answer := Host.Outcome State Fault Refusal

/-- A register access by an application core: these cores stay in reset until a boot has ended well (17_module.md R463). -/
def State.fromApp (s : State) (f : State → State) : Answer := .next (if s.rsc.booted then f s else s)

/-! ## What an instruction states before its effect -/

/-- k consecutive registers of a class. -/
def regsFrom (c : RegCls) (n k : Nat) : List (RegCls × Nat) := (List.range k).map (fun i => (c, n + i))

/-- The v and s registers that a field names. -/
def fieldRegs (f : Fld) (n : Nat) : List (RegCls × Nat) :=
  match f with
  | .v k => regsFrom .v n k
  | .va k => regsFrom .v n k
  | .vpair2 => regsFrom .v n 3
  | .s k => regsFrom .s n k
  | _ => []

end Sys2Proof.Machine

namespace Sys2Proof
open Machine

/-- The registers that the fields A, B and C name, and D where the shape makes it a source. -/
def Shape.reads (sh : Shape) (m : Main) : List (RegCls × Nat) :=
  fieldRegs sh.a m.a.toNat ++ (if m.lit.isSome then [] else fieldRegs sh.b m.b.toNat)
  ++ (if sh.lay = .c then fieldRegs sh.c m.c else []) ++ (if sh.dSrc then fieldRegs sh.d m.d.toNat else [])

/-- Words of an instruction. -/
def Main.words (m : Main) : Nat := if m.lit.isSome then 3 else 2

/-- The completion flag that an instruction of the SETF layout names. -/
def Shape.flag (sh : Shape) (m : Main) : Option Nat := if sh.lay = .setf && m.setf ≠ 15 then some m.setf else none

end Sys2Proof

namespace Sys2Proof.Machine

/-- The predicate that guards an instruction, as a register it reads. -/
def guardReg (gsel : Nat) : List (RegCls × Nat) := if gsel = 0 then [] else [(.p, gsel)]

/-- What a main-format instruction states: it reads its source fields and writes D, after a latency to which a bank conflict adds 1 (R65). -/
def Info.of (sh : Shape) (m : Main) (lat : Nat) : Info :=
  { words := m.words, dist := m.dist.toNat, wait := m.wait, setf := sh.flag m, gsel := m.gsel.toNat, gneg := m.gneg = 1,
    reads := sh.reads m, soft := guardReg m.gsel.toNat, writes := fieldRegs sh.d m.d.toNat,
    lat := some (lat + if twoInBank (sh.sources m) then 1 else 0), known := true }

/-- The same, with further predicates that it reads. -/
def Info.readsP (n : Info) (l : List Nat) : Info := { n with soft := n.soft ++ (l.filter (· ≠ 0)).map (fun k => (RegCls.p, k)) }
/-- The same, writing a predicate. -/
def Info.writesP (n : Info) (p : Nat) : Info := { n with writes := if p = 0 then [] else [(.p, p)] }
/-- The same, with D a source that is not written. -/
def Info.store (n : Info) : Info := { n with reads := n.reads ++ n.writes, writes := [] }
/-- The same, with a result that arrives at a time that is not fixed (R29, log 4). -/
def Info.late (n : Info) : Info := { n with lat := none }
/-- The same, writing nothing. -/
def Info.mute (n : Info) : Info := { n with writes := [] }

/-- The same, reading further registers, and writing others. -/
def Info.alsoReads (n : Info) (l : List (RegCls × Nat)) : Info := { n with soft := n.soft ++ l }
def Info.writing (n : Info) (l : List (RegCls × Nat)) : Info := { n with writes := l }
/-- The same, through a handle slot (03_integer.md R92; 08_memory.md R220). -/
def Info.through (n : Info) (k : Nat) : Info := { n with slots := k :: n.slots }
/-- The same, reading its V operands in the lowest fibre of its mask only (03_integer.md R78). -/
def Info.lowestOnly (n : Info) (b : Bool) : Info := if b then { n with first := n.reads, reads := [] } else n

/-- The same, not allowed in exact code where `b` (13_surrogate.md R360). -/
def Info.impureIf (n : Info) (b : Bool) : Info := { n with impure := b }
/-- The same, an access, an arrival or a command, which an acquire still waiting holds back (09_ordering.md R256). -/
def Info.access (n : Info) : Info := { n with ordered := true }
/-- The same, a commit point (07_work.md R188). -/
def Info.commit (n : Info) : Info := { n with commits := true, impure := true }

/-- What a compact instruction states (R36 to R38): its fields as V registers where they are. -/
def Info.compact (sh : Fld × Fld × Fld) (f : Compact) (lat : Nat) : Info :=
  let banks := bankOf sh.2.1 f.a.toNat ++ bankOf sh.2.2 f.b.toNat
  { words := 1, dist := f.dist.toNat, wait := if f.w = 1 then BitVec.allOnes 12 else 0, setf := none, gsel := 0, gneg := false,
    reads := fieldRegs sh.2.1 f.a.toNat ++ fieldRegs sh.2.2 f.b.toNat, soft := [], writes := fieldRegs sh.1 f.d.toNat,
    lat := some (lat + if twoInBank banks then 1 else 0), known := true }

/-! ## Operands -/

/-- An operand: a V or S register or pair, or a value. -/
inductive Opnd where
  | reg (uni wide : Bool) (n : Nat)
  | val (x : DWord)
  deriving DecidableEq, Repr

/-- The value of an operand in a fibre of a coil; a single register is zero-extended. -/
def Opnd.get (c : Coil) (f : Fibre) : Opnd → DWord
  | .reg false false n => (f.getV n).setWidth 64
  | .reg false true n => f.getVD n
  | .reg true false n => (c.getS n).setWidth 64
  | .reg true true n => c.getSD n
  | .val x => x

end Sys2Proof.Machine

namespace Sys2Proof
open Machine

/-- Operand A. -/
def Main.opA (m : Main) (uni wide : Bool) : Opnd := .reg uni wide m.a.toNat
/-- Operand B: the literal, sign-extended where `sgn` says so (R30, R67), or the register. -/
def Main.opB (m : Main) (uni wide sgn : Bool) : Opnd :=
  match m.lit with
  | some l => .val (if wide && sgn then l.signExtend 64 else l.setWidth 64)
  | none => .reg uni wide m.b.toNat
/-- Operand C. -/
def Main.opC (m : Main) (uni wide : Bool) : Opnd := .reg uni wide m.c

end Sys2Proof

namespace Sys2Proof.Machine

/-! ## Computing in the mask -/

/-- Changes each fibre of the execution mask; `g` sees the fibre as its sources stood, and as it is. -/
def Iss.onMask (x : Iss) (g : Fibre → Fibre → Fibre) : Iss :=
  { x with c := { x.c with fibres := x.c.fibres.map (fun f =>
      if x.mask.contains f.idx then match x.src.fibre? f.idx with | some o => g o f | none => f else f) } }

/-- The source fibres of the mask, in increasing index. -/
def Iss.lanes (x : Iss) : List Fibre := x.mask.filterMap (fun i => x.src.fibre? i)

/-- The lowest-numbered fibre of the mask, as its sources stood. -/
def Iss.lowest (x : Iss) : Option Fibre := x.lanes.head?

/-- Writes a V register or pair. -/
def Fibre.put (f : Fibre) (wide : Bool) (d : Nat) (v : DWord) : Fibre := if wide then f.setVD d v else f.setV d v.lo
/-- Writes an S register or pair. -/
def Coil.put (c : Coil) (wide : Bool) (d : Nat) (v : DWord) : Coil := if wide then c.setSD d v else c.setS d v.lo

/-- Raises sticky flags in every fibre of the mask (R63). -/
def Iss.raise (x : Iss) (fl : Word) : Iss := x.onMask (fun _ f => f.raise fl)

/-- Writes a value to an S register or pair once, raising flags in every fibre of the mask (R61). -/
def Iss.putS (x : Iss) (wide : Bool) (d : Nat) (r : DWord × Word) : Iss := { x.raise r.2 with c := (x.raise r.2).c.put wide d r.1 }

/-- Computes an operation of some operands into D: in each fibre of the mask, or once when D is of S class, with the lowest fibre of the
mask giving V operands (R61, R78). -/
def Iss.compute (x : Iss) (uni wide : Bool) (d : Nat) (args : List Opnd) (op : List DWord → DWord × Word) : Iss :=
  if uni then
    match x.lowest with
    | none => x
    | some f => x.putS wide d (op (args.map (Opnd.get x.src f)))
  else
    x.onMask (fun o f =>
      let r := op (args.map (Opnd.get x.src o))
      (f.put wide d r.1).raise r.2)

/-- Computes a truth value into a predicate of each fibre of the mask (R73). -/
def Iss.computeP (x : Iss) (d : Nat) (args : List Opnd) (op : List DWord → Bool × Word) : Iss :=
  x.onMask (fun o f =>
    let r := op (args.map (Opnd.get x.src o))
    (f.setP d r.1).raise r.2)

/-- Issues an instruction whose effect cannot fault. -/
def issueOk (n : Info) (eff : Iss → Iss) (s : State) : Answer := issue n (fun x => .ok (eff x)) s

/-! ## Integer types (03_integer.md R67) -/

end Sys2Proof.Machine

namespace Sys2Proof
open Machine

/-- Whether T is signed. -/
def Main.sgn (m : Main) : Bool := !m.modBit 0

end Sys2Proof

namespace Sys2Proof.Machine

/-- A value of a 32-bit or 64-bit type as an integer. -/
def tInt (wide sgn : Bool) (x : DWord) : Int :=
  match wide, sgn with
  | true, true => x.toInt
  | true, false => x.toNat
  | false, true => x.lo.toInt
  | false, false => x.lo.toNat

/-- An operation on integers as an operation on register values: the result is reduced modulo 2^64, and a 32-bit write keeps its low word. -/
def onInts (wide sgn : Bool) (op : List Int → Int × Word) (l : List DWord) : DWord × Word :=
  let r := op (l.map (tInt wide sgn))
  (BitVec.ofInt 64 r.1, r.2)

/-- An exact operation on one, two or three integers that raises no flag. -/
def exact1 (f : Int → Int) : List Int → Int × Word
  | a :: _ => (f a, 0)
  | [] => (0, 0)
def exact2 (f : Int → Int → Int) : List Int → Int × Word
  | a :: b :: _ => (f a b, 0)
  | _ => (0, 0)
def exact3 (f : Int → Int → Int → Int) : List Int → Int × Word
  | a :: b :: c :: _ => (f a b c, 0)
  | _ => (0, 0)

/-- An operation on one, two or three 32-bit words that raises no flag. -/
def word1 (f : Word → Word) : List DWord → DWord × Word
  | a :: _ => ((f a.lo).setWidth 64, 0)
  | [] => (0, 0)
def word2 (f : Word → Word → Word) : List DWord → DWord × Word
  | a :: b :: _ => ((f a.lo b.lo).setWidth 64, 0)
  | _ => (0, 0)
def word3 (f : Word → Word → Word → Word) : List DWord → DWord × Word
  | a :: b :: c :: _ => ((f a.lo b.lo c.lo).setWidth 64, 0)
  | _ => (0, 0)

/-- An operation that copies its first operand. -/
def copyOp : List DWord → DWord × Word
  | a :: _ => (a, 0)
  | [] => (0, 0)

end Sys2Proof.Machine
end

