-- ==== Sys2Proof/Machine/Floats.lean ====
section
/-! DEFINITION. Number formats, exact values and rounding with its flags (04_floating.md R98 to R109). -/

namespace Sys2Proof.Machine

/-! ## Formats (R98, R99) -/

/-- How a format uses its largest exponent: infinities and NaNs, one NaN pattern (E4M3), or finite values only. -/
inductive FmtKind where
  | ieee | e4m3 | finite
  deriving DecidableEq, Repr

/-- A format: exponent and fraction widths, bias and kind. -/
structure Fmt where
  ew : Nat
  mw : Nat
  bias : Nat
  kind : FmtKind
  deriving DecidableEq, Repr

def f32 : Fmt := ⟨8, 23, 127, .ieee⟩
def f16 : Fmt := ⟨5, 10, 15, .ieee⟩
def bf16 : Fmt := ⟨8, 7, 127, .ieee⟩
def f64 : Fmt := ⟨11, 52, 1023, .ieee⟩
def e5m2 : Fmt := ⟨5, 2, 15, .ieee⟩
def e4m3 : Fmt := ⟨4, 3, 7, .e4m3⟩
def e3m2 : Fmt := ⟨3, 2, 3, .finite⟩
def e2m3 : Fmt := ⟨2, 3, 1, .finite⟩
def e2m1 : Fmt := ⟨2, 1, 1, .finite⟩

/-- The format that a type code names (R119). -/
def fmtOf (code : Nat) : Fmt := [f32, f16, bf16, f64, e5m2, e4m3, e3m2, e2m3].getD code e2m1

/-- The width of a format in bits. -/
def Fmt.bits (t : Fmt) : Nat := 1 + t.ew + t.mw
/-- The exponent of the smallest normal value. -/
def Fmt.emin (t : Fmt) : Int := 1 - (t.bias : Int)
/-- The bits of the largest finite value. -/
def Fmt.maxBits (t : Fmt) : Nat :=
  match t.kind with
  | .ieee => (2 ^ t.ew - 1) * 2 ^ t.mw - 1
  | .e4m3 => 2 ^ (t.ew + t.mw) - 2
  | .finite => 2 ^ (t.ew + t.mw) - 1
/-- The bits of +∞. -/
def Fmt.infBits (t : Fmt) : Nat := (2 ^ t.ew - 1) * 2 ^ t.mw
/-- The canonical NaN. -/
def Fmt.nanBits (t : Fmt) : Nat := if t.kind = .e4m3 then 0x7F else t.infBits + 2 ^ (t.mw - 1)
/-- Bits with a sign. -/
def Fmt.signed (t : Fmt) (neg : Bool) (n : Nat) : Nat := if neg then n + 2 ^ (t.ew + t.mw) else n

/-- A value: a NaN, an infinity, or (-1)^neg · n · 2^e. -/
inductive Val where
  | nan (signalling : Bool)
  | inf (neg : Bool)
  | fin (neg : Bool) (n : Nat) (e : Int)
  deriving DecidableEq, Repr

/-- The value of a pattern (R98, R99). -/
def Fmt.val (t : Fmt) (x : Nat) : Val :=
  let neg := x.testBit (t.ew + t.mw)
  let ex := x / 2 ^ t.mw % 2 ^ t.ew
  let f := x % 2 ^ t.mw
  if t.kind = .ieee && ex = 2 ^ t.ew - 1 then if f = 0 then .inf neg else .nan (f < 2 ^ (t.mw - 1))
  else if t.kind = .e4m3 && ex = 15 && f = 7 then .nan false
  else if ex = 0 then .fin neg f (t.emin - t.mw)
  else .fin neg (2 ^ t.mw + f) ((ex : Int) - t.bias - t.mw)

/-! ## Rounding (R103, R104, R109) -/

/-- An exact real: (-1)^neg · n · 2^e, or, when `sticky`, some value strictly between n and n + 1 in place of n. A sticky value has
more than 100 bits, so that no rounding and no draw can tell it from another of its interval. -/
structure Exact where
  neg : Bool
  n : Nat
  e : Int
  sticky : Bool
  deriving DecidableEq, Repr

/-- The bits that a scaled quotient or root carries. -/
def guardBits : Nat := 160

/-- The exact quotient of two naturals, times 2^e. -/
def Exact.quot (neg : Bool) (num den : Nat) (e : Int) : Exact :=
  let k := guardBits + (den.log2 + 1)
  { neg := neg, n := num * 2 ^ k / den, e := e - k, sticky := num * 2 ^ k % den ≠ 0 }

/-- The integer square root, from the highest of `bits` result bits down. -/
def isqrtBits : Nat → Nat → Nat → Nat
  | 0, r, _ => r
  | b + 1, r, n => if (r + 2 ^ b) * (r + 2 ^ b) ≤ n then isqrtBits b (r + 2 ^ b) n else isqrtBits b r n
/-- The integer square root. -/
def isqrt (n : Nat) : Nat := isqrtBits (n.log2 / 2 + 1) 0 n

/-- The exact square root of n · 2^(2h). -/
def Exact.root (neg : Bool) (n : Nat) (h : Int) : Exact :=
  let m := n * 2 ^ (2 * guardBits)
  { neg := neg, n := isqrt m, e := h - guardBits, sticky := isqrt m * isqrt m ≠ m }

/-- A value rounded to a multiple of 2^q: the multiple, and whether it is inexact. Modes as R103; `draw` serves mode 5 (R109). -/
def Exact.at (x : Exact) (q : Int) (mode draw : Nat) : Nat × Bool :=
  if q ≤ x.e then (x.n * 2 ^ (x.e - q).toNat, x.sticky)
  else
    let sh := (q - x.e).toNat
    let k := x.n / 2 ^ sh
    let rem := x.n % 2 ^ sh
    let half := 2 ^ (sh - 1)
    let inexact := rem ≠ 0 || x.sticky
    let up :=
      if mode = 0 then rem > half || (rem = half && (x.sticky || k % 2 = 1))
      else if mode = 1 then false
      else if mode = 2 then inexact && !x.neg
      else if mode = 3 then inexact && x.neg
      else if mode = 4 then rem ≥ half
      else inexact && draw < rem * 2 ^ 32 / 2 ^ sh
    (if up then k + 1 else k, inexact)

/-- Compares k · 2^q with j · 2^p. -/
def scaledLt (k : Nat) (q : Int) (j : Nat) (p : Int) : Bool :=
  if q ≤ p then decide (k < j * 2 ^ (p - q).toNat) else decide (k * 2 ^ (q - p).toNat < j)

/-- The bits of k · 2^q, a multiple of the format's quantum. -/
def Fmt.pack (t : Fmt) (k : Nat) (q : Int) : Nat :=
  if k < 2 ^ t.mw then k
  else
    let (k, q) := if k ≥ 2 ^ (t.mw + 1) then (k / 2, q + 1) else (k, q)
    (q + t.mw + t.bias).toNat * 2 ^ t.mw + (k - 2 ^ t.mw)

/-- What an overflow gives (R104, R106): narrow formats saturate with CVSAT and NX unless `ovf` says otherwise. -/
def Fmt.overflow (t : Fmt) (neg : Bool) (mode : Nat) (ovf : Bool) : Nat × Word :=
  let narrow := t.bits ≤ 8
  if t.kind = .e4m3 && ovf then (t.nanBits, flagOf ||| flagNx)
  else if narrow && (t.kind ≠ .ieee || !ovf) then (t.signed neg t.maxBits, flagCvsat ||| flagNx)
  else if mode = 1 || (mode = 2 && neg) || (mode = 3 && !neg) then (t.signed neg t.maxBits, flagOf ||| flagNx)
  else (t.signed neg t.infBits, flagOf ||| flagNx)

/-- Rounds an exact value into a format once (R103, R104, R106, R109). -/
def Fmt.round (t : Fmt) (mode draw : Nat) (ovf : Bool) (x : Exact) : Nat × Word :=
  if x.n = 0 && !x.sticky then (t.signed x.neg 0, 0)
  else
    let top : Int := (x.n.log2 : Int) + x.e
    let q := max top t.emin - t.mw
    let r := x.at q mode draw
    match t.val t.maxBits with
    | .fin _ km kq =>
      if scaledLt km kq r.1 q then t.overflow x.neg mode ovf
      else
        let u := x.at (top - t.mw) mode draw
        let tiny := scaledLt u.1 (top - t.mw) 1 t.emin
        (t.signed x.neg (t.pack r.1 q), flagIf r.2 flagNx ||| flagIf (r.2 && tiny) flagUf)
    | _ => (0, 0)

/-! ## Arithmetic on values (R104, R105, R112) -/

/-- The result of an operation before rounding: a NaN, an infinity, or an exact value; and NV. -/
inductive Raw where
  | nan (nv : Bool)
  | inf (neg : Bool)
  | fin (x : Exact)
  deriving DecidableEq, Repr

/-- A result of an operation in a format. -/
def Fmt.finish (t : Fmt) (mode draw : Nat) (ovf : Bool) : Raw → Nat × Word
  | .nan nv => (t.nanBits, flagIf nv flagNv)
  | .inf neg => (t.signed neg t.infBits, 0)
  | .fin x => t.round mode draw ovf x

/-- Whether a value is a signalling NaN. -/
def Val.snan : Val → Bool
  | .nan sig => sig
  | _ => false
/-- Whether a value is a NaN. -/
def Val.isNan : Val → Bool
  | .nan _ => true
  | _ => false
/-- Whether a value is a zero. -/
def Val.isZero : Val → Bool
  | .fin _ n _ => n = 0
  | _ => false
/-- The sign. -/
def Val.neg : Val → Bool
  | .nan _ => false
  | .inf s => s
  | .fin s _ _ => s
/-- The value with the other sign. -/
def Val.negate : Val → Val
  | .nan sig => .nan sig
  | .inf s => .inf (!s)
  | .fin s n e => .fin (!s) n e
/-- A finite value as an integer multiple of 2^e for an e no greater than its own. -/
def scaled (neg : Bool) (n : Nat) (e' : Int) (e : Int) : Int :=
  let k : Int := n * 2 ^ (e' - e).toNat
  if neg then -k else k

/-- The exact sum of two finite values; the sign of a zero as R112 says. -/
def addFin (mode : Nat) (s1 : Bool) (n1 : Nat) (e1 : Int) (s2 : Bool) (n2 : Nat) (e2 : Int) : Raw :=
  let e := min e1 e2
  let t := scaled s1 n1 e1 e + scaled s2 n2 e2 e
  if t = 0 then .fin { neg := if n1 = 0 && n2 = 0 && s1 = s2 then s1 else mode = 3, n := 0, e := 0, sticky := false }
  else .fin { neg := t < 0, n := t.natAbs, e := e, sticky := false }

/-- a + b (R112). -/
def addVal (mode : Nat) (a b : Val) : Raw :=
  match a, b with
  | .fin s1 n1 e1, .fin s2 n2 e2 => addFin mode s1 n1 e1 s2 n2 e2
  | .inf s1, .inf s2 => if s1 = s2 then .inf s1 else .nan true
  | .inf s1, .fin _ _ _ => .inf s1
  | .fin _ _ _, .inf s2 => .inf s2
  | a, b => .nan (a.snan || b.snan)

/-- The product as a value, and whether it is 0 × ∞ (R112). -/
def mulVal (a b : Val) : Val × Bool :=
  match a, b with
  | .fin s1 n1 e1, .fin s2 n2 e2 => (.fin (s1 != s2) (n1 * n2) (e1 + e2), false)
  | .inf s1, .inf s2 => (.inf (s1 != s2), false)
  | .inf s1, .fin s2 n _ => if n = 0 then (.nan true, true) else (.inf (s1 != s2), false)
  | .fin s1 n _, .inf s2 => if n = 0 then (.nan true, true) else (.inf (s1 != s2), false)
  | a, b => (.nan (a.snan || b.snan), false)

/-- A value as the result of an operation. -/
def Val.raw : Val → Raw
  | .nan sig => .nan sig
  | .inf s => .inf s
  | .fin s n e => .fin { neg := s, n := n, e := e, sticky := false }

/-- a × b + c (R112): 0 × ∞ raises NV even when c is a quiet NaN. -/
def fmaVal (mode : Nat) (a b c : Val) : Raw :=
  let p := mulVal a b
  if p.2 then .nan true else addVal mode p.1 c

/-- The order of two values that are not NaN: less, equal. -/
def Val.lt (a b : Val) : Bool :=
  match a, b with
  | .fin s1 n1 e1, .fin s2 n2 e2 => let e := min e1 e2; scaled s1 n1 e1 e < scaled s2 n2 e2 e
  | .inf s1, .inf s2 => s1 && !s2
  | .inf s, _ => s
  | _, .inf s => !s
  | _, _ => false
def Val.eq (a b : Val) : Bool :=
  match a, b with
  | .fin s1 n1 e1, .fin s2 n2 e2 => let e := min e1 e2; scaled s1 n1 e1 e = scaled s2 n2 e2 e
  | .inf s1, .inf s2 => s1 = s2
  | _, _ => false

/-! ## Conversions (R106, R120 to R123) -/

/-- A conversion of a value into a format (R106, R120). -/
def Fmt.convert (t : Fmt) (mode draw : Nat) (ovf : Bool) (v : Val) : Nat × Word :=
  match v with
  | .nan sig => if t.kind = .finite then (0, flagNv) else (t.nanBits, flagIf sig flagNv)
  | .inf s =>
    match t.kind with
    | .ieee => (t.signed s t.infBits, 0)
    | .e4m3 => if ovf then (t.nanBits, flagNv) else (t.signed s t.maxBits, flagCvsat ||| flagNx)
    | .finite => (t.signed s t.maxBits, flagCvsat ||| flagNx)
  | .fin s n e => t.round mode draw ovf { neg := s, n := n, e := e, sticky := false }

/-- A value rounded to an integer (R116, R122), and whether that is inexact. -/
def Exact.toInt (x : Exact) (mode draw : Nat) : Int × Bool :=
  let r := x.at 0 mode draw
  (if x.neg then -(r.1 : Int) else r.1, r.2)

/-- A finite value as an exact one. -/
def exactOf (s : Bool) (n : Nat) (e : Int) : Exact := { neg := s, n := n, e := e, sticky := false }

/-- The F32 value of a word. -/
def fval (w : Word) : Val := f32.val w.toNat
/-- The F64 value of a double word. -/
def dval (w : DWord) : Val := f64.val w.toNat

/-! ## Stochastic rounding (R108) -/

/-- One draw: the new SRS. -/
def srsNext (x : Word) : Word :=
  let x := x ^^^ (x <<< 13)
  let x := x ^^^ (x >>> 17)
  x ^^^ (x <<< 5)

/-! ## BS16 scales (R101) -/

/-- The exponent field of a scale. -/
def bsE (sc : Nat) : Nat := sc / 256 % 256
/-- value(sc) is (256 + f) · 2^(e - 135): the integer part. -/
def bsN (sc : Nat) : Nat := 256 + sc % 256
/-- The exponent of that. -/
def bsX (sc : Nat) : Int := (bsE sc : Int) - 135

end Sys2Proof.Machine
end

