-- ==== Sys2Proof/Machine/Floating.lean ====
section
/-! DEFINITION. Floating-point and conversion instructions (04_floating.md R97, R108 to R127). -/

namespace Sys2Proof.Machine

/-- A result of n bits as a register value. -/
def regOf (r : Nat × Word) : DWord × Word := (BitVec.ofNat 64 r.1, r.2)

/-! ## F32 and F64 arithmetic (R112, R118) -/

/-- An operation of two or three values in a format. -/
def fop2 (t : Fmt) (mode : Nat) (f : Nat → Val → Val → Raw) : List DWord → DWord × Word
  | a :: b :: _ => regOf (t.finish mode 0 true (f mode (t.val (a.toNat % 2 ^ t.bits)) (t.val (b.toNat % 2 ^ t.bits))))
  | _ => (0, 0)
def fop3 (t : Fmt) (mode : Nat) (f : Nat → Val → Val → Val → Raw) : List DWord → DWord × Word
  | a :: b :: c :: _ =>
    regOf (t.finish mode 0 true (f mode (t.val (a.toNat % 2 ^ t.bits)) (t.val (b.toNat % 2 ^ t.bits)) (t.val (c.toNat % 2 ^ t.bits))))
  | _ => (0, 0)

/-- The subtraction and the product as operations of a mode. -/
def subRaw (mode : Nat) (a b : Val) : Raw := addVal mode a b.negate
def mulRaw (_ : Nat) (a b : Val) : Raw := (mulVal a b).1.raw

/-- A vector instruction of two operands with no uniform form. -/
def vec2 (sh : Shape) (lat : Nat) (wide : Bool) (op : List DWord → DWord × Word) (m : Main) (s : State) : Answer :=
  issueOk (Info.of sh m lat) (fun x => x.compute false wide m.d.toNat [m.opA false wide, m.opB false wide false] op) s
/-- A vector instruction of three operands. -/
def vec3 (sh : Shape) (lat : Nat) (wide : Bool) (op : List DWord → DWord × Word) (m : Main) (s : State) : Answer :=
  issueOk (Info.of sh m lat)
    (fun x => x.compute false wide m.d.toNat [m.opA false wide, m.opB false wide false, m.opC false wide] op) s
/-- A vector instruction of one operand. -/
def vec1 (sh : Shape) (lat : Nat) (wd wa : Bool) (op : List DWord → DWord × Word) (m : Main) (s : State) : Answer :=
  issueOk (Info.of sh m lat) (fun x => x.compute false wd m.d.toNat [m.opA false wa] op) s

/-- FADD (R112). -/
def execFadd (m : Main) (s : State) : Answer := vec2 (Instr.fadd m).shape 6 false (fop2 f32 m.mod addVal) m s
/-- FSUB (R112). -/
def execFsub (m : Main) (s : State) : Answer := vec2 (Instr.fsub m).shape 6 false (fop2 f32 m.mod subRaw) m s
/-- FMUL (R112). -/
def execFmul (m : Main) (s : State) : Answer := vec2 (Instr.fmul m).shape 6 false (fop2 f32 m.mod mulRaw) m s
/-- FFMA (R112). -/
def execFfma (m : Main) (s : State) : Answer := vec3 (Instr.ffma m).shape 6 false (fop3 f32 m.mod fmaVal) m s
/-- DADD (R118). -/
def execDadd (m : Main) (s : State) : Answer := vec2 (Instr.dadd m).shape 10 true (fop2 f64 m.mod addVal) m s
/-- DMUL (R118). -/
def execDmul (m : Main) (s : State) : Answer := vec2 (Instr.dmul m).shape 10 true (fop2 f64 m.mod mulRaw) m s
/-- DFMA (R118). -/
def execDfma (m : Main) (s : State) : Answer := vec3 (Instr.dfma m).shape 10 true (fop3 f64 m.mod fmaVal) m s

/-! ## Packed 16-bit arithmetic (R117) -/

/-- The type and mode of a packed instruction: MOD bit 2, and bits 1:0. -/
def packFmt (m : Main) : Fmt := if m.uni then bf16 else f16

/-- An operation applied to both halves. -/
def packHalves (f : List DWord → DWord × Word) (l : List DWord) : DWord × Word :=
  let lo := f (l.map (fun x => (x.extractLsb' 0 16).setWidth 64))
  let hi := f (l.map (fun x => (x.extractLsb' 16 16).setWidth 64))
  (((hi.1.setWidth 16 ++ lo.1.setWidth 16 : Word)).setWidth 64, lo.2 ||| hi.2)

/-- FADD2 (R117). -/
def execFadd2 (m : Main) (s : State) : Answer :=
  vec2 (Instr.fadd2 m).shape 6 false (packHalves (fop2 (packFmt m) (m.mod % 4) addVal)) m s
/-- FMUL2 (R117). -/
def execFmul2 (m : Main) (s : State) : Answer :=
  vec2 (Instr.fmul2 m).shape 6 false (packHalves (fop2 (packFmt m) (m.mod % 4) mulRaw)) m s
/-- FFMA2 (R117). -/
def execFfma2 (m : Main) (s : State) : Answer :=
  vec3 (Instr.ffma2 m).shape 6 false (packHalves (fop3 (packFmt m) (m.mod % 4) fmaVal)) m s

/-! ## Minimum, maximum and comparison (R113, R114) -/

/-- minimumNumber or maximumNumber of two patterns, or the NaN variants (R113). -/
def minMax (t : Fmt) (isMax nanOut : Bool) (x y : Nat) : Nat × Word :=
  let a := t.val x
  let b := t.val y
  let less := a.lt b || (a.isZero && b.isZero && a.neg && !b.neg)
  let r :=
    if a.isNan && b.isNan then t.nanBits
    else if a.isNan then if nanOut then t.nanBits else y
    else if b.isNan then if nanOut then t.nanBits else x
    else if less != isMax then x else y
  (r, flagIf (a.snan || b.snan) flagNv)

/-- FMIN and FMAX as an operation. -/
def minMaxOp (isMax : Bool) (m : Main) : List DWord → DWord × Word
  | a :: b :: _ => regOf (minMax (if m.wide then f64 else f32) isMax (m.mod % 2 = 1) a.toNat b.toNat)
  | _ => (0, 0)

/-- FMIN (R113). -/
def execFmin (m : Main) (s : State) : Answer := vec2 (Instr.fmin m).shape (if m.wide then 6 else 4) m.wide (minMaxOp false m) m s
/-- FMAX (R113). -/
def execFmax (m : Main) (s : State) : Answer := vec2 (Instr.fmax m).shape (if m.wide then 6 else 4) m.wide (minMaxOp true m) m s

/-- A comparison by condition code, with its flag (R114). -/
def cmpVal (cc : Nat) (sig : Bool) (a b : Val) : Bool × Word :=
  let un := a.isNan || b.isNan
  let r :=
    if un then cc = 1 || cc = 6
    else if cc = 0 then a.eq b else if cc = 1 then !a.eq b else if cc = 2 then a.lt b else if cc = 3 then a.lt b || a.eq b
    else if cc = 4 then b.lt a else if cc = 5 then b.lt a || a.eq b else cc = 7
  (r, flagIf (a.snan || b.snan || (sig && un)) flagNv)

/-- A comparison into a predicate. -/
def fcmpIn (sh : Shape) (t : Fmt) (wide : Bool) (lat : Nat) (m : Main) (s : State) : Answer :=
  issueOk ((Info.of sh m lat).writesP m.d.toNat)
    (fun x => x.computeP m.d.toNat [m.opA false wide, m.opB false wide false] (fun l =>
      match l with
      | a :: b :: _ => cmpVal m.c (m.mod = 1) (t.val a.toNat) (t.val b.toNat)
      | _ => (false, 0))) s

/-- FCMP (R114). -/
def execFcmp (m : Main) (s : State) : Answer := fcmpIn (Instr.fcmp m).shape f32 false 4 m s
/-- DCMP (R114). -/
def execDcmp (m : Main) (s : State) : Answer := fcmpIn (Instr.dcmp m).shape f64 true 6 m s

/-! ## Class, integral values and exponents (R115, R116) -/

/-- The class bit of a value (R115). -/
def classBit (t : Fmt) : Val → Nat
  | .nan sig => if sig then 8 else 9
  | .inf s => if s then 0 else 7
  | .fin s n _ =>
    if n = 0 then if s then 3 else 4
    else if n < 2 ^ t.mw then if s then 2 else 5
    else if s then 1 else 6

/-- The format that FCLASS reads. -/
def classFmt (m : Main) : Fmt := if m.mod = 0 then f32 else if m.mod = 1 then f64 else if m.mod = 2 then f16 else bf16

/-- FCLASS (R115). -/
def execFclass (m : Main) (s : State) : Answer :=
  vec1 (Instr.fclass m).shape (if m.mod = 1 then 6 else 4) false (m.mod = 1) (fun l =>
    let t := classFmt m
    (BitVec.ofNat 64 (2 ^ classBit t (t.val ((l.headD 0).toNat % 2 ^ t.bits))), 0)) m s

/-- The integral value in a mode, the sign kept on zero, with NV only on a signalling NaN (R116). -/
def frndW (mode : Nat) (v : Val) : Nat × Word :=
  match v with
  | .nan sig => (f32.nanBits, flagIf sig flagNv)
  | .inf s => (f32.signed s f32.infBits, 0)
  | .fin s n e =>
    let r := (exactOf s n e).at 0 mode 0
    ((f32.round 0 0 true (exactOf s r.1 0)).1, 0)

/-- FRND (R116). -/
def execFrnd (m : Main) (s : State) : Answer :=
  vec1 (Instr.frnd m).shape 4 false false (fun l => regOf (frndW m.mod (fval (l.headD 0).lo))) m s

/-- FSCALE's result: a × 2^b rounded once. An exponent past ±1024 rounds as ±1024 does. -/
def fscaleW (mode : Nat) (v : Val) (b : Int) : Nat × Word :=
  match v with
  | .fin s n e => f32.finish mode 0 true (.fin (exactOf s n (e + clamp b (-1024) 1024)))
  | v => f32.finish mode 0 true v.raw

/-- FSCALE (R116). -/
def execFscale (m : Main) (s : State) : Answer :=
  vec2 (Instr.fscale m).shape 6 false (fun l =>
    match l with
    | a :: b :: _ => regOf (fscaleW m.mod (fval a.lo) b.lo.toInt)
    | _ => (0, 0)) m s

/-- floor(log2 |a|), or the values of R116 with NV. -/
def getexpW : Val → Nat × Word
  | .inf _ => (0x7FFFFFFF, flagNv)
  | .nan _ => (0x80000000, flagNv)
  | .fin _ n e => if n = 0 then (0x80000000, flagNv) else ((BitVec.ofInt 32 ((n.log2 : Int) + e)).toNat, 0)

/-- FGETEXP (R116). -/
def execFgetexp (m : Main) (s : State) : Answer :=
  vec1 (Instr.fgetexp m).shape 4 false false (fun l => regOf (getexpW (fval (l.headD 0).lo))) m s

/-! ## Conversions (R119 to R123) -/

/-- Element e of a register value in a format's containers (R100). -/
def element (code e : Nat) (x : Nat) : Nat :=
  if code = 3 then x
  else x / 2 ^ (e * (32 / containers code)) % 2 ^ (fmtOf code).bits

/-- The latency of a conversion. -/
def latCvt (wide : Bool) : Nat := if wide then 8 else 6

/-- FCVT (R120). -/
def execFcvt (m : Main) (s : State) : Answer :=
  let dst := m.imm % 16
  let src := m.imm / 16 % 16
  issueOk (Info.of (Instr.fcvt m).shape m (latCvt (dst = 3 || src = 3))) (fun x =>
    x.onMask (fun o f =>
      let v := (fmtOf src).val (element src m.b.toNat ((m.opA false (src = 3)).get x.src o).toNat)
      let r := (fmtOf dst).convert (m.imm / 256) 0 (o.fctl.getLsbD 2) v
      (f.put (dst = 3) m.d.toNat (BitVec.ofNat 64 r.1)).raise r.2)) s

/-- FCVT.SR (R121): every element takes one draw (R109). -/
def execFcvtSr (m : Main) (s : State) : Answer :=
  let dst := m.imm % 16
  let src := m.imm / 16 % 16
  issueOk (Info.of (Instr.fcvtSr m).shape m (latCvt (dst = 3 || src = 3))) (fun x =>
    x.onMask (fun o f =>
      let v := (fmtOf src).val (element src m.b.toNat ((m.opA false (src = 3)).get x.src o).toNat)
      let d := srsNext f.srs
      let r := (fmtOf dst).convert 5 d.toNat (o.fctl.getLsbD 2) v
      { (f.put (dst = 3) m.d.toNat (BitVec.ofNat 64 r.1)).raise r.2 with srs := d })) s

/-- The width and signedness of an int code (R122). -/
def intOf (code : Nat) : Nat × Bool :=
  if code = 0 then (32, true) else if code = 1 then (32, false) else if code = 2 then (64, true) else if code = 3 then (64, false)
  else if code = 4 then (8, true) else if code = 5 then (4, true) else (8, false)

/-- A value as an integer of a width, clamped, with NV or NX (R122). -/
def toIntVal (code mode : Nat) (v : Val) : Int × Word :=
  let w := intOf code
  match v with
  | .nan _ => (0, flagNv)
  | .inf s => (if s then intLo w.1 w.2 else intHi w.1 w.2, flagNv)
  | .fin s n e =>
    let r := (exactOf s n e).toInt mode 0
    if r.1 < intLo w.1 w.2 || r.1 > intHi w.1 w.2 then (clamp r.1 (intLo w.1 w.2) (intHi w.1 w.2), flagNv)
    else (r.1, flagIf r.2 flagNx)

/-- F2I (R122). -/
def execF2i (m : Main) (s : State) : Answer :=
  let src := m.imm % 16
  let int := m.imm / 16 % 8
  let wide := int = 2 || int = 3
  vec1 (Instr.f2i m).shape (latCvt (wide || src = 3)) wide (src = 3) (fun l =>
    let r := toIntVal int (m.imm / 256) ((fmtOf src).val (element src m.b.toNat (l.headD 0).toNat))
    (BitVec.ofInt 64 r.1, r.2)) m s

/-- I2F (R123). -/
def execI2f (m : Main) (s : State) : Answer :=
  let dst := m.imm % 16
  let int := m.imm / 16 % 4
  let wide := int ≥ 2
  vec1 (Instr.i2f m).shape (latCvt (wide || dst = 3)) (dst = 3) wide (fun l =>
    let a := tInt wide (int % 2 = 0) (l.headD 0)
    regOf ((fmtOf dst).round (m.imm / 256) 0 true (exactOf (a < 0) a.natAbs 0))) m s

/-- SRSEED (R108). -/
def execSrseed (m : Main) (s : State) : Answer :=
  issueOk (Info.of (Instr.srseed m).shape m 6) (fun x =>
    x.onMask (fun o f => { f with srs := srsSeed ((m.opA (m.mod = 1) false).get x.src o).lo o.idx })) s

/-! ## The Walsh–Hadamard transform (R124) -/

/-- H[i][j] is negative. -/
def hadSign (i j : Nat) : Bool := popcount6 (i &&& j) % 2 = 1
where
  /-- The number of one bits of a number below 64. -/
  popcount6 (n : Nat) : Nat := ((List.range 6).filter n.testBit).length

/-- The exact sum of finite values as a multiple of 2^e, e the least of their exponents. -/
def sumFin (l : List (Bool × Nat × Int)) : Int × Int :=
  let e := l.foldl (fun e x => min e x.2.2) 0
  (l.foldl (fun t x => t + scaled x.1 x.2.1 x.2.2 e) 0, e)

/-- Output i of a transform of k values (R124). A sum that is exactly zero gives +0, whatever the signs of the inputs (DESIGN CHOICE,
log 114). -/
def hadOut (k i : Nat) (xs : List Val) : Nat × Word :=
  let ys := xs.zipIdx.map (fun p => if hadSign i p.2 then p.1.negate else p.1)
  let infs := ys.filterMap (fun v => match v with | .inf s => some s | _ => none)
  if infs.contains true && infs.contains false then (f32.nanBits, flagNv)
  else match infs with
    | s :: _ => (f32.signed s f32.infBits, 0)
    | [] =>
      let t := sumFin (ys.filterMap (fun v => match v with | .fin s n e => some (s, n, e) | _ => none))
      if t.1 = 0 then (0, 0)
      else if k = 16 then f32.round 0 0 true (exactOf (t.1 < 0) t.1.natAbs (t.2 - 2))
      else f32.round 0 0 true (Exact.root (t.1 < 0) (2 * t.1.natAbs * t.1.natAbs) (t.2 - 3))

/-- The transform of one part, with the flags of all its outputs. -/
def hadamard (k : Nat) (xs : List Word) : List Word × Word :=
  let vs := xs.map fval
  if vs.any Val.isNan then (List.replicate k (BitVec.ofNat 32 f32.nanBits), flagIf (vs.any Val.snan) flagNv)
  else
    let r := (List.range k).map (fun i => hadOut k i vs)
    (r.map (fun x => BitVec.ofNat 32 x.1), r.foldl (fun a x => a ||| x.2) 0)

/-- The transform of each k-element part of a block; none for H = 0. -/
def hadParts (h : Nat) (xs : List Word) : List Word × Word :=
  if h = 0 then (xs, 0)
  else
    let k := 16 * h
    if xs.length ≤ k then hadamard k xs
    else
      let a := hadamard k (xs.take k)
      let b := hadamard k (xs.drop k)
      (a.1 ++ b.1, a.2 ||| b.2)

/-- HADM (R124). -/
def execHadm (m : Main) (s : State) : Answer :=
  let k := if m.b = 1 then 32 else 16
  issueOk (Info.of (Instr.hadm m).shape m (if m.b = 1 then 48 else 28)) (fun x =>
    x.onMask (fun o f =>
      let r := hadamard k (o.getVs m.a.toNat k)
      (f.setVs m.d.toNat r.1).raise r.2)) s

/-! ## Block quantisation (R125, R126) -/

/-- emax of a block format. -/
def qEmax (fmt : Nat) : Int := if fmt = 0 then 8 else if fmt = 1 then 15 else if fmt = 2 then 4 else if fmt ≤ 4 then 2 else 0
/-- The format of a selector other than MXS8. -/
def qFmt (fmt : Nat) : Fmt := if fmt = 0 then e4m3 else if fmt = 1 then e5m2 else if fmt = 2 then e3m2 else if fmt = 3 then e2m3 else e2m1

/-- The scale that QCVT computes for a block (R125), with NV when it is not finite. -/
def qScale (fmt : Nat) (vs : List Val) : Nat × Word :=
  if vs.any (fun v => match v with | .fin _ _ _ => false | _ => true) then (0xFF00, flagNv)
  else if vs.all Val.isZero then (0, 0)
  else
    let logs := vs.filterMap (fun v => match v with | .fin _ n e => if n = 0 then none else some ((n.log2 : Int) + e) | _ => none)
    let top := logs.foldl max (logs.headD 0)
    ((clamp (top - qEmax fmt + 127) 1 254).toNat * 256, 0)

/-- One element of a block with a scale, always saturating (R125). An MXS8 element raises NX, or CVSAT with NX, and never UF (DESIGN CHOICE,
log 115). -/
def qElem (fmt mode draw sc : Nat) (v : Val) : Nat × Word :=
  match v with
  | .nan _ => (0, flagNv)
  | .inf s => if fmt = 5 then (if s then 0x81 else 0x7F, flagCvsat ||| flagNx) else ((qFmt fmt).signed s (qFmt fmt).maxBits, flagCvsat ||| flagNx)
  | .fin s n e =>
    let x := Exact.quot s n (bsN sc) (e - bsX sc)
    if n = 0 then (if fmt = 5 then 0 else (qFmt fmt).signed s 0, 0)
    else if fmt = 5 then
      let r := Exact.toInt { x with e := x.e + 6 } mode draw
      if r.1 > 127 || r.1 < -127 then ((BitVec.ofInt 8 (clamp r.1 (-127) 127)).toNat, flagCvsat ||| flagNx)
      else ((BitVec.ofInt 8 r.1).toNat, flagIf r.2 flagNx)
    else (qFmt fmt).round mode draw false x

/-- The elements of a block, and SRS after them: mode 5 draws once per element, also under a scale whose e is 0 or 255, where nothing is rounded;
there a signalling NaN raises no NV (DESIGN CHOICE both, log 115). -/
def qElems (fmt mode sc : Nat) (ok : Bool) : List Val → Word → List (Nat × Word) × Word
  | [], srs => ([], srs)
  | v :: r, srs =>
    let d := if mode = 5 then srsNext srs else srs
    let q := if ok then qElem fmt mode d.toNat sc v else (0, 0)
    let rest := qElems fmt mode sc ok r d
    (q :: rest.1, rest.2)

/-- Packs elements into registers of 32 bits, `per` to a register (R100). -/
def packElems (per : Nat) : Nat → List Nat → List Word
  | 0, _ => []
  | n + 1, l =>
    BitVec.ofNat 32 ((l.take per).foldr (fun q a => q + a * 2 ^ (32 / per)) 0) :: packElems per n (l.drop per)

/-- A block quantised: element registers and scale, flags, and SRS after it. `given` is a scale that is not computed. -/
def quantise (sel : BitVec 8) (mode : Nat) (given : Option Nat) (xs : List Word) (srs : Word) : List Word × Word × Word :=
  let fmt := selFmt sel
  let t := hadParts (selH sel) xs
  let vs := t.1.map fval
  let sc := match given with | some g => (g, 0) | none => qScale fmt vs
  let q := qElems fmt mode sc.1 (bsE sc.1 ≠ 0 && bsE sc.1 ≠ 255) vs srs
  (packElems (if fmt = 4 then 8 else 4) (blockRegs fmt (selN32 sel)) (q.1.map Prod.fst) ++ [BitVec.ofNat 32 sc.1],
   q.1.foldl (fun a e => a ||| e.2) (t.2 ||| sc.2), q.2)

/-- The latency of QCVT and DQCVT (R97). -/
def latQ (sel : BitVec 8) (base32 base16 h32 h16 : Nat) : Nat :=
  if selH sel = 0 then if selN32 sel then base32 else base16 else if selN32 sel then h32 else h16

/-- QCVT (R125). -/
def execQcvt (m : Main) (s : State) : Answer :=
  let p := blockRegs (selFmt m.b) (selN32 m.b)
  let n := Info.of (Instr.qcvt m).shape m (latQ m.b 50 30 82 46)
  issueOk (if m.b.getLsbD 6 then { n with reads := n.reads ++ [(.v, m.d.toNat + p)] } else n) (fun x =>
    x.onMask (fun o f =>
      let given := if m.b.getLsbD 6 then some ((o.getV (m.d.toNat + p)).toNat % 65536) else none
      let r := quantise m.b m.mod given (o.getVs m.a.toNat (selN m.b)) f.srs
      { (f.setVs m.d.toNat r.1).raise r.2.1 with srs := r.2.2 })) s

/-- The value of an element of a block format. -/
def qVal (fmt q : Nat) : Val := if fmt = 5 then (let i := sext 8 q; .fin (i < 0) i.natAbs (-6)) else (qFmt fmt).val q

/-- One element of a block times its scale, in F32 (R126). -/
def dqElem (fmt mode sc q : Nat) : Nat × Word :=
  if bsE sc = 0 then (0, 0)
  else if bsE sc = 255 then (f32.nanBits, 0)
  else match qVal fmt q with
    | .fin s n e => f32.round mode 0 true (exactOf s (n * bsN sc) (e + bsX sc))
    | v => f32.finish mode 0 true v.raw

/-- A block dequantised: the F32 values and flags. -/
def dequantise (sel : BitVec 8) (mode sc : Nat) (regs : List Word) : List Word × Word :=
  let fmt := selFmt sel
  let per := if fmt = 4 then 8 else 4
  let w := if fmt = 5 then 8 else (qFmt fmt).bits
  let es := (List.range (selN sel)).map (fun i =>
    dqElem fmt mode sc ((regs.getD (i / per) 0).toNat / 2 ^ (i % per * (32 / per)) % 2 ^ w))
  let t := hadParts (selH sel) (es.map (fun e => BitVec.ofNat 32 e.1))
  (t.1, es.foldl (fun a e => a ||| e.2) t.2)

/-- DQCVT (R126). -/
def execDqcvt (m : Main) (s : State) : Answer :=
  let p := blockRegs (selFmt m.b) (selN32 m.b)
  issueOk (Info.of (Instr.dqcvt m).shape m (latQ m.b 42 26 74 42)) (fun x =>
    x.onMask (fun o f =>
      let r := dequantise m.b m.mod ((o.getV (m.a.toNat + p)).toNat % 65536) (o.getVs m.a.toNat p)
      (f.setVs m.d.toNat r.1).raise r.2)) s

end Sys2Proof.Machine
end

