-- ==== Sys2Proof/Machine/Commit.lean ====
section
/-! DEFINITION. Atomic operations (08_memory.md R241), the store buffer (R233 to R235) and commit points (07_work.md R188 to R191). -/

namespace Sys2Proof.Machine

/-! ## Atomic operations (R241) -/

/-- The new value for old m and operand x of w bits. -/
def amoOp (op : Nat) (wide : Bool) (m x : DWord) : DWord :=
  let w := if wide then 64 else 32
  let mn := m.toNat % 2 ^ w
  let xn := x.toNat % 2 ^ w
  let ms := sext w mn
  let xs := sext w xn
  let t := if wide then f64 else f32
  let r : Nat :=
    match op with
    | 0 => mn + xn
    | 1 => (t.finish 0 0 true (addVal 0 (t.val mn) (t.val xn))).1
    | 2 => if ms ≤ xs then mn else xn
    | 3 => if ms ≤ xs then xn else mn
    | 4 => min mn xn
    | 5 => max mn xn
    | 6 => mn &&& xn
    | 7 => mn ||| xn
    | 8 => mn ^^^ xn
    | 9 => xn
    | 10 => if mn ≥ xn then 0 else mn + 1
    | 11 => if mn = 0 || mn > xn then xn else mn - 1
    | 12 => (minMax t false false mn xn).1
    | _ => (minMax t true false mn xn).1
  BitVec.ofNat 64 (r % 2 ^ w)

/-- The bytes of an operand of an atomic. -/
def amoBytes (wide : Bool) : Nat := if wide then 8 else 4

/-- Performs an atomic at a physical address; the old value and whether its sector was poisoned. -/
def State.amo (s : State) (pa : Nat) (side compr : Bool) (op : Nat) (wide : Bool) (x : DWord) : (DWord × Bool) × State :=
  let s := (s.healRange pa (amoBytes wide)).report
  let m := leDWord (s.peek pa (amoBytes wide))
  let bad := s.poisoned pa (amoBytes wide)
  ((m, bad), (s.perform pa (leBytes (amoBytes wide) (amoOp op wide m x).toNat) false side compr).report)

/-! ## Performing a committed store (R234, R235) -/

/-- A dropped write: why, the storing fibre, the address of its sector and the PC. -/
structure Dropped where
  code : Nat
  fibre : Nat
  addr : BitVec 64
  pc : BitVec 64
  deriving DecidableEq, Repr

/-- A committed entry that is dropped. -/
def Store.dropped (st : Store) (code : Nat) (va : BitVec 64) : Option Dropped :=
  some { code := code, fibre := st.fibre, addr := va &&& ~~~31, pc := st.pc }

/-- The access takes its line, or only its sector where it is UNCACHED (R230, R232). -/
def State.touch (s : State) (unc : Bool) (pa tkey : Nat) : State := if unc then s.touchUncached pa tkey else s.touchLine pa tkey

/-- Performs one committed entry. A tenant clash, a peer that does not answer (R235) and a replacement that refuses the write
(14_survivable.md R390; log 94) drop it. -/
def State.performStore (s : State) (c : Coil) (st : Store) : State × Option Dropped :=
  match st.tgt with
  | .mem pa va _ side compr unc tkey =>
    match st.op with
    | .marker _ => (s, none)
    | .bytes d bad =>
      if s.keyClash pa tkey then (s, st.dropped 0x109 va)
      else if s.refuses pa then (s, st.dropped 0x702 va)
      else ((((s.touch unc pa tkey).perform pa d bad side compr).report).l1Update c.core pa, none)
    | .red op wide x =>
      if s.keyClash pa tkey then (s, st.dropped 0x109 va)
      else if s.refuses pa then (s, st.dropped 0x702 va)
      else ((((s.touch unc pa tkey).amo pa side compr op wide x).2).l1Update c.core pa, none)
  | .peer dev va tkey =>
    if s.noKey tkey then (s, st.dropped 0x109 va)
    else match st.op with
    | .marker _ => (s, none)
    | .bytes d _ =>
      if Config.peerSilent s.draw.1 then (s.draw.2, st.dropped 0x10A va)
      else ({ s.draw.2 with out := s.out ++ [.peerStore dev va d] }, none)
    | .red op wide x =>
      if Config.peerSilent s.draw.1 then (s.draw.2, st.dropped 0x10A va)
      else ({ s.draw.2 with out := s.out ++ [.peerAtomic dev va op wide x] }, none)
  | .hostio pa _ _ =>
    match st.op with
    | .bytes d _ => ({ s with out := s.out ++ [.hostStore pa d] }, none)
    | _ => (s, none)

/-- Performs committed entries in order, with what was dropped. -/
def State.performStores (s : State) (c : Coil) : List Store → State × List Dropped
  | [] => (s, [])
  | st :: r =>
    let p := s.performStore c st
    let q := p.1.performStores c r
    (q.1, p.2.toList ++ q.2)

/-! ## Commit points (07_work.md R188 to R191, R197) -/

/-- Fibres that FIBNEW created become runnable at their creator's commit point (R197). -/
def State.freeChildren (s : State) (c : Coil) (act : List Nat) : State × Coil :=
  let ready (f : Fibre) : Bool := match f.status with | .provisional k => act.contains k | _ => false
  let new := (c.fibres.filter ready).map Fibre.idx
  if new.isEmpty then (s, c)
  else
    let c := { c with fibres := c.fibres.map (fun f => if ready f then { f with status := .runnable } else f) }
    s.formPlaits c (fun f => new.contains f.idx)

/-- A region record (R190, R191): the start is the address after the instruction, the rest as it stands. -/
def Fibre.record (f : Fibre) (start : BitVec 64) (livein : Nat) : Fibre :=
  { f with
    region := { start := start, livein := livein, p := f.p, pos := f.pos, srs := f.srs, loops := f.loops } }

/-- The buffered entries of some fibres, in increasing fibre index and program order. -/
def Coil.buffered (c : Coil) (act : List Nat) : List Store := act.flatMap (fun i => c.stores.filter (fun st => st.fibre = i))

/-- What a commit comes to: the instruction goes on, or the context has been killed by a dropped write (R235). -/
inductive Committed where
  | ok (x : Iss)
  | gone (s : State)

/-- The record of the writes that one commit dropped for one reason: the first of them, and how many sectors they are (R235). -/
def State.dropRec (s : State) (c : Coil) (d : Dropped) (l : List Dropped) : Rec :=
  { s.coilRec c d.code 0 0xFF with
    fibre := some d.fibre, addr := some d.addr, count := ((l.filter (fun e => e.code = d.code)).map Dropped.addr).eraseDups.length,
    aux := d.pc.setWidth 32 }

/-- Writes the records of dropped writes, one for each code. -/
def State.dropRecs (s : State) (c : Coil) (l : List Dropped) : State :=
  [0x109, 0x10A, 0x702].foldl (fun s code =>
    match l.find? (fun d => d.code = code) with
    | some d => s.record (s.dropRec c d l)
    | none => s) s

/-- What dropped writes do to a coil: MEM_TENANT kills the context; PEER_TIMEOUT, and SURV_STATE as an imprecise fault, the coil (R235;
15_system.md R410). -/
def State.dropKill (s : State) (c : Coil) (l : List Dropped) : State :=
  let s := s.dropRecs c l
  if l.any (fun d => d.code = 0x109) then s.killContext c.asid (some c.id) 0x109
  else if l.any (fun d => d.code = 0x10A) then s.killCoil c.id 0x10A
  else if l.any (fun d => d.code = 0x702) then s.killCoil c.id 0x702
  else s

/-- Commits some fibres (R188, R191): their buffered entries are performed, their regions start at an address, and the fibres that they
created become runnable. With it, the writes that were dropped. -/
def State.commitFor (s : State) (c : Coil) (act : List Nat) (start : BitVec 64) (livein : Nat) : State × Coil × List Dropped :=
  let d := { c with stores := c.stores.filter (fun st => !act.contains st.fibre), ueAt := [] }
  let p := s.performStores d (c.buffered act)
  let q := p.1.freeChildren (d.onFibres act (fun f => f.record start livein)) act
  (q.1, q.2, p.2)

/-- Commits the active fibres of the issuing plait (R188, R191). -/
def Iss.commit (x : Iss) (livein : Option Nat) : Committed :=
  let q := x.s.commitFor x.c x.act (x.pc + BitVec.ofNat 64 (4 * x.words)) (livein.getD x.c.window)
  match q.2.2 with
  | [] => .ok { x with s := q.1, c := q.2.1 }
  | d :: r => .gone ((q.1.setCoil q.2.1).dropKill q.2.1 (d :: r))

/-- A coil whose issuing fibres stand before an instruction that has committed and then faulted with no effect of its own (10_copy_gather.md R284;
00_scope.md R6): the stores of earlier instructions stay committed, the positions are those it found, and its region starts at the instruction
itself, not after it (DEDUCED, log 30). `x` is the issue before the commit. -/
def Coil.rewind (c : Coil) (x : Iss) : Coil :=
  c.onFibres x.act (fun f =>
    match x.c.fibre? f.idx with
    | some g => { f with pos := g.pos, fstat := g.fstat, region := { f.region with start := x.pc, pos := g.pos } }
    | none => f)

/-- Advances streams, commits, and then has an effect. A fault or a stop before any effect of its own is precise; one that comes after some of
them is imprecise (15_system.md R409), and the region starts after the instruction (07_work.md R191). -/
def Iss.commitThen (x : Iss) (advance : Iss → Iss) (k : Iss → Res) : Res :=
  match (advance x).commit none with
  | .ok y =>
    match k y with
    | .trap t z => .late t { z with c := y.c.rewind x }
    | .stop r z => .gone (z.s.stopAt (y.c.rewind x) x.place r)
    | r => r
  | .gone s => .gone s

/-- An imprecise fault (15_system.md R409). -/
def Res.imprecise (t : Trap) (x : Iss) : Res := .late { t with late := true } x

end Sys2Proof.Machine
end

