-- ==== Sys2Proof/Machine/Special.lean ====
section
/-! DEFINITION. Special functions and fused activation (05_special.md R128 to R137). A value for which the manual gives only a bound comes
from a polynomial that is not published: free within the bound and monotone (log 7). -/

namespace Sys2Proof.Machine

/-! ## Real functions in fixed point -/

/-- Fraction bits of the fixed-point values that bounds are judged with. -/
def fxBits : Nat := 192
/-- 1 in fixed point. -/
def fxOne : Int := 2 ^ fxBits

/-- The sum of a series whose term k is the last times x, divided by k. -/
def expSeries : Nat → Nat → Int → Int → Int → Int
  | 0, _, _, _, acc => acc
  | fuel + 1, k, x, t, acc => let t' := t * x / fxOne / (k : Int); expSeries fuel (k + 1) x t' (acc + t')
/-- e^x for 0 ≤ x < 1. -/
def fxExp (x : Int) : Int := expSeries 60 1 x fxOne fxOne

/-- Σ z^(2k+1)/(2k+1), with alternating signs when `alt`. -/
def oddSeries (alt : Bool) : Nat → Nat → Int → Int → Int → Int
  | 0, _, _, _, acc => acc
  | fuel + 1, k, z2, t, acc =>
    let u := t / (2 * k + 1 : Int)
    oddSeries alt fuel (k + 1) z2 (t * z2 / fxOne) (if alt && k % 2 = 1 then acc - u else acc + u)
/-- artanh z for |z| ≤ 1/3. -/
def fxAtanh (z : Int) : Int := oddSeries false 70 0 (z * z / fxOne) z 0
/-- arctan (1/q). -/
def fxAtanInv (q : Int) : Int := oddSeries true 90 0 (fxOne / (q * q)) (fxOne / q) 0
/-- ln 2 and π. -/
def fxLn2 : Int := 2 * fxAtanh (fxOne / 3)
def fxPi : Int := 16 * fxAtanInv 5 - 4 * fxAtanInv 239

/-- 2^f for 0 ≤ f < 1. -/
def fxExp2 (f : Int) : Int := fxExp (f * fxLn2 / fxOne)
/-- log2 of n · 2^e, for n > 0. -/
def fxLog2 (n : Nat) (e : Int) : Int :=
  let p : Int := 2 ^ n.log2
  (e + n.log2) * fxOne + 2 * fxAtanh (((n : Int) - p) * fxOne / (n + p)) * fxOne / fxLn2

/-- Σ (-1)^k t_k with t_k = t_(k-1) · x² / (2k(2k+1)): the sine series. -/
def sinSeries : Nat → Nat → Int → Int → Int → Int
  | 0, _, _, _, acc => acc
  | fuel + 1, k, x2, t, acc =>
    let t' := -(t * x2 / fxOne) / (2 * k * (2 * k + 1) : Int)
    sinSeries fuel (k + 1) x2 t' (acc + t')
/-- sin 2πu for 0 ≤ u ≤ 1/4. -/
def fxSinTurn (u : Int) : Int :=
  let x := 2 * fxPi * u / fxOne
  sinSeries 40 1 (x * x / fxOne) x x
/-- sin 2πu for a turn u in [0, 1). -/
def fxSin (u : Int) : Int :=
  let q := 4 * u / fxOne
  let r := u - q * fxOne / 4
  let s := fxSinTurn (if q % 2 = 0 then r else fxOne / 4 - r)
  if q ≥ 2 then -s else s

/-- Σ (-1)^k x^(2k+1) / (k! (2k+1)). -/
def erfSeries : Nat → Nat → Int → Int → Int → Int
  | 0, _, _, _, acc => acc
  | fuel + 1, k, x2, t, acc =>
    let t' := -(t * x2 / fxOne) / (k : Int)
    erfSeries fuel (k + 1) x2 t' (acc + t' / (2 * k + 1 : Int))
/-- erf x for 0 ≤ x < 4. -/
def fxErf (x : Int) : Int :=
  let c : Int := (isqrt ((4 * fxOne * fxOne * fxOne / fxPi).toNat) : Nat)
  c * erfSeries 160 1 (x * x / fxOne) x x / fxOne

/-- A magnitude n · 2^e as a fixed-point value. -/
def fxOf (n : Nat) (e : Int) : Int := scaled false n (e + fxBits) 0

/-- A fixed-point value times 2^k, as an exact value that is not representable. -/
def fxExact (x : Int) (k : Int) : Exact := { neg := x < 0, n := x.natAbs, e := k - fxBits, sticky := true }

/-- e^y as a fixed-point value in [1, 2) and a power of two. -/
def fxExpSplit (y : Int) : Int × Int :=
  let z := y * fxOne / fxLn2
  let n := z / fxOne
  (fxExp2 (z - n * fxOne), n)

/-- An exact value as a fixed-point value, rounded towards zero. -/
def Exact.fx (x : Exact) : Int :=
  if -(fxBits : Int) ≤ x.e then scaled x.neg x.n (x.e + fxBits) 0 else scaled x.neg (x.n / 2 ^ (-(x.e + fxBits)).toNat) 0 0

/-- tanh y for a fixed-point y ≥ 0. -/
def tanhOf (y : Int) : Exact :=
  let p := fxExpSplit (2 * y)
  let t := p.1 * 2 ^ p.2.toNat
  { Exact.quot false (t - fxOne).toNat (t + fxOne).toNat 0 with sticky := true }

/-- The logistic function of a fixed-point y: e^y/(1 + e^y) for y < 0 and 1/(1 + e^(-y)) otherwise, with e^(-|y|) = p.1 · 2^p.2. -/
def sigmOf (y : Int) : Exact :=
  let p := fxExpSplit (-(y.natAbs : Int))
  let d := fxOne * 2 ^ (-p.2).toNat + p.1
  { Exact.quot false (if y < 0 then p.1 else fxOne * 2 ^ (-p.2).toNat).toNat d.toNat 0 with sticky := true }

/-! ## Values within a bound (R129 to R131)

Each function reduces its argument to a fixed-point number and takes a polynomial's value there, of fixed point too. The polynomials are not
published: `g` stands for one, from the reduced argument to its value, both with fxBits fraction bits. -/

/-- An exact value as an integer multiple of 2^e. -/
def Exact.units (x : Exact) (e : Int) : Int := scaled x.neg x.n x.e e

/-- Whether a finite pattern is within 2^q of a value. -/
def within (c : Word) (v : Exact) (q : Int) : Bool :=
  match fval c with
  | .fin s n e =>
    let b := min (min e v.e) q
    ((exactOf s n e).units b - v.units b).natAbs ≤ 2 ^ (q - b).toNat + 1
  | _ => false

/-- The exponent of the unit in the last place of a value in F32, measured in the binade of the exact value (DESIGN CHOICE, log 117). -/
def ulpExp (v : Exact) : Int := max ((v.n.log2 : Int) + v.e) f32.emin - 23

/-- The value nearest an exact one. -/
def nearest (v : Exact) : Word := BitVec.ofNat 32 (f32.round 0 0 true v).1

/-- A fixed-point value times 2^k, as it stands. -/
def fxVal (x : Int) (k : Int) : Exact := { neg := x < 0, n := x.natAbs, e := k - fxBits, sticky := false }

/-- A result with its flags, and whether it is one that R129 and R134 allow. -/
abbrev Sfu := (Word × Word) × Bool

/-- A result that is stated as it is. -/
def sure (r : Word × Word) : Sfu := (r, true)

/-- A result that differs from the exact value: NX, and UF when it is tiny (R104, R134). -/
def inexactOf (c : Word) : Word × Word := (c, flagNx ||| flagIf ((c &&& 0x7FFFFFFF).toNat < 0x00800000) flagUf)

/-- A polynomial's value `c`, rounded once: allowed within 2^q of the exact value `v`, with its sign, and at most 1 in magnitude where `unit`
says so. -/
def sfuPut (c v : Exact) (q : Int) (unit : Bool) : Sfu :=
  let y := nearest c
  (inexactOf y, within y v q && (!unit || (y &&& 0x7FFFFFFF).toNat ≤ 0x3F800000) && y.getLsbD 31 = v.neg)

/-- The floor of 4x, for a finite x. -/
def quarterOf (w : Word) : Int :=
  match fval w with
  | .fin s n e => if 0 ≤ e + 2 then scaled s n (e + 2) 0 else scaled s n 0 0 / 2 ^ (-(e + 2)).toNat
  | _ => 0

/-- Which way a function goes on an interval that holds two numbers: true where it does not decrease, none where the rule names no such
interval (R130). SIN and COS have their quarter turns. -/
def sfuRises (fn : Nat) (x y : Word) : Option Bool :=
  let q := (quarterOf x + if fn = 6 then 1 else 0) % 4
  let pos (w : Word) : Bool := !(fval w).neg
  if fn = 1 || fn = 4 then if pos x && pos y then some true else none
  else if fn = 2 then if pos x = pos y then some false else none
  else if fn = 3 then if pos x && pos y then some false else none
  else if fn = 5 || fn = 6 then if quarterOf x = quarterOf y then some (q = 0 || q = 3) else none
  else some true

/-- Whether the results of two arguments, the first below the second, stand as R130 says. -/
def sfuOrdered (fn : Nat) (f : Word → Word) (x y : Word) : Bool :=
  match sfuRises fn x y with
  | none => true
  | some true => !(fval (f y)).lt (fval (f x))
  | some false => !(fval (f x)).lt (fval (f y))

/-- Whether a polynomial gives every F32 pattern a result that R129 and R134 allow, and monotone ones as R130 says. -/
@[irreducible] def sfuGood (fn : Nat) (w : (Int → Int) → Word → Sfu) (g : Int → Int) : Bool :=
  decide (∀ a < 2 ^ 32, (w g (BitVec.ofNat 32 a)).2 = true ∧ ∀ b < 2 ^ 32,
    (fval (BitVec.ofNat 32 a)).lt (fval (BitVec.ofNat 32 b)) = true →
      sfuOrdered fn (fun x => (w g x).1.1) (BitVec.ofNat 32 a) (BitVec.ofNat 32 b) = true)

/-- The polynomial of a function: Config's, if it is a good one; otherwise the exact function, so that each result is the nearest value. -/
def sfuOf (fn : Nat) (exact : Int → Int) (w : (Int → Int) → Word → Sfu) : Int → Int :=
  if sfuGood fn w (Config.sfu fn) then Config.sfu fn else exact

/-- The canonical NaN, with NV when the input is signalling or the operation invalid. -/
def nanOf (nv : Bool) : Word × Word := (0x7FC00000, flagIf nv flagNv)
/-- ±0, ±∞ and ±1. -/
def zeroOf (s : Bool) : Word := if s then 0x80000000 else 0
def infOf (s : Bool) : Word := if s then 0xFF800000 else 0x7F800000
def oneOf (s : Bool) : Word := if s then 0xBF800000 else 0x3F800000
/-- A power of two, exact in F32 when it is one of its values. -/
def pow2W (s : Bool) (k : Int) : Word := BitVec.ofNat 32 (f32.round 0 0 true (exactOf s 1 k)).1
/-- The exponent of a power of two. -/
def powOf (n : Nat) (e : Int) : Option Int := if n = 2 ^ n.log2 then some ((n.log2 : Int) + e) else none

/-- A value with the sign of the argument. -/
def Exact.signed (v : Exact) (s : Bool) : Exact := { v with neg := s }
/-- The mantissa m of a number, 1 ≤ m < 2, as a fixed-point value. -/
def mantFx (n : Nat) : Int := fxOf n (-(n.log2 : Int))

/-! ## The functions (R129, R133, R134) -/

/-- EXP2: 2^n · P(f), with P between its node values 1 and 2 (R130). -/
def exp2By (g : Int → Int) (x : Word) : Sfu :=
  match fval x with
  | .nan sig => sure (nanOf sig)
  | .inf s => sure (if s then 0 else 0x7F800000, 0)
  | .fin s n e =>
    if n = 0 then sure (0x3F800000, 0)
    else if !s && !scaledLt n e 128 0 then sure (0x7F800000, flagOf ||| flagNx)
    else
      let y := if scaledLt n e 200 0 then scaled s n (e + fxBits) 0 else -200 * fxOne
      let k := y / fxOne
      let f := y - k * fxOne
      if f = 0 && k ≥ -149 then sure (pow2W false k, 0)
      else
        let p := max fxOne (min (2 * fxOne) (g f))
        let v := fxExact (fxExp2 f) k
        sfuPut (fxVal p k) v (ulpExp v) false

/-- LOG2: e + P(m). -/
def log2By (g : Int → Int) (x : Word) : Sfu :=
  match fval x with
  | .nan sig => sure (nanOf sig)
  | .inf s => sure (if s then nanOf true else (0x7F800000, 0))
  | .fin s n e =>
    if n = 0 then sure (0xFF800000, flagDz)
    else if s then sure (nanOf true)
    else match powOf n e with
      | some k => sure (BitVec.ofNat 32 (f32.round 0 0 true (exactOf (k < 0) k.natAbs 0)).1, 0)
      | none =>
        let v := fxExact (fxLog2 n e) 0
        let top := (n.log2 : Int) + e
        sfuPut (fxVal (top * fxOne + g (mantFx n)) 0) v (if top = -1 || top = 0 then -23 else ulpExp v) false

/-- RCP: 2^(-e) · P(m). -/
def rcpBy (g : Int → Int) (x : Word) : Sfu :=
  match fval x with
  | .nan sig => sure (nanOf sig)
  | .inf s => sure (zeroOf s, 0)
  | .fin s n e =>
    if n = 0 then sure (infOf s, flagDz)
    else match powOf n e with
      | some k => sure (if k ≤ -128 then (infOf s, flagOf ||| flagNx) else (pow2W s (-k), 0))
      | none =>
        let v := Exact.quot s 1 n (-e)
        if (f32.round 0 0 true v).1 % 2 ^ 31 = 0x7F800000 then sure (infOf s, flagOf ||| flagNx)
        else sfuPut ((fxVal (g (mantFx n)) (-(n.log2 : Int) - e)).signed s) v (ulpExp v) false

/-- A number as 4^h · m with 1 ≤ m < 4: m as a fixed-point value, and h. -/
def quadOf (n : Nat) (e : Int) : Int × Int :=
  let h := ((n.log2 : Int) + e) / 2
  (fxOf n (e - 2 * h), h)

/-- The half of an even exponent. -/
def evenRoot (n : Nat) (e : Int) : Nat × Int := if e % 2 = 0 then (n, e / 2) else (2 * n, (e - 1) / 2)

/-- RSQ: 2^(-h) · P(m). -/
def rsqBy (g : Int → Int) (x : Word) : Sfu :=
  match fval x with
  | .nan sig => sure (nanOf sig)
  | .inf s => sure (if s then nanOf true else (0, 0))
  | .fin s n e =>
    if n = 0 then sure (infOf s, flagDz)
    else if s then sure (nanOf true)
    else
      let r := evenRoot n e
      let v := { Exact.root false (2 ^ 400 / r.1) (-200 - r.2) with sticky := true }
      let m := quadOf n e
      if m.1 = fxOne then sure (pow2W false (-m.2), 0) else sfuPut (fxVal (g m.1) (-m.2)) v (ulpExp v) false

/-- SQRT: 2^h · P(m); an exact root raises no flag. -/
def sqrtBy (g : Int → Int) (x : Word) : Sfu :=
  match fval x with
  | .nan sig => sure (nanOf sig)
  | .inf s => sure (if s then nanOf true else (0x7F800000, 0))
  | .fin s n e =>
    if n = 0 then sure (zeroOf s, 0)
    else if s then sure (nanOf true)
    else
      let r := evenRoot n e
      let v := Exact.root false r.1 r.2
      let m := quadOf n e
      if m.1 = fxOne then sure (pow2W false m.2, 0)
      else
        let y := sfuPut (fxVal (g m.1) m.2) v (ulpExp v) false
        if !v.sticky && y.1.1 = nearest v && (f32.round 0 0 true v).2 = 0 then ((y.1.1, 0), y.2) else y

/-- SIN and COS of a turn, folded into u in [0, 1/4]: `fn` 5 or 6. A zero at an odd multiple of half a turn is +0, as the others are
(DESIGN CHOICE, log 116). -/
def sinCosBy (fn : Nat) (g : Int → Int) (x : Word) : Sfu :=
  match fval x with
  | .nan sig => sure (nanOf sig)
  | .inf _ => sure (nanOf true)
  | .fin s n e =>
    if n = 0 then sure (if fn = 5 then zeroOf s else 0x3F800000, 0)
    else
      let t := scaled s n (e + fxBits) 0 % fxOne
      let u := if fn = 5 then t else (t + fxOne / 4) % fxOne
      if 4 * u % fxOne = 0 then
        let q := 4 * u / fxOne
        sure (if q = 1 then 0x3F800000 else if q = 3 then 0xBF800000 else 0, 0)
      else
        let v := fxExact (fxSin u) 0
        let a := min t (fxOne - t)
        if 256 * u % fxOne = 0 then sure (inexactOf (nearest v))
        else sfuPut ((fxVal (g (min a (fxOne / 2 - a))) 0).signed v.neg) v (-23) true

/-- TANH: P(|x|), with the sign of x. -/
def tanhBy (g : Int → Int) (x : Word) : Sfu :=
  match fval x with
  | .nan sig => sure (nanOf sig)
  | .inf s => sure (oneOf s, 0)
  | .fin s n e =>
    if n = 0 then sure (zeroOf s, 0)
    else if scaledLt n e 1 (-12) then sure (inexactOf x)
    else if !scaledLt n e 9 0 then sure (inexactOf (oneOf s))
    else
      let v := (tanhOf (fxOf n e)).signed s
      sfuPut ((fxVal (g (fxOf n e)) 0).signed s) v (ulpExp v + 1) true

/-- SIGM: P(x). -/
def sigmBy (g : Int → Int) (x : Word) : Sfu :=
  match fval x with
  | .nan sig => sure (nanOf sig)
  | .inf s => sure (if s then 0 else 0x3F800000, 0)
  | .fin s n e =>
    if n = 0 then sure (0x3F000000, 0)
    else if s && scaledLt 104 0 n e then sure (0, flagUf ||| flagNx)
    else if !s && scaledLt 17 0 n e then sure (inexactOf 0x3F800000)
    else
      let y := scaled s n (e + fxBits) 0
      let v := sigmOf y
      sfuPut (fxVal (g y) 0) v (ulpExp v + 1) true

/-- ERF: P(|x|), with the sign of x. -/
def erfBy (g : Int → Int) (x : Word) : Sfu :=
  match fval x with
  | .nan sig => sure (nanOf sig)
  | .inf s => sure (oneOf s, 0)
  | .fin s n e =>
    if n = 0 then sure (zeroOf s, 0)
    else if scaledLt n e 1 (-12) then
      sure (inexactOf (BitVec.ofNat 32 (f32.finish 0 0 true (mulRaw 0 (fval x) (fval 0x3F906EBB))).1))
    else if !scaledLt n e 4 0 then sure (inexactOf (oneOf s))
    else
      let v := (fxExact (fxErf (fxOf n e)) 0).signed s
      sfuPut ((fxVal (g (fxOf n e)) 0).signed s) v (ulpExp v + 1) true

/-- The functions with their polynomials (R130, R131). -/
def exp2W (x : Word) : Word × Word := (exp2By (sfuOf 0 fxExp2 exp2By) x).1
def log2W (x : Word) : Word × Word := (log2By (sfuOf 1 (fun m => fxLog2 m.toNat (-(fxBits : Int))) log2By) x).1
def rcpW (x : Word) : Word × Word := (rcpBy (sfuOf 2 (fun m => fxOne * fxOne / m) rcpBy) x).1
def rsqW (x : Word) : Word × Word := (rsqBy (sfuOf 3 (fun m => (isqrt (fxOne * fxOne * fxOne / m).toNat : Nat)) rsqBy) x).1
def sqrtW (x : Word) : Word × Word := (sqrtBy (sfuOf 4 (fun m => (isqrt (m * fxOne).toNat : Nat)) sqrtBy) x).1
def sinCosW (fn : Nat) (x : Word) : Word × Word :=
  (sinCosBy fn (sfuOf fn (fun u => fxSinTurn (if fn = 5 then u else fxOne / 4 - u)) (sinCosBy fn)) x).1
def tanhW (x : Word) : Word × Word := (tanhBy (sfuOf 7 (fun y => (tanhOf y).fx) tanhBy) x).1
def sigmW (x : Word) : Word × Word := (sigmBy (sfuOf 8 (fun y => (sigmOf y).fx) sigmBy) x).1
def erfW (x : Word) : Word × Word := (erfBy (sfuOf 9 fxErf erfBy) x).1

/-! ## Composed functions (R136, R137) -/

/-- Rounded F32 operations, with their flags. -/
def fmulW (a b : Word) : Word × Word := let r := f32.finish 0 0 true (mulRaw 0 (fval a) (fval b)); (BitVec.ofNat 32 r.1, r.2)
def faddW (a b : Word) : Word × Word := let r := f32.finish 0 0 true (addVal 0 (fval a) (fval b)); (BitVec.ofNat 32 r.1, r.2)
def fsubW (a b : Word) : Word × Word := let r := f32.finish 0 0 true (subRaw 0 (fval a) (fval b)); (BitVec.ofNat 32 r.1, r.2)
def ffmaW (a b c : Word) : Word × Word := let r := f32.finish 0 0 true (fmaVal 0 (fval a) (fval b) (fval c)); (BitVec.ofNat 32 r.1, r.2)

/-- The special values that take precedence in GELU and SILU (R134). -/
def gluSpecial (x : Word) : Option (Word × Word) :=
  match fval x with
  | .nan sig => some (nanOf sig)
  | .inf s => some (if s then 0x80000000 else 0x7F800000, 0)
  | .fin s n _ => if n = 0 then some (zeroOf s, 0) else none

/-- SILU. -/
def siluW (x : Word) : Word × Word :=
  match gluSpecial x with
  | some r => r
  | none =>
    let g := sigmW x
    let r := fmulW x g.1
    (r.1, g.2 ||| r.2)

/-- GELU. -/
def geluW (x : Word) : Word × Word :=
  match gluSpecial x with
  | some r => r
  | none =>
    let a := fmulW x 0x3F3504F3
    let b := erfW a.1
    let p := ffmaW 0x3F000000 b.1 0x3F000000
    let r := fmulW x p.1
    (r.1, a.2 ||| b.2 ||| p.2 ||| r.2)

/-- RELU. -/
def reluW (y : Word) : Word × Word :=
  match fval y with
  | .nan _ => (0x7FC00000, 0)
  | v => (if !v.neg && !v.isZero then y else 0, 0)

/-- The activation that FACT's MOD names. -/
def actW (act : Nat) (y : Word) : Word × Word :=
  if act = 0 then (y, 0) else if act = 1 then reluW y else if act = 2 then geluW y else if act = 3 then siluW y
  else if act = 4 then tanhW y else sigmW y

/-- A function of one F32 operand as a vector operation. -/
def fn1 (f : Word → Word × Word) (l : List DWord) : DWord × Word := let r := f (l.headD 0).lo; (r.1.setWidth 64, r.2)

/-- EXP2 (R133). -/
def execExp2 (m : Main) (s : State) : Answer := vec1 (Instr.exp2 m).shape 14 false false (fn1 exp2W) m s
/-- LOG2 (R133). -/
def execLog2 (m : Main) (s : State) : Answer := vec1 (Instr.log2 m).shape 14 false false (fn1 log2W) m s
/-- RCP (R133). -/
def execRcp (m : Main) (s : State) : Answer := vec1 (Instr.rcp m).shape 14 false false (fn1 rcpW) m s
/-- RSQ (R133). -/
def execRsq (m : Main) (s : State) : Answer := vec1 (Instr.rsq m).shape 14 false false (fn1 rsqW) m s
/-- SQRT (R133). -/
def execSqrt (m : Main) (s : State) : Answer := vec1 (Instr.sqrt m).shape 14 false false (fn1 sqrtW) m s
/-- SIN (R133). -/
def execSin (m : Main) (s : State) : Answer := vec1 (Instr.sinOp m).shape 14 false false (fn1 (sinCosW 5)) m s
/-- COS (R133). -/
def execCos (m : Main) (s : State) : Answer := vec1 (Instr.cosOp m).shape 14 false false (fn1 (sinCosW 6)) m s
/-- TANH (R133). -/
def execTanh (m : Main) (s : State) : Answer := vec1 (Instr.tanh m).shape 16 false false (fn1 tanhW) m s
/-- SIGM (R133). -/
def execSigm (m : Main) (s : State) : Answer := vec1 (Instr.sigm m).shape 16 false false (fn1 sigmW) m s
/-- ERF (R133). -/
def execErf (m : Main) (s : State) : Answer := vec1 (Instr.erf m).shape 16 false false (fn1 erfW) m s
/-- GELU (R136). -/
def execGelu (m : Main) (s : State) : Answer := vec1 (Instr.gelu m).shape 22 false false (fn1 geluW) m s
/-- SILU (R136). -/
def execSilu (m : Main) (s : State) : Answer := vec1 (Instr.silu m).shape 22 false false (fn1 siluW) m s

/-- The affine step and the activation (R137). -/
def factOp (act : Nat) : List DWord → DWord × Word
  | a :: b :: c :: _ =>
    let y := ffmaW a.lo b.lo c.lo
    let r := actW act y.1
    (r.1.setWidth 64, y.2 ||| r.2)
  | _ => (0, 0)

/-- FACT (R137). -/
def execFact (m : Main) (s : State) : Answer :=
  vec3 (Instr.fact m).shape (if m.mod ≤ 1 then 8 else if m.mod ≤ 3 then 28 else 22) false (factOp m.mod) m s

end Sys2Proof.Machine
end

