-- ==== Sys2Proof/Machine/Rows.lean ====
section
/-! DEFINITION. What row instructions compute (05_special.md R138 to R146), as functions of the elements of a row. -/

namespace Sys2Proof.Machine

/-! ## The descriptor (R138) -/

/-- GSEL. -/
def rowGsel (d : Word) : Nat := d.toNat % 8
/-- c, the number of elements per fibre. -/
def rowC (d : Word) : Nat := d.toNat / 8 % 32 + 1
/-- MKIND: 0 none, 1 predicate, 2 tile mask. -/
def rowKind (d : Word) : Nat := d.toNat / 512 % 4
/-- MIDX. -/
def rowIdx (d : Word) : Nat := d.toNat / 2048 % 16
/-- KOFF. -/
def rowKoff (d : Word) : Nat := d.toNat / 65536
/-- Whether a descriptor breaks a rule of its own fields. -/
def rowBad (d : Word) : Bool := d.getLsbD 8 || d.getLsbD 15 || rowKind d = 3 || (rowKind d = 2 && rowIdx d ≥ 8)

/-- Whether element j of a fibre whose execution-mask bit is set is masked (R139): its predicates and the tile mask decide. -/
def rowMasked (d : Word) (preds : BitVec 16) (mask : BitVec 128) (j : Nat) : Bool :=
  (rowKind d = 1 && !(rowIdx d = 0 || preds.getLsbD (rowIdx d)))
  || (rowKind d = 2 && !(decide ((rowKoff d + j) / 64 < 128) && mask.getLsbD ((rowKoff d + j) / 64)))

/-! ## Sums (R140) -/

/-- A row: its elements in order, none where masked. -/
abbrev Row := List (Option Word)

/-- The unmasked elements. -/
def Row.live (r : Row) : List Word := r.filterMap id

/-- One level of the tree: neighbours added. -/
def pairSums : List Word → List Word × Word
  | a :: b :: r =>
    let x := faddW a b
    let y := pairSums r
    (x.1 :: y.1, x.2 ||| y.2)
  | _ => ([], 0)

/-- The tree of sums, level by level. -/
def treeSum : Nat → List Word → Word × Word
  | 0, l => (l.headD 0, 0)
  | k + 1, l =>
    let x := pairSums l
    let y := treeSum k x.1
    (y.1, x.2 ||| y.2)

/-- The least k with 2^k at least n, for n up to 2^fuel. -/
def log2Up : Nat → Nat → Nat → Nat
  | 0, k, _ => k
  | fuel + 1, k, n => if n ≤ 2 ^ k then k else log2Up fuel (k + 1) n

/-- The sum of a row (R140), masked elements counting as +0. -/
def rowSum (r : Row) : Word × Word :=
  let k := log2Up 16 0 r.length
  treeSum k (r.map (fun x => x.getD 0) ++ List.replicate (2 ^ k - r.length) 0)

/-- An operation on each unmasked element, with the flags of all. -/
def rowMap (f : Word → Word × Word) : Row → Row × Word
  | [] => ([], 0)
  | none :: r => let y := rowMap f r; (none :: y.1, y.2)
  | some x :: r => let z := f x; let y := rowMap f r; (some z.1 :: y.1, z.2 ||| y.2)

/-- x / n, the exact quotient rounded once. -/
def divW (x : Word) (n : Nat) : Word × Word :=
  match fval x with
  | .nan sig => nanOf sig
  | .inf s => (infOf s, 0)
  | .fin s m e => let r := f32.round 0 0 true (Exact.quot s m n e); (BitVec.ofNat 32 r.1, r.2)

/-! ## The functions of a row -/

/-- What a row instruction writes: the whole elements of every fibre, the values that every fibre gets, and the flags. -/
structure RowOut where
  elems : List Word
  shared : List Word
  flags : Word
  deriving DecidableEq, Repr

/-- Whether an element is NaN or infinite. -/
def wild (x : Word) : Bool := match fval x with | .fin _ _ _ => false | _ => true
/-- NV for a signalling NaN among the elements. -/
def snanFlag (l : List Word) : Word := flagIf (l.any (fun x => (fval x).snan)) flagNv
/-- The canonical NaN. -/
def nanW : Word := 0x7FC00000

/-- ROWMAX (R141). A NaN result is the canonical NaN, also that of a single element, and a signalling one raises NV (04_floating.md R105). -/
def rowMax (abs nanOut : Bool) (r : Row) : RowOut :=
  let mag (x : Word) : Word := if abs then x &&& 0x7FFFFFFF else x
  match (r.live.map mag) with
  | [] => { elems := [], shared := [0xFF800000], flags := flagEmptyRow }
  | x :: l =>
    let w := BitVec.ofNat 32 (l.foldl (fun a y => (minMax f32 true nanOut a y.toNat).1) x.toNat)
    { elems := [], shared := [if (fval w).isNan then nanW else w], flags := snanFlag (x :: l) }

/-- ROWSUM (R141). -/
def rowSumOut (r : Row) : RowOut :=
  let x := rowSum r
  if r.live.isEmpty then { elems := [], shared := [0], flags := flagEmptyRow } else { elems := [], shared := [x.1], flags := x.2 }

/-- Mean and variance of the unmasked elements (R142). -/
def rowStat (r : Row) : Word × Word × Word :=
  match r.live with
  | [] => (0, 0, flagEmptyRow)
  | pilot :: l =>
    if (pilot :: l).any wild then (nanW, nanW, snanFlag (pilot :: l))
    else
      let n := (pilot :: l).length
      let d := rowMap (fun x => fsubW x pilot) r
      let q := rowMap (fun x => fmulW x x) d.1
      let s1 := rowSum d.1
      let s2 := rowSum q.1
      let m1 := divW s1.1 n
      let mean := faddW pilot m1.1
      let a := divW s2.1 n
      let b := fmulW m1.1 m1.1
      let v := fsubW a.1 b.1
      let v0 := if (fval v.1).lt (fval 0) then 0 else v.1
      (mean.1, v0, d.2 ||| q.2 ||| s1.2 ||| s2.2 ||| m1.2 ||| mean.2 ||| a.2 ||| b.2 ||| v.2)

/-- ROWSTAT (R142). -/
def rowStatOut (r : Row) : RowOut :=
  let x := rowStat r
  { elems := [], shared := [x.1, x.2.1], flags := x.2.2 }

/-- The written elements of a normalisation: masked ones +0. -/
def rowFill (r : Row) : List Word := r.map (fun x => x.getD 0)

/-- ROWNORM (R143): every step raises its flags, also where the elements that are written are NaN in the end. -/
def rowNormOut (rms : Bool) (eps : Word) (r : Row) : RowOut :=
  let l := r.live
  let out (k : Word) (y : Row) (fl : Word) : RowOut :=
    { elems := if l.any wild || (fval k).isNan then r.map (fun _ => nanW) else rowFill y, shared := [], flags := fl }
  if l.isEmpty then { elems := rowFill r, shared := [], flags := flagEmptyRow }
  else if rms then
    let q := rowMap (fun x => fmulW x x) r
    let s := rowSum q.1
    let ms := divW s.1 l.length
    let e := faddW ms.1 eps
    let k := rsqW e.1
    let y := rowMap (fun x => fmulW x k.1) r
    out k.1 y.1 (q.2 ||| s.2 ||| ms.2 ||| e.2 ||| k.2 ||| y.2)
  else
    let st := rowStat r
    let e := faddW st.2.1 eps
    let k := rsqW e.1
    let c := rowMap (fun x => fsubW x st.1) r
    let y := rowMap (fun x => fmulW x k.1) c.1
    out k.1 y.1 (st.2.2 ||| e.2 ||| k.2 ||| c.2 ||| y.2)

/-- The stages of a base-2 softmax (R144): the probabilities where they are formed, M, S, flags. `form` says whether they are. -/
def softmax (k : Word) (form : Bool) (r : Row) : List Word × Word × Word × Word :=
  let y := rowMap (fun x => fmulW x k) r
  let u : Row := y.1.map (fun x => match x with | some z => if z = 0xFF800000 then none else some z | none => none)
  let zeros := r.map (fun _ => (0 : Word))
  if u.live.isEmpty then (zeros, 0xFF800000, 0, y.2 ||| flagEmptyRow)
  else if u.live.any (fun x => (fval x).isNan) then (r.map (fun _ => nanW), nanW, nanW, y.2)
  else
    let q := (u.live.filter (fun x => x = 0x7F800000)).length
    if q > 0 then
      let p := divW 0x3F800000 q
      let n := f32.round 0 0 true (exactOf false q 0)
      (u.map (fun x => if x = some 0x7F800000 then p.1 else 0), 0x7F800000, BitVec.ofNat 32 n.1, y.2 ||| (if form then p.2 else 0))
    else
      let m := (rowMax false false u).shared.headD 0
      let d := rowMap (fun x => fsubW x m) u
      let e := rowMap exp2W d.1
      let s := rowSum e.1
      let w := rcpW s.1
      let p := rowMap (fun x => fmulW x w.1) e.1
      let fl := y.2 ||| d.2 ||| e.2 ||| s.2
      (rowFill p.1, m, s.1, if form then fl ||| w.2 ||| p.2 else fl)

/-- SMAXR (R144). -/
def smaxOut (k : Word) (r : Row) : RowOut :=
  let x := softmax k true r
  { elems := x.1, shared := [x.2.1, x.2.2.1], flags := x.2.2.2 }

/-- LSE (R145). An empty row and a row with an infinite entry raise no flag of LOG2(S) (DESIGN CHOICE, log 118). -/
def lseOut (r : Row) : RowOut :=
  let x := softmax 0x3F800000 false r
  let m := x.2.1
  if m = 0xFF800000 || m = 0x7F800000 then { elems := [], shared := [m], flags := x.2.2.2 }
  else if (fval m).isNan then { elems := [], shared := [nanW], flags := x.2.2.2 }
  else
    let l := log2W x.2.2.1
    let a := faddW m l.1
    { elems := [], shared := [a.1], flags := x.2.2.2 ||| l.2 ||| a.2 }

end Sys2Proof.Machine
end

