-- ==== Sys2Proof/Machine/Collectives.lean ====
section
/-! DEFINITION. Groups and collectives (06_control.md R164 to R176; 05_special.md R138 to R146): arrival, completion and what each collective
gives its members (log 15). -/

namespace Sys2Proof.Machine

/-! ## Groups (06_control.md R164, R165) -/

/-- VALID of a group register. -/
def grpValid (g : Word) : Bool := g.getLsbD 31
/-- S, the group size. -/
def grpSize (g : Word) : Nat := 4 * 2 ^ (g.toNat / 2 ^ 29 % 4)
/-- COUNT. -/
def grpCount (g : Word) : Nat := g.toNat / 2 ^ 10 % 2048
/-- FIRST. -/
def grpFirst (g : Word) : Nat := g.toNat % 1024
/-- Whether a fibre index lies in the range. -/
def grpHas (g : Word) (f : Nat) : Bool := grpFirst g ≤ f && f < grpFirst g + grpCount g
/-- The number of a fibre's group. -/
def grpOf (g : Word) (f : Nat) : Nat := (f - grpFirst g) / grpSize g
/-- The first fibre index of group k. -/
def grpBase (g : Word) (k : Nat) : Nat := grpFirst g + k * grpSize g
/-- Whether a fibre belongs to group k. -/
def grpMember (g : Word) (k f : Nat) : Bool := grpHas g f && grpOf g f = k
/-- The live members of group k (R164). -/
def Coil.grpLive (c : Coil) (g : Word) (k : Nat) : List Nat := c.live.filter (grpMember g k)

/-- PART (R165). -/
def execPart (m : Main) (s : State) : Answer :=
  issue ((Info.of (Instr.part m).shape m 4).mute.impureIf true) (fun x =>
    let size := m.imm % 4
    let range := m.imm / 4 % 2 = 1
    let sb := x.src.getS m.b.toNat
    let first := if range then sb.toNat % 65536 else 0
    let count := if range then sb.toNat / 65536 else 1024
    if size = 3 then .ok { x with c := { x.c with g := x.c.g.set m.d.toNat 0 } }
    else if first % (4 * 2 ^ size) ≠ 0 || count = 0 || first + count > 1024 then
      .trap { Trap.of 0x200 with count := x.mask.length } x
    else
      .ok { x with c := { x.c with g := x.c.g.set m.d.toNat (BitVec.ofNat 32 (2 ^ 31 + size * 2 ^ 29 + count * 2 ^ 10 + first)) } }) s

/-! ## What a collective gives -/

/-- The contributing members of a group by lane index (R167). -/
abbrev Lanes := List (Option Arrival)

/-- What a member gets: V registers, predicates, flags. -/
structure Gift where
  v : List (Nat × Word)
  p : List (Nat × Bool)
  flags : Word
  deriving DecidableEq, Repr

/-- A gift of V registers, of a predicate, of nothing. -/
def Gift.ofV (l : List (Nat × Word)) : Gift := { v := l, p := [], flags := 0 }
def Gift.ofP (n : Nat) (b : Bool) : Gift := { v := [], p := [(n, b)], flags := 0 }
def Gift.none : Gift := { v := [], p := [], flags := 0 }

/-- Value k of a member, 0 where it does not contribute (R167). -/
def Lanes.val (l : Lanes) (i k : Nat) : Word := match l.getD i none with | some a => a.vals.getD k 0 | none => 0
/-- A predicate of a member. -/
def Arrival.pred (a : Arrival) (n : Nat) : Bool := n = 0 || a.preds.getLsbD n
/-- The contributing members. -/
def Lanes.live (l : Lanes) : List Arrival := l.filterMap id

/-- A word with a bit for each lane that satisfies a condition. -/
def laneBits (l : Lanes) (f : Arrival → Bool) : Word :=
  BitVec.ofNat 32 (l.zipIdx.foldl (fun a p => match p.1 with | some x => if f x then a + 2 ^ p.2 else a | none => a) 0)

/-- VOTE (R170). -/
def voteGift (m : Main) (l : Lanes) (_ : Nat) (_ : Arrival) : Gift :=
  let b := l.live.map (fun a => a.pred m.a.toNat)
  Gift.ofP m.d.toNat (if m.mod = 0 then b.all id else if m.mod = 1 then b.any id else b.all id || !b.any id)
/-- BALLOT (R170). -/
def ballotGift (m : Main) (l : Lanes) (_ : Nat) (_ : Arrival) : Gift :=
  Gift.ofV [(m.d.toNat, laneBits l (fun a => a.pred m.a.toNat))]
/-- MATCH (R170). -/
def matchGift (m : Main) (l : Lanes) (_ : Nat) (own : Arrival) : Gift :=
  Gift.ofV [(m.d.toNat, laneBits l (fun a => a.vals = own.vals))]
/-- ELECT (R170). -/
def electGift (m : Main) (l : Lanes) (lane : Nat) (_ : Arrival) : Gift :=
  Gift.ofP m.d.toNat (!(l.take lane).any Option.isSome)

/-- The source lane of SHFL (R171). -/
def shflLane (mode lane k : Nat) : Int :=
  if mode = 0 then k else if mode = 1 then (lane : Int) - k else if mode = 2 then (lane : Int) + k else ((lane ^^^ k : Nat) : Int)
/-- SHFL (R171). -/
def shflGift (m : Main) (l : Lanes) (lane : Nat) (own : Arrival) : Gift :=
  let k := if m.b.getLsbD 3 then (own.vals.getD 1 0).toNat else m.b.toNat / 16
  let j := shflLane m.mod lane k
  Gift.ofV [(m.d.toNat, if 0 ≤ j && j < l.length then l.val j.toNat 0 else own.vals.getD 0 0)]
/-- BCAST (R172). -/
def bcastGift (m : Main) (l : Lanes) (_ : Nat) (own : Arrival) : Gift :=
  let k := m.b.toNat / 16
  let get (i : Nat) : Word := if k ≥ l.length then own.vals.getD i 0 else l.val k i
  Gift.ofV ((List.range (if m.mod = 1 then 2 else 1)).map (fun i => (m.d.toNat + i, get i)))

/-- A row of elements as integers, `half` for 16-bit ones (R173). -/
def slideRow (l : Lanes) (half : Bool) (k : Nat) : List Nat :=
  (List.range l.length).flatMap (fun i =>
    let w := (l.val i k).toNat
    if half then [w % 65536, w / 65536] else [w])
/-- Element h of a slid row (R173). -/
def slideAt (x y : List Nat) (mode : Nat) (down : Bool) (n h : Nat) : Nat :=
  let e := x.length
  let j : Int := if down then (h : Int) + n else (h : Int) - n
  if 0 ≤ j && j < e then x.getD j.toNat 0
  else if mode = 0 then y.getD (if down then j - e else j + e).toNat 0
  else if mode = 1 then 0
  else if down then x.getD (e - 1) 0 else x.getD 0 0
/-- SLIDE (R173). Its descriptor is that of the first contributing member to arrive. -/
def slideGift (m : Main) (desc : Word) (l : Lanes) (lane : Nat) (_ : Arrival) : Gift :=
  let half := m.mod / 4 = 1
  let x := slideRow l half 1
  let y := slideRow l half 2
  let n := min (desc.toNat / 16 % 32) x.length
  let at_ (h : Nat) : Nat := slideAt x y (m.mod % 4) (desc.getLsbD 3) n h
  Gift.ofV [(m.d.toNat, BitVec.ofNat 32 (if half then at_ (2 * lane) + 65536 * at_ (2 * lane + 1) else at_ lane))]

/-- The operations of GRED and SCAN (R175). -/
def redOp (op : Nat) (a b : Word) : Word × Word :=
  match op with
  | 0 => (a + b, 0)
  | 1 => faddW a b
  | 2 => (if a.toInt ≤ b.toInt then a else b, 0)
  | 3 => (if a.toInt ≤ b.toInt then b else a, 0)
  | 4 => (if a.toNat ≤ b.toNat then a else b, 0)
  | 5 => (if a.toNat ≤ b.toNat then b else a, 0)
  | 6 => let r := minMax f32 false false a.toNat b.toNat; (BitVec.ofNat 32 r.1, r.2)
  | 7 => let r := minMax f32 true false a.toNat b.toNat; (BitVec.ofNat 32 r.1, r.2)
  | 8 => (a &&& b, 0)
  | 9 => (a ||| b, 0)
  | _ => (a ^^^ b, 0)
/-- Their identities (R175). -/
def redId (op : Nat) : Word :=
  [0, 0x80000000, 0x7FFFFFFF, 0x80000000, 0xFFFFFFFF, 0, 0x7F800000, 0xFF800000, 0xFFFFFFFF].getD op 0
/-- The contributions, with identities for the others. -/
def redVals (op : Nat) (l : Lanes) : List Word := l.map (fun a => match a with | some a => a.vals.getD 0 0 | none => redId op)

/-- One level of the tree of R175. -/
def redPairs (op : Nat) : List Word → List Word × Word
  | a :: b :: r => let x := redOp op a b; let y := redPairs op r; (x.1 :: y.1, x.2 ||| y.2)
  | _ => ([], 0)
/-- The tree of R175. -/
def redTree (op : Nat) : Nat → List Word → Word × Word
  | 0, l => (l.headD 0, 0)
  | k + 1, l => let x := redPairs op l; let y := redTree op k x.1; (y.1, x.2 ||| y.2)
/-- GRED (R175). -/
def gredGift (m : Main) (l : Lanes) (_ : Nat) (_ : Arrival) : Gift :=
  let op := m.b.toNat / 8 % 16
  let r := redTree op (log2Up 5 0 l.length) (redVals op l)
  { Gift.ofV [(m.d.toNat, r.1)] with flags := r.2 }

/-- The prefixes of R174, from lane to lane. -/
def scanFrom (op : Nat) (exc : Bool) (head : Arrival → Bool) : Bool → Word → Lanes → List Word × Word
  | _, _, [] => ([], 0)
  | first, acc, a :: r =>
    let x := match a with | some a => a.vals.getD 0 0 | none => redId op
    let acc := if first || (match a with | some a => head a | none => false) then redId op else acc
    let n := redOp op acc x
    let y := scanFrom op exc head false n.1 r
    ((if exc then acc else n.1) :: y.1, n.2 ||| y.2)
/-- SCAN (R174). -/
def scanGift (m : Main) (l : Lanes) (lane : Nat) (_ : Arrival) : Gift :=
  let seg := m.b.getLsbD 7
  let r := scanFrom (m.b.toNat / 8 % 8) (m.b.getLsbD 6) (fun a => seg && a.pred m.mod) true 0 l
  { Gift.ofV [(m.d.toNat, r.1.getD lane 0)] with flags := r.2 }

/-! ## Rows (05_special.md R138, R139) -/

/-- A row as its members contribute it: c elements of each lane, masked where the lane does not contribute or a mask says so. -/
def rowOf (d : Word) (mask : BitVec 128) (l : Lanes) : Row :=
  l.zipIdx.flatMap (fun p => (List.range (rowC d)).map (fun i =>
    match p.1 with
    | none => none
    | some a => if rowMasked d a.preds mask (rowC d * p.2 + i) then none else some (a.vals.getD (6 + i) 0)))

/-- The mask register that a member captured. -/
def rowMaskOf (a : Arrival) : BitVec 128 :=
  BitVec.ofNat 128 ((List.range 4).foldl (fun n k => n + (a.vals.getD (2 + k) 0).toNat * 2 ^ (32 * k)) 0)

/-- What a row instruction gives a lane: its elements, then the shared values. The descriptor, the auxiliary value and the mask register are those
that the first contributing member captured, where sB has changed between the arrivals of a group's plaits (DESIGN CHOICE, log 111). -/
def rowGift (m : Main) (f : Word → Row → RowOut) (lead : Arrival) (l : Lanes) (lane : Nat) (_ : Arrival) : Gift :=
  let d := lead.vals.getD 0 0
  let o := f (lead.vals.getD 1 0) (rowOf d (rowMaskOf lead) l)
  let w := (o.elems.drop (rowC d * lane)).take (rowC d) ++ o.shared
  { Gift.ofV (w.zipIdx.map (fun p => (m.d.toNat + p.2, p.1))) with flags := o.flags }

/-- What a collective gives each contributing member. `lead` is the first of them to arrive. -/
def giftOf (i : Instr) (lead : Arrival) (l : Lanes) : Nat → Arrival → Gift :=
  match i with
  | .vote m => voteGift m l
  | .ballot m => ballotGift m l
  | .matchOp m => matchGift m l
  | .elect m => electGift m l
  | .shfl m => shflGift m l
  | .bcast m => bcastGift m l
  | .slide m => slideGift m (lead.vals.getD 0 0) l
  | .scan m => scanGift m l
  | .gred m => gredGift m l
  | .rowmax m => rowGift m (fun _ => rowMax (m.mod ≥ 2) (m.mod % 2 = 1)) lead l
  | .rowsum m => rowGift m (fun _ => rowSumOut) lead l
  | .rowstat m => rowGift m (fun _ => rowStatOut) lead l
  | .rownorm m => rowGift m (rowNormOut (m.mod = 1)) lead l
  | .smaxr m => rowGift m smaxOut lead l
  | .lse m => rowGift m (fun _ => lseOut) lead l
  | _ => fun _ _ => Gift.none

/-- log2 of a group size. -/
def logSize (n : Nat) : Nat := log2Up 5 0 n

/-- The latency of a collective for groups of S and the leader's descriptor (05_special.md R128; 06_control.md R169). -/
def collLatency (i : Instr) (S : Nat) (desc : Word) : Nat :=
  let lg := logSize S
  let c := rowC desc
  let float (m : Main) (k : Nat) : Bool := let op := m.b.toNat / 8 % k; op = 1 || op = 6 || op = 7
  match i with
  | .vote _ => 6
  | .ballot _ => 6
  | .elect _ => 6
  | .gsync _ => 6
  | .gred m => if float m 16 then 6 + 6 * lg else 6 + 2 * lg
  | .scan m => if float m 8 then 8 + 6 * S else 6 + 2 * lg
  | .rowmax _ => 10 + 2 * c + 4 * lg
  | .rowsum _ => 10 + 2 * c + 4 * lg
  | .rowstat _ => 20 + 4 * c + 8 * lg
  | .rownorm _ => 36 + 6 * c + 8 * lg
  | .smaxr _ => 34 + 10 * c + 8 * lg
  | .lse _ => 34 + 8 * c + 8 * lg
  | _ => 8

/-! ## Completion (R166, R167, R169) -/

/-- The instruction of an instance: its fields. -/
def Inst.main (i : Inst) : Main :=
  match i.instr.form with
  | .main _ m => m
  | _ => { dist := 0, wait := 0, gsel := 0, gneg := 0, d := 0, a := 0, b := 0, x := 0, lit := none }

/-- The contributing members by lane. -/
def Inst.lanes (i : Inst) : Lanes :=
  (List.range (grpSize i.gval)).map (fun l => i.members.find? (fun a => a.contrib && a.fibre = grpBase i.gval i.group + l))

/-- A member after completion: its gift, and the pending writes with its flag. -/
def Fibre.receive (f : Fibre) (i : Inst) (g : Gift) (contrib : Bool) (lat : Nat) : Fibre :=
  let m := i.main
  let setf := i.instr.shape.flag m
  let pend : List Pend := if contrib then
      g.v.map (fun w => { cls := .v, reg := w.1, old := .bits ((f.getV w.1).setWidth 256), flag := setf, left := some lat, known := true })
      ++ g.p.filterMap (fun w => if w.1 = 0 then none else
          some { cls := .p, reg := w.1, old := .bits (if f.getP w.1 then 1 else 0), flag := setf, left := some lat, known := true })
    else []
  let f' := if contrib then
      g.p.foldl (fun f w => f.setP w.1 w.2) ((g.v.foldl (fun f w => f.setV w.1 w.2) f).raise g.flags)
    else f
  let f' := { f' with pend := pend ++ f'.pend.filter (fun (e : Pend) => !pend.any (fun q => q.cls = e.cls && q.reg = e.reg)) }
  if pend.isEmpty then f'.clearFlag? setf else f'

/-- The instance at which a fibre waits. -/
def Coil.instOf (c : Coil) (f : Fibre) : Option Inst :=
  match f.status with
  | .arrived id => c.insts.find? (fun i => i.id = id)
  | _ => none

/-- A plait leaves its collective when the instances of all its fibres have completed: a collective divides no plait (R148). -/
def State.sendOn (s : State) (c : Coil) (pl : Place) : State × Coil :=
  let l := c.fibres.filter (fun f => f.place = pl && (c.instOf f).isSome)
  if l.isEmpty || l.any (fun f => (c.instOf f).any (fun i => !i.done)) then (s, c)
  else
    let go (f : Fibre) : Fibre :=
      match c.instOf f with
      | some i => { f with status := .runnable }.retire i.pc (4 * i.main.words) .fall
      | none => f
    let d := c.onFibres (l.map Fibre.idx) go
    s.split { d with insts := d.insts.filter (fun i => !i.done || d.fibres.any (fun f => f.status = .arrived i.id)) } pl

/-- Completes an instance: every member gets its results, and the plaits that wait for no other group go on. -/
def State.completeInst (s : State) (c : Coil) (i : Inst) : State × Coil :=
  let l := i.lanes
  let lead := (i.members.find? Arrival.contrib).getD { fibre := 0, contrib := false, vals := [], preds := 0 }
  let gift := giftOf i.instr lead l
  let lat := collLatency i.instr (grpSize i.gval) (lead.vals.getD 0 0)
  let fibres := c.fibres.map (fun f =>
    match i.members.find? (fun a => a.fibre = f.idx) with
    | none => f
    | some a => f.receive i (if a.contrib then gift (f.idx - grpBase i.gval i.group) a else Gift.none) a.contrib lat)
  let c' := { c with fibres := fibres, insts := c.insts.map (fun (j : Inst) => if j.id = i.id then { j with done := true } else j) }
  let c' := match i.instr with
    | .gsync m => if m.mod = 1 then c'.sees (i.members.map (fun (a : Arrival) => a.fibre)) else c'
    | _ => c'
  let places := ((c.fibres.filter (fun f => i.members.any (fun a => a.fibre = f.idx))).map Fibre.place).eraseDups
  places.foldl (fun p pl => p.1.sendOn p.2 pl) (s, c')

/-- Whether every live member of an instance's group has arrived. -/
def Coil.instDone (c : Coil) (i : Inst) : Bool :=
  !i.done && (c.grpLive i.gval i.group).all (fun f => i.members.any (fun a => a.fibre = f))

/-- Completes each instance of a list that is complete. -/
def State.settleInsts (s : State) (c : Coil) : List Nat → State × Coil
  | [] => (s, c)
  | id :: r =>
    match c.insts.find? (fun i => i.id = id) with
    | some i => if c.instDone i then let p := s.completeInst c i; p.1.settleInsts p.2 r else s.settleInsts c r
    | none => s.settleInsts c r

/-! ## Mismatches (R168) -/

/-- The member of lowest lane of an instance's group, with its PC, when every live member has arrived on its register, but not all at one PC. -/
def Coil.mismatchAt (c : Coil) (i : Inst) : Option (Nat × BitVec 64) :=
  let live := c.grpLive i.gval i.group
  let at_ (f : Nat) : Option Inst := c.insts.find? (fun j => !j.done && j.greg = i.greg && j.members.any (fun a => a.fibre = f))
  let l := live.map at_
  let there := l.filterMap (fun j => j)
  if !i.done && l.all Option.isSome && there.any (fun j => j.pc ≠ i.pc) then live.head?.map (fun f => (f, ((at_ f).getD i).pc)) else none

/-- The first mismatch of a coil. -/
def Coil.mismatch (c : Coil) : Option (Nat × BitVec 64) := c.insts.findSome? c.mismatchAt

/-- Kills a coil with COLLECTIVE_MISMATCH attributed to a member and its PC, whose low bits AUX holds (R168; DESIGN CHOICE, log 110). -/
def State.mismatched (s : State) (c : Coil) (at_ : Nat × BitVec 64) : State :=
  s.killWith c { s.coilRec c 0x202 0 0xFF with fibre := some at_.1, count := 1, aux := at_.2.setWidth 32 } 0x202

/-! ## Arrival (R166) -/

/-- Adds a member to the instance it belongs to, opening one when it is the first; none when its group value is not the captured one. -/
def Iss.arrive (x : Iss) (i : Instr) (greg : Nat) (g : Word) (a : Arrival) : Option Iss :=
  let here (j : Inst) : Bool := !j.done && j.pc = x.pc && j.greg = greg && grpMember j.gval j.group a.fibre
  let stand (x : Iss) (id : Nat) : Iss :=
    { x with act := x.act.filter (· ≠ a.fibre), c := x.c.onFibre a.fibre (fun f => { (f.mark x.setf) with status := .arrived id }) }
  match x.c.insts.find? here with
  | some j =>
    if j.gval ≠ g then none
    else some (stand { x with c := { x.c with insts := x.c.insts.map (fun k => if k.id = j.id then { k with members := k.members ++ [a] } else k) } } j.id)
  | none =>
    let j : Inst := { id := x.s.nextId, pc := x.pc, greg := greg, group := grpOf g a.fibre, gval := g, instr := i, members := [a], done := false }
    some (stand { x with s := { x.s with nextId := x.s.nextId + 1 }, c := { x.c with insts := x.c.insts ++ [j] } } j.id)

/-- Adds members one after another, in increasing index; or the first whose group value is not the one that its instance captured. -/
def Iss.arriveAll (x : Iss) (i : Instr) (greg : Nat) (g : Word) : List Arrival → Except Nat Iss
  | [] => .ok x
  | a :: r =>
    match x.arrive i greg g a with
    | none => .error a.fibre
    | some y => y.arriveAll i greg g r

/-- The fibres of the plait that arrive at a collective on a group register, once its checks have passed: all of them, or under an all-zero mask
those that the group holds (R166). -/
def Iss.arriving (x : Iss) (greg : Nat) : List Nat :=
  let g := x.src.g.getD greg 0
  if grpValid g then x.act.filter (fun f => grpHas g f) else []

/-- A collective issues (R166): the group checks, the arrivals of the plait's fibres, and the instances that they complete. Fibres that arrive
nowhere go on first, so that a group that completes at once does not leave them behind (R148). -/
def Iss.collect (x : Iss) (i : Instr) (greg : Nat) (vals : Fibre → List Word) : Res :=
  let g := x.src.g.getD greg 0
  let out := x.act.filter (fun f => !grpHas g f)
  if !x.mask.isEmpty && !grpValid g then .trap { Trap.of 0x200 with count := x.mask.length } x
  else if !x.mask.isEmpty && !out.isEmpty then .trap { Trap.of 0x201 with count := out.length, lanes := out } x
  else
    let arrivals := ((x.arriving greg).filterMap x.src.fibre?).map (fun f =>
      let c := x.mask.contains f.idx
      ({ fibre := f.idx, contrib := c, vals := if c then vals f else [], preds := f.p } : Arrival))
    match x.arriveAll i greg g arrivals with
    | .error f => .gone (x.s.mismatched x.c (f, x.pc))
    | .ok y =>
      match y.c.mismatch with
      | some f => .gone (y.s.mismatched y.c f)
      | none =>
        let c := y.c.onFibres y.act (fun f => f.retire x.pc (4 * x.words) .fall)
        let p := y.s.settleInsts c (c.insts.map Inst.id)
        .ok { y with s := p.1, c := p.2, act := [], setf := none }

/-- What a collective states about itself. -/
def Info.coll_ (sh : Shape) (m : Main) : Info := { (Info.of sh m 0) with coll := true, impure := true }

/-- Issues a collective. -/
def collective (i : Instr) (m : Main) (soft : List Nat) (vals : Fibre → List Word) (s : State) : Answer :=
  issue ((Info.coll_ i.shape m).readsP soft) (fun x => x.collect i (m.b.toNat % 8) vals) s

/-- VOTE (R170). -/
def execVote (m : Main) (s : State) : Answer :=
  issue (((Info.coll_ (Instr.vote m).shape m).readsP [m.a.toNat]).writesP m.d.toNat) (fun x => x.collect (.vote m) m.b.toNat (fun _ => [])) s
/-- BALLOT (R170). -/
def execBallot (m : Main) (s : State) : Answer := collective (.ballot m) m [m.a.toNat] (fun _ => []) s
/-- MATCH (R170). -/
def execMatch (m : Main) (s : State) : Answer :=
  collective (.matchOp m) m [] (fun f => f.getVs m.a.toNat (if m.mod = 1 then 2 else 1)) s
/-- ELECT (R170). -/
def execElect (m : Main) (s : State) : Answer :=
  issue ((Info.coll_ (Instr.elect m).shape m).writesP m.d.toNat) (fun x => x.collect (.elect m) m.b.toNat (fun _ => [])) s
/-- SHFL (R171): with REG the old vd is a source too. -/
def execShfl (m : Main) (s : State) : Answer :=
  let n := Info.coll_ (Instr.shfl m).shape m
  issue (if m.b.getLsbD 3 then { n with reads := n.reads ++ n.writes } else n)
    (fun x => x.collect (.shfl m) (m.b.toNat % 8) (fun f => [f.getV m.a.toNat, f.getV m.d.toNat])) s
/-- BCAST (R172). -/
def execBcast (m : Main) (s : State) : Answer :=
  collective (.bcast m) m [] (fun f => f.getVs m.a.toNat (if m.mod = 1 then 2 else 1)) s
/-- SLIDE (R173): D is a source too, and sB names the group. -/
def execSlide (m : Main) (s : State) : Answer :=
  let n := Info.coll_ (Instr.slide m).shape m
  issue { n with reads := n.reads ++ n.writes ++ [(.s, m.b.toNat)] } (fun x =>
    let d := x.src.getS m.b.toNat
    x.collect (.slide m) (d.toNat % 8) (fun f => [d, f.getV m.a.toNat, f.getV m.d.toNat])) s
/-- SCAN (R174). -/
def execScan (m : Main) (s : State) : Answer :=
  collective (.scan m) m (if m.b.getLsbD 7 then [m.mod] else []) (fun f => [f.getV m.a.toNat]) s
/-- GRED (R175). -/
def execGred (m : Main) (s : State) : Answer := collective (.gred m) m [] (fun f => [f.getV m.a.toNat]) s

/-- GSYNC (R176): GSYNC.MEM puts a fence marker of COIL scope before each member's later stores. -/
def execGsync (m : Main) (s : State) : Answer :=
  issue (Info.coll_ (Instr.gsync m).shape m) (fun x =>
    match x.collect (.gsync m) m.b.toNat (fun _ => []) with
    | .ok y =>
      let who := if m.mod = 1 then x.arriving m.b.toNat else []
      .ok { y with c := { y.c with
        stores := y.c.stores ++ who.map (fun i => { fibre := i, pc := x.pc, tgt := .hostio 0 0 false, op := .marker 1 }) } }
    | r => r) s

/-! ## Row instructions (05_special.md R138 to R146) -/

/-- The coil whose plait issues. -/
def State.issuer (s : State) : Option Coil :=
  match s.turn with
  | .plait id _ => (s.coil? id).map s.lend
  | _ => none

/-- An s register of the issuing coil, 0 where nobody issues. -/
def State.issuerS (s : State) (n : Nat) : Word := match s.issuer with | some c => c.getS n | none => 0

/-- What a row instruction states about itself for a descriptor: it consumes only the unmasked elements (R139), and writes `outs c` registers. -/
def Info.row (sh : Shape) (m : Main) (d : Word) (aux : Bool) (outs : Nat → Nat) : Info :=
  let n := Info.coll_ sh m
  { n with
    reads := (.s, m.b.toNat) :: (if aux then [(.s, m.b.toNat + 1)] else [])
    soft := n.soft ++ regsFrom .v m.a.toNat (rowC d) ++ (if rowKind d = 1 && rowIdx d ≠ 0 then [(.p, rowIdx d)] else if rowKind d = 2 then [(.m, rowIdx d)] else [])
    writes := regsFrom .v m.d.toNat (outs (rowC d)) }

/-- The elements of a fibre that a row instruction consumes. -/
def rowReads (m : Main) (d : Word) (mask : BitVec 128) (g : Word) (f : Fibre) : List (RegCls × Nat) :=
  let lane := (f.idx - grpFirst g) % grpSize g
  ((List.range (rowC d)).filter (fun i => !rowMasked d f.p mask (rowC d * lane + i))).map (fun i => (RegCls.v, m.a.toNat + i))

/-- A row instruction. Of the faults that apply at one issue a poisoned sB comes first, then ROW_DESCRIPTOR, then those of the group, then a
poisoned element; the spec gives no order (DESIGN CHOICE, log 133). -/
def rowIn (i : Instr) (m : Main) (aux : Bool) (outs : Nat → Nat) (s : State) : Answer :=
  let d := s.issuerS m.b.toNat
  issue (Info.row i.shape m d aux outs) (fun x =>
    let d := x.src.getS m.b.toNat
    let c := rowC d
    let mask := if rowKind d = 2 then x.src.m.getD (rowIdx d) 0 else 0
    if !x.mask.isEmpty && (rowBad d || m.a.toNat + c > x.c.window || m.d.toNat + outs c > x.c.window) then
      .trap { Trap.of 9 with count := x.mask.length } x
    else
      let g := x.src.g.getD (rowGsel d) 0
      let hit (f : Fibre) : Option Poison := firstPoison x.src f (rowReads m d mask g f)
      match (x.lanes.findSome? hit).map (fun k => poisonTrap k ((x.lanes.filter (fun f => (hit f).isSome)).map Fibre.idx)) with
      | some t => if grpValid g && x.act.all (fun i => grpHas g i) then .trap t x else x.collect i (rowGsel d) (fun _ => [])
      | none =>
        x.collect i (rowGsel d) (fun f =>
          [d, if aux then x.src.getS (m.b.toNat + 1) else 0]
          ++ (List.range 4).map (fun k => BitVec.ofNat 32 (mask.toNat / 2 ^ (32 * k)))
          ++ f.getVs m.a.toNat c)) s

/-- ROWMAX (R141). -/
def execRowmax (m : Main) (s : State) : Answer := rowIn (.rowmax m) m false (fun _ => 1) s
/-- ROWSUM (R141). -/
def execRowsum (m : Main) (s : State) : Answer := rowIn (.rowsum m) m false (fun _ => 1) s
/-- ROWSTAT (R142). -/
def execRowstat (m : Main) (s : State) : Answer := rowIn (.rowstat m) m false (fun _ => 2) s
/-- ROWNORM (R143). -/
def execRownorm (m : Main) (s : State) : Answer := rowIn (.rownorm m) m true (fun c => c) s
/-- SMAXR (R144). -/
def execSmaxr (m : Main) (s : State) : Answer := rowIn (.smaxr m) m true (fun c => c + 2) s
/-- LSE (R145). -/
def execLse (m : Main) (s : State) : Answer := rowIn (.lse m) m false (fun _ => 1) s

end Sys2Proof.Machine
end

