-- ==== Sys2Proof/Machine/Streams.lean ====
section
/-! DEFINITION. Stream patterns (03_integer.md R89 to R96). -/

namespace Sys2Proof.Machine

/-- A 16-bit extent, 0 meaning 65,536 (R89). -/
def smCount (w : BitVec 256) (dim : Nat) : Nat :=
  let c := (w.extractLsb' (192 + 16 * dim) 16).toNat
  if c = 0 then 65536 else c
/-- The signed stride of a dimension, LSTRIDE for 3. -/
def smStride (w : BitVec 256) (dim : Nat) : Int := (w.extractLsb' (if dim = 3 then 64 else 96 + 32 * dim) 32).toInt
/-- N, the number of elements of a walk (R90). -/
def smTotal (w : BitVec 256) : Nat := smCount w 0 * smCount w 1 * smCount w 2
/-- The offset of position k for fibre f (R90). -/
def smOffset (w : BitVec 256) (f k : Nat) : BitVec 64 :=
  let c0 := smCount w 0
  let c1 := smCount w 1
  (w.extractLsb' 0 64)
  + BitVec.ofInt 64 (smStride w 3 * f + smStride w 0 * (k % c0 : Nat) + smStride w 1 * (k / c0 % c1 : Nat) + smStride w 2 * (k / (c0 * c1) : Nat))

/-- A stream pattern register. -/
def Coil.smReg (c : Coil) (n : Nat) : BitVec 256 := c.sm.getD n 0
/-- A fibre's position in a pattern. -/
def Fibre.posOf (f : Fibre) (n : Nat) : Nat := f.pos.getD n 0
/-- Sets a fibre's position. -/
def Fibre.setPos (f : Fibre) (n k : Nat) : Fibre := { f with pos := f.pos.set n k }
/-- Moves a fibre's position on from one, raising SWRAP when it wraps (R92, R94). -/
def Fibre.advance (f : Fibre) (w : BitVec 256) (n pos by_ : Nat) : Fibre :=
  let k := pos + by_
  (f.setPos n (k % smTotal w)).raise (flagIf (k ≥ smTotal w) flagSwrap)

/-- The binding of a handle slot. -/
def Coil.binding (c : Coil) (slot : Nat) : Option Binding := c.binds.getD slot none

/-- The stream offset that a slot adds for a fibre (R92). -/
def Coil.streamOffset (c : Coil) (slot : Nat) (f : Fibre) : BitVec 64 :=
  match c.binding slot with
  | none => 0
  | some b => smOffset (c.smReg b.sm) f.idx (f.posOf b.sm)

/-- After a memory instruction through a slot bound in ADVANCE mode, every fibre of the mask advances (R92). -/
def Iss.advance (x : Iss) (slot : Nat) : Iss :=
  match x.src.binding slot with
  | some b => if b.advance then x.onMask (fun o f => f.advance (x.src.smReg b.sm) b.sm (o.posOf b.sm) 1) else x
  | none => x

/-- SMSET (R91): reserved bits 255:240 read 0. -/
def execSmset (m : Main) (s : State) : Answer :=
  issueOk (((Info.of (Instr.smset m).shape m 4).writing [(.sm, m.d.toNat), (.pos, m.d.toNat)]).impureIf true) (fun x =>
    let n := m.d.toNat
    let words := x.src.getSs m.a.toNat 8
    let w := BitVec.ofNat 256 ((words.reverse.foldl (fun a v => a * 2 ^ 32 + v.toNat) 0) % 2 ^ 240)
    { x with c := { x.c with
        sm := x.c.sm.set n w
        fibres := x.c.fibres.map (fun f =>
          f.setPos n (if x.mask.contains f.idx then 0 else f.posOf n % smTotal w)) } }) s

/-- SMBIND (R92): MOD names the slot, B the mode. -/
def execSmbind (m : Main) (s : State) : Answer :=
  issueOk (((Info.of (Instr.smbind m).shape m 4).writing [(.bind, m.mod)]).impureIf true) (fun x =>
    let b : Option Binding := if m.b = 0 then none else some { sm := m.a.toNat, advance := m.b = 2 }
    { x with c := { x.c with binds := x.c.binds.set m.mod b } }) s

/-- SMPOS (R93). -/
def execSmpos (m : Main) (s : State) : Answer :=
  let i := ((Info.of (Instr.smpos m).shape m 4).alsoReads [(.sm, m.b.toNat), (.pos, m.b.toNat)]).impureIf (m.mod = 2)
  issueOk (if m.mod = 2 then i.writing [(.pos, m.b.toNat)] else i) (fun x =>
    let n := m.b.toNat
    let w := x.src.smReg n
    x.onMask (fun o f =>
      if m.mod = 0 then f.setVD m.d.toNat (smOffset w o.idx (o.posOf n))
      else if m.mod = 1 then f.setVD m.d.toNat (BitVec.ofNat 64 (o.posOf n))
      else f.setPos n ((o.getVD m.a.toNat).toNat % smTotal w))) s

/-- SMADV (R94). -/
def execSmadv (m : Main) (s : State) : Answer :=
  let i := (Info.of (Instr.smadv m).shape m 4).alsoReads [(.sm, m.d.toNat), (.pos, m.d.toNat)]
  issueOk ((i.writing [(.pos, m.d.toNat)]).impureIf true) (fun x =>
    x.onMask (fun o f =>
      f.advance (x.src.smReg m.d.toNat) m.d.toNat (o.posOf m.d.toNat) ((m.opB false false false).get x.src o).toNat)) s

end Sys2Proof.Machine
end

