-- ==== Sys2Proof/Machine/Access.lean ====
section
/-! DEFINITION. Accesses through handle slots (08_memory.md R215, R220 to R222), the scratchpad (R224, R227), loads with forwarding (R234), stores
into the buffer (R233, R234), watchpoints and stops (15_system.md R429, R430). -/

namespace Sys2Proof.Machine

/-! ## Handle fields (R215) -/

/-- SPACE: 0 GLOBAL, 1 PEER, 2 HOSTIO, 3 SCRATCH. -/
def Handle.space (h : Handle) : Nat := h.attr.toNat / 2 % 4
/-- CACHE: 0 CACHED, 1 STREAM, 2 UNCACHED. -/
def Handle.cache (h : Handle) : Nat := h.attr.toNat / 8 % 4
def Handle.ro (h : Handle) : Bool := h.attr.getLsbD 6
def Handle.prot (h : Handle) : Bool := h.attr.getLsbD 7
def Handle.compr (h : Handle) : Bool := h.attr.getLsbD 8
def Handle.mxpair (h : Handle) : Bool := h.attr.getLsbD 16
def Handle.mxfmt (h : Handle) : Nat := h.attr.toNat / 2 ^ 17 % 8
def Handle.mxb32 (h : Handle) : Bool := h.attr.getLsbD 20

/-- The slot of a coil. -/
def Coil.slot (c : Coil) (k : Nat) : Option Handle := c.hs.getD k none
/-- The bytes of a coil's logical scratchpad (R224). -/
def Coil.scratchLen (c : Coil) : Nat := 65536 * partSlog c.partw
/-- The scratchpad as LDS and STS see it (R237): logical offset 0 up to its length. -/
def Coil.scratchHandle (c : Coil) : Handle :=
  { base := 0, len := c.scratchLen, attr := 7, peer := 0, egrp := 0, tkey := 0, sync := 0, idx := 0, scale := none }

/-! ## Places of bytes -/

/-- A piece of an access to device memory inside one 32-byte sector, with the CODING bit of its page and whether that has 2 MiB. -/
structure Seg where
  va : BitVec 64
  pa : Nat
  n : Nat
  side : Bool
  big : Bool
  deriving DecidableEq, Repr

/-- A piece of a scratchpad access inside one 32-byte unit; a backed block's piece has a physical address (R224). -/
structure ScrSeg where
  off : Nat
  n : Nat
  back : Option (Nat × Bool)
  deriving DecidableEq, Repr

/-- Where an access lands (R221); `cache` is the handle's CACHE field. -/
inductive Spot where
  | mem (l : List Seg) (cache : Nat) (compr : Bool) (tkey : Nat)
  | scratch (l : List ScrSeg)
  | peer (dev : BitVec 16) (va : BitVec 64) (n tkey : Nat)
  | hostio (pa : Nat) (va : BitVec 64) (big : Bool) (n : Nat)
  deriving DecidableEq, Repr

/-- Pieces of [a, a + n) that do not cross a 32-byte boundary: start and length. -/
def pieces : Nat → Nat → Nat → List (Nat × Nat)
  | 0, _, _ => []
  | fuel + 1, a, n => if n = 0 then [] else let k := min n (32 - a % 32); (a, k) :: pieces fuel (a + k) (n - k)

/-- The pieces of a virtual range, translated. -/
def State.segsOf (s : State) (asid : BitVec 12) (k : Access) : List (Nat × Nat) → Except MemFault (List Seg) × State
  | [] => (.ok [], s)
  | (a, n) :: r =>
    let t := s.translate asid (BitVec.ofNat 64 a) k
    match t.1 with
    | .error f => (.error f, t.2)
    | .ok x =>
      let q := t.2.segsOf asid k r
      match q.1 with
      | .error f => (.error f, q.2)
      | .ok l => (.ok ({ va := BitVec.ofNat 64 a, pa := x.pa, n := n, side := x.side, big := x.big } :: l), q.2)

/-- The pieces of a scratchpad range; those of backed blocks are translated in the coil's ASID (R224), and refused where a replacement is
being rebuilt (14_survivable.md R390). -/
def State.scrOf (s : State) (c : Coil) (k : Access) : List (Nat × Nat) → Except MemFault (List ScrSeg) × State
  | [] => (.ok [], s)
  | (a, n) :: r =>
    let t : Except MemFault (Option (Nat × Bool)) × State :=
      if c.blocks.contains (a / 65536) then (.ok none, s)
      else
        let t := s.translate c.asid (c.backing (a / 65536) + BitVec.ofNat 64 (a % 65536)) k
        match t.1 with
        | .error f => (.error f, t.2)
        | .ok x =>
          if k = .write && t.2.refuses x.pa then (.error ⟨0x702, 0, c.backing (a / 65536) + BitVec.ofNat 64 (a % 65536)⟩, t.2)
          else (.ok (some (x.pa, x.side)), t.2)
    match t.1 with
    | .error f => (.error f, t.2)
    | .ok b =>
      let q := t.2.scrOf c k r
      match q.1 with
      | .error f => (.error f, q.2)
      | .ok l => (.ok ({ off := a, n := n, back := b } :: l), q.2)

/-! ## Checks (R220, R222) -/

/-- What an access needs: bytes, alignment of its offset, whether it writes, the spaces it may use, alignment of its address (07_work.md R206), and
whether it reads what it writes. -/
structure Need where
  size : Nat
  align : Nat
  write : Bool
  spaces : List Nat
  addrAlign : Nat := 1
  both : Bool := false
  deriving DecidableEq, Repr

/-- The ports that reach a device and are UP (17_module.md R459). -/
def State.peerPorts (s : State) (dev : BitVec 16) : List Nat :=
  let ports := leNat (s.peek (s.regs.osrtbase.toNat / 2 ^ 18 * 2 ^ 18 + 4 * dev.toNat) 4)
  (List.range 18).filter (fun p => ports.testBit p && (s.regs.osierstat.getD p 0).toNat % 4 = 2)
/-- Whether there is one. -/
def State.peerUp (s : State) (dev : BitVec 16) : Bool := !(s.peerPorts dev).isEmpty

/-- The checks of a write at its translation: SURV_RANGE and SURV_STATE of a PROT handle (14_survivable.md R389), and what a replacement
refuses (R390). -/
def State.protFault (s : State) (h : Handle) (va : BitVec 64) (l : List Seg) : Option MemFault :=
  let g := h.egrp
  let inside (e : Seg) : Bool := s.groupPBase g ≤ e.pa && e.pa + e.n ≤ s.groupPBase g + s.groupPLen g
  if h.prot && !l.all inside then some ⟨0x701, 0, va⟩
  else if h.prot && ((s.grp g).st = 0 || (s.grp g).st = 4) then some ⟨0x702, 0, va⟩
  else if l.any (fun e => s.refuses e.pa) then some ⟨0x702, 0, va⟩
  else none

/-- A place through a handle whose TKEY names a slot that holds zeros is refused with MEM_TENANT (17_module.md R462); for device memory the check
is that of the line (R232). -/
def State.inSlot (s : State) (h : Handle) (va : BitVec 64) (sp : Spot) : Except MemFault Spot :=
  if s.noKey h.tkey then .error ⟨0x109, 0, va⟩ else .ok sp

/-- Resolves one access through a slot, with the checks in the order of R222. -/
def State.resolveAt (s : State) (c : Coil) (h : Option Handle) (need : Need) (off : BitVec 64) : Except MemFault Spot × State :=
  match h with
  | none => (.error ⟨0x100, 0, off⟩, s)
  | some h =>
    let va := h.base + off
    let k := if need.write then Access.write else Access.read
    if !need.spaces.contains h.space then (.error ⟨0x101, 0, va⟩, s)
    else if need.write && h.ro then (.error ⟨0x104, 1, va⟩, s)
    else if off.toNat % need.align ≠ 0 || va.toNat % need.addrAlign ≠ 0 then (.error ⟨0x102, 0, va⟩, s)
    else if off.toNat + need.size > h.len then (.error ⟨0x103, 0, va⟩, s)
    else if need.write && h.prot && h.space ≠ 0 then (.error ⟨0x701, 0, va⟩, s)
    else if h.space = 1 then
      if s.peerUp h.peer then (s.inSlot h va (.peer h.peer va need.size h.tkey), s) else (.error ⟨0x10A, 0, va⟩, s)
    else if h.space = 3 then
      if va.toNat + need.size > c.scratchLen then (.error ⟨0x103, 0, va⟩, s)
      else
        let t := s.scrOf c k (pieces (need.size / 32 + 2) va.toNat need.size)
        match t.1 with
        | .error f => (.error f, t.2)
        | .ok l => (t.2.inSlot h va (.scratch l), t.2)
    else
      let t := s.segsOf c.asid k (pieces (need.size / 32 + 2) va.toNat need.size)
      match t.1 with
      | .error f => (.error f, t.2)
      | .ok l =>
        if h.space = 2 then (t.2.inSlot h va (.hostio ((l.head?.map Seg.pa).getD 0) va ((l.head?.map Seg.big).getD false) need.size), t.2)
        else
          match (if need.write then t.2.protFault h va l else none) with
          | some f => (.error f, t.2)
          | none => (.ok (.mem l h.cache h.compr h.tkey), t.2)

/-- One lane's resolved access. -/
structure Lane where
  fibre : Nat
  spot : Spot
  deriving DecidableEq, Repr

/-- Resolves the lanes of an access: the spots, and the faults of the lanes that fault. -/
def State.resolveLanes (s : State) (c : Coil) (h : Option Handle) (need : Need) :
    List (Nat × BitVec 64) → List Lane × List (Nat × MemFault) × State
  | [] => ([], [], s)
  | (i, off) :: r =>
    let t := s.resolveAt c h need off
    let q := t.2.resolveLanes c h need r
    match t.1 with
    | .error f => (q.1, (i, f) :: q.2.1, q.2.2)
    | .ok sp => ({ fibre := i, spot := sp } :: q.1, q.2)

/-- A mask of some fibres over the fibres of a plait, in increasing index (R222). -/
def laneMask (act lanes : List Nat) : DWord :=
  BitVec.ofNat 64 (act.zipIdx.foldl (fun a p => if lanes.contains p.1 then a + 2 ^ p.2 else a) 0)

/-- The fault of an access: code and address of the lowest lane, the count and the mask of the faulting lanes (R222). -/
def laneTrap (act : List Nat) : List (Nat × MemFault) → Trap
  | [] => Trap.of 0x105
  | (i, f) :: r =>
    let lanes := i :: r.map Prod.fst
    { Trap.of f.code.toNat with sub := f.sub, addr := some f.addr, count := lanes.length, detail := laneMask act lanes, lanes := lanes }

/-! ## Watchpoints and stops (15_system.md R429, R430) -/

/-- Whether a watchpoint's kind takes an access that reads, and one that writes. -/
def Watch.sees (w : Watch) (rd wr : Bool) : Bool := (w.kind % 2 = 1 && wr) || (w.kind / 2 % 2 = 1 && rd)
/-- Whether an access reads. -/
def Need.read (n : Need) : Bool := !n.write || n.both
/-- Whether a range meets a watched range. -/
def Watch.meets (w : Watch) (scratch : Bool) (lo n : Nat) : Bool := w.scratch = scratch && lo < w.hi && w.lo < lo + n
/-- Whether an access hits a watchpoint. -/
def Watch.hits (w : Watch) (rd wr : Bool) (sp : Spot) : Bool :=
  w.sees rd wr &&
  match sp with
  | .mem l _ _ _ => l.any (fun g => w.meets false g.va.toNat g.n)
  | .scratch l => l.any (fun g => w.meets true g.off g.n)
  | _ => false

/-- The lowest watchpoint that some lane hits, with the lanes that hit one. -/
def Coil.watchHit (c : Coil) (rd wr : Bool) (l : List Lane) : Option (Nat × List Nat) :=
  let hit (i : Lane) : Bool := c.watch.any (fun w => w.hits rd wr i.spot)
  let n := (List.range 4).find? (fun n => l.any (fun i => (c.watch.getD n Watch.off).hits rd wr i.spot))
  n.map (fun n => (n, (l.filter hit).map Lane.fibre))

/-- A watchpoint stops the coil, or raises WATCHPOINT (R429). -/
def Iss.watchStop (x : Iss) (n : Nat) (lanes : List Nat) : Res :=
  let d := laneMask x.act lanes
  if x.c.trap.dbg then .stop (x.s.stopRec x.c 0xD lanes.length d (BitVec.ofNat 32 n)) x
  else .trap { Trap.of 0xD with count := lanes.length, detail := d, lanes := lanes, aux := BitVec.ofNat 32 n } x

/-- What an access comes to: resolved lanes, or an end of the instruction. -/
inductive Reached where
  | ok (l : List Lane) (x : Iss)
  | bad (r : Res)

/-- What a CACHED load of a piece would meet in the L1: the same physical line under another virtual address of the ASID (R229). -/
def State.aliased (s : State) (c : Coil) (g : Seg) : Bool :=
  (s.l1Line c.core c.asid g.va).isNone
  && s.l1.any (fun e => e.core = c.core && e.asid = c.asid && e.psec / 8 = g.pa / 256 && e.vsec / 8 ≠ g.va.toNat / 256)

/-- The fault that an access which reads a place at once would meet there: a line of another tenant (R232), or, through the L1, MEM_ALIAS. -/
def State.meets (s : State) (c : Coil) (l1 : Bool) : Spot → Option MemFault
  | .mem l cache _ tkey => l.findSome? (fun g =>
      if s.keyClash g.pa tkey then some ⟨0x109, 0, g.va⟩ else if l1 && cache = 0 && s.aliased c g then some ⟨0x108, 0, g.va⟩ else none)
  | _ => none

/-- The faults of an access, in the order of its lanes: those of its checks, and what the other lanes would have met (R222). -/
def mergeFaults (offs : List (Nat × BitVec 64)) (a b : List (Nat × MemFault)) : List (Nat × MemFault) :=
  offs.filterMap (fun o => (a ++ b).find? (fun e => e.1 = o.1))

/-- An access through a slot by some lanes, each with its offset: checks, translation and watchpoints (R222, R429). `also` says what a lane that
passes them would meet at its place, where the instruction reads that at once. -/
def Iss.reach (x : Iss) (h : Option Handle) (need : Need) (offs : List (Nat × BitVec 64)) (also : Spot → Option MemFault := fun _ => none) :
    Reached :=
  let r := x.s.resolveLanes x.c h need offs
  let x := { x with s := r.2.2 }
  if !r.2.1.isEmpty then
    .bad (.trap (laneTrap x.act (mergeFaults offs r.2.1 (r.1.filterMap (fun i => (also i.spot).map (fun f => (i.fibre, f)))))) x)
  else if x.c.ignoreWatch.contains x.place then .ok r.1 x
  else match x.c.watchHit need.read need.write r.1 with
    | none => .ok r.1 x
    | some (n, lanes) => .bad (x.watchStop n lanes)

/-! ## Memory operands (02_encoding.md R32; 08_memory.md R220) -/

end Sys2Proof.Machine

namespace Sys2Proof

/-- The byte offset: OFF8, or the literal (R32). -/
def Main.memOff (m : Main) : BitVec 64 :=
  match m.lit with
  | none => m.b.signExtend 64
  | some l => l.signExtend 64

end Sys2Proof

namespace Sys2Proof.Machine

/-- The effective offset of a fibre's operand: base register, immediate and stream (R220). -/
def effOff (c : Coil) (slot : Nat) (base : Word) (imm : BitVec 64) (f : Fibre) : BitVec 64 :=
  base.setWidth 64 + imm + c.streamOffset slot f

/-- The lanes of a memory operand with a V base. -/
def Iss.memLanes (x : Iss) (m : Main) (imm : BitVec 64) : List (Nat × BitVec 64) :=
  x.lanes.map (fun f => (f.idx, effOff x.src m.mod (f.getV m.a.toNat) imm f))

/-- The lane of a uniform memory operand: the lowest fibre's stream offset (03_integer.md R92). -/
def Iss.uniLane (x : Iss) (m : Main) : List (Nat × BitVec 64) :=
  (x.lowest.map (fun f => (f.idx, effOff x.src m.mod (x.src.getS m.a.toNat) m.memOff f))).toList

/-! ## Reading (R221, R230, R234) -/

/-- A byte and whether it is poisoned. -/
abbrev PByte := Byte × Bool

/-- Puts forwarded bytes over a read of n bytes at an address. -/
def overlay (base : List PByte) (lo : Nat) (at_ : Nat) (d : List Byte) (bad : Bool) : List PByte :=
  base.zipIdx.map (fun p =>
    let a := lo + p.2
    if at_ ≤ a && a < at_ + d.length then (d.getD (a - at_) 0, bad) else p.1)

/-- A fibre's own buffered stores over a piece of memory, oldest first (R234). -/
def forwardMem (c : Coil) (i : Nat) (pa : Nat) (l : List PByte) : List PByte :=
  c.stores.foldl (fun l st =>
    match st.tgt, st.op with
    | .mem q _ _ _ _ _ _, .bytes d bad => if st.fibre = i then overlay l pa q d bad else l
    | _, _ => l) l

/-- The same for a peer's memory. -/
def forwardPeer (c : Coil) (i : Nat) (dev : BitVec 16) (va : BitVec 64) (l : List PByte) : List PByte :=
  c.stores.foldl (fun l st =>
    match st.tgt, st.op with
    | .peer e q _, .bytes d bad => if st.fibre = i && e = dev then overlay l va.toNat q.toNat d bad else l
    | _, _ => l) l

/-- The same for a PCIe window. -/
def forwardHost (c : Coil) (i : Nat) (pa : Nat) (l : List PByte) : List PByte :=
  c.stores.foldl (fun l st =>
    match st.tgt, st.op with
    | .hostio q _ _, .bytes d bad => if st.fibre = i then overlay l pa q d bad else l
    | _, _ => l) l

/-- The CACHE of an access that takes what the L1 holds, which is known to be there. -/
def cacheHeld : Nat := 3

/-- The bytes of one piece of device memory, through the L1 when the access is CACHED. An access that goes past the L1 leaves its core's L1 with
what it has read (R230; 09_ordering.md R253). -/
def State.takeSeg (s : State) (c : Coil) (cache : Nat) (g : Seg) : Except MemFault (List Byte) × State :=
  if cache = 0 then
    let q := s.l1Sector c.core c.asid g.va g.big g.pa
    (q.1.map (fun l => (l.drop (g.pa % 32)).take g.n), q.2)
  else if cache = cacheHeld then
    (.ok ((((s.l1Line c.core c.asid g.va).map L1Line.bytes).getD (s.peek (g.pa / 32 * 32) 32)).drop (g.pa % 32) |>.take g.n), s)
  else (.ok (s.peek g.pa g.n), s.l1Update c.core g.pa)

/-- One piece of device memory as a load sees it; `own` is the fibre whose stores are forwarded. A poisoned sector of an ACTIVE group is
reconstructed first (14_survivable.md R394). -/
def State.readSeg (s : State) (c : Coil) (own : Option Nat) (cache : Nat) (tkey : Nat) (g : Seg) : Except MemFault (List PByte) × State :=
  if s.keyClash g.pa tkey then (.error ⟨0x109, 0, g.va⟩, s)
  else
    let r := ((s.touch (cache = 2) g.pa tkey).healRange g.pa g.n).report.takeSeg c cache g
    match r.1 with
    | .error f => (.error f, r.2)
    | .ok l =>
      let bad := r.2.poisoned g.pa g.n
      let l := l.map (fun b => (b, bad))
      (.ok (match own with | some i => forwardMem c i g.pa l | none => l), r.2)

/-- The pieces of a load of device memory. -/
def State.readSegs (s : State) (c : Coil) (own : Option Nat) (cache : Nat) (tkey : Nat) : List Seg → Except MemFault (List PByte) × State
  | [] => (.ok [], s)
  | g :: r =>
    let q := s.readSeg c own cache tkey g
    match q.1 with
    | .error f => (.error f, q.2)
    | .ok a =>
      let w := q.2.readSegs c own cache tkey r
      match w.1 with
      | .error f => (.error f, w.2)
      | .ok b => (.ok (a ++ b), w.2)

/-- One piece of the scratchpad. -/
def State.readScr (s : State) (c : Coil) (g : ScrSeg) : List PByte :=
  match g.back with
  | some (pa, _) => (s.peek pa g.n).map (fun b => (b, s.poisoned pa g.n))
  | none => (cellsRead c.scratch g.off g.n).map (fun b => (b, c.spoiled.contains (g.off / 32)))

/-- The same as a fibre finds it. -/
def State.readScrBy (s : State) (c : Coil) (own : Option Nat) (g : ScrSeg) : List PByte :=
  match own, g.back with
  | some i, none => c.asSeen s i none g.off (s.readScr c g)
  | _, _ => s.readScr c g

/-- The 32-byte units of the resident scratchpad that some pieces lie in. -/
def scrUnits (l : List ScrSeg) : List Nat := l.filterMap (fun g => if g.back.isNone then some (g.off / 32) else none)

/-- Records what the units of the scratchpad hold that some lanes are about to write (09_ordering.md R254). -/
def State.noteScr (s : State) (c : Coil) (l : List Lane) : Coil :=
  c.noteOld s none (fun u => s.readScr c { off := 32 * u, n := 32, back := none })
    (l.flatMap (fun e => match e.spot with | .scratch g => (scrUnits g).map (fun u => (e.fibre, u)) | _ => []))

/-- Reconstructs what an access reads of backed blocks (14_survivable.md R394). -/
def State.healScr (s : State) (l : List ScrSeg) : State :=
  l.foldl (fun s g => match g.back with | some (pa, _) => (s.healRange pa g.n).report | none => s) s

/-- n bytes that a device outside the package returns (R221, logs 12 and 13). -/
def State.outside (s : State) (a n : Nat) : List PByte × State :=
  let d := s.draw
  ((List.range n).map (fun i => (Config.outsideByte d.1 (a + i), false)), d.2)

/-- The bytes that an access reads. -/
def State.readSpot (s : State) (c : Coil) (own : Option Nat) (l1 : Bool) : Spot → Except MemFault (List PByte) × State
  | .mem l cache _ tkey => s.readSegs c own (if l1 then cache else max cache 1) tkey l
  | .scratch l =>
    let s := s.healScr l
    (.ok (l.flatMap (s.readScrBy c own)), s)
  | .peer dev va n _ =>
    let d := s.draw
    let q := d.2.outside va.toNat n
    if Config.peerSilent d.1 then (.error ⟨0x10A, 0, va⟩, d.2)
    else (.ok (match own with | some i => forwardPeer c i dev va q.1 | none => q.1), q.2)
  | .hostio pa _ _ n =>
    let q := s.outside pa n
    (.ok (match own with | some i => forwardHost c i pa q.1 | none => q.1), q.2)

/-- The bytes of each lane, in increasing fibre index, and the lanes that fault on the way; `l1` for an access that may use the L1. -/
def State.readLanes (s : State) (c : Coil) (l1 : Bool) : List Lane → List (Nat × List PByte) × List (Nat × MemFault) × State
  | [] => ([], [], s)
  | i :: r =>
    let q := s.readSpot c (some i.fibre) l1 i.spot
    let w := q.2.readLanes c l1 r
    match q.1 with
    | .error f => (w.1, (i.fibre, f) :: w.2.1, w.2.2)
    | .ok l => ((i.fibre, l) :: w.1, w.2)

/-- Whether an access to a place meets a line of another tenant or a peer that does not answer (R221, R232). -/
def State.spotFault (s : State) : Spot → Option MemFault × State
  | .mem l _ _ tkey => ((l.find? (fun g => s.keyClash g.pa tkey)).map (fun g => ⟨0x109, 0, g.va⟩), s)
  | .peer _ va _ _ => (if Config.peerSilent s.draw.1 then some ⟨0x10A, 0, va⟩ else none, s.draw.2)
  | _ => (none, s)

/-- The lanes that fault so. -/
def State.spotFaults (s : State) : List Lane → List (Nat × MemFault) × State
  | [] => ([], s)
  | i :: r =>
    let q := s.spotFault i.spot
    let w := q.2.spotFaults r
    ((match q.1 with | some f => [(i.fibre, f)] | none => []) ++ w.1, w.2)

/-- The value of read bytes, and whether any is poisoned. -/
def pbNat (l : List PByte) : Nat := leNat (l.map Prod.fst)
def pbBad (l : List PByte) : Bool := l.any Prod.snd

/-- The words of read bytes, each with its poison; fewer than four bytes are zero-extended. -/
def pbWords : Nat → List PByte → List Word
  | 0, _ => []
  | n + 1, l => BitVec.ofNat 32 (pbNat (l.take 4)) :: pbWords n (l.drop 4)

/-- Writes loaded words to consecutive registers; poisoned bytes make them DATA-poisoned (15_system.md R416). -/
def Fibre.load (f : Fibre) (d : Nat) (k : Nat) (l : List PByte) : Fibre :=
  let f := f.setVs d (pbWords k l)
  if pbBad l then (List.range k).foldl (fun f i => f.taint (d + i) .data) f else f

/-! ## Writing -/

/-- The entries of the store buffer that a store of bytes makes, one for each sector (R233). -/
def storesOf (fibre : Nat) (pc : BitVec 64) (bad : Bool) : Spot → List Byte → List Store
  | .mem l cache compr tkey, d =>
    (l.foldl (fun (p : List Store × List Byte) g =>
      (p.1 ++ [{ fibre := fibre, pc := pc, tgt := .mem g.pa g.va g.big g.side compr (cache = 2) tkey, op := .bytes (p.2.take g.n) bad }],
       p.2.drop g.n)) ([], d)).1
  | .peer dev va n tkey, d =>
    (pieces (n / 32 + 2) va.toNat n).map (fun e =>
      { fibre := fibre, pc := pc, tgt := .peer dev (BitVec.ofNat 64 e.1) tkey, op := .bytes ((d.drop (e.1 - va.toNat)).take e.2) bad })
  | .hostio pa va big _, d => [{ fibre := fibre, pc := pc, tgt := .hostio pa va big, op := .bytes d bad }]
  | .scratch _, _ => []

/-- Writes bytes to one piece of the scratchpad at once (R227). -/
def writeScr (p : State × Coil) (g : ScrSeg) (d : List Byte) (bad : Bool) : State × Coil :=
  match g.back with
  | some (pa, side) => (((p.1.perform pa d bad side true).report).l1Update p.2.core pa, p.2)
  | none =>
    let u := g.off / 32
    let keep := p.2.spoiled.contains u && d.length < 32
    let rest := p.2.spoiled.filter (fun k => k ≠ u)
    (p.1, { p.2 with scratch := cellsWrite p.2.scratch g.off d, spoiled := if bad || keep then u :: rest else rest })

/-- Writes bytes to the scratchpad, piece by piece. -/
def writeScrs (p : State × Coil) : List ScrSeg → List Byte → Bool → State × Coil
  | [], _, _ => p
  | g :: r, d, bad => writeScrs (writeScr p g (d.take g.n) bad) r (d.drop g.n) bad

/-- The entries that a coil's store buffer and spill area hold, at the 32 bytes that R233 counts for each (R216, R233; log 17). -/
def State.storeRoom (s : State) (c : Coil) : Nat :=
  256 + 2 ^ s.vnat c.asid (c.ctxbase + 0x10010) 1 / 32

/-- Whether the buffer takes some more entries. -/
def Iss.bufferTakes (x : Iss) (new : List Store) : Bool :=
  new.isEmpty
  || (x.c.stores.filter (fun st => match st.op with | .marker _ => false | _ => true)).length + new.length ≤ x.s.storeRoom x.c

/-- The virtual address of a resolved access. -/
def Spot.addr : Spot → BitVec 64
  | .mem (g :: _) _ _ _ => g.va
  | .peer _ va _ _ => va
  | .hostio _ va _ _ => va
  | _ => 0

/-- SB_OVERFLOW (R222, R233): the lanes that fault are those with an entry that finds no room, the entries taken in increasing fibre index
(DESIGN CHOICE, log 135). -/
def Iss.overflowed (x : Iss) (l : List Lane) (new : List Store) : Res :=
  let used := (x.c.stores.filter (fun st => match st.op with | .marker _ => false | _ => true)).length
  let out := ((new.drop (x.s.storeRoom x.c - used)).map Store.fibre).eraseDups
  let addr := (l.find? (fun i => out.head? = some i.fibre)).map (fun i => i.spot.addr)
  .trap { Trap.of 0x10B with addr := addr, count := out.length, detail := laneMask x.act out, lanes := out } x

/-- Puts entries of some lanes into the store buffer, which may be full. -/
def Iss.pushStores (x : Iss) (l : List Lane) (new : List Store) : Res :=
  if x.bufferTakes new then .ok { x with c := { x.c with stores := x.c.stores ++ new } } else x.overflowed l new

/-- Stores the bytes of each lane, in increasing fibre index: to the scratchpad at once, and otherwise into the buffer. -/
def Iss.storeLanes (x : Iss) (l : List (Lane × List Byte × Bool)) : Res :=
  let new := l.flatMap (fun e => storesOf e.1.fibre x.pc e.2.2 e.1.spot e.2.1)
  if x.bufferTakes new then
    let p := l.foldl (fun p e =>
      match e.1.spot with
      | .scratch g => writeScrs p g e.2.1 e.2.2
      | _ => p) (x.s, x.s.noteScr x.c (l.map Prod.fst))
    .ok { x with s := p.1, c := { p.2 with stores := p.2.stores ++ new } }
  else x.overflowed (l.map Prod.fst) new

end Sys2Proof.Machine
end

