-- ==== Sys2Proof/Machine/Fetch.lean ====
section
/-! DEFINITION. Fetching instruction words (02_encoding.md R26, R27; 08_memory.md R229, R240) through the instruction cache of a core. -/

namespace Sys2Proof.Machine

/-- Whether an instruction-cache word is the one that a core and an address space name. -/
def IcLine.is (e : IcLine) (core : Nat) (asid : BitVec 12) (va : BitVec 64) : Bool := e.core = core && e.asid = asid && e.va = va

/-- The words that an instruction cache of 128 KiB holds (01_machine.md R9). -/
def icacheWords : Nat := 32768

/-- Puts a word in an instruction cache, from which older ones of the core give way. -/
def State.icPut (s : State) (e : IcLine) : State :=
  { s with icache := e :: (s.icache.filter (fun x => x.core = e.core && !x.is e.core e.asid e.va)).take (icacheWords - 1)
             ++ s.icache.filter (fun x => x.core ≠ e.core) }

/-- A word fetched from memory, which enters the core's instruction cache (log 10). -/
def State.refetch (s : State) (core : Nat) (asid : BitVec 12) (va : BitVec 64) : Except MemFault Word × State :=
  let t := s.translate asid va .fetch
  match t.1 with
  | .error f => (.error f, t.2)
  | .ok x =>
    let s := (t.2.healRange x.pa 4).report
    let w := leWord (s.peek x.pa 4)
    (.ok w, s.icPut { core := core, asid := asid, va := va, word := w })

/-- A fetched word: what the core's instruction cache holds, if it still does, or memory (log 10). -/
def State.fetchWord (s : State) (core : Nat) (asid : BitVec 12) (va : BitVec 64) : Except MemFault Word × State :=
  match s.icache.find? (fun e => e.is core asid va) with
  | none => s.refetch core asid va
  | some e =>
    let d := s.draw
    if Config.icacheKeeps d.1 then (.ok e.word, d.2) else d.2.refetch core asid va

/-- The words of an instruction, those after the first only where LEN requires them (R27); or the fault, with the number of its word. -/
def State.fetchWords (s : State) (core : Nat) (asid : BitVec 12) (pc : BitVec 64) : Except (MemFault × Nat) (List Word) × State :=
  let a := s.fetchWord core asid pc
  match a.1 with
  | .error f => (.error (f, 0), a.2)
  | .ok w0 =>
    if wordsOf w0 = 1 then (.ok [w0], a.2)
    else
      let b := a.2.fetchWord core asid (pc + 4)
      match b.1 with
      | .error f => (.error (f, 1), b.2)
      | .ok w1 =>
        if wordsOf w0 = 2 then (.ok [w0, w1], b.2)
        else
          let c := b.2.fetchWord core asid (pc + 8)
          match c.1 with
          | .error f => (.error (f, 2), c.2)
          | .ok w2 => (.ok [w0, w1, w2], c.2)

end Sys2Proof.Machine
end

