-- ==== Sys2Proof/Machine/Schedule.lean ====
section
/-! DEFINITION. Who issues next (07_work.md R209, log 2), what stands at the end of a turn: stepping (15_system.md R430), the sides that wait
for a plait slot (06_control.md R148), system calls that wait for their ring (15_system.md R422), and translation
invalidations that wait for stores (08_memory.md R231). -/

namespace Sys2Proof.Machine

/-- The places of a coil whose plaits may take a turn. -/
def Coil.issuers (c : Coil) : List Place :=
  if c.resident && c.st = .running then
    (((c.fibres.filter (fun f => f.status = .runnable)).map Fibre.place).eraseDups).filter (fun p =>
      (match p with | .slot _ => true | .side _ => false) && (c.stepping.isEmpty || c.stepping.contains p))
  else []

/-- Whether a coil's MCC context may take a turn: it holds a program context of its cluster (11_matrix.md R325), and the coil is not stopped. -/
def Coil.mccRuns (c : Coil) : Bool :=
  c.resident && c.st = .running && c.stepping.isEmpty && c.eng = .running && (c.mcc.bind MccCtx.slot).isSome

/-- The program contexts of a cluster's MCC that are in use. -/
def State.mccUsed (s : State) (core : Nat) : List Nat :=
  s.coils.filterMap (fun c => if c.resident && c.core / 4 = core / 4 && c.eng = .running then c.mcc.bind MccCtx.slot else none)

/-- Gives a coil's context a free program context of its cluster: a restarted one, or one that has waited in the start queue (07_work.md R207). -/
def State.startMcc (s : State) (id : Nat) : State :=
  match s.coil? id with
  | none => s
  | some c =>
    match c.mcc, (List.range 4).find? (fun n => !(s.mccUsed c.core).contains n) with
    | some x, some n =>
      if c.resident && !c.leaves && x.slot.isNone && (c.eng = .running || (c.eng = .queued && s.mccq.contains id)) then
        { s.setCoil { c with eng := .running, mcc := some { x with slot := some n } } with mccq := s.mccq.filter (fun k => k ≠ id) }
      else s
    | _, _ => s

/-- Contexts that wait for a program context get one: those of restarted coils, then the start queue, oldest first. -/
def State.startMccs (s : State) : State :=
  (((s.coils.filter (fun c => c.eng = .running)).map Coil.id) ++ s.mccq).foldl State.startMcc s

/-- Everything that may take a turn: plaits in their slots, and running MCC contexts (11_matrix.md R325). -/
def State.issuers (s : State) : List Turn :=
  s.coils.flatMap (fun c => c.issuers.map (fun p => Turn.plait c.id p) ++ (if c.mccRuns then [.mcc c.id] else []))

/-! ## The choice of a quadrant (07_work.md R209; 01_machine.md R16) -/

/-- A plait that may issue: its quadrant, by core and number, and what its rank is judged by. -/
structure Cand where
  turn : Turn
  quad : Nat × Nat
  rank : Nat
  waited : Nat
  cslot : Nat
  slot : Nat
  deriving DecidableEq, Repr

/-- AGESTEP of a core (07_work.md R210). -/
def State.ageStep (s : State) (core : Nat) : Nat := 2 ^ (s.cores.getD core CoreRegs.reset).agelog

/-- A plait as the coil scheduler sees it: rank = 4·prio + P + floor(w / AGESTEP) (R209). -/
def State.cand (s : State) (c : Coil) (n : Nat) : Cand :=
  let w := ((c.plait (.slot n)).map Fibre.waited).headD 0
  { turn := .plait c.id (.slot n), quad := (c.core, n / 16), rank := 4 * s.effPrio c.asid c.rcb + c.sub + w / s.ageStep c.core, waited := w,
    cslot := c.cslot, slot := n }

/-- The plaits that may issue and have not just been found to wait. -/
def State.cands (s : State) : List Cand :=
  (s.coils.flatMap (fun c => c.issuers.filterMap (fun p => match p with | .slot n => some (s.cand c n) | .side _ => none))).filter
    (fun k => !s.tried.contains k.turn)

/-- Whether a plait goes before another of its quadrant: the higher rank, then the larger w, the lower coil slot, the lower plait slot (R209). -/
def Cand.before (a b : Cand) : Bool :=
  decide (a.rank > b.rank) || (a.rank = b.rank &&
    (decide (a.waited > b.waited) || (a.waited = b.waited &&
      (decide (a.cslot < b.cslot) || (a.cslot = b.cslot && decide (a.slot < b.slot))))))

/-- The plait that each quadrant issues from. -/
def State.chosen (s : State) : List Turn :=
  let l := s.cands
  (l.filter (fun k => l.all (fun e => e.quad ≠ k.quad || e = k || k.before e))).map Cand.turn

/-- The MCC contexts that may take a turn. -/
def State.mccTurns (s : State) : List Turn :=
  ((s.coils.filter Coil.mccRuns).map (fun c => Turn.mcc c.id)).filter (fun t => !s.tried.contains t)

/-- The next turn, in rotation over the quadrants and the MCC contexts; none when it is the engines' turn (log 2). -/
def State.pick (s : State) : Option Turn :=
  let l := s.chosen ++ s.mccTurns
  l[s.rr % (l.length + 1)]?

/-- The words at a PC, without a fetch. -/
def State.peekWords (s : State) (asid : BitVec 12) (pc : BitVec 64) : List Word :=
  (List.range 3).map (fun k => BitVec.ofNat 32 (s.vnat asid (pc + BitVec.ofNat 64 (4 * k)) 4))

/-- The main-format instruction among some words. -/
def mainAt (ws : List Word) : Option (Instr × Main) :=
  let w0 := wordAt ws 0
  let m := Main.ofWords w0 (wordAt ws 1) (if lenOf w0 = 2 then some (wordAt ws 2) else none)
  if lenOf w0 = 1 || lenOf w0 = 2 then match pickSimt (opcOf w0) m with | .op i => some (i, m) | _ => none else none

/-- The flags that an instruction waits for before it issues (02_encoding.md R40, R41; 07_work.md R190). -/
def flagsAt (ws : List Word) : BitVec 12 :=
  match mainAt ws with
  | some (.region _, _) => BitVec.allOnes 12
  | some (i, m) => m.wait ||| (match i.shape.flag m with | some k => 1#12 <<< k | none => 0)
  | none => if lenOf (wordAt ws 0) = 0 && (Compact.ofWord (wordAt ws 0)).w = 1 then BitVec.allOnes 12 else 0

/-- Whether the WAIT of a plait's next instruction holds: the plait may have been eligible (R209). -/
def State.waitHolds (s : State) (c : Coil) (slot : Nat) : Bool :=
  match c.plait (.slot slot) with
  | [] => false
  | f :: r => let fl := flagsAt (s.peekWords c.asid f.pc); (f :: r).all (fun f => f.cf &&& fl = 0)

/-- A turn has passed on a quadrant: what issued starts to wait anew, and another plait whose WAIT holds has been eligible for some of the cycles
that have passed: how many of them, as its DIST and its unit allow, is free (R209; log 3). -/
def Coil.aged (c : Coil) (core quad draw n : Nat) (t : Turn) (ready : Nat → Bool) : Coil :=
  if !c.resident || c.core ≠ core then c
  else
    { c with fibres := c.fibres.map (fun f =>
        match f.place with
        | .slot k =>
          if t = .plait c.id (.slot k) then { f with waited := 0 }
          else if k / 16 = quad && f.status = .runnable && ready k then { f with waited := f.waited + Config.eligibleTicks draw k % (n + 1) }
          else f
        | .side _ => f) }

/-- The cycles of a turn pass. -/
def State.ageTurn (s : State) : State :=
  match s.turn with
  | .plait id (.slot k) =>
    match s.coil? id with
    | some c =>
      let d := s.draw
      let n := 1 + Config.coreTicks d.1 c.core
      { d.2 with coils := s.coils.map (fun e => e.aged c.core (k / 16) d.1 n s.turn (fun j => e.st = .running && !s.tried.contains (.plait e.id (.slot j)) && s.waitHolds e j)) }
    | none => s
  | _ => s

/-! ## Sides that wait for a slot (06_control.md R148, R149) -/

/-- The places of a coil in the packing unit at which fibres of some statuses wait for a plait slot. -/
def Coil.sidesOf (c : Coil) (ok : FStatus → Bool) : List (Nat × Place) :=
  if c.resident && !c.leaves then
    ((c.fibres.filter (fun f => ok f.status)).map (fun f => (c.id, f.place))).eraseDups.filter (fun p => match p.2 with | .side _ => true | .slot _ => false)
  else []

/-- The sides that wait in the packing unit for a plait slot, coil and place: first those that can go on, then those that wait at a collective. -/
def State.sidesWaiting (s : State) : List (Nat × Place) :=
  s.coils.flatMap (fun c => c.sidesOf (fun st => match st with | .runnable => true | .yielded => true | .asleep => true | _ => false))
  ++ s.coils.flatMap (fun c => c.sidesOf (fun st => match st with | .arrived _ => true | _ => false))

/-- Moves what is at one place of a coil to another place. -/
def Coil.movePlace (c : Coil) (a b : Place) (since : Nat) : Coil :=
  let at_ (p : Place) : Place := if p = a then b else p
  { c with fibres := c.fibres.map (fun f => if f.place = a then { f with place := b, since := since } else f)
           stepping := c.stepping.map at_, ignoreWatch := c.ignoreWatch.map at_ }

/-- Gives each side that waits for a plait slot a free one (R148). -/
def State.unpark (s : State) : State :=
  s.sidesWaiting.foldl (fun s p =>
      match s.coil? p.1 with
      | none => s
      | some c =>
        match freeSlot (s.slotsUsed c.core) with
        | none => s
        | some n => { s with nextId := s.nextId + 1 }.setCoil (c.movePlace p.2 (.slot n) s.nextId)) s

/-- Stops a coil whose plaits have each issued the instruction that STEP let them issue (15_system.md R430). -/
def State.stepped (s : State) : State :=
  match s.turn with
  | .plait id pl =>
    match s.coil? id with
    | none => s
    | some c =>
      if c.st = .running && c.stepping.contains pl then
        match c.stepping.filter (· ≠ pl) with
        | [] => s.stopNow c
        | l => s.setCoil { c with stepping := l }
      else s
  | _ => s

/-! ## System calls (15_system.md R422) -/

/-- A write of a value by the device for a coil's fibre, which the L1 of its core sees. -/
def State.vputFor (s : State) (c : Coil) (va : BitVec 64) (n x : Nat) : State :=
  let s := s.vput c.asid va n x
  match (s.translate c.asid va .read).1 with
  | .ok p => s.l1Update c.core p.pa
  | .error _ => s

/-- Posts entries of a system call while the ring has room; the entries that are left. -/
def State.postEntries (s : State) (c : Coil) (call : Nat) : List (Nat × BitVec 64) → State × List (Nat × BitVec 64)
  | [] => (s, [])
  | e :: r =>
    let ring := c.trap.sysring
    let w := s.vnat c.asid ring 8
    if (w + 2 ^ 64 - s.vnat c.asid (ring + 8) 8) % 2 ^ 64 ≥ 2 ^ c.trap.syslog then (s, e :: r)
    else
      let s := (s.vputFor c e.2 32 0).vputFor c (e.2 + 32) 8 (call + e.1 * 2 ^ 16 + c.id * 2 ^ 32)
      let s := s.vputFor c (ring + BitVec.ofNat 64 (64 + 8 * (w % 2 ^ c.trap.syslog))) 8 e.2.toNat
      ((s.vputFor c ring 8 ((w + 1) % 2 ^ 64)).interrupt 1).postEntries c call r

/-- Goes on with one wait of a SYSC. -/
def State.postWait (s : State) (id : Nat) (w : Wait) : State :=
  match s.coil? id, w.kind with
  | some c, .sysc call left =>
    let r := s.postEntries c call left
    let rest := c.waits.filter (fun v => v.id ≠ w.id)
    if r.2.isEmpty then r.1.setCoil ({ c with waits := rest }.onFibres w.fibres (fun f => f.clearFlag? w.flag))
    else r.1.setCoil { c with waits := c.waits.map (fun v => if v.id = w.id then { v with kind := .sysc call r.2 } else v) }
  | _, _ => s

/-- Takes a coil off its core by request, unless it is on its way; a stopped one is stopped again after its restart (15_system.md R415, R430). -/
def State.preempt (s : State) (c : Coil) : State :=
  if c.leaves then s else s.save { c with preempts := c.preempts + 1, restop := decide (c.st = .stopped) } none true false

/-- Ends a PREEMPT command whose coil has left its core (R415). -/
def State.endCoilcmd (s : State) : State :=
  let w := s.regs.coilcmd
  if !w.getLsbD 0 then s
  else
    match s.coil? (w.toNat / 2 ^ 32) with
    | none => { s with regs := { s.regs with coilcmd := w &&& ~~~1 } }
    | some c => if c.leaves then s else { s with regs := { s.regs with coilcmd := w &&& ~~~1 } }

/-- Every SYSC that waits posts what the rings now take. -/
def State.settleSyscs (s : State) : State :=
  s.coils.foldl (fun s c => c.waits.foldl (fun s w => s.postWait c.id w) s) s

/-! ## Translation invalidation (08_memory.md R231) -/

/-- Whether an invalidation covers the page, of 64 KiB or of 2 MiB, that translates a virtual address: its whole ASID, or TLBINVA's page
(R228). -/
def State.tlbCovers (s : State) (va : BitVec 64) (big : Bool) : Bool :=
  let n := if big then 2 ^ 21 else 2 ^ 16
  s.regs.tlbinvc.getLsbD 12 || va.toNat / n = s.regs.tlbinva.toNat % 2 ^ 57 / n

/-- Whether a buffered store was translated through an entry that the invalidation drops. -/
def State.tlbHits (s : State) (e : Store) : Bool :=
  match e.tgt, e.op with
  | _, .marker _ => false
  | .mem _ va big _ _ _ _, _ => s.tlbCovers va big
  | .peer _ _ _, _ => false
  | .hostio _ va big, _ => s.tlbCovers va big

/-- The coils whose buffered stores an invalidation still waits for. -/
def State.tlbCoils (s : State) : List Coil :=
  s.coils.filter (fun c => c.asid = s.regs.tlbinvc.setWidth 12 && c.stores.any s.tlbHits)

/-- Goes on with an invalidation: coils are pre-empted to discard their stores, and GO returns to 0 when none is left. -/
def State.endTlb (s : State) : State :=
  if !s.regs.tlbinvc.getLsbD 13 then s
  else
    let s := (s.tlbCoils.filter Coil.resident).foldl State.preempt s
    if s.tlbCoils.isEmpty then { s with regs := { s.regs with tlbinvc := s.regs.tlbinvc &&& ~~~0x2000 } } else s

/-- What follows a turn or an event: sides, contexts, system calls, coils that leave their cores, and invalidations that wait go on where they
can. -/
def State.settle (s : State) : State := s.unpark.startMccs.settleSyscs.departs.endTlb.endCoilcmd

/-- The end of a turn: time has passed on its quadrant, and the next choice is open. A turn that has been given up has ended already. -/
def State.endTurn (s : State) : State :=
  if s.turn = .free then s
  else
    let t := s.ageTurn.stepped
    { t with turn := .free, rr := t.rr + 1, tried := [] }

end Sys2Proof.Machine
end

