-- ==== Sys2Proof/Machine/Control.lean ====
section
/-! DEFINITION. Branches and calls (06_control.md R152 to R155), hardware loops (R157), pack points (R150, R160, R161), YIELD and NOP (R162, R163),
with the events that end a yield and park a plait (R149). -/

namespace Sys2Proof.Machine

/-! ## Branches and calls (R152 to R155) -/

/-- The target of a label. -/
def labelOf (m : Main) (pc : BitVec 64) : BitVec 64 := pc + BitVec.ofInt 64 (4 * m.simm)

/-- Fibres leave, each to its target, as a branch or as a call. -/
def Iss.leave (x : Iss) (l : Leaves) : Iss := { x with leaves := l }

/-- What a branch with a label or a register states about itself. -/
def Info.jump (sh : Shape) (m : Main) : Info := { (Info.of sh m 4) with setf := none }

/-- BRA (R152). -/
def execBra (m : Main) (s : State) : Answer :=
  issueOk (Info.jump (Instr.bra m).shape m) (fun x => x.leave (x.mask.map (fun i => (i, .branch (labelOf m x.pc))))) s

/-- Whether FCTL.CHKU is set in an active fibre (04_floating.md R107). -/
def Iss.chku (x : Iss) : Bool := (x.act.filterMap x.src.fibre?).any (fun f => f.fctl.getLsbD 1)
/-- Raises DIVU in every active fibre (R153). -/
def Iss.divu (x : Iss) : Iss := { x with c := x.c.onFibres x.act (fun f => f.raise flagDivu) }

/-- BRA.U (R153). -/
def execBraU (m : Main) (s : State) : Answer :=
  issue (Info.jump (Instr.braU m).shape m) (fun x =>
    let all (y : Iss) : Iss := y.leave (y.act.map (fun i => (i, .branch (labelOf m y.pc))))
    if x.mask = x.act then .ok (all x)
    else if x.chku then .trap { Trap.of 7 with count := x.mask.length } x
    else if x.mask.head? = x.act.head? then .ok (all x.divu)
    else .ok x.divu) s

/-- The targets that a register pair holds in the fibres of the mask. -/
def Iss.targets (x : Iss) (a : Nat) : List (Nat × BitVec 64) := x.lanes.map (fun f => (f.idx, f.getVD a))

/-- The fault of targets that are not aligned to 4 bytes, attributed to the branch's PC (R154). -/
def misaligned (l : List (Nat × BitVec 64)) : Option Trap :=
  match l.filter (fun t => t.2.toNat % 4 ≠ 0) with
  | [] => none
  | bad => some { Trap.of 6 with count := bad.length, lanes := bad.map Prod.fst }

/-- A branch to register targets, each fibre to its own (R154, R155). -/
def Iss.jumpTo (x : Iss) (a : Nat) (how : BitVec 64 → Leave) : Res :=
  match misaligned (x.targets a) with
  | some t => .trap t x
  | none => .ok (x.leave ((x.targets a).map (fun t => (t.1, how t.2))))

/-- BRX and BRX.U (R154). -/
def execBrx (m : Main) (s : State) : Answer :=
  issue (Info.jump (Instr.brx m).shape m) (fun x =>
    if m.mod = 0 then x.jumpTo m.a.toNat .branch
    else
      let l := x.targets m.a.toNat
      match misaligned (l.take 1) with
      | some t => .trap t x
      | none =>
        let t0 := (l.head?.map Prod.snd).getD 0
        let go (y : Iss) : Iss := y.leave (y.mask.map (fun i => (i, .branch t0)))
        if x.mask = x.act && l.all (fun t => t.2 = t0) then .ok (go x)
        else if x.chku then .trap { Trap.of 7 with count := x.mask.length } x
        else .ok (go x.divu)) s

/-- Writes the link pair in the fibres of the mask (R155). -/
def Iss.link (x : Iss) (d : Nat) : Iss := x.onMask (fun _ f => f.setVD d (x.pc + BitVec.ofNat 64 (4 * x.words)))

/-- CALL (R155). -/
def execCall (m : Main) (s : State) : Answer :=
  issueOk (Info.jump (Instr.call m).shape m) (fun x =>
    (x.leave (x.mask.map (fun i => (i, .call (labelOf m x.pc))))).link m.d.toNat) s

/-- CALLX (R155): the target is read before the link is written. -/
def execCallx (m : Main) (s : State) : Answer :=
  issue (Info.jump (Instr.callx m).shape m) (fun x =>
    match x.jumpTo m.a.toNat .call with
    | .ok y => .ok (y.link m.d.toNat)
    | r => r) s

/-- RET (R155). -/
def execRet (m : Main) (s : State) : Answer :=
  issue (Info.jump (Instr.ret m).shape m) (fun x => x.jumpTo m.a.toNat .branch) s

/-! ## Hardware loops (R157) -/

/-- The count of a LOOP in a fibre. -/
def loopCount (m : Main) (c : Coil) (f : Fibre) : Nat :=
  if m.d = 0 then (f.getV m.a.toNat).toNat else if m.d = 1 then (c.getS m.a.toNat).toNat else m.b.toNat

/-- Whether a new level nests in a fibre's active levels. -/
def Fibre.nests (f : Fibre) (start lend : BitVec 64) : Bool :=
  match f.loops with
  | [] => true
  | [l] => l.start.toNat ≤ start.toNat && lend.toNat ≤ l.lend.toNat
  | _ => false

/-- LOOP (R157). -/
def execLoop (m : Main) (s : State) : Answer :=
  let n := Info.jump (Instr.loopOp m).shape m
  issue { n with writes := [], reads := if m.d = 0 then [(.v, m.a.toNat)] else if m.d = 1 then [(.s, m.a.toNat)] else [] } (fun x =>
    let lend := labelOf m x.pc
    let start := x.pc + BitVec.ofNat 64 (4 * x.words)
    match x.lanes.filter (fun f => !f.nests start lend) with
    | b :: bad => .trap { Trap.of 8 with count := bad.length + 1, lanes := (b :: bad).map Fibre.idx } x
    | [] =>
      let zero := x.lanes.filter (fun f => loopCount m x.src f = 0)
      let y := x.onMask (fun o f =>
        if loopCount m x.src o = 0 then f
        else { f with loops := { start := start, lend := lend, count := loopCount m x.src o } :: f.loops })
      .ok (y.leave (zero.map (fun f => (f.idx, .skip lend))))) s

/-! ## Pack points (R150, R160, R161) -/

/-- Whether a fibre is held at a pack point. -/
def Fibre.heldAt (f : Fibre) (pc : BitVec 64) (k : PackKind) : Bool := f.status = .held pc k
/-- The fibres held at a pack point. -/
def Coil.heldAt (c : Coil) (pc : BitVec 64) (k : PackKind) : List Nat := (c.fibres.filter (fun f => f.heldAt pc k)).map Fibre.idx

/-- Releases held fibres (R150): they stand at the next instruction, in new plaits. -/
def State.releaseHeld (s : State) (c : Coil) (l : List Nat) : State × Coil :=
  let c := c.onFibres l (fun f => { f with status := .runnable }.retire f.pc 8 .fall)
  s.formPlaits c (fun f => l.contains f.idx)

/-- The fibres that a pack point releases now (R160, R161). -/
def Coil.packReady (c : Coil) (pc : BitVec 64) (k : PackKind) : List Nat :=
  let held := c.heldAt pc k
  let all := c.live.all (fun f => held.contains f)
  match k with
  | .pack => if held.length ≥ 64 || all then held else []
  | .convmCoil => if all then held else []
  | .convm _ g => held.filter (fun f => (c.grpLive g (grpOf g f)).all (fun e => held.contains e))

/-- The pack points at which fibres of a coil are held. -/
def Coil.packPoints (c : Coil) : List (BitVec 64 × PackKind) :=
  (c.fibres.filterMap (fun f => match f.status with | .held pc k => some (pc, k) | _ => none)).eraseDups

/-- Releases what is ready at each pack point. -/
def State.settlePacks (s : State) (c : Coil) : List (BitVec 64 × PackKind) → State × Coil
  | [] => (s, c)
  | p :: r =>
    match c.packReady p.1 p.2 with
    | [] => s.settlePacks c r
    | l => let q := s.releaseHeld c l; q.1.settlePacks q.2 r

/-- Holds the fibres of the mask at a pack point. -/
def Iss.hold (x : Iss) (k : PackKind) : Iss :=
  let c := x.c.onFibres x.mask (fun f => { f with status := .held x.pc k, place := .side (x.s.nextId + f.idx) })
  let s := { x.s with nextId := x.s.nextId + 1024 }
  let p := s.settlePacks c [(x.pc, k)]
  { x with s := p.1, c := p.2, act := x.act.filter (fun i => !x.mask.contains i) }

/-- PACK (R160). -/
def execPack (m : Main) (s : State) : Answer := issueOk (Info.jump (Instr.pack m).shape m) (fun x => x.hold .pack) s

/-- CONVM (R161). -/
def execConvm (m : Main) (s : State) : Answer :=
  issue { (Info.jump (Instr.convm m).shape m) with impure := true } (fun x =>
    if m.mod = 1 then .ok (x.hold .convmCoil)
    else
      let g := x.src.g.getD m.a.toNat 0
      let out := x.mask.filter (fun f => !grpHas g f)
      if !grpValid g then .trap { Trap.of 0x200 with count := x.mask.length } x
      else if !out.isEmpty then .trap { Trap.of 0x201 with count := out.length, lanes := out } x
      else .ok (x.hold (.convm m.a.toNat g))) s

/-! ## YIELD and NOP (R162, R163) -/

/-- YIELD (R162): its plait does not issue until its limit has passed (log 3). -/
def execYield (m : Main) (s : State) : Answer :=
  issueOk ({ (Info.jump (Instr.yieldOp m).shape m) with impure := true }) (fun x =>
    { x with c := x.c.onFibres x.act (fun f => { f with status := .yielded }) }) s

/-- NOP (R163). -/
def execNop (m : Main) (s : State) : Answer := issueOk (Info.of (Instr.nop m).shape m 1).mute (fun x => x) s

/-! ## Events -/

/-- Makes the fibres of a coil's plait that wait so runnable again, at one PC each. -/
def State.wakePlace (s : State) (id : Nat) (pl : Place) (st : FStatus) : State :=
  match s.coil? id with
  | none => s
  | some c =>
    if !c.resident || !c.fibres.any (fun f => f.place = pl && f.status = st) then s
    else
      let c := { c with fibres := c.fibres.map (fun f => if f.place = pl && f.status = st then { f with status := .runnable } else f) }
      let p := s.split c pl
      p.1.setCoil p.2

/-- The end of a YIELD (R162). -/
def execYieldExpiry (coil slot : Nat) (s : State) : Answer := .next (s.wakePlace coil (.slot slot) .yielded)

/-- The first PACK on a core at which fibres are held. -/
def State.firstPack (s : State) (core : Nat) : Option (Coil × BitVec 64) :=
  s.coils.findSome? (fun c =>
    if c.resident && c.core = core then
      c.packPoints.findSome? (fun p => match p.2 with | .pack => some (c, p.1) | _ => none)
    else none)

/-- The resident coil whose plait is in a slot of a core. -/
def State.coilAt (s : State) (core slot : Nat) : Option Coil :=
  s.coils.find? (fun c => c.resident && c.core = core && c.fibres.any (fun f => f.place = .slot slot))

/-- Whether a plait waits at a collective. -/
def Coil.atCollective (c : Coil) (pl : Place) : Bool :=
  (c.fibres.filter (fun f => f.place = pl)).all (fun f => match f.status with | .arrived _ => true | _ => false)

/-- Whether some plait of a core waits at a collective. -/
def State.anyAtCollective (s : State) (core : Nat) : Bool :=
  (List.range 64).any (fun n => match s.coilAt core n with | some c => c.atCollective (.slot n) | none => false)

/-- When the plait in a slot was placed there. -/
def Coil.sinceAt (c : Coil) (slot : Nat) : Nat := ((c.fibres.find? (fun f => f.place = .slot slot)).map Fibre.since).getD 0

/-- Whether some plait of a core has been in its slot for longer than the one in a slot of a coil. -/
def State.olderPlait (s : State) (core : Nat) (c : Coil) (slot : Nat) : Bool :=
  (List.range 64).any (fun n => match s.coilAt core n with | some d => decide (d.sinceAt n < c.sinceAt slot) | none => false)

/-- Parking (R149): a resident plait gives its slot to a side that waits for one; plaits at a collective go first, and otherwise the one
that has been resident longest. -/
def execParking (core slot : Nat) (s : State) : Answer :=
  match s.sidesWaiting.find? (fun p => match s.coil? p.1 with | some c => c.core = core | none => false), s.coilAt core slot with
  | some w, some c =>
    if (freeSlot (s.slotsUsed core)).isSome
        || (if s.anyAtCollective core then !c.atCollective (.slot slot) else s.olderPlait core c slot) then .next s
    else
      let s := { (s.setCoil (c.movePlace (.slot slot) (.side s.nextId) s.nextId)) with nextId := s.nextId + 1 }
      match s.coil? w.1 with
      | none => .next s
      | some d => .next { s.setCoil (d.movePlace w.2 (.slot slot) s.nextId) with nextId := s.nextId + 1 }
  | _, _ => .next s

end Sys2Proof.Machine
end

