-- ==== Sys2Proof/Machine/Work.lean ====
section
/-! DEFINITION. Work creation (07_work.md R188 to R208): fibres, spawned items, launches, regions, futures, MCC programs, sleep, with the events that
complete a waiting FWAIT and end a sleep. -/

namespace Sys2Proof.Machine

/-! ## Waits that complete later (log 16) -/

/-- Registers a wait of some fibres. -/
def Iss.await (x : Iss) (fibres : List Nat) (flag : Option Nat) (k : WaitKind) : Iss :=
  { x with s := { x.s with nextId := x.s.nextId + 1 }
           c := { x.c with waits := x.c.waits ++ [{ id := x.s.nextId, fibres := fibres, flag := flag, kind := k }] } }

/-- A late result arrives: each register that still waits for it is written, and the flag clears. -/
def Fibre.deliver (f : Fibre) (flag : Option Nat) (l : List (Nat × Word)) : Fibre :=
  let due (r : Nat) : Bool := f.pend.any (fun (e : Pend) => e.cls = .v && e.reg = r && !e.known)
  let f' := l.foldl (fun f w => if due w.1 then f.setV w.1 w.2 else f) f
  let f' := { f' with pend := f'.pend.filter (fun (e : Pend) => !(e.cls = RegCls.v && !e.known && l.any (fun w => w.1 = e.reg))) }
  f'.clearFlag? flag

/-- A late predicate arrives. -/
def Fibre.deliverP (f : Fibre) (flag : Option Nat) (p : Nat) (b : Bool) : Fibre :=
  let due := f.pend.any (fun (e : Pend) => e.cls = .p && e.reg = p && !e.known)
  let f' := if due then f.setP p b else f
  { f' with pend := f'.pend.filter (fun (e : Pend) => !(e.cls = RegCls.p && e.reg = p && !e.known)) }.clearFlag? flag

/-- Takes a wait out of its coil. -/
def Coil.dropWait (c : Coil) (id : Nat) : Coil := { c with waits := c.waits.filter (fun w => w.id ≠ id) }
/-- A wait by its id. -/
def Coil.wait? (c : Coil) (id : Nat) : Option Wait := c.waits.find? (fun w => w.id = id)

/-! ## Fibres (R197, R198) -/

/-- The windows that a coil's partition holds (08_memory.md R223). -/
def Coil.windows (c : Coil) : Nat := partWblk c.partw * 65536 / (4 * c.window)

/-- The lowest free fibre index, if a fibre and a window are free (R197). -/
def Coil.freeIdx (c : Coil) : Option Nat :=
  if c.fibres.length ≥ min 1024 c.windows then none
  else (List.range 1024).find? (fun i => !c.live.contains i)

/-- Puts a fibre into a coil, in the order of the index. -/
def Coil.addFibre (c : Coil) (f : Fibre) : Coil :=
  { c.sees [f.idx] with fibres := c.fibres.filter (fun g => g.idx < f.idx) ++ f :: c.fibres.filter (fun g => g.idx > f.idx) }

/-- FIBNEW in one fibre after another (R197). -/
def Iss.spawnFibres (x : Iss) (m : Main) : List Fibre → Iss
  | [] => x
  | f :: r =>
    match x.c.freeIdx with
    | none => { x with c := x.c.onFibre f.idx (fun g => g.setV m.d.toNat 0xFFFFFFFF) }.spawnFibres m r
    | some i =>
      let g := { Fibre.new i x.c.window (f.getVD m.a.toNat) (f.getVs m.b.toNat 4) f.fctl 4 with status := .provisional f.idx }
      { x with c := (x.c.addFibre g).onFibre f.idx (fun h => h.setV m.d.toNat (BitVec.ofNat 32 i)) }.spawnFibres m r

/-- FIBNEW (R197). -/
def execFibnew (m : Main) (s : State) : Answer :=
  issue ((Info.of (Instr.fibnew m).shape m 12).impureIf true) (fun x =>
    match misaligned (x.targets m.a.toNat) with
    | some t => .trap t x
    | none => .ok (x.spawnFibres m x.lanes)) s

/-- Fibres leave their coil: collectives and pack points that waited for them are adjusted (R198). -/
def Iss.endFibres (x : Iss) (l : List Nat) : Res :=
  let x := { x with act := x.act.filter (fun i => !l.contains i), c := { x.c with fibres := x.c.fibres.filter (fun f => !l.contains f.idx) } }
  match x.c.mismatch with
  | some f => .gone (x.s.mismatched x.c f)
  | none =>
    let p := x.s.settleInsts x.c (x.c.insts.map Inst.id)
    let q := p.1.settlePacks p.2 p.2.packPoints
    .ok { x with s := q.1, c := q.2 }

/-- FIBEND (R198). A fibre of a recovery coil may not end so (13_surrogate.md R360). -/
def execFibend (m : Main) (s : State) : Answer :=
  issue (Info.jump (Instr.fibend m).shape m).commit (fun x => x.commitThen id (fun x => x.endFibres x.mask)) s

/-! ## Spawned items (R199) -/

/-- A fault of one lane of an instruction that acts in one lane after another: precise in the first lane, before any effect, and imprecise once
lanes before it have had theirs (15_system.md R409). -/
def Iss.laneFault (x : Iss) (some_ : Bool) (t : Trap) : Res := if some_ then .late { t with late := true } x else .trap t x

/-- SPAWN in one lane after another, with SPAWN_OVERFLOW of the first that cannot push; those below it have pushed their items. -/
def Iss.spawnItems (x : Iss) (target : BitVec 64) (m : Main) (some_ : Bool) : List Fibre → Res
  | [] => .ok x
  | f :: r =>
    match x.s.pushItem { core := x.c.core, rcb := target, asid := x.c.asid, pc := f.getVD m.b.toNat, args := f.getVs m.c 4,
                         fctl := f.fctl &&& 7, acquire := false, spill := false } with
    | none => x.laneFault some_ { Trap.of 0x205 with count := 1, lanes := [f.idx] }
    | some s => { x with s := s }.spawnItems target m true r

/-- SPAWN (R199). PC_ALIGN is checked in every lane at issue, and RCB_STATE after the commit, before any lane pushes; the spec orders neither
(DESIGN CHOICE, log 129). -/
def execSpawn (m : Main) (s : State) : Answer :=
  issue ((Info.of (Instr.spawn m).shape m 4).commit) (fun x =>
    let t := x.src.getSD m.a.toNat
    let lanes := x.lanes
    match misaligned (x.targets m.b.toNat) with
    | some t => .trap t x
    | none =>
      x.commitThen id (fun x =>
        let target := if t = 0 then x.c.rcb else t
        if !lanes.isEmpty && x.s.rcbState x.c.asid target ≠ 1 then
          .trap { Trap.of 0x203 with count := lanes.length, lanes := lanes.map Fibre.idx } x
        else x.spawnItems target m false lanes)) s

/-! ## Launches (R182, R201, R202) -/

/-- Whether a PARTW breaks a rule for a number of fibres and a window (08_memory.md R223). A field above its range, an SLOG over 64 or an ABLK over
16, is among them (DEDUCED, log 149: the table gives the ranges, and the list of offences leaves these out). -/
def partBad (w : Word) (fibres win : Nat) : Bool :=
  w.getLsbD 31 || w.toNat / 2 ^ 21 % 8 ≠ 0 || w.getLsbD 15 || w.getLsbD 7 || partSlog w > 64 || partAblk w > 16 || partWblk w = 0
  || partWblk w + partSblk w + partAblk w > 128 || partSblk w > partSlog w || fibres * win * 4 > partWblk w * 65536

/-- Whether a launch packet breaks a rule of its own fields (R182). A CTXBASE that is not aligned to 64 KiB is none, and is used as it is (DESIGN
CHOICE, log 148: 08_memory.md R214 asks for the alignment and gives no fault). -/
def packetBad (p : BitVec 512) : Bool :=
  let win := pkt p 0x1C 2
  pkt p 0 1 ≠ 1 || pkt p 1 1 > 1 || pkt p 2 2 > 1023 || pkt p 4 4 = 0 || win % 8 ≠ 0 || win < 8 || win > 256 || pkt p 0x1E 1 > 7
  || pkt p 0x1F 1 ≠ 0 || pkt p 8 8 % 4 ≠ 0 || partBad (BitVec.ofNat 32 (pkt p 0x18 4)) (pkt p 2 2 + 1) win

/-- What accepting a launch packet comes to: the code of a refusal, or the state with its coils queued (R180, R182, R200). An RCB address that is
not aligned to 64 bytes is LAUNCH_PACKET (DESIGN CHOICE, log 146: R178 asks for the alignment, and R182 does not list it). -/
def State.acceptLaunch (s : State) (asid : BitVec 12) (p : BitVec 512) (own : BitVec 64) (queue : BitVec 16) (seq : Option Nat) (die : Nat)
    (joins : Bool) : Except Nat State :=
  let named := BitVec.ofNat 64 (pkt p 0x10 8)
  let ctx := BitVec.ofNat 64 (pkt p 0x20 8)
  let rcb := if named = 0 then own else named
  let st := s.rcbState asid rcb
  let known := (s.rcbCtx asid rcb).bind RcbCtx.ctxbase
  if packetBad p || rcb.toNat % 64 ≠ 0 then .error 0x204
  else if st = 1 && s.rcbForeign asid rcb then .error 0x204
  else if named ≠ 0 && st ≠ 0 && !(joins && st = 1) then .error 0x203
  else if named = 0 && st ≠ 1 then .error 0x203
  else if st = 1 && known.isSome && known ≠ some ctx then .error 0x204
  else
    let s := if st = 0 then s.rcbActivate asid rcb own (BitVec.ofNat 64 (pkt p 0x28 8)) (some ctx) queue die
      else if known.isNone then s.setRcbCtx asid rcb (some ctx) queue die
      else s
    let l : Launch := { id := s.nextId, packet := p, rcb := rcb, asid := asid, next := 0, queue := queue, seq := seq, die := die }
    .ok ({ s with launches := s.launches ++ [l], nextId := s.nextId + 1 }.checkCores asid rcb)

/-- The 64 bytes of a packet at resolved places, read at the L2. -/
def State.readPacket (s : State) (c : Coil) (l : List Lane) : Except MemFault (BitVec 512) × State :=
  match l with
  | [] => (.ok 0, s)
  | i :: _ =>
    let r := s.readSpot c none false i.spot
    (r.1.map (fun b => BitVec.ofNat 512 (pbNat b)), r.2)

/-- LAUNCH and FORK up to the acceptance of the packet. -/
def Iss.launch (x : Iss) (m : Main) (fork : Bool) (k : Iss → BitVec 512 → Res) : Res :=
  match x.reach (x.src.slot m.mod) { size := 64, align := 1, write := false, spaces := [0], addrAlign := 64 } (x.uniLane m) with
  | .bad r => r
  | .ok l x =>
    x.commitThen (fun x => x.advance m.mod) (fun x =>
      let r := x.s.readPacket x.c l
      let x := { x with s := r.2 }
      match r.1 with
      | .error f => .trap { Trap.of f.code.toNat with sub := f.sub, addr := some f.addr, count := 1 } x
      | .ok p =>
        if fork && pkt p 0x10 8 = 0 then .trap { Trap.of 0x204 with count := 1 } x
        else
          match x.s.acceptLaunch x.c.asid p x.c.rcb (BitVec.ofNat 16 (x.c.task.toNat / 2 ^ 48)) none (dieOf x.c.core) false with
          | .error code => .trap { Trap.of code with count := 1 } x
          | .ok s => k { x with s := s } p)

/-- LAUNCH (R201). -/
def execLaunch (m : Main) (s : State) : Answer :=
  issue ((Info.of (Instr.launch m).shape m 4).through m.mod).commit (fun x => x.launch m false (fun x _ => .ok x)) s

/-- The REGION that follows directly, if there is one: where its region starts, and its live-in count (R191). -/
def Iss.nextRegion (x : Iss) : Option (BitVec 64 × Nat) :=
  let pc := x.pc + BitVec.ofNat 64 (4 * x.words)
  match (x.s.fetchWords x.c.core x.c.asid pc).1 with
  | .error _ => none
  | .ok ws =>
    let m := Main.ofWords (wordAt ws 0) (wordAt ws 1) none
    if lenOf (wordAt ws 0) = 1 && opcOf (wordAt ws 0) = 0x7D && (mainOffence x.c.window (.region m) m).isNone then
      some (pc + 8, m.imm % 512)
    else none

/-- A REGION clears the log of arrivals (09_ordering.md R277). -/
def Fibre.newRegion (f : Fibre) : Fibre := { f with arrivals := [] }

/-- The REGION that follows an instruction which leaves its coil waiting replaces the instruction's own region record (R191, R202; 15_system.md
R422). -/
def Iss.passRegion (x : Iss) : Iss :=
  match x.nextRegion with
  | some (start, n) => { x with c := x.c.onFibres x.act (fun f => (f.record start n).newRegion) }
  | none => x

/-- FORK (R202): after the launch its coil is swapped out until the child RCB leaves ACTIVE, and then goes on after the FORK's REGION. -/
def execFork (m : Main) (s : State) : Answer :=
  issue ((Info.of (Instr.fork m).shape m 4).through m.mod).commit (fun x =>
    x.launch m true (fun x p =>
      let c := x.passRegion.c.counted x.place
      .gone ((x.s.setCoil c).save c (some (BitVec.ofNat 64 (pkt p 0x10 8))) false false))) s

/-! ## Regions (R190) -/

/-- REGION (R190): it waits for every flag and every pending write of its fibres, commits and records the region. -/
def execRegion (m : Main) (s : State) : Answer :=
  issue ({ (Info.jump (Instr.region m).shape m).commit with wait := BitVec.allOnes 12 }) (fun x =>
    if (x.act.filterMap x.c.fibre?).any (fun f => f.pend.any (fun e => !e.known)) then .stall
    else
      match { x with c := x.c.onFibres x.act (fun f => { f with pend := [] }) }.commit (some (m.imm % 512)) with
      | .gone s => .gone s
      | .ok y => .ok { y with c := y.c.onFibres x.act Fibre.newRegion }) s

/-! ## Futures (R203 to R206) -/

/-- The need of an access to a future, whose address is aligned to 32, in GLOBAL (R203, R206). -/
def futureNeed (size : Nat) (write both : Bool) : Need :=
  { size := size, align := 1, write := write, spaces := [0], addrAlign := 32, both := both }

/-- The virtual address of a resolved access. -/
def Spot.va (sp : Spot) : BitVec 64 := sp.addr
/-- The physical address of a resolved access to device memory. -/
def Spot.pa : Spot → Nat
  | .mem (g :: _) _ _ _ => g.pa
  | .hostio pa _ _ _ => pa
  | _ => 0

/-- FNEW (R206): a buffered store of 32 zero bytes. -/
def execFnew (m : Main) (s : State) : Answer :=
  issue (((Info.of (Instr.fnew m).shape m 4).access.through m.mod).impureIf true) (fun x =>
    match x.reach (x.src.slot m.mod) (futureNeed 32 true false) (x.memLanes m m.memOff) with
    | .bad r => r
    | .ok l x => (x.advance m.mod).storeLanes (l.map (fun i => (i, List.replicate 32 0, false)))) s

/-- The record of a releasing fibre (R204). -/
def Iss.agentRec (x : Iss) (fibre : Nat) : Rec := { x.s.coilRec x.c 0 0 0xFF with fibre := some fibre }

/-- The tenant key of a resolved access to device memory. -/
def Spot.key : Spot → Option Nat
  | .mem _ _ _ k => some k
  | _ => none

/-- FRES in one lane after another (R204); a fault is imprecise when lanes before it have resolved their futures (15_system.md R409). -/
def Iss.resolveLanes (x : Iss) (d : Nat) (some_ : Bool) : List Lane → Res
  | [] => .ok x
  | i :: r =>
    let v := ((x.src.fibre? i.fibre).map (fun f => f.getVD d)).getD 0
    let fault (code sub : Nat) (a : BitVec 64) (s : State) : Res :=
      { x with s := s }.laneFault some_ { Trap.of code with sub := sub, addr := some a, count := 1, lanes := [i.fibre] }
    match x.s.resolve x.c.asid i.spot.va x.c.core (x.agentRec i.fibre) 1 v i.spot.key with
    | .done s => { x with s := s.l1Update x.c.core i.spot.pa }.resolveLanes d true r
    | .settled s => fault 0x206 0 i.spot.va s
    | .bad f s => fault f.code.toNat f.sub f.addr s

/-- Goes on, unless lanes meet a line of another tenant (R222; 08_memory.md R232). -/
def Iss.orFaults (x : Iss) (l : List Lane) (k : Iss → Res) : Res :=
  let q := x.s.spotFaults l
  let x := { x with s := q.2 }
  if q.1.isEmpty then k x else .trap (laneTrap x.act q.1) x

/-- FRES (R204, R206). -/
def execFres (m : Main) (s : State) : Answer :=
  issue ((Info.of (Instr.fres m).shape m 4).store.through m.mod).commit (fun x =>
    match x.reach (x.src.slot m.mod) (futureNeed 32 true true) (x.memLanes m m.memOff) (x.s.meets x.c false) with
    | .bad r => r
    | .ok l x => x.commitThen (fun x => x.advance m.mod) (fun x => x.orFaults l (fun x => x.resolveLanes m.d.toNat false l))) s

/-- FTHEN of one record on one future (R203, R204): the state, and the code of a fault. -/
def State.register (s : State) (c : Coil) (r : Rec) (fut : BitVec 64) (pa : Nat) (rec : BitVec 64) : State × Option Nat :=
  let named (s : State) : State := if s.vnat c.asid (rec + 8) 8 = 0 then s.vput c.asid (rec + 8) 8 c.rcb.toNat else s
  let w := s.peek64 pa
  if w.toNat % 4 = 0 then
    let s := (named s).vput c.asid rec 8 (w &&& 0xFFFFFFFFFFFFFFC0).toNat
    (s.vput c.asid fut 8 (rec.toNat), none)
  else if s.vnat c.asid (rec + 0x28) 4 = 0 then (s, some 0x207)
  else
    match (named s).join c.asid rec with
    | .waits s => (s, none)
    | .zero s => (s, some 0x207)
    | .released s => (s.release c.asid c.core r rec, none)

/-- The issuing core's L1 sees what its fibre wrote at a virtual address. -/
def State.l1Record (s : State) (c : Coil) (va : BitVec 64) : State :=
  match (s.translate c.asid va .read).1 with
  | .ok p => s.l1Update c.core p.pa
  | .error _ => s

/-- FTHEN in one lane after another; a fault is imprecise when lanes before it have registered their records. -/
def Iss.registerLanes (x : Iss) (d : Nat) (some_ : Bool) : List Lane → Res
  | [] => .ok x
  | i :: r =>
    let v := ((x.src.fibre? i.fibre).map (fun f => f.getVD d)).getD 0
    let s := match i.spot.key with | some k => x.s.touchLine i.spot.pa k | none => x.s
    let q := (s.healRange i.spot.pa 16).report.register x.c (x.agentRec i.fibre) i.spot.va i.spot.pa v
    let q := (((q.1.l1Update x.c.core i.spot.pa).l1Record x.c v).l1Record x.c (v + 32), q.2)
    match q.2 with
    | none => { x with s := q.1 }.registerLanes d true r
    | some code => { x with s := q.1 }.laneFault some_ { Trap.of code with addr := some v, count := 1, lanes := [i.fibre] }

/-- The faults of the record addresses of FTHEN: alignment, then translation for writing (R206). -/
def Iss.recordFaults (x : Iss) (d : Nat) : List Fibre → List (Nat × MemFault) × State
  | [] => ([], x.s)
  | f :: r =>
    let v := f.getVD d
    if v.toNat % 64 ≠ 0 then let q := x.recordFaults d r; ((f.idx, ⟨0x102, 0, v⟩) :: q.1, q.2)
    else
      let t := x.s.translate x.c.asid v .write
      let q := { x with s := t.2 }.recordFaults d r
      match t.1 with
      | .error e => ((f.idx, e) :: q.1, q.2)
      | .ok _ => q

/-- FTHEN (R204, R206). -/
def execFthen (m : Main) (s : State) : Answer :=
  issue ((Info.of (Instr.fthen m).shape m 4).store.through m.mod).commit (fun x =>
    match x.reach (x.src.slot m.mod) (futureNeed 32 true true) (x.memLanes m m.memOff) (x.s.meets x.c false) with
    | .bad r => r
    | .ok l x =>
      let q := x.recordFaults m.d.toNat x.lanes
      let x := { x with s := q.2 }
      if !q.1.isEmpty then .trap (laneTrap x.act q.1) x
      else x.commitThen (fun x => x.advance m.mod) (fun x => x.orFaults l (fun x => x.registerLanes m.d.toNat false l))) s

/-- An acquire by the fibres of the mask, which find the coil's own memories as they stand (09_ordering.md R256); at CLUS scope or wider it drops
the L1 lines of the coil's address space in its core (R489). -/
def Iss.acquireAt (x : Iss) (wide : Bool) : Iss :=
  { x.sees with s := if wide then x.s.dropL1 x.c.core x.c.asid else x.s }
/-- An acquire at a scope wider than the core. -/
def Iss.acquire (x : Iss) : Iss := x.acquireAt true

/-- What FREAD writes: VALUE, STATE (R206). -/
def futureWords (l : List PByte) : List Word :=
  let w := pbWords 4 l
  [w.getD 2 0, w.getD 3 0, w.getD 0 0 &&& 3]

/-- FREAD (R206): one 16-byte access at the home. -/
def execFread (m : Main) (s : State) : Answer :=
  issue (((Info.of (Instr.fread m).shape m 4).access.late.through m.mod).impureIf true) (fun x =>
    match x.reach (x.src.slot m.mod) (futureNeed 16 false false) (x.memLanes m m.memOff) (x.s.meets x.c false) with
    | .bad r => r
    | .ok l x =>
      let got := x.s.readLanes x.c false l
      let x := { x with s := got.2.2 }
      if !got.2.1.isEmpty then .trap (laneTrap x.act got.2.1) x
      else
        let vals := got.1
        let y := (x.advance m.mod).onMask (fun _ f =>
          match vals.find? (fun v => v.1 = f.idx) with
          | none => f
          | some v =>
            let f := f.setVs m.d.toNat (futureWords v.2)
            if pbBad v.2 then (List.range 3).foldl (fun f i => f.taint (m.d.toNat + i) .data) f else f)
        .ok (if vals.any (fun v => (futureWords v.2).getD 2 0 ≠ 0) then y.acquire else y)) s

/-- The lanes of an access take their lines (08_memory.md R232). -/
def Iss.touches (x : Iss) (l : List Lane) : Iss :=
  { x with s := l.foldl (fun s i => match i.spot with | .mem (g :: _) cache _ k => s.touch (cache = 2) g.pa k | _ => s) x.s }

/-- FWAIT (R206): each fibre completes when its own future settles. -/
def execFwait (m : Main) (s : State) : Answer :=
  issue ({ ((Info.of (Instr.fwait m).shape m 4).access.late.through m.mod) with known := false, impure := true }) (fun x =>
    match x.reach (x.src.slot m.mod) (futureNeed 16 false false) (x.memLanes m m.memOff) (x.s.meets x.c false) with
    | .bad r => r
    | .ok l x =>
      x.orFaults l (fun x =>
        .ok (l.foldl (fun y i => y.await [i.fibre] y.setf (.fwait i.fibre m.d.toNat i.spot.va i.spot.pa)) ((x.touches l).advance m.mod)))) s

/-- The state word and the value of a future as a fibre reads them, its own buffered stores over what is performed. -/
def State.futureOf (s : State) (c : Coil) (fibre pa : Nat) : List PByte :=
  forwardMem c fibre pa ((s.peek pa 16).map (fun b => (b, s.poisoned pa 16)))

/-- A waiting FWAIT completes (R206). -/
def execFwaitComplete (coil k : Nat) (s : State) : Answer :=
  match s.coil? coil with
  | none => .next s
  | some c =>
    match c.wait? k with
    | none => .next s
    | some w =>
      match w.kind with
      | .fwait i vd _ pa =>
        let s := (s.healRange pa 16).report
        let l := s.futureOf c i pa
        let v := futureWords l
        if v.getD 2 0 = 0 then .next s
        else
          let c := (c.dropWait k).onFibre i (fun f =>
            let g := f.deliver w.flag (v.zipIdx.map (fun p => (vd + p.2, p.1)))
            if pbBad l then (List.range 3).foldl (fun g j => g.taint (vd + j) .data) g else g)
          .next ((s.setCoil (c.sees [i])).dropL1 c.core c.asid)
      | _ => .next s

/-! ## MCC programs (R207) -/

/-- The programs that wait in the start queue of a cluster's MCC. -/
def State.mccWaiting (s : State) (core : Nat) : List Nat :=
  s.mccq.filter (fun id => match s.coil? id with | some c => c.resident && c.core / 4 = core / 4 | none => false)

/-- An MCC context at the start of a program (R207; 11_matrix.md R325, R323, R334). -/
def MccCtx.start (run : Nat) (pc : BitVec 64) (args : List DWord) : MccCtx :=
  { slot := none, run := run, ignore := false, a := args ++ List.replicate (32 - args.length) 0, pc := pc, mxtol := 0x37800000, epi := List.replicate 4 { scale := 0x3F800000, ctrl := 0 },
    events := [], reserved := 0, seq := 0 }

/-- ENGFORK (R207). -/
def execEngfork (m : Main) (s : State) : Answer :=
  issue ((Info.of (Instr.engfork m).shape m 4).commit) (fun x =>
    let pc := x.src.getSD m.a.toNat
    let args := BitVec.ofNat 64 x.c.id :: (List.range 4).map (fun i => x.src.getSD (m.b.toNat + 2 * i))
    if x.c.eng = .queued || x.c.eng = .running then .trap { Trap.of 0x208 with count := 1 } x
    else if pc.toNat % 4 ≠ 0 then .trap { Trap.of 6 with count := 1 } x
    else if (x.s.mccWaiting x.c.core).length ≥ 16 then .stall
    else
      x.commitThen id (fun x =>
        .ok { x with
          s := { x.s with mccq := x.s.mccq ++ [x.c.id], nextId := x.s.nextId + 1 }
          c := { x.c with eng := .queued, mcc := some (MccCtx.start x.s.nextId pc args) } })) s

/-- RDV (R207). It waits until the program has halted. -/
def execRdv (m : Main) (s : State) : Answer :=
  issue ((Info.of (Instr.rdv m).shape m 4).access.impureIf true) (fun x =>
    match x.c.eng with
    | .idle => .trap { Trap.of 0x209 with count := 1 } x
    | .faulted => .trap { Trap.of 0x20A with count := 1 } x
    | .queued => .stall
    | .running => .stall
    | .halted a0 => .ok ({ x with c := x.c.setSD m.d.toNat a0 }.acquire)) s

/-! ## PRIO, QPOLL, SLEEPN (R208) -/

/-- PRIO. -/
def execPrio (m : Main) (s : State) : Answer :=
  issueOk ({ (Info.jump (Instr.prio m).shape m) with impure := true }) (fun x => { x with c := { x.c with sub := m.imm % 4 } }) s

/-- QPOLL. -/
def execQpoll (m : Main) (s : State) : Answer :=
  let die := (s.issuer.map (fun c => dieOf c.core)).getD 0
  let lat := if (s.issuerS m.a.toNat).toNat / 64 = die then 40 else 60
  issue ((Info.of (Instr.qpoll m).shape m lat).impureIf true) (fun x =>
    let n := (x.src.getS m.a.toNat).toNat
    if n ≥ 256 then .trap { Trap.of 0x20B with count := 1 } x
    else
      let q := x.s.qslots.getD n QSlot.reset
      .ok { x with c := if q.mapped then x.c.setSs m.d.toNat [BitVec.ofNat 32 (min (q.write - q.read) 0xFFFFFFFF), 1]
                        else x.c.setSs m.d.toNat [0, 0] }) s

/-- SLEEPN: its plait issues nothing until the sleep has passed (log 3). -/
def execSleepn (m : Main) (s : State) : Answer :=
  let n := Info.jump (Instr.sleepn m).shape m
  issueOk { n with writes := [], reads := if m.x.getLsbD 10 then [(.s, m.a.toNat)] else [], impure := true } (fun x =>
    { x with c := x.c.onFibres x.act (fun f => { f with status := .asleep }) }) s

/-- The end of a sleep (R208). -/
def execSleepnExpiry (coil slot : Nat) (s : State) : Answer := .next (s.wakePlace coil (.slot slot) .asleep)

end Sys2Proof.Machine
end

