-- ==== Sys2Proof/Machine/Loads.lean ====
section
/-! DEFINITION. Loads and stores (08_memory.md R237, R238), cache control (R239, R240), handle slots (R218, R219), scratch blocks (R226). -/

namespace Sys2Proof.Machine

/-! ## Faults found at issue that a decoder would find, were the value a field (R219, R226, R238) -/

/-- ILLEGAL_ENCODING, subtype RANGE, with the offending bit and the first word in DETAIL (02_encoding.md R51). -/
def Iss.rangeFault (x : Iss) (opc : Nat) (m : Main) (bit : Nat) : Res :=
  .trap { Trap.of 4 with sub := 2, addr := some x.pc, count := x.mask.length, detail := BitVec.ofNat 64 ((DWord.lo (m.bits opc)).toNat * 2 ^ 32 + bit * 256 + 2) } x

/-! ## What loads and stores state about themselves -/

/-- The same, with D the data of a store: its DATA poison goes to memory (15_system.md R416). -/
def Info.data (n : Info) : Info := { n with soft := n.soft ++ n.writes, writes := [] }
/-- The same, with D a source as well. -/
def Info.rmw (n : Info) : Info := { n with reads := n.reads ++ n.writes }

/-- The spaces that a load or store of n bytes may use (R221). -/
def ldSpaces (n : Nat) : List Nat := if n = 16 then [0, 1, 3] else [0, 1, 2, 3]

/-- The 32-bit registers that n bytes take. -/
def regsOf (n : Nat) : Nat := max 1 (n / 4)

/-! ## Loads (R237) -/

/-- The bytes that resolved lanes read, or the fault of the lanes that fault on the way. -/
def Iss.fetchLanes (x : Iss) (l : List Lane) (k : Iss → List (Nat × List PByte) → Res) : Res :=
  let got := x.s.readLanes x.c true l
  let x := { x with s := got.2.2 }
  if got.2.1.isEmpty then k x got.1 else .trap (laneTrap x.act got.2.1) x

/-- Loads n bytes in each lane of some slot into D. -/
def Iss.loadN (x : Iss) (h : Option Handle) (n d : Nat) (spaces : List Nat) (offs : List (Nat × BitVec 64)) (k : Iss → Iss) : Res :=
  match x.reach h { size := n, align := n, write := false, spaces := spaces } offs (x.s.meets x.c true) with
  | .bad r => r
  | .ok l x =>
    x.fetchLanes l (fun x vals =>
      .ok ((k x).onMask (fun _ f =>
        match vals.find? (fun v => v.1 = f.idx) with
        | some v => f.load d (regsOf n) v.2
        | none => f)))

/-- LD of n bytes. -/
def ldN (sh : Shape) (m : Main) (n : Nat) (s : State) : Answer :=
  issue ((Info.of sh m 4).access.late.through m.mod) (fun x =>
    x.loadN (x.src.slot m.mod) n m.d.toNat (ldSpaces n) (x.memLanes m m.memOff) (fun y => y.advance m.mod)) s

/-- LD_B8 (R237). -/
def execLdB8 (m : Main) (s : State) : Answer := ldN (Instr.ldB8 m).shape m 1 s
/-- LD_B16 (R237). -/
def execLdB16 (m : Main) (s : State) : Answer := ldN (Instr.ldB16 m).shape m 2 s
/-- LD_B32 (R237). -/
def execLdB32 (m : Main) (s : State) : Answer := ldN (Instr.ldB32 m).shape m 4 s
/-- LD_B64 (R237). -/
def execLdB64 (m : Main) (s : State) : Answer := ldN (Instr.ldB64 m).shape m 8 s
/-- LD_B128 (R237). -/
def execLdB128 (m : Main) (s : State) : Answer := ldN (Instr.ldB128 m).shape m 16 s

/-- The bytes that MOD of LDS and STS gives. -/
def spSize (m : Main) : Nat := 2 ^ m.mod

/-- The lanes of an access to the coil's own scratchpad. -/
def Iss.spLanes (x : Iss) (m : Main) (imm : BitVec 64) : List (Nat × BitVec 64) :=
  x.lanes.map (fun f => (f.idx, (f.getV m.a.toNat).setWidth 64 + imm))

/-- LDS (R237). -/
def execLds (m : Main) (s : State) : Answer :=
  issue (Info.of (Instr.lds m).shape m 4).access.late (fun x =>
    x.loadN (some x.c.scratchHandle) (spSize m) m.d.toNat [3] (x.spLanes m m.memOff) id) s

/-- LDU of n bytes: once, for the lowest fibre of the mask (R237; 03_integer.md R92). -/
def lduN (sh : Shape) (m : Main) (n : Nat) (s : State) : Answer :=
  issue ((Info.of sh m 4).access.late.through m.mod) (fun x =>
    match x.reach (x.src.slot m.mod) { size := n, align := n, write := false, spaces := ldSpaces n } (x.uniLane m) with
    | .bad r => r
    | .ok l x =>
      x.fetchLanes l (fun x vals =>
        let b := (vals.head?.map Prod.snd).getD []
        let c := x.c.setSs m.d.toNat (pbWords (regsOf n) b)
        let c := if pbBad b then (List.range (regsOf n)).foldl (fun c i => c.taint (m.d.toNat + i) .data) c else c
        .ok ({ x with c := c }.advance m.mod))) s

/-- LDU_B32 (R237). -/
def execLduB32 (m : Main) (s : State) : Answer := lduN (Instr.lduB32 m).shape m 4 s
/-- LDU_B64 (R237). -/
def execLduB64 (m : Main) (s : State) : Answer := lduN (Instr.lduB64 m).shape m 8 s

/-! ## Stores (R237) -/

/-- REGFILE_UE of a LATENT data register in some lane (15_system.md R416). -/
def Iss.latentData (x : Iss) (d k : Nat) : Option Trap :=
  let bad := x.lanes.filter (fun f => (List.range k).any (fun i => f.poisonOf (d + i) = some .latent))
  if bad.isEmpty then none else some (poisonTrap .latent (bad.map Fibre.idx))

/-- Whether one of k registers is DATA-poisoned. -/
def Fibre.dataBad (f : Fibre) (d k : Nat) : Bool := (List.range k).any (fun i => f.poisonOf (d + i) = some .data)

/-- The low n bytes of the registers from d. -/
def Fibre.regBytes (f : Fibre) (d n : Nat) : List Byte := ((f.getVs d (regsOf n)).flatMap (fun w => leBytes 4 w.toNat)).take n

/-- Stores the low n bytes of D in each lane of some slot. -/
def Iss.storeN (x : Iss) (h : Option Handle) (n d : Nat) (spaces : List Nat) (offs : List (Nat × BitVec 64)) (k : Iss → Iss) : Res :=
  match x.latentData d (regsOf n) with
  | some t => .trap t x
  | none =>
    match x.reach h { size := n, align := n, write := true, spaces := spaces } offs with
    | .bad r => r
    | .ok l x =>
      let data (i : Lane) : Lane × List Byte × Bool :=
        match x.src.fibre? i.fibre with
        | some f => (i, f.regBytes d n, f.dataBad d (regsOf n))
        | none => (i, [], false)
      (k x).storeLanes (l.map data)

/-- ST of n bytes. -/
def stN (sh : Shape) (m : Main) (n : Nat) (s : State) : Answer :=
  issue (((Info.of sh m 4).access.data.through m.mod).impureIf true) (fun x =>
    x.storeN (x.src.slot m.mod) n m.d.toNat (ldSpaces n) (x.memLanes m m.memOff) (fun y => y.advance m.mod)) s

/-- ST_B8 (R237). -/
def execStB8 (m : Main) (s : State) : Answer := stN (Instr.stB8 m).shape m 1 s
/-- ST_B16 (R237). -/
def execStB16 (m : Main) (s : State) : Answer := stN (Instr.stB16 m).shape m 2 s
/-- ST_B32 (R237). -/
def execStB32 (m : Main) (s : State) : Answer := stN (Instr.stB32 m).shape m 4 s
/-- ST_B64 (R237). -/
def execStB64 (m : Main) (s : State) : Answer := stN (Instr.stB64 m).shape m 8 s
/-- ST_B128 (R237). -/
def execStB128 (m : Main) (s : State) : Answer := stN (Instr.stB128 m).shape m 16 s

/-- STS (R237). -/
def execSts (m : Main) (s : State) : Answer :=
  issue ((Info.of (Instr.sts m).shape m 4).access.data.impureIf true) (fun x =>
    x.storeN (some x.c.scratchHandle) (spSize m) m.d.toNat [3] (x.spLanes m m.memOff) id) s

/-! ## MX blocks (R238) -/

/-- Elements of a slot's block. -/
def Handle.mxN (h : Handle) : Nat := if h.mxb32 then 32 else 16
/-- Bytes of a slot's block: 8, 6 or 4 bits an element. -/
def Handle.mxBytes (h : Handle) : Nat :=
  if h.mxfmt = 2 || h.mxfmt = 3 then 3 * h.mxN / 4 else if h.mxfmt = 4 then h.mxN / 2 else h.mxN
/-- The element registers of a slot's block (04_floating.md R125). -/
def Handle.mxRegs (h : Handle) : Nat := blockRegs h.mxfmt h.mxb32
/-- The scale window as a slot of its own. -/
def Handle.scaleHandle (h : Handle) : Handle :=
  { h with base := (h.scale.map Prod.fst).getD 0, len := (h.scale.map Prod.snd).getD 0, attr := h.attr &&& ~~~(6 : Word) }

/-- The element registers of a block's bytes: 8-bit and 4-bit elements in place, 6-bit elements from 3 bytes to 4 containers. -/
def mxUnpack (fmt : Nat) : Nat → List Byte → List Word
  | 0, _ => []
  | p + 1, l =>
    if fmt = 2 || fmt = 3 then
      let w := leNat (l.take 3)
      BitVec.ofNat 32 ((List.range 4).foldl (fun a j => a + w / 2 ^ (6 * j) % 64 * 2 ^ (8 * j)) 0) :: mxUnpack fmt p (l.drop 3)
    else leWord (l.take 4) :: mxUnpack fmt p (l.drop 4)

/-- The bytes of a block's element registers. -/
def mxPack (fmt : Nat) : List Word → List Byte
  | [] => []
  | w :: r =>
    (if fmt = 2 || fmt = 3 then leBytes 3 ((List.range 4).foldl (fun a j => a + w.toNat / 2 ^ (8 * j) % 64 * 2 ^ (6 * j)) 0)
     else leBytes 4 w.toNat) ++ mxPack fmt r

/-- Whether a fault is one that translation finds, after the other checks of R222. -/
def MemFault.late (f : MemFault) : Bool := !([0x100, 0x101, 0x102, 0x103].contains f.code || (f.code = 0x104 && f.sub = 1))

/-- One lane's block and scale: the checks of the elements, the bounds of the scale, then translation. -/
def State.mxLane (s : State) (c : Coil) (h : Handle) (write : Bool) (off : BitVec 64) : Except MemFault (Spot × Spot) × State :=
  if !h.mxpair then (.error ⟨0x101, 0, h.base + off⟩, s)
  else
    let soff := BitVec.ofNat 64 (2 * (off.toNat / h.mxBytes))
    let sh := h.scaleHandle
    let r := s.resolveAt c (some h) { size := h.mxBytes, align := h.mxBytes, write := write, spaces := [0, 3] } off
    let short := soff.toNat + 2 > sh.len
    match r.1 with
    | .error f => (.error (if f.late && short then ⟨0x103, 0, sh.base + soff⟩ else f), r.2)
    | .ok a =>
      let q := r.2.resolveAt c (some sh) { size := 2, align := 2, write := write, spaces := [0] } soff
      (q.1.map (fun b => (a, b)), q.2)

/-- The lanes of an MX access, and the lanes that fault. -/
def State.mxLanes (s : State) (c : Coil) (h : Handle) (write : Bool) :
    List (Nat × BitVec 64) → List (Nat × Spot × Spot) × List (Nat × MemFault) × State
  | [] => ([], [], s)
  | (i, off) :: r =>
    let t := s.mxLane c h write off
    let q := t.2.mxLanes c h write r
    match t.1 with
    | .error f => (q.1, (i, f) :: q.2.1, q.2.2)
    | .ok p => ((i, p) :: q.1, q.2)

/-- Watchpoints over resolved lanes (15_system.md R429). -/
def Iss.watched (x : Iss) (rd wr : Bool) (l : List Lane) (k : Iss → Res) : Res :=
  if x.c.ignoreWatch.contains x.place then k x
  else match x.c.watchHit rd wr l with
    | none => k x
    | some (n, lanes) => x.watchStop n lanes

/-- An MX access up to its resolved lanes. -/
def Iss.mxReach (x : Iss) (opc : Nat) (m : Main) (write : Bool) (k : Iss → Handle → List (Nat × Spot × Spot) → Res) : Res :=
  match x.src.slot m.mod with
  | none =>
    .trap (laneTrap x.act ((x.memLanes m m.memOff).map (fun o => (o.1, ⟨0x100, 0, o.2⟩)))) x
  | some h =>
    if h.mxpair && m.d.toNat + h.mxRegs + 1 > x.c.window then x.rangeFault opc m 29
    else
      let r := x.s.mxLanes x.c h write (x.memLanes m m.memOff)
      let x := { x with s := r.2.2 }
      let also (e : Nat × Spot × Spot) : Option MemFault := if write then none else (x.s.meets x.c true e.2.1).or (x.s.meets x.c true e.2.2)
      if !r.2.1.isEmpty then
        .trap (laneTrap x.act (mergeFaults (x.memLanes m m.memOff) r.2.1 (r.1.filterMap (fun e => (also e).map (fun f => (e.1, f)))))) x
      else x.watched (!write) write (r.1.flatMap (fun e => [⟨e.1, e.2.1⟩, ⟨e.1, e.2.2⟩])) (fun x => k x h r.1)

/-- The registers of the block that a slot of the issuing coil describes. -/
def State.mxOuts (s : State) (m : Main) : List (RegCls × Nat) :=
  match s.issuer.bind (fun c => c.slot m.mod) with
  | some h => regsFrom .v m.d.toNat (h.mxRegs + 1)
  | none => []

/-- The pieces that a CACHED spot has in device memory. -/
def Spot.cachedSegs : Spot → List Seg
  | .mem l 0 _ _ => l
  | _ => []

/-- The same spot, taken from what the L1 holds. -/
def Spot.held : Spot → Spot
  | .mem l 0 compr tkey => .mem l cacheHeld compr tkey
  | sp => sp

/-- Whether the L1 holds all pieces of a block as one LDMX filled them. -/
def State.blockHeld (s : State) (c : Coil) (l : List Seg) : Bool :=
  match l.map (fun g => (s.l1Line c.core c.asid g.va).bind L1Line.block) with
  | some k :: r => r.all (fun e => e = some k)
  | _ => false

/-- The lines of a block in the L1: dropped, or marked as filled together. -/
def State.onBlock (s : State) (c : Coil) (l : List Seg) (k : L1Line → Option L1Line) : State :=
  { s with l1 := s.l1.filterMap (fun e => if l.any (fun g => e.is c.core c.asid (g.va.toNat / 32)) then k e else some e) }

/-- Reads one lane's block and scale as one access (R238; 09_ordering.md R251): either all of it as the L1 holds it, filled together, or all of it
anew. -/
def State.readBlock (s : State) (c : Coil) (i : Nat) (a b : Spot) : Except MemFault (List PByte × List PByte) × State :=
  let segs := a.cachedSegs ++ b.cachedSegs
  let d := s.draw
  let keep := s.blockHeld c segs && Config.l1Keeps d.1
  let s := if keep then d.2 else d.2.onBlock c segs (fun _ => none)
  let q := s.readSpot c (some i) true (if keep then a.held else a)
  match q.1 with
  | .error f => (.error f, q.2)
  | .ok x =>
    let w := q.2.readSpot c (some i) true (if keep then b.held else b)
    match w.1 with
    | .error f => (.error f, w.2)
    | .ok y => (.ok (x, y), if keep then w.2 else w.2.onBlock c segs (fun e => some { e with block := some d.1 }))

/-- The blocks and scales of some lanes, and the lanes that fault on the way. -/
def State.readBlocks (s : State) (c : Coil) :
    List (Nat × Spot × Spot) → List (Nat × List PByte × List PByte) × List (Nat × MemFault) × State
  | [] => ([], [], s)
  | e :: r =>
    let q := s.readBlock c e.1 e.2.1 e.2.2
    let w := q.2.readBlocks c r
    match q.1 with
    | .error f => (w.1, (e.1, f) :: w.2.1, w.2.2)
    | .ok l => ((e.1, l) :: w.1, w.2)

/-- Loads a block and its scale into the registers from d (R238). -/
def Fibre.loadBlock (f : Fibre) (d : Nat) (h : Handle) (e sc : List PByte) : Fibre :=
  let g := f.setVs d (mxUnpack h.mxfmt h.mxRegs (e.map Prod.fst) ++ [BitVec.ofNat 32 (pbNat sc)])
  if pbBad e || pbBad sc then (List.range (h.mxRegs + 1)).foldl (fun g i => g.taint (d + i) .data) g else g

/-- LDMX (R238). -/
def execLdmx (m : Main) (s : State) : Answer :=
  issue { ((Info.of (Instr.ldmx m).shape m 4).access.late.through m.mod) with writes := s.mxOuts m } (fun x =>
    x.mxReach 0x95 m false (fun x h l =>
      let q := x.s.readBlocks x.c l
      let x := { x with s := q.2.2 }
      if q.2.1.isEmpty then
        .ok ((x.advance m.mod).onMask (fun _ f =>
          match q.1.find? (fun v => v.1 = f.idx) with
          | some v => f.loadBlock m.d.toNat h v.2.1 v.2.2
          | none => f))
      else .trap (laneTrap x.act q.2.1) x)) s

/-- What is left of a buffered store when a later one of its fibre to a range is performed before it: the bytes outside that range. -/
def Store.outside (st : Store) (fibre pa n : Nat) : List Store :=
  match st.tgt, st.op with
  | .mem q va big side compr unc tkey, .bytes d bad =>
    if st.fibre = fibre && q < pa + n && pa < q + d.length then
      let hi := pa + n - q
      (if pa ≤ q then [] else [{ st with op := .bytes (d.take (pa - q)) bad }])
      ++ (if d.length ≤ hi then [] else
            [{ st with tgt := .mem (q + hi) (va + BitVec.ofNat 64 hi) big side compr unc tkey, op := .bytes (d.drop hi) bad }])
    else [st]
  | _, _ => [st]

/-- Performs an entry at once. -/
def Iss.storeNow (x : Iss) (st : Store) : Iss :=
  let l := match st.tgt, st.op with
    | .mem pa _ _ _ _ _ _, .bytes d _ => x.c.stores.flatMap (fun e => e.outside st.fibre pa d.length)
    | _, _ => x.c.stores
  { x with s := (x.s.performStore x.c st).1, c := { x.c with stores := l } }

/-- Stores blocks and their scales at once, each as one unit that every fibre finds at once (R227; 09_ordering.md R251). -/
def Iss.storeUnits (x : Iss) (l : List (Lane × List Byte × Bool)) : Iss :=
  l.foldl (fun x e =>
    match e.1.spot with
    | .scratch g => let p := writeScrs (x.s, x.c.showAll none (scrUnits g)) g e.2.1 e.2.2; { x with s := p.1, c := p.2 }
    | sp => (storesOf e.1.fibre x.pc e.2.2 sp e.2.1).foldl Iss.storeNow x) x

/-- STMX (R238). Through a SCRATCH slot it is a scratchpad store, which is not buffered (R227); its scale, which forms one unit of single-copy
atomicity with the block, is then written with it (DEDUCED, log 136). -/
def execStmx (m : Main) (s : State) : Answer :=
  issue { (((Info.of (Instr.stmx m).shape m 4).access.data.through m.mod).impureIf true) with soft := guardReg m.gsel.toNat ++ s.mxOuts m } (fun x =>
    x.mxReach 0x96 m true (fun x h l =>
      match x.latentData m.d.toNat (h.mxRegs + 1) with
      | some t => .trap t x
      | none =>
        let puts : List (Lane × List Byte × Bool) := l.flatMap (fun e =>
          match x.src.fibre? e.1 with
          | none => []
          | some f =>
            [(⟨e.1, e.2.1⟩, (mxPack h.mxfmt (f.getVs m.d.toNat h.mxRegs)).take h.mxBytes, f.dataBad m.d.toNat h.mxRegs),
             (⟨e.1, e.2.2⟩, leBytes 2 (f.getV (m.d.toNat + h.mxRegs)).toNat, f.dataBad (m.d.toNat + h.mxRegs) 1)])
        if h.space = 3 then x.orFaults (l.map (fun e => ⟨e.1, e.2.2⟩)) (fun x => .ok ((x.advance m.mod).storeUnits puts))
        else (x.advance m.mod).storeLanes puts)) s

/-! ## Cache control (R239, R240) -/

/-- What cache control states about itself: D selects the operation. -/
def Info.cache (sh : Shape) (m : Main) : Info := ((Info.of sh m 4).access.mute).through m.mod

/-- The need of an operand of cache control. -/
def lineNeed (spaces : List Nat) : Need := { size := 1, align := 1, write := false, spaces := spaces }

/-- Fills the L1 with the sectors of the 256-byte line of an address (R230, R239). -/
def State.fillLine (s : State) (c : Coil) (g : Seg) : State :=
  (List.range 8).foldl (fun s i =>
    let r := s.l1Sector c.core c.asid (BitVec.ofNat 64 (g.va.toNat / 256 * 256 + 32 * i)) g.big (g.pa / 256 * 256 + 32 * i)
    match r.1 with | .ok _ => r.2 | .error _ => s) s

/-- PF: it does nothing where it would fault (R239). -/
def prefetch (sh : Shape) (m : Main) (l1 : Bool) (s : State) : Answer :=
  issueOk { Info.cache sh m with mild := true } (fun x =>
    let r := x.s.resolveLanes x.c (x.src.slot m.mod) (lineNeed [0, 1]) (x.memLanes m m.memOff)
    if !r.2.1.isEmpty then x
    else
      let fill (s : State) (i : Lane) : State :=
        match i.spot with
        | .mem (g :: _) cache _ tkey =>
          if s.keyClash g.pa tkey || cache = 2 then s
          else if l1 && cache = 0 then (s.touchLine g.pa tkey).fillLine x.c g else s.touchLine g.pa tkey
        | _ => s
      { x with s := r.1.foldl fill r.2.2 }.advance m.mod) s

/-- PF_L1 (R239). -/
def execPfL1 (m : Main) (s : State) : Answer := prefetch (Instr.pfL1 m).shape m true s
/-- PF_L2 (R239). -/
def execPfL2 (m : Main) (s : State) : Answer := prefetch (Instr.pfL2 m).shape m false s

/-- A CCTL on the line of each lane. -/
def cacheOp (sh : Shape) (m : Main) (op : Coil → State → Seg → State) (s : State) : Answer :=
  issue (Info.cache sh m) (fun x =>
    match x.reach (x.src.slot m.mod) (lineNeed [0, 1]) (x.memLanes m m.memOff) with
    | .bad r => r
    | .ok l x =>
      let y := { x with s := l.foldl (fun s (i : Lane) => match i.spot with | .mem (g :: _) _ _ _ => op x.c s g | _ => s) x.s }
      .ok (y.advance m.mod)) s

/-- Drops the L1 data line of an address (R239). -/
def State.dropL1Line (s : State) (c : Coil) (va : BitVec 64) : State :=
  { s with l1 := s.l1.filter (fun e => !(e.core = c.core && e.asid = c.asid && e.vsec / 8 = va.toNat / 256)) }

/-- CCTL_INV (R239). -/
def execCctlInv (m : Main) (s : State) : Answer := cacheOp (Instr.cctlInv m).shape m (fun c s g => s.dropL1Line c g.va) s
/-- CCTL_INVALL (R239): it uses no operand. -/
def execCctlInvall (m : Main) (s : State) : Answer :=
  issueOk (Info.of (Instr.cctlInvall m).shape m 4).access.mute
    (fun x => { x with s := x.s.dropL1 x.c.core x.c.asid }) s
/-- CCTL_WB (R239): DRAM and the L2 line hold the same bytes (log 24). -/
def execCctlWb (m : Main) (s : State) : Answer := cacheOp (Instr.cctlWb m).shape m (fun _ s _ => s) s
/-- CCTL_WBINV (R239). -/
def execCctlWbinv (m : Main) (s : State) : Answer := cacheOp (Instr.cctlWbinv m).shape m (fun _ s g => s.dropLine (g.pa / 256)) s

/-- Drops the 256-byte line of an address from the instruction cache of one core, or of every core (R239, log 10). -/
def State.dropCode (s : State) (core : Option Nat) (asid : BitVec 12) (va : BitVec 64) : State :=
  { s with icache := s.icache.filter (fun e =>
      !((core.isNone || core = some e.core) && e.asid = asid && e.va.toNat / 256 = va.toNat / 256)) }

/-- ICINV: a commit point, after which the lines are dropped (R239, R240). -/
def icinv (sh : Shape) (m : Main) (dev : Bool) (s : State) : Answer :=
  issue { (Info.cache sh m).commit with impure := false } (fun x =>
    match x.reach (x.src.slot m.mod) (lineNeed [0]) (x.memLanes m m.memOff) with
    | .bad r => r
    | .ok l x =>
      x.commitThen (fun x => x.advance m.mod) (fun x =>
        .ok { x with s := l.foldl (fun s i => s.dropCode (if dev then none else some x.c.core) x.c.asid i.spot.va) x.s })) s

/-- ICINV_CORE (R239). -/
def execIcinvCore (m : Main) (s : State) : Answer := icinv (Instr.icinvCore m).shape m false s
/-- ICINV_DEV (R239, R240). -/
def execIcinvDev (m : Main) (s : State) : Answer := icinv (Instr.icinvDev m).shape m true s

/-! ## Handle slots (R215, R218, R219) -/

/-- The entry that 32 bytes of the handle table make, with no scale window. -/
def Handle.ofBytes (l : List Byte) (idx : Nat) : Handle :=
  let x := leNat l
  { base := BitVec.ofNat 64 x, len := x / 2 ^ 64 % 2 ^ 48, peer := BitVec.ofNat 16 (x / 2 ^ 112), attr := BitVec.ofNat 32 (x / 2 ^ 128),
    egrp := x / 2 ^ 176 % 256, tkey := x / 2 ^ 184 % 256, sync := BitVec.ofNat 64 (x / 2 ^ 192), idx := idx, scale := none }

/-- PAIR of an entry. -/
def pairOf (l : List Byte) : Nat := leNat l / 2 ^ 160 % 2 ^ 16

/-- Whether an entry is invalid (R215). -/
def Handle.invalid (h : Handle) : Bool :=
  !h.attr.getLsbD 0 || h.attr.toNat / 2 ^ 21 ≠ 0 || h.attr.toNat / 2 ^ 9 % 128 ≠ 0 || h.attr.getLsbD 5 || h.cache = 3
  || (h.mxpair && h.mxfmt ≥ 6) || h.base.toNat % 16 ≠ 0 || h.len = 0 || (h.space = 2 && h.cache ≠ 2)
  || (h.space = 3 && h.base.toNat + h.len > 2 ^ 22) || h.idx < 2

/-- What a read of the handle table gives: an entry, HANDLE_INVALID, or a fault of the access. -/
inductive Entry where
  | ok (h : Handle) (s : State)
  | invalid (s : State)
  | bad (f : MemFault) (s : State)

/-- The virtual address of an entry (R214). -/
def entryVa (ctxbase : BitVec 64) (i : Nat) : BitVec 64 := ctxbase + BitVec.ofNat 64 (32 * i)

/-- The bytes of an entry. The read comes from memory, and refreshes what the core's L1 holds of the sector: a later CACHED load of the coil is
never older (R253). -/
def State.entryBytes (s : State) (core : Nat) (asid : BitVec 12) (va : BitVec 64) : Except MemFault (List Byte) × State :=
  let r := s.translate asid va .read
  match r.1 with
  | .ok x => (.ok (r.2.peek x.pa 32), r.2.l1Update core x.pa)
  | .error f => (.error f, r.2)

/-- Reads entry i with a displacement, and its scale entry (R218). -/
def State.readEntry (s : State) (core : Nat) (asid : BitVec 12) (ctxbase : BitVec 64) (i : Nat) (disp : DWord) : Entry :=
  if i > 2047 then .invalid s
  else
    let r := s.entryBytes core asid (entryVa ctxbase i)
    match r.1 with
    | .error f => .bad f r.2
    | .ok l =>
      let h := Handle.ofBytes l i
      let snap : Handle := { h with base := h.base + disp, len := h.len - disp.toNat }
      if h.invalid || disp.toNat ≥ h.len then .invalid r.2
      else if !h.mxpair then .ok snap r.2
      else if pairOf l > 2047 then .invalid r.2
      else
        let q := r.2.entryBytes core asid (entryVa ctxbase (pairOf l))
        match q.1 with
        | .error f => .bad f q.2
        | .ok l2 =>
          let p := Handle.ofBytes l2 (pairOf l)
          if p.invalid || p.space ≠ 0 then .invalid q.2 else .ok { snap with scale := some (p.base, p.len) } q.2

/-- HBIND (R218). The slot is written when the entry has come (R244). -/
def execHbind (m : Main) (s : State) : Answer :=
  issue ((Info.of (Instr.hbind m).shape m 4).access.late.writing [(.hs, m.mod)]) (fun x =>
    match x.s.readEntry x.c.core x.c.asid x.c.ctxbase (x.src.getS m.a.toNat).toNat (x.src.getSD m.b.toNat) with
    | .invalid s => .trap { Trap.of 0x100 with count := 1 } { x with s := s }
    | .bad f s => .trap { Trap.of f.code.toNat with sub := f.sub, addr := some f.addr, count := 1 } { x with s := s }
    | .ok h s => .ok { x with s := s, c := { x.c with hs := x.c.hs.set m.mod (some h) } }) s

/-- HQRY (R219). -/
def execHqry (m : Main) (s : State) : Answer :=
  issueOk ((Info.of (Instr.hqry m).shape m 4).alsoReads [(.hs, m.mod)]) (fun x =>
    let w : List Word := match x.src.slot m.mod with
      | none => [0, 0, 0, 0]
      | some h => [BitVec.ofNat 32 h.len, BitVec.ofNat 32 (h.len / 2 ^ 32), h.attr, BitVec.ofNat 32 (h.idx + 2 ^ 31)]
    { x with c := x.c.setSs m.d.toNat w }) s

/-! ## Scratch blocks (R226) -/

/-- The pool block that holds a resident logical block. -/
def Coil.poolOf (c : Coil) (i : Nat) : Nat := c.pool.getD (c.blocks.idxOf i) 0

/-- Swaps a resident block for a backed one. The device chooses anew which of the coil's pool blocks holds which logical block. -/
def Iss.swapBlocks (x : Iss) (out into : Nat) : Res :=
  let w := x.s.translate x.c.asid (x.c.backing out) .write
  match w.1 with
  | .error f => .trap { Trap.of f.code.toNat with sub := f.sub, addr := some f.addr, count := 1 } { x with s := w.2 }
  | .ok _ =>
    let r := w.2.translate x.c.asid (x.c.backing into) .read
    match r.1 with
    | .error f => .trap { Trap.of f.code.toNat with sub := f.sub, addr := some f.addr, count := 1 } { x with s := r.2 }
    | .ok _ =>
      let p := r.2.blockOut x.c out
      let d := p.1.draw
      let q := d.2.blockIn { p.2 with blocks := (p.2.blocks.filter (fun b => b ≠ out)) ++ [into],
                                      pool := pickBlocks d.1 p.2.pool p.2.pool.length } into
      .ok { x with s := q.1, c := q.2 }

/-- SPTMAP_SWAP (R226). -/
def execSptmapSwap (m : Main) (s : State) : Answer :=
  issue (Info.of (Instr.sptmapSwap m).shape m 4).access (fun x =>
    let a := (x.src.getS m.a.toNat).toNat
    let b := (x.src.getS m.b.toNat).toNat
    if a ≥ 64 then x.rangeFault 0x9E m 37
    else if b ≥ 64 then x.rangeFault 0x9E m 45
    else if a ≥ partSlog x.c.partw || b ≥ partSlog x.c.partw then .trap { Trap.of 0x103 with count := 1 } x
    else
      match x.c.blocks.contains a, x.c.blocks.contains b with
      | false, true => x.swapBlocks b a
      | true, false => x.swapBlocks a b
      | _, _ => .ok x) s

/-- SPTMAP_RD (R226). -/
def execSptmapRd (m : Main) (s : State) : Answer :=
  issue (Info.of (Instr.sptmapRd m).shape m 4).access (fun x =>
    let a := (x.src.getS m.a.toNat).toNat
    if a ≥ 64 then x.rangeFault 0x9E m 37
    else if a ≥ partSlog x.c.partw then .ok { x with c := x.c.setSD m.d.toNat 0 }
    else
      let back := (x.c.backing a).toNat / 65536 % 2 ^ 41 * 65536
      if x.c.blocks.contains a then
        .ok { x with c := x.c.setSD m.d.toNat (BitVec.ofNat 64 (2 ^ 63 + 2 ^ 62 + back + x.c.poolOf a % 128)) }
      else .ok { x with c := x.c.setSD m.d.toNat (BitVec.ofNat 64 (2 ^ 63 + back)) }) s

end Sys2Proof.Machine
end

