-- ==== Sys2Proof/Machine/Atomics.lean ====
section
/-! DEFINITION. Atomic instructions (08_memory.md R241 to R243). -/

namespace Sys2Proof.Machine

/-! ## The selector (R241) -/

/-- OP of the selector. -/
def amoSelOp (m : Main) : Nat := m.b.toNat % 16
/-- W: whether the operand has 64 bits. -/
def amoWide (m : Main) : Bool := m.b.getLsbD 4
/-- Whether ORD has an acquire. -/
def amoAcq (m : Main) : Bool := m.b.getLsbD 5

/-- An operand of an atomic from D. -/
def Fibre.amoArg (f : Fibre) (wide : Bool) (d : Nat) : DWord := if wide then f.getVD d else (f.getV d).setWidth 64

/-- An operation on one location: what replaces the old value, if anything does, and the message that asks a peer for it. -/
structure Amo where
  next : DWord → Option DWord
  ask : BitVec 16 → BitVec 64 → OutMsg

/-- Performs an atomic at the line's home, or asks the peer, whose answer is free: the old value, and whether it is poisoned (R221, R242, log 13). -/
def State.amoAt (s : State) (c : Coil) (sp : Spot) (wide : Bool) (op : Amo) : (DWord × Bool) × State :=
  match sp with
  | .mem (g :: _) cache compr tkey =>
    let s := ((s.touch (cache = 2) g.pa tkey).healRange g.pa (amoBytes wide)).report
    let old := leDWord (s.peek g.pa (amoBytes wide))
    ((old, s.poisoned g.pa (amoBytes wide)),
     (match op.next old with
      | some v => (s.perform g.pa (leBytes (amoBytes wide) v.toNat) false g.side compr).report
      | none => s).l1Update c.core g.pa)
  | .peer dev va n _ =>
    let q := s.outside va.toNat n
    ((BitVec.ofNat 64 (pbNat q.1), false), { q.2 with out := q.2.out ++ [op.ask dev va] })
  | _ => ((0, false), s)

/-- The bytes of a piece of the scratchpad, as an atomic sees them. -/
def scrOld (s : State) (c : Coil) (g : ScrSeg) : DWord × Bool :=
  let l := s.readScr c g
  (BitVec.ofNat 64 (pbNat l), pbBad l)

/-- Writes an old value to D. -/
def Fibre.putOld (f : Fibre) (wide : Bool) (d : Nat) (v : DWord × Bool) : Fibre :=
  let f := f.put wide d v.1
  if v.2 then (List.range (if wide then 2 else 1)).foldl (fun f i => f.taint (d + i) .data) f else f

/-- Performs an atomic in one lane after another (R242): each sees what the one before left. -/
def Iss.amoLanes (x : Iss) (wide : Bool) (d : Nat) (op : Fibre → Amo) : List Lane → Iss
  | [] => x
  | i :: r =>
    match x.src.fibre? i.fibre with
    | none => x.amoLanes wide d op r
    | some f =>
      let q := x.s.amoAt x.c i.spot wide (op f)
      { x with s := q.2, c := x.c.onFibre i.fibre (fun g => g.putOld wide d q.1) }.amoLanes wide d op r

/-- What an atomic needs of its operand: it reads and writes (15_system.md R429). -/
def amoNeed (n : Nat) (spaces : List Nat) : Need := { size := n, align := n, write := true, spaces := spaces, both := true }

/-- A global atomic: a commit point, with the acquire that ORD asks for (R242; 09_ordering.md R489). When a lane faults after the commit, no
lane takes effect (R222). -/
def Iss.amo (x : Iss) (m : Main) (op : Fibre → Amo) : Res :=
  match x.reach (x.src.slot m.mod) (amoNeed (amoBytes (amoWide m)) [0, 1]) (x.memLanes m 0) (x.s.meets x.c false) with
  | .bad r => r
  | .ok l x =>
    x.commitThen (fun x => x.advance m.mod) (fun x =>
      x.orFaults l (fun x =>
        let y := x.amoLanes (amoWide m) m.d.toNat op l
        .ok (if amoAcq m then y.acquire else y)))

/-- ATOM (R242). -/
def execAtom (m : Main) (s : State) : Answer :=
  issue ((Info.of (Instr.atom m).shape m 4).late.rmw.through m.mod).commit (fun x =>
    x.amo m (fun f =>
      let a := f.amoArg (amoWide m) m.d.toNat
      { next := fun old => some (amoOp (amoSelOp m) (amoWide m) old a)
        ask := fun dev va => .peerAtomic dev va (amoSelOp m) (amoWide m) a })) s

/-- What CAS states about itself: it reads the comparand and the new value, and writes the comparand's registers. -/
def Info.cas (n : Info) (wide : Bool) (d : Nat) : Info := { n.rmw with writes := regsFrom .v d (if wide then 2 else 1) }

/-- CAS (R243). -/
def execCas (m : Main) (s : State) : Answer :=
  issue (((Info.of (Instr.cas m).shape m 4).late.cas (amoWide m) m.d.toNat).through m.mod).commit (fun x =>
    x.amo m (fun f =>
      let w := amoWide m
      let a := f.amoArg w m.d.toNat
      let b := f.amoArg w (m.d.toNat + if w then 2 else 1)
      { next := fun old => if old = a then some b else none
        ask := fun dev va => .peerCas dev va w a b })) s

/-- The entry of the store buffer that an ATRED makes (R234, R242). -/
def redOf (fibre : Nat) (pc : BitVec 64) (op : Nat) (wide : Bool) (a : DWord) : Spot → List Store
  | .mem (g :: _) cache compr tkey =>
    [{ fibre := fibre, pc := pc, tgt := .mem g.pa g.va g.big g.side compr (cache = 2) tkey, op := .red op wide a }]
  | .peer dev va _ tkey => [{ fibre := fibre, pc := pc, tgt := .peer dev va tkey, op := .red op wide a }]
  | _ => []

/-- ATRED (R242): buffered like a store. -/
def execAtred (m : Main) (s : State) : Answer :=
  issue (((Info.of (Instr.atred m).shape m 4).access.store.through m.mod).impureIf true) (fun x =>
    match x.reach (x.src.slot m.mod) (amoNeed (amoBytes (amoWide m)) [0, 1]) (x.memLanes m 0) with
    | .bad r => r
    | .ok l x =>
      let arg (i : Nat) : DWord := ((x.src.fibre? i).map (fun f => f.amoArg (amoWide m) m.d.toNat)).getD 0
      let new := l.flatMap (fun i => redOf i.fibre x.pc (amoSelOp m) (amoWide m) (arg i.fibre) i.spot)
      (x.advance m.mod).pushStores l new) s

/-- Performs an atomic on the scratchpad in one lane after another (R227, R242). -/
def Iss.amoScr (x : Iss) (m : Main) : List Lane → Iss
  | [] => x
  | i :: r =>
    match x.src.fibre? i.fibre, i.spot with
    | some f, .scratch (g :: _) =>
      let w := amoWide m
      let s := x.s.healScr [g]
      let old := scrOld s x.c g
      let p := writeScr (s, s.noteScr x.c [i]) g (leBytes (amoBytes w) (amoOp (amoSelOp m) w old.1 (f.amoArg w m.d.toNat)).toNat) false
      { x with s := p.1, c := p.2.onFibre i.fibre (fun h => h.putOld w m.d.toNat old) }.amoScr m r
    | _, _ => x.amoScr m r

/-- ATOMS (R242). -/
def execAtoms (m : Main) (s : State) : Answer :=
  issue (((Info.of (Instr.atoms m).shape m 4).access.late.rmw).impureIf true) (fun x =>
    match x.reach (some x.c.scratchHandle) (amoNeed (amoBytes (amoWide m)) [3]) (x.spLanes m 0) with
    | .bad r => r
    | .ok l x =>
      let y := x.amoScr m l
      .ok (if amoAcq m then y.sees else y)) s

end Sys2Proof.Machine
end

