-- ==== Sys2Proof/Machine/Engines.lean ====
section
/-! DEFINITION. What the engines share: copy descriptors (10_copy_gather.md R290, R295), tile registers and their records (11_matrix.md R309 to
R311, R321), power leave (17_module.md R468), their accesses to memory (10_copy_gather.md R291, R296), and the identity of their commands. -/

namespace Sys2Proof.Machine

/-! ## Descriptors (10_copy_gather.md R290, R295) -/

/-- Fields of CTRL. -/
def ctrlTile (d : BitVec 512) : Nat := cmdCtrl d / 2 ^ 27
def ctrlMap (d : BitVec 512) : Bool := (cmdCtrl d).testBit 25
def ctrlFut (d : BitVec 512) : Bool := (cmdCtrl d).testBit 24
def ctrlStw (d : BitVec 512) : Bool := (cmdCtrl d).testBit 23
def ctrlRel (d : BitVec 512) : Nat := cmdCtrl d / 2 ^ 20 % 8
def ctrlAcq (d : BitVec 512) : Nat := cmdCtrl d / 2 ^ 17 % 8
/-- The barrier that a command names. -/
def ctrlBar (d : BitVec 512) : Option Nat := if (cmdCtrl d).testBit 16 then some (cmdCtrl d / 2 ^ 12 % 16) else none
def ctrlIslot (d : BitVec 512) : Nat := cmdCtrl d / 2 ^ 9 % 8
def ctrlCslot (d : BitVec 512) : Nat := cmdCtrl d / 2 ^ 6 % 8
def ctrlLslot (d : BitVec 512) : Nat := cmdCtrl d / 2 ^ 3 % 8
def ctrlSslot (d : BitVec 512) : Nat := cmdCtrl d % 8
/-- Rows and bytes per row of a copy. -/
def cpyRows (d : BitVec 512) : Nat := pkt d 0x14 4
def cpyRowb (d : BitVec 512) : Nat := pkt d 0x10 4

/-! ## Barriers that commands name -/

/-- Whether an engine command that is not over names barrier n of a coil (09_ordering.md R271). -/
def State.barNamed (s : State) (c : Coil) (n : Nat) : Bool :=
  s.copies.any (fun (k : CopyCmd) =>
    ctrlBar k.desc = some n &&
    (if k.kind = .cpym then k.cores.any (fun core => (s.cpymCoil k core).any (fun d => d.id = c.id)) else k.coil = c.id))
  || s.mxq.any (fun (k : MxCmd) => k.owner = c.id && k.bar = some n)

/-! ## Tile registers (11_matrix.md R309 to R311) -/

/-- The fields of a tile reservation record. -/
def recBase (r : DWord) : Nat := r.toNat % 4096 * 16
def recRows (r : DWord) : Nat := r.toNat / 2 ^ 15 % 128 + 1
def recCols (r : DWord) : Nat := r.toNat / 2 ^ 22 % 128 + 1
def recFmt (r : DWord) : Nat := r.toNat / 2 ^ 29 % 16
def recBlk (r : DWord) : Nat := r.toNat / 2 ^ 33 % 4
def recSoff (r : DWord) : Nat := r.toNat / 2 ^ 35 % 4096 * 16
def recCs (r : DWord) : Bool := r.getLsbD 47
def recCsoff (r : DWord) : Nat := r.toNat / 2 ^ 48 % 4096 * 16

/-- The width of an element of a tile format in bits (R310). -/
def fmtBits (f : Nat) : Nat := if f = 2 || f = 3 then 6 else if f = 4 then 4 else if f = 7 || f = 8 then 16 else if f = 9 then 32 else 8
/-- The row pitch in bytes. -/
def recPitch (r : DWord) : Nat := 16 * ((recCols r * fmtBits (recFmt r) + 127) / 128)
/-- The block length, 0 for none. -/
def recLen (r : DWord) : Nat := if recBlk r = 1 then 16 else if recBlk r = 2 then 32 else 0
/-- Blocks in a row. -/
def recBlocks (r : DWord) : Nat := if recLen r = 0 then 0 else recCols r / recLen r

/-- Whether a record is invalid (R310). -/
def recInvalid (r : DWord) : Bool :=
  r.toNat / 2 ^ 60 ≠ 0 || r.toNat / 2 ^ 12 % 8 ≠ 0 || recFmt r ≥ 10 || recBlk r = 3
  || (recFmt r = 5 && recBlk r = 0) || (recFmt r ≥ 6 && recBlk r ≠ 0)
  || (recBlk r ≠ 0 && recCols r % recLen r ≠ 0)
  || recBase r + recRows r * recPitch r > 65536
  || (recBlk r ≠ 0 && recSoff r + 2 * (recRows r * recBlocks r) > 65536)
  || (recCs r && recCsoff r + 4 * recRows r > 65536)

/-- A tile register that a coil reserves. -/
def Coil.tile? (c : Coil) (n : Nat) : Option Tile := c.tiles.find? (fun t => t.num = n)
/-- Puts a tile register. -/
def Coil.putTile (c : Coil) (t : Tile) : Coil := { c with tiles := c.tiles.map (fun u => if u.num = t.num then t else u) }

/-- An accumulator of a coil. -/
def Coil.acc? (c : Coil) (n : Nat) : Option Acc := c.accs.find? (fun a => a.num = n)
/-- Puts an accumulator. -/
def Coil.putAcc (c : Coil) (a : Acc) : Coil := { c with accs := c.accs.map (fun b => if b.num = a.num then a else b) }

/-- The tiles that a queued command names. -/
def MxCmd.tiles (k : MxCmd) : List Nat :=
  match k.op with
  | .mma st _ => [st.ta, st.tb]
  | .drain t _ => [t]
  | _ => []

/-- The operand tiles that a queued command names. -/
def MxCmd.operands (k : MxCmd) : List Nat :=
  match k.op with
  | .mma st _ => [st.ta, st.tb]
  | _ => []

/-- Whether a tile register is held by a pending accumulation (R321): a command of an OPEN segment names it, executed or queued. -/
def State.tileHeld (s : State) (c : Coil) (n : Nat) : Bool :=
  c.accs.any (fun (a : Acc) => a.st = .opened && a.names.contains n)
  || s.mxq.any (fun (k : MxCmd) => k.target = c.id && k.operands.contains n)

/-- Bytes of a tile register. -/
def Tile.read (t : Tile) (off n : Nat) : List Byte := cellsRead t.bytes off n
/-- Whether a 32-byte unit that some bytes touch is poisoned (15_system.md R416). -/
def Tile.bad (t : Tile) (off n : Nat) : Bool := t.poison.any (fun u => decide (u * 32 < off + n) && decide (off < u * 32 + 32))
/-- Bytes of a tile register with their poison. -/
def Tile.readP (t : Tile) (off n : Nat) : List PByte :=
  (t.read off n).zipIdx.map (fun e => (e.1, t.poison.contains ((off + e.2) / 32)))

/-- The units that are written whole, and all the units, of a write. -/
def unitsFull (off n : Nat) : List Nat := (List.range (n / 32 + 2)).filterMap (fun i =>
  let u := off / 32 + i
  if off ≤ u * 32 && u * 32 + 32 ≤ off + n then some u else none)
def unitsAll (off n : Nat) : List Nat := (List.range (n / 32 + 2)).filterMap (fun i =>
  let u := off / 32 + i
  if u * 32 < off + n then some u else none)

/-- Writes bytes to a tile register. -/
def Tile.write (t : Tile) (off : Nat) (d : List Byte) (bad : Bool) : Tile :=
  let rest := t.poison.filter (fun u => !(unitsFull off d.length).contains u)
  { t with bytes := cellsWrite t.bytes off d
           poison := if bad then (rest ++ (unitsAll off d.length).filter (fun u => !rest.contains u)) else rest }

/-- Writes bytes with their poison, each unit of 32 bytes in one step (09_ordering.md R251). -/
def Tile.put (t : Tile) (off : Nat) (l : List PByte) : Tile :=
  (pieces (l.length / 32 + 2) off l.length).foldl (fun t e =>
    let d := (l.drop (e.1 - off)).take e.2
    t.write e.1 (d.map Prod.fst) (pbBad d)) t

/-! ## Power leave (17_module.md R468) -/

/-- The cores that CORES_AVAIL shows. -/
def State.coresPresent (s : State) : Nat := ((List.range 256).filter s.present).length
/-- PKGW, HEAVY and DEPTH. -/
def State.pwrPkgw (s : State) : Nat := s.regs.pwrctl.toNat / 2 ^ 32 % 2 ^ 16
def State.pwrHeavy (s : State) : Nat := s.regs.pwrctl.toNat / 2 ^ 24 % 256
def State.pwrDepth (s : State) : Nat := max 1 (s.regs.pwrctl.toNat / 2 ^ 16 % 256)
/-- U, the units that a bucket gains in a microsecond. -/
def State.pwrUnits (s : State) : Nat := max 16 (s.pwrPkgw * s.pwrHeavy * 1000 / (256 * s.coresPresent * 32))

/-- A core's bucket. -/
def State.bucket (s : State) (core : Nat) : Bucket := s.buckets.getD core { tokens := 0, waiting := [] }
/-- Puts a core's bucket. -/
def State.setBucket (s : State) (core : Nat) (b : Bucket) : State := { s with buckets := s.buckets.set core b }

/-- No bucket holds more than DEPTH times U (R468). -/
def State.clampBuckets (s : State) : State :=
  { s with buckets := s.buckets.map (fun b => { b with tokens := min (s.pwrDepth * s.pwrUnits) b.tokens }) }

/-- A request of some class: granted, or it waits, and the PWRWAIT cycles of the asking coil are counted (R305, R338). -/
def State.leave (s : State) (core : Nat) (u : PowerUser) (cls coil : Nat) : Bool × State :=
  let b := s.bucket core
  let rest := b.waiting.filter (fun w => w ≠ u)
  if (b.waiting.isEmpty || b.waiting.head? = some u) && b.tokens ≥ cls then
    (true, s.setBucket core { tokens := b.tokens - cls, waiting := rest })
  else
    let s := s.setBucket core { b with waiting := if b.waiting.contains u then b.waiting else b.waiting ++ [u] }
    let d := s.draw
    (false, match s.coil? coil with
      | some c => d.2.setCoil { c with pwr := c.pwr + Config.pwrWait d.1 }
      | none => s)

/-- A request that is no longer made. -/
def State.unask (s : State) (core : Nat) (u : PowerUser) : State :=
  s.setBucket core { s.bucket core with waiting := (s.bucket core).waiting.filter (fun w => w ≠ u) }

/-! ## Memory accesses of engines -/

/-- Whether a coil is over. -/
def Coil.isOver (c : Coil) : Bool := c.st = .ended || c.st = .killed

/-- A coil as its engines access it: when it is not on a core, every scratch block is backed (07_work.md R193). What a coil that is over held is
there for the commands that still run, or that a drain lets end their chunk (10_copy_gather.md R302, R303). -/
def Coil.forEngine (c : Coil) : Coil := if c.resident || c.isOver then c else { c with blocks := [] }

/-- An engine reads n bytes at an offset of a slot, through the L2. -/
def State.engRead (s : State) (c : Coil) (h : Handle) (off : BitVec 64) (n : Nat) : Except MemFault (List PByte) × State :=
  let c := c.forEngine
  let r := s.resolveAt c (some h) { size := n, align := 1, write := false, spaces := [0, 1, 3] } off
  match r.1 with
  | .error f => (.error f, r.2)
  | .ok sp => r.2.readSpot c none false sp

/-- Bytes with no poison. -/
def plainBytes (l : List Byte) : List PByte := l.map (fun b => (b, false))

/-- Performs the writes of translated pieces of memory, each with its poison, which the L1 of a core sees (R260). -/
def putSegs (s : State) (core : Nat) (compr : Bool) (tkey : Nat) (unc : Bool) : List Seg → List PByte → State
  | [], _ => s
  | g :: r, d =>
    let l := d.take g.n
    putSegs ((((s.touch unc g.pa tkey).perform g.pa (l.map Prod.fst) (pbBad l) g.side compr).report).l1Update core g.pa) core compr tkey unc r (d.drop g.n)

/-- Writes bytes to the scratchpad, piece by piece, each with its poison. -/
def putScrs (p : State × Coil) : List ScrSeg → List PByte → State × Coil
  | [], _ => p
  | g :: r, d => putScrs (writeScr p g ((d.take g.n).map Prod.fst) (pbBad (d.take g.n))) r (d.drop g.n)

/-- An engine writes bytes to a resolved place of a coil. A line held under another key (08_memory.md R232), or a peer that does not answer
(R294), is found before anything is written. -/
def State.engPut (s : State) (c : Coil) (sp : Spot) (d : List PByte) : Except MemFault Unit × State :=
  let q := s.spotFault sp
  match q.1 with
  | some f => (.error f, q.2)
  | none =>
    match sp with
    | .mem l cache compr tkey => (.ok (), putSegs q.2 c.core compr tkey (cache = 2) l d)
    | .scratch l => let p := putScrs (q.2, c) l d; (.ok (), p.1.setCoil { p.2 with blocks := c.blocks })
    | .peer dev va _ _ => (.ok (), { q.2 with out := q.2.out ++ [.peerStore dev va (d.map Prod.fst)] })
    | .hostio pa _ _ _ => (.ok (), { q.2 with out := q.2.out ++ [.hostStore pa (d.map Prod.fst)] })

/-- An engine writes bytes at an offset of a slot of a coil. A fault of any of them is found before one is written. -/
def State.engWrite (s : State) (id : Nat) (h : Handle) (off : BitVec 64) (d : List PByte) : Except MemFault Unit × State :=
  match s.coil? id with
  | none => (.ok (), s)
  | some c =>
    let r := s.resolveAt c.forEngine (some h) { size := d.length, align := 1, write := true, spaces := [0, 1, 3] } off
    match r.1 with
    | .error f => (.error f, r.2)
    | .ok sp => r.2.engPut c sp d

/-! ## The identity of a command (15_system.md R406) -/

/-- A command's task: the queue id of its coil and the count of the unit that accepted it. -/
def taskOf (c : Coil) (n : Nat) : BitVec 64 := BitVec.ofNat 64 (c.task.toNat / 2 ^ 48 * 2 ^ 48 + n % 2 ^ 48)

/-- A core's registers. -/
def State.coreRegs (s : State) (core : Nat) : CoreRegs := s.cores.getD core CoreRegs.reset
/-- Puts a core's registers. -/
def State.setCoreRegs (s : State) (core : Nat) (r : CoreRegs) : State := { s with cores := s.cores.set core r }

end Sys2Proof.Machine
end

