-- ==== Sys2Proof/Machine/Barriers.lean ====
section
/-! DEFINITION. Barrier registers (09_ordering.md R271 to R277). -/

namespace Sys2Proof.Machine

/-- A barrier register (R271): STATE 0 IDLE, 1 ACTIVE, 2 ERROR, 3 CANCELLED. -/
structure Bar where
  state : Nat
  phase : Nat
  members : Nat
  arrived : Nat
  bytes : Int
  deriving DecidableEq, Repr

/-- The fields of a register. -/
def Bar.ofWord (x : DWord) : Bar :=
  { state := x.toNat / 2 ^ 62, phase := x.toNat / 2 ^ 54 % 256, members := x.toNat / 2 ^ 43 % 2048, arrived := x.toNat / 2 ^ 32 % 2048,
    bytes := x.lo.toInt }

/-- The register of fields. -/
def Bar.word (b : Bar) : DWord :=
  BitVec.ofNat 64 (b.state * 2 ^ 62 + b.phase * 2 ^ 54 + b.members * 2 ^ 43 + b.arrived * 2 ^ 32 + (BitVec.ofInt 32 b.bytes).toNat)

/-- A barrier of a coil. -/
def Coil.bar (c : Coil) (n : Nat) : Bar := Bar.ofWord (c.b.getD n 0)
/-- Puts a barrier. -/
def Coil.putBar (c : Coil) (n : Nat) (b : Bar) : Coil := { c with b := c.b.set n b.word }

/-- A phase completes when all have arrived and all bytes have landed (R272). -/
def Bar.settle (b : Bar) : Bar :=
  if b.state = 1 && b.arrived = b.members && b.bytes = 0 then { b with phase := (b.phase + 1) % 256, arrived := 0 } else b

/-- What a BWAIT for a phase finds: its result, if it need not wait (R275). -/
def Bar.answer (b : Bar) (phase : BitVec 8) : Option Bool :=
  if b.state ≠ 1 then some false else if b.phase ≠ phase.toNat then some true else none

/-- Releases one waiting BWAIT if its barrier lets it go, with the acquire of a phase that has ended (R256). -/
def Coil.wakeWait (c : Coil) (w : Wait) : Coil :=
  match w.kind with
  | .bwait i n pd phase =>
    match (c.bar n).answer phase with
    | none => c
    | some r => ((c.dropWait w.id).onFibre i (fun f => f.deliverP w.flag pd r)).sees (if r then [i] else [])
  | _ => c

/-- Releases every waiting BWAIT that a barrier lets go (R272, R275, R276). -/
def Coil.wakeBar (c : Coil) : Coil := c.waits.foldl Coil.wakeWait c

/-- No fibre has arrived at the current phase of a barrier. -/
def Coil.noneArrived (c : Coil) (n : Nat) : Coil :=
  { c with fibres := c.fibres.map (fun (f : Fibre) => { f with arrived := f.arrived.filter (fun k => k ≠ n) }) }

/-- Puts a barrier after a change: a phase may complete, and waiters may go. -/
def Coil.changeBar (c : Coil) (n : Nat) (b : Bar) : Coil :=
  let d := b.settle
  ((if d.phase = b.phase then c else c.noneArrived n).putBar n d).wakeBar

/-- Adds to BYTES: none when the sum falls outside the field (R272). -/
def Bar.add (b : Bar) (d : Int) : Option Bar :=
  if b.bytes + d < -(2 ^ 31) || b.bytes + d ≥ 2 ^ 31 then none else some { b with bytes := b.bytes + d }

/-- An error of a barrier: STATE becomes ERROR, with a record (R272). -/
def State.barError (s : State) (c : Coil) (n : Nat) (b : Bar) (r : Rec) (code : Nat) : State × Coil :=
  (s.record { r with code := code, sev := (codeSev code).1, act := (codeSev code).2 }, c.changeBar n { b with state := 2 })

/-- One arrival at a barrier with a change of BYTES in the same step (R272, R274): whether it counted. `r` is the record of the agent. -/
def State.arrive (s : State) (c : Coil) (n : Nat) (d : Int) (r : Rec) : State × Coil × Bool :=
  let b := c.bar n
  if b.state ≠ 1 then (s, c, false)
  else
    match b.add d with
    | none => let q := s.barError c n b r 0x305; (q.1, q.2, false)
    | some b =>
      if b.arrived + 1 > b.members then let q := s.barError c n b r 0x304; (q.1, q.2, false)
      else (s, c.changeBar n { b with arrived := b.arrived + 1 }, true)

/-- Bytes that an engine lands (R272). -/
def State.landed (s : State) (c : Coil) (n : Nat) (k : Nat) (r : Rec) : State × Coil :=
  let b := c.bar n
  if b.state ≠ 1 then (s, c)
  else
    match b.add (-(k : Int)) with
    | none => s.barError c n b r 0x305
    | some b => (s, c.changeBar n b)

/-- A command's fault against an ACTIVE barrier (R272). -/
def Coil.barFail (c : Coil) (n : Nat) : Coil :=
  let b := c.bar n
  if b.state = 1 then c.changeBar n { b with state := 2 } else c

/-- The arrival of a command that ends in a fault, which sets the barrier to ERROR in the same step (R272; 10_copy_gather.md R288; 11_matrix.md
R322): its phase may end, and its waiters are answered by an ERROR barrier (R275). -/
def State.arriveFail (s : State) (c : Coil) (n : Nat) (r : Rec) : State × Coil :=
  let b := c.bar n
  if b.state ≠ 1 then (s, c)
  else if b.arrived + 1 > b.members then s.barError c n b r 0x304
  else
    let d := { b with arrived := b.arrived + 1 }.settle
    (s, ((if d.phase = b.phase then c else c.noneArrived n).putBar n { d with state := 2 }).wakeBar)

/-! ## Instructions -/

/-- Whether a fibre waits on a barrier. -/
def Coil.barWaited (c : Coil) (n : Nat) : Bool :=
  c.waits.any (fun w => match w.kind with | .bwait _ k _ _ => k = n | _ => false)

/-- BINIT (R273). -/
def execBinit (m : Main) (s : State) : Answer :=
  issue ((Info.of (Instr.binit m).shape m 4).mute.impureIf true) (fun x =>
    let n := m.d.toNat
    let k := (x.src.getS m.a.toNat).toNat
    if k = 0 || k ≥ 2048 then .trap { Trap.of 0x306 with count := 1 } x
    else if x.c.barWaited n || x.s.barNamed x.c n then .trap { Trap.of 0x307 with count := 1 } x
    else
      let c := (x.c.noneArrived n).putBar n { state := 1, phase := 0, members := k, arrived := 0, bytes := 0 }
      .ok { x with c := { c with fibres := c.fibres.map (fun (f : Fibre) => { f with arrivals := f.arrivals.filter (fun e => e.1 ≠ n) }) } }) s

/-- Arrivals in one fibre after another (R274, R277). -/
def Iss.arriveLanes (x : Iss) (n d : Nat) (bytes : Fibre → Nat) : List Fibre → Iss
  | [] => x
  | f :: r =>
    match f.arrivals.find? (fun e => e.1 = n) with
    | some e => { x with c := x.c.onFibre f.idx (fun g => g.setV d (e.2.setWidth 32)) }.arriveLanes n d bytes r
    | none =>
      let phase := (x.c.bar n).phase
      let q := x.s.arrive x.c n (bytes f) { x.s.coilRec x.c 0 0 0xFF with fibre := some f.idx, count := 1 }
      let log (g : Fibre) : Fibre :=
        if q.2.2 then
          { g with arrivals := (n, BitVec.ofNat 8 phase) :: g.arrivals
                   arrived := if (q.2.1.bar n).phase = phase then n :: g.arrived else g.arrived }
        else g
      { x with s := q.1, c := q.2.1.onFibre f.idx (fun g => (log g).setV d (BitVec.ofNat 32 phase)) }.arriveLanes n d bytes r

/-- BARV (R274). -/
def execBarv (m : Main) (s : State) : Answer :=
  issueOk ((Info.of (Instr.barv m).shape m 4).access.impureIf true) (fun x => x.arriveLanes m.a.toNat m.d.toNat (fun _ => 0) x.lanes) s

/-- BARX (R274). -/
def execBarx (m : Main) (s : State) : Answer :=
  issueOk ((Info.of (Instr.barx m).shape m 4).access.impureIf true) (fun x =>
    x.arriveLanes m.a.toNat m.d.toNat (fun f => ((m.opB false false false).get x.src f).lo.toNat) x.lanes) s

/-- BWAIT in one fibre: it has its result, with an acquire where the phase has ended, or it waits (R275; R256). -/
def Iss.waitBar (x : Iss) (n pd b : Nat) (f : Fibre) : Iss :=
  let phase := (f.getV b).setWidth 8
  match (x.c.bar n).answer phase with
  | some r => { x with c := (x.c.onFibre f.idx (fun g => g.setP pd r)).sees (if r then [f.idx] else []), early := f.idx :: x.early }
  | none => x.await [f.idx] x.setf (.bwait f.idx n pd phase)

/-- BWAIT (R275). -/
def execBwait (m : Main) (s : State) : Answer :=
  issueOk { ((Info.of (Instr.bwait m).shape m 4).writesP m.d.toNat).late with known := false, impure := true } (fun x =>
    x.lanes.foldl (fun y f => y.waitBar m.a.toNat m.d.toNat m.b.toNat f) x) s

/-- BTEST (R275). -/
def execBtest (m : Main) (s : State) : Answer :=
  issueOk ((Info.of (Instr.btest m).shape m 4).impureIf true) (fun x =>
    x.onMask (fun _ f => f.setVD m.d.toNat (x.src.b.getD m.a.toNat 0))) s

/-- BCAN (R276). -/
def execBcan (m : Main) (s : State) : Answer :=
  issueOk ((Info.of (Instr.bcan m).shape m 4).impureIf true) (fun x =>
    { x with c := x.c.changeBar m.a.toNat { x.c.bar m.a.toNat with state := 3 } }) s

end Sys2Proof.Machine
end

