-- ==== Sys2Proof/Machine/Ordering.lean ====
section
/-! DEFINITION. Synchronisation objects, fences and grid barriers (09_ordering.md R258, R267 to R270), with the events that complete a
GBAR.WAIT and write back a late result (02_encoding.md R41). -/

namespace Sys2Proof.Machine

/-! ## Synchronisation objects (R258, R267) -/

/-- EPOCH, HOLD and the reserved word of an object at a physical address. -/
def State.syncEpoch (s : State) (pa : Nat) : Nat := leNat (s.peek pa 8)
def State.syncHold (s : State) (pa : Nat) : Nat := leNat (s.peek (pa + 8) 4)
def State.syncRsv (s : State) (pa : Nat) : Nat := leNat (s.peek (pa + 12) 4)

/-- The object that a slot names, translated. -/
def Iss.syncObj (x : Iss) (slot : Nat) (write : Bool) (k : Iss → Nat → Bool → Res) : Res :=
  match x.src.slot slot with
  | none => .trap { Trap.of 0x100 with count := 1 } x
  | some h =>
    if h.sync = 0 then .trap { Trap.of 0x300 with count := 1 } x
    else
      let t := x.s.translate x.c.asid h.sync (if write then .write else .read)
      let x := { x with s := t.2 }
      match t.1 with
      | .error f => .trap { Trap.of f.code.toNat with sub := f.sub, addr := some f.addr, count := 1 } x
      | .ok p =>
        let x := { x with s := (x.s.healRange p.pa 16).report }
        if write && x.s.refuses p.pa then .trap { Trap.of 0x702 with addr := some h.sync, count := 1 } x
        else if x.s.syncRsv p.pa ≠ 0 then .trap { Trap.of 0x301 with count := 1 } x
        else k x p.pa p.side

/-- A write by the issuing fibre, performed at the home. -/
def Iss.performAt (x : Iss) (pa : Nat) (side : Bool) (d : List Byte) : Iss :=
  { x with s := ((x.s.perform pa d false side true).report).l1Update x.c.core pa }

/-- The scope code and X of the selector. -/
def syncScope (m : Main) : Nat := m.b.toNat % 8
def syncX (m : Main) : Bool := m.b.getLsbD 3

/-- ACQ after its hold: the epoch, read past the L1 (R253), and the acquire at its scope (R267, R489). -/
def Iss.takeEpoch (x : Iss) (m : Main) (pa : Nat) : Iss :=
  let x := { x with s := x.s.l1Update x.c.core pa }
  let x := if m.d = 0 then x else { x with c := x.c.setSD m.d.toNat (BitVec.ofNat 64 (x.s.syncEpoch pa)) }
  x.acquireAt (syncScope m ≥ 3)

/-- ACQ (R267): with X it waits for the hold, and then is a commit point. -/
def execAcq (m : Main) (s : State) : Answer :=
  let n := ((Info.of (Instr.acq m).shape m 4).access.late).alsoReads [(.hs, m.mod)]
  let n := if m.d = 0 then n.mute else n
  issue (if syncX m then n.commit else n.impureIf true) (fun x =>
    x.syncObj m.mod (syncX m) (fun x pa side =>
      if !syncX m then .ok (x.takeEpoch m pa)
      else
        let me := x.c.id + 1
        if x.s.syncHold pa ≠ 0 && x.s.syncHold pa ≠ me then .stall
        else x.commitThen id (fun x => .ok ((x.performAt (pa + 8) side (leBytes 4 me)).takeEpoch m pa)))) s

/-- REL (R267). -/
def execRel (m : Main) (s : State) : Answer :=
  issue ((Info.of (Instr.rel m).shape m 4).alsoReads [(.hs, m.mod)]).commit (fun x =>
    x.syncObj m.mod true (fun x pa side =>
      x.commitThen id (fun x =>
        if syncX m && x.s.syncHold pa ≠ x.c.id + 1 then .trap { Trap.of 0x302 with count := 1 } x
        else
          let x := x.performAt pa side (leBytes 8 (x.s.syncEpoch pa + 1))
          .ok (if syncX m then x.performAt (pa + 8) side [0, 0, 0, 0] else x)))) s

/-! ## Fences (R268) -/

/-- The deltas that are sent and not acknowledged: group, holder, number. -/
def State.outstanding (s : State) : List (Nat × Nat × Nat) := s.deltas.map (fun d => (d.group, d.holder, d.seq))

/-- FENCE (R268): the release half puts a marker in the buffer, the acquire half drops the L1 lines, FENCE.SURV waits for the deltas. -/
def execFence (m : Main) (s : State) : Answer :=
  issueOk ((Info.of (Instr.fence m).shape m 4).access.impureIf true) (fun x =>
    let mark := if m.b = 2 then [] else
      x.mask.map (fun i => ({ fibre := i, pc := x.pc, tgt := .hostio 0 0 false, op := .marker m.mod } : Store))
    let y := { x with c := { x.c with stores := x.c.stores ++ mark } }
    let y := if m.b ≠ 1 then y.acquireAt (m.mod ≥ 3) else y
    if m.mod = 7 && !x.s.deltas.isEmpty then y.mask.foldl (fun y i => y.await [i] y.setf (.surv i y.s.outstanding)) y else y) s

/-- Whether a fence's deltas have all been acknowledged or dropped. -/
def State.survived (s : State) (snap : List (Nat × Nat × Nat)) : Bool := snap.all (fun e => !s.outstanding.contains e)

/-- Ends the FENCE.SURV waits of a coil that are over. -/
def State.endFences (s : State) (c : Coil) : Coil :=
  c.waits.foldl (fun c w =>
    match w.kind with
    | .surv i snap => if s.survived snap then (c.dropWait w.id).onFibre i (fun f => f.clearFlag? w.flag) else c
    | _ => c) c

/-! ## Grid barriers (R269, R270) -/

/-- The lane of a GBAR: its operand has no offset. -/
def Iss.gbarLane (x : Iss) (m : Main) : List (Nat × BitVec 64) :=
  (x.lowest.map (fun f => (f.idx, effOff x.src m.mod (x.src.getS m.a.toNat) 0 f))).toList

/-- What GBAR needs of its operand; an arrival reads it and writes it (15_system.md R429). -/
def gbarNeed (write : Bool) : Need := { size := 16, align := 16, write := write, spaces := [0], both := write }

/-- The place of the one lane of a resolved access. -/
def spotOf (l : List Lane) : Spot := ((l.head?).map Lane.spot).getD (.hostio 0 0 false 0)

/-- Whether a resolved access lies in a page whose coding is SIDE. -/
def Spot.side : Spot → Bool
  | .mem (g :: _) _ _ _ => g.side
  | _ => false

/-- An arrival at a grid barrier, in one step at its home (R270). -/
def Iss.gbarArrive (x : Iss) (m : Main) (sp : Spot) : Res :=
  let s := (x.s.healRange sp.pa 16).report
  let w := wordsIn 4 (s.peek sp.pa 16)
  let count := w.getD 0 0
  let gen := w.getD 1 0
  let target := w.getD 2 0
  if target = 0 || count ≥ target || w.getD 3 0 ≠ 0 then .trap { Trap.of 0x303 with count := 1 } { x with s := s }
  else
    let x := { x with s := s, c := x.c.setS m.d.toNat (BitVec.ofNat 32 gen) }
    .ok (x.performAt sp.pa sp.side (if count + 1 = target then leBytes 4 0 ++ leBytes 4 (gen + 1) else leBytes 4 (count + 1)))

/-- GBAR_ARV (R270). -/
def execGbarArv (m : Main) (s : State) : Answer :=
  issue ((Info.of (Instr.gbarArv m).shape m 4).late.through m.mod).commit (fun x =>
    match x.reach (x.src.slot m.mod) (gbarNeed true) (x.gbarLane m) with
    | .bad r => r
    | .ok l x =>
      x.commitThen (fun x => x.advance m.mod) (fun x => x.orFaults l (fun x => (x.touches l).gbarArrive m (spotOf l)))) s

/-- GBAR_WAIT (R270): it waits until GEN differs from its token. -/
def execGbarWait (m : Main) (s : State) : Answer :=
  issue (((Info.of (Instr.gbarWait m).shape m 4).access.store.through m.mod).impureIf true) (fun x =>
    match x.reach (x.src.slot m.mod) (gbarNeed false) (x.gbarLane m) with
    | .bad r => r
    | .ok l x =>
      x.orFaults l (fun x => .ok (((x.touches l).advance m.mod).await x.act x.setf (.gbar (x.src.getS m.d.toNat) (spotOf l).pa)))) s

/-- The completion of a GBAR.WAIT (R270), which then acquires at its scope. -/
def execGbarWaitComplete (coil k : Nat) (s : State) : Answer :=
  match s.coil? coil with
  | none => .next s
  | some c =>
    match c.wait? k with
    | none => .next s
    | some w =>
      match w.kind with
      | .gbar gen pa =>
        let s := (s.healRange pa 16).report
        if leWord (s.peek (pa + 4) 4) = gen then .next s
        else .next ((s.setCoil (((c.dropWait k).sees w.fibres).onFibres w.fibres (fun f => f.clearFlag? w.flag))).dropL1 c.core c.asid)
      | _ => .next s

/-! ## Late results (02_encoding.md R41) -/

/-- The flag that the collective of an arrived fibre holds. -/
def Coil.instFlag (c : Coil) (id : Nat) : Option Nat :=
  match (c.insts.find? (fun n => n.id = id && !n.done)).map (fun (n : Inst) => n.instr.form) with
  | some (Form.main _ m) => if m.setf = 15 then none else some m.setf
  | _ => none

/-- Whether something that is still to come holds a flag of a fibre. -/
def State.flagHeld (s : State) (c : Coil) (fibre flag : Nat) : Bool :=
  c.waits.any (fun w => w.flag = some flag && w.fibres.contains fibre)
  || s.scouts.any (fun k => k.coil = c.id && k.flag = some flag && k.fibres.contains fibre)
  || s.scrubs.any (fun k => k.coil = c.id && k.flag = some flag && k.fibres.contains fibre)
  || s.sgcalls.any (fun k => k.coil = c.id && k.flag = flag && k.lanes.any (fun l => l.1 = fibre))
  || s.recovery.any (fun e => e.coil = c.id && e.flag = flag && e.fibre = fibre && !e.flags.getLsbD 0)
  || s.coils.any (fun d => d.recOf = some c.id && d.fibres.any (fun f => match f.recov with
      | some e => e.flag = flag && e.fibre = fibre && !e.flags.getLsbD 0
      | none => false))
  || c.fibres.any (fun f => f.idx = fibre && (match f.status with | .arrived i => c.instFlag i = some flag | _ => false))

/-- The writeback of a late result: the flag clears. A number from 12 stands for the results that no flag names. -/
def execResultWriteback (coil fibre flag : Nat) (s : State) : Answer :=
  match s.coil? coil with
  | none => .next s
  | some c =>
    if flag ≥ 12 then
      .next (s.setCoil (c.onFibre fibre (fun f => { f with pend := f.pend.filter (fun e => e.flag.isSome || e.left.isSome || !e.known) })))
    else if s.flagHeld c fibre flag then .next s
    else .next (s.setCoil (c.onFibre fibre (fun f => f.clearFlag flag)))

end Sys2Proof.Machine
end

