-- ==== Sys2Proof/Machine/Copies.lean ====
section
/-! DEFINITION. Copy and gather-scatter commands (10_copy_gather.md R279 to R307): issue, and the events by which a command starts, moves bytes
and ends. -/

namespace Sys2Proof.Machine

/-! ## Fields of a gather descriptor (R295) -/

def gatN (d : BitVec 512) : Nat := pkt d 0x18 4
def gatElb (d : BitVec 512) : Nat := pkt d 0x1C 2
def gatOpx (d : BitVec 512) : Nat := pkt d 0x1E 1
/-- Bytes of an index. -/
def gatIsize (d : BitVec 512) : Nat := if pkt d 0x1F 1 = 1 then 8 else 4
def gatTstr (d : BitVec 512) : Nat := if pkt d 0x38 4 = 0 then gatElb d else pkt d 0x38 4
def gatLstr (d : BitVec 512) : Nat := if pkt d 0x3C 4 = 0 then gatElb d else pkt d 0x3C 4
/-- SOFF or TOFF; DOFF or LOFF; SSTR; DSTR; COFF; FOFF; IOFF. -/
def dSoff (d : BitVec 512) : Nat := pkt d 0 8
def dDoff (d : BitVec 512) : Nat := pkt d 8 8
def dSstr (d : BitVec 512) : Int := (BitVec.ofNat 32 (pkt d 0x18 4)).toInt
def dDstr (d : BitVec 512) : Int := (BitVec.ofNat 32 (pkt d 0x1C 4)).toInt
def dCoff (d : BitVec 512) : Nat := pkt d 0x28 8
def dFoff (d : BitVec 512) : Nat := pkt d 0x30 8
def dIoff (d : BitVec 512) : Nat := pkt d 0x10 8

/-- Whether a command is a copy. -/
def CopyKind.isCopy : CopyKind → Bool
  | .cpy => true | .cpyt => true | .cpym => true | _ => false
/-- Whether a copy writes tile registers. -/
def CopyKind.toTile : CopyKind → Bool
  | .cpyt => true | .cpym => true | _ => false

/-! ## Checks at issue (R285) -/

/-- The range of offsets that rows with a stride cover: from lo, to hi. -/
def rowRange (off : Nat) (stride : Int) (rows rowb : Nat) : Int × Int :=
  let last := (off : Int) + stride * ((rows : Int) - 1)
  (min (off : Int) last, max (off : Int) last + rowb)

/-- COPY_DESC of a copy (R290). -/
def copyDescBad (k : CopyKind) (d : BitVec 512) : Bool :=
  let dst := rowRange (dDoff d) (dDstr d) (cpyRows d) (cpyRowb d)
  dSoff d % 16 ≠ 0 || dDoff d % 16 ≠ 0 || cpyRowb d % 16 ≠ 0 || cpyRowb d < 16 || cpyRowb d > 2 ^ 24 || cpyRows d = 0 || cpyRows d > 65536
  || pkt d 0x18 4 % 16 ≠ 0 || pkt d 0x1C 4 % 16 ≠ 0 || pkt d 0x24 4 ≥ 16 || (if k = .cpym then cpyMask d = 0 else cpyMask d ≠ 0)
  || pkt d 0x38 8 ≠ 0 || ctrlLtile d || ctrlMap d || ctrlRel d = 7 || ctrlAcq d = 7 || ctrlIslot d ≠ 0
  || (if k = .cpy then ctrlTile d ≠ 0 else ctrlLslot d ≠ 0)
  || (!ctrlStw d && !ctrlFut d && ctrlCslot d ≠ 0)
  || (k ≠ .cpy && (dst.1 < 0 || dst.2 > 65536))

/-- GATHER_DESC of a gather or scatter (R295, R297). -/
def gatherDescBad (k : CopyKind) (d : BitVec 512) : Bool :=
  dSoff d % 16 ≠ 0 || dDoff d % 16 ≠ 0 || dIoff d % gatIsize d ≠ 0 || gatN d = 0 || gatN d > 2 ^ 24
  || gatElb d % 16 ≠ 0 || gatElb d < 16 || gatElb d > 32768 || pkt d 0x1F 1 > 1
  || (match k with | .gath => gatOpx d > 2 | .scata => gatOpx d > 5 | _ => gatOpx d ≠ 0)
  || (k ≠ .gath && pkt d 0x24 4 ≠ 0) || pkt d 0x38 4 % 16 ≠ 0 || pkt d 0x3C 4 % 16 ≠ 0 || ctrlRel d = 7 || ctrlAcq d = 7
  || (if ctrlLtile d then ctrlLslot d ≠ 0 else ctrlTile d ≠ 0)
  || (!ctrlStw d && !ctrlFut d && ctrlCslot d ≠ 0)
  || (ctrlLtile d && dDoff d + (gatN d - 1) * gatLstr d + gatElb d > 65536)

/-- The check of one slot that a descriptor names, over the ranges of offsets that are known, each from lo to hi and whether lo is misaligned
(R285, item 4). -/
def slotTrap (h : Option Handle) (spaces : List Nat) (write : Bool) (ranges : List (Bool × Int × Int)) (scratch : Nat) : Option Trap :=
  let at_ (h : Handle) (e : Option (Bool × Int × Int)) : Option (BitVec 64) := some (h.base + BitVec.ofInt 64 ((e.map (fun r => r.2.1)).getD 0))
  match h with
  | none => some { Trap.of 0x100 with count := 1 }
  | some h =>
    let outside (e : Bool × Int × Int) : Bool := e.2.1 < 0 || e.2.2 > h.len || (h.space = 3 && (h.base.toNat : Int) + e.2.2 > scratch)
    if !spaces.contains h.space then some { Trap.of 0x101 with count := 1, addr := at_ h ranges.head? }
    else if write && h.ro then some { Trap.of 0x104 with sub := 1, count := 1, addr := at_ h ranges.head? }
    else match ranges.find? Prod.fst, ranges.find? outside with
      | some e, _ => some { Trap.of 0x102 with count := 1, addr := at_ h (some e) }
      | none, some e => some { Trap.of 0x103 with count := 1, addr := at_ h (some e) }
      | none, none => none

/-- Bytes of the status record with its fault map (R287). -/
def statusLen (k : CopyKind) (d : BitVec 512) : Nat := 16 + if !k.isCopy && ctrlMap d then (gatN d + 63) / 64 * 8 else 0

/-- The first check of the slots that fails (R285, item 4). -/
def slotsTrap (c : Coil) (k : CopyKind) (d : BitVec 512) : Option Trap :=
  let sl (n : Nat) : Option Handle := c.slot n
  let scr := c.scratchLen
  let src :=
    if k.isCopy then slotTrap (sl (ctrlSslot d)) [0, 1, 3] false [(false, rowRange (dSoff d) (dSstr d) (cpyRows d) (cpyRowb d))] scr
    else slotTrap (sl (ctrlSslot d)) [0] (k ≠ .gath) [] scr
  let lin :=
    if k = .cpy then slotTrap (sl (ctrlLslot d)) [0, 1, 3] true [(false, rowRange (dDoff d) (dDstr d) (cpyRows d) (cpyRowb d))] scr
    else if k.toTile || ctrlLtile d then none
    else slotTrap (sl (ctrlLslot d)) [0, 3] (k = .gath) [(false, (dDoff d : Int), ((dDoff d + (gatN d - 1) * gatLstr d + gatElb d : Nat) : Int))] scr
  let idx :=
    if k.isCopy then none
    else slotTrap (sl (ctrlIslot d)) [0, 3] false [(false, (dIoff d : Int), ((dIoff d + gatN d * gatIsize d : Nat) : Int))] scr
  let stw := if ctrlStw d then [(decide (dCoff d % 16 ≠ 0), (dCoff d : Int), ((dCoff d + statusLen k d : Nat) : Int))] else []
  let fut := if ctrlFut d then [(decide (dFoff d % 32 ≠ 0), (dFoff d : Int), ((dFoff d + 32 : Nat) : Int))] else []
  let cpl := if ctrlStw d || ctrlFut d then slotTrap (sl (ctrlCslot d)) (if ctrlFut d then [0] else [0, 3]) true (stw ++ fut) scr else none
  (src.or lin).or (idx.or cpl)

/-- COPY_TILE (R285, item 5): the tile of CPYT, of GATH and SCAT with LTILE, and of a CPYM whose own core is a destination (R293). -/
def State.tileTrap (s : State) (c : Coil) (k : CopyKind) (d : BitVec 512) : Option Trap :=
  let bad (c : Coil) : Bool := (c.tile? (ctrlTile d)).isNone || s.tileHeld c (ctrlTile d)
  let fault : Option Trap := some { Trap.of 0x403 with count := 1 }
  if k = .cpym then
    if (cpyMask d).testBit (c.core % 4) then
      match s.launchCoil c.launch c.core with
      | none => fault
      | some e => if bad e then fault else none
    else none
  else if (k = .cpyt || (!k.isCopy && ctrlLtile d)) && bad c then fault
  else none

/-- The pieces of virtual memory that a side of a copy covers: start and length of each row. -/
def rowsOf (h : Handle) (off : Nat) (stride : Int) (rows rowb : Nat) : List (Nat × Nat) :=
  (List.range rows).map (fun (r : Nat) => ((h.base + BitVec.ofInt 64 ((off : Int) + stride * (r : Int))).toNat, rowb))

/-- The lowest watchpoint that a copy's ranges meet (R285, item 6). -/
def copyWatch (c : Coil) (k : CopyKind) (d : BitVec 512) : Option Nat :=
  let side (h : Option Handle) (write : Bool) (off : Nat) (stride : Int) (w : Watch) : Bool :=
    match h with
    | some h => (h.space = 0 || h.space = 3) && w.sees (!write) write &&
        (rowsOf h off stride (cpyRows d) (cpyRowb d)).any (fun p => w.meets (h.space = 3) p.1 p.2)
    | none => false
  if !k.isCopy then none
  else (List.range 4).find? (fun n =>
    let w := c.watch.getD n Watch.off
    side (c.slot (ctrlSslot d)) false (dSoff d) (dSstr d) w || (k = .cpy && side (c.slot (ctrlLslot d)) true (dDoff d) (dDstr d) w))

/-! ## Rights (R281, R282) -/

/-- Whether a fibre may issue commands. -/
def Decl.allows (d : Decl) (f : Nat) : Bool :=
  match d with
  | .all => true
  | .none => false
  | .range lo hi => lo ≤ f && f < hi

/-- CPYC (R282). -/
def execCpyc (m : Main) (s : State) : Answer :=
  issue ((if m.mod = 3 then Info.of (Instr.cpyc m).shape m 4 else (Info.of (Instr.cpyc m).shape m 4).mute).impureIf true) (fun x =>
    let set (d : Decl) : Res := .ok { x with c := { x.c with decl := d } }
    match m.mod with
    | 0 => set .all
    | 1 =>
      let g := x.src.g.getD m.b.toNat 0
      let k := (x.src.getS m.a.toNat).toNat
      let lo := grpFirst g + k * grpSize g
      if !grpValid g || k * grpSize g ≥ grpCount g then .trap { Trap.of 0x200 with count := 1 } x
      else set (.range lo (min (lo + grpSize g) (grpFirst g + grpCount g)))
    | 2 => set .none
    | _ =>
      let used := (x.s.copies.filter (fun (k : CopyCmd) => k.core = x.c.core)).length
      .ok { x with c := x.c.setS m.d.toNat (BitVec.ofNat 32 (32 - used)) }) s

/-! ## Issue (R280, R284) -/

/-- The 64 bytes of a descriptor at resolved places, read at the L2. -/
def Iss.readDesc (x : Iss) (l : List Lane) (k : Iss → BitVec 512 → Res) : Res :=
  let r := x.s.readPacket x.c l
  let x := { x with s := r.2 }
  match r.1 with
  | .error f => .trap { Trap.of f.code.toNat with sub := f.sub, addr := some f.addr, count := 1 } x
  | .ok d => k x d

/-- Accepts a command (R280): it enters its core's queue with the slots it names as they stand. -/
def Iss.acceptCopy (x : Iss) (c : Coil) (k : CopyKind) (d : BitVec 512) (src : Handle) : Iss :=
  let r := x.s.coreRegs x.c.core
  let cmd : CopyCmd :=
    { id := x.s.nextId, kind := k, core := x.c.core, coil := x.c.id, launch := x.c.launch, asid := x.c.asid, task := taskOf x.c r.copySeq,
      desc := d, src := src, lin := if k.toTile || ctrlLtile d then none else c.slot (ctrlLslot d),
      idx := if k.isCopy then none else c.slot (ctrlIslot d),
      cpl := if ctrlStw d || ctrlFut d then c.slot (ctrlCslot d) else none,
      started := false, drain := x.s.regs.gsdrain.getLsbD 13 && (x.s.regs.gsdrain.setWidth 12 = x.c.asid), todo := [], faults := [], dests := [], destFaults := [] }
  let s := x.s.setCoreRegs x.c.core { r with copySeq := r.copySeq + 1 }
  { x with s := { s with nextId := s.nextId + 1, copies := s.copies ++ [cmd] } }

/-- The handle slots that a descriptor names. -/
def copySlots (k : CopyKind) (d : BitVec 512) : List Nat :=
  ctrlSslot d :: ((if k.toTile || ctrlLtile d then [] else [ctrlLslot d]) ++ (if k.isCopy then [] else [ctrlIslot d])
    ++ (if ctrlStw d || ctrlFut d then [ctrlCslot d] else []))

/-- Goes on with the coil as the reads of some handle slots see it, where a descriptor names them: an open pending HBIND of one is seen old or
new, or raises HAZARD with FCTL.CHKH (02_encoding.md R44, R45). -/
def Iss.seeSlots (x : Iss) (slots : List Nat) (k : Iss → Coil → Res) : Res :=
  let regs := slots.map (fun n => (RegCls.hs, n))
  let la := x.c.fibres.filter (fun f => x.act.contains f.idx)
  if !hazard la x.mask regs [] then k x x.c
  else if la.any (fun f => f.fctl.getLsbD 0) then .trap { Trap.of 5 with count := x.mask.length, lanes := x.mask } x
  else let d := x.s.draw; k { x with s := d.2 } (x.c.seen d.1 regs x.act)

/-- A command instruction after its descriptor has been read (R285, items 3 to 6); `c` is its coil as the slots are seen. -/
def Iss.startCopy (x : Iss) (c : Coil) (k : CopyKind) (d : BitVec 512) : Res :=
  match (slotsTrap c k d).or (x.s.tileTrap x.c k d), c.slot (ctrlSslot d) with
  | some t, _ => .trap t x
  | none, none => .trap { Trap.of 0x100 with count := 1 } x
  | none, some src =>
    match if x.c.ignoreWatch.contains x.place then none else copyWatch c k d with
    | none => .ok (x.acceptCopy c k d src)
    | some n => x.watchStop n (x.mask.take 1)

/-- A command instruction (R284). -/
def copyCommand (sh : Shape) (k : CopyKind) (m : Main) (s : State) : Answer :=
  issue ((Info.of sh m 4).access.through m.mod).commit (fun x =>
    let out := x.mask.filter (fun i => !x.c.decl.allows i)
    if !out.isEmpty then .trap { Trap.of 0x400 with count := out.length, lanes := out } x
    else if (x.s.copies.filter (fun (k : CopyCmd) => k.core = x.c.core)).length ≥ 32 then .stall
    else
      x.commitThen (fun x => x.advance m.mod) (fun y =>
        match y.reach (x.src.slot m.mod) { size := 64, align := 64, write := false, spaces := [0, 3] } (x.uniLane m) with
        | .bad r => r
        | .ok l y => y.readDesc l (fun y d =>
          if (if k.isCopy then copyDescBad k d else gatherDescBad k d) then
            .trap { Trap.of (if k.isCopy then 0x401 else 0x402) with count := 1 } y
          else y.seeSlots (copySlots k d) (fun y c => y.startCopy c k d)))) s

/-- CPY (R284, R291). -/
def execCpy (m : Main) (s : State) : Answer := copyCommand (Instr.cpy m).shape .cpy m s
/-- CPYT (R284, R291). -/
def execCpyt (m : Main) (s : State) : Answer := copyCommand (Instr.cpyt m).shape .cpyt m s
/-- CPYM (R284, R291). -/
def execCpym (m : Main) (s : State) : Answer := copyCommand (Instr.cpym m).shape .cpym m s
/-- GATH (R284, R296). -/
def execGath (m : Main) (s : State) : Answer := copyCommand (Instr.gath m).shape .gath m s
/-- SCAT (R284, R296). -/
def execScat (m : Main) (s : State) : Answer := copyCommand (Instr.scat m).shape .scat m s
/-- SCATA (R284, R297). -/
def execScata (m : Main) (s : State) : Answer := copyCommand (Instr.scata m).shape .scata m s

/-! ## GSTAT (R301) -/

/-- The contexts that an engine holds, ASID and TKEY: the last ones whose elements it has performed, while a command of theirs has more of them
(R299). -/
def State.engContexts (s : State) (eng : Nat) : List (BitVec 12 × Nat) :=
  (s.engines.getD eng []).filter (fun e => s.copies.any (fun (c : CopyCmd) => !c.kind.isCopy && c.started && c.asid = e.1 && !c.todo.isEmpty))

/-- An engine takes an element of a context, at most two at a time (R299). An element is in its engines only in the step that performs it: where
an engine holds two other contexts, neither has an element left in it then, and the older one gives way (DEDUCED, log 139). -/
def State.engTake (s : State) (asid : BitVec 12) (tkey eng : Nat) : State :=
  let l := s.engContexts eng
  let l := if l.any (fun e => e.1 = asid) then l.map (fun e => if e.1 = asid then (asid, tkey) else e) else l.drop (l.length - 1) ++ [(asid, tkey)]
  { s with engines := s.engines.set eng l }

/-- The word of a context slot (R301). -/
def ctxWord (l : List (BitVec 12 × Nat)) (i : Nat) : Word :=
  match l[i]? with
  | some e => BitVec.ofNat 32 (2 ^ 31 + e.2 * 2 ^ 16 + e.1.toNat)
  | none => 0

/-- GSTAT (R301). -/
def execGstat (m : Main) (s : State) : Answer :=
  issueOk ((Info.of (Instr.gstat m).shape m (if m.mod = 2 then 60 else 4)).impureIf true) (fun x =>
    match m.mod with
    | 0 =>
      let n := (x.s.copies.filter (fun (k : CopyCmd) => k.coil = x.c.id)).length
      { x with c := x.c.setS m.d.toNat (BitVec.ofNat 32 n) }
    | 1 => { x with c := x.c.setSD m.d.toNat x.c.last }
    | _ =>
      let n := (x.src.getS m.a.toNat).toNat
      let l := if n ≥ 12 || x.s.regs.memAvail.getD (n + 1) 0 = 0 then [] else x.s.engContexts n
      { x with c := x.c.setSs m.d.toNat [ctxWord l 0, ctxWord l 1] }) s

/-! ## A command's course -/

/-- A command by its id. -/
def State.copy? (s : State) (id : Nat) : Option CopyCmd := s.copies.find? (fun k => k.id = id)
/-- Puts a command. -/
def State.setCopy (s : State) (k : CopyCmd) : State := { s with copies := s.copies.map (fun e => if e.id = k.id then k else e) }

/-- The bytes that a command moves, for its energy class (R305). -/
def CopyCmd.bytes (k : CopyCmd) : Nat :=
  if k.kind.isCopy then cpyRowb k.desc * cpyRows k.desc * (if k.kind = .cpym then k.cores.length else 1) else gatN k.desc * gatElb k.desc

/-- Whether a command asks for power leave (R305). -/
def CopyCmd.asks (k : CopyCmd) : Bool := !k.kind.isCopy || cpyRowb k.desc * cpyRows k.desc > 65536

/-- The granules of a copy, or the elements of a gather or scatter. -/
def CopyCmd.units (k : CopyCmd) : Nat := if k.kind.isCopy then cpyRows k.desc * (cpyRowb k.desc / 16) else gatN k.desc

/-- Whether a command is at the head of its coil's order, with room among the commands in progress on its core (R279, R280). -/
def State.copyReady (s : State) (k : CopyCmd) : Bool :=
  !k.started && ((s.copies.filter (fun (e : CopyCmd) => e.coil = k.coil && !e.started)).head?.map CopyCmd.id) = some k.id
  && (s.copies.filter (fun (e : CopyCmd) => e.core = k.core && e.started)).length < 8

/-- COPY_COMMAND_START (R280, R305). -/
def execCopyCommandStart (id : Nat) (s : State) : Answer :=
  match s.copy? id with
  | none => .next s
  | some k =>
    if !s.copyReady k || k.drain then .next s
    else
      let r := if k.asks then s.leave k.core (.copy id) (min 15 ((k.bytes + 65535) / 65536)) k.coil else (true, s)
      if r.1 then .next (r.2.setCopy { k with started := true, todo := List.range k.units }) else .next r.2

/-- A record of an engine command (R289; 15_system.md R402, R406): its kind and place, its coil and its task. -/
def State.copyRec (s : State) (k : CopyCmd) (inst : Nat) : Rec :=
  let kind := if k.kind.isCopy then 1 else 2
  match s.coil? k.coil with
  | some c => { s.coilRec c 0 kind 0 with loc := locOf k.core inst, task := some k.task }
  | none => { Rec.plain 0 kind (locOf k.core inst) with asid := some k.asid, task := some k.task }

/-- Counts landed bytes on the barrier that a command names, in a coil. -/
def State.landOn (s : State) (k : CopyCmd) (id n : Nat) : State :=
  match ctrlBar k.desc, s.coil? id with
  | some b, some c => let q := s.landed c b n (s.copyRec k 0); q.1.setCoil q.2
  | _, _ => s

/-- Makes the barrier that a command names an ERROR, in a coil. -/
def State.failOn (s : State) (k : CopyCmd) (id : Nat) : State :=
  match ctrlBar k.desc, s.coil? id with
  | some b, some c => s.setCoil (c.barFail b)
  | _, _ => s

/-- A command arrives on the barrier that it names, in a coil (R288). -/
def State.arriveOn (s : State) (k : CopyCmd) (id : Nat) : State :=
  match ctrlBar k.desc, s.coil? id with
  | some b, some c => let q := s.arrive c b 0 { s.copyRec k 0 with count := 1 }; q.1.setCoil q.2.1
  | _, _ => s

/-- A command that ends in a fault arrives on the barrier that it names, which becomes ERROR (R288; 09_ordering.md R272). -/
def State.arriveFailOn (s : State) (k : CopyCmd) (id : Nat) : State :=
  match ctrlBar k.desc, s.coil? id with
  | some b, some c => let q := s.arriveFail c b { s.copyRec k 0 with count := 1 }; q.1.setCoil q.2
  | _, _ => s

/-- Writes bytes to a tile register of a coil, unless it has gone. -/
def State.tilePut (s : State) (id n off : Nat) (l : List PByte) : State :=
  match s.coil? id with
  | none => s
  | some c => match c.tile? n with
    | none => s
    | some t => s.setCoil (c.putTile (t.put off l))

/-- Granule g of a copy: the source offset and the destination offset (R291). -/
def CopyCmd.granule (k : CopyCmd) (g : Nat) : BitVec 64 × BitVec 64 :=
  let per := cpyRowb k.desc / 16
  let r := g / per
  let i := g % per * 16
  (BitVec.ofInt 64 ((dSoff k.desc : Int) + dSstr k.desc * r + i), BitVec.ofInt 64 ((dDoff k.desc : Int) + dDstr k.desc * r + i))

/-- The 256-byte chunk of its row that a granule belongs to (R302). -/
def CopyCmd.chunk (k : CopyCmd) (g : Nat) : Nat × Nat := (g / (cpyRowb k.desc / 16), g % (cpyRowb k.desc / 16) / 16)

/-- Whether some of a granule's chunk has moved, and some has not. -/
def CopyCmd.midChunk (k : CopyCmd) (g : Nat) : Bool :=
  let per := cpyRowb k.desc / 16
  let ch := k.chunk g
  let l := ((List.range 16).map (fun i => ch.2 * 16 + i)).filter (fun i => i < per)
  l.any (fun i => k.todo.contains (ch.1 * per + i)) && l.any (fun i => !k.todo.contains (ch.1 * per + i))

/-- The granule that fills the 32-byte unit of a tile register together with granule g: the one beside it in its row, or else the first that is
still to move there. Both move in one step (09_ordering.md R251; log 82). A drain moves none of a chunk that has not begun (R302). -/
def CopyCmd.partner (k : CopyCmd) (g : Nat) : Option Nat :=
  let other (i : Nat) : Bool := (k.granule i).2.toNat = (k.granule g).2.toNat ^^^ 16 && !(k.drain && !k.midChunk i)
  ((k.todo.filter other).find? (fun i => i + 1 = g || i = g + 1)).or (k.todo.find? other)

/-- The coil whose barrier a CPYM names on a destination core. -/
def State.destCoil (s : State) (k : CopyCmd) (core : Nat) : Option Nat :=
  ((k.dests.find? (fun e => e.1 = core)).map Prod.snd).or ((s.cpymCoil k core).map Coil.id)

/-- Makes the barrier of a CPYM's destination an ERROR, where a coil has been matched. -/
def State.failDest (s : State) (k : CopyCmd) (core : Nat) : State :=
  match s.destCoil k core with
  | some id => s.failOn k id
  | none => s

/-- One destination core of a CPYM takes bytes of granule g, or faults with COPY_DEST (R293). -/
def State.cpymPut (s : State) (k : CopyCmd) (g core off : Nat) (l : List PByte) : State × CopyCmd :=
  if k.destFaults.any (fun e => e.1 = core) then (s, k)
  else
    let fault : State × CopyCmd := (s.failDest k core, { k with destFaults := (core, g) :: k.destFaults })
    match s.cpymCoil k core with
    | none => fault
    | some c =>
      if (c.tile? (ctrlTile k.desc)).isNone || s.tileHeld c (ctrlTile k.desc) then fault
      else ((s.tilePut c.id (ctrlTile k.desc) off l).landOn k c.id l.length, { k with dests := (core, c.id) :: k.dests.filter (fun e => e.1 ≠ core) })

/-- The destinations of a CPYM, one after another. -/
def State.cpymPuts (s : State) (k : CopyCmd) (g off : Nat) (l : List PByte) : List Nat → State × CopyCmd
  | [] => (s, k)
  | core :: r => let q := s.cpymPut k g core off l; q.1.cpymPuts q.2 g off l r

/-- A fault ends a copy (R294). -/
def State.copyFault (s : State) (k : CopyCmd) (g : Nat) (f : MemFault) : State :=
  s.setCopy { k with faults := k.faults ++ [{ elem := g, code := f.code, inst := 0, addr := f.addr }] }

/-- The granules that move in one step with granule g, in the order of their destinations. -/
def CopyCmd.together (k : CopyCmd) (g : Nat) : List Nat :=
  match if k.kind.toTile then k.partner g else none with
  | none => [g]
  | some i => if (k.granule i).2.toNat < (k.granule g).2.toNat then [i, g] else [g, i]

/-- Reads the sources of some granules, with the granule whose read fails. -/
def State.readGranules (s : State) (c : Coil) (k : CopyCmd) : List Nat → Except (Nat × MemFault) (List PByte) × State
  | [] => (.ok [], s)
  | g :: r =>
    let q := s.engRead c k.src (k.granule g).1 16
    match q.1 with
    | .error f => (.error (g, f), q.2)
    | .ok a =>
      let w := q.2.readGranules c k r
      match w.1 with
      | .error f => (.error f, w.2)
      | .ok b => (.ok (a ++ b), w.2)

/-- Puts the bytes of granule g, and of those that move with it, at their destination. -/
def State.putGranule (s : State) (k : CopyCmd) (g : Nat) (l : List PByte) : State :=
  let gs := k.together g
  let k' := { k with todo := k.todo.filter (fun i => !gs.contains i) }
  let off := (k.granule (gs.headD g)).2
  match k.kind, k.lin with
  | .cpym, _ =>
    let q := s.cpymPuts k' g off.toNat l k.cores
    q.1.setCopy q.2
  | .cpy, some h =>
    let w := s.engWrite k.coil h off l
    match w.1 with
    | .error f => w.2.copyFault k g f
    | .ok _ => (w.2.landOn k k.coil 16).setCopy k'
  | _, _ => ((s.tilePut k.coil (ctrlTile k.desc) off.toNat l).landOn k k.coil l.length).setCopy k'

/-- Moves one granule of a copy. -/
def State.moveGranule (s : State) (k : CopyCmd) (g : Nat) : State :=
  match s.coil? k.coil with
  | none => s.setCopy { k with todo := k.todo.filter (· ≠ g) }
  | some c =>
    let r := s.readGranules c k (k.together g)
    match r.1 with
    | .error f => r.2.copyFault k f.1 f.2
    | .ok l => r.2.putGranule k g l

/-- ENGINE_BYTES_LANDED (R288, R291, R292): one 16-byte granule of a copy that runs. A drain lets a chunk of 256 bytes that has begun end
(R302). -/
def execEngineBytesLanded (id granule : Nat) (s : State) : Answer :=
  match s.copy? id with
  | none => .next s
  | some k =>
    if !k.kind.isCopy || !k.started || !k.faults.isEmpty || !k.todo.contains granule || (k.drain && !k.midChunk granule) then .next s
    else .next (s.moveGranule k granule)

/-! ## Elements (R296, R297) -/

/-- An element of a command comes to this: the table offset and the engines that serve it when the index could be read, or its fault. -/
inductive Located where
  | at_ (t : Nat) (engs : List Nat) (s : State)
  | fault (code : BitVec 16) (inst : Nat) (addr : BitVec 64) (s : State)

/-- Whether the linear side of an element meets a watchpoint (R300): GATH writes it, SCAT and SCATA read it. -/
def CopyCmd.linearWatched (k : CopyCmd) (c : Coil) (e : Nat) : Bool :=
  match k.lin with
  | none => false
  | some h =>
    c.watch.any (fun w => w.sees (k.kind ≠ .gath) (k.kind = .gath)
      && w.meets (h.space = 3) (h.base + BitVec.ofNat 64 (dDoff k.desc + e * gatLstr k.desc)).toNat (gatElb k.desc))

/-- Reads index e, finds the table element and checks it (R296, R300). The table address of an element whose index cannot be read is taken to be
that of index 0 (DESIGN CHOICE, log 82). -/
def State.locate (s : State) (c : Coil) (k : CopyCmd) (e : Nat) : Located :=
  match k.idx with
  | none => .fault 0x100 0 0 s
  | some ih =>
    let r := s.engRead c ih (BitVec.ofNat 64 (dIoff k.desc + e * gatIsize k.desc)) (gatIsize k.desc)
    let table := k.src.base + BitVec.ofNat 64 (dSoff k.desc)
    match r.1 with
    | .error f => .fault f.code 0 table r.2
    | .ok l =>
      if pbBad l then .fault 0x806 0 table r.2
      else
        let t := dSoff k.desc + pbNat l * gatTstr k.desc
        let va := k.src.base + BitVec.ofNat 64 t
        let write := k.kind ≠ .gath
        if t + gatElb k.desc > k.src.len then .fault 0x103 0 va r.2
        else
          let q := r.2.resolveAt c (some k.src) { size := gatElb k.desc, align := 1, write := write, spaces := [0] } (BitVec.ofNat 64 t)
          match q.1 with
          | .error f => .fault f.code 0 va q.2
          | .ok (.mem l _ _ tkey) =>
            match l.find? (fun g => q.2.keyClash g.pa tkey) with
            | some g => .fault 0x109 (q.2.stackIdx g.pa) va q.2
            | none =>
              if c.watch.any (fun w => w.sees (k.kind ≠ .scat) write && l.any (fun g => w.meets false g.va.toNat g.n)) || k.linearWatched c e then
                .fault 0xD 0 va q.2
              else .at_ t (l.map (fun g => q.2.stackIdx g.pa)).eraseDups q.2
          | .ok _ => .at_ t [] q.2

/-- Writes bytes to the linear side of an element: the tile, or the slot, where a fault of any byte is found before one is written. -/
def State.putLinear (s : State) (k : CopyCmd) (off : Nat) (l : List PByte) : Except MemFault Unit × State :=
  match k.lin with
  | some h => s.engWrite k.coil h (BitVec.ofNat 64 off) l
  | none => (.ok (), s.tilePut k.coil (ctrlTile k.desc) off l)

/-- Writes bytes to a slot of a coil, sector by sector, wherever they can be written. -/
def State.putPieces (s : State) (id : Nat) (h : Handle) : Nat → Nat → List PByte → State
  | 0, _, _ => s
  | fuel + 1, off, l =>
    if l.isEmpty then s
    else
      let n := 32 - (h.base.toNat + off) % 32
      (s.engWrite id h (BitVec.ofNat 64 off) (l.take n)).2.putPieces id h fuel (off + n) (l.drop n)

/-- Fills the linear side of an element that has faulted. -/
def State.fillLinear (s : State) (k : CopyCmd) (off : Nat) (l : List PByte) : State :=
  match k.lin with
  | some h => s.putPieces k.coil h (l.length / 16 + 1) off l
  | none => s.tilePut k.coil (ctrlTile k.desc) off l

/-- Reads the linear side of an element. -/
def State.getLinear (s : State) (c : Coil) (k : CopyCmd) (off : Nat) : Except MemFault (List PByte) × State :=
  match k.lin with
  | some h => s.engRead c h (BitVec.ofNat 64 off) (gatElb k.desc)
  | none =>
    match c.tile? (ctrlTile k.desc) with
    | some t => (.ok (t.readP off (gatElb k.desc)), s)
    | none => (.ok (List.replicate (gatElb k.desc) (0, false)), s)

/-- The bytes that fill a faulted element of a gather (R296); none under KEEP. -/
def CopyCmd.fillBytes (k : CopyCmd) : Option (List PByte) :=
  let pat := leBytes 4 (pkt k.desc 0x24 4)
  match k.kind, gatOpx k.desc with
  | .gath, 0 => some (List.replicate (gatElb k.desc) (0, false))
  | .gath, 1 => some ((List.replicate (gatElb k.desc / 4) pat).flatten.map (fun b => (b, false)))
  | _, _ => none

/-- One word of SCATA (R297): 4 or 8 bytes. -/
def scataWord (op : Nat) (m x : Nat) : Nat :=
  match op with
  | 0 => (amoOp 0 false (BitVec.ofNat 64 m) (BitVec.ofNat 64 x)).toNat
  | 1 => (amoOp 0 true (BitVec.ofNat 64 m) (BitVec.ofNat 64 x)).toNat
  | 2 => (amoOp 1 false (BitVec.ofNat 64 m) (BitVec.ofNat 64 x)).toNat
  | 3 =>
    let h (m x : Nat) : Nat := (bf16.finish 0 0 true (addVal 0 (bf16.val m) (bf16.val x))).1
    h (m % 65536) (x % 65536) + h (m / 65536) (x / 65536) * 65536
  | 4 => (amoOp 12 false (BitVec.ofNat 64 m) (BitVec.ofNat 64 x)).toNat
  | _ => (amoOp 13 false (BitVec.ofNat 64 m) (BitVec.ofNat 64 x)).toNat

/-- Bytes of a word of SCATA. -/
def scataBytes (op : Nat) : Nat := if op = 1 then 8 else 4

/-- Applies SCATA to the words of an element, each at the table's home. -/
def State.applyWords (s : State) (k : CopyCmd) (c : Coil) : Nat → Nat → List PByte → Except MemFault Unit × State
  | 0, _, _ => (.ok (), s)
  | fuel + 1, t, l =>
    if l.isEmpty then (.ok (), s)
    else
      let n := scataBytes (gatOpx k.desc)
      let r := s.engRead c k.src (BitVec.ofNat 64 t) n
      match r.1 with
      | .error f => (.error f, r.2)
      | .ok m =>
        let w := r.2.engWrite k.coil k.src (BitVec.ofNat 64 t) (plainBytes (leBytes n (scataWord (gatOpx k.desc) (pbNat m) (pbNat (l.take n)))))
        match w.1 with
        | .error f => (.error f, w.2)
        | .ok _ => w.2.applyWords k c fuel (t + n) (l.drop n)

/-- What an element comes to: done, or a fault. -/
def State.element (s : State) (c : Coil) (k : CopyCmd) (e : Nat) : Option ElemFault × State :=
  match s.locate c k e with
  | .fault code inst addr s => (some { elem := e, code := code, inst := inst, addr := addr }, s)
  | .at_ t engs s =>
    let s := engs.foldl (fun s n => s.engTake k.asid k.src.tkey n) s
    let l := dDoff k.desc + e * gatLstr k.desc
    let va := k.src.base + BitVec.ofNat 64 t
    let fault (f : MemFault) (s : State) : Option ElemFault × State := (some { elem := e, code := f.code, inst := 0, addr := va }, s)
    if k.kind = .gath then
      let r := s.engRead c k.src (BitVec.ofNat 64 t) (gatElb k.desc)
      match r.1 with
      | .error f => fault f r.2
      | .ok b =>
        let w := r.2.putLinear k l b
        match w.1 with
        | .error f => fault f w.2
        | .ok _ => (none, w.2)
    else
      let r := s.getLinear c k l
      match r.1 with
      | .error f => fault f r.2
      | .ok b =>
        if k.kind = .scata && pbBad b then fault ⟨0x806, 0, va⟩ r.2
        else
          let w := if k.kind = .scata then r.2.applyWords k c (gatElb k.desc / 4 + 1) t b
            else r.2.engWrite k.coil k.src (BitVec.ofNat 64 t) b
          match w.1 with
          | .error f => fault f w.2
          | .ok _ => (none, w.2)

/-- Settles an element: a faulted element of a gather is filled; its bytes land (R288, R296). -/
def State.settleElement (s : State) (k : CopyCmd) (e : Nat) (f : Option ElemFault) : State × CopyCmd :=
  let fill := match f, k.fillBytes with
    | some _, some b => s.fillLinear k (dDoff k.desc + e * gatLstr k.desc) b
    | _, _ => s
  (fill.landOn k k.coil (gatElb k.desc), { k with todo := k.todo.filter (· ≠ e), faults := k.faults ++ f.toList })

/-- The table range of a pending element, when its index can be read. -/
def State.tableRange (s : State) (c : Coil) (k : CopyCmd) (e : Nat) : Option Nat :=
  match s.locate c k e with
  | .at_ t _ _ => some t
  | .fault _ _ _ _ => none

/-- Whether an element may be performed now: no element with a lower index that is still pending reaches the same table words (R298). -/
def State.elementDue (s : State) (c : Coil) (k : CopyCmd) (e : Nat) : Bool :=
  k.kind = .gath ||
  (match s.tableRange c k e with
  | none => true
  | some t => (k.todo.filter (· < e)).all (fun i =>
      match s.tableRange c k i with
      | some u => u + gatElb k.desc ≤ t || t + gatElb k.desc ≤ u
      | none => true))

/-- GATHER_ELEMENT (R296 to R298). A drain lets none begin (R302). -/
def execGatherElement (id element : Nat) (s : State) : Answer :=
  match s.copy? id with
  | none => .next s
  | some k =>
    match s.coil? k.coil with
    | none => .next s
    | some c =>
      if k.kind.isCopy || !k.started || k.drain || !k.todo.contains element || !s.elementDue c k element then .next s
      else
        let r := s.element c k element
        let q := r.2.settleElement k element r.1
        .next (q.1.setCopy q.2)

/-! ## The end of a command (R286 to R289) -/

/-- The lowest faulted element. -/
def CopyCmd.lowest (k : CopyCmd) : Option ElemFault :=
  k.faults.foldl (fun b f => match b with | some g => if f.elem < g.elem then some f else some g | none => some f) none

/-- CODE of the status word. -/
def CopyCmd.code (k : CopyCmd) : Nat :=
  match k.lowest with
  | some f => f.code.toNat
  | none => if k.kind.isCopy && (k.drain && (!k.started || !k.todo.isEmpty)) then 0x405 else if k.destFaults.isEmpty then 0 else 0x404

/-- The status word (R286). -/
def CopyCmd.status (k : CopyCmd) : DWord :=
  let bit (i : Nat) : Nat := 2 ^ (i % 4)
  let ended := k.code = 0 || k.code = 0x404
  let fmask := (k.destFaults.map (fun e => bit e.1)).foldl (· + ·) 0
  let dmask := if k.kind = .cpym then (if ended then ((k.cores.filter (fun i => !k.destFaults.any (fun e => e.1 = i))).map bit).foldl (· + ·) 0 else 0)
    else if k.code = 0 then 1 else 0
  let count := if k.kind.isCopy then (if k.code = 0 then 0 else 1) else k.faults.length
  BitVec.ofNat 64 (k.code * 2 ^ 48 + fmask * 2 ^ 36 + dmask * 2 ^ 32 + count)

/-- The bytes of the status record (R287). -/
def CopyCmd.statusRecord (k : CopyCmd) : List Byte :=
  let map := if !k.kind.isCopy && ctrlMap k.desc then
      leBytes ((gatN k.desc + 63) / 64 * 8) (k.faults.foldl (fun a f => a + 2 ^ f.elem) 0)
    else []
  leBytes 8 k.status.toNat ++ leBytes 4 ((k.lowest.map ElemFault.elem).getD 0 * (if k.kind.isCopy then 0 else 1)) ++ leBytes 4 0 ++ map

/-- The table address of an element (R289). -/
def State.tableAddr (s : State) (k : CopyCmd) (e : Nat) : BitVec 64 :=
  match s.coil? k.coil with
  | none => k.src.base + BitVec.ofNat 64 (dSoff k.desc)
  | some c => match s.locate c k e with
    | .at_ t _ _ => k.src.base + BitVec.ofNat 64 t
    | .fault _ _ addr _ => addr

/-- Treats the elements that a drain left as faulted with ENGINE_DRAINED (R302). -/
def State.drainElements (s : State) (k : CopyCmd) : List Nat → State × CopyCmd
  | [] => (s, k)
  | e :: r =>
    let q := s.settleElement k e (some { elem := e, code := 0x405, inst := 0, addr := s.tableAddr k e })
    q.1.drainElements q.2 r

/-- The address of the first faulting byte of a copy with no fault of translation: of the lowest granule that a drain has left, or that came to a
faulting destination, on the source side, since a tile register has no address (R289; DESIGN CHOICE, log 82). -/
def CopyCmd.firstByte (k : CopyCmd) : BitVec 64 :=
  let l := if k.code = 0x405 then (if k.started then k.todo else [0]) else k.destFaults.map Prod.snd
  let g := l.foldl min (l.headD 0)
  k.src.base + (k.granule g).1

/-- The record of a status or future that could not be written (R287). -/
def State.writeFailed (s : State) (k : CopyCmd) (f : MemFault) : State :=
  s.record { s.copyRec k 0 with code := f.code.toNat, sev := (codeSev f.code.toNat).1, act := (codeSev f.code.toNat).2, addr := some f.addr }

/-- The error record of a command that ends with a fault (R289). -/
def State.commandRec (s : State) (k : CopyCmd) : State :=
  if k.code = 0 then s
  else
    let addr := match k.lowest with | some f => some f.addr | none => some k.firstByte
    s.record { s.copyRec k ((k.lowest.map ElemFault.inst).getD 0) with
      code := k.code, sev := (codeSev k.code).1, act := (codeSev k.code).2, count := k.status.toNat % 2 ^ 32, addr := addr,
      detail := k.status, aux := BitVec.ofNat 32 (if k.kind.isCopy then 0 else (k.lowest.map ElemFault.elem).getD 0) }

/-- The barriers at the end of a command (R288): it arrives on each, and a fault makes it ERROR. -/
def State.endBarriers (s : State) (k : CopyCmd) (failed : Bool) : State :=
  if k.kind = .cpym then
    k.cores.foldl (fun s core =>
      if k.destFaults.any (fun e => e.1 = core) then s
      else match s.destCoil k core with
        | some id => if failed then s.arriveFailOn k id else s.arriveOn k id
        | none => s) s
  else if failed then s.arriveFailOn k k.coil else s.arriveOn k k.coil

/-- The end of a command whose units are settled: status, release, barrier, record, future, GSTAT.LAST (R260, R286 to R289). -/
def State.endCopy (s : State) (k : CopyCmd) (failed : Bool) : State :=
  let s := match k.cpl with
    | some h =>
      if ctrlStw k.desc then
        let w := s.engWrite k.coil h (BitVec.ofNat 64 (dCoff k.desc)) (plainBytes k.statusRecord)
        match w.1 with | .ok _ => w.2 | .error f => w.2.writeFailed k f
      else s
    | none => s
  let s := { (s.endBarriers k failed) with copies := (s.endBarriers k failed).copies.filter (fun e => e.id ≠ k.id) }
  let s := s.commandRec k
  let s := match k.cpl with
    | some h =>
      if ctrlFut k.desc then
        s.resolveByDevice k.asid (h.base + BitVec.ofNat 64 (dFoff k.desc)) k.core (s.copyRec k 0)
          (if k.code = 0 then 1 else 2) (if k.code = 0 then k.status else BitVec.ofNat 64 k.code) (some h.tkey)
      else s
    | none => s
  match s.coil? k.coil with
  | none => s
  | some c => (s.setCoil { c with last := k.status }).rcbCheck c.asid c.rcb

/-- A drain ends when no command of its context is left (R302). -/
def State.endDrain (s : State) : State :=
  let w := s.regs.gsdrain
  if w.getLsbD 13 && !s.copies.any (fun k => k.asid = w.setWidth 12) then { s with regs := { s.regs with gsdrain := w &&& ~~~0x2000 } } else s

/-- COPY_COMMAND_END (R286 to R289, R294, R302). -/
def execCopyCommandEnd (id : Nat) (s : State) : Answer :=
  match s.copy? id with
  | none => .next s
  | some k =>
    let s := if k.started then s else s.unask k.core (.copy id)
    let left := if k.started then k.todo else List.range k.units
    if k.kind.isCopy then
      if (k.started && (k.todo.isEmpty || !k.faults.isEmpty)) || (k.drain && !(k.started && k.todo.any k.midChunk)) then .next (s.endCopy k (k.code ≠ 0 && k.code ≠ 0x404)).endDrain else .next s
    else if k.started && k.todo.isEmpty then .next (s.endCopy k false).endDrain
    else if k.drain then
      let q := s.drainElements { k with todo := left } left
      .next (q.1.endCopy q.2 true).endDrain
    else .next s

end Sys2Proof.Machine
end

