-- ==== Sys2Proof/Machine/Mcc.lean ====
section
/-! DEFINITION. The MCC (11_matrix.md R325 to R336): its scalar instructions, its memory accesses, matrix commands at issue, reservations, events and
coordination. -/

namespace Sys2Proof.Machine

/-! ## Issue (R325) -/

/-- What an MCC instruction comes to: the device and the context after it; a fault; a wait; or the device as it then is. -/
inductive MccRes where
  | ok (s : State) (x : MccCtx)
  | trap (f : MemFault) (s : State)
  | stall
  | gone (s : State)

/-- Puts the context of a coil. -/
def State.putMcc (s : State) (id : Nat) (x : MccCtx) : State :=
  { s with coils := s.coils.map (fun c => if c.id = id then { c with mcc := some x } else c) }

/-- A register of a context. -/
def MccCtx.get (x : MccCtx) (n : Nat) : DWord := x.a.getD n 0
/-- Writes a register of a context. -/
def MccCtx.set (x : MccCtx) (n : Nat) (v : DWord) : MccCtx := { x with a := x.a.set n v }

/-- The LOC word of a context (15_system.md R490). -/
def mccLoc (core slot : Nat) : Word := BitVec.ofNat 32 (dieOf core * 2 ^ 24 + clusterOf core * 2 ^ 16 + 0xFF00 + 0x10 + slot)

/-- A record of a context. -/
def State.mccRec (s : State) (c : Coil) (x : MccCtx) (code : Nat) : Rec :=
  { s.coilRec c code 3 0 with loc := mccLoc c.core (x.slot.getD 0), sev := (codeSev code).1, act := (codeSev code).2, count := 1 }

/-- A fault stops the context: ENGSTATE becomes FAULTED (R325). -/
def State.mccFault (s : State) (c : Coil) (x : MccCtx) (f : MemFault) (detail : DWord) (addr : Bool) : State :=
  let r := { s.mccRec c x f.code.toNat with addr := if addr then some f.addr else none, detail := detail }
  ({ s with coils := s.coils.map (fun (d : Coil) => if d.id = c.id then { d with eng := .faulted, mcc := some { x with slot := none } } else d) }).record r

/-- A fault without an address. -/
def mccTrap (code : Nat) (s : State) : MccRes := .trap ⟨BitVec.ofNat 16 code, 0xFF, 0⟩ s

/-- Words of an MCC instruction. -/
def mccWords (m : Mcc) : Nat := if m.lit.isSome then 3 else 2

/-- The issue of an MCC instruction by the context that has the turn: `eff` sees the context with its PC past the instruction. A fault is
stated with subtype 0xFF where the code has no address. -/
def mccIssue (m : Mcc) (eff : State → Coil → MccCtx → MccRes) (s : State) : Answer :=
  match s.turn with
  | .mcc id =>
    match s.coil? id with
    | none => .fault .noIssuer
    | some c =>
      match c.mcc with
      | none => .fault .noIssuer
      | some x =>
        .next (match eff s c { x with pc := x.pc + BitVec.ofNat 64 (4 * (mccWords m)), ignore := false } with
          | .ok s y => s.putMcc id y
          | .trap f s => s.mccFault c x f 0 (f.sub ≠ 0xFF)
          | .stall => s.stall
          | .gone s => s)
  | _ => .fault .noIssuer

/-- An instruction that only computes. -/
def mccPure (m : Mcc) (f : MccCtx → MccCtx) (s : State) : Answer := mccIssue m (fun s _ x => .ok s (f x)) s

/-! ## Scalar instructions (R329) -/

/-- Operand x: the literal, the signed 8-bit value when IMM is 1, or ab. -/
def mccOperand (m : Mcc) (x : MccCtx) : DWord :=
  match m.lit with
  | some l => l.signExtend 64
  | none => if m.mod % 2 = 1 then m.b.signExtend 64 else x.get m.b.toNat

/-- An operation of aa and x into ad. -/
def mccAlu (m : Mcc) (op : DWord → DWord → DWord) (s : State) : Answer :=
  mccPure m (fun x => x.set m.d.toNat (op (x.get m.a.toNat) (mccOperand m x))) s

/-- The shift amount. -/
def mccAmount (m : Mcc) (x : MccCtx) : Nat := (if m.mod % 2 = 1 then m.b.toNat else (x.get m.b.toNat).toNat) % 64

/-- A comparison by its code. -/
def mccCmp (cc : Nat) (a b : DWord) : Bool :=
  if cc = 0 then a = b else if cc = 1 then a ≠ b else if cc = 2 then a.toInt < b.toInt else if cc = 3 then a.toInt ≤ b.toInt
  else if cc = 4 then a.toNat < b.toNat else a.toNat ≤ b.toNat

/-- The branch target: the PC of the instruction plus 4 · imm. `x.pc` stands past the instruction. -/
def mccTarget (m : Mcc) (x : MccCtx) : BitVec 64 := x.pc - BitVec.ofNat 64 (4 * (mccWords m)) + BitVec.ofInt 64 (4 * m.simm)

/-- AMOV. -/
def execAmov (m : Mcc) (s : State) : Answer := mccPure m (fun x => x.set m.d.toNat (x.get m.a.toNat)) s
/-- ALI. -/
def execAli (m : Mcc) (s : State) : Answer := mccPure m (fun x => x.set m.d.toNat (BitVec.ofInt 64 m.simm)) s
/-- AADD. -/
def execAadd (m : Mcc) (s : State) : Answer := mccAlu m (fun a b => a + b) s
/-- ASUB. -/
def execAsub (m : Mcc) (s : State) : Answer := mccAlu m (fun a b => a - b) s
/-- AMUL. -/
def execAmul (m : Mcc) (s : State) : Answer := mccAlu m (fun a b => a * b) s
/-- AAND. -/
def execAand (m : Mcc) (s : State) : Answer := mccAlu m (fun a b => a &&& b) s
/-- AOR. -/
def execAor (m : Mcc) (s : State) : Answer := mccAlu m (fun a b => a ||| b) s
/-- ASHL. -/
def execAshl (m : Mcc) (s : State) : Answer := mccPure m (fun x => x.set m.d.toNat (x.get m.a.toNat <<< mccAmount m x)) s
/-- ASHR. -/
def execAshr (m : Mcc) (s : State) : Answer :=
  mccPure m (fun x =>
    let a := x.get m.a.toNat
    x.set m.d.toNat (if m.mod / 2 = 1 then a.sshiftRight (mccAmount m x) else a >>> mccAmount m x)) s
/-- ACMP. -/
def execAcmp (m : Mcc) (s : State) : Answer := mccAlu m (fun a b => if mccCmp m.c a b then 1 else 0) s
/-- ABR. -/
def execAbr (m : Mcc) (s : State) : Answer := mccPure m (fun x => { x with pc := mccTarget m x }) s
/-- ABC: D holds 0 for NZ and 1 for Z. -/
def execAbc (m : Mcc) (s : State) : Answer :=
  mccPure m (fun x => if (x.get m.a.toNat == 0) == (m.d == 1) then { x with pc := mccTarget m x } else x) s
/-- ALOOP. -/
def execAloop (m : Mcc) (s : State) : Answer :=
  mccPure m (fun x =>
    let v := x.get m.a.toNat - 1
    let y := x.set m.a.toNat v
    if v ≠ 0 then { y with pc := mccTarget m x } else y) s
/-- ACALL. -/
def execAcall (m : Mcc) (s : State) : Answer := mccPure m (fun x => { x.set m.d.toNat x.pc with pc := mccTarget m x }) s
/-- ARET. -/
def execAret (m : Mcc) (s : State) : Answer :=
  mccIssue m (fun s _ x =>
    let t := x.get m.a.toNat
    if t.toNat % 4 ≠ 0 then mccTrap 6 s else .ok s { x with pc := t }) s

/-! ## Memory (R330) -/

/-- The effective offset: a 64-bit base and OFF8 or the literal. -/
def mccOffset (m : Mcc) (x : MccCtx) : BitVec 64 :=
  x.get m.a.toNat + (match m.lit with | some l => l.signExtend 64 | none => m.b.signExtend 64)

/-- An access of 8 bytes through a slot of the owning coil, with its watchpoints: a hit stops the coil before the instruction
(15_system.md R429, R430). -/
def State.mccReach (s : State) (c : Coil) (x : MccCtx) (ignore write : Bool) (m : Mcc) (k : State → Spot → MccRes) : MccRes :=
  let r := s.resolveAt c (c.slot m.mod) { size := 8, align := 8, write := write, spaces := [0, 3] } (mccOffset m x)
  match r.1 with
  | .error f => .trap f r.2
  | .ok sp =>
    match if ignore then none else (List.range 4).find? (fun n => (c.watch.getD n Watch.off).hits (!write) write sp) with
    | none => k r.2 sp
    | some n =>
      let rec_ := { r.2.mccRec c x 0xD with sev := 0, act := 0, aux := BitVec.ofNat 32 n }
      let y := c.mcc.map (fun y => { y with ignore := true })
      .gone ((r.2.setCoil { c with st := .stopped, stops := c.stops + 1, stepping := [], mcc := y }).record rec_)

/-- Whether a coil's context issues with watchpoints ignored. -/
def Coil.mccIgnores (c : Coil) : Bool := match c.mcc with | some x => x.ignore | none => false

/-- ALD. -/
def execAld (m : Mcc) (s : State) : Answer :=
  mccIssue m (fun s c x =>
    s.mccReach c x c.mccIgnores false m (fun s sp =>
      let r := s.readSpot c none false sp
      match r.1 with
      | .error f => .trap f r.2
      | .ok l =>
        if pbBad l then .trap ⟨0x806, 0, ((c.slot m.mod).map Handle.base).getD 0 + mccOffset m x⟩ r.2
        else .ok r.2 (x.set m.d.toNat (leDWord (l.map Prod.fst))))) s

/-- AST, performed at issue. -/
def execAst (m : Mcc) (s : State) : Answer :=
  mccIssue m (fun s c x =>
    s.mccReach c x c.mccIgnores true m (fun s sp =>
      let r := s.engPut c sp (plainBytes (leBytes 8 (x.get m.d.toNat).toNat))
      match r.1 with
      | .error f => .trap f r.2
      | .ok _ => .ok r.2 x)) s

/-! ## Events (R335) -/

/-- EVWAIT. -/
def execEvwait (m : Mcc) (s : State) : Answer := mccIssue m (fun s _ x => if x.events.isEmpty then .stall else .ok s x) s

/-- EVPOP. -/
def execEvpop (m : Mcc) (s : State) : Answer :=
  mccPure m (fun x =>
    let e := x.events.headD (0, 0)
    { (x.set m.d.toNat e.1).set (m.d.toNat + 1) e.2 with events := x.events.tail }) s

/-! ## Engines and their coils (R326, R331) -/

/-- The core that an engine field names. -/
def engCore (c : Coil) (n : Nat) : Nat := if n = 4 then c.core else c.core / 4 * 4 + n

/-- The coil that a command to an engine acts on: the owning coil on its own core, the lowest coil slot of its launch on another. An absent core's
engine has none, unless it is named as engself (01_machine.md R25). -/
def State.mxTarget (s : State) (c : Coil) (n : Nat) : Option Coil :=
  let core := engCore c n
  if n ≠ 4 && !s.present core then none else if core = c.core then some c else s.launchCoil c.launch core

/-- An instruction about a coil on an engine's core, or MX_ENGINE. -/
def State.onTarget (s : State) (c : Coil) (n : Nat) (k : Coil → MccRes) : MccRes :=
  match s.mxTarget c n with
  | none => mccTrap 0x503 s
  | some t => k t

/-! ## Reservations (R311, R333) -/

/-- Whether another resident coil of a core reserves a tile register. -/
def State.tileTaken (s : State) (t : Coil) (n : Nat) : Bool :=
  s.coils.any (fun d => d.id ≠ t.id && d.resident && d.core = t.core && (d.tile? n).isSome)

/-- A coil that reserves a tile register with a record: new contents are zeros (log 31). -/
def Coil.reserve (c : Coil) (n : Nat) (r : DWord) : Coil :=
  match c.tile? n with
  | some t => c.putTile { t with record := r }
  | none => { c with tiles := c.tiles ++ [{ num := n, record := r, bytes := [], poison := [] }] }

/-- TRES. -/
def execTres (m : Mcc) (s : State) : Answer :=
  mccIssue m (fun s c x =>
    s.onTarget c m.d.toNat (fun t =>
      let n := m.a.toNat
      let r := x.get m.b.toNat
      if s.tileTaken t n || ((t.tile? n).isNone && t.tiles.length ≥ 8) || recInvalid r || s.tileHeld t n then mccTrap 0x500 s
      else .ok (s.setCoil (t.reserve n r)) x)) s

/-- The bias tile of a drain's epilogue. -/
def Epilogue.bias (e : Epilogue) : Option Nat := if e.ctrl.getLsbD 3 then some (e.ctrl.toNat / 16 % 32) else none

/-- The tiles that a command still has to read or write: operands, destination, bias. -/
def MxCmd.names (k : MxCmd) : List Nat :=
  match k.op with
  | .mma st _ => [st.ta, st.tb]
  | .drain t e => t :: e.bias.toList
  | .drainAcc e => e.bias.toList
  | _ => []

/-- The tiles that a SCOUT names: queries, estimates, bounds (12_scout.md R348). -/
def ScoutCmd.names (k : ScoutCmd) : List Nat :=
  let w := (k.desc.getD 6 0).toNat
  [w % 32, w / 32 % 32, w / 1024 % 32]

/-- Whether an accepted command names a tile register of a coil (R333). -/
def State.tileNamed (s : State) (t : Coil) (n : Nat) : Bool :=
  s.mxq.any (fun (k : MxCmd) => k.target = t.id && k.names.contains n)
  || s.copies.any (fun (k : CopyCmd) => ctrlTile k.desc = n && (match k.kind with
      | .cpyt => decide (k.coil = t.id)
      | .cpym => k.cores.any (fun core => (s.cpymCoil k core).any (fun d => d.id = t.id))
      | .cpy => false
      | _ => ctrlLtile k.desc && k.coil = t.id))
  || s.scouts.any (fun k => k.coil = t.id && k.names.contains n)

/-- TREL. -/
def execTrel (m : Mcc) (s : State) : Answer :=
  mccIssue m (fun s c x =>
    s.onTarget c m.d.toNat (fun t =>
      let n := m.a.toNat
      if (t.tile? n).isNone then mccTrap 0x500 s
      else if s.tileNamed t n then .stall
      else if s.tileHeld t n then mccTrap 0x500 s
      else .ok (s.setCoil { t with tiles := t.tiles.filter (fun u => u.num ≠ n) }) x)) s

/-! ## Accumulators as commands leave them when they pass (R312, R331) -/

/-- The former base of an accumulator becomes DRAINED. -/
def Coil.freeBase (c : Coil) (a : Acc) : Coil :=
  match a.baseOf.bind c.acc? with
  | some b => c.putAcc { b with st := .drained }
  | none => c

/-- The states and the held tiles after a command that passes; the elements are not touched. -/
def MxOp.pass (op : MxOp) (acc : Nat) (c : Coil) : Coil :=
  match c.acc? acc with
  | none => c
  | some a =>
    match op with
    | .mma st _ => c.putAcc { a with names := a.names ++ [st.ta, st.tb] }
    | .zero int => (c.freeBase a).putAcc { a with st := .opened, int := int, names := [], baseOf := none }
    | .drainChk b =>
      match (c.freeBase a).acc? b with
      | some e => ((c.freeBase a).putAcc { e with st := .base, int := a.int }).putAcc { a with names := [], baseOf := some b }
      | none => c
    | _ => (c.freeBase a).putAcc { a with st := .drained, names := [], baseOf := none }

/-- A target coil as the commands accepted for it leave it when they pass. -/
def State.foresee (s : State) (t : Coil) : Coil :=
  (s.mxq.filter (fun (k : MxCmd) => k.target = t.id)).foldl (fun c k => k.op.pass k.acc c) t

/-- Whether an accumulator is in the state that a command needs (R332). -/
def MxOp.stateOk (op : MxOp) (c : Coil) (a : Acc) : Bool :=
  match op with
  | .zero _ => a.st ≠ .base
  | .drainChk b => a.st = .opened && (match c.acc? b with | some e => e.st = .idle || e.st = .drained | none => false)
  | _ => a.st = .opened

/-- Whether a record names an operand pair of R313 with another, for an accumulator kind. -/
def pairOk (ra rb : DWord) (int : Bool) : Bool :=
  let fa := recFmt ra
  let fb := recFmt rb
  recCols ra = recCols rb &&
  (if fa ≤ 5 then fb ≤ 5 && recBlk ra = recBlk rb && !int
   else if fa = 6 then fb = 6 && !recCs ra && !recCs rb && int
   else fa ≤ 8 && fb = fa && !int)

/-- The first fault of a command against its target, in the order of R331. -/
def State.mxCheck (s : State) (t : Coil) (acc : Nat) (op : MxOp) : Option Nat :=
  let p := s.foresee t
  match p.acc? acc with
  | none => some 0x502
  | some a =>
    if !op.stateOk p a then some 0x502
    else
      let bad (n : Nat) : Bool := match t.tile? n with | some u => recInvalid u.record | none => true
      let biasBad (e : Epilogue) (cols : Nat) : Bool :=
        match e.bias with
        | some n => (t.tile? n).isNone || e.ctrl.toNat / 2 ^ 9 % 4096 * 16 + 4 * cols > 65536
        | none => false
      let record (n : Nat) : DWord := ((t.tile? n).map Tile.record).getD 0
      match op with
      | .mma st _ =>
        if bad st.ta || bad st.tb then some 0x500 else if pairOk (record st.ta) (record st.tb) a.int then none else some 0x501
      | .drain n e =>
        if bad n || p.accs.any (fun b => b.st = .opened && b.names.contains n) || biasBad e (recCols (record n)) then some 0x500 else none
      | .drainAcc e => if biasBad e 128 then some 0x500 else none
      | _ => none

/-! ## Commands at issue (R331, R332) -/

/-- EV and TAG of a command. -/
def mccEv (m : Mcc) : Bool := m.e.getLsbD 8
def mccTag (m : Mcc) : Nat := m.e.toNat / 2 ^ 9

/-- A matrix command is checked and enters its engine's queue. `drain` says whether it may name a barrier and always reserves an entry. -/
def mxCommand (m : Mcc) (drain : Bool) (op : MccCtx → Nat → MxOp) (s : State) : Answer :=
  mccIssue m (fun s c x =>
    s.onTarget c m.d.toNat (fun t =>
      let core := engCore c m.d.toNat
      let o := op x (core % 4)
      let entry := (mccEv m) || drain
      match s.mxCheck t m.a.toNat o with
      | some code => mccTrap code s
      | none =>
        if (s.mxq.filter (fun (k : MxCmd) => k.core = core)).length ≥ 8 || (entry && x.reserved + x.events.length ≥ 64) then .stall
        else
          let k : MxCmd :=
            { core := core, owner := c.id, run := x.run, target := t.id, acc := m.a.toNat, op := o, ev := (mccEv m), tag := (mccTag m), seq := x.seq,
              bar := if drain && m.e.getLsbD 4 then some (m.e.toNat % 16) else none, entry := entry, mxtol := x.mxtol,
              task := taskOf c x.seq, started := false, replayed := 0 }
          .ok { s with mxq := s.mxq ++ [k] } { x with seq := (x.seq + 1) % 2 ^ 48, reserved := x.reserved + if entry then 1 else 0 })) s

/-- The step of MMA and MMA.M. -/
def mccStep (m : Mcc) : MxStep := { ta := m.b.toNat, tb := m.c, mask := none, axis := m.e.getLsbD 7, kt0 := m.e.toNat % 128 }
/-- The epilogue that stands for an engine. -/
def MccCtx.epilogue (x : MccCtx) (n : Nat) : Epilogue := x.epi.getD n { scale := 0x3F800000, ctrl := 0 }

/-- MMA. -/
def execMma (m : Mcc) (s : State) : Answer := mxCommand m false (fun _ _ => .mma (mccStep m) none) s
/-- MMA_M: MOD names the mask register (R317). -/
def execMmaM (m : Mcc) (s : State) : Answer := mxCommand m false (fun _ _ => .mma (mccStep m) (some m.mod)) s
/-- MXZERO. -/
def execMxzero (m : Mcc) (s : State) : Answer := mxCommand m false (fun _ _ => .zero (m.mod = 1)) s
/-- MXDRAIN. -/
def execMxdrain (m : Mcc) (s : State) : Answer := mxCommand m true (fun x n => .drain m.b.toNat (x.epilogue n)) s
/-- MXDRAIN_ACC. -/
def execMxdrainAcc (m : Mcc) (s : State) : Answer := mxCommand m true (fun x n => .drainAcc (x.epilogue n)) s
/-- MXDRAIN_CHK. -/
def execMxdrainChk (m : Mcc) (s : State) : Answer := mxCommand m true (fun _ _ => .drainChk m.b.toNat) s

/-! ## MXSCL, MXTOL, MXSTAT (R323, R334) -/

/-- Whether an F32 value is finite. -/
def finiteW (w : Word) : Bool := w.toNat / 2 ^ 23 % 256 ≠ 255

/-- MXSCL. An engine of an absent core is MX_ENGINE (01_machine.md R25). -/
def execMxscl (m : Mcc) (s : State) : Answer :=
  mccIssue m (fun s c x =>
    let scale := (x.get m.a.toNat).lo
    let ctrl := x.get m.b.toNat
    let core := engCore c m.d.toNat
    if m.d ≠ 4 && !s.present core then mccTrap 0x503 s
    else if ctrl.toNat / 2 ^ 22 ≠ 0 || ctrl.toNat % 8 ≥ 6 || !finiteW scale then mccTrap 0x501 s
    else .ok s { x with epi := x.epi.set (core % 4) { scale := scale, ctrl := ctrl.lo } }) s

/-- MXTOL: the sign bit of a value other than a zero makes it negative. -/
def execMxtol (m : Mcc) (s : State) : Answer :=
  mccIssue m (fun s _ x =>
    let v := (x.get m.a.toNat).lo
    if !finiteW v || (v.getLsbD 31 && v ≠ 0x80000000) then mccTrap 0x501 s else .ok s { x with mxtol := v }) s

/-- STATE of the status word. -/
def AccState.code : AccState → Nat
  | .idle => 0 | .opened => 1 | .drained => 2 | .faulted => 3 | .base => 4

/-- The status word of an accumulator (R334). -/
def Acc.status (a : Acc) : DWord :=
  BitVec.ofNat 64 (min a.corr 65535 * 2 ^ 48 + min a.repl 255 * 2 ^ 40 + a.log.length * 2 ^ 33 + (if a.ovfl then 2 ^ 32 else 0)
    + (if a.nv then 128 else 0) + (if a.overflow then 64 else 0) + (if a.int then 8 else 0) + a.st.code)

/-- An item of an accumulator: status, CC and MC of a row, CR and MR of a column, the last correction. -/
def Acc.item (a : Acc) (item i : Nat) : DWord :=
  match item with
  | 0 => a.status
  | 1 => DWord.ofWords (a.mc.getD i 0) (a.cc.getD i 0)
  | 2 => DWord.ofWords (a.mr.getD i 0) (a.cr.getD i 0)
  | _ => a.lastCorr

/-- MXSTAT: it waits until every earlier command to the engine is done. -/
def execMxstat (m : Mcc) (s : State) : Answer :=
  mccIssue m (fun s c x =>
    s.onTarget c m.b.toNat (fun t =>
      let v := (x.get m.a.toNat).toNat
      if s.mxq.any (fun (k : MxCmd) => k.core = engCore c m.b.toNat) then .stall
      else
        match t.acc? (v % 16) with
        | none => mccTrap 0x502 s
        | some a => .ok s (x.set m.d.toNat (a.item m.c (v / 256 % 128))))) s

/-! ## Coordination (R336) -/

/-- ABWAIT. -/
def execAbwait (m : Mcc) (s : State) : Answer :=
  mccIssue m (fun s c x =>
    match (c.bar m.a.toNat).answer ((x.get m.b.toNat).setWidth 8) with
    | none => .stall
    | some r => .ok s (x.set m.d.toNat (if r then 1 else 0))) s

/-- ABARV. -/
def execAbarv (m : Mcc) (s : State) : Answer :=
  mccIssue m (fun s c x =>
    let phase := (c.bar m.a.toNat).phase
    let q := s.arrive c m.a.toNat 0 { s.mccRec c x 0 with count := 1 }
    .ok (q.1.setCoil q.2.1) (x.set m.d.toNat (BitVec.ofNat 64 phase))) s

/-- AREL: AST writes are performed at issue, in program order, so that they are ordered already. -/
def execArel (m : Mcc) (s : State) : Answer := mccPure m id s

/-- AHALT. -/
def execAhalt (m : Mcc) (s : State) : Answer :=
  mccIssue m (fun s c x =>
    if s.mxq.any (fun (k : MxCmd) => k.owner = c.id && k.run = x.run) then .stall
    else .gone (s.setCoil { c with eng := .halted (x.get 0), mcc := none })) s

end Sys2Proof.Machine
end

