-- ==== Sys2Proof/Machine/Tiles.lean ====
section
/-! DEFINITION. Tile feeding from fibres (11_matrix.md R340 to R342). -/

namespace Sys2Proof.Machine

/-- The fields of a descriptor (R340): registers per fibre, OFF, RAW, IDX. -/
def feedC (d : Word) : Nat := d.toNat / 2 ^ 21 % 32 + 1
def feedOff (d : Word) : Nat := d.toNat / 2 ^ 13 % 256
def feedRaw (d : Word) : Bool := d.getLsbD 26
def feedIdx (d : Word) : Nat := d.toNat % 32
/-- Whether a reserved bit is set. -/
def feedBad (d : Word) : Bool := d.toNat / 2 ^ 27 ≠ 0 || d.toNat / 2 ^ 5 % 256 ≠ 0

/-- Element k of an accumulator. -/
def Acc.get (a : Acc) (k : Nat) : Word := match a.elems.find? (fun e => e.1 = k) with | some e => e.2 | none => 0

/-- A fault of lanes with no address (R222). -/
def lanesTrap (code : Nat) (act lanes : List Nat) : Trap :=
  { Trap.of code with count := lanes.length, detail := laneMask act lanes, lanes := lanes }

/-- MX_TILE of a whole instruction, or of the lanes whose row register breaks a rule; and otherwise an effect. -/
def Iss.feedCheck (x : Iss) (all : Bool) (ok : Nat → Bool) (row : Nat) (k : Iss → Res) : Res :=
  let bad := if all then x.mask else (x.lanes.filter (fun f => !ok (f.getV row).toNat)).map Fibre.idx
  if bad.isEmpty then k x else .trap (lanesTrap 0x500 x.act bad) x

/-- Where c registers of row x of a tile lie: the record's row, or the byte offset with RAW (R341). -/
def feedAt (r : DWord) (d : Word) (x : Nat) : Nat := if feedRaw d then x else recBase r + x * recPitch r + 4 * feedOff d

/-- Whether a row register is in range for TLD and TST (R341). -/
def feedRowOk (r : DWord) (d : Word) (x : Nat) : Bool :=
  if feedRaw d then x % 4 = 0 && x + 4 * feedC d ≤ 65536
  else x < recRows r && 4 * feedOff d + 4 * feedC d ≤ recPitch r && feedAt r d x + 4 * feedC d ≤ 65536

/-- What a tile-feeding instruction states about itself: `row` is its row register and `data` its first data register. -/
def Info.feed (sh : Shape) (m : Main) (lat row : Nat) : Info :=
  { Info.of sh m lat with reads := [(.v, row), (.s, m.b.toNat)], impure := true, ordered := true }

/-- TLD and TLD.T state the data registers as sources that may carry poison. -/
def Info.feedIn (sh : Shape) (m : Main) (c : Nat) : Info :=
  let n := Info.feed sh m 16 m.d.toNat
  { n with soft := n.soft ++ regsFrom .v m.a.toNat c, writes := [] }

/-- TST and ACCRD state the data registers that they write. -/
def Info.feedOut (sh : Shape) (m : Main) (lat c : Nat) : Info :=
  { Info.feed sh m lat m.a.toNat with writes := regsFrom .v m.d.toNat c }

/-- Writes to tile n in one lane after another: `put` gives the offset and the bytes of each write. A fibre that does not write a unit may go on
finding what it held (09_ordering.md R254). -/
def Iss.tileWrites (x : Iss) (n : Nat) (put : Fibre → List (Nat × List Byte)) (bad : Fibre → Bool) : Iss :=
  match x.c.tile? n with
  | none => x
  | some t =>
    let t' := x.lanes.foldl (fun t f => (put f).foldl (fun t w => t.write w.1 w.2 (bad f)) t) t
    let units := x.lanes.flatMap (fun f => ((put f).flatMap (fun w => unitsAll w.1 w.2.length)).eraseDups.map (fun u => (f.idx, u)))
    { x with c := (x.c.noteOld x.s (some n) (fun u => t.readP (32 * u) 32) units).putTile t' }

/-- TLD (R341). -/
def execTld (m : Main) (s : State) : Answer :=
  let d := s.issuerS m.b.toNat
  let c := feedC d
  issue (Info.feedIn (Instr.tld m).shape m c) (fun x =>
    match x.latentData m.a.toNat c with
    | some t => .trap t x
    | none =>
      let rec_ := ((x.c.tile? (feedIdx d)).map Tile.record).getD 0
      let all := feedBad d || (feedRaw d && feedOff d ≠ 0) || (x.c.tile? (feedIdx d)).isNone || recInvalid rec_ || m.a.toNat + c > x.c.window
        || x.s.tileHeld x.c (feedIdx d)
      x.feedCheck all (feedRowOk rec_ d) m.d.toNat (fun x =>
        .ok (x.tileWrites (feedIdx d) (fun f => [(feedAt rec_ d (f.getV m.d.toNat).toNat, f.regBytes m.a.toNat (4 * c))])
          (fun f => f.dataBad m.a.toNat c)))) s

/-- The elements of TLD.T: each goes to its row of column x (R341). -/
def columnWrites (r : DWord) (off x : Nat) (l : List Byte) : List (Nat × List Byte) :=
  let w := fmtBits (recFmt r) / 8
  (List.range (l.length / w)).map (fun e => (recBase r + (off + e) * recPitch r + x * w, (l.drop (w * e)).take w))

/-- TLD_T (R341). -/
def execTldT (m : Main) (s : State) : Answer :=
  let d := s.issuerS m.b.toNat
  let c := feedC d
  issue (Info.feedIn (Instr.tldT m).shape m c) (fun x =>
    match x.latentData m.a.toNat c with
    | some t => .trap t x
    | none =>
      let rec_ := ((x.c.tile? (feedIdx d)).map Tile.record).getD 0
      let w := fmtBits (recFmt rec_)
      let all := feedBad d || feedRaw d || (x.c.tile? (feedIdx d)).isNone || recInvalid rec_ || m.a.toNat + c > x.c.window
        || x.s.tileHeld x.c (feedIdx d) || (w ≠ 8 && w ≠ 16) || feedOff d + 32 * c / w > recRows rec_
      x.feedCheck all (fun v => v < recCols rec_) m.d.toNat (fun x =>
        .ok (x.tileWrites (feedIdx d) (fun f => columnWrites rec_ (feedOff d) (f.getV m.d.toNat).toNat (f.regBytes m.a.toNat (4 * c)))
          (fun f => f.dataBad m.a.toNat c)))) s

/-- TST (R341). -/
def execTst (m : Main) (s : State) : Answer :=
  let d := s.issuerS m.b.toNat
  let c := feedC d
  issue (Info.feedOut (Instr.tst m).shape m 16 c) (fun x =>
    let rec_ := ((x.c.tile? (feedIdx d)).map Tile.record).getD 0
    let all := feedBad d || (feedRaw d && feedOff d ≠ 0) || (x.c.tile? (feedIdx d)).isNone || recInvalid rec_ || m.d.toNat + c > x.c.window
    x.feedCheck all (feedRowOk rec_ d) m.a.toNat (fun x =>
      .ok (x.onMask (fun o f =>
        match x.src.tile? (feedIdx d) with
        | none => f
        | some t =>
          let at_ := feedAt rec_ d (o.getV m.a.toNat).toNat
          f.load m.d.toNat c (x.src.asSeen x.s o.idx (some (feedIdx d)) at_ (t.readP at_ (4 * c))))))) s

/-- ACCRD (R341). -/
def execAccrd (m : Main) (s : State) : Answer :=
  let d := s.issuerS m.b.toNat
  let c := feedC d
  issue (Info.feedOut (Instr.accrd m).shape m 28 c) (fun x =>
    let acc := x.c.acc? (feedIdx d)
    if feedBad d || feedRaw d || m.d.toNat + c > x.c.window || feedOff d + c > 128 then .trap (lanesTrap 0x500 x.act x.mask) x
    else
      match acc with
      | none => .trap (lanesTrap 0x502 x.act x.mask) x
      | some a =>
        if a.st = .opened || a.st = .base then .trap (lanesTrap 0x502 x.act x.mask) x
        else
          x.feedCheck false (fun v => v < 128) m.a.toNat (fun x =>
            .ok (x.onMask (fun o f =>
              let k := (o.getV m.a.toNat).toNat * 128 + feedOff d
              let g := f.setVs m.d.toNat ((List.range c).map (fun i => a.get (k + i)))
              if (List.range c).any (fun i => a.poison.contains ((k + i) / 8)) then (List.range c).foldl (fun g i => g.taint (m.d.toNat + i) .data) g
              else g)))) s

end Sys2Proof.Machine
end

