-- ==== Sys2Proof/Machine/Matrix.lean ====
section
/-! DEFINITION. The matrix engine: exact sums and the promotion of a step (11_matrix.md R313 to R317), checksums, correction and replay (R318 to
R322), the drain epilogue (R323, R324), and the events by which a matrix command starts and ends. -/

namespace Sys2Proof.Machine

/-! ## Exact values (R314) -/

/-- The exponent of a finite value. -/
def Val.exp : Val → Int
  | .fin _ _ e => e
  | _ => 0
/-- Whether a value is finite. -/
def Val.isFin : Val → Bool
  | .fin _ _ _ => true
  | _ => false
/-- The absolute value. -/
def Val.abs : Val → Val
  | .fin _ n e => .fin false n e
  | .inf _ => .inf false
  | v => v
/-- The exact product; 0 × ∞ is a NaN. -/
def Val.mul (a b : Val) : Val := (mulVal a b).1
/-- 1. -/
def Val.one : Val := .fin false 1 0

/-- The exact sum of finite values, in units of the least exponent. -/
def sumExact (l : List Val) : Val :=
  let e := l.foldl (fun e v => min e v.exp) ((l.head?.map Val.exp).getD 0)
  let t := l.foldl (fun t v => match v with | .fin s n x => t + scaled s n x e | _ => t) (0 : Int)
  .fin (t < 0) t.natAbs e

/-- The exact sum: a NaN, or both infinities, make a NaN. -/
def sumVals (l : List Val) : Val :=
  if l.any Val.isNan || (l.contains (.inf true) && l.contains (.inf false)) then .nan false
  else if l.contains (.inf true) then .inf true
  else if l.contains (.inf false) then .inf false
  else sumExact l

/-- One rounding to F32, with NV for a NaN and OF for an overflow; an exact zero is +0 (log 32). -/
def mxRound (v : Val) : Word × Word :=
  match v with
  | .nan _ => (0x7FC00000, flagNv)
  | .inf s => (infOf s, 0)
  | .fin s n e => if n = 0 then (0, 0) else let r := f32.round 0 0 true (exactOf s n e); (BitVec.ofNat 32 r.1, r.2)

/-! ## Operands (R310, R313) -/

/-- The bits of element (r, c) of a tile: element c of a row stands at bit w·c. -/
def Tile.bits (t : Tile) (r c : Nat) : Nat :=
  let w := fmtBits (recFmt t.record)
  leNat (t.read (recBase t.record + r * recPitch t.record + w * c / 8) 4) / 2 ^ (w * c % 8) % 2 ^ w

/-- The block scale of column c in row r; none without blocks. -/
def Tile.scale (t : Tile) (r c : Nat) : Option Nat :=
  if recLen t.record = 0 then none else some (leNat (t.read (recSoff t.record + 2 * (r * recBlocks t.record + c / recLen t.record)) 2))

/-- The element as the engine reads it: an element of a zero block is +0 (04_floating.md R101). -/
def Tile.val (t : Tile) (r c : Nat) : Val :=
  let b := t.bits r c
  let f := recFmt t.record
  match (t.scale r c).map bsE with
  | some 0 => .fin false 0 0
  | _ => if f ≤ 5 then qVal f b else if f = 6 then (let i := sext 8 b; .fin (i < 0) i.natAbs 0) else if f = 7 then f16.val b else bf16.val b

/-- The block scale's value: 1 without blocks and for a zero block, a NaN for a NaN block. -/
def Tile.scaleVal (t : Tile) (r c : Nat) : Val :=
  match t.scale r c with
  | none => .one
  | some sc => if bsE sc = 0 then .one else if bsE sc = 255 then .nan false else .fin false (bsN sc) (bsX sc)

/-- The coarse scale of a row, 1 without one. -/
def Tile.coarse (t : Tile) (r : Nat) : Val := if recCs t.record then fval (leWord (t.read (recCsoff t.record + 4 * r) 4)) else .one

/-- Whether a unit that an operand's rows, block scales or first n coarse scales lie in is poisoned (15_system.md R416). -/
def Tile.operandBad (t : Tile) (n : Nat) : Bool :=
  let r := t.record
  t.bad (recBase r) (recRows r * recPitch r) || (recBlocks r ≠ 0 && t.bad (recSoff r) (2 * (recRows r * recBlocks r)))
  || (recCs r && t.bad (recCsoff r) (4 * n))

/-- A row as a function of k: its elements and its block scales. -/
structure Line where
  x : Nat → Val
  s : Nat → Val

/-- A row of an operand, in absolute values when `ab`. -/
def Tile.line (t : Tile) (ab : Bool) (r : Nat) : Line :=
  { x := fun k => if ab then (t.val r k).abs else t.val r k, s := fun k => t.scaleVal r k }

/-! ## One step (R314 to R317) -/

/-- Whether a bit of the mask keeps its columns or blocks; every bit is 1 without a mask. -/
def MxStep.keeps (st : MxStep) (n : Nat) : Bool := match st.mask with | none => true | some m => m.getLsbD (st.kt0 + n)
/-- The unmasked columns. -/
def MxStep.cols (st : MxStep) (n : Nat) : List Nat := (List.range n).filter (fun j => st.axis || st.keeps (j / 64))
/-- The first k of each unmasked block of length L. -/
def MxStep.blocks (st : MxStep) (k len : Nat) : List Nat :=
  ((List.range ((k + len - 1) / len)).map (· * len)).filter (fun b => !st.axis || st.keeps (b / 64))

/-- The block length of a step: 32 without blocks. -/
def mxLen (t : Tile) : Nat := if recLen t.record = 0 then 32 else recLen t.record

/-- The k of a block. -/
def blockKs (k len b : Nat) : List Nat := (List.range (min len (k - b))).map (b + ·)

/-- P of R314, with what its roundings raise: none when every block is masked. -/
def mxDot (a b : Line) (k len : Nat) : List Nat → Option (Word × Word) → Option (Word × Word)
  | [], p => p
  | n :: r, p =>
    let e := sumVals ((blockKs k len n).map (fun i => (a.x i).mul (b.x i)))
    let s := mxRound ((e.mul (a.s n)).mul (b.s n))
    let q := match p with
      | none => s
      | some p => let t := mxRound (sumVals [fval p.1, fval s.1]); (t.1, p.2 ||| s.2 ||| t.2)
    mxDot a b k len r (some q)

/-- The promotion of P to a value of the accumulator. -/
def promote (acc : Word) (p : Option (Word × Word)) (ca cb : Val) : Word × Word :=
  match p with
  | none => (acc, 0)
  | some p => let r := mxRound (sumVals [fval acc, ((fval p.1).mul ca).mul cb]); (r.1, p.2 ||| r.2)

/-- Puts element k of an accumulator, in rising order and with no zero listed. -/
def elemSet : List (Nat × Word) → Nat → Word → List (Nat × Word)
  | [], k, x => if x = 0 then [] else [(k, x)]
  | (i, y) :: r, k, x =>
    if i = k then if x = 0 then r else (k, x) :: r
    else if k < i then if x = 0 then (i, y) :: r else (k, x) :: (i, y) :: r
    else (i, y) :: elemSet r k x

/-- Puts an element and raises the sticky bits of the status. -/
def Acc.put (a : Acc) (k : Nat) (v : Word × Word) : Acc :=
  { a with elems := elemSet a.elems k v.1, nv := a.nv || v.2 &&& flagNv ≠ 0, overflow := a.overflow || v.2 &&& flagOf ≠ 0 }

/-- The sum over some rows of a line's values times their scales and coarse factors, held exactly (R318). -/
def hatLine (l : List (Line × Val)) : Line :=
  { x := fun k => sumVals (l.map (fun e => ((e.1.x k).mul (e.1.s k)).mul e.2)), s := fun _ => .one }

/-- 128 values of which some are changed. -/
def update128 (l : List Word) (on : List Nat) (f : Nat → Word → Word) : List Word :=
  (List.range 128).map (fun i => if on.contains i then f i (l.getD i 0) else l.getD i 0)

/-- A step on an F32 accumulator, with its checks (R314, R318). -/
def mmaFloat (a : Acc) (ta tb : Tile) (js bs : List Nat) : Acc :=
  let k := recCols ta.record
  let len := mxLen ta
  let is := List.range (recRows ta.record)
  let dot (x y : Line) : Option (Word × Word) := mxDot x y k len bs none
  let a' := is.foldl (fun a i => js.foldl (fun a j =>
    a.put (128 * i + j) (promote (a.get (128 * i + j)) (dot (ta.line false i) (tb.line false j)) (ta.coarse i) (tb.coarse 0))) a) a
  let ab (b : Bool) (v : Val) : Val := if b then v.abs else v
  let bHat (b : Bool) : Line := hatLine (js.map (fun j => (tb.line b j, ab b (tb.coarse 0))))
  let aHat (b : Bool) : Line := hatLine (is.map (fun i => (ta.line b i, ab b (ta.coarse i))))
  let row (b : Bool) (i : Nat) (w : Word) : Word := (promote w (dot (ta.line b i) (bHat b)) (ab b (ta.coarse i)) .one).1
  let col (b : Bool) (j : Nat) (w : Word) : Word := (promote w (dot (aHat b) (tb.line b j)) .one (ab b (tb.coarse 0))).1
  { a' with cc := update128 a.cc is (row false), mc := update128 a.mc is (row true), cr := update128 a.cr js (col false),
            mr := update128 a.mr js (col true) }

/-- A finite value that is an integer. -/
def valInt : Val → Int
  | .fin s n e => scaled s n e 0
  | _ => 0

/-- A step on an INT32 accumulator, with its checks (R315, R318). -/
def mmaInt (a : Acc) (ta tb : Tile) (js bs : List Nat) : Acc :=
  let ks := bs.flatMap (blockKs (recCols ta.record) 32)
  let is := List.range (recRows ta.record)
  let dot (i j : Nat) : Int := (ks.map (fun k => valInt (ta.val i k) * valInt (tb.val j k))).foldl (· + ·) 0
  let plus (w : Word) (n : Int) : Word := w + BitVec.ofInt 32 n
  let a' := is.foldl (fun a i => js.foldl (fun a j => a.put (128 * i + j) (plus (a.get (128 * i + j)) (dot i j), 0)) a) a
  { a' with cc := update128 a.cc is (fun i w => js.foldl (fun w j => plus w (dot i j)) w)
            cr := update128 a.cr js (fun j w => is.foldl (fun w i => plus w (dot i j)) w) }

/-- MMA on an accumulator: unchanged where every column or block is masked. -/
def mmaAcc (a : Acc) (ta tb : Tile) (st : MxStep) : Acc :=
  let js := st.cols (recRows tb.record)
  let bs := st.blocks (recCols ta.record) (mxLen ta)
  if js.isEmpty || bs.isEmpty then a else if a.int then mmaInt a ta tb js bs else mmaFloat a ta tb js bs

/-- Active multiplications of a step (R338). -/
def mmaMacs (ta tb : Tile) (st : MxStep) : Nat :=
  recRows ta.record * (st.cols (recRows tb.record)).length
    * ((st.blocks (recCols ta.record) (mxLen ta)).flatMap (blockKs (recCols ta.record) (mxLen ta))).length

/-- The log and the held tiles after a step (R321). -/
def Acc.logStep (a : Acc) (st : MxStep) : Acc :=
  if a.log.length < 64 then { a with log := a.log ++ [st], names := a.names ++ [st.ta, st.tb] }
  else { a with ovfl := true, names := a.names ++ [st.ta, st.tb] }

/-! ## Checks (R318 to R320) -/

/-- The values of a row, and of a column. -/
def Acc.row (a : Acc) (i : Nat) : List Word := (List.range 128).map (fun j => a.get (128 * i + j))
def Acc.col (a : Acc) (j : Nat) : List Word := (List.range 128).map (fun i => a.get (128 * i + j))

/-- Checks of a line of an accumulator as a checkpoint sets them: sum and sum of magnitudes. -/
def lineCheck (int : Bool) (l : List Word) : Word × Word :=
  if int then (l.foldl (· + ·) 0, 0) else ((mxRound (sumVals (l.map fval))).1, (mxRound (sumVals (l.map (fun w => (fval w).abs)))).1)

/-- The checks that an accumulator's elements set (R318). -/
def Acc.recheck (a : Acc) : Acc :=
  if a.elems.isEmpty then { a with cc := [], mc := [], cr := [], mr := [] }
  else
    let rows := (List.range 128).map (fun i => lineCheck a.int (a.row i))
    let cols := (List.range 128).map (fun j => lineCheck a.int (a.col j))
    { a with cc := rows.map Prod.fst, mc := rows.map Prod.snd, cr := cols.map Prod.fst, mr := cols.map Prod.snd }

/-- Whether a line matches its check within the tolerance (R319). -/
def lineMatch (int : Bool) (tol : Word) (l : List Word) (c m : Word) : Bool :=
  if int then l.foldl (· + ·) 0 = c
  else
    let vs := l.map fval
    if vs.all Val.isFin && (fval c).isFin then
      let d := (sumVals (vs ++ [(fval c).negate])).abs
      let b := (fval tol).mul (fval m)
      d.lt b || d.eq b
    else !vs.all Val.isFin && !(fval c).isFin

/-- The rows and the columns that do not match. -/
def Acc.badRows (a : Acc) (tol : Word) : List Nat :=
  (List.range 128).filter (fun i => !lineMatch a.int tol (a.row i) (a.cc.getD i 0) (a.mc.getD i 0))
def Acc.badCols (a : Acc) (tol : Word) : List Nat :=
  (List.range 128).filter (fun j => !lineMatch a.int tol (a.col j) (a.cr.getD j 0) (a.mr.getD j 0))

/-- The corrected value of element (i, j) (R320). -/
def Acc.fix (a : Acc) (i j : Nat) : Word :=
  let others := ((List.range 128).filter (· ≠ j)).map (fun k => a.get (128 * i + k))
  if a.int then a.cc.getD i 0 - others.foldl (· + ·) 0
  else (mxRound (sumVals (fval (a.cc.getD i 0) :: others.map (fun w => (fval w).negate)))).1

/-- What a drain's comparison comes to: it passes, perhaps with one corrected element; it needs a replay; or it fails. -/
inductive Judged where
  | pass (a : Acc) (fixed : Option (Nat × Nat))
  | replay (a : Acc)
  | fail (a : Acc)
  deriving DecidableEq, Repr

/-- What follows a mismatch that no correction mends. -/
def Acc.mismatch (a : Acc) (replayed : Bool) : Judged := if replayed || a.ovfl then .fail a else .replay a

/-- The comparison of a drain and its action (R319, R320). -/
def Acc.judge (a : Acc) (tol : Word) (replayed : Bool) : Judged :=
  match a.badRows tol, a.badCols tol with
  | [], [] => .pass a none
  | [i], [j] =>
    if replayed then .fail a
    else
      let old := a.get (128 * i + j)
      let b := { a with elems := elemSet a.elems (128 * i + j) (a.fix i j) }
      if lineMatch b.int tol (b.row i) (b.cc.getD i 0) (b.mc.getD i 0) && lineMatch b.int tol (b.col j) (b.cr.getD j 0) (b.mr.getD j 0) then
        .pass { b with corr := b.corr + 1, lastCorr := DWord.ofWords old (BitVec.ofNat 32 (i + 256 * j)) } (some (i, j))
      else b.mismatch false
  | _, _ => a.mismatch replayed

/-- The accumulator after its logged commands have run again from its base (R320). -/
def Coil.replay (c : Coil) (a : Acc) : Acc :=
  let base := match a.baseOf.bind c.acc? with | some b => b.elems | none => []
  a.log.foldl (fun a st =>
    match c.tile? st.ta, c.tile? st.tb with
    | some ta, some tb => mmaAcc a ta tb st
    | _, _ => a) { a with elems := base }.recheck

/-! ## Epilogue (R323, R324) -/

/-- The bias of column j. -/
def Coil.bias (c : Coil) (e : Epilogue) (j : Nat) : Val :=
  match e.bias.bind c.tile? with
  | some t => fval (leWord (t.read (e.ctrl.toNat / 2 ^ 9 % 4096 * 16 + 4 * j) 4))
  | none => .fin false 0 0

/-- y of element (i, j), with flags. -/
def Coil.epilogue (c : Coil) (a : Acc) (e : Epilogue) (i j : Nat) : Word × Word :=
  let w := a.get (128 * i + j)
  let x := if a.int then Val.fin (w.toInt < 0) w.toInt.natAbs 0 else fval w
  let r := mxRound (sumVals [x.mul (fval e.scale), c.bias e j])
  let y := actW (e.ctrl.toNat % 8) r.1
  (y.1, r.2 ||| y.2)

/-- y in a format other than a block format. -/
def mxConvert (fmt : Nat) (ovf : Bool) (y : Word) : Nat × Word :=
  if fmt = 9 then (y.toNat, 0)
  else if fmt = 6 then
    match fval y with
    | .nan _ => (0, 0)
    | .inf s => (if s then 0x80 else 0x7F, 0)
    | .fin s n e => ((BitVec.ofInt 8 (clamp ((exactOf s n e).toInt 0 0).1 (-128) 127)).toNat, 0)
  else if fmt = 7 then f16.convert 0 0 ovf (fval y)
  else if fmt = 8 then bf16.convert 0 0 ovf (fval y)
  else (qFmt fmt).convert 0 0 ovf (fval y)

/-- A row of a drain: the element bits, the block scales and the flags. -/
def mxRow (r : DWord) (ovf : Bool) (ys : List Word) : List Nat × List Nat × Word :=
  if recLen r = 0 then
    let q := ys.map (mxConvert (recFmt r) ovf)
    (q.map Prod.fst, [], q.foldl (fun f e => f ||| e.2) 0)
  else
    (List.range (recBlocks r)).foldl (fun p b =>
      let vs := ((ys.drop (b * recLen r)).take (recLen r)).map fval
      let sc := qScale (recFmt r) vs
      let q := (qElems (recFmt r) 0 sc.1 (bsE sc.1 ≠ 0 && bsE sc.1 ≠ 255) vs 0).1
      (p.1 ++ q.map Prod.fst, p.2.1 ++ [sc.1], p.2.2 ||| sc.2 ||| q.foldl (fun f e => f ||| e.2) 0)) ([], [], 0)

/-- Writes a row's elements and scales; bits of the last byte past the row's elements are unchanged. -/
def Tile.putRow (t : Tile) (i : Nat) (q : List Nat) (scales : List Nat) : Tile :=
  let r := t.record
  let w := fmtBits (recFmt r)
  let at_ := recBase r + i * recPitch r
  let n := (recCols r * w + 7) / 8
  let old := leNat (t.read at_ n)
  let new := q.foldr (fun x a => x % 2 ^ w + 2 ^ w * a) 0
  let t := t.write at_ (leBytes n (old / 2 ^ (recCols r * w) * 2 ^ (recCols r * w) + new)) false
  if scales.isEmpty then t else t.write (recSoff r + 2 * (i * recBlocks r)) (scales.flatMap (leBytes 2)) false

/-- Raises the sticky bits of an accumulator's status. -/
def Acc.raise (a : Acc) (f : Word) : Acc := { a with nv := a.nv || f &&& flagNv ≠ 0, overflow := a.overflow || f &&& flagOf ≠ 0 }

/-- The epilogue into a tile register. -/
def Coil.drainTo (c : Coil) (a : Acc) (e : Epilogue) (t : Tile) : Tile × Acc :=
  (List.range (recRows t.record)).foldl (fun p i =>
    let ys := (List.range (recCols t.record)).map (fun j => c.epilogue a e i j)
    let row := mxRow t.record (e.ctrl.getLsbD 21) (ys.map Prod.fst)
    (p.1.putRow i row.1 row.2.1, p.2.raise (ys.foldl (fun f y => f ||| y.2) row.2.2))) (t, a)

/-- The epilogue in place. -/
def Coil.drainIn (c : Coil) (a : Acc) (e : Epilogue) : Acc :=
  (List.range (128 * 128)).foldl (fun b k => b.put k (c.epilogue a e (k / 128) (k % 128))) { a with elems := [], poison := [] }

/-! ## Records and events (R322, R335) -/

/-- A record of a matrix command (15_system.md R402, R406, R490). -/
def State.mxRec (s : State) (k : MxCmd) (code : Nat) (a : Option Acc) : Rec :=
  let r := match s.coil? k.owner with
    | some c => s.coilRec c code 4 1
    | none => Rec.plain code 4 (locOf k.core 1)
  { r with sev := (codeSev code).1, act := (codeSev code).2, loc := locOf k.core 1, task := some k.task,
           detail := (a.map Acc.status).getD 0 }

/-- KIND of an event record. -/
def MxOp.kind : MxOp → Nat
  | .mma _ _ => 1
  | .zero _ => 2
  | _ => 3

/-- Word 0 of a command's event record. -/
def MxCmd.word (k : MxCmd) (code : Nat) : DWord :=
  BitVec.ofNat 64 (k.seq % 2 ^ 16 * 2 ^ 48 + k.tag * 2 ^ 42 + code * 2 ^ 16 + k.core % 4 * 256 + k.op.kind)

/-- Posts the event record of a command that ends, or releases its entry (R331). -/
def State.mxPost (s : State) (k : MxCmd) (code : Nat) (w : DWord) : State :=
  if !k.entry then s
  else
    { s with coils := s.coils.map (fun (c : Coil) =>
        match c.mcc with
        | some x =>
          if c.id = k.owner && x.run = k.run then
            let y := { x with reserved := x.reserved - 1 }
            { c with mcc := some (if k.ev || code ≠ 0 then { y with events := y.events ++ [(k.word code, w)] } else y) }
          else c
        | none => c) }

/-- The barrier of a drain that ends: the drain arrives, and a fault makes the barrier ERROR (R322; 09_ordering.md R272). -/
def State.mxBar (s : State) (k : MxCmd) (failed : Bool) : State :=
  match k.bar, s.coil? k.owner with
  | some b, some c =>
    let r := { s.mxRec k 0 none with count := 1 }
    if failed then let q := s.arriveFail c b r; q.1.setCoil q.2
    else let q := s.arrive c b 0 r; q.1.setCoil q.2.1
  | _, _ => s

/-- The command at the head of a core's queue. -/
def State.mxHead (s : State) (core : Nat) : Option MxCmd := s.mxq.find? (fun k => k.core = core)
/-- Takes the head of a core's queue away. -/
def State.mxDrop (s : State) (core : Nat) : State := { s with mxq := s.mxq.eraseP (fun k => k.core = core) }
/-- Changes the head of a core's queue. -/
def State.mxSet (s : State) (k : MxCmd) : State :=
  match s.mxq.findIdx? (fun e => e.core = k.core) with
  | some n => { s with mxq := s.mxq.set n k }
  | none => s

/-- A command of an RCB has ended: the RCB may be DONE (07_work.md R180). -/
def State.mxDone (s : State) (k : MxCmd) : State :=
  match s.coil? k.owner with
  | some c => s.rcbCheck c.asid c.rcb
  | none => s

/-- The end of a command without a fault: `w` is word 1 of its event record. -/
def State.mxEnd (s : State) (k : MxCmd) (w : DWord) : State := (((s.mxDrop k.core).mxBar k false).mxPost k 0 w).mxDone k

/-- The end of a command with a code: a record, an event record with word 1, and the barrier, on which it arrives, in ERROR (R322, R335). -/
def State.mxFail (s : State) (k : MxCmd) (code : Nat) (a : Option Acc) (w : DWord) : State :=
  ((((s.mxDrop k.core).record (s.mxRec k code a)).mxBar k true).mxPost k code w).mxDone k

/-! ## Commands on their accumulator -/

/-- A command's accumulator becomes FAULTED, its base DRAINED (R312, R322). -/
def Coil.faultAcc (c : Coil) (a : Acc) : Coil :=
  (c.freeBase a).putAcc { a with st := .faulted, log := [], names := [], baseOf := none }

/-- A command reads a poisoned unit: its accumulator becomes FAULTED (15_system.md R416). -/
def State.mxPoison (s : State) (k : MxCmd) (c : Coil) (a : Acc) : State := (s.setCoil (c.faultAcc a)).mxFail k 0x806 (some a) 0

/-- Whether a unit of an accumulator's first rows and columns is poisoned. -/
def Acc.badIn (a : Acc) (rows cols : Nat) : Bool := a.poison.any (fun u => u / 16 < rows && u % 16 * 8 < cols)

/-- MMA and MMA.M. -/
def State.mxMma (s : State) (k : MxCmd) (c : Coil) (a : Acc) (st : MxStep) : State :=
  match c.tile? st.ta, c.tile? st.tb with
  | some ta, some tb =>
    let reads := mmaMacs ta tb st ≠ 0
    if reads && (ta.operandBad (recRows ta.record) || tb.operandBad 1 || a.badIn (recRows ta.record) (recRows tb.record)) then s.mxPoison k c a
    else (s.setCoil (c.putAcc ((mmaAcc a ta tb st).logStep st))).mxEnd k 0
  | _, _ => s.mxFail k 0x500 (some a) 0

/-- MXZERO (R332, R334). -/
def State.mxZero (s : State) (k : MxCmd) (c : Coil) (a : Acc) (int : Bool) : State :=
  (s.setCoil ((c.freeBase a).putAcc { Acc.new a.num with st := .opened, int := int })).mxEnd k 0

/-- Word 1 of a drain's event record (R335). -/
def drainWord (fixed : Option (Nat × Nat)) (replayed : Bool) : DWord :=
  BitVec.ofNat 64 ((match fixed with | some (i, j) => 1 + i * 2 ^ 16 + j * 2 ^ 24 | none => 0) + if replayed then 256 else 0)

/-- A drain that passes (R324, R332). -/
def State.mxPass (s : State) (k : MxCmd) (c : Coil) (a : Acc) (fixed : Option (Nat × Nat)) (replayed : Bool) : State :=
  let elem := match fixed with | some (i, j) => 128 * i + j | none => 0
  let s := if fixed.isSome || replayed then
      s.record { s.mxRec k 0x504 (some a) with act := if replayed then 1 else 0, aux := BitVec.ofNat 32 elem }
    else s
  let drained (a : Acc) : Acc := { a with st := .drained, log := [], names := [], ovfl := false, baseOf := none }
  let c' : Option Coil :=
    match k.op with
    | .drain t e => (c.tile? t).map (fun u =>
        let q := c.drainTo a e u
        ((c.freeBase a).putTile q.1).putAcc (drained q.2))
    | .drainAcc e => some ((c.freeBase a).putAcc (drained (c.drainIn a e)))
    | .drainChk b =>
      ((c.freeBase a).acc? b).map (fun m =>
        ((c.freeBase a).putAcc { m with st := .base, int := a.int, elems := a.elems, poison := [] }).putAcc
          { a.recheck with log := [], names := [], ovfl := false, baseOf := some b })
    | _ => none
  match c' with
  | some c => (s.setCoil c).mxEnd k (drainWord fixed replayed)
  | none => s.mxFail k 0x500 (some a) 0

/-- The tiles that a drain's bias reads are poisoned. -/
def Coil.biasBad (c : Coil) (op : MxOp) : Bool :=
  let bad (e : Epilogue) (n : Nat) : Bool :=
    match e.bias.bind c.tile? with
    | some t => t.bad (e.ctrl.toNat / 2 ^ 9 % 4096 * 16) (4 * n)
    | none => false
  match op with
  | .drain t e => bad e (((c.tile? t).map (fun u => recCols u.record)).getD 0)
  | .drainAcc e => bad e 128
  | _ => false

/-- The energy class of a logged step (R338). -/
def Coil.stepClass (c : Coil) (st : MxStep) : Nat :=
  match c.tile? st.ta, c.tile? st.tb with
  | some ta, some tb => (mmaMacs ta tb st + 262143) / 262144
  | _, _ => 0

/-- A replay asks leave for its logged commands one after another, and then runs them (R320, R338). -/
def State.mxReplay (s : State) (k : MxCmd) (c : Coil) (a : Acc) : State :=
  match a.log[k.replayed]? with
  | some st =>
    let cls := c.stepClass st
    let r := if cls = 0 then (true, s) else s.leave k.core .matrix cls k.target
    if r.1 then r.2.mxSet { k with replayed := k.replayed + 1 } else r.2
  | none =>
    let bad := a.log.any (fun st => match c.tile? st.ta, c.tile? st.tb with
      | some ta, some tb => mmaMacs ta tb st ≠ 0 && (ta.operandBad (recRows ta.record) || tb.operandBad 1)
      | _, _ => true)
    let base := match a.baseOf.bind c.acc? with | some b => !b.poison.isEmpty | none => false
    if bad || base then s.mxPoison k c a
    else
      match (c.replay { a with repl := a.repl + 1 }).judge k.mxtol true with
      | .pass b fixed => s.mxPass k c b fixed true
      | .replay b => (s.setCoil (c.faultAcc b)).mxFail k 0x505 (some { b with st := .faulted }) (drainWord none true)
      | .fail b => (s.setCoil (c.faultAcc b)).mxFail k 0x505 (some { b with st := .faulted }) (drainWord none true)

/-- A drain (R319, R320). -/
def State.mxDrain (s : State) (k : MxCmd) (c : Coil) (a : Acc) : State :=
  if !a.poison.isEmpty || c.biasBad k.op then s.mxPoison k c a
  else
    match a.judge k.mxtol false with
    | .pass b fixed => s.mxPass k c b fixed false
    | .replay b => s.mxReplay k c b
    | .fail b => (s.setCoil (c.faultAcc b)).mxFail k 0x505 (some { b with st := .faulted }) 0

/-- The coil and the accumulator of a command, when they are there and in the state that it needs (R322). -/
def State.mxOn (s : State) (k : MxCmd) : Option (Coil × Acc) :=
  match s.coil? k.target with
  | none => none
  | some c =>
    match c.acc? k.acc with
    | none => none
    | some a => if k.op.stateOk c a then some (c, a) else none

/-- MATRIX_COMMAND_START (R317, R338): the head of a core's queue starts, when its leave is granted. -/
def execMatrixCommandStart (core : Nat) (s : State) : Answer :=
  match s.mxHead core with
  | none => .next s
  | some k =>
    if k.started then .next s
    else
      match s.mxOn k, k.op with
      | some (c, _), .mma st masked =>
        let st := { st with mask := masked.map (fun n => c.m.getD n 0) }
        let k := { k with op := .mma st masked }
        let cls := c.stepClass st
        let r := if cls = 0 then (true, s) else s.leave core .matrix cls k.target
        .next (if r.1 then r.2.mxSet { k with started := true } else r.2)
      | _, _ => .next (s.mxSet { k with started := true })

/-- MATRIX_COMMAND_END (R314 to R324, R332): a command that finds its accumulator in another state ends with MX_ACC and no effect. -/
def execMatrixCommandEnd (core : Nat) (s : State) : Answer :=
  match s.mxHead core with
  | none => .next s
  | some k =>
    if !k.started then .next s
    else
      match s.mxOn k with
      | none => .next (s.mxFail k 0x502 ((s.coil? k.target).bind (fun c => c.acc? k.acc)) 0)
      | some (c, a) =>
        .next (match k.op with
          | .mma st _ => s.mxMma k c a st
          | .zero int => s.mxZero k c a int
          | _ => s.mxDrain k c a)

end Sys2Proof.Machine
end

