-- ==== Sys2Proof/Machine/Scout.lean ====
section
/-! DEFINITION. The scout unit, the threshold unit and the mask instructions (12_scout.md R343 to R357). -/

namespace Sys2Proof.Machine

/-! ## Descriptors (R348) -/

/-- The fields of a SCOUT descriptor, its eight registers. -/
def scKoff (d : List Word) : BitVec 64 := DWord.ofWords (d.getD 1 0) (d.getD 0 0)
def scCtl (d : List Word) : Nat := (d.getD 2 0).toNat
def scKfmt (d : List Word) : Nat := scCtl d / 2 ^ 25 % 4
def scCausal (d : List Word) : Bool := (scCtl d).testBit 24
def scInit (d : List Word) : Bool := (scCtl d).testBit 23
def scKt0 (d : List Word) : Nat := scCtl d / 2 ^ 13 % 128
def scNk (d : List Word) : Nat := scCtl d % 2 ^ 13 + 1
def scKstr (d : List Word) : Nat := (d.getD 3 0).toNat
def scSigma (d : List Word) : Word := d.getD 4 0
def scQpos (d : List Word) : Nat := (d.getD 5 0).toNat
def scTiles (d : List Word) : Nat := (d.getD 6 0).toNat
def scQtile (d : List Word) : Nat := scTiles d % 32
def scEtile (d : List Word) : Nat := scTiles d / 2 ^ 5 % 32
def scDtile (d : List Word) : Nat := scTiles d / 2 ^ 10 % 32
def scDoff (d : List Word) : Nat := scTiles d / 2 ^ 15 % 4096 * 16
/-- Key tiles. -/
def scNt (d : List Word) : Nat := (scNk d + 63) / 64

/-- Bytes of a key row of n elements. -/
def keyLen (fmt n : Nat) : Nat := if fmt = 0 then n else if fmt = 3 then n / 2 + 4 else 2 * n

/-- Whether two byte ranges overlap. -/
def overlaps (a n b m : Nat) : Bool := a < b + m && b < a + n

/-! ## Checks (R350) -/

/-- MX_TILE: the tiles of a SCOUT. -/
def State.scoutTiles (s : State) (c : Coil) (d : List Word) : Bool :=
  let bad (n : Nat) : Bool := match c.tile? n with | some t => recInvalid t.record | none => true
  bad (scQtile d) || bad (scEtile d) || (c.tile? (scDtile d)).isNone || s.tileHeld c (scEtile d) || s.tileHeld c (scDtile d)

/-- A tile's record, zeros where it is not reserved. -/
def Coil.record (c : Coil) (n : Nat) : DWord := ((c.tile? n).map Tile.record).getD 0

/-- SCOUT_DESC. -/
def Coil.scoutBad (c : Coil) (d : List Word) : Bool :=
  let q := c.record (scQtile d)
  let e := c.record (scEtile d)
  let n := recCols q
  scCtl d / 2 ^ 27 ≠ 0 || scTiles d / 2 ^ 27 ≠ 0 || d.getD 7 0 ≠ 0 || scCtl d / 2 ^ 20 % 8 = 7
  || !([0, 1, 7, 8, 9].contains (recFmt q)) || recBlk q ≠ 0 || n % 16 ≠ 0
  || recFmt e ≠ 9 || recBlk e ≠ 0 || recRows e < recRows q || recCols e < scKt0 d + scNt d
  || scKt0 d + scNt d > 128
  || scKstr d % 16 ≠ 0 || scKstr d < keyLen (scKfmt d) n
  || !finiteW (scSigma d) || scDoff d + 512 > 65536 || scQtile d = scEtile d || scQtile d = scDtile d
  || (scDtile d = scEtile d && overlaps (scDoff d) 512 (recBase e) (recRows e * recPitch e))

/-- The checks on the key slot. -/
def Coil.keyTrap (c : Coil) (slot : Nat) (d : List Word) : Option Trap :=
  let lo := (scKoff d).toNat
  slotTrap (c.slot slot) [0, 3] false
    [(decide (lo % 16 ≠ 0), lo, ((lo + (scNk d - 1) * scKstr d + keyLen (scKfmt d) (recCols (c.record (scQtile d))) : Nat) : Int))] c.scratchLen

/-! ## SCOUT (R350, R351) -/

/-- SCOUT. -/
def execScout (m : Main) (s : State) : Answer :=
  issue ({ ((Info.of (Instr.scout m).shape m 4).access.late.alsoReads [(.hs, m.mod)]) with known := false, impure := true }) (fun x =>
    let d := x.src.getSs m.b.toNat 8
    if x.s.scoutTiles x.c d then .trap { Trap.of 0x500 with count := 1 } x
    else if x.c.scoutBad d then .trap { Trap.of 0x506 with count := 1 } x
    else
      match x.src.keyTrap m.mod d, x.src.slot m.mod with
      | some t, _ => .trap t x
      | none, none => .trap { Trap.of 0x100 with count := 1 } x
      | none, some h =>
        if (x.s.scouts.filter (fun k => k.core = x.c.core)).length ≥ 8 then .stall
        else
          let r := x.s.coreRegs x.c.core
          let k : ScoutCmd := { core := x.c.core, coil := x.c.id, pc := x.pc, fibres := x.act, flag := x.setf, desc := d, key := h,
                                task := taskOf x.c r.scoutSeq }
          let s := x.s.setCoreRegs x.c.core { r with scoutSeq := r.scoutSeq + 1 }
          .ok { x with s := { s with scouts := s.scouts ++ [k] }
                       c := x.c.onFibres x.act (fun f => { f with holds := f.holds + 1 }) }) s

/-! ## Quantisation and estimates (R345, R346) -/

/-- A quantised row: whether it is finite, M, the scale and the integers. -/
structure QRow where
  ok : Bool
  m : Val
  s : Val
  q : List Int
  deriving DecidableEq, Repr

/-- A row that is not finite. -/
def QRow.bad : QRow := { ok := false, m := .inf false, s := .one, q := [] }

/-- The largest of some magnitudes. -/
def maxAbs (l : List Val) : Val := l.foldl (fun b v => if b.lt v.abs then v.abs else b) (.fin false 0 0)

/-- A quotient of finite values rounded to an integer, ties to even. -/
def quotInt : Val → Val → Int
  | .fin s n e, .fin _ k x => if k = 0 then 0 else ((Exact.quot s n k (e - x)).toInt 0 0).1
  | _, _ => 0

/-- M / 7 rounded up to F32. -/
def seventh : Val → Val
  | .fin _ n e => f32.val (f32.round 2 0 true (Exact.quot false n 7 e)).1
  | v => v

/-- A row of exact values, quantised (R345). -/
def quantRow (l : List Val) : QRow :=
  if !l.all Val.isFin then .bad
  else
    let m := maxAbs l
    if m.isZero then { ok := true, m := m, s := m, q := l.map (fun _ => 0) }
    else { ok := true, m := m, s := seventh m, q := l.map (fun v => quotInt v (seventh m)) }

/-- The elements of a row of bytes in 8-bit or 16-bit formats. -/
def rowVals (f : Fmt) (w : Nat) : Nat → List Byte → List Val
  | 0, _ => []
  | n + 1, l => f.val (leNat (l.take w)) :: rowVals f w n (l.drop w)

/-- A stored SK4 row of n elements: 4-bit integers and an F32 scale. -/
def sk4Row (n : Nat) (l : List Byte) : QRow :=
  let w := leNat l
  let q := (List.range n).map (fun k => sext 4 (w / 2 ^ (4 * k) % 16))
  let s := fval (BitVec.ofNat 32 (w / 2 ^ (4 * n)))
  if !s.isFin then .bad
  else { ok := true, m := maxAbs (q.map (fun i => s.mul (.fin (i < 0) i.natAbs 0))), s := s, q := q }

/-- A key row; a poisoned one is not finite. -/
def keyRow (fmt n : Nat) (l : List PByte) : QRow :=
  let b := l.map Prod.fst
  if pbBad l then .bad
  else if fmt = 3 then sk4Row n b
  else if fmt = 0 then quantRow (rowVals e4m3 1 n b)
  else quantRow (rowVals (if fmt = 1 then f16 else bf16) 2 n b)

/-- An element of a query tile. -/
def Tile.queryVal (t : Tile) (r k : Nat) : Val :=
  let b := t.bits r k
  let f := recFmt t.record
  if f = 9 then fval (BitVec.ofNat 32 b) else if f = 7 then f16.val b else if f = 8 then bf16.val b else (qFmt f).val b

/-- The estimate of a pair (R346). -/
def estimate (sigma : Word) (x y : QRow) : Word :=
  if !x.ok || !y.ok then 0x7F800000
  else
    let dot := (List.zipWith (fun a b => a * b) x.q y.q).foldl (· + ·) (0 : Int)
    (mxRound ((((fval sigma).mul x.s).mul y.s).mul (.fin (dot < 0) dot.natAbs 0))).1

/-- The bound of a query row of n elements (R346). -/
def scoutBound (sigma : Word) (n : Nat) (x : QRow) (mk : Val) : Word :=
  if !x.ok then 0x7F800000
  else match (((fval sigma).abs).mul x.m).mul mk with
    | .fin _ k e => BitVec.ofNat 32 (f32.round 2 0 true (Exact.quot false (k * n * 29 * (2 ^ 20 + 1)) 196 (e - 20))).1
    | _ => 0x7F800000

/-- The larger of two F32 values, +0 above -0; a NaN stays (log 33). -/
def maxW (a b : Word) : Word :=
  if (fval a).isNan then a
  else if (fval a).lt (fval b) || ((fval a).eq (fval b) && a.getLsbD 31) then b else a

/-! ## Execution (R349) -/

/-- Puts a word at an offset of a tile register of a coil. -/
def Coil.tileSet (c : Coil) (n off : Nat) (w : Word) : Coil :=
  match c.tile? n with
  | some t => c.putTile (t.write off (leBytes 4 w.toNat) false)
  | none => c
/-- The word at an offset of a tile register of a coil. -/
def Coil.tileGet (c : Coil) (n off : Nat) : Word := match c.tile? n with | some t => leWord (t.read off 4) | none => 0

/-- The offset of estimate (i, t). -/
def estAt (r : DWord) (i t : Nat) : Nat := recBase r + i * recPitch r + 4 * t

/-- The key rows of a command, and the fault that ends it, if one does. -/
def State.readKeys (s : State) (c : Coil) (k : ScoutCmd) (fmt n : Nat) : List Nat → List QRow × Option MemFault × State
  | [] => ([], none, s)
  | i :: r =>
    let q := s.engRead c k.key (scKoff k.desc + BitVec.ofNat 64 (i * scKstr k.desc)) (keyLen fmt n)
    match q.1 with
    | .error f => ([], some f, q.2)
    | .ok l =>
      let w := q.2.readKeys c k fmt n r
      (keyRow fmt n l :: w.1, w.2.1, w.2.2)

/-- The words that a command leaves in its tiles: tile, offset, value. `keys` are the rows that it has read. -/
def Coil.scoutWords (c : Coil) (d : List Word) (keys : List QRow) : List (Nat × Nat × Word) :=
  let e := c.record (scEtile d)
  let q := c.record (scQtile d)
  let rows := (List.range (recRows q)).map (fun i =>
    match c.tile? (scQtile d) with
    | some t => quantRow ((List.range (recCols q)).map (fun k => t.queryVal i k))
    | none => .bad)
  let valid (n i : Nat) : Bool := !(scCausal d && 64 * scKt0 d + n > scQpos d + i)
  let mk := keys.zipIdx.foldl (fun b y => if y.1.ok && valid y.2 (recRows q - 1) && b.lt y.1.m then y.1.m else b) (Val.fin false 0 0)
  let est0 (i t : Nat) : Word := if scInit d then 0xFF800000 else c.tileGet (scEtile d) (estAt e i t)
  let merged (i t : Nat) : Word :=
    keys.zipIdx.foldl (fun b y => if scKt0 d + y.2 / 64 = t && valid y.2 i then maxW b (estimate (scSigma d) (rows.getD i .bad) y.1) else b) (est0 i t)
  let ts := (List.range (recCols e)).filter (fun t => scInit d || (scKt0 d ≤ t && t < scKt0 d + scNt d))
  let is := (List.range (recRows e)).filter (fun i => scInit d || i < recRows q)
  let ests := is.flatMap (fun i => ts.map (fun t => (scEtile d, estAt e i t, if i < recRows q then merged i t else est0 i t)))
  let bounds := ((List.range 128).filter (fun i => scInit d || i < recRows q)).map (fun i =>
    let old := if scInit d then 0 else c.tileGet (scDtile d) (scDoff d + 4 * i)
    (scDtile d, scDoff d + 4 * i, if i < recRows q then maxW old (scoutBound (scSigma d) (recCols q) (rows.getD i .bad) mk) else old))
  ests ++ bounds

/-- Whether a command reads a poisoned unit of its tiles (15_system.md R416): the queries, and, without INIT, the bounds and the estimates that
some key of its tile is valid for. -/
def Coil.scoutPoison (c : Coil) (d : List Word) : Bool :=
  let q := c.record (scQtile d)
  let e := c.record (scEtile d)
  let bad (n off k : Nat) : Bool := match c.tile? n with | some t => t.bad off k | none => false
  bad (scQtile d) (recBase q) (recRows q * recPitch q)
  || (!scInit d && (bad (scDtile d) (scDoff d) (4 * recRows q) || (List.range (recRows q)).any (fun i =>
      (List.range (scNt d)).any (fun j =>
        let t := scKt0 d + j
        (!scCausal d || decide (64 * t ≤ scQpos d + i)) && bad (scEtile d) (estAt e i t) 4))))

/-- A command's fibres are released: the flag clears, and commit points no longer wait for it (R351). -/
def ScoutCmd.release (k : ScoutCmd) (c : Coil) : Coil :=
  c.onFibres k.fibres (fun f => { f.clearFlag? k.flag with holds := f.holds - 1 })

/-- The record of a fault of a command (15_system.md R402, R406). -/
def State.scoutRec (s : State) (k : ScoutCmd) (c : Coil) (f : MemFault) : Rec :=
  { s.coilRec c f.code.toNat 5 2 with
    sev := (codeSev f.code.toNat).1, act := (codeSev f.code.toNat).2, loc := locOf k.core 2, task := some k.task, count := 1
    fibre := k.fibres.head?, addr := if f.sub = 0xFF then none else some f.addr, aux := k.pc.setWidth 32 }

/-- A fault of a command: it is delivered as a fault of the SCOUT (R350; 15_system.md R410). A coil that has been pre-empted since, or is leaving,
then waits for system software like one that the fault itself pre-empts (08_memory.md R229). -/
def State.scoutFault (s : State) (k : ScoutCmd) (c : Coil) (f : MemFault) : State :=
  let s := (s.setCoil c).record (s.scoutRec k c f)
  match deliveryOf f.code.toNat f.sub with
    | .hold =>
      match c.st with
      | .leaving none _ entry => s.setCoil { c with st := .leaving none false entry }
      | .saved _ => s.setCoil { c with st := .saved false }
      | _ => s.save { c with preempts := c.preempts + 1 } none false false
    | .context => s.killContext c.asid (some c.id) f.code.toNat
    | _ => s.killCoil c.id f.code.toNat

/-- The energy class of a command (R352). -/
def Coil.scoutClass (c : Coil) (d : List Word) : Nat :=
  let q := c.record (scQtile d)
  min 15 (max 1 ((recRows q * scNk d * recCols q + 2 ^ 21 - 1) / 2 ^ 21))

/-- The tiles of a command that a fault ended: each word old or merged (R350). -/
def Coil.scoutPartly (c : Coil) (draw : Nat) (l : List (Nat × Nat × Word)) : Coil :=
  l.zipIdx.foldl (fun c w => if Config.scoutMerged draw w.2 then c.tileSet w.1.1 w.1.2.1 w.1.2.2 else c) c

/-- Runs a command on its coil. -/
def State.runScout (s : State) (k : ScoutCmd) (c : Coil) : State :=
  if c.scoutPoison k.desc then s.scoutFault k (k.release c) ⟨0x806, 0xFF, 0⟩
  else
    let r := s.readKeys c k (scKfmt k.desc) (recCols (c.record (scQtile k.desc))) (List.range (scNk k.desc))
    let words := c.scoutWords k.desc r.1
    match r.2.1 with
    | none => r.2.2.setCoil (k.release (words.foldl (fun c w => c.tileSet w.1 w.2.1 w.2.2) c))
    | some f =>
      let d := r.2.2.draw
      d.2.scoutFault k (k.release (c.scoutPartly d.1 words)) f

/-- SCOUT_COMMAND_EXECUTE (R349, R351, R352): the oldest command of a core, once it has leave. -/
def execScoutCommandExecute (core : Nat) (s : State) : Answer :=
  match s.scouts.find? (fun k => k.core = core) with
  | none => .next s
  | some k =>
    let rest := s.scouts.eraseP (fun k => k.core = core)
    match s.coil? k.coil with
    | none => .next ({ s with scouts := rest }.unask core .scout)
    | some c =>
      if c.isOver then .next ({ s with scouts := rest }.unask core .scout)
      else
        let r := s.leave core .scout (c.scoutClass k.desc) k.coil
        if r.1 then .next ({ r.2 with scouts := rest }.runScout k c) else .next r.2

/-! ## TMASK (R353) -/

/-- An estimate: a NaN counts as +∞. -/
def estVal (w : Word) : Val := match fval w with | .nan _ => .inf false | v => v
/-- A bound: a NaN and a negative value count as +∞. -/
def boundVal (w : Word) : Val := match fval w with | .nan _ => .inf false | v => if v.neg && !v.isZero then .inf false else v

/-- The threshold of a row (R353): none when the row has no estimate. -/
def threshold (es : List Val) (delta tau : Val) (safe : Bool) : Option Val :=
  let mx := es.foldl (fun b v => if b.lt v then v else b) (.inf true)
  if mx = .inf true then none
  else if safe && delta = .inf false then some (.inf true)
  else some (sumVals ([mx, tau.negate] ++ if safe then [(delta.mul (.fin false 2 0)).negate] else []))

/-- The tiles that a row keeps. -/
def rowKeeps (es : List Val) (th : Val) : Nat :=
  es.zipIdx.foldl (fun m e => if e.1 ≠ .inf true && !e.1.lt th then m + 2 ^ e.2 else m) 0

/-- The mask that TMASK writes. -/
def Coil.tmask (c : Coil) (w tau : Word) : BitVec 128 :=
  let nt := w.toNat / 2 ^ 23 % 128 + 1
  let e := w.toNat % 32
  let r := c.record e
  (List.range (recRows r)).foldl (fun m i =>
    let es := (List.range nt).map (fun t => estVal (c.tileGet e (estAt r i t)))
    let delta := boundVal (c.tileGet (w.toNat / 32 % 32) (w.toNat / 2 ^ 10 % 4096 * 16 + 4 * i))
    match threshold es delta (fval tau) (w.getLsbD 22) with
    | none => m
    | some th => m ||| BitVec.ofNat 128 (rowKeeps es th)) 0

/-- Whether TMASK reads a poisoned unit (15_system.md R416): the first NT estimates of each row, and, under SAFE, the bounds of the rows that have
an estimate. -/
def Coil.tmaskBad (c : Coil) (w : Word) : Bool :=
  let nt := w.toNat / 2 ^ 23 % 128 + 1
  let e := w.toNat % 32
  let r := c.record e
  let bad (n off k : Nat) : Bool := match c.tile? n with | some t => t.bad off k | none => false
  (List.range (recRows r)).any (fun i =>
    bad e (estAt r i 0) (4 * nt)
    || (w.getLsbD 22 && (List.range nt).any (fun t => estVal (c.tileGet e (estAt r i t)) ≠ .inf true)
        && bad (w.toNat / 32 % 32) (w.toNat / 2 ^ 10 % 4096 * 16 + 4 * i) 4))

/-- Whether a SCOUT of these fibres that writes one of some tiles is not done (02_encoding.md R45; log 34). -/
def State.scoutPending (s : State) (c : Coil) (act tiles : List Nat) : Bool :=
  s.scouts.any (fun k => k.coil = c.id && k.fibres.any act.contains && (tiles.contains (scEtile k.desc) || tiles.contains (scDtile k.desc)))

/-- TMASK (R353). -/
def execTmask (m : Main) (s : State) : Answer :=
  let n := (Info.of (Instr.tmask m).shape m 17).access
  issue { n with reads := regsFrom .s m.b.toNat 2, writes := [(.m, m.d.toNat)], impure := true, lat := none } (fun x =>
    let w := x.src.getS m.b.toNat
    let tau := x.src.getS (m.b.toNat + 1)
    let e := w.toNat % 32
    let d := w.toNat / 32 % 32
    let r := x.c.record e
    let nt := w.toNat / 2 ^ 23 % 128 + 1
    let doff := w.toNat / 2 ^ 10 % 4096 * 16
    if x.lanes.any (fun f => f.fctl.getLsbD 0) && x.s.scoutPending x.c x.act [e, d] then
      .trap { Trap.of 5 with count := x.mask.length, lanes := x.mask } x
    else if (x.c.tile? e).isNone || (x.c.tile? d).isNone || recInvalid r || recFmt r ≠ 9 || recBlk r ≠ 0 then
      .trap { Trap.of 0x500 with count := 1 } x
    else if w.toNat / 2 ^ 30 ≠ 0 || nt > recCols r || doff + 512 > 65536 || !finiteW tau || (tau.getLsbD 31 && tau ≠ 0x80000000) then
      .trap { Trap.of 0x506 with count := 1 } x
    else if x.c.tmaskBad w then
      .trap { Trap.of 0x806 with count := 1 } x
    else .ok { x with c := { x.c with m := x.c.m.set m.d.toNat (x.c.tmask w tau) } }) s

/-! ## Mask instructions (R355) -/

/-- A mask register. -/
def Coil.getM (c : Coil) (n : Nat) : BitVec 128 := c.m.getD n 0

/-- What a mask instruction states about itself: the masks it reads, and the one that it writes. -/
def Info.mask (n : Info) (reads : List Nat) (write : Option Nat) : Info :=
  { n with soft := n.soft ++ reads.map (fun k => (RegCls.m, k))
           writes := match write with | some k => [(.m, k)] | none => n.writes
           impure := true }

/-- An operation of two masks. -/
def maskOp (sh : Shape) (m : Main) (op : BitVec 128 → BitVec 128 → BitVec 128) (s : State) : Answer :=
  issueOk ((Info.of sh m 4).mask [m.a.toNat, m.b.toNat] (some m.d.toNat)) (fun x =>
    { x with c := { x.c with m := x.c.m.set m.d.toNat (op (x.src.getM m.a.toNat) (x.src.getM m.b.toNat)) } }) s

/-- MKAND, and MKAND.N. -/
def execMkand (m : Main) (s : State) : Answer :=
  maskOp (Instr.mkand m).shape m (fun a b => if m.mod = 1 then a &&& ~~~b else a &&& b) s
/-- MKOR, and MKOR.X. -/
def execMkor (m : Main) (s : State) : Answer :=
  maskOp (Instr.mkor m).shape m (fun a b => if m.mod = 1 then a ^^^ b else a ||| b) s

/-- The set bits of a mask below bit k. -/
def maskPop (x : BitVec 128) (k : Nat) : Nat := ((List.range (min k 128)).filter x.getLsbD).length

/-- MKPOP, and MKPOP.LO. -/
def execMkpop (m : Main) (s : State) : Answer :=
  issueOk ((Info.of (Instr.mkpop m).shape m 4).mask [m.a.toNat] none) (fun x =>
    let k := if m.mod = 1 then (x.src.getS m.b.toNat).toNat % 256 else 128
    { x with c := x.c.setS m.d.toNat (BitVec.ofNat 32 (maskPop (x.src.getM m.a.toNat) k)) }) s

/-- MKRD. -/
def execMkrd (m : Main) (s : State) : Answer :=
  issueOk ((Info.of (Instr.mkrd m).shape m 4).mask [m.a.toNat] none) (fun x =>
    let w := (x.src.getM m.a.toNat).toNat
    { x with c := x.c.setSs m.d.toNat ((List.range 4).map (fun k => BitVec.ofNat 32 (w / 2 ^ (32 * k)))) }) s

/-- MKWR. -/
def execMkwr (m : Main) (s : State) : Answer :=
  issueOk ((Info.of (Instr.mkwr m).shape m 4).mask [] (some m.d.toNat)) (fun x =>
    let l := x.src.getSs m.a.toNat 4
    { x with c := { x.c with m := x.c.m.set m.d.toNat (BitVec.ofNat 128 (l.foldr (fun w a => w.toNat + 2 ^ 32 * a) 0)) } }) s

end Sys2Proof.Machine
end

