-- ==== Sys2Proof/Machine/Surrogate.lean ====
section
/-! DEFINITION. The surrogate engine: images (13_surrogate.md R361 to R365), slots and the store (R366 to R372), calls (R374 to R376), recovery
(R377 to R381), counters (R382, R383), with the events that complete a load and evaluate a call. -/

namespace Sys2Proof.Machine

/-! ## Images (R361) -/

/-- An image. -/
abbrev Image := List Byte

/-- A field of n bytes. -/
def Image.num (b : Image) (off n : Nat) : Nat := leNat ((b.drop off).take n)
/-- A 32-bit word. -/
def Image.word (b : Image) (off : Nat) : Word := BitVec.ofNat 32 (Image.num b off 4)
/-- An F32 value. -/
def Image.val (b : Image) (off : Nat) : Val := fval (Image.word b off)
/-- n F32 values. -/
def Image.vals (b : Image) (off n : Nat) : List Val := (List.range n).map (fun i => Image.val b (off + 4 * i))

def Image.kind (b : Image) : Nat := Image.num b 4 1
def Image.pkind (b : Image) : Nat := Image.num b 5 1
def Image.nin (b : Image) : Nat := Image.num b 6 1
def Image.nout (b : Image) : Nat := Image.num b 7 1
def Image.size (b : Image) : Nat := Image.num b 8 4
def Image.check (b : Image) : Word := Image.word b 0xC
def Image.n0 (b : Image) : Nat := Image.num b 0x10 2
def Image.n1 (b : Image) : Nat := Image.num b 0x12 2
def Image.h1 (b : Image) : Nat := Image.num b 0x14 1
def Image.h2 (b : Image) : Nat := Image.num b 0x15 1
def Image.act (b : Image) : Nat := Image.num b 0x16 1
def Image.voff (b : Image) : Nat := Image.num b 0x28 4
def Image.poff (b : Image) : Nat := Image.num b 0x2C 4
def Image.doff (b : Image) : Nat := Image.num b 0x30 4
def Image.seed (b : Image) : Word := Image.word b 0x34
/-- PN0 and PN1 of a TABLE predictor (R364). -/
def Image.pn0 (b : Image) : Nat := Image.num b (Image.poff b + 16) 2
def Image.pn1 (b : Image) : Nat := Image.num b (Image.poff b + 18) 2

/-- CHECK as the words give it: the sum of every word but CHECK itself. -/
def Image.sum (b : Image) : Word :=
  (wordsIn (b.length / 4) b).foldl (fun a w => a + BitVec.ofNat 32 w) 0 - Image.check b

/-- A layer of an MLP (R363): widths, and where its weights and biases stand. -/
structure SgLayer where
  inp : Nat
  out : Nat
  w : Nat
  b : Nat
  deriving DecidableEq, Repr

/-- The layers between widths, from an offset on. -/
def layersFrom : Nat → List Nat → List SgLayer
  | off, i :: o :: r =>
    let w := (off + 15) / 16 * 16
    { inp := i, out := o, w := w, b := w + 2 * i * o } :: layersFrom (w + 2 * i * o + 4 * o) (o :: r)
  | _, _ => []

/-- The layers of an MLP. -/
def Image.layers (b : Image) : List SgLayer :=
  let hidden := if Image.n0 b = 3 then [Image.h1 b, Image.h2 b] else if Image.n0 b = 2 then [Image.h1 b] else []
  layersFrom (Image.voff b + 8 * Image.nin b) (Image.nin b :: hidden ++ [Image.nout b])

/-- The weights of an MLP. -/
def Image.weights (b : Image) : Nat := (Image.layers b).foldl (fun n l => n + l.inp * l.out) 0

/-- The F16 weight of row j and column k. -/
def Image.weight (b : Image) (l : SgLayer) (j k : Nat) : Val := f16.val (Image.num b (l.w + 2 * (j * l.inp + k)) 2)

/-! ## Checks of an image (R365) -/

/-- Whether a value is finite and greater than 0. -/
def Val.isPos (v : Val) : Bool := v.isFin && !v.isZero && !v.neg

/-- The header of a table. -/
def Image.tableOk (b : Image) : Bool :=
  let k := Image.kind b
  let n0 := Image.n0 b
  let n1 := Image.n1 b
  Image.nin b = k && Image.nout b = 1 && Image.num b 0x14 4 = 0 && Image.doff b = 0
  && (if k = 1 then 2 ≤ n0 && n0 ≤ 4096 && n1 = 1 && Image.num b 0x20 8 = 0
      else 2 ≤ n0 && n0 ≤ 256 && 2 ≤ n1 && n1 ≤ 256 && n0 * n1 ≤ 32768 && (Image.val b 0x20).isFin && (Image.val b 0x24).isPos)
  && (Image.val b 0x18).isFin && (Image.val b 0x1C).isPos
  && Image.voff b + 4 * (n0 * n1) ≤ Image.size b && (Image.vals b (Image.voff b) (n0 * n1)).all Val.isFin

/-- A hidden width, where the MLP has that layer and where it has not. -/
def hiddenOk (used : Bool) (h : Nat) : Bool := if used then 1 ≤ h && h ≤ 32 else h = 0

/-- The header and the parameters of an MLP. -/
def Image.mlpOk (b : Image) : Bool :=
  let n := Image.nin b
  let lo := Image.vals b (Image.doff b) n
  let hi := Image.vals b (Image.doff b + 4 * n) n
  let layers := Image.layers b
  1 ≤ n && n ≤ 8 && 1 ≤ Image.nout b && Image.nout b ≤ 4 && 1 ≤ Image.n0 b && Image.n0 b ≤ 3 && Image.n1 b = 0
  && hiddenOk (Image.n0 b ≥ 2) (Image.h1 b) && hiddenOk (Image.n0 b = 3) (Image.h2 b) && Image.act b ≤ 1 && Image.num b 0x17 1 = 0
  && Image.num b 0x18 16 = 0
  && Image.doff b % 16 = 0 && Image.doff b + 8 * n ≤ Image.size b
  && Image.voff b + 8 * n ≤ Image.size b && layers.all (fun l => l.b + 4 * l.out ≤ Image.size b)
  && lo.all Val.isFin && hi.all Val.isFin && (List.zip lo hi).all (fun p => !p.2.lt p.1)
  && (Image.vals b (Image.voff b) (2 * n)).all Val.isFin
  && layers.all (fun l => (List.range l.out).all (fun j => (List.range l.inp).all (fun k => (Image.weight b l j k).isFin))
       && (Image.vals b l.b l.out).all Val.isFin)

/-- The predictor block (R364). -/
def Image.predOk (b : Image) : Bool :=
  let p := Image.poff b
  let n0 := Image.pn0 b
  let n1 := Image.pn1 b
  if Image.pkind b = 2 then p + 4 * (Image.nin b + 1) ≤ Image.size b
  else
    p + 32 + 4 * (n0 * n1) ≤ Image.size b && 1 ≤ n0 && n0 ≤ 256 && 1 ≤ n1 && n1 ≤ 256 && (n1 = 1 || Image.nin b ≥ 2)
    && Image.num b (p + 20) 12 = 0 && (Image.val b p).isFin && (Image.val b (p + 4)).isPos
    && (n1 = 1 || ((Image.val b (p + 8)).isFin && (Image.val b (p + 12)).isPos))

/-- Whether SIZE is one that R361 allows. -/
def sgSizeOk (n : Nat) : Bool := n % 16 = 0 && 64 ≤ n && n ≤ 524288

/-- Whether an image is valid. -/
def Image.ok (b : Image) : Bool :=
  Image.num b 0 4 = 0x53470001 && [1, 2, 3].contains (Image.kind b) && [1, 2].contains (Image.pkind b) && sgSizeOk (Image.size b)
  && Image.num b 0x38 8 = 0 && Image.voff b % 16 = 0 && Image.poff b % 16 = 0 && Image.sum b = Image.check b
  && (if Image.kind b = 3 then Image.mlpOk b else Image.tableOk b) && Image.predOk b

/-! ## Evaluation (R362 to R364) -/

/-- One rounding to F32: a NaN is canonical, an exact zero +0 (log 32). -/
def sgRound (mode : Nat) : Val → Word
  | .nan _ => 0x7FC00000
  | .inf s => infOf s
  | .fin s n e => if n = 0 then 0 else BitVec.ofNat 32 (f32.round mode 0 true (exactOf s n e)).1

/-- The greatest integer not above a finite value. -/
def floorVal : Val → Int
  | .fin s n e => scaled s n (max e 0) 0 / 2 ^ (-e).toNat
  | _ => 0

/-- An integer as a value. -/
def intVal (i : Int) : Val := .fin (i < 0) i.natAbs 0

/-- round((x - origin) * inverse). -/
def gridAt (x origin inv : Val) : Val := fval (sgRound 0 ((sumVals [x, origin.negate]).mul inv))

/-- The segment and the fraction of an argument, none when it is out of domain. -/
def segment (x origin inv : Val) (n : Nat) : Option (Nat × Val) :=
  let u := gridAt x origin inv
  if !x.isFin || !u.isFin || u.lt (intVal 0) || (intVal (n - 1)).lt u then none
  else
    let i := min (floorVal u) (n - 2)
    some (i.toNat, sumVals [u, intVal (-i)])

/-- The result of a table (R362). -/
def Image.table (b : Image) (xs : List Val) : Option (List Word) :=
  let y (i j : Nat) : Val := Image.val b (Image.voff b + 4 * (i + Image.n0 b * j))
  match segment (xs.getD 0 (.nan false)) (Image.val b 0x18) (Image.val b 0x1C) (Image.n0 b) with
  | none => none
  | some (i, fx) =>
    if Image.kind b = 1 then some [sgRound 0 (sumVals [y i 0, fx.mul (sumVals [y (i + 1) 0, (y i 0).negate])])]
    else
      match segment (xs.getD 1 (.nan false)) (Image.val b 0x20) (Image.val b 0x24) (Image.n1 b) with
      | none => none
      | some (j, fy) =>
        let gx := sumVals [.one, fx.negate]
        let gy := sumVals [.one, fy.negate]
        some [sgRound 0 (sumVals [(gx.mul gy).mul (y i j), (fx.mul gy).mul (y (i + 1) j), (gx.mul fy).mul (y i (j + 1)),
                                  (fx.mul fy).mul (y (i + 1) (j + 1))])]

/-- A layer's z (R363). -/
def Image.layer (b : Image) (l : SgLayer) (h : List Val) : List Word :=
  (List.range l.out).map (fun j =>
    sgRound 0 (sumVals (Image.val b (l.b + 4 * j) :: h.zipIdx.map (fun p => (Image.weight b l j p.2).mul p.1))))

/-- The layers after one another, the activation after all but the last. -/
def Image.runLayers (b : Image) : List SgLayer → List Val → List Word
  | [], _ => []
  | [l], h => Image.layer b l h
  | l :: r, h => Image.runLayers b r ((Image.layer b l h).map (fun z => fval (actW (if Image.act b = 1 then 4 else 1) z).1))

/-- The results of an MLP (R363). -/
def Image.mlp (b : Image) (xs : List Val) : Option (List Word) :=
  let n := Image.nin b
  let at_ (o k : Nat) : Val := Image.val b (o + 4 * k)
  let bad := xs.zipIdx.any (fun p => p.1.isNan || p.1.lt (at_ (Image.doff b) p.2) || (at_ (Image.doff b + 4 * n) p.2).lt p.1)
  if bad then none
  else some (Image.runLayers b (Image.layers b) (xs.zipIdx.map (fun p =>
    gridAt p.1 (at_ (Image.voff b) p.2) (at_ (Image.voff b + 4 * n) p.2))))

/-- The results of an image, none when the lane is out of domain. -/
def Image.eval (b : Image) (args : List Word) : Option (List Word) :=
  let xs := args.map fval
  if Image.kind b = 3 then Image.mlp b xs else Image.table b xs

/-- A cell number of a predictor, none when it is not finite. -/
def cellNo (u : Val) : Option Int := if u.isFin then some (floorVal u) else none

/-- The predicted error p of a lane in domain (R364); a NaN counts as +∞. -/
def Image.pred (b : Image) (args : List Word) : Val :=
  let p := Image.poff b
  let xs := args.map fval
  let v : Val :=
    if Image.pkind b = 2 then
      fval (sgRound 2 (sumVals (Image.val b p :: xs.zipIdx.map (fun x => (Image.val b (p + 4 * (x.2 + 1))).mul x.1.abs))))
    else
      let c0 := cellNo (gridAt (xs.getD 0 (.nan false)) (Image.val b p) (Image.val b (p + 4)))
      let c1 := if Image.pn1 b = 1 then some 0 else cellNo (gridAt (xs.getD 1 (.nan false)) (Image.val b (p + 8)) (Image.val b (p + 12)))
      match c0, c1 with
      | some i, some j =>
        if 0 ≤ i && i < Image.pn0 b && 0 ≤ j && j < Image.pn1 b then Image.val b (p + 32 + 4 * (i.toNat + Image.pn0 b * j.toNat))
        else .inf false
      | _, _ => .inf false
  if v.isNan then .inf false else v

/-- sample(x) (R375). -/
def sgSample (seed : Word) (args : List Word) (sk : Nat) : Bool :=
  let z := args.foldl (fun z x => (z ^^^ x) * 0x9E3779B9) seed
  let z := (z ^^^ (z >>> 16)) * 0x85EBCA6B
  let z := z ^^^ (z >>> 13)
  z.toNat % 2 ^ sk = 0

/-! ## Slots and the store (R366, R368) -/

/-- An sg slot of a coil. -/
def Coil.sgSlot (c : Coil) (k : Nat) : SgSlot := c.sg.getD k SgSlot.empty
/-- Puts an sg slot. -/
def Coil.putSg (c : Coil) (k : Nat) (g : SgSlot) : Coil := { c with sg := c.sg.set k g }

/-- The images that slots of a core's coils hold: ASID, address, size, each once. -/
def State.sgHeld (s : State) (core : Nat) : List (BitVec 12 × BitVec 64 × Nat) :=
  ((s.coils.filter (fun c => c.resident && c.core = core)).flatMap (fun c =>
    (c.sg.filter (fun g => g.st ≠ .empty)).map (fun g => (g.asid, g.addr, g.image.length)))).eraseDups

/-- Whether the images held on a core fit its store together (R358, R368). -/
def State.sgFits (s : State) (core : Nat) : Bool := ((s.sgHeld core).map (fun e => e.2.2)).sum ≤ 524288

/-- A core's copy of an image. -/
def State.sgCopy (s : State) (core : Nat) (asid : BitVec 12) (addr : BitVec 64) : Option Image :=
  (s.sgstore.find? (fun e => e.core = core && e.asid = asid && e.addr = addr)).map SgCopy.image

/-- Puts a copy into a core's store. -/
def State.sgKeep (s : State) (core : Nat) (asid : BitVec 12) (addr : BitVec 64) (b : Image) : State :=
  { s with sgstore := { core := core, asid := asid, addr := addr, image := b }
                        :: s.sgstore.filter (fun e => !(e.core = core && e.asid = asid && e.addr = addr)) }

/-- The copy of an image that SGLOAD may take: one that a slot holds, or one that the store has not evicted. -/
def State.sgCached (s : State) (core : Nat) (asid : BitVec 12) (addr : BitVec 64) : Option Image × State :=
  let d := s.draw
  match s.sgCopy core asid addr with
  | none => (none, s)
  | some b => (if (s.sgHeld core).any (fun e => e.1 = asid && e.2.1 = addr) || Config.sgKeeps d.1 then some b else none, d.2)

/-- Empties a slot: a load into it no longer holds a flag (R370, R371). -/
def Coil.sgFree (c : Coil) (k : Nat) : Coil :=
  let l := c.waits.filter (fun w => w.kind = .sgload k)
  l.foldl (fun c w => (c.dropWait w.id).onFibres w.fibres (fun f => f.clearFlag? w.flag)) (c.putSg k SgSlot.empty)

/-- Reloads the images of a coil that has been placed (R368): the copy that the core has, or memory again; an image that cannot be read, or
whose CHECK is not that of the image as SGLOAD read it, makes its slot stale. -/
def State.sgReload (s : State) (c : Coil) : Nat → State × Coil
  | 0 => (s, c)
  | k + 1 =>
    let p := s.sgReload c k
    let g := p.2.sgSlot k
    if g.st = .empty then p
    else
      match p.1.sgCopy c.core g.asid g.addr with
      | some b => (p.1, p.2.putSg k { g with stale := decide (Image.check b ≠ Image.check g.image) })
      | none =>
        let need : Need := { size := g.image.length, align := 1, write := false, spaces := [0] }
        let h : Handle := { base := g.addr, len := g.image.length, attr := 0, peer := 0, egrp := 0, tkey := 0, sync := 0, idx := 0, scale := none }
        let r := p.1.resolveAt c (some h) need 0
        match r.1 with
        | .error _ => (r.2, p.2.putSg k { g with stale := true })
        | .ok sp =>
          let l : List PByte :=
            match sp with
            | .mem segs _ _ _ => segs.flatMap (fun e => (r.2.peek e.pa e.n).map (fun x => (x, r.2.poisoned e.pa e.n)))
            | _ => []
          let b : Image := l.map Prod.fst
          if pbBad l || Image.sum b ≠ Image.check g.image then (r.2, p.2.putSg k { g with stale := true })
          else (r.2.sgKeep c.core g.asid g.addr b, p.2.putSg k { g with image := b, stale := false })

/-- Reloads the images of a placed coil. -/
def State.sgPlaced (s : State) (id : Nat) : State :=
  match s.coil? id with
  | none => s
  | some c => let p := s.sgReload c 8; p.1.setCoil p.2

/-! ## SGLOAD, SGREC, SGREL, SGINV (R370 to R372) -/

/-- A failure of SGLOAD after its commit and its first checks leaves its slot EMPTY and is imprecise (R370; 15_system.md R409); a coil that
it pre-empts starts again at the SGLOAD (log 41). `x0` is the issue before the commit. -/
def Iss.sgFail (x x0 : Iss) (t : Trap) : Res := .late { t with count := 1, late := true } { x with c := x.c.rewind x0 }
/-- The same for a memory fault. -/
def Iss.sgMem (x x0 : Iss) (f : MemFault) : Res := x.sgFail x0 { Trap.of f.code.toNat with sub := f.sub, addr := some f.addr }

/-- Reads n bytes of an image through a slot, at the L2. -/
def Iss.sgRead (x : Iss) (h : Option Handle) (off : BitVec 64) (n : Nat) : Except MemFault (List PByte) × State :=
  let r := x.s.resolveAt x.c h { size := n, align := 16, write := false, spaces := [0] } off
  match r.1 with
  | .error f => (.error f, r.2)
  | .ok sp => r.2.readSpot x.c none false sp

/-- Binds an image to a slot, which loads it until SG_IMAGE_LOADED. -/
def Iss.sgBind (x : Iss) (k : Nat) (addr : BitVec 64) (b : Image) : Res :=
  let g := { SgSlot.empty with st := .loading, addr := addr, asid := x.c.asid, image := b }
  let y := { x with s := x.s.sgKeep x.c.core x.c.asid addr b, c := x.c.putSg k g }
  .ok (y.await y.act y.setf (.sgload k))

/-- The header and the image that SGLOAD reads after its commit, into a slot that is EMPTY. -/
def Iss.sgLoad (x x0 : Iss) (k slot : Nat) (off : BitVec 64) : Res :=
  let h := x0.src.slot slot
  let addr := ((h.map Handle.base).getD 0) + off
  let q := x.s.sgCached x.c.core x.c.asid addr
  let x := { x with s := q.2 }
  let size (b : Image) : Res :=
    match x.s.resolveAt x.c h { size := b.length, align := 16, write := false, spaces := [0] } off with
    | (.error f, s) => { x with s := s }.sgMem x0 f
    | (.ok _, s) => { x with s := s }.sgBind k addr b
  match q.1 with
  | some b => size b
  | none =>
    let r := x.sgRead h off 64
    let x := { x with s := r.2 }
    match r.1 with
    | .error f => x.sgMem x0 f
    | .ok hd =>
      let n := Image.size (hd.map Prod.fst)
      if pbBad hd then x.sgFail x0 (Trap.of 0x806)
      else if !sgSizeOk n then x.sgFail x0 (Trap.of 0x601)
      else
        let r := x.sgRead h off n
        let x := { x with s := r.2 }
        match r.1 with
        | .error f => x.sgMem x0 f
        | .ok l =>
          if pbBad l then x.sgFail x0 (Trap.of 0x806)
          else if !Image.ok (l.map Prod.fst) then x.sgFail x0 (Trap.of 0x601)
          else x.sgBind k addr (l.map Prod.fst)

/-- SGLOAD (R370): it commits, its slot becomes EMPTY, and the checks follow; those of the first 64 bytes are precise (15_system.md R409). -/
def execSgload (m : Main) (s : State) : Answer :=
  issue ((Info.of (Instr.sgload m).shape m 4).late.mute.through m.mod).commit (fun x0 =>
    let lanes := x0.uniLane m
    x0.commitThen (fun x => x.advance m.mod) (fun x =>
      match x.reach (x0.src.slot m.mod) { size := 64, align := 16, write := false, spaces := [0] } lanes with
      | .bad (.trap t y) => .late t { y with c := (y.c.sgFree m.d.toNat).rewind x0 }
      | .bad r => r
      | .ok _ y => { y with c := y.c.sgFree m.d.toNat }.sgLoad x0 m.d.toNat m.mod ((lanes.head?.map Prod.snd).getD 0))) s

/-- SG_IMAGE_LOADED (R370): the slot is LOADED, and the flags of the loads into it clear. -/
def execSgImageLoaded (coil slot : Nat) (s : State) : Answer :=
  match s.coil? coil with
  | none => .next s
  | some c =>
    let g := c.sgSlot slot
    if g.st ≠ .loading then .next s else .next (s.setCoil ((c.sgFree slot).putSg slot { g with st := .loaded }))

/-- SGREC (R371). -/
def execSgrec (m : Main) (s : State) : Answer :=
  issue ((Info.of (Instr.sgrec m).shape m 4).impureIf true) (fun x =>
    let pc := x.src.getSD m.a.toNat
    let k := m.d.toNat
    let g := x.c.sgSlot k
    let sp := x.s.rcbSppartw x.c.asid x.c.rcb
    let blk (w : Word) : Nat := partWblk w + partSblk w + partAblk w
    if pc.toNat % 4 ≠ 0 then .trap { Trap.of 6 with count := 1 } x
    else if g.st ≠ .loaded then .trap { Trap.of 0x602 with count := 1 } x
    else if blk x.c.partw + blk sp > 128 || 8 * x.s.rcbSpwin x.c.asid x.c.rcb < max (max (Image.nin g.image) (Image.nout g.image)) 2 then
      .trap { Trap.of 0x603 with count := 1 } x
    else .ok { x with c := x.c.putSg k { g with recPc := pc } }) s

/-- SGREL (R371). -/
def execSgrel (m : Main) (s : State) : Answer :=
  issueOk ((Info.of (Instr.sgrel m).shape m 4).impureIf true) (fun x => { x with c := x.c.sgFree m.d.toNat }) s

/-- SGINV (R372). -/
def execSginv (m : Main) (s : State) : Answer :=
  issue (((Info.of (Instr.sginv m).shape m 4).access.late.mute.through m.mod).impureIf true) (fun x =>
    let lanes := x.uniLane m
    match x.reach (x.src.slot m.mod) { size := 16, align := 16, write := false, spaces := [0] } lanes with
    | .bad r => r
    | .ok _ x =>
      let addr := ((x.src.slot m.mod).map Handle.base).getD 0 + (lanes.head?.map Prod.snd).getD 0
      let x := x.advance m.mod
      .ok { x with s := { x.s with sgstore := x.s.sgstore.filter (fun e => !(e.asid = x.c.asid && e.addr = addr)) } }) s

/-! ## SGQB, SGCNT, SGDIS (R367, R373, R382) -/

/-- SK, MODE and BOUND of a quality register. -/
def qSk (q : DWord) : Nat := q.toNat / 2 ^ 35 % 32
def qMode (q : DWord) : Nat := q.toNat / 2 ^ 32 % 4
def qBound (q : DWord) : Word := q.lo

/-- SG_QUALITY. -/
def qBad (q : DWord) : Bool :=
  q.toNat / 2 ^ 40 ≠ 0 || q.getLsbD 34 || qMode q = 3 || qSk q > 24 || q.getLsbD 31 || (fval (qBound q)).isNan

/-- SGQB: MOD 0 writes a q register, and MOD 1 reads one. -/
def execSgqb (m : Main) (s : State) : Answer :=
  issue ((Info.of (Instr.sgqb m).shape m 4).impureIf true) (fun x =>
    if m.mod = 1 then .ok { x with c := x.c.setSD m.d.toNat (x.src.q.getD m.a.toNat 0) }
    else
      let v := x.src.getSD m.a.toNat
      if qBad v then .trap { Trap.of 0x604 with count := 1 } x else .ok { x with c := { x.c with q := x.c.q.set m.d.toNat v } }) s

/-- SGCTL.DIS, and whether SGCTL.DIS or FORCE is set (R383). -/
def State.sgDis (s : State) : Bool := s.regs.sgctl.getLsbD 0
def State.sgDev (s : State) : Bool := s.regs.sgctl.getLsbD 0 || s.regs.sgctl.getLsbD 1

/-- The items of SGCNT (R382). -/
def State.sgItem (s : State) (c : Coil) (g : SgSlot) (item : Nat) : DWord :=
  if item = 5 then
    let dis := if s.sgDis then 4 else 0
    if g.st = .empty then BitVec.ofNat 64 dis
    else BitVec.ofNat 64 ((if g.st = .loaded then 1 else 0) + (if g.dis then 2 else 0) + dis + (if s.sgFits c.core then 8 else 0)
      + Image.kind g.image * 2 ^ 8 + Image.nin g.image * 2 ^ 16 + Image.nout g.image * 2 ^ 24)
  else if g.st = .empty then 0
  else if item = 4 then g.errmax.setWidth 64
  else BitVec.ofNat 64 ([g.calls, g.fallback, g.sampled, g.viol].getD item 0)

/-- SGCNT. -/
def execSgcnt (m : Main) (s : State) : Answer :=
  issueOk ((Info.of (Instr.sgcnt m).shape m 4).impureIf true) (fun x =>
    { x with c := x.c.setSD m.d.toNat (x.s.sgItem x.c (x.c.sgSlot m.a.toNat) m.b.toNat) }) s

/-- Changes a slot that is not EMPTY. -/
def Coil.onSg (c : Coil) (k : Nat) (f : SgSlot → SgSlot) : Coil := if (c.sgSlot k).st = .empty then c else c.putSg k (f (c.sgSlot k))

/-- SGCNT_CLR. -/
def execSgcntClr (m : Main) (s : State) : Answer :=
  issueOk ((Info.of (Instr.sgcntClr m).shape m 4).impureIf true) (fun x =>
    { x with c := x.c.onSg m.a.toNat (fun g => { g with calls := 0, fallback := 0, sampled := 0, viol := 0, errmax := 0 }) }) s

/-- SGDIS. -/
def execSgdis (m : Main) (s : State) : Answer :=
  issueOk ((Info.of (Instr.sgdis m).shape m 4).impureIf true) (fun x => { x with c := x.c.onSg m.a.toNat (fun g => { g with dis := true }) }) s

/-- SGDIS_EN. -/
def execSgdisEn (m : Main) (s : State) : Answer :=
  issueOk ((Info.of (Instr.sgdisEn m).shape m 4).impureIf true) (fun x => { x with c := x.c.onSg m.a.toNat (fun g => { g with dis := false }) }) s

/-- SGDIS_RD. -/
def execSgdisRd (m : Main) (s : State) : Answer :=
  issueOk ((Info.of (Instr.sgdisRd m).shape m 4).impureIf true) (fun x => { x with c := x.c.setSD m.d.toNat x.s.regs.sgctl }) s

/-! ## SGCALL (R374, R375) -/

/-- The lanes that the recovery queue of a core may still have to take: entries that wait, and lanes of calls in the queue. -/
def State.sgLoadOf (s : State) (core : Nat) : Nat :=
  (s.recovery.filter (fun e => match s.coil? e.coil with | some c => c.core = core | none => false)).length
  + ((s.sgcalls.filter (fun k => k.core = core)).map (fun k => k.lanes.length)).sum

/-- SGCALL states the registers that its slot's image gives it. -/
def sgcallInfo (m : Main) (g : SgSlot) : Info :=
  let n := (Info.of (Instr.sgcall m).shape m 4).late
  { n with reads := regsFrom .v m.a.toNat (Image.nin g.image), writes := regsFrom .v m.d.toNat (Image.nout g.image), known := false, impure := true }

/-- The slot and the q register that the selector names. -/
def sgSel (m : Main) : Nat := m.b.toNat % 8
def sgQsel (m : Main) : Nat := m.b.toNat / 8 % 16

/-- SG_SLOT (R374). -/
def Iss.sgSlotBad (x : Iss) (m : Main) (g : SgSlot) (q : DWord) : Bool :=
  g.st = .empty || m.a.toNat + Image.nin g.image > x.c.window || m.d.toNat + Image.nout g.image > x.c.window
  || (g.recPc = 0 && (qMode q ≠ 2 || g.dis || x.s.sgDev))

/-- SGCALL. -/
def execSgcall (m : Main) (s : State) : Answer :=
  let slot := ((s.issuer.map (fun c => c.sgSlot (sgSel m))).getD SgSlot.empty)
  issue (sgcallInfo m slot) (fun x =>
    let g := x.c.sgSlot (sgSel m)
    let q := x.c.q.getD (sgQsel m) 0
    if x.sgSlotBad m g q then .trap { Trap.of 0x602 with count := x.mask.length } x
    else if g.stale then .trap { Trap.of 0x601 with count := x.mask.length } x
    else if (x.s.sgcalls.filter (fun k => k.core = x.c.core)).length ≥ 16 || x.s.sgLoadOf x.c.core + x.mask.length > 4096 then .stall
    else
      let k : SgCall :=
        { core := x.c.core, coil := x.c.id, pc := x.pc, seq := x.c.callNo, sg := sgSel m, slot := g, q := q, dev := x.s.sgDev, flag := m.setf,
          dreg := m.d.toNat, lanes := x.lanes.map (fun f => (f.idx, f.getVs m.a.toNat (Image.nin g.image), f.fctl)) }
      .ok { x with s := { x.s with sgcalls := x.s.sgcalls ++ [k] }
                   c := { x.c.onFibres x.mask (fun f => { f with holds := f.holds + 1 }) with callNo := (x.c.callNo + 1) % 65536 } }) s

/-- What the engine decides for a lane: its results, and the FLAGS of the entry that it queues, if it queues one. `answer` says whether the
results are written. -/
structure SgLane where
  res : List Word
  answer : Bool
  rec_ : Bool
  flags : Option (BitVec 8)

/-- Bits as a byte. -/
def flagByte (l : List Bool) : BitVec 8 := l.zipIdx.foldl (fun b p => putBit b p.2 p.1) 0

/-- The decision for a lane (R375, R377). -/
def SgCall.decide (k : SgCall) (args : List Word) : SgLane :=
  let b := k.slot.image
  let r := Image.eval b args
  let forced := qMode k.q = 1 || k.slot.dis || k.dev
  let pred := (fval (qBound k.q)).lt (Image.pred b args)
  let rec_ := r.isNone || forced || (qMode k.q ≠ 2 && pred)
  let smp := !rec_ && qSk k.q > 0 && qMode k.q = 0 && !k.dev && sgSample (Image.seed b) args (qSk k.q)
  let cause := flagByte [smp, r.isNone, rec_ && r.isSome && !forced, forced]
  if rec_ && k.slot.recPc = 0 then { res := List.replicate (Image.nout b) 0x7FC00000, answer := true, rec_ := true, flags := none }
  else { res := r.getD [], answer := !rec_, rec_ := rec_, flags := if rec_ || smp then some cause else none }

/-- The entry that a lane queues (R377). -/
def SgCall.entry (k : SgCall) (lane : Nat × List Word × Word) (d : SgLane) (flags : BitVec 8) : RecEntry :=
  { coil := k.coil, fibre := lane.1, seq := k.seq, callPc := k.pc, dreg := k.dreg, sg := k.sg, nin := Image.nin k.slot.image,
    nout := Image.nout k.slot.image, flags := flags, rpc := k.slot.recPc, args := lane.2.1, sval := if flags.getLsbD 0 then d.res else [],
    bound := qBound k.q, fctl := lane.2.2, flag := k.flag }

/-- Counters saturate at 2^64 - 1 (R382). -/
def satInc (n : Nat) : Nat := min (n + 1) (2 ^ 64 - 1)

/-- Results written to registers from vd on. -/
def fromReg (d : Nat) (l : List Word) : List (Nat × Word) := l.zipIdx.map (fun p => (d + p.2, p.1))

/-- A call's results reach a fibre, which no longer waits for it (R376). -/
def Coil.sgDeliver (c : Coil) (fibre flag : Nat) (l : List (Nat × Word)) : Coil :=
  c.onFibre fibre (fun f => { f.deliver (some flag) l with holds := f.holds - 1 })

/-- Evaluates one lane. -/
def SgCall.lane (k : SgCall) (p : List RecEntry × Coil) (lane : Nat × List Word × Word) : List RecEntry × Coil :=
  let d := k.decide lane.2.1
  let c := p.2.onSg k.sg (fun g => { g with calls := satInc g.calls, fallback := if d.rec_ then satInc g.fallback else g.fallback })
  let c := if d.answer then c.sgDeliver lane.1 k.flag (fromReg k.dreg d.res) else c
  (p.1 ++ (d.flags.map (k.entry lane d)).toList, c)

/-- The energy class of a call, 0 for tables (R385). -/
def SgCall.cls (k : SgCall) : Nat :=
  if Image.kind k.slot.image = 3 then max 1 (min 15 ((k.lanes.length * Image.weights k.slot.image + 65535) / 65536)) else 0

/-- SURROGATE_CALL_EVALUATE (R375): the head of a core's call queue, once its slot has loaded and it has leave. -/
def execSurrogateCallEvaluate (core : Nat) (s : State) : Answer :=
  match s.sgcalls.find? (fun k => k.core = core) with
  | none => .next s
  | some k =>
    let rest := s.sgcalls.eraseP (fun k => k.core = core)
    match s.coil? k.coil with
    | none => .next ({ s with sgcalls := rest }.unask core .surrogate)
    | some c =>
      if (c.sgSlot k.sg).st = .loading then .next s
      else
        let r := if k.cls = 0 then (true, s) else s.leave core .surrogate k.cls k.coil
        if !r.1 then .next r.2
        else
          match r.2.coil? k.coil with
          | none => .next r.2
          | some c =>
            let p := k.lanes.foldl k.lane ([], c)
            .next ({ r.2 with sgcalls := rest, recovery := r.2.recovery ++ p.1 }.setCoil p.2)

/-! ## Recovery fibres (R378) -/

/-- The recovery coil of a coil. -/
def State.recoveryOf (s : State) (id : Nat) : Option Coil :=
  s.coils.find? (fun c => c.recOf = some id && c.st ≠ .ended && c.st ≠ .killed)

/-- The fibre of an entry. -/
def RecEntry.start (e : RecEntry) (idx win : Nat) : Fibre :=
  let f := Fibre.new idx win e.rpc e.args e.fctl e.nin
  { f with srs := srsSeed 0 e.fibre, region := { f.region with srs := srsSeed 0 e.fibre }, recov := some e }

/-- The windows of a recovery coil. -/
def State.recoveryRoom (s : State) (c : Coil) : Nat := min 1024 (partWblk (s.rcbSppartw c.asid c.rcb) * 65536 / (4 * max 1 c.window))

/-- Puts entries into a recovery coil while it has windows, with the new fibres and the entries that are left. -/
def Coil.addEntries (c : Coil) (room : Nat) : List RecEntry → Coil × List Nat × List RecEntry
  | [] => (c, [], [])
  | e :: r =>
    if c.fibres.length ≥ room then (c, [], e :: r)
    else
      match (List.range 1024).find? (fun i => !c.live.contains i) with
      | none => (c, [], e :: r)
      | some i =>
        let q := (c.addFibre (e.start i c.window)).addEntries room r
        (q.1, i :: q.2.1, q.2.2)

/-- Entries of a coil become fibres of its recovery coil, which is given. -/
def State.formRecovery (s : State) (rc : Coil) : State × Coil :=
  let mine := s.recovery.filter (fun e => rc.recOf = some e.coil)
  let q := rc.addEntries (s.recoveryRoom rc) mine
  ({ s with recovery := s.recovery.filter (fun (e : RecEntry) => rc.recOf ≠ some e.coil) ++ q.2.2 }.formPlaits q.1 (fun f => q.2.1.contains f.idx))

/-- A recovery coil for a coil, not yet placed (R200, R378). -/
def State.newRecovery (s : State) (c : Coil) (id : Nat) (task : BitVec 64) : Coil :=
  { Coil.new id c.asid c.ctxbase c.rcb (s.rcbSppartw c.asid c.rcb) (8 * s.rcbSpwin c.asid c.rcb) task s.nextId with
    recOf := some c.id, blocks := [] }

/-! ## SGMERGE (R379) -/

/-- err(a, b). -/
def sgErr (a b : Word) : Word :=
  match fval a, fval b with
  | .nan _, .nan _ => 0
  | .inf x, .inf y => if x = y then 0 else 0x7F800000
  | .fin s n e, .fin t k x => sgRound 2 (sumVals [.fin s n e, .fin (!t) k x]).abs
  | _, _ => 0x7F800000

/-- The larger of two errors, which are no NaN and not negative. -/
def maxErr (a b : Word) : Word := if (fval a).lt (fval b) then b else a

/-- The error of a sampled lane. -/
def RecEntry.err (e : RecEntry) (res : List Word) : Word := (List.zipWith sgErr res e.sval).foldl maxErr 0

/-- The device sets SGCTL.DIS while SGVTOTAL exceeds VLIMIT, with a record when the bit goes from 0 to 1 (R383). -/
def State.sgLimit (s : State) (r : Rec) : State :=
  if !s.sgDis && s.regs.sgvtotal.toNat > s.regs.sgctl.toNat / 2 ^ 32 then
    { s with regs := { s.regs with sgctl := s.regs.sgctl ||| 1 } }.record r
  else s

/-- One violation more in the device (R379, R383). -/
def State.sgViolation (s : State) (c : Coil) : State :=
  { s with regs := { s.regs with sgvtotal := s.regs.sgvtotal + 1 } }.sgLimit (s.coilRec c 0x606 6 3)

/-- The results of a recovery fibre reach the issuing coil. -/
def State.merge (s : State) (e : RecEntry) (res : List Word) (fstat : Word) : State :=
  match s.coil? e.coil with
  | none => s
  | some c =>
    if e.flags.getLsbD 0 then
      let err := e.err res
      let viol := (fval e.bound).lt (fval err)
      let c := c.onSg e.sg (fun g => { g with sampled := satInc g.sampled, errmax := maxErr g.errmax err,
                                              viol := if viol then satInc g.viol else g.viol })
      let s := s.setCoil c
      if viol then s.sgViolation c else s
    else s.setCoil ((c.sgDeliver e.fibre e.flag (fromReg e.dreg res)).onFibre e.fibre (fun f => f.raise fstat))

/-- The registers that SGMERGE reads: the widest result of the plait. -/
def State.mergeWidth (s : State) : Nat :=
  match s.turn with
  | .plait id pl =>
    match s.coil? id with
    | some c => (c.plait pl).foldl (fun n f => max n ((f.recov.map RecEntry.nout).getD 0)) 0
    | none => 0
  | _ => 0

/-- SGMERGE. -/
def execSgmerge (m : Main) (s : State) : Answer :=
  issue { (Info.of (Instr.sgmerge m).shape m 4) with reads := regsFrom .v m.a.toNat s.mergeWidth, writes := [] } (fun x =>
    let bad := x.lanes.filter (fun f => match f.recov with | some e => m.a.toNat + e.nout > x.c.window | none => true)
    if !bad.isEmpty then .trap { Trap.of 0x605 with count := bad.length, lanes := bad.map Fibre.idx } x
    else
      let s := x.lanes.foldl (fun s f =>
        match f.recov with
        | some e => s.merge e (f.getVs m.a.toNat e.nout) f.fstat
        | none => s) x.s
      { x with s := s }.endFibres x.mask) s

end Sys2Proof.Machine
end

