-- ==== Sys2Proof/Machine/Survive.lean ====
section
/-! DEFINITION. Survivable memory: group states (14_survivable.md R387 to R390), deltas and acknowledgements (R391 to R394), the queries and PWAIT
(R396, R397), scrub and rebuild (R398 to R400), double failure (R401). -/

namespace Sys2Proof.Machine

/-! ## Groups (R387, R388) -/

/-- NS, the stripes of a group. -/
def State.groupNs (s : State) (g : Nat) : Nat := s.groupG g * s.groupPLen g / (4096 * (s.groupG g - 1))

/-- The unit of rank d's data region that belongs to a stripe that d does not hold. -/
def unitOf (G d stripe : Nat) : Nat := stripe - (stripe + G - 1 - d) / G

/-- Where this device keeps its sector of a stripe at an offset: in the parity area for a stripe that it holds. -/
def State.ownSector (s : State) (g stripe off : Nat) : Nat :=
  let G := s.groupG g
  if stripe % G = s.groupRank g then s.groupQBase g + 4096 * (stripe / G) + off
  else s.groupPBase g + 4096 * unitOf G (s.groupRank g) stripe + off

/-- Two byte ranges of physical memory overlap. -/
def rangesMeet (a n b m : Nat) : Bool := a < b + m && b < a + n

/-- Whether a table entry is invalid (R387). -/
def State.groupBad (s : State) (g : Nat) : Bool :=
  let G := s.groupG g
  let pb := s.groupPBase g
  let pl := s.groupPLen g
  let qb := s.groupQBase g
  let ql := pl / (G - 1)
  let rb := s.groupRBase g
  let rl := (s.groupNs g + 7) / 8
  let at_ (off n : Nat) : Nat := leNat (s.peek (s.groupAt g + off) n)
  !([4, 8, 16].contains G) || s.groupRank g ≥ G || at_ 3 1 ≠ 0 || at_ 7 1 ≠ 0 || at_ 0x48 56 ≠ 0
  || pb % 2 ^ 21 ≠ 0 || pl = 0 || pl % (4096 * (G - 1)) ≠ 0 || qb % 65536 ≠ 0 || rb % 64 ≠ 0
  || rangesMeet pb pl qb ql || rangesMeet pb pl rb rl || rangesMeet qb ql rb rl

/-- A write of bytes by the device itself. -/
def State.deviceWrite (s : State) (pa : Nat) (d : List Byte) : State := (s.perform pa d false false true).report

/-- Puts a group's state, with the STATE byte of its entry (R387, R390). -/
def State.setGroup (s : State) (g : Nat) (x : Group) : State := (s.setGrp g x).deviceWrite (s.groupAt g) [BitVec.ofNat 8 x.st]

/-- Zeroes a range of physical memory under a key (R390): its sectors compress, and have no poison and no side entries. -/
def State.zeroRange (s : State) (lo n key : Nat) : State :=
  let inside (sec : Nat) : Bool := lo ≤ 32 * sec && 32 * sec < lo + n
  let coding := s.coding.filter (fun e => !inside e.1)
  let poison := s.poison.filter (fun k => !inside k)
  let k := s.slotKey key
  let keys := if k = 0 then [] else (List.range (n / 32)).map (fun i => ({ sec := lo / 32 + i, key := k, orig := none } : SecKey))
  { s with mem := cellsReplace s.mem lo n []
           poison := poison
           coding := coding
           sideDir := s.sideDir.filter (fun e => coding.any (fun c => c.1 / 2048 = e.1) || poison.any (fun k => k / 2048 = e.1))
           skeys := keys ++ s.skeys.filter (fun e => !inside e.sec) }

/-- Clears the rebuild map of a group. -/
def State.clearMap (s : State) (g : Nat) : State := s.deviceWrite (s.groupRBase g) (List.replicate ((s.groupNs g + 7) / 8) 0)

/-- The bits set in a number. -/
def bitsSet : Nat → Nat → Nat
  | 0, _ => 0
  | k + 1, n => n % 2 + bitsSet k (n / 2)

/-- The stripes set in the rebuild map. -/
def State.mapCount (s : State) (g : Nat) : Nat :=
  let lo := s.groupRBase g
  ((s.mem.filter (fun e => decide (lo ≤ e.1) && decide (e.1 < lo + (s.groupNs g + 7) / 8))).map (fun e => bitsSet 8 e.2.toNat)).sum

/-! ## What waits for deltas (R397; 09_ordering.md R268) -/

/-- Whether what a PWAIT waits for has come, and its result: the numbers sent up to then are acknowledged, or the group's state ends the
wait. -/
def State.pwaitDone (s : State) (g : Nat) (snap : List Nat) : Option Bool :=
  let x := s.grp g
  if (List.zipWith (fun a n => decide (n ≤ a)) x.acked snap).all id then some (x.st = 1)
  else if x.st = 0 || x.st = 4 then some false
  else none

/-- Writes the result of a PWAIT in its fibres. -/
def Coil.endPwait (c : Coil) (w : Wait) (pd : Nat) (b : Bool) : Coil :=
  (c.dropWait w.id).onFibres w.fibres (fun f => f.deliverP w.flag pd b)

/-- Ends the PWAITs of a coil that are over. -/
def State.endPwaits (s : State) (c : Coil) : Coil :=
  c.waits.foldl (fun c w =>
    match w.kind with
    | .pwait pd g snap _ => match s.pwaitDone g snap with | some b => c.endPwait w pd b | none => c
    | _ => c) c

/-- After a change of deltas or of a group's state: every wait that is over ends. -/
def State.survChanged (s : State) : State := { s with coils := s.coils.map (fun c => s.endPwaits (s.endFences c)) }

/-! ## Queries (R396) -/

/-- The group that an s register names, below 256. -/
def groupArg (w : Word) : Option Nat := if w.toNat < 256 then some w.toNat else none

/-- An item of PGRP. -/
def State.pgrpItem (s : State) (g item : Nat) : DWord :=
  let n (off k : Nat) : Nat := leNat (s.peek (s.groupAt g + off) k)
  BitVec.ofNat 64 (
    if item = 0 then n 0 3 + n 4 2 * 2 ^ 24 + n 6 1 * 2 ^ 40
    else if item = 1 then s.groupPBase g else if item = 2 then s.groupPLen g else if item = 3 then s.groupQBase g
    else n (0x20 + 8 * (item - 4)) 8)

/-- An item of PSTAT. -/
def State.pstatItem (s : State) (g item : Nat) : DWord :=
  let x := s.grp g
  let rank (i : Nat) : Nat := x.lost.getD i 0xFF
  BitVec.ofNat 64 (
    if item = 0 then x.st + rank 0 * 2 ^ 8 + (if x.st = 4 then rank 1 else 0xFF) * 2 ^ 16 + (if x.st = 3 then x.repl.toNat else 0) * 2 ^ 24
    else if item = 1 then (s.deltas.filter (fun (d : Delta) => d.group = g)).length
    else if item = 2 then x.nApplied else if item = 3 then x.nRebuilt else if item = 4 then x.nLost
    else if item = 5 then x.stale.length else x.nMismatch)

/-- The device keeps a group's live values in the status part of its entry, the items of PSTAT as double words (R387; the layout is a DESIGN
CHOICE, log 93). -/
def State.putStatus (s : State) (g : Nat) : State :=
  let d := (List.range 7).flatMap (fun i => leBytes 8 (s.pstatItem g i).toNat)
  if s.peek (s.groupAt g + 0x80) 56 = d then s else s.deviceWrite (s.groupAt g + 0x80) d

/-- PGRP. -/
def execPgrp (m : Main) (s : State) : Answer :=
  issue ((Info.of (Instr.pgrp m).shape m 40).impureIf true) (fun x =>
    match groupArg (x.src.getS m.a.toNat) with
    | none => .trap { Trap.of 0x700 with count := 1 } x
    | some g => .ok { x with c := x.c.setSD m.d.toNat (x.s.pgrpItem g m.b.toNat) }) s

/-- PSTAT. -/
def execPstat (m : Main) (s : State) : Answer :=
  issue ((Info.of (Instr.pstat m).shape m 40).impureIf true) (fun x =>
    match groupArg (x.src.getS m.a.toNat) with
    | none => .trap { Trap.of 0x700 with count := 1 } x
    | some g => .ok { x with c := x.c.setSD m.d.toNat (x.s.pstatItem g m.b.toNat) }) s

/-! ## PWAIT (R397) -/

/-- PWAIT. -/
def execPwait (m : Main) (s : State) : Answer :=
  issue { ((Info.of (Instr.pwait m).shape m 4).writesP m.d.toNat).late with known := false, impure := true } (fun x =>
    match groupArg (x.src.getS m.a.toNat) with
    | none => .trap { Trap.of 0x700 with count := 1 } x
    | some g =>
      let limit := (x.src.getS m.b.toNat).toNat * 1024
      match x.s.pwaitDone g (x.s.grp g).sent with
      | some b => .ok { x.onMask (fun _ f => f.setP m.d.toNat b) with early := x.mask }
      | none => .ok (x.await x.mask x.setf (.pwait m.d.toNat g (x.s.grp g).sent (if limit = 0 then none else some limit)))) s

/-- PWAIT_TIMEOUT: the limit of a PWAIT that has one has passed. -/
def execPwaitTimeout (coil k : Nat) (s : State) : Answer :=
  match s.coil? coil with
  | none => .next s
  | some c =>
    match c.wait? k with
    | none => .next s
    | some w =>
      match w.kind with
      | .pwait pd _ _ (some _) => .next (s.setCoil (c.endPwait w pd false))
      | _ => .next s

/-! ## Scrub and rebuild (R398 to R400) -/

/-- The fault of a scrub (kind 0 PSCRUB, 1 PSCRUB.FIX) or a rebuild (2) of some stripes. -/
def State.scrubBad (s : State) (c : Coil) (kind g first count : Nat) : Option Nat :=
  let x := s.grp g
  let admin := leNat (s.peek (s.groupAt g + 4) 2)
  if count = 0 || count > 2 ^ 24 || first + count > s.groupNs g then some 0x701
  else if (kind ≠ 2 && x.st ≠ 1) || (kind = 2 && !((x.st = 3 || x.st = 4) && x.lost.contains (s.groupRank g))) then some 0x702
  else if kind ≠ 0 && c.asid.toNat ≠ admin then some 0x703
  else none

/-- A scrub or rebuild is accepted. -/
def Iss.scrub (x : Iss) (m : Main) (kind : Nat) : Res :=
  match groupArg (x.src.getS m.a.toNat) with
  | none => .trap { Trap.of 0x700 with count := 1 } x
  | some g =>
    let first := (x.src.getS m.b.toNat).toNat
    let count := (x.src.getS (m.b.toNat + 1)).toNat
    match x.s.scrubBad x.c kind g first count with
    | some code => .trap { Trap.of code with count := 1 } x
    | none =>
      let k : Scrub :=
        { id := x.s.nextId, coil := x.c.id, fibres := x.act, flag := x.setf, deliver := true, kind := kind, group := g, sd := m.d.toNat, stripe := first,
          left := count, off := 0, count := 0, extra := if kind = 2 then 0 else 0xFFFFFFFF, task := x.c.task }
      .ok { x with s := { x.s with scrubs := x.s.scrubs ++ [k], nextId := x.s.nextId + 1 }
                   c := x.c.onFibres x.act (fun f => { f with holds := f.holds + 1 }) }

/-- What the three forms state about themselves. -/
def scrubInfo (sh : Shape) (m : Main) : Info := { (Info.of sh m 4).late with known := false, impure := true }

/-- PSCRUB. -/
def execPscrub (m : Main) (s : State) : Answer := issue (scrubInfo (Instr.pscrub m).shape m) (fun x => x.scrub m 0) s

/-- PSCRUB_FIX. -/
def execPscrubFix (m : Main) (s : State) : Answer := issue (scrubInfo (Instr.pscrubFix m).shape m) (fun x => x.scrub m 1) s

/-- PREBUILD. -/
def execPrebuild (m : Main) (s : State) : Answer := issue (scrubInfo (Instr.prebuild m).shape m) (fun x => x.scrub m 2) s

/-- Late values of s registers reach a coil whose fibres still wait for them, and the flag clears. -/
def Coil.deliverS (c : Coil) (fibres : List Nat) (flag : Option Nat) (l : List (Nat × Word)) : Coil :=
  let due (r : Nat) : Bool :=
    c.fibres.any (fun f => fibres.contains f.idx && f.pend.any (fun (e : Pend) => e.cls = .s && e.reg = r && !e.known))
  let d := l.foldl (fun d w => if due w.1 then d.setS w.1 w.2 else d) c
  d.onFibres fibres (fun f =>
    { f with pend := f.pend.filter (fun (e : Pend) => !(e.cls = RegCls.s && !e.known && l.any (fun w => w.1 = e.reg))) }.clearFlag? flag)

/-- A scrub or rebuild that has ended gives its results, if its fibres still wait for them, and lets their commit points go (R399, R400). -/
def State.endScrub (s : State) (k : Scrub) : State :=
  match s.coil? k.coil with
  | none => s
  | some c =>
    let res := [(k.sd, BitVec.ofNat 32 k.count), (k.sd + 1, BitVec.ofNat 32 k.extra)]
    let d := if k.deliver then c.deliverS k.fibres k.flag res else c
    (s.setCoil (d.onFibres k.fibres (fun f => { f with holds := f.holds - 1 }))).rcbCheck c.asid c.rcb

/-- A group whose rebuild map is full is ACTIVE again (R390), with the replacement in the place of the member that was lost. -/
def State.groupFull (s : State) (g : Nat) : State :=
  let x := s.grp g
  let devs := x.lost.map (fun r => (r, x.repl)) ++ x.devs.filter (fun e => !x.lost.contains e.1)
  if x.st = 3 && s.mapCount g = s.groupNs g then (s.setGroup g { x with st := 1, lost := [], repl := 0, devs := devs }).survChanged else s

/-- Sets a stripe's bit in the rebuild map. -/
def State.setRebuilt (s : State) (g stripe : Nat) : State :=
  let at_ := s.groupRBase g + stripe / 8
  if s.rebuilt g stripe then s
  else
    let x := s.grp g
    (s.setGrp g { x with nRebuilt := min (x.nRebuilt + 1) (2 ^ 64 - 1) }).deviceWrite at_
      [BitVec.ofNat 8 (leNat (s.peek at_ 1)) ||| (1#8 <<< (stripe % 8))]

/-- What is left to say about the groups after a turn or an event: full maps, and the status parts of the entries in use. -/
def State.settleGroups (s : State) : State :=
  (s.groups.zipIdx.filter (fun e => e.1.st ≠ 0)).foldl (fun s e => (s.groupFull e.2).putStatus e.2) s

/-- The scrub step after one sector offset: the next offset, the next stripe, or none. -/
def Scrub.advance (k : Scrub) : Scrub :=
  if k.off + 32 < 4096 then { k with off := k.off + 32 } else { k with off := 0, stripe := k.stripe + 1, left := k.left - 1 }

/-- Puts a scrub back, or ends it. -/
def State.putScrub (s : State) (k : Scrub) : State :=
  if k.left = 0 then { s with scrubs := s.scrubs.filter (fun j => j.id ≠ k.id) }.endScrub k
  else { s with scrubs := s.scrubs.map (fun j => if j.id = k.id then k else j) }

/-- A mismatching parity sector is counted and recorded (R399). -/
def State.mismatch (s : State) (k : Scrub) : State :=
  let x := s.grp k.group
  let die := ((s.coil? k.coil).map (fun c => dieOf c.core)).getD 0
  (s.setGrp k.group { x with nMismatch := min (x.nMismatch + 1) (2 ^ 64 - 1) }).record { groupRec 0x706 die with task := some k.task }

/-- One step of PSCRUB: `all` is the XOR of every member's sector, `parity` the holder's. PSCRUB.FIX then writes parity, here or at its holder. -/
def State.scrubSector (s : State) (k : Scrub) (all parity : BitVec 256) : State :=
  let bad := all ≠ 0
  let s := if bad then s.mismatch k else s
  let k' := if bad then { k with count := k.count + 1, extra := if k.extra = 0xFFFFFFFF then k.stripe else k.extra } else k
  let s :=
    if k.kind = 0 then s
    else
      let x := s.grp k.group
      let s := s.setGrp k.group { x with stale := x.stale.filter (fun e => e ≠ (k.stripe, k.off)) }
      if k.stripe % s.groupG k.group = s.groupRank k.group then s.putSector (s.ownSector k.group k.stripe k.off) (parity ^^^ all)
      else { s with out := s.out ++ [.parity k.group k.stripe k.off (parity ^^^ all)] }
  s.putScrub k'.advance

/-- One step of PREBUILD (R399): the sector, and after the last the stripe's bit; a stripe that is LOST is written as zero. -/
def State.rebuildSector (s : State) (k : Scrub) (others : BitVec 256) : State :=
  let lost := (s.grp k.group).lostStripes.contains k.stripe
  let s := s.putSector (s.ownSector k.group k.stripe k.off) (if lost then 0 else others)
  if k.off + 32 < 4096 then s.putScrub k.advance
  else if lost then s.putScrub { k with extra := k.extra + 1 }.advance
  else (s.setRebuilt k.group k.stripe).putScrub { k with count := k.count + 1 }.advance

/-- Corrected parity of a stripe (R399): its mark is cleared, and its holder writes it. -/
def State.takeParity (s : State) (g stripe off : Nat) (d : BitVec 256) : State :=
  let x := s.grp g
  if x.st ≠ 1 || off % 32 ≠ 0 || off ≥ 4096 || stripe ≥ s.groupNs g then s
  else
    let s := s.setGrp g { x with stale := x.stale.filter (fun e => e ≠ (stripe, off)) }
    if stripe % s.groupG g = s.groupRank g then s.putSector (s.ownSector g stripe off) d else s

/-- The parity sector among this member's own and those of the others, which come in the order of their ranks. -/
def State.parityOf (s : State) (k : Scrub) (own : BitVec 256) (peers : List (BitVec 256)) : BitVec 256 :=
  let h := k.stripe % s.groupG k.group
  let r := s.groupRank k.group
  if h = r then own else peers.getD (if h < r then h else h - 1) 0

/-- SCRUB_STEP (R399): `peers` are the sectors that the other members return, in the order of their ranks. It waits until no delta for the
offset is outstanding; a poisoned sector of this member is reconstructed first (R394). -/
def execScrubStep (id : Nat) (peers : List (BitVec 256)) (s : State) : Answer :=
  match s.scrubs.find? (fun k => k.id = id) with
  | none => .next s
  | some k =>
    if s.deltas.any (fun d => d.group = k.group && d.stripe = k.stripe && d.off = k.off) || peers.length + 1 ≠ s.groupG k.group then .next s
    else
      let s := (s.healRange (s.ownSector k.group k.stripe k.off) 32).report.asOwner (s.ownSector k.group k.stripe k.off)
      let own := leSector (s.peek (s.ownSector k.group k.stripe k.off) 32)
      let others := peers.foldl (· ^^^ ·) 0
      if k.kind = 2 then .next (s.rebuildSector k others) else .next (s.scrubSector k (own ^^^ others) (s.parityOf k own peers))

/-! ## SURVCTL (R390) -/

/-- The operation that SURVCTL names, its group, and the others of its fields. -/
def survOp (w : DWord) : Nat := w.toNat / 2 % 8
def survGroup (w : DWord) : Nat := w.toNat / 2 ^ 8 % 256
def survRank (w : DWord) : Nat := w.toNat / 2 ^ 44 % 16
def survDev (w : DWord) : BitVec 16 := BitVec.ofNat 16 (w.toNat / 2 ^ 48)

/-- ACTIVATE: from INACTIVE. -/
def State.survActivate (s : State) (g : Nat) (init : Bool) : State :=
  if (s.grp g).st ≠ 0 then s.record (groupRec 0x702 0)
  else if s.groupBad g then s.record (groupRec 0x700 0)
  else
    let s := if init then (s.zeroRange (s.groupPBase g) (s.groupPLen g) 0).zeroRange (s.groupQBase g) (s.groupQLen g) (s.groupPKey g) else s
    (s.setGroup g { Group.reset with st := 1 }).survChanged

/-- REPLACE: on a survivor for a rank that is lost, or on the replacement itself, whose entry is INACTIVE. The replacement's deltas are numbered
from 1 (R392). -/
def State.survReplace (s : State) (g rank : Nat) (dev : BitVec 16) : State :=
  let x := s.grp g
  if x.st = 0 && s.groupBad g then s.record (groupRec 0x700 0)
  else if x.st = 0 && rank = s.groupRank g then
    ((s.setGroup g { Group.reset with st := 3, lost := [rank], repl := dev, applied := List.replicate 16 none }).clearMap g).survChanged
  else if x.st = 2 && x.lost.contains rank then
    ((s.setGroup g { x with st := 3, repl := dev, nRebuilt := 0, applied := x.applied.set rank (some 0) }).clearMap g).survChanged
  else if x.st = 4 && x.lost.contains rank then s.setGroup g { x with repl := dev, applied := x.applied.set rank (some 0) }
  else s.record (groupRec 0x702 0)

/-- What the survivors of a BROKEN group tell the replacement of one of its ranks: the other lost rank and the LOST stripes, which its PREBUILD
skips (R399, R401; log 92). -/
def State.toldBroken (s : State) (g other : Nat) (lost : List Nat) : State :=
  let x := s.grp g
  if x.st = 3 && x.lost = [s.groupRank g] && other < s.groupG g && other ≠ s.groupRank g then
    (s.setGroup g { x with st := 4, lost := x.lost ++ [other], lostStripes := lost, nLost := lost.length }).survChanged
  else s

/-- DEACTIVATE: outstanding deltas are dropped. -/
def State.survDeactivate (s : State) (g : Nat) : State :=
  (({ s with deltas := s.deltas.filter (fun (d : Delta) => d.group ≠ g) }.setGroup g { s.grp g with st := 0, lost := [], repl := 0 }).putStatus g).survChanged

/-- A write of SURVCTL; its operation ends at once, and GO reads 0. -/
def State.writeSurvctl (s : State) (w : DWord) : State :=
  let s := { s with regs := { s.regs with survctl := w &&& 0xFFFFF0000000FF1E } }
  let g := survGroup w
  if !w.getLsbD 0 then s
  else if survOp w = 1 then s.survActivate g (w.getLsbD 4)
  else if survOp w = 2 then s.survReplace g (survRank w) (survDev w)
  else if survOp w = 3 then s.survDeactivate g
  else s

/-- ACTIVATE: a write of SURVCTL with OP 1. -/
def execSurvActivate (w : BitVec 64) (s : State) : Answer := s.fromApp (fun s => if survOp w = 1 then s.writeSurvctl w else s)
/-- REPLACE: a write of SURVCTL with OP 2. -/
def execSurvReplace (w : BitVec 64) (s : State) : Answer := s.fromApp (fun s => if survOp w = 2 then s.writeSurvctl w else s)
/-- DEACTIVATE: a write of SURVCTL with OP 3. -/
def execSurvDeactivate (w : BitVec 64) (s : State) : Answer := s.fromApp (fun s => if survOp w = 3 then s.writeSurvctl w else s)

/-! ## Loss of members (R390, R401) -/

/-- Maximal runs of consecutive numbers of a rising list: first and length. -/
def runsOf : List Nat → List (Nat × Nat)
  | [] => []
  | u :: r =>
    match runsOf r with
    | (v, n) :: t => if v = u + 1 then (u, n + 1) :: t else (u, 1) :: (v, n) :: t
    | [] => [(u, 1)]

/-- The SURV_LOST records of one lost rank. -/
def State.lostRuns (s : State) (g rank : Nat) (lost : List Nat) : State :=
  let G := s.groupG g
  let units := (lost.filter (fun k => k % G ≠ rank)).map (unitOf G rank)
  (runsOf units).foldl (fun s u => s.record
    { groupRec 0x707 0 with addr := some (BitVec.ofNat 64 (4096 * u.1)), aux := BitVec.ofNat 32 rank, detail := BitVec.ofNat 64 (4096 * u.2) }) s

/-- Deltas bound for a lost holder are dropped, and count as acknowledged (R392). -/
def State.dropDeltas (s : State) (g rank : Nat) : State :=
  let x := s.grp g
  { s with deltas := s.deltas.filter (fun (d : Delta) => !(d.group = g && d.holder = rank)) }.setGrp g
    { x with acked := x.acked.set rank (x.sent.getD rank 0) }

/-- The stripes whose bit in the rebuild map is clear: in DEGRADED, all. -/
def State.unrebuilt (s : State) (g : Nat) : List Nat :=
  (List.range (s.groupNs g)).filter (fun k => (s.grp g).st = 2 || !s.rebuilt g k)

/-- A member of a group is lost. -/
def State.loseMember (s : State) (g rank : Nat) : State :=
  let x := s.grp g
  if x.st = 1 then
    ((s.dropDeltas g rank).setGroup g { (s.dropDeltas g rank).grp g with st := 2, lost := [rank] }).record (groupRec 0x704 0)
  else if x.st = 3 && x.lost.contains rank then (s.dropDeltas g rank).setGroup g { (s.dropDeltas g rank).grp g with st := 2, repl := 0 }
  else if (x.st = 2 || x.st = 3) && !x.lost.contains rank then
    let lost := s.unrebuilt g
    let s := s.dropDeltas g rank
    let s := s.setGroup g { s.grp g with st := 4, lost := x.lost ++ [rank], lostStripes := lost, nLost := lost.length }
    (x.lost ++ [rank]).foldl (fun s r => s.lostRuns g r lost) s
  else s

/-- The Osier device of a rank: the replacement in place of the lost one, and after the rebuild the one that REPLACE named; the survivors' entries
still name the device that was lost (R390, R400). -/
def State.rankDev (s : State) (g r : Nat) : Nat :=
  let x := s.grp g
  if x.st = 3 && x.lost.contains r then x.repl.toNat
  else ((x.devs.find? (fun e => e.1 = r)).map (fun e => e.2.toNat)).getD (s.groupMember g r)

/-- The ranks of a group that an Osier device serves. -/
def State.ranksOf (s : State) (g : Nat) (dev : Nat) : List Nat :=
  (List.range (s.groupG g)).filter (fun r => r ≠ s.groupRank g && s.rankDev g r = dev)

/-- A device is lost to every group that it is a member of. -/
def State.loseDevice (s : State) (dev : Nat) : State :=
  ((List.range 256).foldl (fun s g =>
    if (s.grp g).st = 0 || (s.grp g).st = 4 then s else (s.ranksOf g dev).foldl (fun s r => s.loseMember g r) s) s).survChanged

/-- PEER_TIMEOUT of the acknowledgements that a device owes (17_module.md R460): one record for each group and rank with deltas that wait for it
(DESIGN CHOICE, log 142). -/
def State.ackTimeouts (s : State) (dev : Nat) : State :=
  (List.range 256).foldl (fun s g =>
    if (s.grp g).st = 0 || (s.grp g).st = 4 then s
    else ((s.ranksOf g dev).filter (fun r => s.deltas.any (fun d => d.group = g && d.holder = r))).foldl (fun s _ => s.record (groupRec 0x10A 0)) s) s

/-- LINK_TIMEOUT (17_module.md R460): a device has been unreachable for LINKTMO. -/
def execLinkTimeout (dev : Nat) (s : State) : Answer := .next ((s.ackTimeouts dev).loseDevice dev)
/-- MEMBER_RESET_REPORT (R390). -/
def execMemberResetReport (dev : Nat) (s : State) : Answer := .next (s.loseDevice dev)

/-! ## Deltas (R391, R392) -/

/-- PARITY_DELTA_APPLY (R391): a delta arrives at its holder, in the order of its sender's numbers, is applied and acknowledged. The
replacement discards a delta for a stripe that it has not rebuilt (R399). -/
def execParityDeltaApply (group sender seq stripe off : Nat) (delta : BitVec 256) (s : State) : Answer :=
  let x := s.grp group
  let protects := 1 ≤ x.st && x.st ≤ 3 && group < 256 && sender < 16 && stripe % s.groupG group = s.groupRank group
  let due := match x.applied.getD sender none with | some n => seq = n + 1 | none => true
  if !protects || !due then .next s
  else
    let keep := x.lost.contains (s.groupRank group) && !s.rebuilt group stripe
    let s := if keep then s else s.applyDelta group stripe (off % 4096 / 32 * 32) delta
    let s := s.setGrp group { s.grp group with applied := x.applied.set sender (some seq), nApplied := if keep then x.nApplied else min (x.nApplied + 1) (2 ^ 64 - 1) }
    .next { s with out := s.out ++ [.ack group sender seq] }

/-- DELTA_ACK (R392): a cumulative acknowledgement; one of a number that has not been sent is none. -/
def execDeltaAck (group holder seq : Nat) (s : State) : Answer :=
  let x := s.grp group
  if seq > x.sent.getD holder 0 then .next s
  else
    let s := { s with deltas := s.deltas.filter (fun (d : Delta) => !(d.group = group && d.holder = holder && d.seq ≤ seq)) }
    .next (s.setGrp group { x with acked := x.acked.set holder (max seq (x.acked.getD holder 0)) }).survChanged

/-! ## Reconstruction (R394) -/

/-- SURV_SECTOR_REQUEST: this member's sector of a stripe, once its own deltas for it have been acknowledged; a member whose sector is poisoned
does not answer. A survivor has given all of a stripe to its rebuild with the last offset (R399; log 92). -/
def execSurvSectorRequest (group stripe off : Nat) (s : State) : Answer :=
  let at_ := s.ownSector group stripe off
  if (s.grp group).st = 0 || s.deltas.any (fun d => d.group = group && d.stripe = stripe && d.off = off) || s.sectorPoisoned (at_ / 32) then .next s
  else
    let s := s.asOwner at_
    let t := { s with out := s.out ++ [.sector group stripe off (leSector (s.peek at_ 32))] }
    .next (if (s.grp group).st = 3 && off = 4096 - 32 && stripe < s.groupNs group then t.setRebuilt group stripe else t)

/-- SURV_RECONSTRUCTED: the answers of the G - 1 other members give a poisoned sector of an ACTIVE group its value again. -/
def execSurvReconstructed (group sector : Nat) (peers : List (BitVec 256)) (s : State) : Answer :=
  if (s.grp group).st ≠ 1 || !s.sectorPoisoned sector || !s.inGroup group (32 * sector) || peers.length + 1 ≠ s.groupG group then .next s
  else .next ((s.putSector (32 * sector) (peers.foldl (· ^^^ ·) 0)).record (groupRec 0x705 (homeDie (32 * sector))))

end Sys2Proof.Machine
end

