-- ==== Sys2Proof/Machine/System.lean ====
section
/-! DEFINITION. Traps, system calls, special registers, debug and reports (15_system.md R421 to R434), and the coil commands (R415, R430). -/

namespace Sys2Proof.Machine

/-! ## TRAP, SYSC, HRET (R421, R422, R424) -/

/-- TRAP: it is delivered after its commit, so the region begins after it (07_work.md R191). -/
def execTrap (m : Main) (s : State) : Answer :=
  issue (Info.jump (Instr.trapOp m).shape m).commit (fun x =>
    match x.commit none with
    | .gone s => .gone s
    | .ok y => .late { Trap.of 0xB with count := y.mask.length, lanes := y.mask, detail := BitVec.ofNat 64 m.imm, aux := BitVec.ofNat 32 m.imm } y) s

/-- Whether the system-call ring of a coil's context is full. -/
def State.ringFull (s : State) (c : Coil) : Bool :=
  (s.vnat c.asid c.trap.sysring 8 + 2 ^ 64 - s.vnat c.asid (c.trap.sysring + 8) 8) % 2 ^ 64 ≥ 2 ^ c.trap.syslog

/-- What a SYSC posts after its commit: an entry for each lane. While the ring is full it waits, and a restart begins after the REGION that
follows (log 16). -/
def Iss.postCalls (x : Iss) (call : Nat) (l : List Lane) : Res :=
  let r := (x.touches l).s.postEntries x.c call (l.map (fun i => (i.fibre, i.spot.va)))
  let x := { x with s := r.1 }
  .ok (if r.2.isEmpty then x else x.passRegion.await x.act x.setf (.sysc call r.2))

/-- SYSC: it stalls while the ring is full; then it commits once. -/
def execSysc (m : Main) (s : State) : Answer :=
  issue ((Info.of (Instr.sysc m).shape m 4).late.mute.through m.mod).commit (fun x =>
    if x.c.trap.syslog = 0 then .trap { Trap.of 0x10 with count := x.mask.length } x
    else
      match x.reach (x.src.slot m.mod) { size := 64, align := 64, write := true, spaces := [0] } (x.memLanes m m.memOff) with
      | .bad r => r
      | .ok l x =>
        if x.s.ringFull x.c then .stall
        else
          x.commitThen (fun x => x.advance m.mod) (fun x => x.orFaults l (fun x => x.postCalls m.d.toNat l))) s

/-- HRET in each fibre of the mask. -/
def Iss.hret (x : Iss) (skip : Bool) : Res :=
  let bad := x.lanes.filter (fun f => !f.handler)
  if !bad.isEmpty then .trap { Trap.of 0xE with count := bad.length, lanes := bad.map Fibre.idx } x
  else
    let y := x.leave (x.lanes.map (fun f => (f.idx, f.hret skip)))
    .ok { y with c := y.c.onFibres y.mask (fun f => { f with handler := false }) }

/-- HRET_RETRY. -/
def execHretRetry (m : Main) (s : State) : Answer :=
  issue { (Info.jump (Instr.hretRetry m).shape m) with impure := true } (fun x => x.hret false) s

/-- HRET_SKIP. -/
def execHretSkip (m : Main) (s : State) : Answer :=
  issue { (Info.jump (Instr.hretSkip m).shape m) with impure := true } (fun x => x.hret true) s

/-! ## Special registers (R425, R426) -/

/-- A register of a fibre or its coil, by its number; 0 for those of the core and the device. -/
def fibreReg (c : Coil) (f : Fibre) (n : Nat) : DWord :=
  if n = 0 then f.fstat.setWidth 64 else if n = 1 then f.fctl.setWidth 64
  else if n = 2 then BitVec.ofNat 64 f.idx else if n = 3 then BitVec.ofNat 64 c.id
  else if n = 4 then c.ctxbase else if n = 5 then c.partw.setWidth 64 else if n = 6 then c.asid.setWidth 64
  else if n = 7 then c.task else if n = 8 then (locOf c.core 0xFF).setWidth 64
  else if n = 9 then (if f.handler then 1 else 0)
  else if n = 0xC then f.epc else if n = 0xD then f.ecode.setWidth 64 else if n = 0xE then f.eaddr else if n = 0xF then f.einfo
  else 0

/-- A register of a core, its die, or the device, by its number. -/
def State.deviceReg (s : State) (core n : Nat) : DWord :=
  let r := s.regs
  if n = 0x10 then BitVec.ofNat 64 (s.coreRegs core).pkwait
  else if n = 0x11 then BitVec.ofNat 64 (s.coreRegs core).agelog
  else if n = 0x12 then BitVec.ofNat 64 (r.qmapctl.getD (dieOf core) 0)
  else if n = 0x13 then r.pwrctl &&& 0xFFFFFFFF
  else if 0x20 ≤ n && n < 0x24 then BitVec.ofNat 64 (r.coresAvail.toNat / 2 ^ (64 * (n - 0x20)))
  else if 0x24 ≤ n && n < 0x31 then r.memAvail.getD (n - 0x24) 0
  else if n = 0x31 then r.resetcause else if n = 0x32 then r.lifecycle
  else if n = 0x38 then r.errqbase else if n = 0x39 then r.errqctl else if n = 0x3A then r.errqhead else if n = 0x3B then r.errqtail
  else if n = 0x40 then r.profctl else if n = 0x41 then r.profbase
  else if n = 0x48 then r.sgctl else if n = 0x49 then r.sgvtotal
  else if n = 0x50 then r.survbase else if n = 0x51 then r.survctl
  else if n = 0x58 then r.gsdrain else if n = 0x59 then r.tlbinvc else if n = 0x5A then r.tlbinva else if n = 0x5B then r.asidtab
  else if n = 0x60 then r.coilcmd
  else 0

/-- The value of a special register as a fibre reads it. -/
def State.sysReg (s : State) (c : Coil) (f : Fibre) (n : Nat) : DWord := if n < 0x10 then fibreReg c f n else s.deviceReg c.core n

/-- RDSR. -/
def execRdsr (m : Main) (s : State) : Answer :=
  let n := m.b.toNat
  let wide := m.mod % 2 = 1
  issueOk (Info.of (Instr.rdsr m).shape m (if n < 0x10 then 4 else if n < 0x14 then 40 else 60)) (fun x =>
    if m.mod ≥ 2 then
      match x.lowest with
      | none => x
      | some f => { x with c := x.c.put wide m.d.toNat (x.s.sysReg x.src f n) }
    else x.onMask (fun o f => f.put wide m.d.toNat (x.s.sysReg x.src o n))) s

/-- A register of a fibre that it may write: FSTAT, FCTL, EPC. -/
def Fibre.putSys (f : Fibre) (n : Nat) (v : DWord) : Fibre :=
  if n = 0 then { f with fstat := v.lo &&& 0x7FF } else if n = 1 then { f with fctl := v.lo &&& 7 } else { f with epc := v }

/-- WRSR: a register that the fibre may not write raises SR_ACCESS. -/
def execWrsr (m : Main) (s : State) : Answer :=
  let n := m.b.toNat
  issue ((Info.of (Instr.wrsr m).shape m 4).impureIf true) (fun x =>
    let bad := (x.lanes.filter (fun f => !(n < 2 || (n = 0xC && f.handler)))).map Fibre.idx
    if !bad.isEmpty then .trap { Trap.of 0xA with count := bad.length, lanes := bad } x
    else .ok (x.onMask (fun o f => f.putSys n ((m.opA (m.mod ≥ 2) (m.mod % 2 = 1)).get x.src o)))) s

/-! ## BRK and WATCH (R428, R429) -/

/-- BRK: a stop with DEBUG, BREAKPOINT without. When it issues after its own stop, with watchpoints ignored, it does nothing (log 35). -/
def execBrk (m : Main) (s : State) : Answer :=
  issue (Info.jump (Instr.brk m).shape m) (fun x =>
    let n := BitVec.ofNat 32 m.imm
    if x.c.trap.dbg then
      if x.c.ignoreWatch.contains x.place then .ok x else .stop (x.s.stopRec x.c 0xC x.mask.length 0 n) x
    else .trap { Trap.of 0xC with count := x.mask.length, detail := n.setWidth 64, aux := n } x) s

/-- The watchpoint and the kind that WATCH names. -/
def watchNo (m : Main) : Nat := m.d.toNat % 4
def watchKind (m : Main) : Nat := m.d.toNat / 4 % 4

/-- WATCH. -/
def execWatch (m : Main) (s : State) : Answer :=
  let put (x : Iss) (w : Watch) : Iss := { x with c := { x.c with watch := x.c.watch.set (watchNo m) w } }
  let n := (Info.of (Instr.watch m).shape m 4).mute
  issue (if watchKind m = 0 then n else n.alsoReads [(.hs, m.mod)]) (fun x =>
    if watchKind m = 0 then .ok (put x Watch.off)
    else
      let h := x.src.slot m.mod
      let lo := x.src.getS m.a.toNat
      let n := (x.src.getS m.b.toNat).toNat
      let fault (f : MemFault) (s : State) : Res :=
        .trap { Trap.of f.code.toNat with sub := f.sub, addr := some f.addr, count := 1, lanes := x.mask.take 1 } { x with s := s }
      let r := x.s.resolveAt x.c h { size := n, align := 1, write := false, spaces := [0, 3] } (lo.setWidth 64)
      match r.1, h with
      | .error f, _ => fault f r.2
      | .ok _, none => fault ⟨0x100, 0, 0⟩ r.2
      | .ok _, some h =>
        let base := (h.base + lo.setWidth 64).toNat
        if n = 0 then fault ⟨0x103, 0, BitVec.ofNat 64 base⟩ r.2
        else .ok (put { x with s := r.2 } { kind := watchKind m, scratch := h.space = 3, lo := base, hi := base + n })) s

/-! ## DBGMARK, RDCNT, ERRQ, CHKSET (R431 to R434) -/

/-- DBGMARK. -/
def execDbgmark (m : Main) (s : State) : Answer :=
  issueOk (Info.of (Instr.dbgmark m).shape m 4) (fun x =>
    let a := x.src.getS m.a.toNat
    let r := x.s.coreRegs x.c.core
    let s := x.s.setCoreRegs x.c.core { r with marklast := BitVec.ofNat 32 (m.b.toNat * 2 ^ 24 + a.toNat % 2 ^ 24), markcnt := if r.markcnt = BitVec.allOnes 32 then r.markcnt else r.markcnt + 1 }
    { x with s := if s.regs.profctl.getLsbD 6 then
                    s.record { s.coilRec x.c 0x902 0 0xFF with detail := a.setWidth 64, aux := BitVec.ofNat 32 m.b.toNat }
                  else s }) s

/-- The counters of RDCNT 2, 3 and 5 to 7, which are coil state (R433). -/
def Coil.counter (c : Coil) (n : Nat) : Nat :=
  if n = 2 then c.instrs else if n = 3 then c.pwr else if n = 5 then c.preempts else if n = 6 then c.relaunches else c.stops

/-- RDCNT: time and residency move on by free counts (log 3). -/
def execRdcnt (m : Main) (s : State) : Answer :=
  let n := m.b.toNat
  issueOk (Info.of (Instr.rdcnt m).shape m (if n = 0 then 8 else 4)) (fun x =>
    let t := x.s.tick
    let put (x : Iss) (v : Nat) : Iss := { x with c := x.c.setSD m.d.toNat (BitVec.ofNat 64 v) }
    if n = 0 then put { x with s := t } t.refclk
    else if n = 1 then put { x with s := t } (t.coreclk.getD x.c.core 0)
    else if n = 4 then
      let d := x.s.draw
      let r := x.c.resTime + Config.coreTicks d.1 x.c.core
      put { x with s := d.2, c := { x.c with resTime := r } } r
    else put x (x.src.counter n)) s

/-- ERRQ. -/
def execErrq (m : Main) (s : State) : Answer :=
  issueOk ((Info.of (Instr.errq m).shape m 4).late.impureIf true) (fun x =>
    { x with s := x.s.record { x.s.coilRec x.c 0x901 0 0xFF with
        soft := true, detail := x.src.getSD m.a.toNat, aux := BitVec.ofNat 32 m.b.toNat, fibre := x.mask.head? } }) s

/-- CHKSET. -/
def execChkset (m : Main) (s : State) : Answer :=
  issueOk ((Info.of (Instr.chkset m).shape m 4).impureIf true) (fun x => { x with c := { x.c with chk := x.src.getS m.a.toNat &&& 0x9F } }) s

/-! ## COILCMD (R415, R430) -/

/-- The coil that a command names, alive. -/
def State.cmdCoil (s : State) (w : DWord) : Option Coil :=
  s.alive.find? (fun c => c.id = w.toNat / 2 ^ 32 && c.asid.toNat = w.toNat / 2 ^ 20 % 4096)

/-- The places of a coil's plaits that STEP lets issue once. -/
def Coil.steps (c : Coil) : List Place := { c with st := .running, stepping := [] }.issuers

/-- PREEMPT of a coil: GO stays 1 while the coil leaves its core (07_work.md R193). -/
def State.preemptOp (s : State) (c : Coil) : Nat × Bool × State :=
  let t := s.preempt c
  (0, (t.coil? c.id).any Coil.leaves, t)

/-- What a coil command does: RESULT, whether it goes on, and the device. A coil that is leaving its core takes KILL alone (log 35). -/
def State.coilOp (s : State) (op : Nat) (c : Coil) : Nat × Bool × State :=
  let refuse : Nat × Bool × State := (2, false, s)
  if op = 1 then
    if c.st = .running || c.st = .stopped then s.preemptOp c else refuse
  else if op = 2 then (0, false, (s.record (s.coilRec c 0x20D 0 0xFF)).killCoil c.id 0x20D)
  else if op = 3 then if c.st = .saved false then (0, false, (s.setCoil { c with st := .saved true }).checkCores c.asid c.rcb) else refuse
  else if op = 4 then if c.st = .running then (0, false, s.stopNow c) else refuse
  else if op = 5 then if c.st = .stopped then (0, false, s.setCoil { c with st := .running, stepping := [] }) else refuse
  else if c.st ≠ .stopped then refuse
  else if c.steps.isEmpty then (0, false, s.stopNow c)
  else (0, false, s.setCoil { c with st := .running, stepping := c.steps })

/-- COILCMD with a result and GO. -/
def cmdWord (w : DWord) (result : Nat) (go : Bool) : DWord :=
  (w &&& 0xFFFFFFFFFFF0000E) ||| BitVec.ofNat 64 (result * 2 ^ 5 + if go then 1 else 0)

/-- A write of COILCMD. -/
def State.writeCoilcmd (s : State) (w : DWord) : State :=
  let op := w.toNat / 2 % 8
  let put (s : State) (v : DWord) : State := { s with regs := { s.regs with coilcmd := v } }
  if s.regs.coilcmd.getLsbD 0 then s
  else if !w.getLsbD 0 || op = 0 || op = 7 then put s (cmdWord w (s.regs.coilcmd.toNat / 2 ^ 5 % 8) false)
  else
    match s.cmdCoil w with
    | none => put s (cmdWord w 1 false)
    | some c => let r := s.coilOp op c; put r.2.2 (cmdWord w r.1 r.2.1)

/-- A write of COILCMD whose OP is `op`. -/
def State.coilcmdOp (s : State) (op : Nat) (w : DWord) : State := if w.toNat / 2 % 8 = op then s.writeCoilcmd w else s

/-- PREEMPT. -/
def execPreemptCoil (w : BitVec 64) (s : State) : Answer := s.fromApp (State.coilcmdOp · 1 w)
/-- KILL. -/
def execKillCoil (w : BitVec 64) (s : State) : Answer := s.fromApp (State.coilcmdOp · 2 w)
/-- RESTART. -/
def execRestartCoil (w : BitVec 64) (s : State) : Answer := s.fromApp (State.coilcmdOp · 3 w)
/-- STOP. -/
def execStopCoil (w : BitVec 64) (s : State) : Answer := s.fromApp (State.coilcmdOp · 4 w)
/-- RESUME. -/
def execResumeCoil (w : BitVec 64) (s : State) : Answer := s.fromApp (State.coilcmdOp · 5 w)
/-- STEP. -/
def execStepCoil (w : BitVec 64) (s : State) : Answer := s.fromApp (State.coilcmdOp · 6 w)

end Sys2Proof.Machine
end

