-- ==== Sys2Proof/Machine/Checker.lean ====
section
/-! DEFINITION. The barrier checker: stalls and deadlocks (15_system.md R434, R435). -/

namespace Sys2Proof.Machine

/-! ## What a fibre waits for -/

/-- Whether an instruction waits for an acquire before it: an access, an arrival, a command or a commit point (09_ordering.md R256; 07_work.md
R188). -/
def instrActs : Instr → Bool
  | .ldB8 _ | .ldB16 _ | .ldB32 _ | .ldB64 _ | .ldB128 _ | .lds _ | .lduB32 _ | .lduB64 _ | .ldmx _ => true
  | .stB8 _ | .stB16 _ | .stB32 _ | .stB64 _ | .stB128 _ | .sts _ | .stmx _ | .tld _ | .tldT _ | .tst _ | .accrd _ => true
  | .atom _ | .cas _ | .atred _ | .atoms _ | .pfL1 _ | .pfL2 _ | .cctlInv _ | .cctlInvall _ | .cctlWb _ | .cctlWbinv _ => true
  | .icinvCore _ | .icinvDev _ | .hbind _ | .sptmapSwap _ | .sptmapRd _ | .barv _ | .barx _ => true
  | .cpy _ | .cpyt _ | .cpym _ | .gath _ | .scat _ | .scata _ | .scout _ | .tmask _ | .sgload _ | .sginv _ => true
  | .acq _ | .rel _ | .fence _ | .gbarArv _ | .gbarWait _ | .trapOp _ | .sysc _ => true
  | .spawn _ | .launch _ | .fork _ | .fibend _ | .region _ | .fnew _ | .fres _ | .fthen _ | .fread _ | .fwait _ | .engfork _ | .rdv _ => true
  | _ => false

/-- Whether a wait is a BWAIT or an FWAIT, which holds back what comes after its acquire. -/
def Wait.acquires (w : Wait) : Bool := match w.kind with | .bwait _ _ _ _ => true | .fwait _ _ _ _ => true | _ => false

/-- Whether a fibre stands at an instruction that waits for a wait: for its flag, or for its acquire. -/
def State.blockedBy (s : State) (c : Coil) (f : Fibre) (w : Wait) : Bool :=
  let ws := s.peekWords c.asid f.pc
  w.fibres.contains f.idx && f.status = .runnable
  && ((match w.flag with | some k => f.cf.getLsbD k && (flagsAt ws).getLsbD k | none => false)
      || (w.acquires && match mainAt ws with | some (i, m) => instrActs i && f.getP m.gsel.toNat != (m.gneg = 1) | none => false))

/-- The barrier that a wait names. -/
def Wait.bar (w : Wait) : Option Nat := match w.kind with | .bwait _ n _ _ => some n | _ => none

/-- A fibre that waits in ACQ.X: the ordering object, and the coil whose hold on it the fibre waits for (09_ordering.md R267). -/
def State.holdOf (s : State) (c : Coil) (f : Fibre) : Option (BitVec 64 × Nat) :=
  if f.status ≠ .runnable then none
  else match mainAt (s.peekWords c.asid f.pc) with
    | some (.acq m, _) =>
      match c.slot m.mod with
      | some h =>
        let hold := s.vnat c.asid (h.sync + 8) 4
        if syncX m && h.sync ≠ 0 && hold ≠ 0 && hold ≠ c.id + 1 then some (h.sync, hold - 1) else none
      | none => none
    | _ => none

/-- Whether a fibre waits in RDV (07_work.md R207). -/
def State.inRdv (s : State) (c : Coil) (f : Fibre) : Bool :=
  f.status = .runnable && (c.eng = .queued || c.eng = .running)
  && match mainAt (s.peekWords c.asid f.pc) with | some (.rdv _, _) => true | _ => false

/-- Whether a fibre is in a wait that the checker covers. -/
def State.inWait (s : State) (c : Coil) (f : Fibre) : Bool :=
  match f.status with
  | .arrived _ => true
  | .held _ _ => true
  | .runnable =>
    (s.holdOf c f).isSome || s.inRdv c f
    || c.waits.any (fun w => match w.kind with
        | .bwait _ _ _ _ => s.blockedBy c f w
        | .fwait _ _ _ _ => s.blockedBy c f w
        | .pwait _ _ _ _ => s.blockedBy c f w
        | .gbar _ _ => w.fibres.contains f.idx
        | _ => false)
  | _ => false

/-! ## Stalls -/

/-- One BARRIER_STALL record for each wait that has lasted longer than the threshold. -/
def State.stallRecs (s : State) (id draw : Nat) : List Fibre → State
  | [] => s
  | f :: r =>
    match s.coil? id with
    | none => s
    | some c =>
      if s.inWait c f && !c.stalled.contains f.idx && Config.waitedLong draw f.idx then
        ((s.setCoil { c with stalled := f.idx :: c.stalled }).record { s.coilRec c 0x308 0 0xFF with fibre := some f.idx, count := 1 }).stallRecs id draw r
      else s.stallRecs id draw r

/-! ## Deadlock -/

/-- Whether a fibre's state is one of a deadlock. -/
def State.stuck (s : State) (c : Coil) (f : Fibre) : Bool :=
  match f.status with
  | .provisional _ => true
  | .arrived _ => true
  | .held _ _ => true
  | .runnable => c.waits.any (fun w => w.bar.isSome && s.blockedBy c f w)
  | _ => false

/-- The object on which a fibre waits for the hold of a coil that does not live. -/
def State.deadHold (s : State) (c : Coil) (f : Fibre) : Option (BitVec 64) :=
  match s.holdOf c f with
  | some (a, id) => if s.alive.any (fun d => d.id = id) then none else some a
  | none => none

/-- Whether a coil is deadlocked. -/
def State.deadlocked (s : State) (c : Coil) : Bool :=
  (!c.fibres.isEmpty && c.fibres.all (s.stuck c) && !(List.range 16).any (fun n => s.barNamed c n) && c.eng ≠ .running)
  || c.fibres.any (fun f => (s.deadHold c f).isSome)

/-- What a record of a deadlock states. -/
structure Dead where
  kind : Nat
  reg : Nat
  phase : Nat
  arrived : Nat
  members : Nat
  missing : Option Nat
  pc : BitVec 64

/-- An instance whose members are some fibre indices, of which some have arrived. -/
def Dead.of (c : Coil) (kind reg : Nat) (members arrived : List Nat) : Dead :=
  { kind := kind, reg := reg, phase := 0, arrived := arrived.length, members := members.length
    missing := c.live.find? (fun i => members.contains i && !arrived.contains i)
    pc := ((c.fibres.find? (fun f => arrived.contains f.idx)).map Fibre.pc).getD 0 }

/-- The awaited barriers. -/
def Coil.deadBars (c : Coil) : List Dead :=
  ((c.waits.filterMap Wait.bar).eraseDups).map (fun n =>
    let b := c.bar n
    let who := (c.waits.filter (fun w => w.bar = some n)).flatMap Wait.fibres
    { kind := 1, reg := n, phase := b.phase, arrived := b.arrived, members := b.members
      missing := if b.arrived ≥ b.members then none else (c.fibres.find? (fun f => !f.arrived.contains n)).map Fibre.idx
      pc := ((c.fibres.find? (fun f => who.contains f.idx)).map Fibre.pc).getD 0 })

/-- The collectives that wait. -/
def Coil.deadInsts (c : Coil) : List Dead :=
  (c.insts.filter (fun n => !n.done)).map (fun n => Dead.of c 2 n.greg ((List.range 1024).filter (fun f => grpMember n.gval n.group f)) (n.members.map Arrival.fibre))

/-- The pack points where fibres are held. -/
def Coil.deadPoints (c : Coil) : List Dead :=
  c.packPoints.flatMap (fun p =>
    let held := (c.heldAt p.1 p.2)
    match p.2 with
    | .pack => [Dead.of c 4 0 c.live held]
    | .convmCoil => [Dead.of c 3 0 c.live held]
    | .convm g v => ((held.map (grpOf v)).eraseDups).map (fun k =>
        Dead.of c 3 g ((List.range 1024).filter (fun f => grpMember v k f)) (held.filter (fun f => grpMember v k f))))

/-- The objects that coils which do not live hold, each once. -/
def State.deadHolds (s : State) (c : Coil) : List Dead :=
  ((c.fibres.filterMap (s.deadHold c)).eraseDups).map (fun a =>
    { kind := 5, reg := 0, phase := 0, arrived := 0, members := 0, missing := none
      pc := ((c.fibres.find? (fun f => s.deadHold c f = some a)).map Fibre.pc).getD 0 })

/-- The record of one awaited object. -/
def State.deadRec (s : State) (c : Coil) (d : Dead) : Rec :=
  { s.coilRec c 0x309 0 0xFF with
    fibre := d.missing, count := d.members - d.arrived, aux := d.pc.setWidth 32
    detail := BitVec.ofNat 64 (d.kind + d.reg % 256 * 2 ^ 8 + d.phase % 256 * 2 ^ 16 + d.arrived % 2048 * 2 ^ 24 + d.members % 2048 * 2 ^ 35) }

/-- Reports a deadlock, once until a fibre of the coil issues again, and kills the coil with KILL. -/
def State.checkDeadlock (s : State) (c : Coil) : State :=
  if c.deadlock || !s.deadlocked c then s
  else
    let recs := c.deadBars ++ c.deadInsts ++ c.deadPoints ++ s.deadHolds c
    let s := recs.foldl (fun s d => s.record (s.deadRec c d)) (s.setCoil { c with deadlock := true })
    if c.chk.getLsbD 7 then s.killCoil c.id 0x309 else s

/-- Examines one coil; LOG 0 turns the checker off for it. -/
def State.checkCoil (s : State) (id : Nat) : State :=
  match s.coil? id with
  | none => s
  | some c =>
    if c.chk.toNat % 32 = 0 then s
    else
      let d := s.draw
      let s := d.2.stallRecs id d.1 c.fibres
      match s.coil? id with
      | none => s
      | some c => s.checkDeadlock c

/-- BARRIER_CHECKER_PERIOD (R435). -/
def execBarrierCheckerPeriod (core : Nat) (s : State) : Answer :=
  .next (((s.coils.filter (fun c => c.resident && c.core = core && c.st = .running)).map Coil.id).foldl State.checkCoil s)

end Sys2Proof.Machine
end

