-- ==== Sys2Proof/Machine/Integer.lean ====
section
/-! DEFINITION. Integer, logic, shift, bit-field, move, predicate and packed instructions (03_integer.md R59 to R88), and the compact
forms of them (02_encoding.md R37, R38). -/

namespace Sys2Proof.Machine

/-! ## Latencies (R65) -/

/-- The class of adds, logic, shifts, moves: 4, or 6 for a 64-bit vector form. -/
def latAlu (uni wide : Bool) : Nat := if wide && !uni then 6 else 4
/-- Multiplies. -/
def latMul (uni wide : Bool) : Nat := if wide then (if uni then 7 else 10) else if uni then 5 else 6
/-- Divisions. -/
def latDiv (uni wide : Bool) : Nat := if wide then (if uni then 36 else 42) else if uni then 20 else 26

/-! ## Arithmetic (R69 to R73) -/

/-- `OP.T d, a, b` with U:T in MOD (R67). -/
def arith2 (sh : Shape) (lat : Bool → Bool → Nat) (op : List Int → Int × Word) (m : Main) (s : State) : Answer :=
  issueOk (Info.of sh m (lat m.uni m.wide))
    (fun x => x.compute m.uni m.wide m.d.toNat [m.opA m.uni m.wide, m.opB m.uni m.wide m.sgn] (onInts m.wide m.sgn op)) s

/-- `OP.T d, a` with U:T in MOD. -/
def arith1 (sh : Shape) (op : List Int → Int × Word) (m : Main) (s : State) : Answer :=
  issueOk (Info.of sh m (latAlu m.uni m.wide))
    (fun x => x.compute m.uni m.wide m.d.toNat [m.opA m.uni m.wide] (onInts m.wide m.sgn op)) s

/-- The width of T. -/
def widthOf (wide : Bool) : Nat := if wide then 64 else 32

/-- The quotient and remainder of R71: truncation toward zero; all ones and the dividend for a zero divisor. -/
def divT (a b : Int) : Int := if b = 0 then -1 else Int.tdiv a b
def remT (a b : Int) : Int := if b = 0 then a else Int.tmod a b
/-- A division raises DIVZ on a zero divisor. -/
def divOp (f : Int → Int → Int) : List Int → Int × Word
  | a :: b :: _ => (f a b, flagIf (b = 0) flagDivz)
  | _ => (0, 0)

/-- The comparison that a condition code names (R73). -/
def cmpInt (cc : Nat) (a b : Int) : Bool :=
  if cc = 0 then a = b else if cc = 1 then a ≠ b else if cc = 2 then a < b else if cc = 3 then a ≤ b
  else if cc = 4 then a > b else a ≥ b

/-- IADD (R69). -/
def execIadd (m : Main) (s : State) : Answer := arith2 (Instr.iadd m).shape latAlu (exact2 (· + ·)) m s
/-- ISUB (R69). -/
def execIsub (m : Main) (s : State) : Answer := arith2 (Instr.isub m).shape latAlu (exact2 (· - ·)) m s
/-- INEG (R69). -/
def execIneg (m : Main) (s : State) : Answer := arith1 (Instr.ineg m).shape (exact1 (- ·)) m s
/-- IABS (R69). -/
def execIabs (m : Main) (s : State) : Answer := arith1 (Instr.iabs m).shape (exact1 (fun a => if a < 0 then -a else a)) m s
/-- IMUL (R69). -/
def execImul (m : Main) (s : State) : Answer := arith2 (Instr.imul m).shape latMul (exact2 (· * ·)) m s
/-- IMULH (R69). -/
def execImulh (m : Main) (s : State) : Answer :=
  arith2 (Instr.imulh m).shape latMul (exact2 (fun a b => a * b / 2 ^ widthOf m.wide)) m s
/-- IMAD (R70). -/
def execImad (m : Main) (s : State) : Answer :=
  issueOk (Info.of (Instr.imad m).shape m (latMul m.uni m.wide))
    (fun x => x.compute m.uni m.wide m.d.toNat [m.opA m.uni m.wide, m.opB m.uni m.wide m.sgn, m.opC m.uni m.wide]
      (onInts m.wide m.sgn (exact3 (fun a b c => a * b + c)))) s

/-- The sum of a wide multiply-add (R70). -/
def imadwOp (sgn : Bool) : List DWord → DWord × Word
  | a :: b :: c :: _ => (BitVec.ofInt 64 (tInt false sgn a * tInt false sgn b) + c, 0)
  | _ => (0, 0)

/-- IMADW (R70). -/
def execImadw (m : Main) (s : State) : Answer :=
  issueOk (Info.of (Instr.imadw m).shape m (latMul m.uni true))
    (fun x => x.compute m.uni true m.d.toNat [m.opA m.uni false, m.opB m.uni false m.sgn, m.opC m.uni true] (imadwOp m.sgn)) s
/-- IDIV (R71). -/
def execIdiv (m : Main) (s : State) : Answer := arith2 (Instr.idiv m).shape latDiv (divOp divT) m s
/-- IREM (R71). -/
def execIrem (m : Main) (s : State) : Answer := arith2 (Instr.irem m).shape latDiv (divOp remT) m s
/-- IMIN (R69). -/
def execImin (m : Main) (s : State) : Answer := arith2 (Instr.imin m).shape latAlu (exact2 min) m s
/-- IMAX (R69). -/
def execImax (m : Main) (s : State) : Answer := arith2 (Instr.imax m).shape latAlu (exact2 max) m s

/-- The clamp to a w-bit integer (R72). -/
def isatOp (w : Nat) (signed : Bool) : List Int → Int × Word
  | a :: _ => satFlag a (intLo w signed) (intHi w signed)
  | [] => (0, 0)

/-- ISAT (R72): MOD bit 2 names a natural target. -/
def execIsat (m : Main) (s : State) : Answer :=
  issueOk (Info.of (Instr.isat m).shape m (latAlu false m.wide))
    (fun x => x.compute false m.wide m.d.toNat [m.opA false m.wide] (onInts m.wide m.sgn (isatOp m.b.toNat (!m.uni)))) s

/-- ICMP (R73). -/
def execIcmp (m : Main) (s : State) : Answer :=
  issueOk ((Info.of (Instr.icmp m).shape m (latAlu m.uni m.wide)).writesP m.d.toNat)
    (fun x => x.computeP m.d.toNat [m.opA m.uni m.wide, m.opB m.uni m.wide m.sgn] (fun l =>
      match l.map (tInt m.wide m.sgn) with
      | a :: b :: _ => (cmpInt m.c a b, 0)
      | _ => (false, 0))) s

/-! ## Logic, shifts and bit fields (R74 to R77) -/

/-- `OP d, a, b` on 32 bits. -/
def logic2 (sh : Shape) (op : Word → Word → Word) (m : Main) (s : State) : Answer :=
  issueOk (Info.of sh m (latAlu m.uni false))
    (fun x => x.compute m.uni false m.d.toNat [m.opA m.uni false, m.opB m.uni false false] (word2 op)) s

/-- `OP d, a` on 32 bits. -/
def logic1 (sh : Shape) (op : Word → Word) (m : Main) (s : State) : Answer :=
  issueOk (Info.of sh m (latAlu m.uni false)) (fun x => x.compute m.uni false m.d.toNat [m.opA m.uni false] (word1 op)) s

/-- n of a shift: B bits 5:0 (R75). -/
def shiftCount (b : Word) : Nat := b.toNat % 64
/-- SHL, SHR, SAR and ROT on 32 bits (R75). -/
def shlW (a b : Word) : Word := a <<< shiftCount b
def shrW (a b : Word) : Word := a >>> shiftCount b
def sarW (a b : Word) : Word := a.sshiftRight (shiftCount b)
def rotW (a b : Word) : Word := a.rotateLeft (shiftCount b % 32)
/-- FSHL: bits 63:32 of a·2^32 + b shifted left by c bits 5:0 (R75). -/
def fshlW (a b c : Word) : Word := DWord.hi (DWord.ofWords a b <<< shiftCount c)
/-- LUT3: bit i is the table's bit 4·d[i] + 2·a[i] + b[i] (R74). -/
def lut3W (imm : Nat) (d a b : Word) : Word :=
  BitVec.ofBoolListLE ((List.range 32).map (fun i =>
    imm.testBit (4 * (d.getLsbD i).toNat + 2 * (a.getLsbD i).toNat + (b.getLsbD i).toNat))) |>.setWidth 32
/-- BFX (R76). -/
def bfxW (pos len : Nat) (signed : Bool) (a : Word) : Word :=
  let f := a.toNat / 2 ^ pos % 2 ^ len
  if signed then BitVec.ofInt 32 (sext len f) else BitVec.ofNat 32 f
/-- BFI (R76). -/
def bfiW (pos len : Nat) (d a : Word) : Word :=
  let mask := BitVec.ofNat 32 ((2 ^ len - 1) * 2 ^ pos)
  (d &&& ~~~mask) ||| (BitVec.ofNat 32 (a.toNat % 2 ^ len * 2 ^ pos) &&& mask)
/-- The number of one bits. -/
def popcount (w n : Nat) : Nat := ((List.range w).filter n.testBit).length
/-- Zeros above the highest one; w when there is none. -/
def clzN (w n : Nat) : Nat := if n = 0 then w else w - 1 - n.log2
/-- Zeros below the lowest one; w when there is none. -/
def ctzN (w n : Nat) : Nat := if n = 0 then w else lowBit w n
/-- Bits in reverse order. -/
def brevW (a : Word) : Word := a.reverse
/-- Bytes in reverse order, in the word or in each half (R77). -/
def bswap32 (a : Word) : Word := a.extractLsb' 0 8 ++ a.extractLsb' 8 8 ++ a.extractLsb' 16 8 ++ a.extractLsb' 24 8
def bswap16 (a : Word) : Word := a.extractLsb' 16 8 ++ a.extractLsb' 24 8 ++ a.extractLsb' 0 8 ++ a.extractLsb' 8 8

/-- AND (R74). -/
def execAnd (m : Main) (s : State) : Answer := logic2 (Instr.andOp m).shape (· &&& ·) m s
/-- OR (R74). -/
def execOr (m : Main) (s : State) : Answer := logic2 (Instr.orOp m).shape (· ||| ·) m s
/-- XOR (R74). -/
def execXor (m : Main) (s : State) : Answer := logic2 (Instr.xorOp m).shape (· ^^^ ·) m s
/-- ANDN (R74). -/
def execAndn (m : Main) (s : State) : Answer := logic2 (Instr.andn m).shape (fun a b => a &&& ~~~b) m s
/-- NOT (R74). -/
def execNot (m : Main) (s : State) : Answer := logic1 (Instr.notOp m).shape (~~~ ·) m s
/-- LUT3 (R74). -/
def execLut3 (m : Main) (s : State) : Answer :=
  issueOk (Info.of (Instr.lut3 m).shape m 4)
    (fun x => x.compute false false m.d.toNat [.reg false false m.d.toNat, m.opA false false, m.opB false false false]
      (word3 (lut3W (m.imm % 256)))) s
/-- SHL (R75). -/
def execShl (m : Main) (s : State) : Answer := logic2 (Instr.shl m).shape shlW m s
/-- SHR (R75). -/
def execShr (m : Main) (s : State) : Answer := logic2 (Instr.shr m).shape shrW m s
/-- SAR (R75). -/
def execSar (m : Main) (s : State) : Answer := logic2 (Instr.sar m).shape sarW m s
/-- ROT (R75). -/
def execRot (m : Main) (s : State) : Answer := logic2 (Instr.rot m).shape rotW m s
/-- FSHL (R75). -/
def execFshl (m : Main) (s : State) : Answer :=
  issueOk (Info.of (Instr.fshl m).shape m 4)
    (fun x => x.compute false false m.d.toNat [m.opA false false, m.opB false false false, m.opC false false] (word3 fshlW)) s
/-- BFX (R76). -/
def execBfx (m : Main) (s : State) : Answer :=
  issueOk (Info.of (Instr.bfx m).shape m 4)
    (fun x => x.compute false false m.d.toNat [m.opA false false] (word1 (bfxW (m.imm % 32) (m.imm / 32 % 32 + 1) (m.imm / 1024 = 1)))) s
/-- BFI (R76): the old value of D is a source. -/
def execBfi (m : Main) (s : State) : Answer :=
  issueOk (Info.of (Instr.bfi m).shape m 4)
    (fun x => x.compute false false m.d.toNat [.reg false false m.d.toNat, m.opA false false]
      (word2 (bfiW (m.imm % 32) (m.imm / 32 % 32 + 1)))) s
/-- POPC (R77). -/
def execPopc (m : Main) (s : State) : Answer := logic1 (Instr.popc m).shape (fun a => BitVec.ofNat 32 (popcount 32 a.toNat)) m s
/-- CLZ (R77). -/
def execClz (m : Main) (s : State) : Answer := logic1 (Instr.clz m).shape (fun a => BitVec.ofNat 32 (clzN 32 a.toNat)) m s
/-- CTZ (R77). -/
def execCtz (m : Main) (s : State) : Answer := logic1 (Instr.ctz m).shape (fun a => BitVec.ofNat 32 (ctzN 32 a.toNat)) m s
/-- BREV (R77). -/
def execBrev (m : Main) (s : State) : Answer := logic1 (Instr.brev m).shape brevW m s
/-- BSWAP (R77). -/
def execBswap (m : Main) (s : State) : Answer := logic1 (Instr.bswap m).shape (if m.mod % 4 = 0 then bswap32 else bswap16) m s

/-! ## Moves and predicates (R78 to R81) -/

/-- SEL (R80). -/
def execSel (m : Main) (s : State) : Answer :=
  let wide := m.mod = 1
  issueOk ((Info.of (Instr.sel m).shape m (latAlu false wide)).readsP [m.c])
    (fun x => x.onMask (fun o f =>
      f.put wide m.d.toNat (if o.getP m.c then (m.opA false wide).get x.src o else (m.opB false wide true).get x.src o))) s

/-- MOV (R78). From V to S, only the lowest fibre of the mask reads its source. -/
def execMov (m : Main) (s : State) : Answer :=
  let du := m.mod % 4 ≥ 2
  issueOk ((Info.of (Instr.mov m).shape m (latAlu du m.uni)).lowestOnly (m.mod % 4 = 3))
    (fun x => x.compute du m.uni m.d.toNat [m.opA (m.mod % 4 = 1 || m.mod % 4 = 2) m.uni] copyOp) s

/-- The value and the register that MOVL writes: the pair, or its high word for MOVL.HI (R79). -/
def movlWide (m : Main) : Bool := m.mod % 4 = 1 || m.mod % 4 = 2
def movlReg (m : Main) : Nat := if m.mod % 4 = 3 then m.d.toNat + 1 else m.d.toNat
def movlVal (m : Main) : DWord :=
  match m.lit with
  | none => 0
  | some l => if m.mod % 4 = 1 then l.signExtend 64 else l.setWidth 64

/-- MOVL (R79). MOVL.HI has the latency of a 32-bit move (DESIGN CHOICE, log 107: R65 does not name it). -/
def execMovl (m : Main) (s : State) : Answer :=
  issueOk { Info.of (Instr.movl m).shape m (latAlu m.uni (movlWide m)) with
            reads := [], writes := regsFrom (if m.uni then .s else .v) (movlReg m) (if movlWide m then 2 else 1) }
    (fun x => x.compute m.uni (movlWide m) (movlReg m) [.val (movlVal m)] copyOp) s

/-- PSET (R81). -/
def execPset (m : Main) (s : State) : Answer :=
  issueOk ((Info.of (Instr.pset m).shape m 4).writesP m.d.toNat)
    (fun x => x.onMask (fun o f => f.setP m.d.toNat ((o.getV m.a.toNat).getLsbD (m.imm % 32)))) s

/-- PLOP (R81). -/
def execPlop (m : Main) (s : State) : Answer :=
  issueOk (((Info.of (Instr.plop m).shape m 4).readsP [m.a.toNat, m.b.toNat]).writesP m.d.toNat)
    (fun x => x.onMask (fun o f =>
      f.setP m.d.toNat (m.imm.testBit (2 * (o.getP m.a.toNat).toNat + (o.getP m.b.toNat).toNat)))) s

/-- The predicates as a word, with bit 0 set. -/
def Fibre.predWord (f : Fibre) : Word := (f.p ||| 1).setWidth 32

/-- PRDW (R81). -/
def execPrdw (m : Main) (s : State) : Answer :=
  issueOk ((Info.of (Instr.prdw m).shape m 4).readsP ((List.range 16).drop 1))
    (fun x => x.onMask (fun o f => f.setV m.d.toNat o.predWord)) s

/-- The mask of PWRW: IMM11, or the extended immediate (R81). -/
def pwrwMask (m : Main) : Nat := match m.lit with | none => m.imm | some l => l.toNat * 2048 + m.imm
/-- The predicates that PWRW writes. -/
def pwrwRegs (m : Main) : List Nat := ((List.range 16).drop 1).filter (pwrwMask m).testBit

/-- PWRW (R81). -/
def execPwrw (m : Main) (s : State) : Answer :=
  issueOk { Info.of (Instr.pwrw m).shape m 4 with writes := (pwrwRegs m).map (fun i => (.p, i)) }
    (fun x => x.onMask (fun o f => (pwrwRegs m).foldl (fun f i => f.setP i ((o.getV m.a.toNat).getLsbD i)) f)) s

/-! ## Packed arithmetic (R82 to R84) -/

/-- Part k of w bits of a word, as an integer. -/
def part (w : Nat) (sgn : Bool) (a : Word) (k : Nat) : Int :=
  let n := a.toNat / 2 ^ (w * k) % 2 ^ w
  if sgn then sext w n else n

/-- Two 16-bit halves as a word. -/
def halves (lo hi : Int) : Word := BitVec.ofInt 16 hi ++ BitVec.ofInt 16 lo

/-- An operation on the halves, wrapping or clamped (R82). -/
def packed2 (mod : Nat) (f : Int → Int → Int) : List DWord → DWord × Word
  | a :: b :: _ =>
    let sgn := mod % 2 = 0
    let r (k : Nat) : Int × Word :=
      let t := f (part 16 sgn a.lo k) (part 16 sgn b.lo k)
      if mod ≥ 2 then satFlag t (intLo 16 sgn) (intHi 16 sgn) else (t, 0)
    ((halves (r 0).1 (r 1).1).setWidth 64, (r 0).2 ||| (r 1).2)
  | _ => (0, 0)

/-- A packed instruction of two sources. -/
def packedOp (sh : Shape) (f : Int → Int → Int) (m : Main) (s : State) : Answer :=
  issueOk (Info.of sh m 4) (fun x => x.compute false false m.d.toNat [m.opA false false, m.opB false false false] (packed2 m.mod f)) s

/-- PADD2 (R82). -/
def execPadd2 (m : Main) (s : State) : Answer := packedOp (Instr.padd2 m).shape (· + ·) m s
/-- PSUB2 (R82). -/
def execPsub2 (m : Main) (s : State) : Answer := packedOp (Instr.psub2 m).shape (· - ·) m s
/-- PMIN2 (R82). -/
def execPmin2 (m : Main) (s : State) : Answer := packedOp (Instr.pmin2 m).shape min m s
/-- PMAX2 (R82). -/
def execPmax2 (m : Main) (s : State) : Answer := packedOp (Instr.pmax2 m).shape max m s

/-- The dot product of parts of w bits, added to c and saturated once (R83). -/
def pmacOp (w : Nat) (asgn bsgn csgn : Bool) : List DWord → DWord × Word
  | a :: b :: c :: _ =>
    let parts := (List.range (32 / w)).map (fun k => part w asgn a.lo k * part w bsgn b.lo k)
    let r := satFlag (tInt false csgn c + parts.foldl (· + ·) 0) (intLo 32 csgn) (intHi 32 csgn)
    (BitVec.ofInt 64 r.1, r.2)
  | _ => (0, 0)

/-- PMAC2 (R83). -/
def execPmac2 (m : Main) (s : State) : Answer :=
  let sgn := m.mod = 0
  issueOk (Info.of (Instr.pmac2 m).shape m 6)
    (fun x => x.compute false false m.d.toNat [m.opA false false, m.opB false false false, m.opC false false] (pmacOp 16 sgn sgn sgn)) s
/-- PMAC4 (R83). -/
def execPmac4 (m : Main) (s : State) : Answer :=
  issueOk (Info.of (Instr.pmac4 m).shape m 6)
    (fun x => x.compute false false m.d.toNat [m.opA false false, m.opB false false false, m.opC false false]
      (pmacOp 8 (m.mod ≠ 1) (m.mod = 0) (m.mod ≠ 1))) s

/-- The rounding right shift, narrowing when `nar` (R84). -/
def shrrOp (wide sgn nar : Bool) : List DWord → DWord × Word
  | a :: b :: _ =>
    let v := tInt wide sgn a
    let n := b.toNat % 64
    let r := if n = 0 then v else (v + 2 ^ (n - 1)) / 2 ^ n
    let w := widthOf wide / 2
    let q := if nar then satFlag r (intLo w sgn) (intHi w sgn) else (r, 0)
    (BitVec.ofInt 64 q.1, q.2)
  | _ => (0, 0)

/-- SHRR (R84): MOD bit 2 selects the narrowing form, B is a single register. -/
def execShrr (m : Main) (s : State) : Answer :=
  issueOk (Info.of (Instr.shrr m).shape m 6)
    (fun x => x.compute false (m.wide && !m.uni) m.d.toNat [m.opA false m.wide, m.opB false false false] (shrrOp m.wide m.sgn m.uni)) s

/-! ## Addresses (R85 to R88) -/

/-- LEA's sum; B is sign-extended for form 1 (R85). -/
def leaOp (form k : Nat) : List DWord → DWord × Word
  | a :: b :: _ => (a + ((if form = 1 then b.lo.signExtend 64 else b) <<< k), 0)
  | _ => (0, 0)

/-- LEA (R85). -/
def execLea (m : Main) (s : State) : Answer :=
  let form := m.mod % 4
  issueOk (Info.of (Instr.lea m).shape m (latAlu m.uni (form ≠ 0)))
    (fun x => x.compute m.uni (form ≠ 0) m.d.toNat [m.opA m.uni (form ≠ 0), m.opB m.uni (form = 3) false] (leaOp form m.c)) s

/-- An address to an S pair, or to a V pair of each fibre (R86). -/
def addrTo (sh : Shape) (m : Main) (f : Iss → DWord) (s : State) : Answer :=
  issueOk { Info.of sh m 4 with writes := regsFrom (if m.b = 0 then .s else .v) m.d.toNat 2 }
    (fun x => x.compute (m.b = 0) true m.d.toNat [.val (f x)] copyOp) s

/-- ADR (R86). -/
def execAdr (m : Main) (s : State) : Answer := addrTo (Instr.adr m).shape m (fun x => x.pc + BitVec.ofInt 64 (4 * m.simm)) s
/-- CTXA (R87). -/
def execCtxa (m : Main) (s : State) : Answer := addrTo (Instr.ctxa m).shape m (fun x => x.c.ctxbase + BitVec.ofInt 64 m.simm) s

/-! ## Compact forms (02_encoding.md R37, R38) -/

/-- A compact instruction of one or two sources, the second a register or an immediate. -/
def compact2 (f : Compact) (imm : Option DWord) (op : List DWord → DWord × Word) (s : State) : Answer :=
  issueOk (Info.compact (.v 1, .v 1, if imm.isNone then .v 1 else .any) f 4)
    (fun x => x.compute false false f.d.toNat
      [.reg false false f.a.toNat, match imm with | some i => .val i | none => .reg false false f.b.toNat] op) s

/-- The immediate read as signed, and as natural. -/
def immS (f : Compact) : Option DWord := some ((f.b.signExtend 32).setWidth 64)
def immN (f : Compact) : Option DWord := some (f.b.setWidth 64)

/-- NOP_COMPACT (R38, R163). -/
def execNopCompact (f : Compact) (s : State) : Answer := issueOk (Info.compact (.zero, .zero, .zero) f 1) id s
/-- MOV_COMPACT (R37). -/
def execMovCompact (f : Compact) (s : State) : Answer := compact2 f (some 0) copyOp s
/-- MOV_IMM_COMPACT (R37, R78). -/
def execMovImmCompact (f : Compact) (s : State) : Answer :=
  issueOk (Info.compact (.v 1, .zero, .any) f 4)
    (fun x => x.compute false false f.d.toNat [.val ((f.b.signExtend 32).setWidth 64)] copyOp) s
/-- IADD_S32_COMPACT (R37). -/
def execIaddS32Compact (f : Compact) (s : State) : Answer :=
  compact2 f none (onInts false true (exact2 (· + ·))) s
/-- IADD_S32_IMM_COMPACT (R37). -/
def execIaddS32ImmCompact (f : Compact) (s : State) : Answer :=
  compact2 f (immS f) (onInts false true (exact2 (· + ·))) s
/-- ISUB_S32_COMPACT (R37). -/
def execIsubS32Compact (f : Compact) (s : State) : Answer :=
  compact2 f none (onInts false true (exact2 (· - ·))) s
/-- ISUB_S32_IMM_COMPACT (R37). -/
def execIsubS32ImmCompact (f : Compact) (s : State) : Answer :=
  compact2 f (immS f) (onInts false true (exact2 (· - ·))) s
/-- AND_COMPACT (R37). -/
def execAndCompact (f : Compact) (s : State) : Answer := compact2 f none (word2 (· &&& ·)) s
/-- AND_IMM_COMPACT (R37). -/
def execAndImmCompact (f : Compact) (s : State) : Answer := compact2 f (immN f) (word2 (· &&& ·)) s
/-- OR_COMPACT (R37). -/
def execOrCompact (f : Compact) (s : State) : Answer := compact2 f none (word2 (· ||| ·)) s
/-- OR_IMM_COMPACT (R37). -/
def execOrImmCompact (f : Compact) (s : State) : Answer := compact2 f (immN f) (word2 (· ||| ·)) s
/-- XOR_COMPACT (R37). -/
def execXorCompact (f : Compact) (s : State) : Answer := compact2 f none (word2 (· ^^^ ·)) s
/-- XOR_IMM_COMPACT (R37). -/
def execXorImmCompact (f : Compact) (s : State) : Answer := compact2 f (immN f) (word2 (· ^^^ ·)) s
/-- ANDN_COMPACT (R37). -/
def execAndnCompact (f : Compact) (s : State) : Answer :=
  compact2 f none (word2 (fun a b => a &&& ~~~b)) s
/-- NOT_COMPACT (R37). -/
def execNotCompact (f : Compact) (s : State) : Answer := compact2 f (some 0) (word1 (~~~ ·)) s
/-- SHL_COMPACT (R75). -/
def execShlCompact (f : Compact) (s : State) : Answer := compact2 f none (word2 shlW) s
/-- SHL_IMM_COMPACT (R75). -/
def execShlImmCompact (f : Compact) (s : State) : Answer := compact2 f (immN f) (word2 shlW) s
/-- SHR_COMPACT (R75). -/
def execShrCompact (f : Compact) (s : State) : Answer := compact2 f none (word2 shrW) s
/-- SHR_IMM_COMPACT (R75). -/
def execShrImmCompact (f : Compact) (s : State) : Answer := compact2 f (immN f) (word2 shrW) s
/-- SAR_COMPACT (R75). -/
def execSarCompact (f : Compact) (s : State) : Answer := compact2 f none (word2 sarW) s
/-- SAR_IMM_COMPACT (R75). -/
def execSarImmCompact (f : Compact) (s : State) : Answer := compact2 f (immN f) (word2 sarW) s
/-- IMIN_S32_COMPACT (R37). -/
def execIminS32Compact (f : Compact) (s : State) : Answer :=
  compact2 f none (onInts false true (exact2 min)) s
/-- IMAX_S32_COMPACT (R37). -/
def execImaxS32Compact (f : Compact) (s : State) : Answer :=
  compact2 f none (onInts false true (exact2 max)) s
/-- IMIN_N32_COMPACT (R37). -/
def execIminN32Compact (f : Compact) (s : State) : Answer :=
  compact2 f none (onInts false false (exact2 min)) s
/-- IMAX_N32_COMPACT (R37). -/
def execImaxN32Compact (f : Compact) (s : State) : Answer :=
  compact2 f none (onInts false false (exact2 max)) s
/-- INEG_S32_COMPACT (R37). -/
def execInegS32Compact (f : Compact) (s : State) : Answer :=
  compact2 f (some 0) (onInts false true (exact1 (- ·))) s

end Sys2Proof.Machine
end

