-- ==== Sys2Proof/Machine/Queue.lean ====
section
/-! DEFINITION. The queue scheduler (01_machine.md R15, R16, R24; 07_work.md R178 to R186, R193 to R200, R212): queue slots, launch packets, placing
and restarting coils, pre-emption for a higher priority, and the events of the device registers that belong here: translation invalidation
(08_memory.md R231), drains (10_copy_gather.md R302) and the side table's low mark (08_memory.md R247). -/

namespace Sys2Proof.Machine

/-! ## Save frames (08_memory.md R216, R217) -/

/-- The size of a frame. -/
def frameSize (partw : Word) (spill : Nat) : Nat := 65536 * (partSlog partw + partAblk partw) + 2 ^ 20 + 2 ^ spill

/-- The partition that a coil holds on its core: a recovery coil's is SPPARTW of its RCB (13_surrogate.md R378). -/
def State.partOf (s : State) (c : Coil) : Word := if c.recOf.isSome then s.rcbSppartw c.asid c.rcb else c.partw

/-- The frames of a context that are in use: base and size. -/
def State.framesUsed (s : State) (asid : BitVec 12) (ctx : BitVec 64) (spill : Nat) : List (Nat × Nat) :=
  (s.alive.filter (fun c => c.asid = asid && c.ctxbase = ctx)).filterMap (fun c =>
    (if c.recOf.isSome then c.own else c.frame).map (fun a => (a.toNat, frameSize (s.partOf c) spill)))

/-- A free frame for a partition: the place that the free choice names, if it is free, or the lowest. -/
def State.frameFor (s : State) (asid : BitVec 12) (ctx : BitVec 64) (partw : Word) (k : Nat) : Option (BitVec 64) :=
  match s.ccb asid ctx with
  | none => none
  | some (base, size, spill) =>
    let used := s.framesUsed asid ctx spill
    let n := frameSize partw spill
    let free (a : Nat) : Bool := decide (base ≤ a) && decide (a + n ≤ base + size) && used.all (fun u => decide (a + n ≤ u.1) || decide (u.1 + u.2 ≤ a))
    let ends := base :: used.map (fun u => u.1 + u.2)
    let low := (ends.filter free).foldl (fun m a => match m with | none => some a | some b => some (min a b)) none
    let want := base + 65536 * Config.frameStep k
    if free want then some (BitVec.ofNat 64 want) else low.map (BitVec.ofNat 64)

/-! ## Where a coil may be placed (R15, R16, R24; 07_work.md R179; 11_matrix.md R311; 13_surrogate.md R378) -/

/-- Work that wants a place: its context, RCB and partition, the cores it may have, the coil whose recovery it serves, the context of a frame
it has still to take, and the tile registers that it reserves. -/
structure Want where
  asid : BitVec 12
  rcb : BitVec 64
  partw : Word
  cores : List Nat
  recovery : Option Nat
  ctx : Option (BitVec 64)
  tiles : List Nat
  deriving DecidableEq, Repr

/-- The pool blocks of a partition. -/
def blocksOf (w : Word) : Nat := partWblk w + partSblk w + partAblk w

/-- The coils that are resident on a core. -/
def State.onCore (s : State) (core : Nat) : List Coil := s.coils.filter (fun c => c.resident && c.core = core)

/-- The resident coils of an RCB's subtree, recovery coils left out. -/
def State.subtree (s : State) (asid : BitVec 12) (r : BitVec 64) : List Coil :=
  s.coils.filter (fun c => c.resident && c.recOf.isNone && s.under asid r c)

/-- The cores that are present. -/
def State.presentCores (s : State) : List Nat := (List.range 256).filter s.present

/-- Whether the budgets of an RCB and its ancestors allow one more coil on a core (07_work.md R179). -/
def State.budget (s : State) (asid : BitVec 12) (rcb : BitVec 64) (core : Nat) : Bool :=
  (s.rcbChain asid s.chainFuel rcb).all (fun r =>
    let l := s.subtree asid r
    let cores := (l.map Coil.core).eraseDups
    let most := max 1 (s.effShare asid r * s.presentCores.length / 256)
    let live := s.effCoilMax asid r
    (cores.contains core || cores.length < most) && (live = 0 || l.length < live))

/-- Whether work may be placed on a core now; on a retired core nothing is, a recovery coil no more than any other (01_machine.md R23; log 42). -/
def State.fits (s : State) (w : Want) (core : Nat) : Bool :=
  let l := s.onCore core
  w.cores.contains core
  && s.present core && (w.recovery.isSome || (s.eligible w.asid w.rcb core && s.budget w.asid w.rcb core))
  && l.length < 16
  && (l.map (fun c => blocksOf (s.partOf c))).foldl (· + ·) (blocksOf w.partw) ≤ 128
  && w.tiles.all (fun t => !l.any (fun c => c.tiles.any (fun u => u.num = t)))
  && (match w.ctx with | none => true | some ctx => (s.frameFor w.asid ctx w.partw s.free).isSome)

/-- A coil slot that is free on a core. -/
def State.freeCslot (s : State) (core : Nat) : Nat :=
  ((List.range 16).find? (fun n => !(s.onCore core).any (fun c => c.cslot = n))).getD 0

/-- A coil id that no coil has (15_system.md R402): the free choice, or the lowest. -/
def State.newCoilId (s : State) : Nat × State :=
  let d := s.draw
  let used (n : Nat) : Bool := s.coils.any (fun c => c.id = n)
  let k := (Config.coilId d.1).toNat
  (if used k then ((List.range (s.coils.length + 1)).find? (fun n => !used n)).getD 0 else k, d.2)

/-- The task identity of a coil that a device instruction created on a die (15_system.md R406). -/
def State.deviceTask (s : State) (queue : BitVec 16) (die : Nat) : BitVec 64 × State :=
  let n := s.coilSeq.getD die 0
  (BitVec.ofNat 64 (queue.toNat * 2 ^ 48 + 2 ^ 47 + n % 2 ^ 47), { s with coilSeq := s.coilSeq.set die (n + 1) })

/-- Seats a new coil on a core, with a frame of its own (R212, R217). -/
def State.seatNew (s : State) (c : Coil) (core : Nat) : State :=
  let d := s.draw
  let fr := s.frameFor c.asid c.ctxbase (s.partOf c) d.1
  let c := if c.recOf.isSome then { c with own := fr } else { c with frame := fr }
  ({ d.2 with coils := s.coils ++ [c] }.seat c core (s.freeCslot core) [])

/-- One live coil more in an RCB (07_work.md R178; log 14). -/
def State.moreLive (s : State) (asid : BitVec 12) (rcb : BitVec 64) : State := s.vput asid (rcb + 0x20) 4 (s.rcbLive asid rcb + 1)

/-! ## The work that waits -/

/-- What a launch wants. -/
def Launch.want (l : Launch) : Want :=
  { asid := l.asid, rcb := l.rcb, partw := BitVec.ofNat 32 (pkt l.packet 0x18 4), cores := List.range 256, recovery := none,
    ctx := some (BitVec.ofNat 64 (pkt l.packet 0x20 8)), tiles := [] }

/-- Whether SPPARTW and SPWIN of an RCB can hold a fibre (log 36). -/
def State.spawnPart (s : State) (asid : BitVec 12) (rcb : BitVec 64) : Bool :=
  let n := s.rcbSpwin asid rcb
  1 ≤ n && n ≤ 32 && !partBad (s.rcbSppartw asid rcb) 1 (8 * n)

/-- What a spawned item wants: its core, or another when that core may no longer serve its RCB (R199); nothing while no packet has fixed its
RCB's context. -/
def State.itemWant (s : State) (i : SpawnItem) : Option Want :=
  match (s.rcbCtx i.asid i.rcb).bind RcbCtx.ctxbase with
  | none => none
  | some ctx =>
    if s.spawnPart i.asid i.rcb then
      some { asid := i.asid, rcb := i.rcb, partw := s.rcbSppartw i.asid i.rcb,
             cores := if s.eligible i.asid i.rcb i.core then [i.core] else List.range 256, recovery := none, ctx := some ctx, tiles := [] }
    else none

/-- What the recovery coil of a coil wants: that coil's core. -/
def State.recoveryWant (s : State) (c : Coil) : Want :=
  { asid := c.asid, rcb := c.rcb, partw := s.rcbSppartw c.asid c.rcb, cores := [c.core], recovery := some c.id, ctx := some c.ctxbase, tiles := [] }

/-- The coils for which recovery entries wait while no recovery coil is there. -/
def State.recoveryFor (s : State) : List Coil :=
  s.coils.filter (fun c => (c.resident || c.st = .ended) && s.recovery.any (fun e => e.coil = c.id) && (s.recoveryOf c.id).isNone && s.spawnPart c.asid c.rcb)

/-- What a saved coil that asks for its restart wants. A PIN coil keeps its core (08_memory.md R240) while that core may still serve its RCB;
off a retired core it goes to a remaining one (01_machine.md R23; 07_work.md R194). -/
def State.coilWant (s : State) (c : Coil) : Want :=
  { asid := c.asid, rcb := c.rcb, partw := c.partw, cores := if c.pin && s.eligible c.asid c.rcb c.core then [c.core] else List.range 256,
    recovery := none, ctx := none, tiles := c.tiles.map Tile.num }

/-- Everything that wants a place. -/
def State.wants (s : State) : List Want :=
  s.recoveryFor.map s.recoveryWant ++ (s.coils.filter (fun c => c.st = .saved true)).map s.coilWant ++ s.launches.map Launch.want
  ++ s.spawns.filterMap s.itemWant

/-! ## COIL_PLACE (R15, R16, R199, R200; 13_surrogate.md R378) -/

/-- Places the next coil of a launch. -/
def State.placeLaunch (s : State) (l : Launch) (core : Nat) : State :=
  let n := s.newCoilId
  let t := match l.seq with
    | some k => (BitVec.ofNat 64 (l.queue.toNat * 2 ^ 48 + k % 2 ^ 48), n.2)
    | none => n.2.deviceTask l.queue l.die
  let c := Coil.ofPacket n.1 l.packet l.asid l.rcb t.1 l.id l.next
  let s := (t.2.seatNew c core).moreLive l.asid l.rcb
  let rest := s.launches.filter (fun k => k.id ≠ l.id)
  { s with launches := if l.next + 1 ≥ pkt l.packet 4 4 then rest else s.launches.map (fun k => if k.id = l.id then { k with next := k.next + 1 } else k) }

/-- Puts items into a coil while it has windows, with the new fibres and the items that are left. -/
def Coil.addItems (c : Coil) : List SpawnItem → Coil × List Nat × List SpawnItem
  | [] => (c, [], [])
  | i :: r =>
    match c.freeIdx with
    | none => (c, [], i :: r)
    | some k =>
      let q := (c.addFibre (Fibre.new k c.window i.pc i.args i.fctl 4)).addItems r
      (q.1, k :: q.2.1, q.2.2)

/-- The items that wait on a core for an RCB. -/
def State.itemsOf (s : State) (core : Nat) (asid : BitVec 12) (rcb : BitVec 64) : List SpawnItem :=
  s.spawns.filter (fun i => i.core = core && i.asid = asid && i.rcb = rcb)

/-- The waiting items after a coil has taken some of an RCB's: `left` are those it left. -/
def State.keepItems (s : State) (core : Nat) (asid : BitVec 12) (rcb : BitVec 64) (left : List SpawnItem) : State :=
  { s with spawns := s.spawns.filter (fun i => !(i.core = core && i.asid = asid && i.rcb = rcb)) ++ left }

/-- The acquire that a released continuation makes on its core (07_work.md R204; 09_ordering.md R489). -/
def State.itemAcquire (s : State) (core : Nat) (asid : BitVec 12) (l : List SpawnItem) : State :=
  if l.any SpawnItem.acquire then s.dropL1 core asid else s

/-- Places a spawn coil for the items of one RCB that wait on a core. -/
def State.placeSpawn (s : State) (i : SpawnItem) (core : Nat) : State :=
  let ctx := s.rcbCtx i.asid i.rcb
  let n := s.newCoilId
  let t := n.2.deviceTask ((ctx.map RcbCtx.queue).getD 0) (dieOf core)
  let c := Coil.new n.1 i.asid ((ctx.bind RcbCtx.ctxbase).getD 0) i.rcb (s.rcbSppartw i.asid i.rcb) (8 * s.rcbSpwin i.asid i.rcb) t.1 t.2.nextId
  let l := s.itemsOf i.core i.asid i.rcb
  let q := c.addItems l
  let s := { t.2 with nextId := t.2.nextId + 1 }.keepItems i.core i.asid i.rcb q.2.2
  ((s.seatNew q.1 core).moreLive i.asid i.rcb).itemAcquire core i.asid l

/-- Places the recovery coil of a coil. -/
def State.placeRecovery (s : State) (c : Coil) : State :=
  let n := s.newCoilId
  let t := n.2.deviceTask (BitVec.ofNat 16 (c.task.toNat / 2 ^ 48)) (dieOf c.core)
  let rc := s.newRecovery c n.1 t.1
  let s := { t.2 with nextId := t.2.nextId + 1 }.seatNew rc c.core
  match s.coil? n.1 with
  | none => s
  | some rc => let q := s.formRecovery rc; q.1.setCoil q.2

/-- COIL_PLACE: the next coil of a launch goes to a core; with no such launch, a recovery coil or a spawn coil that waits for the core does.
Nothing is placed while the firmware has stopped the queues. -/
def execCoilPlace (launch core : Nat) (s : State) : Answer :=
  if s.rsc.queuesStopped then .next s
  else
    match s.launches.find? (fun l => l.id = launch) with
    | some l => .next (if s.fits l.want core then s.placeLaunch l core else s)
    | none =>
      match s.recoveryFor.find? (fun c => s.fits (s.recoveryWant c) core) with
      | some c => .next (s.placeRecovery c)
      | none =>
        match s.spawns.find? (fun i => match s.itemWant i with | some w => s.fits w core | none => false) with
        | some i => .next (s.placeSpawn i core)
        | none => .next s

/-! ## COIL_RESTART (R194, R212) -/

/-- An MCC context on another core: its epilogues are those of the engines, so that of the engine it names as engself stays with it, in exchange
with that of the engine that is now its own (11_matrix.md R325; 19_programs_engines.md R481; log 131). -/
def MccCtx.moved (x : MccCtx) (src dst : Nat) : MccCtx :=
  { x with epi := (x.epi.set src (x.epilogue dst)).set dst (x.epilogue src) }

/-- COIL_RESTART: a saved coil that asks for it is placed again, if its frame is intact (08_memory.md R217). One that starts again from its launch
state takes nothing from its frame (07_work.md R196). -/
def execCoilRestart (coil core : Nat) (s : State) : Answer :=
  match s.coil? coil with
  | none => .next s
  | some c =>
    if s.rsc.queuesStopped || c.st ≠ .saved true || !s.fits (s.coilWant c) core then .next s
    else if c.priv.isSome && c.priv ≠ some (s.framePrivate c) then
      .next ((s.record (s.coilRec c 0x10C 0 0xFF)).killContext c.asid (some c.id) 0x10C)
    else .next ((s.seat { c with priv := none, mcc := c.mcc.map (fun x => x.moved (c.core % 4) (core % 4)) } core (s.freeCslot core) (if c.priv.isSome then c.blocks else [])).sgPlaced c.id)

/-! ## PREEMPTION (R193) -/

/-- Whether work outranks a coil, and that coil stands where it could go. -/
def State.outranks (s : State) (w : Want) (c : Coil) : Bool :=
  w.cores.contains c.core
  && (match w.recovery with
      | some i => c.id ≠ i
      | none => s.eligible w.asid w.rcb c.core && s.effPrio w.asid w.rcb > s.effPrio c.asid c.rcb)

/-- PREEMPTION: a coil makes way for work of a higher effective priority that no core can take. A recovery coil stays. -/
def execPreemption (coil : Nat) (s : State) : Answer :=
  match s.coil? coil with
  | none => .next s
  | some c =>
    if c.resident && !c.leaves && c.recOf.isNone
        && s.wants.any (fun w => s.outranks w c && !(List.range 256).any (fun k => s.fits w k)) then .next (s.preempt c)
    else .next s

/-! ## PACKING_WINDOW_EXPIRY (06_control.md R160; 07_work.md R199; 13_surrogate.md R378) -/

/-- The resident recovery coil on a core for which entries wait, and which has a window for one. -/
def State.recoveryJoin (s : State) (core : Nat) : Option Coil :=
  (s.onCore core).find? (fun c => c.recOf.isSome && s.recoveryWaits c && c.fibres.length < s.recoveryRoom c)

/-- A running spawn coil of a core with a free window, and an item of its RCB that waits there. -/
def State.spawnJoin (s : State) (core : Nat) : Option (Coil × SpawnItem) :=
  (s.onCore core).findSome? (fun c =>
    if c.packet.isNone && c.recOf.isNone && c.st = .running && c.freeIdx.isSome then (s.itemsOf core c.asid c.rcb).head?.map (fun i => (c, i)) else none)

/-- The packing window has passed on a core: every fibre held at a PACK leaves; or the entries, or the items, that the packing unit has
gathered become fibres of the resident coil of their kind. -/
def execPackingWindowExpiry (core : Nat) (s : State) : Answer :=
  match s.firstPack core with
  | some (c, pc) =>
    let p := s.releaseHeld c (c.heldAt pc .pack)
    .next (p.1.setCoil p.2)
  | none =>
    match s.recoveryJoin core with
    | some rc => let q := s.formRecovery rc; .next (q.1.setCoil q.2)
    | none =>
      match s.spawnJoin core with
      | none => .next s
      | some (c, i) =>
        let l := s.itemsOf core i.asid i.rcb
        let q := c.addItems l
        let p := (s.keepItems core i.asid i.rcb q.2.2).formPlaits q.1 (fun f => q.2.1.contains f.idx)
        .next ((p.1.setCoil p.2).itemAcquire core i.asid l)

/-! ## Queue slots (R181, R183, R185) -/

/-- A queue slot. -/
def State.qslot (s : State) (n : Nat) : QSlot := s.qslots.getD n QSlot.reset
/-- Puts a queue slot. -/
def State.setQslot (s : State) (n : Nat) (q : QSlot) : State := { s with qslots := s.qslots.set n q }

/-- The descriptor of a queue (R181). -/
structure QDesc where
  ring : BitVec 64
  size : Nat
  owner : BitVec 64
  write : Nat
  read : Nat
  slot : Nat
  clean : Bool
  deriving DecidableEq, Repr

/-- Reads a queue descriptor; none when it does not translate for the writes that a mapping makes. -/
def State.qdesc (s : State) (asid : BitVec 12) (va : BitVec 64) : Option QDesc :=
  match (s.translate asid va .write).1 with
  | .error _ => none
  | .ok x =>
    let l := s.peek x.pa 64
    let f (o n : Nat) : Nat := leNat ((l.drop o).take n)
    some { ring := BitVec.ofNat 64 (f 0 8), size := f 8 1, owner := BitVec.ofNat 64 (f 0x10 8), write := f 0x18 8, read := f 0x20 8, slot := f 0x28 2,
           clean := f 9 7 = 0 && f 0x2A 6 = 0 && f 0x30 16 = 0 }

/-- Whether a descriptor passes the checks of MAP, its SLOT aside. -/
def QDesc.ok (d : QDesc) : Bool := decide (4 ≤ d.size) && decide (d.size ≤ 24) && d.ring.toNat % 64 = 0 && d.owner.toNat % 64 = 0 && d.clean

/-- The last NOTIFY of a queue, through whatever slot it held: 0 for none. -/
def State.lastNotify (s : State) (asid : BitVec 12) (va : BitVec 64) : Nat :=
  s.qslots.foldl (fun m q => (q.seen.filter (fun e => e.1 = asid && e.2.1 = va)).foldl (fun m e => max m e.2.2) m) 0

/-- The MAP procedure, after its checks: SLOT is written, the slot takes the queue, and a NEW owner becomes ACTIVE (R180, R185), with FUTURE 0,
for no packet gives it one (DESIGN CHOICE, log 37). -/
def State.mapSlot (s : State) (n : Nat) (asid : BitVec 12) (va : BitVec 64) (d : QDesc) : State :=
  let s := s.vput asid (va + 0x28) 2 n
  let q := s.qslot n
  let s := s.setQslot n { q with mapped := true, held := true, casid := asid, cur := va, write := d.write, read := d.read,
                                 notified := s.lastNotify asid va }
  if s.rcbState asid d.owner = 0 then s.rcbActivate asid d.owner (s.rcbParent asid d.owner) 0 none (BitVec.ofNat 16 n) (n / 64) else s

/-- MAP, with its RESULT. -/
def State.mapOp (s : State) (n : Nat) (asid : BitVec 12) (va : BitVec 64) : Nat × State :=
  if (s.qslot n).mapped then (1, s)
  else
    match s.qdesc asid va with
    | none => (3, s)
    | some d => if d.ok && d.slot = 0xFFFF then (0, s.mapSlot n asid va d) else (2, s)

/-- UNMAP, with its RESULT. -/
def State.unmapOp (s : State) (n : Nat) : Nat × State := if (s.qslot n).mapped then (0, s.unmap n) else (1, s)

/-- A write of QSLOTCTL; its operation ends at once, and GO reads 0. -/
def State.writeQslotctl (s : State) (n : Nat) (w : DWord) : State :=
  if n ≥ 256 then s
  else
    let asid := BitVec.ofNat 12 (w.toNat / 2 ^ 20)
    let op := BitVec.ofNat 2 (w.toNat / 2)
    let s := s.setQslot n { s.qslot n with asid := asid, op := op }
    let done (r : Nat × State) : State := r.2.setQslot n { r.2.qslot n with result := BitVec.ofNat 3 r.1 }
    if !w.getLsbD 0 then s
    else if op = 1 then done (s.mapOp n asid ((s.qslot n).desc &&& ~~~0x3F))
    else if op = 2 then done (s.unmapOp n)
    else s

/-- MAP: a write of QSLOTCTL with OP 1. -/
def execMapQueue (slot : Nat) (w : BitVec 64) (s : State) : Answer :=
  s.fromApp (fun s => if w.toNat / 2 % 4 = 1 then s.writeQslotctl slot w else s)
/-- UNMAP: a write of QSLOTCTL with OP 2. -/
def execUnmapQueue (slot : Nat) (w : BitVec 64) (s : State) : Answer :=
  s.fromApp (fun s => if w.toNat / 2 % 4 = 2 then s.writeQslotctl slot w else s)

/-! ## The registry (R185) -/

/-- An entry of the queue registry: its place, its bytes as a number. -/
def State.regEntry (s : State) (i : Nat) : Nat := leNat (s.peek (s.regs.qreg.toNat / 2 ^ 16 * 2 ^ 16 + 16 * i) 16)

/-- A slot of a die for a queue with work: a free one, or the mapped one without work whose last NOTIFY is the oldest, which is unmapped. -/
def State.slotFor (s : State) (die : Nat) : Option Nat :=
  let l := (List.range 64).map (fun k => 64 * die + k)
  match l.find? (fun n => !(s.qslot n).mapped) with
  | some n => some n
  | none =>
    (l.filter (fun n => (s.qslot n).write = (s.qslot n).read)).foldl (fun b n =>
      match b with
      | none => some n
      | some k => if (s.qslot n).notified < (s.qslot k).notified then some n else some k) none

/-- One entry at a scan. An entry that fails the checks is named by one record until it changes, is no longer valid, or passes them. A queue that is
mapped leaves its slot's QSLOTDESC and ASID naming it, and RESULT 0, as MAP would (DESIGN CHOICE, log 132). -/
def State.scanEntry (s : State) (die i : Nat) : State :=
  let e := s.regEntry i
  let va := BitVec.ofNat 64 e
  let asid := BitVec.ofNat 12 (e / 2 ^ 64)
  let clean (s : State) : State := { s with scanned := s.scanned.filter (fun k => k / 2 ^ 128 ≠ i) }
  if e / 2 ^ 79 % 2 = 0 then clean s
  else if e / 2 ^ 80 % 256 ≠ die then s
  else
    let bad (s : State) : State :=
      let key := i * 2 ^ 128 + e
      if s.scanned.contains key then s
      else
        let s := { s with scanned := key :: s.scanned.filter (fun k => k / 2 ^ 128 ≠ i) }
        s.record { Rec.plain 0x20E 9 (locDie die 0xFF) with asid := some asid, addr := some va, aux := BitVec.ofNat 32 i }
    match s.qdesc asid va with
    | none => bad s
    | some d =>
      if !d.ok || va.toNat % 64 ≠ 0 then bad s
      else
      let s := clean s
      if d.slot ≠ 0xFFFF || d.write ≤ d.read then s
      else
        match s.slotFor die with
        | none => s
        | some n =>
          let s := s.unmap n
          (s.setQslot n { s.qslot n with desc := va, asid := asid, result := 0 }).mapSlot n asid va d

/-- REGISTRY_SCAN of a die. -/
def execRegistryScan (die : Nat) (s : State) : Answer :=
  .next ((List.range (min 4096 (s.regs.qreg.toNat % 8192))).foldl (fun s i => s.scanEntry die i) s)

/-! ## QUEUE_PACKET_CONSUME (R16, R182, R183) -/

/-- The record of a packet that is skipped (15_system.md R406, R419). -/
def State.packetRec (s : State) (n : Nat) (q : QSlot) (owner : BitVec 64) (code : Nat) : Rec :=
  { Rec.plain code 9 (locDie (n / 64) 0xFF) with
    asid := some q.casid, rcb := some (s.rcbId q.casid owner), task := some (BitVec.ofNat 64 (n * 2 ^ 48 + q.read % 2 ^ 48)) }

/-- QUEUE_PACKET_CONSUME: the next packet of a slot is read and accepted, or recorded and skipped; READ advances. -/
def execQueuePacketConsume (slot : Nat) (s : State) : Answer :=
  let q := s.qslot slot
  if s.rsc.queuesStopped || !q.mapped || q.read ≥ q.write then .next s
  else
    match s.qdesc q.casid q.cur with
    | none => .next s
    | some d =>
      let at_ := d.ring + BitVec.ofNat 64 (64 * (q.read % 2 ^ d.size))
      let r := s.vread q.casid at_ 64
      let s := match r.1 with
        | .error f => r.2.record { s.packetRec slot q d.owner f.code.toNat with addr := some f.addr }
        | .ok l =>
          match r.2.acceptLaunch q.casid (BitVec.ofNat 512 (leNat l)) d.owner (BitVec.ofNat 16 slot) (some q.read) (slot / 64) true with
          | .error code => r.2.record (s.packetRec slot q d.owner code)
          | .ok s => s
      .next ((s.setQslot slot { q with read := q.read + 1 }).vput q.casid (q.cur + 0x20) 8 (q.read + 1))

/-! ## Invalidations and drains (08_memory.md R231; 10_copy_gather.md R302) -/

/-- A write of TLBINVC: the L1 lines that it covers are dropped; GO reads 1 while stores still wait. -/
def State.writeTlbinvc (s : State) (w : DWord) : State :=
  if s.regs.tlbinvc.getLsbD 13 then s
  else
    let s := { s with regs := { s.regs with tlbinvc := w &&& 0x3FFF } }
    if !w.getLsbD 13 then s
    else { s with l1 := s.l1.filter (fun e => !(e.asid = w.setWidth 12 && s.tlbCovers (BitVec.ofNat 64 (32 * e.vsec)) e.big)) }.endTlb

/-- TLB_INVALIDATE: a write of TLBINVC with GO. -/
def execTlbInvalidate (w : BitVec 64) (s : State) : Answer := s.fromApp (fun s => if w.getLsbD 13 then s.writeTlbinvc w else s)

/-- A write of GSDRAIN: accepted commands of the ASID are to stop. -/
def State.writeGsdrain (s : State) (w : DWord) : State :=
  if s.regs.gsdrain.getLsbD 13 then s
  else
    let s := { s with regs := { s.regs with gsdrain := w &&& 0x2FFF } }
    if !w.getLsbD 13 then s
    else { s with copies := s.copies.map (fun (k : CopyCmd) => if k.asid = w.setWidth 12 then { k with drain := true } else k) }.endDrain

/-- GSDRAIN: a write of the register with GO. -/
def execGsdrain (w : BitVec 64) (s : State) : Answer := s.fromApp (fun s => if w.getLsbD 13 then s.writeGsdrain w else s)

/-! ## SIDE_ECC_LOW (08_memory.md R247) -/

/-- SIDE_ECC_LOW: less than 1/64 of a die's side table is free. -/
def execSideEccLow (die : Nat) (s : State) : Answer :=
  let cap := s.sideCapacity die
  if 64 * (cap - (s.sideFrames die).length) < cap then .next (s.record (Rec.plain 0x807 7 (locDie die 0xFF))) else .next s

end Sys2Proof.Machine
end

