-- ==== Sys2Proof/Machine/Window.lean ====
section
/-! DEFINITION. The register window (17_module.md R457): what a write of each register does and what a read answers, the reply to a system call
(15_system.md R423), interrupt status (17_module.md R458), and the debugger's access to a stopped coil (R467). -/

namespace Sys2Proof.Machine

/-! ## DBGSEL and DBGDATA (R467) -/

/-- Whether the lifecycle opens DBGSEL and DBGDATA (17_module.md R465). -/
def State.dbgOpen (s : State) : Bool := [1, 3, 4].contains (s.regs.lifecycle.toNat % 8)

/-- The fields of DBGSEL. -/
def State.dbgItem (s : State) : Nat := s.regs.dbgsel.toNat / 2 ^ 28 % 16
def State.dbgFibre (s : State) : Nat := s.regs.dbgsel.toNat / 2 ^ 16 % 1024
def State.dbgIndex (s : State) : Nat := s.regs.dbgsel.toNat % 2 ^ 16

/-- The coil that the debugger reaches: the one DBGSEL names, if it is STOPPED and the lifecycle allows it. -/
def State.dbgCoil (s : State) : Option Coil :=
  match s.coil? (s.regs.dbgsel.toNat / 2 ^ 32) with
  | some c => if s.dbgOpen && c.st = .stopped then some c else none
  | none => none

/-- An 8-byte word of a wide register. -/
def wordOf {w : Nat} (x : BitVec w) (i : Nat) : DWord := BitVec.ofNat 64 (x.toNat / 2 ^ (64 * i))
/-- Puts an 8-byte word of a wide register. -/
def putWord {w : Nat} (x : BitVec w) (i : Nat) (v : DWord) : BitVec w :=
  BitVec.ofNat w (x.toNat % 2 ^ (64 * i) + v.toNat * 2 ^ (64 * i) + x.toNat / 2 ^ (64 * (i + 1)) * 2 ^ (64 * (i + 1)))

/-- What DBGDATA reads of a stopped coil: item, fibre or register number, index. -/
def Coil.dbgRead (c : Coil) (item f i : Nat) : DWord :=
  let fib (g : Fibre → DWord) : DWord := ((c.fibre? f).map g).getD 0
  if item = 0 then fib (fun x => (x.getV i).setWidth 64)
  else if item = 1 then (c.getS i).setWidth 64
  else if item = 2 then fib (fun x => x.p.setWidth 64)
  else if item = 3 then fib Fibre.pc
  else if item = 4 then fib (fun x => x.fstat.setWidth 64)
  else if item = 5 then if i < 8192 then ((c.tile? f).map (fun t => leDWord (t.read (8 * i) 8))).getD 0 else 0
  else if item = 6 then c.b.getD i 0
  else if item = 7 then if i < 2 then wordOf (c.m.getD f 0) i else 0
  else if item = 8 then if i < 8192 then ((c.acc? f).map (fun a => DWord.ofWords (a.get (2 * i + 1)) (a.get (2 * i)))).getD 0 else 0
  else if item = 9 then if i < 4 then wordOf (c.sm.getD f 0) i else 0
  else if item = 10 then c.q.getD f 0
  else 0

/-- An accumulator with one element replaced. -/
def Acc.putElem (a : Acc) (k : Nat) (x : Word) : Acc := { a with elems := (k, x) :: a.elems.filter (fun e => e.1 ≠ k) }

/-- A write of one word of an sm register: reserved bits stay 0 (03_integer.md R89), and positions that the new pattern no longer has are reduced,
as SMSET reduces them (R90, R91; DESIGN CHOICE, log 134: the spec says of SMSET only what happens to them). -/
def Coil.dbgSm (c : Coil) (n i : Nat) (v : DWord) : Coil :=
  let w := putWord (c.sm.getD n 0) i (if i = 3 then v &&& 0xFFFFFFFFFFFF else v)
  { c with sm := c.sm.set n w, fibres := c.fibres.map (fun f => f.setPos n (f.posOf n % smTotal w)) }

/-- What a write of DBGDATA does to a stopped coil. A PC keeps its alignment (log 38). -/
def Coil.dbgWrite (c : Coil) (item f i : Nat) (v : DWord) : Coil :=
  if item = 0 then c.onFibre f (fun x => if i < c.window then x.setV i v.lo else x)
  else if item = 1 then c.setS i v.lo
  else if item = 2 then c.onFibre f (fun x => { x with p := v.setWidth 16 ||| 1 })
  else if item = 3 then c.onFibre f (fun x => { x with pc := v &&& ~~~3 })
  else if item = 4 then c.onFibre f (fun x => { x with fstat := v.lo &&& 0x7FF })
  else if item = 5 then
    match c.tile? f with
    | some t => if i < 8192 then c.putTile (t.write (8 * i) (leBytes 8 v.toNat) false) else c
    | none => c
  else if item = 6 then { c with b := c.b.set i v }
  else if item = 7 then if i < 2 then { c with m := c.m.set f (putWord (c.m.getD f 0) i v) } else c
  else if item = 8 then
    match c.acc? f with
    | some a => if i < 8192 then c.putAcc ((a.putElem (2 * i) v.lo).putElem (2 * i + 1) v.hi) else c
    | none => c
  else if item = 9 then if i < 4 && f < 8 then c.dbgSm f i v else c
  else if item = 10 then { c with q := c.q.set f v }
  else c

/-- What a read of DBGDATA answers. -/
def State.dbgData (s : State) : DWord := (s.dbgCoil.map (fun c => c.dbgRead s.dbgItem s.dbgFibre s.dbgIndex)).getD 0

/-- A write of DBGDATA. A plait whose fibres come to stand at more than one PC splits. -/
def State.writeDbgdata (s : State) (v : DWord) : State :=
  match s.dbgCoil with
  | none => s
  | some c =>
    let d := c.dbgWrite s.dbgItem s.dbgFibre s.dbgIndex v
    let p := match (c.fibre? s.dbgFibre).map Fibre.place with | some pl => s.split d pl | none => (s, d)
    p.1.setCoil p.2

/-- What leaves the package as an answer. -/
def State.answers (s : State) (d : List Byte) : State := { s with out := s.out ++ [.answer d] }

/-- DBGDATA_ACCESS: a read is answered; a write changes the coil. -/
def execDbgdataAccess (w : Option (BitVec 64)) (s : State) : Answer :=
  s.fromApp (fun s =>
    match w with
    | none => s.answers (leBytes 8 s.dbgData.toNat)
    | some v => s.writeDbgdata v)

/-! ## The reply to a system call (15_system.md R423) -/

/-- The record of an application core (15_system.md R490). -/
def appRec (app : Nat) (code : Nat) : Rec := Rec.plain code 11 (locDie (app / 4) (0x40 + app))

/-- A write of SYSRVAL: the future at SYSRADDR is resolved. -/
def State.writeSysrval (s : State) (app : Nat) (x : DWord) : State :=
  let asid := (s.regs.sysrasid.getD app 0).setWidth 12
  let a := s.regs.sysraddr.getD app 0
  let r := { appRec app 0 with asid := some asid }
  match s.resolve asid a 0 r 1 x none with
  | .done s => s
  | .settled s => s.deferred { r with detail := x } 0x206 a
  | .bad f s => s.record { r with code := 0x105, sev := 3, addr := some f.addr }

/-- SYSRVAL_WRITE. -/
def execSysrvalWrite (app : Nat) (x : BitVec 64) (s : State) : Answer := s.fromApp (fun s => if app < 16 then s.writeSysrval app x else s)

/-! ## INTSTAT (R458) -/

/-- A write of INTSTAT clears the bits that are written as 1. -/
def State.writeIntstat (s : State) (w : DWord) : State := { s with regs := { s.regs with intstat := s.regs.intstat &&& ~~~(w.setWidth 4) } }

/-- INTSTAT_WRITE. -/
def execIntstatWrite (w : BitVec 64) (s : State) : Answer := s.fromApp (State.writeIntstat · w)

/-! ## Device resets (17_module.md R463, R470) -/

/-- Whether an image is accepted: both signatures verify, and its version is not rolled back (R463). -/
def bootOk (image : List Byte) : Bool :=
  Config.ecdsaOk image (Config.fwSigs image).1 && Config.lmsOk image (Config.fwSigs image).2 && decide (Config.rollback ≤ Config.fwVersion image)

/-- The n of SIDE_ECC_FRACTION 1/n that a boot sets, between 8 and 64 (08_memory.md R247). -/
def sideFractionOf (k : Nat) : Nat := max 8 (min 64 (Config.sideFraction k))

/-- LIFECYCLE after a reset: DEBUG_UNLOCKED goes back to PRODUCTION (R465). -/
def lifecycleAfter (w : DWord) : DWord := if w.toNat % 8 = 3 then w - 1 else w

/-- A device reset with a cause and a code (R470), and the boot that follows (R463), which leaves out the retired pseudo-channels
and pages (01_machine.md R22, R23). What leaves the package, what is still to come from outside
and the model's own counters go on. A boot that stops before its fourth stage has written no CORES_AVAIL and no MEM_AVAIL (log 20). -/
def State.resetDevice (s : State) (cause code : Nat) : State :=
  let r := State.reset
  let d := s.draw
  let side := sideFractionOf d.1
  let life := lifecycleAfter s.regs.lifecycle
  let image := s.rsc.pending.getD (bootImage 0)
  let one := life.toNat % 8 ≠ 5
  let two := one && bootOk image
  let all := two && bootOk (bootImage 1) && bootOk (bootImage 2)
  let m := bootMeasures image (life.toNat % 8)
  let mr := if all then m else if two then m.set 1 0 |>.set 2 0 else List.replicate 8 0
  let regs := { r.regs with
                  coresAvail := if two then s.rsc.cores else 0, memAvail := if two then memAvailOf s.rsc.pchs s.rsc.pages side else List.replicate 13 0, lifecycle := life, sideEcc := side,
                  resetcause := BitVec.ofNat 64 (code * 2 ^ 32 + cause) }
  let t := { r with
    regs := regs, rsc := { r.rsc with mr := mr, booted := all, pending := s.rsc.pending, image := s.rsc.pending, cores := s.rsc.cores, pchs := s.rsc.pchs, pages := s.rsc.pages }
    out := s.out, inputs := s.inputs, rr := s.rr, free := d.2.free, nextId := s.nextId }
  { t with buckets := List.replicate 256 { tokens := t.pwrDepth * t.pwrUnits, waiting := [] } }

/-- SOFTWARE: a write of the key value to RSTREQ. -/
def execSoftwareReset (w : BitVec 64) (s : State) : Answer := s.fromApp (fun s => if w = 0x52535431 then s.resetDevice 4 0 else s)

/-! ## Register writes (R457) -/

/-- Puts a device register that is only stored. -/
def State.onRegs (s : State) (f : DevRegs → DevRegs) : State := { s with regs := f s.regs }

/-- A field value, or the old one when it lies outside its range. -/
def inRange (lo hi new old : Nat) : Nat := if lo ≤ new && new ≤ hi then new else old

/-- A write of ERRQCTL: HEAD starts at 0 when EN goes from 0 to 1 (15_system.md R407). -/
def State.writeErrqctl (s : State) (w : DWord) : State :=
  let old := s.regs.errqctl.toNat
  let size := inRange 10 20 (w.toNat / 16 % 32) (old / 16 % 32)
  let on := w.getLsbD 0
  s.onRegs (fun r => { r with errqctl := BitVec.ofNat 64 (old / 2 ^ 32 * 2 ^ 32 + size * 16 + if on then 1 else 0)
                              errqhead := if on && old % 2 = 0 then 0 else r.errqhead })

/-- A write of PROFCTL (15_system.md R436). When EN goes to 1, and when K changes (log 27), the first tick is the next multiple of 2^K
(R437). -/
def State.writeProfctl (s : State) (w : DWord) : State :=
  let s := s.tick
  let old := s.regs.profctl.toNat
  let k := inRange 10 24 (w.toNat / 2 % 32) (old / 2 % 32)
  let log := inRange 0 16 (w.toNat / 256 % 32) (old / 256 % 32)
  let goesOn := w.getLsbD 0 && old % 2 = 1 && k = old / 2 % 32
  s.onRegs (fun r => { r with profctl := BitVec.ofNat 64 (log * 256 + k * 2) ||| (w &&& 0x41)
                              profNext := if goesOn then r.profNext else s.refclk / 2 ^ k + 1
                              profOpen := goesOn && r.profOpen })

/-- A write of SGCTL: DIS is cleared by a 0, and never set (13_surrogate.md R383). -/
def sgctlAfter (old w : DWord) : DWord := (w &&& 0xFFFFFFFF00000002) ||| (old &&& w &&& 1)

/-- Puts SGCTL or SGVTOTAL: DIS rises where the total is over the limit (13_surrogate.md R383; log 86). -/
def State.writeSg (s : State) (f : DevRegs → DevRegs) : State := (s.onRegs f).sgLimit (Rec.plain 0x606 6 (locDie 0 0xFF))

/-- A write of PWRCTL (17_module.md R468). -/
def pwrctlAfter (w : DWord) : DWord :=
  let pkgw := min 3600 (w.toNat / 2 ^ 32 % 2 ^ 16)
  let depth := max 1 (w.toNat / 2 ^ 16 % 256)
  BitVec.ofNat 64 (pkgw * 2 ^ 32 + w.toNat / 2 ^ 24 % 256 * 2 ^ 24 + depth * 2 ^ 16)

/-- A write of device register n of 15_system.md R425. -/
def State.writeDevice (s : State) (n : Nat) (w : DWord) : State :=
  if n = 0x38 then s.onRegs (fun r => { r with errqbase := w &&& ~~~0xFFFF })
  else if n = 0x39 then s.writeErrqctl w
  else if n = 0x3B then s.onRegs (fun r => { r with errqtail := w })
  else if n = 0x40 then s.writeProfctl w
  else if n = 0x41 then s.onRegs (fun r => { r with profbase := w &&& ~~~0xFFFF })
  else if n = 0x48 then s.writeSg (fun r => { r with sgctl := sgctlAfter r.sgctl w })
  else if n = 0x49 then s.writeSg (fun r => { r with sgvtotal := w })
  else if n = 0x50 then s.onRegs (fun r => { r with survbase := w &&& ~~~0xFFFF })
  else if n = 0x51 then s.writeSurvctl w
  else if n = 0x58 then s.writeGsdrain w
  else if n = 0x59 then s.writeTlbinvc w
  else if n = 0x5A then s.onRegs (fun r => { r with tlbinva := w &&& 0x01FFFFFFFFFF0000 })
  else if n = 0x5B then s.onRegs (fun r => { r with asidtab := w })
  else if n = 0x60 then s.writeCoilcmd w
  else s

/-- A write of a module register at an offset from 0x04_0000. -/
def State.writeModule (s : State) (o : Nat) (w : DWord) : State :=
  if o = 0x00 then (s.onRegs (fun r => { r with pwrctl := pwrctlAfter w })).clampBuckets
  else if o = 0x10 then s.onRegs (fun r => { r with linktmo := w.setWidth 24 })
  else if o = 0x18 then s.writeIntstat w
  else if 0x20 ≤ o && o < 0x40 then s.onRegs (fun r => { r with introute := r.introute.set ((o - 0x20) / 8) (w &&& 0x1FFFF) })
  else if o = 0x40 then if s.dbgOpen then s.onRegs (fun r => { r with dbgsel := w &&& 0xFFFFFFFFF3FFFFFF }) else s
  else if o = 0x48 then s.writeDbgdata w
  else if o = 0x50 then if w = 0x52535431 then s.resetDevice 4 0 else s
  else if o = 0x58 then s.onRegs (fun r => { r with osrtbase := w })
  else if o = 0x60 then s.onRegs (fun r => { r with pciasid0 := w &&& 0x000FFFFFFFFF0000 })
  else if o = 0x68 then s.onRegs (fun r => { r with pciasid1 := w &&& 0x000FFFFFFFFF0000 })
  else if o = 0x78 then s.onRegs (fun r => { r with qreg := w &&& 0xFFFFFFFFFFFF1FFF })
  else s

/-- A write of a register of core k (07_work.md R210). -/
def State.writeCore (s : State) (k o : Nat) (w : DWord) : State :=
  let r := s.coreRegs k
  if o = 0 then s.setCoreRegs k { r with pkwait := w.toNat % 32 }
  else if o = 8 then s.setCoreRegs k { r with agelog := inRange 4 10 (w.toNat % 16) r.agelog }
  else s

/-- A write of a register of application core a (15_system.md R423). -/
def State.writeApp (s : State) (a o : Nat) (w : DWord) : State :=
  if o = 0 then s.onRegs (fun r => { r with sysrasid := r.sysrasid.set a (w &&& 0xFFF) })
  else if o = 8 then s.onRegs (fun r => { r with sysraddr := r.sysraddr.set a w })
  else if o = 0x10 then s.writeSysrval a w
  else s

/-- A NOTIFY of a slot (07_work.md R183). -/
def State.writeNotify (s : State) (slot : Nat) (w : DWord) : State :=
  let q := s.qslot slot
  if slot ≥ 256 || !q.held then s
  else
    let old := s.vnat q.casid (q.cur + 0x18) 8
    let s := if w.toNat > old then s.vput q.casid (q.cur + 0x18) 8 w.toNat else s
    { s with nextId := s.nextId + 1 }.setQslot slot
      { q with write := if q.mapped then max q.write w.toNat else q.write, notified := s.nextId,
               seen := (q.casid, q.cur, s.nextId) :: q.seen.filter (fun e => !(e.1 = q.casid && e.2.1 = q.cur)) }

/-- A naturally aligned 8-byte store into the register window, at an offset from its base. Reserved offsets and read-only registers ignore it. -/
def State.writeWindow (s : State) (off : Nat) (w : DWord) : State :=
  if off % 8 ≠ 0 then s
  else if off < 0x10000 then s.writeDevice (off / 8) w
  else if off < 0x20000 then
    if off < 0x14000 && off % 0x1000 = 0 then
      s.onRegs (fun r => { r with qmapctl := r.qmapctl.set ((off - 0x10000) / 0x1000) (max 1 (w.toNat % 2 ^ 16)) })
    else s
  else if off < 0x30000 then if off < 0x24000 then s.writeCore ((off - 0x20000) / 0x40) (off % 0x40) w else s
  else if off < 0x40000 then if off < 0x30200 then s.writeApp ((off - 0x30000) / 0x20) (off % 0x20) w else s
  else if off < 0x50000 then s.writeModule (off - 0x40000) w
  else if off < 0x52000 then
    if off % 0x20 = 0 then s.writeQslotctl ((off - 0x50000) / 0x20) w
    else if off % 0x20 = 8 then
      s.setQslot ((off - 0x50000) / 0x20) { s.qslot ((off - 0x50000) / 0x20) with desc := w &&& ~~~0x3F }
    else s
  else if 0x100000 ≤ off && off < 0x200000 then if off % 0x1000 = 0 then s.writeNotify ((off - 0x100000) / 0x1000) w else s
  else s

/-- NOTIFY. -/
def execNotify (slot : Nat) (w : BitVec 64) (s : State) : Answer := s.fromApp (State.writeNotify · slot w)

/-- REGISTER_WRITE. -/
def execRegisterWrite (off : Nat) (w : BitVec 64) (s : State) : Answer := s.fromApp (State.writeWindow · off w)

/-! ## Register reads -/

/-- QSLOTCTL as it reads (07_work.md R185). -/
def QSlot.ctl (q : QSlot) : DWord :=
  BitVec.ofNat 64 (q.asid.toNat * 2 ^ 20 + (if q.mapped then 256 else 0) + q.result.toNat * 32 + q.op.toNat * 2)

/-- A module register as it reads. -/
def State.readModule (s : State) (o : Nat) : DWord :=
  let r := s.regs
  if o = 0x00 then r.pwrctl else if o = 0x08 then r.thermstat else if o = 0x10 then r.linktmo.setWidth 64 else if o = 0x18 then r.intstat.setWidth 64
  else if 0x20 ≤ o && o < 0x40 && o % 8 = 0 then r.introute.getD ((o - 0x20) / 8) 0
  else if o = 0x40 then if s.dbgOpen then r.dbgsel else 0 else if o = 0x48 then s.dbgData else if o = 0x58 then r.osrtbase
  else if o = 0x60 then r.pciasid0 else if o = 0x68 then r.pciasid1 else if o = 0x70 then BitVec.ofNat 64 r.sideEcc else if o = 0x78 then r.qreg
  else if 0x100 ≤ o && o < 0x190 && o % 8 = 0 then r.osierstat.getD ((o - 0x100) / 8) 0
  else 0

/-- What a naturally aligned 8-byte load from the register window answers; reserved offsets read 0. -/
def State.readWindow (s : State) (off : Nat) : DWord :=
  if off < 0x10000 then if 0x20 ≤ off / 8 && off / 8 ≤ 0x60 then s.deviceReg 0 (off / 8) else 0
  else if off < 0x20000 then if off < 0x14000 && off % 0x1000 = 0 then BitVec.ofNat 64 (s.regs.qmapctl.getD ((off - 0x10000) / 0x1000) 0) else 0
  else if off < 0x30000 then
    let r := s.coreRegs ((off - 0x20000) / 0x40)
    if off ≥ 0x24000 then 0 else if off % 0x40 = 0 then BitVec.ofNat 64 r.pkwait else if off % 0x40 = 8 then BitVec.ofNat 64 r.agelog else 0
  else if off < 0x40000 then
    if off ≥ 0x30200 then 0
    else if off % 0x20 = 0 then s.regs.sysrasid.getD ((off - 0x30000) / 0x20) 0
    else if off % 0x20 = 8 then s.regs.sysraddr.getD ((off - 0x30000) / 0x20) 0
    else 0
  else if off < 0x50000 then s.readModule (off - 0x40000)
  else if off < 0x52000 then
    let q := s.qslot ((off - 0x50000) / 0x20)
    if off % 0x20 = 0 then q.ctl else if off % 0x20 = 8 then q.desc else 0
  else 0

end Sys2Proof.Machine
end

