-- ==== Sys2Proof/Machine/Module.lean ====
section
/-! DEFINITION. The module boundary (17_module.md R458 to R470): agents outside the fibres that reach device memory (09_ordering.md R263), links,
resets, the management port, thermal and power events, retirement (01_machine.md R23), SRAM and register errors (15_system.md R416,
R418), the profiling stream (R437), and the faults that stand in the place of an instruction (02_encoding.md R27, R49). -/

namespace Sys2Proof.Machine

/-! ## Agents outside the fibres (09_ordering.md R263) -/

/-- The pieces of a physical range. A write keeps the coding that its sector has (08_memory.md R248). -/
def State.physSegs (s : State) (a n : Nat) : List Seg :=
  (pieces (n / 32 + 2) a n).map (fun p =>
    { va := BitVec.ofNat 64 p.1, pa := p.1, n := p.2, big := false, side := s.coding.any (fun e => e.1 = p.1 / 32 && e.2 = .side) })

/-- How many bytes an access covers. -/
def memBytes : MemAct → Nat
  | .load n => n
  | .store d => d.length
  | .amo _ wide _ => amoBytes wide
  | .fence => 0

/-- Whether an access writes. -/
def memWrites : MemAct → Bool
  | .store _ => true
  | .amo _ _ _ => true
  | _ => false

/-- Reads translated pieces, with no tenant key (08_memory.md R232; 14_survivable.md R394). -/
def State.loadSegs (s : State) (l : List Seg) : State :=
  l.foldl (fun s g => ((s.touchLine g.pa 0).healRange g.pa g.n).report) s

/-- Performs a write of translated pieces, with no tenant key. -/
def State.storeSegs (s : State) : List Seg → List Byte → State
  | [], _ => s
  | g :: r, d => (((s.touchLine g.pa 0).perform g.pa (d.take g.n) false g.side true).report).storeSegs r (d.drop g.n)

/-- An access from outside to translated pieces of memory, with no tenant key. A line held under another key is refused with MEM_TENANT
(08_memory.md R232), a write into the region of a replacement with SURV_STATE (14_survivable.md R390); each gives a record. -/
def State.outsideAct (s : State) (l : List Seg) (a : MemAct) (rec : Nat → Rec) : State :=
  let named (code : Nat) (g : Option Seg) : State :=
    s.record { rec code with sev := (codeSev code).1, act := (codeSev code).2, addr := g.map (fun g => BitVec.ofNat 64 g.pa) }
  match l.find? (fun g => s.keyClash g.pa 0) with
  | some g => named 0x109 (some g)
  | none =>
    match l.find? (fun g => memWrites a && s.refuses g.pa) with
    | some g => named 0x702 (some g)
    | none =>
      match a with
      | .fence => s
      | .load _ => let s := s.loadSegs l; s.answers (l.flatMap (fun g => s.peek g.pa g.n))
      | .store d => s.storeSegs l d
      | .amo op wide x =>
        match l with
        | [] => s
        | g :: _ =>
          let r := (s.touchLine g.pa 0).amo g.pa g.side true op.toNat wide x
          r.2.answers (leBytes (amoBytes wide) r.1.1.toNat)

/-- The base of the register window (17_module.md R457). -/
def windowBase : Nat := 0x000FFF0000000000

/-- An access of an application core to the register window: only naturally aligned 8-byte loads and stores reach a register, and any other access
raises an access fault there, with no effect (R457). -/
def State.windowAct (s : State) (app off : Nat) (a : MemAct) : State :=
  let fault : State := { s with out := s.out ++ [.accessFault app] }
  match a with
  | .load n => if n = 8 && off % 8 = 0 then s.answers (leBytes 8 (s.readWindow off).toNat) else fault
  | .store d => if d.length = 8 && off % 8 = 0 then s.writeWindow off (leDWord d) else fault
  | .amo _ _ _ => fault
  | .fence => s

/-- APPLICATION_CORE_MEMORY_ACCESS: physical addresses, at SYS scope. One that begins below the register window and reaches into it is none of the
accesses that reach a register. The application cores stay in reset until a boot has ended well (R463). -/
def execApplicationCoreMemoryAccess (app : Nat) (r : MemReq) (s : State) : Answer :=
  if app ≥ 16 || !s.rsc.booted then .next s
  else if windowBase ≤ r.addr.toNat && r.addr.toNat < windowBase + 2 ^ 24 then .next (s.windowAct app (r.addr.toNat - windowBase) r.act)
  else if r.addr.toNat < windowBase && windowBase < r.addr.toNat + memBytes r.act then .next { s with out := s.out ++ [.accessFault app] }
  else .next (s.outsideAct (s.physSegs r.addr.toNat (memBytes r.act)) r.act (appRec app))

/-- The pieces of an access in an address space. -/
def State.reqSegs (s : State) (asid : BitVec 12) (r : MemReq) : Except MemFault (List Seg) × State :=
  let n := memBytes r.act
  s.segsOf asid (if memWrites r.act then .write else .read) (pieces (n / 32 + 2) r.addr.toNat n)

/-- The die of an Osier port (01_machine.md R8). -/
def osierDie (port : Nat) : Nat := if port < 5 then 0 else if port < 9 then 1 else if port < 14 then 2 else 3
/-- The LOC word of an Osier port (15_system.md R490). -/
def osierLoc (port : Nat) : Word := locDie (osierDie port) port

/-- PEER_REQUEST: another device's access that comes through a port, translated here (08_memory.md R221). One that does not translate is not
answered. -/
def execPeerRequest (r : PeerReq) (s : State) : Answer :=
  match r.req.asid with
  | none => .next s
  | some asid =>
    let q := s.reqSegs asid r.req
    match q.1 with
    | .error _ => .next q.2
    | .ok l => .next (q.2.outsideAct l r.req.act (fun code => { Rec.plain code 8 (osierLoc r.port) with asid := some asid }))

/-! ## PCIe (R461) -/

/-- The die of a root port (01_machine.md R8). -/
def pciDie (port : Nat) : Nat := 2 * port
/-- The LOC word of a root port (15_system.md R490). -/
def pciLoc (port : Nat) : Word := locDie (pciDie port) (0x80 + port)

/-- PCIE_INBOUND_DMA: translated in the ASID that the port's table gives the requester, and performed; or completed with Unsupported Request, with a
record. -/
def execPcieInboundDma (port : Nat) (rid : BitVec 16) (r : MemReq) (s : State) : Answer :=
  let base := if port = 0 then s.regs.pciasid0 else s.regs.pciasid1
  let e := leNat (s.peek (base.toNat + 2 * rid.toNat) 2)
  let refuse (s : State) (asid : Option (BitVec 12)) (code : Nat) (a : BitVec 64) : State :=
    let s := s.record { Rec.plain code 7 (pciLoc port) with asid := asid, addr := some a }
    { s with out := s.out ++ [.unsupported port rid] }
  if port ≥ 2 then .next s
  else if e / 2 ^ 15 = 0 then .next (refuse s none 0x105 r.addr)
  else
    let asid := BitVec.ofNat 12 e
    let q := s.reqSegs asid r
    match q.1 with
    | .error f => .next (refuse q.2 (some asid) (if f.code = 0x104 then 0x104 else 0x105) f.addr)
    | .ok l => .next (q.2.outsideAct l r.act (fun code => { Rec.plain code 7 (pciLoc port) with asid := some asid }))

/-- PCIE_AER. -/
def execPcieAer (e : AerError) (s : State) : Answer :=
  if e.linkDown then .next ((s.record (Rec.plain 0x905 10 (pciLoc e.port))).interrupt 3)
  else
    .next (s.record { Rec.plain 0x907 10 (pciLoc e.port) with
      sev := if e.uncorrectable then 2 else 1
      detail := BitVec.ofNat 64 (e.status.toNat + e.requester.toNat * 2 ^ 32 + if e.uncorrectable then 2 ^ 63 else 0)
      aux := e.header })

/-- PCIE_PORT_STATE_CHANGE (R458). -/
def execPciePortStateChange (port : Nat) (s : State) : Answer := .next (if port < 2 then s.interrupt 3 else s)

/-! ## Osier ports (R459) -/

/-- OSIER_PORT_STATE_CHANGE. -/
def execOsierPortStateChange (port : Nat) (peer : BitVec 16) (lanes : BitVec 4) (state : BitVec 2) (s : State) : Answer :=
  if port ≥ 18 then .next s
  else
    let old := (s.regs.osierstat.getD port 0).toNat
    let new := BitVec.ofNat 64 (peer.toNat * 2 ^ 48 + old / 2 ^ 16 % 2 ^ 32 * 2 ^ 16 + lanes.toNat * 2 ^ 8 + state.toNat)
    let s := s.onRegs (fun r => { r with osierstat := r.osierstat.set port new })
    let s := if old % 4 = 2 && state ≠ 2 then s.record (Rec.plain 0x905 8 (osierLoc port)) else s
    .next (if old % 4 = state.toNat then s else s.interrupt 3)

/-- OSIER_FLIT_RECEIVE: a retried flit counts. -/
def execOsierFlitReceive (port : Nat) (retried : Bool) (s : State) : Answer :=
  let w := s.regs.osierstat.getD port 0
  let n := w.toNat / 2 ^ 16 % 2 ^ 32
  .next (if retried && n + 1 < 2 ^ 32 then s.onRegs (fun r => { r with osierstat := r.osierstat.set port (w + 0x10000) }) else s)

/-! ## Resets (R470) -/

/-- A record of the RSC or the firmware (15_system.md R490). -/
def fwRec (code : Nat) : Rec := Rec.plain code 10 (locDie 0 0xFF)

/-- POWER_ON. -/
def execPowerOn (s : State) : Answer := .next (s.resetDevice 1 0)
/-- PIN. -/
def execPinReset (s : State) : Answer := .next (s.resetDevice 2 0)
/-- RESET of the management port. -/
def execMgmtReset (s : State) : Answer := .next (s.resetDevice 3 0)
/-- WATCHDOG. -/
def execWatchdogReset (s : State) : Answer := .next (s.resetDevice 5 0)
/-- FW_FATAL. -/
def execFwFatal (code : BitVec 16) (s : State) : Answer :=
  .next ((s.record { fwRec 0x906 with detail := code.setWidth 64 }).resetDevice 7 0x906)

/-- Whether a lifecycle fuse leads from a state to another (R465). -/
def fuseLeads (old new : Nat) : Bool := (old = 1 && new = 2) || (old = 2 && new = 4) || (old = 4 && new = 5)

/-- FUSE_TRANSITION. -/
def execFuseTransition (state : BitVec 3) (s : State) : Answer :=
  let old := s.regs.lifecycle.toNat
  if fuseLeads (old % 8) state.toNat then
    .next ((s.onRegs (fun r => { r with lifecycle := BitVec.ofNat 64 (old / 8 * 8 + state.toNat) })).resetDevice 8 0)
  else .next s

/-! ## Power and temperature (R468, R469) -/

/-- POWER_BUCKET_REFILL. -/
def execPowerBucketRefill (s : State) : Answer :=
  .next { s with buckets := s.buckets.map (fun b => { b with tokens := min (s.pwrDepth * s.pwrUnits) (b.tokens + s.pwrUnits) }) }

/-- ISLAND_FREQUENCY_CHANGE: no result depends on it (01_machine.md R10; log 3). -/
def execIslandFrequencyChange (_island _mhz : Nat) (s : State) : Answer := .next s

/-- A die's temperature in THERMSTAT, in 1/16 °C. -/
def dieTemp (w : DWord) (die : Nat) : Int := (BitVec.ofNat 16 (w.toNat / 2 ^ (16 * die))).toInt

/-- A die enters or leaves its thermal limit. -/
def State.thermalDie (s : State) (die : Nat) : State :=
  let t := dieTemp s.regs.thermstat die
  let limited := s.rsc.throttled.contains die
  let note (s : State) : State := (s.record (fwRec 0x903)).interrupt 2
  if !limited && t ≥ 1600 then note { s with rsc := { s.rsc with throttled := die :: s.rsc.throttled } }
  else if limited && t < 1568 then note { s with rsc := { s.rsc with throttled := s.rsc.throttled.filter (fun d => d ≠ die) } }
  else s

/-- THERMSTAT_UPDATE: the temperatures; the limit at 100 °C until 98 °C; the trip at 110 °C. -/
def execThermstatUpdate (temps : BitVec 64) (s : State) : Answer :=
  let s := s.onRegs (fun r => { r with thermstat := temps })
  if (List.range 4).any (fun d => decide (dieTemp temps d ≥ 1760)) then .next ((s.record (fwRec 0x904)).resetDevice 6 0x904)
  else .next ((List.range 4).foldl State.thermalDie s)

/-! ## The management port (R462 to R466) -/

/-- CHALLENGE. Only ATTEST, RESET and FWUPDATE are answered after a boot that failed (R463). -/
def execChallenge (s : State) : Answer :=
  if !s.rsc.booted then .next s
  else
    let d := s.draw
    let n := Config.freshNonce d.1
    .next ({ d.2 with rsc := { d.2.rsc with nonce := some n } }.answers (leBytes 48 n.toNat))

/-- The report of R464 over a nonce: nonce, DEVID, LIFECYCLE, MR0 to MR7, and the versions of the firmware that the last boot took. -/
def State.report (s : State) (nonce : BitVec 384) : List Byte :=
  leBytes 48 nonce.toNat ++ leBytes 16 Config.devid.toNat ++ leBytes 8 s.regs.lifecycle.toNat ++ s.rsc.mr.flatMap (fun m => leBytes 48 m.toNat)
  ++ (List.range 3).flatMap (fun k => leBytes 8 (Config.fwVersion (if k = 0 then s.rsc.image.getD (bootImage 0) else bootImage k)))

/-- ATTEST. -/
def execAttest (nonce : BitVec 384) (s : State) : Answer :=
  .next (s.answers (s.report nonce ++ Config.attestSign (s.rsc.mr.getD 0 0) (s.report nonce)))

/-- The signed fields of an unlock token (R466). -/
def tokenFields (t : Token) : List Byte := leBytes 16 t.devid.toNat ++ leBytes 1 t.state.toNat ++ leBytes 48 t.nonce.toNat
/-- The bytes of an unlock token. -/
def tokenBytes (t : Token) : List Byte := tokenFields t ++ t.ecdsa ++ t.lms

/-- Whether a token is accepted. -/
def State.tokenOk (s : State) (t : Token) : Bool :=
  Config.ecdsaOk (tokenFields t) t.ecdsa && Config.lmsOk (tokenFields t) t.lms && t.devid = Config.devid && t.state = 2 && s.regs.lifecycle.toNat % 8 = 2
  && s.rsc.nonce = some t.nonce

/-- A sector that no key but those wiped could decipher is unreadable until it is rewritten: its bytes are free. What a fill under a wiped key gave
is as memory holds it (R466). -/
def State.wipeSector (s : State) (e : SecKey) : State :=
  match e.orig with
  | some (k, d) => if k = 0 then (s.poke (32 * e.sec) d).setSkey { sec := e.sec, key := 0, orig := none } else s.setSkey { sec := e.sec, key := 0, orig := none }
  | none =>
    if e.key = 0 then s
    else
      let d := s.draw
      (d.2.poke (32 * e.sec) ((List.range 32).map (fun i => Config.wrongKeyByte d.1 (32 * e.sec + i)))).setSkey { sec := e.sec, key := 0, orig := none }

/-- The lines of the L2 whose TKEY a test picks are dropped, and with them what the L1s hold of them. -/
def State.dropTenant (s : State) (p : Nat → Bool) : State :=
  let l := (s.l2keys.filter (fun e => p e.tkey)).map L2Key.line
  { s with l2keys := s.l2keys.filter (fun e => !p e.tkey), l1 := s.l1.filter (fun x => !l.contains (x.psec / 8)) }

/-- Every tenant key goes, with all that was written under one (R466, step 3). -/
def State.wipeKeys (s : State) : State :=
  let t := s.skeys.foldl State.wipeSector (s.dropTenant (fun k => k ≠ 0))
  { t with rsc := { t.rsc with tkeys := [] } }

/-- Every context is killed, with a COIL_KILLED record for each coil (R466, step 2). -/
def State.killAll (s : State) : State :=
  let s := (s.alive.filter (fun c => c.recOf.isNone)).foldl
    (fun s c => (s.record { s.coilRec c 0x20D 0 0xFF with act := 3 }).removeCoil c) s
  let s := ((s.coils.map Coil.asid ++ s.rcbs.map RcbCtx.asid ++ (s.qslots.filter QSlot.mapped).map QSlot.casid).eraseDups).foldl
    (fun s a => s.killContext a none 0x20D) s
  { s with copies := s.copies.map (fun (k : CopyCmd) => { k with drain := true }), rsc := { s.rsc with queuesStopped := true } }

/-- UNLOCK. -/
def execUnlock (token : Token) (s : State) : Answer :=
  if !s.rsc.booted || !s.tokenOk token then .next s
  else
    let s := { s with rsc := { s.rsc with nonce := none } }.killAll.wipeKeys
    let mr7 := mrExtend (s.rsc.mr.getD 7 0) (leBytes 48 (Config.sha384 (tokenBytes token)).toNat)
    let old := s.regs.lifecycle.toNat
    let life := BitVec.ofNat 64 (min 255 (old / 256 % 256 + 1) * 256 + 3)
    .next { s with rsc := { s.rsc with mr := s.rsc.mr.set 7 mr7 }, regs := { s.regs with lifecycle := life } }

/-- FWUPDATE: the image takes effect at the next reset. -/
def execFwupdate (image : List (BitVec 8)) (s : State) : Answer := .next { s with rsc := { s.rsc with pending := some image } }

/-- TELEMETRY. -/
def execTelemetry (s : State) : Answer :=
  if !s.rsc.booted then .next s
  else .next (s.answers (leBytes 8 s.regs.thermstat.toNat ++ leBytes 8 s.regs.pwrctl.toNat ++ leBytes 8 s.regs.resetcause.toNat))

/-- Puts a key into a tenant key slot, whose lines the L2 has written back and dropped; a key of zeros leaves the slot without one. -/
def State.setKey (s : State) (slot : Nat) (key : BitVec 512) : State :=
  let s := s.dropTenant (fun k => k = slot)
  let rest := s.rsc.tkeys.filter (fun e => e.1 ≠ slot)
  { s with rsc := { s.rsc with tkeys := if key = 0 then rest else (slot, key) :: rest } }

/-- KEYLOAD: in PRODUCTION only. -/
def execKeyload (slot : Nat) (key : BitVec 512) (s : State) : Answer :=
  .next (if s.rsc.booted && s.regs.lifecycle.toNat % 8 = 2 && 1 ≤ slot && slot ≤ 255 then s.setKey slot key else s)

/-- KEYZERO. -/
def execKeyzero (slot : Nat) (s : State) : Answer := .next (if s.rsc.booted && 1 ≤ slot && slot ≤ 255 then s.setKey slot 0 else s)

/-- MEASUREMENT_EXTENSION: MR3 to MR6, at most 4096 times per boot. -/
def execMeasurementExtension (reg : Nat) (digest : BitVec 384) (s : State) : Answer :=
  if !s.rsc.booted || reg < 3 || reg > 6 || s.rsc.recorded ≥ 4096 then .next s
  else
    .next { s with rsc := { s.rsc with mr := s.rsc.mr.set reg (mrExtend (s.rsc.mr.getD reg 0) (leBytes 48 digest.toNat)), recorded := s.rsc.recorded + 1 } }

/-! ## Retirement (01_machine.md R23, R24) -/

/-- Each RCB with work that waits reports that it has no eligible core. -/
def State.checkAllCores (s : State) : State :=
  (s.wants.map (fun w => (w.asid, w.rcb))).eraseDups.foldl (fun s w => s.checkCores w.1 w.2) s

/-- UNIT_RETIRED: a core, or the four cores of a cluster. -/
def execUnitRetired (cluster : Bool) (n : Nat) (s : State) : Answer :=
  let gone := if cluster then (List.range 4).map (fun k => 4 * n + k) else [n]
  if gone.any (fun k => k ≥ 256) then .next s
  else
    let clear (w : BitVec 256) : BitVec 256 := gone.foldl (fun w k => putBit w k false) w
    let s := { s with regs := { s.regs with coresAvail := clear s.regs.coresAvail }, rsc := { s.rsc with cores := clear s.rsc.cores } }
    .next ((s.record (fwRec 0x809)).checkAllCores)

/-- PAGE_RETIRED: a page, or a pseudo-channel of a stack. The retirement is kept (17_module.md R470), and MEM_AVAIL, which boot firmware writes,
shows it from the next reset on. -/
def execPageRetired (stack pch : Nat) (page : Option (BitVec 64)) (s : State) : Answer :=
  match page with
  | some a =>
    .next ({ s with rsc := { s.rsc with pages := a.toNat / 65536 :: s.rsc.pages.filter (fun p => p ≠ a.toNat / 65536) } }.record
      { fwRec 0x80A with addr := some a })
  | none =>
    if stack ≥ 12 || pch ≥ 64 then .next s
    else .next ({ s with rsc := { s.rsc with pchs := (stack, pch) :: s.rsc.pchs.filter (fun p => p ≠ (stack, pch)) } }.record (fwRec 0x80A))

/-! ## Errors in registers and SRAM (15_system.md R416, R418) -/

/-- REGFILE_LATENT: an uncorrectable error in a register that no lane reads. -/
def execRegfileLatent (coil : Nat) (fibre : Option Nat) (reg : Nat) (s : State) : Answer :=
  match s.coil? coil with
  | none => .next s
  | some c =>
    let c' := match fibre with
      | some f => c.onFibre f (fun x => if reg < c.window then x.taint reg .latent else x)
      | none => if reg < 64 then c.taint reg .latent else c
    .next ((s.setCoil c').record { s.coilRec c 0x804 0 0xFF with fibre := fibre, detail := BitVec.ofNat 64 (reg % 256) })

/-- Puts a number into a list once. -/
def addOnce (l : List Nat) (n : Nat) : List Nat := if l.contains n then l else n :: l

/-- The record of an SRAM error in something of a coil (log 39). -/
def State.sramRec (s : State) (c : Coil) (code off : Nat) : Rec := { s.coilRec c code 0 0xFF with addr := some (BitVec.ofNat 64 off) }

/-- SRAM_ERROR. -/
def execSramError (e : SramError) (s : State) : Answer :=
  match e with
  | .l1 core line =>
    .next ({ s with l1 := s.l1.filter (fun x => !(x.core = core && x.vsec / 8 = line)) }.record { Rec.plain 0x802 0 (locOf core 0xFF) with act := 1 })
  | .icache core line =>
    .next ({ s with icache := s.icache.filter (fun x => !(x.core = core && x.va.toNat / 256 = line)) }.record { Rec.plain 0x802 0 (locOf core 0xFF) with act := 1 })
  | .l2 addr =>
    .next ((s.setPoison (addr / 32) true).record { Rec.plain 0x803 7 (locDie (homeDie addr) 0xFF) with addr := some (BitVec.ofNat 64 addr) })
  | .scratch coil off =>
    match s.coil? coil with
    | none => .next s
    | some c => .next ((s.setCoil { c with spoiled := addOnce c.spoiled (off / 32) }).record (s.sramRec c 0x803 off))
  | .tile coil tile off =>
    match (s.coil? coil).bind (fun c => (c.tile? tile).map (fun t => (c, t))) with
    | none => .next s
    | some (c, t) => .next ((s.setCoil (c.putTile { t with poison := addOnce t.poison (off / 32) })).record (s.sramRec c 0x803 off))
  | .acc coil acc off =>
    match (s.coil? coil).bind (fun c => (c.acc? acc).map (fun a => (c, a))) with
    | none => .next s
    | some (c, a) => .next ((s.setCoil (c.putAcc { a with poison := addOnce a.poison (off / 32) })).record (s.sramRec c 0x803 off))
  | .mask coil mask =>
    match s.coil? coil with
    | none => .next s
    | some c => .next ((s.setCoil { c with m := c.m.set mask (BitVec.allOnes 128) }).record (s.coilRec c 0x802 0 0xFF))
  | .cell coil acc k x =>
    match (s.coil? coil).bind (fun c => (c.acc? acc).map (fun a => (c, a))) with
    | none => .next s
    | some (c, a) => .next (s.setCoil (c.putAcc { a with elems := elemSet a.elems (k % 16384) x }))

/-! ## The profiling stream (15_system.md R437 to R439) -/

/-- A source's KIND, how many counters it lists, and its LOC. -/
def profSource (i : Nat) : Nat × Nat × Word :=
  if i < 256 then (1, 24, locOf i 0xFF)
  else if i < 320 then (2, 7, BitVec.ofNat 32 ((i - 256) / 16 * 2 ^ 24 + (i - 256) % 16 * 2 ^ 16 + 0xFFFF))
  else if i < 332 then (3, 5, locDie ((i - 320) / 3) (i - 320))
  else if i < 344 then (4, 5, locDie ((i - 332) / 3) (i - 332))
  else if i < 362 then (5, 5, locDie (osierDie (i - 344)) (i - 344))
  else (6, 4, locDie (i - 362) 0xFF)

/-- Whether a source is present: a core, an MCC with a core of its cluster, the engine and the stack with a pseudo-channel; ports and dies always
are (01_machine.md R1, R22). -/
def State.profPresent (s : State) (i : Nat) : Bool :=
  let stack (n : Nat) : Bool := s.regs.memAvail.getD (n + 1) 0 ≠ 0
  if i < 256 then s.present i
  else if i < 320 then (List.range 4).any (fun k => s.present (4 * (i - 256) + k))
  else if i < 332 then stack (i - 320)
  else if i < 344 then stack (i - 332)
  else true

/-- How many of something a source has counted since the last tick. -/
def State.tallied (s : State) (i k : Nat) : Nat := ((s.prof.filter (fun e => e.source = i && e.counter = k)).map Tally.n).sum

/-- A counter of a present source over the interval, as a number (R439): the counts of what is an event of the model, and the core's cycles. Those that count
time, or traffic that the model has not, are none (log 27). -/
def State.profKnown (s : State) (i k : Nat) : Option Nat :=
  if i < 256 then
    if k = 0 then some (s.coreclk.getD i 0 - s.profClk.getD i 0)
    else if k = 2 then some (s.tallied i 2 / 64)
    else if k = 22 then some (s.coreRegs i).markcnt.toNat
    else if k = 23 then some (s.coreRegs i).marklast.toNat
    else if [1, 11, 16, 20, 21].contains k then some (s.tallied i k)
    else none
  else if i < 320 then if [1, 4, 5, 6].contains k then some (s.tallied i k) else none
  else if i < 332 then if [1, 3].contains k then some (s.tallied i k) else none
  else if i < 344 then if k = 3 then some (s.tallied i k) else none
  else if i < 362 then if [1, 2, 3, 4].contains k then some (s.tallied i k) else none
  else none

/-- The counters of a source over an interval, saturating (R438, R439). -/
def State.profCounts (s : State) (draw i : Nat) : List Word :=
  (List.range 24).map (fun k =>
    if k ≥ (profSource i).2.1 || !s.profPresent i then 0
    else match s.profKnown i k with
      | some n => BitVec.ofNat 32 (min n (2 ^ 32 - 1))
      | none => Config.profCount draw i k)

/-- Whether a task has used a source in the interval: a core or an MCC that has issued an instruction or works for a coil, an engine that has performed
elements. Which tasks use a stack, a port or a fabric is traffic that the model has not: it may be none (log 27). -/
def State.profUsed (s : State) (i : Nat) : Bool :=
  if i < 256 then
    s.tallied i 1 > 0 || s.coils.any (fun c => c.resident && c.core = i) || s.copies.any (fun k => k.core = i) || s.scouts.any (fun k => k.core = i)
  else if i < 320 then s.tallied i 1 > 0 || s.tallied i 4 > 0 || s.mxq.any (fun k => mccSource k.core = i)
  else if i < 332 then s.tallied i 1 > 0
  else true

/-- The 128 bytes of a source's record for tick t (R438). SAT says that a count stands at its limit; MARKLAST is no count. A source that was retired
in the interval is ABSENT and PARTIAL (log 122). -/
def State.profRecord (s : State) (draw i t k : Nat) : List Byte :=
  let src := profSource i
  let here := s.profPresent i
  let c := s.profCounts draw i
  let part := s.tallied i 24 > 0
  let task := if (here || part) && s.profUsed i then Config.profTask draw i else BitVec.allOnes 64
  let counts := if src.1 = 1 then c.take 23 else c
  leBytes 8 (t * 2 ^ k) ++ leBytes 4 t ++ leBytes 1 (if here then src.1 else 0)
  ++ leBytes 1 ((if here && counts.any (fun x => x = BitVec.allOnes 32) then 2 else 0) + if part then 1 else 0) ++ leBytes 2 0 ++ leBytes 4 src.2.2.toNat
  ++ leBytes 4 0 ++ leBytes 8 task.toNat ++ c.flatMap (fun x => leBytes 4 x.toNat)

/-- Every source writes its record for an interval. -/
def State.profWrite (s : State) (t : Nat) : State :=
  let w := s.regs.profctl.toNat
  let d := s.draw
  let base := d.2.regs.profbase.toNat
  (List.range 366).foldl (fun s i =>
    (s.perform (base + 128 * (384 * (t % 2 ^ (w / 256 % 32)) + i)) (d.2.profRecord d.1 i t (w / 2 % 32)) false false true).report) d.2

/-- PROFILING_TICK: with EN, at the next multiple of 2^K the interval that has begun ends, with a record of every source, and the next one
begins, with every count at 0. -/
def execProfilingTick (s : State) : Answer :=
  if !s.regs.profctl.getLsbD 0 then .next s
  else
    let s := s.tick
    let n := s.regs.profNext
    if s.refclk < n * 2 ^ (s.regs.profctl.toNat / 2 % 32) then .next s
    else
      let t := if s.regs.profOpen then s.profWrite (n - 1) else s
      .next { t with cores := t.cores.map (fun r => { r with markcnt := 0 }), prof := [], profClk := t.coreclk
                     regs := { t.regs with profNext := n + 1, profOpen := true } }

/-! ## Faults in the place of an instruction (02_encoding.md R27, R49, R51; 15_system.md R412) -/

/-- The detail word of a decode fault (02_encoding.md R51). -/
def decodeDetail (f : DecodeFault) : DWord := BitVec.ofNat 64 (f.word0.toNat * 2 ^ 32 + f.bit % 256 * 256 + f.sub % 256)

/-- A fault that stands in the place of an instruction: delivered to every active fibre of the plait, or to the MCC context. -/
def State.standFault (s : State) (code sub words : Nat) (detail : DWord) (at_ : BitVec 64 → BitVec 64) : Answer :=
  match s.turn with
  | .plait id pl =>
    match s.coil? id with
    | none => .fault .noIssuer
    | some c =>
      match c.plait pl with
      | [] => .fault .noIssuer
      | f :: r =>
        let act := (f :: r).map Fibre.idx
        if c.heldBack act then .next s.stall
        else
          .next (s.takeTrap ((s.lend c).watched pl) pl act act f.pc words
            { Trap.of code with sub := sub, addr := some (at_ f.pc), count := act.length, detail := detail })
  | .mcc id =>
    match s.coil? id with
    | none => .fault .noIssuer
    | some c =>
      match c.mcc with
      | none => .fault .noIssuer
      | some x => .next (s.mccFault c x ⟨BitVec.ofNat 16 code, sub, at_ x.pc⟩ detail true)
  | .free => .fault .noIssuer

/-- UNASSIGNED_ENCODING: a word that is no instruction. -/
def execUnassignedEncoding (f : DecodeFault) (s : State) : Answer := s.standFault f.code.toNat f.sub f.words (decodeDetail f) (fun pc => pc)

/-- INSTRUCTION_FETCH_FAULT: the fetch of word `word` faults; the fault's address is that word's. -/
def execInstructionFetchFault (code : BitVec 16) (sub word : Nat) (s : State) : Answer :=
  s.standFault code.toNat sub (word + 1) 0 (fun pc => pc + BitVec.ofNat 64 (4 * word))

end Sys2Proof.Machine
end

