-- ==== Sys2Proof/Machine/Dispatch.lean ====
section
/-! DEFINITION. The meaning of each instruction and event: one call for each row of the opcode table. -/

namespace Sys2Proof.Machine

/-- What an instruction or event does. -/
def exec (i : Instr) (s : State) : Host.Outcome State Fault Refusal :=
  match i with
  | .iadd m => Sys2Proof.Machine.execIadd m s
  | .isub m => Sys2Proof.Machine.execIsub m s
  | .ineg m => Sys2Proof.Machine.execIneg m s
  | .iabs m => Sys2Proof.Machine.execIabs m s
  | .imul m => Sys2Proof.Machine.execImul m s
  | .imulh m => Sys2Proof.Machine.execImulh m s
  | .imad m => Sys2Proof.Machine.execImad m s
  | .imadw m => Sys2Proof.Machine.execImadw m s
  | .idiv m => Sys2Proof.Machine.execIdiv m s
  | .irem m => Sys2Proof.Machine.execIrem m s
  | .imin m => Sys2Proof.Machine.execImin m s
  | .imax m => Sys2Proof.Machine.execImax m s
  | .isat m => Sys2Proof.Machine.execIsat m s
  | .icmp m => Sys2Proof.Machine.execIcmp m s
  | .andOp m => Sys2Proof.Machine.execAnd m s
  | .orOp m => Sys2Proof.Machine.execOr m s
  | .xorOp m => Sys2Proof.Machine.execXor m s
  | .andn m => Sys2Proof.Machine.execAndn m s
  | .notOp m => Sys2Proof.Machine.execNot m s
  | .lut3 m => Sys2Proof.Machine.execLut3 m s
  | .shl m => Sys2Proof.Machine.execShl m s
  | .shr m => Sys2Proof.Machine.execShr m s
  | .sar m => Sys2Proof.Machine.execSar m s
  | .rot m => Sys2Proof.Machine.execRot m s
  | .fshl m => Sys2Proof.Machine.execFshl m s
  | .bfx m => Sys2Proof.Machine.execBfx m s
  | .bfi m => Sys2Proof.Machine.execBfi m s
  | .popc m => Sys2Proof.Machine.execPopc m s
  | .clz m => Sys2Proof.Machine.execClz m s
  | .ctz m => Sys2Proof.Machine.execCtz m s
  | .brev m => Sys2Proof.Machine.execBrev m s
  | .bswap m => Sys2Proof.Machine.execBswap m s
  | .sel m => Sys2Proof.Machine.execSel m s
  | .mov m => Sys2Proof.Machine.execMov m s
  | .movl m => Sys2Proof.Machine.execMovl m s
  | .pset m => Sys2Proof.Machine.execPset m s
  | .plop m => Sys2Proof.Machine.execPlop m s
  | .prdw m => Sys2Proof.Machine.execPrdw m s
  | .pwrw m => Sys2Proof.Machine.execPwrw m s
  | .padd2 m => Sys2Proof.Machine.execPadd2 m s
  | .psub2 m => Sys2Proof.Machine.execPsub2 m s
  | .pmin2 m => Sys2Proof.Machine.execPmin2 m s
  | .pmax2 m => Sys2Proof.Machine.execPmax2 m s
  | .pmac2 m => Sys2Proof.Machine.execPmac2 m s
  | .pmac4 m => Sys2Proof.Machine.execPmac4 m s
  | .shrr m => Sys2Proof.Machine.execShrr m s
  | .lea m => Sys2Proof.Machine.execLea m s
  | .adr m => Sys2Proof.Machine.execAdr m s
  | .ctxa m => Sys2Proof.Machine.execCtxa m s
  | .smset m => Sys2Proof.Machine.execSmset m s
  | .smbind m => Sys2Proof.Machine.execSmbind m s
  | .smpos m => Sys2Proof.Machine.execSmpos m s
  | .smadv m => Sys2Proof.Machine.execSmadv m s
  | .fadd m => Sys2Proof.Machine.execFadd m s
  | .fsub m => Sys2Proof.Machine.execFsub m s
  | .fmul m => Sys2Proof.Machine.execFmul m s
  | .ffma m => Sys2Proof.Machine.execFfma m s
  | .fmin m => Sys2Proof.Machine.execFmin m s
  | .fmax m => Sys2Proof.Machine.execFmax m s
  | .fcmp m => Sys2Proof.Machine.execFcmp m s
  | .dcmp m => Sys2Proof.Machine.execDcmp m s
  | .fclass m => Sys2Proof.Machine.execFclass m s
  | .frnd m => Sys2Proof.Machine.execFrnd m s
  | .fscale m => Sys2Proof.Machine.execFscale m s
  | .fgetexp m => Sys2Proof.Machine.execFgetexp m s
  | .fadd2 m => Sys2Proof.Machine.execFadd2 m s
  | .fmul2 m => Sys2Proof.Machine.execFmul2 m s
  | .ffma2 m => Sys2Proof.Machine.execFfma2 m s
  | .dadd m => Sys2Proof.Machine.execDadd m s
  | .dmul m => Sys2Proof.Machine.execDmul m s
  | .dfma m => Sys2Proof.Machine.execDfma m s
  | .fcvt m => Sys2Proof.Machine.execFcvt m s
  | .fcvtSr m => Sys2Proof.Machine.execFcvtSr m s
  | .f2i m => Sys2Proof.Machine.execF2i m s
  | .i2f m => Sys2Proof.Machine.execI2f m s
  | .srseed m => Sys2Proof.Machine.execSrseed m s
  | .hadm m => Sys2Proof.Machine.execHadm m s
  | .qcvt m => Sys2Proof.Machine.execQcvt m s
  | .dqcvt m => Sys2Proof.Machine.execDqcvt m s
  | .exp2 m => Sys2Proof.Machine.execExp2 m s
  | .log2 m => Sys2Proof.Machine.execLog2 m s
  | .rcp m => Sys2Proof.Machine.execRcp m s
  | .rsq m => Sys2Proof.Machine.execRsq m s
  | .sqrt m => Sys2Proof.Machine.execSqrt m s
  | .sinOp m => Sys2Proof.Machine.execSin m s
  | .cosOp m => Sys2Proof.Machine.execCos m s
  | .tanh m => Sys2Proof.Machine.execTanh m s
  | .sigm m => Sys2Proof.Machine.execSigm m s
  | .erf m => Sys2Proof.Machine.execErf m s
  | .gelu m => Sys2Proof.Machine.execGelu m s
  | .silu m => Sys2Proof.Machine.execSilu m s
  | .fact m => Sys2Proof.Machine.execFact m s
  | .rowmax m => Sys2Proof.Machine.execRowmax m s
  | .rowsum m => Sys2Proof.Machine.execRowsum m s
  | .rowstat m => Sys2Proof.Machine.execRowstat m s
  | .rownorm m => Sys2Proof.Machine.execRownorm m s
  | .smaxr m => Sys2Proof.Machine.execSmaxr m s
  | .lse m => Sys2Proof.Machine.execLse m s
  | .bra m => Sys2Proof.Machine.execBra m s
  | .braU m => Sys2Proof.Machine.execBraU m s
  | .brx m => Sys2Proof.Machine.execBrx m s
  | .call m => Sys2Proof.Machine.execCall m s
  | .callx m => Sys2Proof.Machine.execCallx m s
  | .ret m => Sys2Proof.Machine.execRet m s
  | .loopOp m => Sys2Proof.Machine.execLoop m s
  | .pack m => Sys2Proof.Machine.execPack m s
  | .convm m => Sys2Proof.Machine.execConvm m s
  | .yieldOp m => Sys2Proof.Machine.execYield m s
  | .nop m => Sys2Proof.Machine.execNop m s
  | .part m => Sys2Proof.Machine.execPart m s
  | .gsync m => Sys2Proof.Machine.execGsync m s
  | .vote m => Sys2Proof.Machine.execVote m s
  | .ballot m => Sys2Proof.Machine.execBallot m s
  | .matchOp m => Sys2Proof.Machine.execMatch m s
  | .elect m => Sys2Proof.Machine.execElect m s
  | .shfl m => Sys2Proof.Machine.execShfl m s
  | .slide m => Sys2Proof.Machine.execSlide m s
  | .bcast m => Sys2Proof.Machine.execBcast m s
  | .scan m => Sys2Proof.Machine.execScan m s
  | .gred m => Sys2Proof.Machine.execGred m s
  | .fibnew m => Sys2Proof.Machine.execFibnew m s
  | .fibend m => Sys2Proof.Machine.execFibend m s
  | .spawn m => Sys2Proof.Machine.execSpawn m s
  | .launch m => Sys2Proof.Machine.execLaunch m s
  | .fork m => Sys2Proof.Machine.execFork m s
  | .region m => Sys2Proof.Machine.execRegion m s
  | .fnew m => Sys2Proof.Machine.execFnew m s
  | .fres m => Sys2Proof.Machine.execFres m s
  | .fthen m => Sys2Proof.Machine.execFthen m s
  | .fread m => Sys2Proof.Machine.execFread m s
  | .fwait m => Sys2Proof.Machine.execFwait m s
  | .engfork m => Sys2Proof.Machine.execEngfork m s
  | .rdv m => Sys2Proof.Machine.execRdv m s
  | .prio m => Sys2Proof.Machine.execPrio m s
  | .qpoll m => Sys2Proof.Machine.execQpoll m s
  | .sleepn m => Sys2Proof.Machine.execSleepn m s
  | .ldB8 m => Sys2Proof.Machine.execLdB8 m s
  | .ldB16 m => Sys2Proof.Machine.execLdB16 m s
  | .ldB32 m => Sys2Proof.Machine.execLdB32 m s
  | .ldB64 m => Sys2Proof.Machine.execLdB64 m s
  | .ldB128 m => Sys2Proof.Machine.execLdB128 m s
  | .stB8 m => Sys2Proof.Machine.execStB8 m s
  | .stB16 m => Sys2Proof.Machine.execStB16 m s
  | .stB32 m => Sys2Proof.Machine.execStB32 m s
  | .stB64 m => Sys2Proof.Machine.execStB64 m s
  | .stB128 m => Sys2Proof.Machine.execStB128 m s
  | .lds m => Sys2Proof.Machine.execLds m s
  | .sts m => Sys2Proof.Machine.execSts m s
  | .lduB32 m => Sys2Proof.Machine.execLduB32 m s
  | .lduB64 m => Sys2Proof.Machine.execLduB64 m s
  | .ldmx m => Sys2Proof.Machine.execLdmx m s
  | .stmx m => Sys2Proof.Machine.execStmx m s
  | .pfL1 m => Sys2Proof.Machine.execPfL1 m s
  | .pfL2 m => Sys2Proof.Machine.execPfL2 m s
  | .cctlInv m => Sys2Proof.Machine.execCctlInv m s
  | .cctlInvall m => Sys2Proof.Machine.execCctlInvall m s
  | .cctlWb m => Sys2Proof.Machine.execCctlWb m s
  | .cctlWbinv m => Sys2Proof.Machine.execCctlWbinv m s
  | .icinvCore m => Sys2Proof.Machine.execIcinvCore m s
  | .icinvDev m => Sys2Proof.Machine.execIcinvDev m s
  | .atom m => Sys2Proof.Machine.execAtom m s
  | .atoms m => Sys2Proof.Machine.execAtoms m s
  | .atred m => Sys2Proof.Machine.execAtred m s
  | .cas m => Sys2Proof.Machine.execCas m s
  | .hbind m => Sys2Proof.Machine.execHbind m s
  | .hqry m => Sys2Proof.Machine.execHqry m s
  | .sptmapSwap m => Sys2Proof.Machine.execSptmapSwap m s
  | .sptmapRd m => Sys2Proof.Machine.execSptmapRd m s
  | .acq m => Sys2Proof.Machine.execAcq m s
  | .rel m => Sys2Proof.Machine.execRel m s
  | .fence m => Sys2Proof.Machine.execFence m s
  | .gbarArv m => Sys2Proof.Machine.execGbarArv m s
  | .gbarWait m => Sys2Proof.Machine.execGbarWait m s
  | .binit m => Sys2Proof.Machine.execBinit m s
  | .barv m => Sys2Proof.Machine.execBarv m s
  | .barx m => Sys2Proof.Machine.execBarx m s
  | .bwait m => Sys2Proof.Machine.execBwait m s
  | .btest m => Sys2Proof.Machine.execBtest m s
  | .bcan m => Sys2Proof.Machine.execBcan m s
  | .cpy m => Sys2Proof.Machine.execCpy m s
  | .cpyt m => Sys2Proof.Machine.execCpyt m s
  | .cpym m => Sys2Proof.Machine.execCpym m s
  | .cpyc m => Sys2Proof.Machine.execCpyc m s
  | .gath m => Sys2Proof.Machine.execGath m s
  | .scat m => Sys2Proof.Machine.execScat m s
  | .scata m => Sys2Proof.Machine.execScata m s
  | .gstat m => Sys2Proof.Machine.execGstat m s
  | .tld m => Sys2Proof.Machine.execTld m s
  | .tldT m => Sys2Proof.Machine.execTldT m s
  | .tst m => Sys2Proof.Machine.execTst m s
  | .accrd m => Sys2Proof.Machine.execAccrd m s
  | .scout m => Sys2Proof.Machine.execScout m s
  | .tmask m => Sys2Proof.Machine.execTmask m s
  | .mkand m => Sys2Proof.Machine.execMkand m s
  | .mkor m => Sys2Proof.Machine.execMkor m s
  | .mkpop m => Sys2Proof.Machine.execMkpop m s
  | .mkrd m => Sys2Proof.Machine.execMkrd m s
  | .mkwr m => Sys2Proof.Machine.execMkwr m s
  | .sgload m => Sys2Proof.Machine.execSgload m s
  | .sgcall m => Sys2Proof.Machine.execSgcall m s
  | .sgrec m => Sys2Proof.Machine.execSgrec m s
  | .sgmerge m => Sys2Proof.Machine.execSgmerge m s
  | .sgrel m => Sys2Proof.Machine.execSgrel m s
  | .sgqb m => Sys2Proof.Machine.execSgqb m s
  | .sgcnt m => Sys2Proof.Machine.execSgcnt m s
  | .sgcntClr m => Sys2Proof.Machine.execSgcntClr m s
  | .sgdis m => Sys2Proof.Machine.execSgdis m s
  | .sgdisEn m => Sys2Proof.Machine.execSgdisEn m s
  | .sgdisRd m => Sys2Proof.Machine.execSgdisRd m s
  | .sginv m => Sys2Proof.Machine.execSginv m s
  | .pgrp m => Sys2Proof.Machine.execPgrp m s
  | .pstat m => Sys2Proof.Machine.execPstat m s
  | .pwait m => Sys2Proof.Machine.execPwait m s
  | .pscrub m => Sys2Proof.Machine.execPscrub m s
  | .pscrubFix m => Sys2Proof.Machine.execPscrubFix m s
  | .prebuild m => Sys2Proof.Machine.execPrebuild m s
  | .trapOp m => Sys2Proof.Machine.execTrap m s
  | .sysc m => Sys2Proof.Machine.execSysc m s
  | .hretRetry m => Sys2Proof.Machine.execHretRetry m s
  | .hretSkip m => Sys2Proof.Machine.execHretSkip m s
  | .rdsr m => Sys2Proof.Machine.execRdsr m s
  | .wrsr m => Sys2Proof.Machine.execWrsr m s
  | .brk m => Sys2Proof.Machine.execBrk m s
  | .watch m => Sys2Proof.Machine.execWatch m s
  | .dbgmark m => Sys2Proof.Machine.execDbgmark m s
  | .rdcnt m => Sys2Proof.Machine.execRdcnt m s
  | .errq m => Sys2Proof.Machine.execErrq m s
  | .chkset m => Sys2Proof.Machine.execChkset m s
  | .nopCompact f => Sys2Proof.Machine.execNopCompact f s
  | .movCompact f => Sys2Proof.Machine.execMovCompact f s
  | .movImmCompact f => Sys2Proof.Machine.execMovImmCompact f s
  | .iaddS32Compact f => Sys2Proof.Machine.execIaddS32Compact f s
  | .iaddS32ImmCompact f => Sys2Proof.Machine.execIaddS32ImmCompact f s
  | .isubS32Compact f => Sys2Proof.Machine.execIsubS32Compact f s
  | .isubS32ImmCompact f => Sys2Proof.Machine.execIsubS32ImmCompact f s
  | .andCompact f => Sys2Proof.Machine.execAndCompact f s
  | .andImmCompact f => Sys2Proof.Machine.execAndImmCompact f s
  | .orCompact f => Sys2Proof.Machine.execOrCompact f s
  | .orImmCompact f => Sys2Proof.Machine.execOrImmCompact f s
  | .xorCompact f => Sys2Proof.Machine.execXorCompact f s
  | .xorImmCompact f => Sys2Proof.Machine.execXorImmCompact f s
  | .andnCompact f => Sys2Proof.Machine.execAndnCompact f s
  | .notCompact f => Sys2Proof.Machine.execNotCompact f s
  | .shlCompact f => Sys2Proof.Machine.execShlCompact f s
  | .shlImmCompact f => Sys2Proof.Machine.execShlImmCompact f s
  | .shrCompact f => Sys2Proof.Machine.execShrCompact f s
  | .shrImmCompact f => Sys2Proof.Machine.execShrImmCompact f s
  | .sarCompact f => Sys2Proof.Machine.execSarCompact f s
  | .sarImmCompact f => Sys2Proof.Machine.execSarImmCompact f s
  | .iminS32Compact f => Sys2Proof.Machine.execIminS32Compact f s
  | .imaxS32Compact f => Sys2Proof.Machine.execImaxS32Compact f s
  | .iminN32Compact f => Sys2Proof.Machine.execIminN32Compact f s
  | .imaxN32Compact f => Sys2Proof.Machine.execImaxN32Compact f s
  | .inegS32Compact f => Sys2Proof.Machine.execInegS32Compact f s
  | .amov m => Sys2Proof.Machine.execAmov m s
  | .ali m => Sys2Proof.Machine.execAli m s
  | .aadd m => Sys2Proof.Machine.execAadd m s
  | .asub m => Sys2Proof.Machine.execAsub m s
  | .amul m => Sys2Proof.Machine.execAmul m s
  | .aand m => Sys2Proof.Machine.execAand m s
  | .aor m => Sys2Proof.Machine.execAor m s
  | .ashl m => Sys2Proof.Machine.execAshl m s
  | .ashr m => Sys2Proof.Machine.execAshr m s
  | .acmp m => Sys2Proof.Machine.execAcmp m s
  | .abr m => Sys2Proof.Machine.execAbr m s
  | .abc m => Sys2Proof.Machine.execAbc m s
  | .aloop m => Sys2Proof.Machine.execAloop m s
  | .acall m => Sys2Proof.Machine.execAcall m s
  | .aret m => Sys2Proof.Machine.execAret m s
  | .ald m => Sys2Proof.Machine.execAld m s
  | .ast m => Sys2Proof.Machine.execAst m s
  | .evwait m => Sys2Proof.Machine.execEvwait m s
  | .evpop m => Sys2Proof.Machine.execEvpop m s
  | .tres m => Sys2Proof.Machine.execTres m s
  | .trel m => Sys2Proof.Machine.execTrel m s
  | .mma m => Sys2Proof.Machine.execMma m s
  | .mmaM m => Sys2Proof.Machine.execMmaM m s
  | .mxzero m => Sys2Proof.Machine.execMxzero m s
  | .mxdrain m => Sys2Proof.Machine.execMxdrain m s
  | .mxdrainAcc m => Sys2Proof.Machine.execMxdrainAcc m s
  | .mxdrainChk m => Sys2Proof.Machine.execMxdrainChk m s
  | .mxscl m => Sys2Proof.Machine.execMxscl m s
  | .mxtol m => Sys2Proof.Machine.execMxtol m s
  | .mxstat m => Sys2Proof.Machine.execMxstat m s
  | .abwait m => Sys2Proof.Machine.execAbwait m s
  | .abarv m => Sys2Proof.Machine.execAbarv m s
  | .arel m => Sys2Proof.Machine.execArel m s
  | .ahalt m => Sys2Proof.Machine.execAhalt m s
  | .yieldExpiry coil slot => Sys2Proof.Machine.execYieldExpiry coil slot s
  | .fwaitComplete coil k => Sys2Proof.Machine.execFwaitComplete coil k s
  | .sleepnExpiry coil slot => Sys2Proof.Machine.execSleepnExpiry coil slot s
  | .resultWriteback coil fibre flag => Sys2Proof.Machine.execResultWriteback coil fibre flag s
  | .gbarWaitComplete coil k => Sys2Proof.Machine.execGbarWaitComplete coil k s
  | .copyCommandStart id => Sys2Proof.Machine.execCopyCommandStart id s
  | .engineBytesLanded id granule => Sys2Proof.Machine.execEngineBytesLanded id granule s
  | .gatherElement id element => Sys2Proof.Machine.execGatherElement id element s
  | .copyCommandEnd id => Sys2Proof.Machine.execCopyCommandEnd id s
  | .scoutCommandExecute core => Sys2Proof.Machine.execScoutCommandExecute core s
  | .sgImageLoaded coil slot => Sys2Proof.Machine.execSgImageLoaded coil slot s
  | .surrogateCallEvaluate core => Sys2Proof.Machine.execSurrogateCallEvaluate core s
  | .pwaitTimeout coil k => Sys2Proof.Machine.execPwaitTimeout coil k s
  | .scrubStep id peers => Sys2Proof.Machine.execScrubStep id peers s
  | .matrixCommandStart core => Sys2Proof.Machine.execMatrixCommandStart core s
  | .matrixCommandEnd core => Sys2Proof.Machine.execMatrixCommandEnd core s
  | .queuePacketConsume slot => Sys2Proof.Machine.execQueuePacketConsume slot s
  | .coilPlace launch core => Sys2Proof.Machine.execCoilPlace launch core s
  | .coilRestart coil core => Sys2Proof.Machine.execCoilRestart coil core s
  | .packingWindowExpiry core => Sys2Proof.Machine.execPackingWindowExpiry core s
  | .parking core slot => Sys2Proof.Machine.execParking core slot s
  | .preemption coil => Sys2Proof.Machine.execPreemption coil s
  | .registryScan die => Sys2Proof.Machine.execRegistryScan die s
  | .notify slot w => Sys2Proof.Machine.execNotify slot w s
  | .mapQueue slot w => Sys2Proof.Machine.execMapQueue slot w s
  | .unmapQueue slot w => Sys2Proof.Machine.execUnmapQueue slot w s
  | .tlbInvalidate w => Sys2Proof.Machine.execTlbInvalidate w s
  | .gsdrain w => Sys2Proof.Machine.execGsdrain w s
  | .preemptCoil w => Sys2Proof.Machine.execPreemptCoil w s
  | .killCoil w => Sys2Proof.Machine.execKillCoil w s
  | .restartCoil w => Sys2Proof.Machine.execRestartCoil w s
  | .stopCoil w => Sys2Proof.Machine.execStopCoil w s
  | .resumeCoil w => Sys2Proof.Machine.execResumeCoil w s
  | .stepCoil w => Sys2Proof.Machine.execStepCoil w s
  | .survActivate w => Sys2Proof.Machine.execSurvActivate w s
  | .survReplace w => Sys2Proof.Machine.execSurvReplace w s
  | .survDeactivate w => Sys2Proof.Machine.execSurvDeactivate w s
  | .sysrvalWrite app x => Sys2Proof.Machine.execSysrvalWrite app x s
  | .intstatWrite w => Sys2Proof.Machine.execIntstatWrite w s
  | .dbgdataAccess w => Sys2Proof.Machine.execDbgdataAccess w s
  | .registerWrite off w => Sys2Proof.Machine.execRegisterWrite off w s
  | .barrierCheckerPeriod core => Sys2Proof.Machine.execBarrierCheckerPeriod core s
  | .profilingTick => Sys2Proof.Machine.execProfilingTick s
  | .sideEccLow die => Sys2Proof.Machine.execSideEccLow die s
  | .powerBucketRefill => Sys2Proof.Machine.execPowerBucketRefill s
  | .islandFrequencyChange island mhz => Sys2Proof.Machine.execIslandFrequencyChange island mhz s
  | .thermstatUpdate temps => Sys2Proof.Machine.execThermstatUpdate temps s
  | .powerOn => Sys2Proof.Machine.execPowerOn s
  | .pinReset => Sys2Proof.Machine.execPinReset s
  | .softwareReset w => Sys2Proof.Machine.execSoftwareReset w s
  | .watchdogReset => Sys2Proof.Machine.execWatchdogReset s
  | .fwFatal code => Sys2Proof.Machine.execFwFatal code s
  | .challenge => Sys2Proof.Machine.execChallenge s
  | .attest nonce => Sys2Proof.Machine.execAttest nonce s
  | .unlock token => Sys2Proof.Machine.execUnlock token s
  | .mgmtReset => Sys2Proof.Machine.execMgmtReset s
  | .fwupdate image => Sys2Proof.Machine.execFwupdate image s
  | .telemetry => Sys2Proof.Machine.execTelemetry s
  | .keyload slot key => Sys2Proof.Machine.execKeyload slot key s
  | .keyzero slot => Sys2Proof.Machine.execKeyzero slot s
  | .osierPortStateChange port peer lanes state => Sys2Proof.Machine.execOsierPortStateChange port peer lanes state s
  | .osierFlitReceive port retried => Sys2Proof.Machine.execOsierFlitReceive port retried s
  | .peerRequest r => Sys2Proof.Machine.execPeerRequest r s
  | .linkTimeout dev => Sys2Proof.Machine.execLinkTimeout dev s
  | .memberResetReport dev => Sys2Proof.Machine.execMemberResetReport dev s
  | .parityDeltaApply group sender seq stripe off delta => Sys2Proof.Machine.execParityDeltaApply group sender seq stripe off delta s
  | .deltaAck group holder seq => Sys2Proof.Machine.execDeltaAck group holder seq s
  | .survSectorRequest group stripe off => Sys2Proof.Machine.execSurvSectorRequest group stripe off s
  | .survReconstructed group sector peers => Sys2Proof.Machine.execSurvReconstructed group sector peers s
  | .pcieAer e => Sys2Proof.Machine.execPcieAer e s
  | .pcieInboundDma port rid r => Sys2Proof.Machine.execPcieInboundDma port rid r s
  | .unitRetired cluster n => Sys2Proof.Machine.execUnitRetired cluster n s
  | .pageRetired stack pch page => Sys2Proof.Machine.execPageRetired stack pch page s
  | .regfileLatent coil fibre reg => Sys2Proof.Machine.execRegfileLatent coil fibre reg s
  | .sramError e => Sys2Proof.Machine.execSramError e s
  | .unassignedEncoding f => Sys2Proof.Machine.execUnassignedEncoding f s
  | .instructionFetchFault code sub word => Sys2Proof.Machine.execInstructionFetchFault code sub word s
  | .applicationCoreMemoryAccess app r => Sys2Proof.Machine.execApplicationCoreMemoryAccess app r s
  | .pciePortStateChange port => Sys2Proof.Machine.execPciePortStateChange port s
  | .fuseTransition state => Sys2Proof.Machine.execFuseTransition state s
  | .measurementExtension reg digest => Sys2Proof.Machine.execMeasurementExtension reg digest s

end Sys2Proof.Machine
end

