-- ==== Sys2Proof/Machine/Auto.lean ====
section
/-! DEFINITION. What the device does on its own when no input chooses (log 2): the events of its engines, queues and timers that may be due, one
after another in rotation. An event that turns out not to be due changes nothing (log 8). -/

namespace Sys2Proof.Machine

/-- The cores with a resident coil. -/
def State.busyCores (s : State) : List Nat := ((s.coils.filter Coil.resident).map Coil.core).eraseDups

/-- The first core that takes some work. -/
def State.coreFor (s : State) (w : Want) : Option Nat := (List.range 256).find? (fun k => s.fits w k)

/-- The rank of some work for placement: its effective priority, above which a recovery coil stands (07_work.md R193; 13_surrogate.md R378). -/
def State.rank (s : State) (w : Want) : Nat := if w.recovery.isSome then 16 else s.effPrio w.asid w.rcb

/-- The core that takes some work, unless work of a higher rank can be placed first (log 44). -/
def State.seatFor (s : State) (w : Want) : Option Nat :=
  if s.wants.any (fun v => decide (s.rank w < s.rank v) && (s.coreFor v).isSome) then none else s.coreFor w

/-- Packets, placements, restarts and pre-emptions. -/
noncomputable def State.queueEvents (s : State) : List Instr :=
  ((List.range 256).filter (fun n => (s.qslot n).mapped && (s.qslot n).read < (s.qslot n).write)).map Instr.queuePacketConsume
  ++ s.launches.filterMap (fun l => (s.seatFor l.want).map (Instr.coilPlace l.id))
  ++ s.recoveryFor.filterMap (fun c => (s.seatFor (s.recoveryWant c)).map (Instr.coilPlace s.nextId))
  ++ s.spawns.filterMap (fun i => ((s.itemWant i).bind s.seatFor).map (Instr.coilPlace s.nextId))
  ++ (s.coils.filter (fun c => c.st = .saved true)).filterMap (fun c => (s.seatFor (s.coilWant c)).map (Instr.coilRestart c.id))
  ++ ((s.coils.filter (fun c => c.resident && !c.leaves && s.wants.any (fun w => s.outranks w c && (s.coreFor w).isNone))).map (fun c => Instr.preemption c.id))
  ++ (if s.regs.qreg.toNat % 8192 = 0 then [] else (List.range 4).map Instr.registryScan)

/-- The fibres of a coil that wait for a time to pass. -/
noncomputable def Coil.sleepEvents (c : Coil) : List Instr :=
  c.fibres.filterMap (fun f =>
    match f.place, f.status with
    | .slot n, .yielded => some (.yieldExpiry c.id n)
    | .slot n, .asleep => some (.sleepnExpiry c.id n)
    | _, _ => none)

/-- The waits of a coil that may end. -/
noncomputable def Coil.waitEvents (c : Coil) : List Instr :=
  c.waits.filterMap (fun w =>
    match w.kind with
    | .fwait _ _ _ _ => some (.fwaitComplete c.id w.id)
    | .gbar _ _ => some (.gbarWaitComplete c.id w.id)
    | .pwait _ _ _ _ => some (.pwaitTimeout c.id w.id)
    | .sgload k => some (.sgImageLoaded c.id k)
    | _ => none)

/-- The late results of a coil that may be written back: those that a flag names, and under 12 those that none names. -/
noncomputable def State.flagEvents (s : State) (c : Coil) : List Instr :=
  c.fibres.flatMap (fun f =>
    (((List.range 12).filter (fun k => f.cf.getLsbD k && !s.flagHeld c f.idx k)) ++
      (if f.pend.any (fun e => e.flag.isNone && e.left.isNone && e.known) then [12] else [])).map (Instr.resultWriteback c.id f.idx))

/-- What may happen to the fibres of resident coils. -/
noncomputable def State.coilEvents (s : State) : List Instr :=
  (s.coils.filter Coil.resident).flatMap (fun c => c.sleepEvents ++ c.waitEvents ++ s.flagEvents c)

/-- The packing unit and the barrier checker of each core. -/
noncomputable def State.coreEvents (s : State) : List Instr :=
  s.busyCores.flatMap (fun k =>
    (if (s.firstPack k).isSome || (s.recoveryJoin k).isSome || (s.spawnJoin k).isSome then [.packingWindowExpiry k] else [])
    ++ (if s.sidesWaiting.any (fun p => (s.coil? p.1).map Coil.core = some k) then (List.range 64).map (Instr.parking k) else [])
    ++ [.barrierCheckerPeriod k])

/-- The next event of a copy or gather command. -/
noncomputable def CopyCmd.events (k : CopyCmd) : List Instr :=
  (if k.drain || !k.faults.isEmpty then [.copyCommandEnd k.id] else [])
  ++ (if !k.started then [.copyCommandStart k.id]
      else
        match k.todo with
        | [] => [.copyCommandEnd k.id]
        | t :: _ => [if k.kind.isCopy then .engineBytesLanded k.id t else .gatherElement k.id t])

/-- The engines. -/
noncomputable def State.engineEvents (s : State) : List Instr :=
  s.copies.flatMap CopyCmd.events
  ++ ((s.mxq.map MxCmd.core).eraseDups).flatMap (fun k => [.matrixCommandStart k, .matrixCommandEnd k])
  ++ ((s.scouts.map ScoutCmd.core).eraseDups).map Instr.scoutCommandExecute
  ++ ((s.sgcalls.map SgCall.core).eraseDups).map Instr.surrogateCallEvaluate
  ++ (if s.buckets.any (fun b => !b.waiting.isEmpty) then [.powerBucketRefill] else [])

/-- The timers of the device. -/
noncomputable def State.timerEvents (s : State) : List Instr :=
  (if s.regs.profctl.getLsbD 0 then [.profilingTick] else []) ++ (if s.sideDir.isEmpty then [] else (List.range 4).map Instr.sideEccLow)

/-- Everything that may be due. -/
noncomputable def State.dueEvents (s : State) : List Instr := s.queueEvents ++ s.coilEvents ++ s.coreEvents ++ s.engineEvents ++ s.timerEvents

/-- The next event that the device itself brings about, if any is due. -/
noncomputable def State.autoEvent (s : State) : Option Instr :=
  let l := s.dueEvents
  l[(s.rr / (s.issuers.length + 1)) % l.length]?

end Sys2Proof.Machine
end

