-- ==== Sys2Proof/Machine/Profile.lean ====
section
/-! DEFINITION. What the profiling unit counts of a step (15_system.md R437 to R439): the events of the model that a counter names, found by what the step
has changed. -/

namespace Sys2Proof.Machine

/-- The event that a step performs, if it performs one: that of the inputs, or the next of the device's own. -/
noncomputable def State.stepEvent (s : State) : Option Instr :=
  match s.inputs with
  | .event i :: _ => some i
  | _ :: _ => none
  | [] => if s.turn = .free && s.pick.isNone then s.autoEvent else none

/-- What a coil has done: instructions issued with their active lanes, pre-emptions, surrogate lanes that fell back, and the corrections and replays of its
accumulators. -/
def Coil.progress (before after : Coil) (turn : Turn) : List Tally :=
  let issued := after.instrs - before.instrs
  let lanes := match turn with | .plait id pl => if id = before.id then issued * (before.plait pl).length else 0 | _ => 0
  let fallen := ((before.sg.zip after.sg).map (fun e => e.2.fallback - e.1.fallback)).sum
  let grown (f : Acc → Nat) : Nat := (after.accs.map (fun a => match before.acc? a.num with | some b => f a - f b | none => 0)).sum
  [⟨before.core, 1, issued⟩, ⟨before.core, 2, lanes⟩, ⟨before.core, 16, fallen⟩, ⟨before.core, 21, after.preempts - before.preempts⟩,
   ⟨mccSource before.core, 5, grown Acc.corr⟩, ⟨mccSource before.core, 6, grown Acc.repl⟩]

/-- What the MCC context that had the turn has done: an instruction that has issued, and the matrix commands that it has queued. -/
def State.mccProgress (before after : State) : List Tally :=
  match before.turn with
  | .mcc id =>
    match before.coil? id with
    | some c => if before.inputs.isEmpty && after.tried.isEmpty then [⟨mccSource c.core, 1, 1⟩, ⟨mccSource c.core, 4, after.mxq.length - before.mxq.length⟩] else []
    | none => []
  | _ => []

/-- What an event counts: a parking; an element at each of its engines, and its fault; a flit. -/
def State.eventProgress (before after : State) : Instr → List Tally
  | .parking core _ => [⟨core, 20, if after.coils = before.coils then 0 else 1⟩]
  | .gatherElement id e =>
    match before.copy? id, after.copy? id with
    | some k, some k' =>
      match before.coil? k.coil with
      | some c =>
        let engs := match before.locate c k e with | .at_ _ engs _ => engs | .fault _ inst _ _ => [inst]
        engs.flatMap (fun n => [⟨320 + n, 1, k.todo.length - k'.todo.length⟩, ⟨320 + n, 3, k'.faults.length - k.faults.length⟩])
      | none => []
    | _, _ => []
  | .osierFlitReceive port retried => if port < 18 then [⟨344 + port, 1, 1⟩, ⟨344 + port, 2, if retried then 1 else 0⟩] else []
  | _ => []

/-- The port that a delta to or from a device goes through: one of those that reach it, which is free where there are several (17_module.md R459). -/
def State.deltaPort (s : State) (dev : Nat) : Nat :=
  let l := s.peerPorts (BitVec.ofNat 16 dev)
  344 + l.getD (Config.deltaPort s.free % l.length) 0

/-- The delta flits of a step: those that it sends, and one that it applies. -/
def State.deltaProgress (before after : State) : List Tally :=
  (after.out.drop before.out.length).filterMap (fun m =>
    match m with
    | .delta d => some ⟨before.deltaPort (before.rankDev d.group d.holder), 3, 1⟩
    | .ack g sender _ => if (before.grp g).nApplied < (after.grp g).nApplied then some ⟨before.deltaPort (before.rankDev g sender), 4, 1⟩ else none
    | _ => none)

/-- A corrected codeword counts at its stack (08_memory.md R246). -/
def State.dramProgress (before : State) : List Tally :=
  match before.inputs with
  | .dramError sec errs :: _ =>
    let n := if before.sectorState sec = 1 then 36 else 32
    let errs := errs.filter (fun e => e.1 < n && e.2 ≠ 0)
    if before.sectorState sec < 2 && !errs.isEmpty && (rsDecode n errs).isSome then [⟨332 + before.stackIdx (32 * sec), 3, 1⟩] else []
  | _ => []

/-- The sources that a step has retired. -/
def State.retiredSources (before after : State) : List Tally :=
  if before.regs.coresAvail = after.regs.coresAvail then []
  else (List.range 320).map (fun i => ⟨i, 24, if before.profPresent i && !after.profPresent i then 1 else 0⟩)

/-- Everything that a step counts. -/
noncomputable def State.progress (before after : State) : List Tally :=
  (before.coils.flatMap (fun c => match after.coil? c.id with | some d => c.progress d before.turn | none => []))
  ++ before.mccProgress after ++ (match before.stepEvent with | some i => before.eventProgress after i | none => [])
  ++ before.deltaProgress after ++ before.dramProgress ++ before.retiredSources after

/-- The state after a step, with its counts. -/
noncomputable def State.profiled (before after : State) : State := { after with prof := (before.progress after).foldl addTally after.prof }

end Sys2Proof.Machine
end

