-- ==== Sys2Proof/Machine/Step.lean ====
section
/-! DEFINITION. One step of the device (log 2): an input is consumed, or the one whose turn it is fetches, decodes and executes one
instruction, or the next turn is chosen, or the engines and queues do their next work. -/

namespace Sys2Proof.Machine

/-- Fetches and decodes for an issuer, and executes: the instruction, or the fault that stands in its place. -/
noncomputable def runAt (s : State) (mcc : Bool) (win core : Nat) (asid : BitVec 12) (pc : BitVec 64) : Host.Outcome State Fault Refusal :=
  let r := s.fetchWords core asid pc
  match r.1 with
  | .error (f, k) => exec (.instructionFetchFault f.code f.sub k) r.2
  | .ok ws =>
    match decode mcc win ws with
    | .ok i => exec i r.2
    | .bad o => exec (.unassignedEncoding (o.fault (wordAt ws 0))) r.2

/-- The turn of a plait or of an MCC context; a turn of one that cannot issue ends at once. -/
noncomputable def runTurn (s : State) : Host.Outcome State Fault Refusal :=
  match s.turn with
  | .free => .next s
  | .plait id pl =>
    match s.coil? id with
    | none => .next s.stall
    | some c =>
      match c.plait pl with
      | [] => .next s.stall
      | f :: _ => if c.issuers.contains pl then runAt s false c.window c.core c.asid f.pc else .next s.stall
  | .mcc id =>
    match s.coil? id with
    | none => .next s.stall
    | some c =>
      match c.mcc with
      | none => .next s.stall
      | some x => if c.mccRuns then runAt s true 256 c.core c.asid x.pc else .next s.stall

/-- Applies a function to the state of an outcome. -/
def mapNext (f : State → State) : Host.Outcome State Fault Refusal → Host.Outcome State Fault Refusal
  | .next s => .next (f s)
  | .fault r => .fault r
  | .refused r => .refused r

/-- What stands after a turn or an event: groups, and all that goes on by itself. -/
def State.after (s : State) : State := s.settleGroups.settle

/-- An input other than a turn. What could not issue before it may be able to now (log 2). -/
def State.takeInput (s : State) : Input → Host.Outcome State Fault Refusal
  | .event i => mapNext State.after (exec i { s with tried := [] })
  | .turn t => .next { s with turn := t }
  | .evict line => .next { s.dropLine line with tried := [] }
  | .dramError sec errs => .next { s.dramError sec errs with tried := [] }.after
  | .parity g stripe off d => .next { s.takeParity g stripe off d with tried := [] }.after
  | .groupBroken g other lost => .next { s.toldBroken g other lost with tried := [] }.after

/-- What a step does, but for the counts of the profiling unit. -/
noncomputable def advance (s : State) : Host.Outcome State Fault Refusal :=
  match s.inputs with
  | i :: r => { s with inputs := r }.takeInput i
  | [] =>
    if s.turn = .free then
      match s.pick with
      | some t => .next { s with turn := t }
      | none =>
        match s.autoEvent with
        | some i => mapNext State.after (exec i { s with rr := s.rr + 1, tried := [] })
        | none => .next { s with rr := s.rr + 1, tried := [] }
    else mapNext (fun t => t.endTurn.after) (runTurn s)

/-- One step. -/
noncomputable def step (s : State) : Host.Outcome State Fault Refusal := mapNext s.profiled (advance s)

/-! ## Placing one instruction where step fetches next (log 1) -/

/-- The page tables that map the 2 MiB page at 0x200000 to the same physical page, executable and writable, for ASID 1 (08_memory.md R228). -/
def State.withTables (s : State) : State :=
  let s := { s with regs := { s.regs with asidtab := 0x100000 } }
  let s := s.poke 0x100008 (leBytes 8 0x110001)
  let s := s.poke 0x110000 (leBytes 8 0x111001)
  let s := s.poke 0x111000 (leBytes 8 0x112001)
  let s := s.poke 0x112000 (leBytes 8 0x113001)
  s.poke 0x113008 (leBytes 8 0x20000F)

/-- A coil of one fibre at 0x200000, placed on core 0, whose MCC context stands there too where the instruction is one of the MCC's. -/
def probeCoil (id : Nat) (mcc : Bool) : Coil :=
  let c := Coil.new id 1 0 0 0 256 0 0
  { c with
    resident := true, st := .running, fibres := [{ Fibre.new 0 256 0x200000 [] 0 256 with place := .slot 0 }]
    eng := if mcc then .running else .idle
    mcc := if mcc then some { MccCtx.start 0 0x200000 [] with slot := some 0 } else none }

/-- The state with an instruction stored where step fetches next: mapped, in a coil that has the turn (log 1). -/
def State.withFetchWord (s : State) (nbits w : Nat) : State :=
  let mcc := tableIsMcc (tableBits nbits w)
  let id := s.nextId
  let s := s.withTables.poke 0x200000 (leBytes 12 (tableBits nbits w))
  { s with coils := s.coils.filter (fun c => c.id ≠ id) ++ [probeCoil id mcc], icache := [], nextId := id + 1, inputs := [],
           turn := if mcc then .mcc id else .plait id (.slot 0) }

end Sys2Proof.Machine
end

