-- ==== Sys2Proof/Safety.lean ====
section
/-! DEFINITION. What counts as a safe state, and the terms that statements about the machine use: a plait with nothing in its way, the
fibres that an instruction acts in, and what stays as it was. -/

/-- The length of an instruction in words (02_encoding.md R26). -/
def Sys2Proof.Form.words : Sys2Proof.Form → Nat
  | .compact _ _ => 1
  | .main _ m => m.words
  | .mcc _ m => if m.lit = none then 2 else 3
  | .event => 0

namespace Sys2Proof.Machine

/-- Device memory is in its canonical form. -/
def Memory.wf (s : State) : Bool := cellsWf s.mem

/-- What every step keeps: device memory, the scratchpads and the tile registers are in canonical form, and the tables have their sizes. -/
structure State.Inv (s : State) : Prop where
  memory : Memory.wf s = true
  scratch : ∀ c ∈ s.coils, cellsWf c.scratch = true
  tiles : ∀ c ∈ s.coils, ∀ t ∈ c.tiles, cellsWf t.bytes = true
  groups : s.groups.length = 256
  slots : s.qslots.length = 256

/-! ## Who acts -/

/-- The indices of a plait's active fibres (06_control.md R147). -/
def Coil.actives (c : Coil) (pl : Place) : List Nat := (c.plait pl).map Fibre.idx

/-- The indices of the execution mask under a guard (02_encoding.md R33). -/
def Coil.masked (c : Coil) (pl : Place) (g : Fibre → Bool) : List Nat :=
  ((c.fibres.filter (fun f => (c.actives pl).contains f.idx)).filter g).map Fibre.idx

/-- The lowest-numbered fibre of the execution mask (03_integer.md R61). -/
def Coil.lowest (c : Coil) (pl : Place) (g : Fibre → Bool) : Option Fibre := (c.masked pl g).head?.bind c.fibre?

/-- Nothing is in the way of a plait's next instruction (02_encoding.md R33, R40, R41, R44; 15_system.md R416): the plait has the turn, no
flag is set, no write is pending, no register is poisoned, no wait or command holds its fibres. -/
structure Quiet (s : State) (c : Coil) (pl : Place) (f0 : Fibre) : Prop where
  turn : s.turn = .plait c.id pl
  coil : s.coil? c.id = some c
  own : c.recOf = none
  first : (c.plait pl).head? = some f0
  free : ∀ w ∈ c.waits, ∀ i ∈ c.actives pl, i ∉ w.fibres
  clean : c.spoison = []
  calm : ∀ f ∈ c.fibres, f.idx ∈ c.actives pl → f.cf = 0 ∧ f.pend = [] ∧ f.poison = [] ∧ f.holds = 0

/-! ## What stays -/

/-- A fibre that has gone past an instruction is this one, but for where it stands, its pending writes and its flags. -/
def Fibre.Like (f g : Fibre) : Prop := 
  { f with pend := g.pend, cf := g.cf, pc := g.pc, loops := g.loops, place := g.place, strand := g.strand, since := g.since, waited := g.waited } = g

/-- A coil whose plait has executed an instruction is this one, but for its fibres and the device's notes about its progress. -/
def Coil.Like (c d : Coil) : Prop :=
  { c with fibres := d.fibres, instrs := d.instrs, ignoreWatch := d.ignoreWatch, deadlock := d.deadlock, stalled := d.stalled } = d

/-- A device in which one coil has executed an instruction is this one, but for that coil and the draws of free values and numbers. -/
def State.Like (s t : State) (id : Nat) : Prop :=
  { s with coils := t.coils, free := t.free, nextId := t.nextId } = t ∧ ∀ k, k ≠ id → s.coil? k = t.coil? k

/-- The coil c has the fibres of d and no others; each goes on as g says of it and stands, with its loop levels, where `dest` says. -/
def Coil.Moves (c d : Coil) (g : Fibre → Fibre) (dest : Fibre → List Loop × BitVec 64) : Prop :=
  c.live = d.live ∧ ∀ k f, d.fibre? k = some f → ∃ f', c.fibre? k = some f' ∧ f'.Like (g f) ∧ (f'.loops, f'.pc) = dest f

/-- A plait that is quiet and has a fibre whose guard holds: its next instruction executes. -/
def Ready (s : State) (c : Coil) (pl : Place) (f0 : Fibre) (guard : Fibre → Bool) : Prop :=
  Quiet s c pl f0 ∧ c.masked pl guard ≠ []

/-- What the fibres of the execution mask do, where the others stay. -/
def Coil.within (c : Coil) (pl : Place) (guard : Fibre → Bool) (g : Fibre → Fibre) (f : Fibre) : Fibre :=
  if f.idx ∈ c.masked pl guard then g f else f

/-- Where the fibres of a plait come to stand after an instruction at pc of n words that each leaves in its way; the others stay
(06_control.md R147, R157, R158). -/
def Coil.leaving (c : Coil) (pl : Place) (pc : BitVec 64) (n : Nat) (lv : Fibre → Leave) (f : Fibre) : List Loop × BitVec 64 :=
  if f.idx ∈ c.actives pl then f.onward pc (4 * n) (lv f) else (f.loops, f.pc)

/-- Where a fibre comes to stand after an instruction that the plait with the turn falls through: past it, and back to the start of a loop body that
it ends, if the fibre is active in that plait; where it was, if it is not (02_encoding.md R26; 06_control.md R147, R158). -/
def State.past (s : State) (i : Instr) (f : Fibre) : List Loop × BitVec 64 :=
  match s.turn with
  | .plait id pl =>
    match s.coil? id with
    | some c => c.leaving pl (((c.plait pl).head?.map Fibre.pc).getD 0) i.form.words (fun _ => .fall) f
    | none => (f.loops, f.pc)
  | _ => (f.loops, f.pc)

/-- The instruction executes: from s, the device comes to be like u, the issuing coil like d, with the fibres of c, each of which goes on as g says and
comes to stand, with its loop levels, where `dest` says. -/
def GoesTo (i : Instr) (s u : State) (c d : Coil) (g : Fibre → Fibre) (dest : Fibre → List Loop × BitVec 64) : Prop :=
  ∃ t c', exec i s = .next t ∧ u.Like t c.id ∧ t.coil? c.id = some c' ∧ c'.Like d ∧ c'.Moves c g dest

/-- The same of an instruction that falls through: its plait goes past it. -/
def Goes (i : Instr) (s u : State) (c d : Coil) (g : Fibre → Fibre) : Prop := GoesTo i s u c d g (s.past i)

/-- Wherever it is ready, the instruction changes each fibre of the mask as G says, and nothing else. -/
def PerFibre (i : Instr) (guard : Fibre → Bool) (G : Coil → Fibre → Fibre) : Prop :=
  ∀ s c pl f0, Ready s c pl f0 guard → Goes i s s c c (c.within pl guard (G c))

/-- Wherever it is ready, the instruction changes the coil's own registers as K says from the lowest fibre of the mask, raises flags in the
fibres of the mask, and changes nothing else. -/
def PerCoil (i : Instr) (guard : Fibre → Bool) (K : Coil → Fibre → Coil) (fl : Coil → Fibre → Word) : Prop :=
  ∀ s c pl f0, Ready s c pl f0 guard → ∃ f, c.lowest pl guard = some f ∧ Goes i s s c (K c f) (c.within pl guard (fun o => o.raise (fl c f)))

/-- Wherever it is ready, the instruction writes a value and raises flags: in each fibre of the mask from that fibre's sources, or, with D of
S class, once from the lowest fibre's (03_integer.md R61, R63). -/
def Computes (i : Instr) (guard : Fibre → Bool) (uni wide : Bool) (d : Nat) (val : Coil → Fibre → DWord × Word) : Prop :=
  if uni then PerCoil i guard (fun c f => c.put wide d (val c f).1) (fun c f => (val c f).2)
  else PerFibre i guard (fun c f => (f.put wide d (val c f).1).raise (val c f).2)

/-! ## Memory operands -/

/-- The fibres of the execution mask, in increasing index. -/
def Coil.acting (c : Coil) (pl : Place) (g : Fibre → Bool) : List Fibre := (c.masked pl g).filterMap c.fibre?

/-- A fibre after a memory instruction through a slot: the position of a stream bound in ADVANCE mode has moved on (03_integer.md R92). -/
def Fibre.steps (c : Coil) (slot : Nat) (f : Fibre) : Fibre :=
  match c.binding slot with
  | some b => if b.advance then f.advance (c.smReg b.sm) b.sm (f.posOf b.sm) 1 else f
  | none => f

/-- A coil whose fibres of the mask have stepped. -/
def Coil.stepped (c : Coil) (pl : Place) (g : Fibre → Bool) (slot : Nat) : Coil :=
  { c with fibres := c.fibres.map (c.within pl g (Fibre.steps c slot)) }

/-- An access of some lanes through a slot passes every check (08_memory.md R222) and meets no watchpoint (15_system.md R429): `l` are the
places of the lanes, `v` the device that translation leaves. The instruction has drawn one free value before (log 5). -/
structure Reaches (s : State) (c : Coil) (pl : Place) (h : Option Handle) (need : Need) (offs : List (Nat × BitVec 64)) (l : List Lane)
    (v : State) : Prop where
  resolved : s.draw.2.resolveLanes c h need offs = (l, [], v)
  unwatched : pl ∈ c.ignoreWatch ∨ c.watchHit need.read need.write l = none

/-- The bytes that a lane has read. -/
def bytesOf (vals : List (Nat × List PByte)) (k : Nat) : List PByte := ((vals.find? (fun e => e.1 = k)).map Prod.snd).getD []

/-- The pieces of device memory that the lanes of an access name first. -/
def lineSegs (l : List Lane) : List Seg := l.filterMap (fun i => match i.spot with | .mem (g :: _) _ _ _ => some g | _ => none)

end Sys2Proof.Machine

namespace Sys2Proof
open Machine

/-- The guard of a main-format instruction (02_encoding.md R31, R33). -/
def Main.guard (m : Main) (f : Machine.Fibre) : Bool := f.getP m.gsel.toNat != (m.gneg = 1)

/-- The offsets of a memory operand with a V base: base register, immediate and stream offset (08_memory.md R220). -/
def Main.offsets (m : Main) (imm : BitVec 64) (c : Coil) (pl : Place) : List (Nat × BitVec 64) :=
  (c.acting pl m.guard).map (fun f => (f.idx, (f.getV m.a.toNat).setWidth 64 + imm + c.streamOffset m.mod f))
/-- The offset of a uniform memory operand: the S base, the immediate and the lowest fibre's stream offset (03_integer.md R92). -/
def Main.offset1 (m : Main) (imm : BitVec 64) (c : Coil) (pl : Place) : List (Nat × BitVec 64) :=
  ((c.lowest pl m.guard).map (fun f => (f.idx, (c.getS m.a.toNat).setWidth 64 + imm + c.streamOffset m.mod f))).toList
/-- The offsets of an access to the scratchpad (08_memory.md R237). -/
def Main.padOffsets (m : Main) (imm : BitVec 64) (c : Coil) (pl : Place) : List (Nat × BitVec 64) :=
  (c.acting pl m.guard).map (fun f => (f.idx, (f.getV m.a.toNat).setWidth 64 + imm))

/-- The completion flag that SETF names (02_encoding.md R41). -/
def Main.flag (m : Main) : Option Nat := if m.setf = 15 then none else some m.setf

/-- The issue record of an instruction of a ready plait, from which its effect starts. -/
def Main.issued (m : Main) (s : State) (c : Coil) (pl : Place) (f0 : Fibre) : Iss :=
  { s := s.draw.2, c := c, src := c, place := pl, pc := f0.pc, words := m.words, act := c.actives pl, mask := c.masked pl m.guard,
    leaves := [], setf := none, early := [] }

/-- A commit of a plait's fibres at an instruction drops nothing: `v` and `k` are the device and the coil that it leaves (07_work.md R188). -/
def Main.Commits (m : Main) (u : State) (c : Coil) (pl : Place) (f0 : Fibre) (v : State) (k : Coil) : Prop :=
  u.commitFor c (c.actives pl) (f0.pc + BitVec.ofNat 64 (4 * m.words)) c.window = (v, k, [])

end Sys2Proof
end

