-- ==== Sys2Proof/Certificates/Slice0/Obligations.lean ====
section
/-! DEFINITION. The statements about the machine, as propositions. `Ready` and what it leads to are in Sys2Proof/Safety.lean. A statement that an
instruction `Computes`, acts `PerFibre` or `PerCoil`, or `Goes`, says four things at once: it answers a next state; what it writes; that its
plait goes past it, and the coil's other fibres stay where they are; and that nothing else of the device, the coil or its fibres changes, but which
slot a fibre's plait has, its pending writes and its flags. No fibre comes and none goes. -/

namespace Sys2Proof
open Machine

/-! ## Operands of an integer instruction as its type reads them (03_integer.md R67) -/

def Main.va (m : Main) (c : Coil) (f : Fibre) : DWord := (m.opA m.uni m.wide).get c f
def Main.vb (m : Main) (c : Coil) (f : Fibre) : DWord := (m.opB m.uni m.wide m.sgn).get c f
def Main.vc (m : Main) (c : Coil) (f : Fibre) : DWord := (m.opC m.uni m.wide).get c f
def Main.ia (m : Main) (c : Coil) (f : Fibre) : Int := tInt m.wide m.sgn (m.va c f)
def Main.ib (m : Main) (c : Coil) (f : Fibre) : Int := tInt m.wide m.sgn (m.vb c f)
/-- The 32-bit operands of a logic instruction. -/
def Main.wa (m : Main) (c : Coil) (f : Fibre) : Word := ((m.opA m.uni false).get c f).lo
def Main.wb (m : Main) (c : Coil) (f : Fibre) : Word := ((m.opB m.uni false false).get c f).lo

/-- The instruction computes a value with no flag, of which a property holds that fixes it. -/
def Finds (i : Instr) (m : Main) (uni : Bool) (P : Coil → Fibre → Word → Prop) : Prop :=
  ∃ val : Coil → Fibre → Word, (∀ c f, P c f (val c f)) ∧ Computes i m.guard uni false m.d.toNat (fun c f => ((val c f).setWidth 64, 0))

end Sys2Proof

open Sys2Proof Sys2Proof.Machine

/-! ## Integer instructions -/

/-- The wrapping arithmetic of 03_integer.md R69 and R70 writes the sum, difference, product, high half, absolute value or choice. -/
def Obligations.IntegerArithmeticWrites : Prop :=
  ∀ m : Main,
    Computes (.iadd m) m.guard m.uni m.wide m.d.toNat (fun c f => (m.va c f + m.vb c f, 0)) ∧
    Computes (.isub m) m.guard m.uni m.wide m.d.toNat (fun c f => (m.va c f - m.vb c f, 0)) ∧
    Computes (.ineg m) m.guard m.uni m.wide m.d.toNat (fun c f => (0 - m.va c f, 0)) ∧
    Computes (.iabs m) m.guard m.uni m.wide m.d.toNat (fun c f => (if m.ia c f < 0 then 0 - m.va c f else m.va c f, 0)) ∧
    Computes (.imul m) m.guard m.uni m.wide m.d.toNat (fun c f => (m.va c f * m.vb c f, 0)) ∧
    Computes (.imulh m) m.guard m.uni m.wide m.d.toNat
      (fun c f => (BitVec.ofInt 64 ((m.ia c f * m.ib c f) / 2 ^ (if m.wide then 64 else 32)), 0)) ∧
    Computes (.imad m) m.guard m.uni m.wide m.d.toNat (fun c f => (m.va c f * m.vb c f + m.vc c f, 0)) ∧
    Computes (.imadw m) m.guard m.uni true m.d.toNat
      (fun c f =>
        let ext (x : DWord) : DWord := if m.sgn then x.lo.signExtend 64 else x.lo.setWidth 64
        (ext ((m.opA m.uni false).get c f) * ext ((m.opB m.uni false m.sgn).get c f) + (m.opC m.uni true).get c f, 0)) ∧
    Computes (.imin m) m.guard m.uni m.wide m.d.toNat (fun c f => (if m.ia c f ≤ m.ib c f then m.va c f else m.vb c f, 0)) ∧
    Computes (.imax m) m.guard m.uni m.wide m.d.toNat (fun c f => (if m.ia c f ≤ m.ib c f then m.vb c f else m.va c f, 0))

/-- Division truncates toward zero, the remainder takes the dividend's sign, and a zero divisor gives all ones, the dividend and DIVZ
(03_integer.md R71). -/
def Obligations.IntegerDivisionTruncates : Prop :=
  ∀ m : Main,
    Computes (.idiv m) m.guard m.uni m.wide m.d.toNat (fun c f =>
      if m.ib c f = 0 then (BitVec.allOnes 64, flagDivz) else (BitVec.ofInt 64 ((m.ia c f).tdiv (m.ib c f)), 0)) ∧
    Computes (.irem m) m.guard m.uni m.wide m.d.toNat (fun c f =>
      if m.ib c f = 0 then (m.va c f, flagDivz)
      else (BitVec.ofInt 64 (m.ia c f - (m.ia c f).tdiv (m.ib c f) * m.ib c f), 0))

/-- ISAT clamps to the range of a w-bit integer and raises SAT when it does (03_integer.md R72). ICMP writes the comparison's truth to a
predicate, and nothing to p0 (R73; 02_encoding.md R31). -/
def Obligations.SaturateAndCompare : Prop :=
  ∀ m : Main,
    (let w := m.b.toNat
     let lo : Int := if m.uni then 0 else -2 ^ (w - 1)
     let hi : Int := if m.uni then 2 ^ w - 1 else 2 ^ (w - 1) - 1
     Computes (.isat m) m.guard false m.wide m.d.toNat (fun c f =>
       let a := tInt m.wide m.sgn ((m.opA false m.wide).get c f)
       (BitVec.ofInt 64 (if a < lo then lo else if a > hi then hi else a), if a < lo ∨ a > hi then flagSat else 0))) ∧
    PerFibre (.icmp m) m.guard (fun c f =>
      let a := m.ia c f
      let b := m.ib c f
      f.setP m.d.toNat (match m.c with | 0 => a = b | 1 => a ≠ b | 2 => a < b | 3 => a ≤ b | 4 => a > b | _ => a ≥ b))

/-- Logic, shifts, rotates and bit fields on 32 bits (03_integer.md R74 to R77). -/
def Obligations.LogicShiftsBitFields : Prop :=
  ∀ m : Main,
    Computes (.andOp m) m.guard m.uni false m.d.toNat (fun c f => ((m.wa c f &&& m.wb c f).setWidth 64, 0)) ∧
    Computes (.orOp m) m.guard m.uni false m.d.toNat (fun c f => ((m.wa c f ||| m.wb c f).setWidth 64, 0)) ∧
    Computes (.xorOp m) m.guard m.uni false m.d.toNat (fun c f => ((m.wa c f ^^^ m.wb c f).setWidth 64, 0)) ∧
    Computes (.andn m) m.guard m.uni false m.d.toNat (fun c f => ((m.wa c f &&& ~~~m.wb c f).setWidth 64, 0)) ∧
    Computes (.notOp m) m.guard m.uni false m.d.toNat (fun c f => ((~~~m.wa c f).setWidth 64, 0)) ∧
    Finds (.lut3 m) m false (fun _ f w => ∀ i < 32, w.getLsbD i = (m.imm % 256).testBit
      (4 * ((f.getV m.d.toNat).getLsbD i).toNat + 2 * ((f.getV m.a.toNat).getLsbD i).toNat
        + (match m.lit with | some l => l.getLsbD i | none => (f.getV m.b.toNat).getLsbD i).toNat)) ∧
    Finds (.shl m) m m.uni (fun c f w =>
      let n := (m.wb c f).toNat % 64
      w = if n < 32 then m.wa c f <<< n else 0) ∧
    Finds (.shr m) m m.uni (fun c f w =>
      let n := (m.wb c f).toNat % 64
      w = if n < 32 then m.wa c f >>> n else 0) ∧
    Finds (.sar m) m m.uni (fun c f w =>
      let n := (m.wb c f).toNat % 64
      w = if n < 32 then (m.wa c f).sshiftRight n else if (m.wa c f).getLsbD 31 then BitVec.allOnes 32 else 0) ∧
    Finds (.rot m) m m.uni (fun c f w => w = (m.wa c f).rotateLeft ((m.wb c f).toNat % 32)) ∧
    Finds (.fshl m) m false (fun _ f w =>
      let b := match m.lit with | some l => l | none => f.getV m.b.toNat
      w = ((f.getV m.a.toNat ++ b : DWord) <<< ((f.getV m.c).toNat % 64)).extractLsb' 32 32) ∧
    Finds (.bfx m) m false (fun _ f w =>
      let pos := m.imm % 32
      let len := m.imm / 32 % 32 + 1
      let x := (f.getV m.a.toNat).toNat / 2 ^ pos % 2 ^ len
      if m.imm / 1024 = 1 ∧ x.testBit (len - 1) then (w.toInt = (x : Int) - 2 ^ len) else w.toNat = x) ∧
    Finds (.bfi m) m false (fun _ f w =>
      let pos := m.imm % 32
      let len := m.imm / 32 % 32 + 1
      ∀ i < 32, w.getLsbD i = if pos ≤ i ∧ i < pos + len then (f.getV m.a.toNat).getLsbD (i - pos) else (f.getV m.d.toNat).getLsbD i) ∧
    Finds (.popc m) m m.uni (fun c f w => w.toNat = ((List.range 32).filter (fun i => (m.wa c f).getLsbD i)).length) ∧
    Finds (.clz m) m m.uni (fun c f w =>
      if m.wa c f = 0 then w = 32 else w.toNat < 32 ∧ 2 ^ (31 - w.toNat) ≤ (m.wa c f).toNat ∧ (m.wa c f).toNat < 2 ^ (32 - w.toNat)) ∧
    Finds (.ctz m) m m.uni (fun c f w =>
      if m.wa c f = 0 then w = 32
      else w.toNat < 32 ∧ (m.wa c f).toNat % 2 ^ w.toNat = 0 ∧ (m.wa c f).getLsbD w.toNat = true) ∧
    Finds (.brev m) m m.uni (fun c f w => ∀ i < 32, w.getLsbD i = (m.wa c f).getLsbD (31 - i)) ∧
    Finds (.bswap m) m m.uni (fun c f w =>
      ∀ k < 4, w.extractLsb' (8 * k) 8 = (m.wa c f).extractLsb' (8 * (if m.mod % 4 = 0 then 3 - k else k / 2 * 2 + (1 - k % 2))) 8)

/-- Moves, selection and predicates (03_integer.md R78 to R81). -/
def Sys2Proof.Says.MovesSelectsPredicates : Prop :=
  ∀ m : Main,
    Computes (.mov m) m.guard (m.mod % 4 ≥ 2) m.uni m.d.toNat
      (fun c f => ((m.opA (m.mod % 4 = 1 || m.mod % 4 = 2) m.uni).get c f, 0)) ∧
    (∀ l, m.lit = some l →
      (m.mod % 4 = 0 → Computes (.movl m) m.guard m.uni false m.d.toNat (fun _ _ => (l.setWidth 64, 0))) ∧
      (m.mod % 4 = 1 → Computes (.movl m) m.guard m.uni true m.d.toNat (fun _ _ => (l.signExtend 64, 0))) ∧
      (m.mod % 4 = 2 → Computes (.movl m) m.guard m.uni true m.d.toNat (fun _ _ => (l.setWidth 64, 0))) ∧
      (m.mod % 4 = 3 → Computes (.movl m) m.guard m.uni false (m.d.toNat + 1) (fun _ _ => (l.setWidth 64, 0)))) ∧
    Computes (.sel m) m.guard false (m.mod = 1) m.d.toNat
      (fun c f => (if f.getP m.c then (m.opA false (m.mod = 1)).get c f else (m.opB false (m.mod = 1) true).get c f, 0)) ∧
    PerFibre (.pset m) m.guard (fun _ f => f.setP m.d.toNat ((f.getV m.a.toNat).getLsbD (m.imm % 32))) ∧
    PerFibre (.plop m) m.guard (fun _ f =>
      f.setP m.d.toNat (m.imm.testBit (2 * (f.getP m.a.toNat).toNat + (f.getP m.b.toNat).toNat))) ∧
    Finds (.prdw m) m false (fun _ f w => ∀ i, w.getLsbD i = (decide (i < 16) && f.getP i)) ∧
    (∃ preds : Fibre → BitVec 16,
      (∀ f i, (preds f).getLsbD i =
        if 0 < i ∧ i < 16 ∧ (match m.lit with | none => m.imm | some l => l.toNat * 2048 + m.imm).testBit i then (f.getV m.a.toNat).getLsbD i
        else f.p.getLsbD i) ∧
      PerFibre (.pwrw m) m.guard (fun _ f => { f with p := preds f }))

namespace Sys2Proof
open Machine

/-- Half k of a word, read as MOD says (03_integer.md R82). -/
def Main.half (m : Main) (w : Word) (k : Nat) : Int :=
  if m.mod % 2 = 0 then (w.extractLsb' (16 * k) 16).toInt else (w.extractLsb' (16 * k) 16).toNat
/-- Both halves of a packed operation, clamped where MOD says so, with SAT when one is clamped (03_integer.md R82). -/
def Main.packed (m : Main) (op : Int → Int → Int) (c : Coil) (f : Fibre) : DWord × Word :=
  let lo : Int := if m.mod % 2 = 0 then -32768 else 0
  let hi : Int := if m.mod % 2 = 0 then 32767 else 65535
  let t (k : Nat) : Int := op (m.half (f.getV m.a.toNat) k) (m.half ((m.opB false false false).get c f).lo k)
  let r (k : Nat) : BitVec 16 := BitVec.ofInt 16 (if m.mod < 2 then t k else max lo (min hi (t k)))
  ((r 1 ++ r 0 : Word).setWidth 64, if 2 ≤ m.mod ∧ ((t 0 < lo ∨ hi < t 0) ∨ (t 1 < lo ∨ hi < t 1)) then flagSat else 0)
/-- The saturated sum of c and the products of the n parts of a and b (03_integer.md R83). -/
def macOf (n : Nat) (asgn bsgn csgn : Bool) (a b c : Word) : DWord × Word :=
  let p (w : Word) (sgn : Bool) (k : Nat) : Int :=
    if sgn then (w.extractLsb' (32 / n * k) (32 / n)).toInt else (w.extractLsb' (32 / n * k) (32 / n)).toNat
  let t : Int := (List.range n).foldl (fun t k => t + p a asgn k * p b bsgn k) (if csgn then c.toInt else c.toNat)
  let lo : Int := if csgn then -2 ^ 31 else 0
  let hi : Int := if csgn then 2 ^ 31 - 1 else 2 ^ 32 - 1
  (BitVec.ofInt 64 (max lo (min hi t)), if t < lo ∨ hi < t then flagSat else 0)
/-- Operand B of a packed instruction. -/
def Main.wordB (m : Main) (f : Fibre) : Word := match m.lit with | some l => l | none => f.getV m.b.toNat

/-- A compact instruction writes a word from v[A] and either v[B] or the 6-bit immediate, with no flag (02_encoding.md R37). -/
def CompactWrites (i : Instr) (k : Compact) (val : Word → Word → Word) (b : Fibre → Word) : Prop :=
  PerFibre i (fun _ => true) (fun _ f => f.setV k.d.toNat (val (f.getV k.a.toNat) (b f)))
/-- Operand B of a compact instruction: a register, a signed or a natural immediate. -/
def Compact.reg (k : Compact) (f : Fibre) : Word := f.getV k.b.toNat
def Compact.signed (k : Compact) (_ : Fibre) : Word := k.b.signExtend 32
def Compact.natural (k : Compact) (_ : Fibre) : Word := k.b.setWidth 32

end Sys2Proof

/-- Packed halves, dot products and rounding shifts (03_integer.md R82 to R84). -/
def Obligations.PackedArithmetic : Prop :=
  ∀ m : Main,
    Computes (.padd2 m) m.guard false false m.d.toNat (m.packed (fun a b => a + b)) ∧
    Computes (.psub2 m) m.guard false false m.d.toNat (m.packed (fun a b => a - b)) ∧
    Computes (.pmin2 m) m.guard false false m.d.toNat (m.packed (fun a b => if a ≤ b then a else b)) ∧
    Computes (.pmax2 m) m.guard false false m.d.toNat (m.packed (fun a b => if a ≤ b then b else a)) ∧
    Computes (.pmac2 m) m.guard false false m.d.toNat
      (fun _ f => macOf 2 (m.mod = 0) (m.mod = 0) (m.mod = 0) (f.getV m.a.toNat) (m.wordB f) (f.getV m.c)) ∧
    Computes (.pmac4 m) m.guard false false m.d.toNat
      (fun _ f => macOf 4 (m.mod ≠ 1) (m.mod = 0) (m.mod ≠ 1) (f.getV m.a.toNat) (m.wordB f) (f.getV m.c)) ∧
    Computes (.shrr m) m.guard false (m.wide && !m.uni) m.d.toNat (fun c f =>
      let a := tInt m.wide m.sgn ((m.opA false m.wide).get c f)
      let n := (m.wordB f).toNat % 64
      let r := if n = 0 then a else (a + 2 ^ (n - 1)) / 2 ^ n
      let w := if m.wide then 32 else 16
      let lo : Int := if m.sgn then -2 ^ (w - 1) else 0
      let hi : Int := if m.sgn then 2 ^ (w - 1) - 1 else 2 ^ w - 1
      if m.uni then (BitVec.ofInt 64 (max lo (min hi r)), if r < lo ∨ hi < r then flagSat else 0) else (BitVec.ofInt 64 r, 0))

/-- LEA adds a shifted index, ADR and CTXA form addresses from the PC and from CTXBASE, modulo 2^64 (03_integer.md R85 to R88). -/
def Sys2Proof.Says.AddressesAreFormed : Prop :=
  ∀ m : Main,
    Computes (.lea m) m.guard m.uni (m.mod % 4 ≠ 0) m.d.toNat (fun c f =>
      let b := (m.opB m.uni (m.mod % 4 = 3) false).get c f
      ((m.opA m.uni (m.mod % 4 ≠ 0)).get c f + ((if m.mod % 4 = 1 then b.lo.signExtend 64 else b) <<< m.c), 0)) ∧
    (∀ s c pl f0, Ready s c pl f0 m.guard →
      if m.b = 0 then Goes (.adr m) s s c (c.setSD m.d.toNat (f0.pc + BitVec.ofInt 64 (4 * m.simm))) (fun f => f)
      else Goes (.adr m) s s c c (c.within pl m.guard (fun f => f.setVD m.d.toNat (f0.pc + BitVec.ofInt 64 (4 * m.simm))))) ∧
    (∀ s c pl f0, Ready s c pl f0 m.guard →
      if m.b = 0 then Goes (.ctxa m) s s c (c.setSD m.d.toNat (c.ctxbase + BitVec.ofInt 64 m.simm)) (fun f => f)
      else Goes (.ctxa m) s s c c (c.within pl m.guard (fun f => f.setVD m.d.toNat (c.ctxbase + BitVec.ofInt 64 m.simm))))

/-- Moves, selects, predicate operations and address formation execute. -/
def Obligations.MovesSelectsAndAddresses : Prop := Says.MovesSelectsPredicates ∧ Says.AddressesAreFormed

/-- Each compact instruction has the effect of its main form under the active mask (02_encoding.md R36 to R38). -/
def Obligations.CompactFormsExecute : Prop :=
  ∀ k : Compact,
    PerFibre (.nopCompact k) (fun _ => true) (fun _ f => f) ∧
    CompactWrites (.movCompact k) k (fun a _ => a) k.reg ∧
    CompactWrites (.movImmCompact k) k (fun _ b => b) k.signed ∧
    CompactWrites (.iaddS32Compact k) k (fun a b => a + b) k.reg ∧
    CompactWrites (.iaddS32ImmCompact k) k (fun a b => a + b) k.signed ∧
    CompactWrites (.isubS32Compact k) k (fun a b => a - b) k.reg ∧
    CompactWrites (.isubS32ImmCompact k) k (fun a b => a - b) k.signed ∧
    CompactWrites (.andCompact k) k (fun a b => a &&& b) k.reg ∧
    CompactWrites (.andImmCompact k) k (fun a b => a &&& b) k.natural ∧
    CompactWrites (.orCompact k) k (fun a b => a ||| b) k.reg ∧
    CompactWrites (.orImmCompact k) k (fun a b => a ||| b) k.natural ∧
    CompactWrites (.xorCompact k) k (fun a b => a ^^^ b) k.reg ∧
    CompactWrites (.xorImmCompact k) k (fun a b => a ^^^ b) k.natural ∧
    CompactWrites (.andnCompact k) k (fun a b => a &&& ~~~b) k.reg ∧
    CompactWrites (.notCompact k) k (fun a _ => ~~~a) k.reg ∧
    CompactWrites (.shlCompact k) k (fun a b => if b.toNat % 64 < 32 then a <<< (b.toNat % 64) else 0) k.reg ∧
    CompactWrites (.shlImmCompact k) k (fun a b => if b.toNat % 64 < 32 then a <<< (b.toNat % 64) else 0) k.natural ∧
    CompactWrites (.shrCompact k) k (fun a b => if b.toNat % 64 < 32 then a >>> (b.toNat % 64) else 0) k.reg ∧
    CompactWrites (.shrImmCompact k) k (fun a b => if b.toNat % 64 < 32 then a >>> (b.toNat % 64) else 0) k.natural ∧
    CompactWrites (.sarCompact k) k (fun a b => a.sshiftRight (min 31 (b.toNat % 64))) k.reg ∧
    CompactWrites (.sarImmCompact k) k (fun a b => a.sshiftRight (min 31 (b.toNat % 64))) k.natural ∧
    CompactWrites (.iminS32Compact k) k (fun a b => if a.toInt ≤ b.toInt then a else b) k.reg ∧
    CompactWrites (.imaxS32Compact k) k (fun a b => if a.toInt ≤ b.toInt then b else a) k.reg ∧
    CompactWrites (.iminN32Compact k) k (fun a b => if a.toNat ≤ b.toNat then a else b) k.reg ∧
    CompactWrites (.imaxN32Compact k) k (fun a b => if a.toNat ≤ b.toNat then b else a) k.reg ∧
    CompactWrites (.inegS32Compact k) k (fun a _ => 0 - a) k.reg

/-- Stream patterns: SMSET loads a pattern and starts the walk, SMBIND binds a slot, SMPOS reads and sets a position, SMADV advances and
raises SWRAP when the walk wraps (03_integer.md R90 to R94). -/
def Obligations.StreamPatternsWalk : Prop :=
  ∀ m : Main,
    (∀ s c pl f0, Ready s c pl f0 m.guard →
      let w : BitVec 256 := BitVec.ofNat 256 (((List.range 8).foldl (fun a k => a + (c.getS (m.a.toNat + k)).toNat * 2 ^ (32 * k)) 0) % 2 ^ 240)
      Goes (.smset m) s s c { c with sm := c.sm.set m.d.toNat w } (fun f =>
        f.setPos m.d.toNat (if f.idx ∈ c.masked pl m.guard then 0 else f.posOf m.d.toNat % smTotal w))) ∧
    (∀ s c pl f0, Ready s c pl f0 m.guard →
      Goes (.smbind m) s s c
        { c with binds := c.binds.set m.mod (if m.b = 0 then none else some { sm := m.a.toNat, advance := m.b = 2 }) } (fun f => f)) ∧
    (m.mod = 0 → PerFibre (.smpos m) m.guard (fun c f => f.setVD m.d.toNat (smOffset (c.smReg m.b.toNat) f.idx (f.posOf m.b.toNat)))) ∧
    (m.mod = 1 → PerFibre (.smpos m) m.guard (fun _ f => f.setVD m.d.toNat (BitVec.ofNat 64 (f.posOf m.b.toNat)))) ∧
    (m.mod = 2 → PerFibre (.smpos m) m.guard (fun c f =>
      f.setPos m.b.toNat ((f.getVD m.a.toNat).toNat % smTotal (c.smReg m.b.toNat)))) ∧
    PerFibre (.smadv m) m.guard (fun c f =>
      let k := f.posOf m.d.toNat + (m.wordB f).toNat
      let N := smTotal (c.smReg m.d.toNat)
      (f.setPos m.d.toNat (k % N)).raise (if N ≤ k then flagSwrap else 0))

/-! ## Floating-point instructions -/

/-- A packed 16-bit operation acts on both halves of its operands, each in the type that MOD names (04_floating.md R117). -/
def Sys2Proof.Main.bothHalves (op : DWord → DWord → DWord → DWord × Word) (a b c : DWord) : DWord × Word :=
  let half (x : DWord) (k : Nat) : DWord := (x.extractLsb' (16 * k) 16).setWidth 64
  let r (k : Nat) : DWord × Word := op (half a k) (half b k) (half c k)
  (((r 1).1.setWidth 16 ++ (r 0).1.setWidth 16 : Word).setWidth 64, (r 0).2 ||| (r 1).2)

/-- A sum, product or fused multiply-add of values in a format, rounded once in a mode, with its flags (04_floating.md R103 to R105, R112). -/
def Sys2Proof.Machine.Fmt.once (t : Fmt) (mode : Nat) (r : Raw) : DWord × Word :=
  (BitVec.ofNat 64 (t.finish mode 0 true r).1, (t.finish mode 0 true r).2)

/-- The value of the low bits of a register in a format. -/
def Sys2Proof.Machine.Fmt.of (t : Fmt) (x : DWord) : Val := t.val (x.toNat % 2 ^ t.bits)

/-- F32, F64 and packed arithmetic rounds the exact result once (04_floating.md R112, R116 to R118). -/
def Sys2Proof.Says.FloatArithmeticRoundsOnce : Prop :=
  ∀ m : Main,
    Computes (.fadd m) m.guard false false m.d.toNat (fun c f =>
      f32.once m.mod (addVal m.mod (f32.of ((m.opA false false).get c f)) (f32.of ((m.opB false false false).get c f)))) ∧
    Computes (.fsub m) m.guard false false m.d.toNat (fun c f =>
      f32.once m.mod (addVal m.mod (f32.of ((m.opA false false).get c f)) (f32.of ((m.opB false false false).get c f)).negate)) ∧
    Computes (.fmul m) m.guard false false m.d.toNat (fun c f =>
      f32.once m.mod (mulVal (f32.of ((m.opA false false).get c f)) (f32.of ((m.opB false false false).get c f))).1.raw) ∧
    Computes (.ffma m) m.guard false false m.d.toNat (fun c f =>
      f32.once m.mod (fmaVal m.mod (f32.of ((m.opA false false).get c f)) (f32.of ((m.opB false false false).get c f))
        (f32.of ((m.opC false false).get c f)))) ∧
    Computes (.dadd m) m.guard false true m.d.toNat (fun c f =>
      f64.once m.mod (addVal m.mod (f64.of ((m.opA false true).get c f)) (f64.of ((m.opB false true false).get c f)))) ∧
    Computes (.dmul m) m.guard false true m.d.toNat (fun c f =>
      f64.once m.mod (mulVal (f64.of ((m.opA false true).get c f)) (f64.of ((m.opB false true false).get c f))).1.raw) ∧
    Computes (.dfma m) m.guard false true m.d.toNat (fun c f =>
      f64.once m.mod (fmaVal m.mod (f64.of ((m.opA false true).get c f)) (f64.of ((m.opB false true false).get c f))
        (f64.of ((m.opC false true).get c f)))) ∧
    Computes (.fadd2 m) m.guard false false m.d.toNat (fun c f =>
      Main.bothHalves (fun a b _ => (packFmt m).once (m.mod % 4) (addVal (m.mod % 4) ((packFmt m).of a) ((packFmt m).of b)))
        ((m.opA false false).get c f) ((m.opB false false false).get c f) 0) ∧
    Computes (.fmul2 m) m.guard false false m.d.toNat (fun c f =>
      Main.bothHalves (fun a b _ => (packFmt m).once (m.mod % 4) (mulVal ((packFmt m).of a) ((packFmt m).of b)).1.raw)
        ((m.opA false false).get c f) ((m.opB false false false).get c f) 0) ∧
    Computes (.ffma2 m) m.guard false false m.d.toNat (fun c f =>
      Main.bothHalves
        (fun a b d => (packFmt m).once (m.mod % 4) (fmaVal (m.mod % 4) ((packFmt m).of a) ((packFmt m).of b) ((packFmt m).of d)))
        ((m.opA false false).get c f) ((m.opB false false false).get c f) ((m.opC false false).get c f)) ∧
    Computes (.frnd m) m.guard false false m.d.toNat (fun _ f => regOf (frndW m.mod (fval (f.getV m.a.toNat)))) ∧
    Computes (.fscale m) m.guard false false m.d.toNat (fun _ f => regOf (fscaleW m.mod (fval (f.getV m.a.toNat)) (m.wordB f).toInt))

/-- Rounding an exact n · 2^e to a multiple k · 2^q of a coarser quantum: k is one of the two neighbours, the inexact flag says whether the
value is not a multiple, and each mode picks its neighbour (04_floating.md R103). -/
def Sys2Proof.Says.RoundingPicksTheNeighbour : Prop :=
  ∀ (neg : Bool) (n : Nat) (e : Int) (sh mode draw : Nat),
    0 < sh →
    let r := (exactOf neg n e).at (e + sh) mode draw
    (r.1 = n / 2 ^ sh ∨ r.1 = n / 2 ^ sh + 1) ∧ (r.2 = true ↔ n % 2 ^ sh ≠ 0) ∧ (n % 2 ^ sh = 0 → r.1 = n / 2 ^ sh) ∧
    (mode = 0 → (2 * r.1 * 2 ^ sh ≤ 2 * n + 2 ^ sh ∧ 2 * n ≤ 2 * r.1 * 2 ^ sh + 2 ^ sh) ∧ (2 * (n % 2 ^ sh) = 2 ^ sh → r.1 % 2 = 0)) ∧
    (mode = 1 → r.1 * 2 ^ sh ≤ n) ∧
    (mode = 2 → if neg then r.1 * 2 ^ sh ≤ n else n ≤ r.1 * 2 ^ sh) ∧
    (mode = 3 → if neg then n ≤ r.1 * 2 ^ sh else r.1 * 2 ^ sh ≤ n) ∧
    (mode = 4 → 2 * r.1 * 2 ^ sh ≤ 2 * n + 2 ^ sh ∧ 2 * n < 2 * r.1 * 2 ^ sh + 2 ^ sh)

/-- Floating-point arithmetic rounds its exact result once, and a rounding picks the neighbour that its mode names. -/
def Obligations.FloatArithmeticRounds : Prop := Says.FloatArithmeticRoundsOnce ∧ Says.RoundingPicksTheNeighbour

/-- Minimum, maximum, comparison, class and exponent (04_floating.md R113 to R116). -/
def Obligations.FloatComparesAndClasses : Prop :=
  ∀ m : Main,
    Computes (.fmin m) m.guard false m.wide m.d.toNat (fun c f =>
      let t := if m.wide then f64 else f32
      regOf (minMax t false (m.mod % 2 = 1) ((m.opA false m.wide).get c f).toNat ((m.opB false m.wide false).get c f).toNat)) ∧
    Computes (.fmax m) m.guard false m.wide m.d.toNat (fun c f =>
      let t := if m.wide then f64 else f32
      regOf (minMax t true (m.mod % 2 = 1) ((m.opA false m.wide).get c f).toNat ((m.opB false m.wide false).get c f).toNat)) ∧
    PerFibre (.fcmp m) m.guard (fun _ f =>
      let r := cmpVal m.c (m.mod = 1) (f32.val (f.getV m.a.toNat).toNat) (f32.val (m.wordB f).toNat)
      (f.setP m.d.toNat r.1).raise r.2) ∧
    PerFibre (.dcmp m) m.guard (fun c f =>
      let r := cmpVal m.c (m.mod = 1) (f64.val (f.getVD m.a.toNat).toNat) (f64.val ((m.opB false true false).get c f).toNat)
      (f.setP m.d.toNat r.1).raise r.2) ∧
    Computes (.fclass m) m.guard false false m.d.toNat (fun c f =>
      let t := classFmt m
      (BitVec.ofNat 64 (2 ^ classBit t (t.of ((m.opA false (m.mod = 1)).get c f))), 0)) ∧
    Computes (.fgetexp m) m.guard false false m.d.toNat (fun _ f => regOf (getexpW (fval (f.getV m.a.toNat))))

/-- Conversions between formats and integers, stochastic rounding, the Walsh-Hadamard transform and block quantisation (04_floating.md R108,
R120 to R126). -/
def Obligations.ConversionsAndBlocks : Prop :=
  ∀ m : Main,
    PerFibre (.fcvt m) m.guard (fun c f =>
      let dst := m.imm % 16
      let src := m.imm / 16 % 16
      let v := (fmtOf src).val (element src m.b.toNat ((m.opA false (src = 3)).get c f).toNat)
      let r := (fmtOf dst).convert (m.imm / 256) 0 (f.fctl.getLsbD 2) v
      (f.put (dst = 3) m.d.toNat (BitVec.ofNat 64 r.1)).raise r.2) ∧
    PerFibre (.fcvtSr m) m.guard (fun c f =>
      let dst := m.imm % 16
      let src := m.imm / 16 % 16
      let v := (fmtOf src).val (element src m.b.toNat ((m.opA false (src = 3)).get c f).toNat)
      let r := (fmtOf dst).convert 5 (srsNext f.srs).toNat (f.fctl.getLsbD 2) v
      { (f.put (dst = 3) m.d.toNat (BitVec.ofNat 64 r.1)).raise r.2 with srs := srsNext f.srs }) ∧
    Computes (.f2i m) m.guard false (m.imm / 16 % 8 = 2 || m.imm / 16 % 8 = 3) m.d.toNat (fun c f =>
      let src := m.imm % 16
      let r := toIntVal (m.imm / 16 % 8) (m.imm / 256) ((fmtOf src).val (element src m.b.toNat ((m.opA false (src = 3)).get c f).toNat))
      (BitVec.ofInt 64 r.1, r.2)) ∧
    Computes (.i2f m) m.guard false (m.imm % 16 = 3) m.d.toNat (fun c f =>
      let int := m.imm / 16 % 4
      let a := tInt (int ≥ 2) (int % 2 = 0) ((m.opA false (int ≥ 2)).get c f)
      (fmtOf (m.imm % 16)).once (m.imm / 256) (.fin (exactOf (a < 0) a.natAbs 0))) ∧
    PerFibre (.srseed m) m.guard (fun c f =>
      { f with srs := srsSeed (if m.mod = 1 then c.getS m.a.toNat else f.getV m.a.toNat) f.idx }) ∧
    PerFibre (.hadm m) m.guard (fun _ f =>
      let k := if m.b = 1 then 32 else 16
      let r := hadamard k (f.getVs m.a.toNat k)
      (f.setVs m.d.toNat r.1).raise r.2) ∧
    PerFibre (.qcvt m) m.guard (fun _ f =>
      let given := if m.b.getLsbD 6 then some ((f.getV (m.d.toNat + blockRegs (selFmt m.b) (selN32 m.b))).toNat % 65536) else none
      let r := quantise m.b m.mod given (f.getVs m.a.toNat (selN m.b)) f.srs
      { (f.setVs m.d.toNat r.1).raise r.2.1 with srs := r.2.2 }) ∧
    PerFibre (.dqcvt m) m.guard (fun _ f =>
      let p := blockRegs (selFmt m.b) (selN32 m.b)
      let r := dequantise m.b m.mod ((f.getV (m.a.toNat + p)).toNat % 65536) (f.getVs m.a.toNat p)
      (f.setVs m.d.toNat r.1).raise r.2)

/-- A special function writes its value of v[A] and its flags (05_special.md R133, R136). -/
def Sys2Proof.Main.special (m : Main) (i : Instr) (fn : Word → Word × Word) : Prop :=
  Computes i m.guard false false m.d.toNat (fun _ f => ((fn (f.getV m.a.toNat)).1.setWidth 64, (fn (f.getV m.a.toNat)).2))

/-- Special functions and fused activation execute (05_special.md R133 to R137). Where the manual gives only a bound the value is free within it
(log 7), and this holds for every value of it. -/
def Obligations.SpecialFunctionsExecute : Prop :=
  ∀ m : Main,
    m.special (.exp2 m) exp2W ∧
    m.special (.log2 m) log2W ∧
    m.special (.rcp m) rcpW ∧
    m.special (.rsq m) rsqW ∧
    m.special (.sqrt m) sqrtW ∧
    m.special (.sinOp m) (sinCosW 5) ∧
    m.special (.cosOp m) (sinCosW 6) ∧
    m.special (.tanh m) tanhW ∧
    m.special (.sigm m) sigmW ∧
    m.special (.erf m) erfW ∧
    m.special (.gelu m) geluW ∧
    m.special (.silu m) siluW ∧
    Computes (.fact m) m.guard false false m.d.toNat (fun c f =>
      let y := ffmaW (f.getV m.a.toNat) (m.wordB f) ((m.opC false false).get c f).lo
      let r := actW m.mod y.1
      (r.1.setWidth 64, y.2 ||| r.2))

/-! ## Groups and collectives -/

namespace Sys2Proof.Machine

/-- A member that receives what a collective gives it. -/
def Gift.give (g : Gift) (f : Fibre) : Fibre :=
  g.p.foldl (fun f w => f.setP w.1 w.2) ((g.v.foldl (fun f w => f.setV w.1 w.2) f).raise g.flags)

/-- What a contributing fibre brings to a collective (06_control.md R167). -/
def Fibre.brings (vals : Fibre → List Word) (f : Fibre) : Arrival := { fibre := f.idx, contrib := true, vals := vals f, preds := f.p }

/-- The contributing members of group k by lane. -/
def Coil.lanesOf (c : Coil) (mask : List Nat) (vals : Fibre → List Word) (g : Word) (k : Nat) : Lanes :=
  (List.range (grpSize g)).map (fun l =>
    if grpBase g k + l ∈ mask then (c.fibre? (grpBase g k + l)).map (Fibre.brings vals) else none)

/-- The first contributing member of group k to arrive. -/
def Coil.leadOf (c : Coil) (mask : List Nat) (vals : Fibre → List Word) (g : Word) (k : Nat) : Arrival :=
  (((mask.find? (fun i => grpOf g i = k)).bind c.fibre?).map (Fibre.brings vals)).getD { fibre := 0, contrib := false, vals := [], preds := 0 }

/-- A plait that holds every live fibre of its coil, all of them members of groups of a valid group register, executes a collective at once:
each group completes, each contributing member gets what its group gives it, and every fibre goes on (06_control.md R166, R167). -/
def Gathers (i : Instr) (m : Main) (greg : Coil → Nat) (vals : Coil → Fibre → List Word) (ok : Coil → Prop) : Prop :=
  ∀ s c pl f0, Ready s c pl f0 m.guard → (∀ f ∈ c.fibres, f.idx ∈ c.actives pl) → c.insts = [] → ok c →
    ∀ g, g = c.g.getD (greg c) 0 → grpValid g = true → (∀ f ∈ c.fibres, grpHas g f.idx = true) →
      Goes i s s c c (fun f =>
        let k := grpOf g f.idx
        let mask := c.masked pl m.guard
        if f.idx ∈ mask then
          (giftOf i (c.leadOf mask (vals c) g k) (c.lanesOf mask (vals c) g k) (f.idx - grpBase g k) (f.brings (vals c))).give f
        else f)

/-- The values that a row instruction takes from a fibre: descriptor, second S operand, mask, elements (05_special.md R138, R139). -/
def rowGives (m : Main) (aux : Bool) (c : Coil) (f : Fibre) : List Word :=
  let d := c.getS m.b.toNat
  let mask := if rowKind d = 2 then c.m.getD (rowIdx d) 0 else 0
  [d, if aux then c.getS (m.b.toNat + 1) else 0] ++ (List.range 4).map (fun k => BitVec.ofNat 32 (mask.toNat / 2 ^ (32 * k)))
    ++ f.getVs m.a.toNat (rowC d)

/-- A row descriptor that names what exists, and registers that fit the window (05_special.md R138). -/
def rowFits (m : Main) (outs : Nat → Nat) (c : Coil) : Prop :=
  let d := c.getS m.b.toNat
  rowBad d = false ∧ m.a.toNat + rowC d ≤ c.window ∧ m.d.toNat + outs (rowC d) ≤ c.window

end Sys2Proof.Machine

/-- PART sets a group register where its range is aligned and not empty, and clears it where the size is 3 (06_control.md R165). -/
def Sys2Proof.Says.PartSetsGroups : Prop :=
  ∀ (m : Main) (s : State) (c : Coil) (pl : Place) (f0 : Fibre), Ready s c pl f0 m.guard →
    let size := m.imm % 4
    let first := if m.imm / 4 % 2 = 1 then (c.getS m.b.toNat).toNat % 65536 else 0
    let count := if m.imm / 4 % 2 = 1 then (c.getS m.b.toNat).toNat / 65536 else 1024
    (size = 3 → Goes (.part m) s s c { c with g := c.g.set m.d.toNat 0 } (fun f => f)) ∧
    (size < 3 → first % (4 * 2 ^ size) = 0 → 0 < count → first + count ≤ 1024 →
      ∃ g : Word, grpValid g = true ∧ grpSize g = 4 * 2 ^ size ∧ grpFirst g = first ∧ grpCount g = count ∧
        Goes (.part m) s s c { c with g := c.g.set m.d.toNat g } (fun f => f))

/-- Votes, ballots, matches, elections, shuffles, broadcasts, slides, scans, reductions and GSYNC complete in a plait that holds every member of its
groups (06_control.md R166 to R176). That a collective completes at its last arrival is the model's choice (log 15). -/
def Sys2Proof.Says.CollectivesComplete : Prop :=
  ∀ m : Main,
    Gathers (.vote m) m (fun _ => m.b.toNat) (fun _ _ => []) (fun _ => True) ∧
    Gathers (.ballot m) m (fun _ => m.b.toNat % 8) (fun _ _ => []) (fun _ => True) ∧
    Gathers (.matchOp m) m (fun _ => m.b.toNat % 8) (fun _ f => f.getVs m.a.toNat (if m.mod = 1 then 2 else 1)) (fun _ => True) ∧
    Gathers (.elect m) m (fun _ => m.b.toNat) (fun _ _ => []) (fun _ => True) ∧
    Gathers (.shfl m) m (fun _ => m.b.toNat % 8) (fun _ f => [f.getV m.a.toNat, f.getV m.d.toNat]) (fun _ => True) ∧
    Gathers (.bcast m) m (fun _ => m.b.toNat % 8) (fun _ f => f.getVs m.a.toNat (if m.mod = 1 then 2 else 1)) (fun _ => True) ∧
    Gathers (.slide m) m (fun c => (c.getS m.b.toNat).toNat % 8) (fun c f => [c.getS m.b.toNat, f.getV m.a.toNat, f.getV m.d.toNat])
      (fun _ => True) ∧
    Gathers (.scan m) m (fun _ => m.b.toNat % 8) (fun _ f => [f.getV m.a.toNat]) (fun _ => True) ∧
    Gathers (.gred m) m (fun _ => m.b.toNat % 8) (fun _ f => [f.getV m.a.toNat]) (fun _ => True) ∧
    (m.mod = 0 → Gathers (.gsync m) m (fun _ => m.b.toNat) (fun _ _ => []) (fun _ => True)) ∧
    (m.mod = 1 → ∀ s c pl f0, Ready s c pl f0 m.guard → (∀ f ∈ c.fibres, f.idx ∈ c.actives pl) → c.insts = [] →
      ∀ g, g = c.g.getD m.b.toNat 0 → grpValid g = true → (∀ f ∈ c.fibres, grpHas g f.idx = true) →
        Goes (.gsync m) s s c
          { c.sees (c.actives pl) with
            stores := c.stores ++ (c.actives pl).map (fun i => { fibre := i, pc := f0.pc, tgt := .hostio 0 0 false, op := .marker 1 }) }
          (fun f => f))

namespace Sys2Proof.Machine

/-- The tree of sums and reductions over 2^n values: each half first, then the two results (05_special.md R140; 06_control.md R175). -/
def treeOf {α : Type} (op : α → α → α) : Nat → (Nat → α) → α
  | 0, f => f 0
  | n + 1, f => op (treeOf op n f) (treeOf op n (fun j => f (j + 2 ^ n)))

/-- An operation on values that carry the flags raised on the way to them. -/
def carry (op : Word → Word → Word × Word) (a b : Word × Word) : Word × Word :=
  ((op a.1 b.1).1, a.2 ||| b.2 ||| (op a.1 b.1).2)

/-- A function of a value that carries flags. -/
def carry1 (fn : Word → Word × Word) (a : Word × Word) : Word × Word := ((fn a.1).1, a.2 ||| (fn a.1).2)

/-- What lane i of a group contributes to a reduction: its value, or the identity (06_control.md R174, R175). -/
def Lanes.term (l : Lanes) (op i : Nat) : Word :=
  match l.getD i none with
  | some a => a.vals.getD 0 0
  | none => redId op

/-- The accumulator of SCAN when it comes to a lane, after a head has reset it (06_control.md R174). -/
def Lanes.scanAt (l : Lanes) (op : Nat) (head : Nat → Bool) : Nat → Word
  | 0 => redId op
  | i + 1 => if head (i + 1) then redId op else (redOp op (l.scanAt op head i) (l.term op i)).1

/-- Element h of the row that value k of each lane forms: one of 32 bits per lane, or two of 16 (06_control.md R173). -/
def Lanes.part (l : Lanes) (half : Bool) (k h : Nat) : Nat :=
  if half then (l.val (h / 2) k).toNat / 2 ^ (16 * (h % 2)) % 65536 else (l.val h k).toNat

/-- Element h after a slide by n of a row x of E elements, with fill row y (06_control.md R173). -/
def slid (x y : Nat → Nat) (E mode : Nat) (down : Bool) (n h : Nat) : Nat :=
  if down then
    if h + n < E then x (h + n) else if mode = 0 then y (h + n - E) else if mode = 1 then 0 else x (E - 1)
  else if n ≤ h then x (h - n) else if mode = 0 then y (h + E - n) else if mode = 1 then 0 else x 0

end Sys2Proof.Machine

/-- The operations of GRED and SCAN and their identities (06_control.md R175). -/
def Sys2Proof.Says.ReductionsOperate : Prop :=
  ∀ a b : Word,
    let is (op : Nat) (e : Word) (r : Word × Word) : Prop := redOp op a b = r ∧ redId op = e
    is 0 0 (a + b, 0) ∧
    is 1 0x80000000 ((f32.once 0 (addVal 0 (fval a) (fval b))).1.lo, (f32.once 0 (addVal 0 (fval a) (fval b))).2) ∧
    is 2 0x7FFFFFFF (if a.toInt ≤ b.toInt then a else b, 0) ∧ is 3 0x80000000 (if a.toInt ≤ b.toInt then b else a, 0) ∧
    is 4 0xFFFFFFFF (if a ≤ b then a else b, 0) ∧ is 5 0 (if a ≤ b then b else a, 0) ∧
    is 6 0x7F800000 (BitVec.ofNat 32 (minMax f32 false false a.toNat b.toNat).1, (minMax f32 false false a.toNat b.toNat).2) ∧
    is 7 0xFF800000 (BitVec.ofNat 32 (minMax f32 true false a.toNat b.toNat).1, (minMax f32 true false a.toNat b.toNat).2) ∧
    is 8 0xFFFFFFFF (a &&& b, 0) ∧ is 9 0 (a ||| b, 0) ∧ is 10 0 (a ^^^ b, 0)

/-- What MATCH, SHFL, BCAST, SLIDE, SCAN and GRED give a contributing member of a group (06_control.md R170 to R175): `l` holds what each lane
contributes, or that it does not. -/
def Sys2Proof.Says.CollectivesGive : Prop :=
  ∀ (m : Main) (lead : Arrival) (l : Lanes) (lane : Nat) (own : Arrival), l.length ≤ 32 → lane < l.length →
    let d := m.d.toNat
    let gift (i : Instr) : Gift := giftOf i lead l lane own
    let gives (i : Instr) (P : Word → Prop) : Prop := ∃ w, (gift i).v = [(d, w)] ∧ (gift i).p = [] ∧ P w
    (gives (.matchOp m) (fun w => ∀ i, i < 32 → (w.getLsbD i = true ↔ ∃ a, l[i]? = some (some a) ∧ a.vals = own.vals)) ∧
      (gift (.matchOp m)).flags = 0) ∧
    (let k := if m.b.getLsbD 3 then (own.vals.getD 1 0).toNat else m.b.toNat / 16
     let from_ (j : Nat) : Prop := (m.mod = 0 ∧ j = k) ∨ (m.mod = 1 ∧ j + k = lane) ∨ (m.mod = 2 ∧ j = lane + k) ∨ (m.mod = 3 ∧ j = lane ^^^ k)
     m.mod < 4 →
       gives (.shfl m) (fun w =>
         (∀ j, from_ j → (∀ a, l[j]? = some (some a) → w = a.vals.getD 0 0) ∧ (l[j]? = some none → w = 0)) ∧
         ((∀ j, from_ j → l.length ≤ j) → w = own.vals.getD 0 0)) ∧ (gift (.shfl m)).flags = 0) ∧
    (let k := m.b.toNat / 16
     let n := if m.mod = 1 then 2 else 1
     ∃ W : Nat → Word, (gift (.bcast m)).v = (List.range n).map (fun i => (d + i, W i)) ∧ (gift (.bcast m)).p = [] ∧ (gift (.bcast m)).flags = 0 ∧
       ∀ i, i < n →
         (∀ a, l[k]? = some (some a) → W i = a.vals.getD i 0) ∧ (l[k]? = some none → W i = 0) ∧
         (l.length ≤ k → W i = own.vals.getD i 0)) ∧
    (let desc := lead.vals.getD 0 0
     let half := decide (4 ≤ m.mod)
     let E := if half then 2 * l.length else l.length
     let at_ (h : Nat) : Nat := slid (l.part half 1) (l.part half 2) E (m.mod % 4) (desc.getLsbD 3) (min (desc.toNat / 16 % 32) E) h
     m.mod % 4 < 3 →
       gives (.slide m) (fun w =>
         if half then w.toNat % 65536 = at_ (2 * lane) ∧ w.toNat / 65536 = at_ (2 * lane + 1) else w.toNat = at_ lane) ∧
       (gift (.slide m)).flags = 0) ∧
    (let op := m.b.toNat / 8 % 8
     let head (i : Nat) : Bool := m.b.getLsbD 7 && (match l.getD i none with | some a => a.pred m.mod | none => false)
     let acc := l.scanAt op head
     gives (.scan m) (fun w => w = if m.b.getLsbD 6 then acc lane else (redOp op (acc lane) (l.term op lane)).1) ∧
       (gift (.scan m)).flags = (List.range l.length).foldl (fun fl i => fl ||| (redOp op (acc i) (l.term op i)).2) 0) ∧
    (let op := m.b.toNat / 8 % 16
     ∀ n, l.length = 2 ^ n →
       let r := treeOf (carry (redOp op)) n (fun i => (l.term op i, 0))
       gives (.gred m) (fun w => w = r.1) ∧ (gift (.gred m)).flags = r.2)

/-- Groups form by PART, a collective that every member has reached completes, and it gives its members what the rules say. -/
def Obligations.CollectivesGatherTheirGroups : Prop :=
  Says.PartSetsGroups ∧ Says.CollectivesComplete ∧ Says.ReductionsOperate ∧ Says.CollectivesGive

/-- Row instructions complete in a plait that holds every member of its groups (05_special.md R138, R139). -/
def Sys2Proof.Says.RowsComplete : Prop :=
  ∀ m : Main,
    Gathers (.rowmax m) m (fun c => rowGsel (c.getS m.b.toNat)) (rowGives m false) (rowFits m (fun _ => 1)) ∧
    Gathers (.rowsum m) m (fun c => rowGsel (c.getS m.b.toNat)) (rowGives m false) (rowFits m (fun _ => 1)) ∧
    Gathers (.rowstat m) m (fun c => rowGsel (c.getS m.b.toNat)) (rowGives m false) (rowFits m (fun _ => 2)) ∧
    Gathers (.rownorm m) m (fun c => rowGsel (c.getS m.b.toNat)) (rowGives m true) (rowFits m (fun k => k)) ∧
    Gathers (.smaxr m) m (fun c => rowGsel (c.getS m.b.toNat)) (rowGives m true) (rowFits m (fun k => k + 2)) ∧
    Gathers (.lse m) m (fun c => rowGsel (c.getS m.b.toNat)) (rowGives m false) (rowFits m (fun _ => 1))

/-- How a row forms and how its results spread: element j lies in lane j div c, masked where the lane does not contribute or its predicate or the
tile mask says so; a lane gets its own elements, then what all get, and every flag (05_special.md R139). -/
def Sys2Proof.Says.RowsSpread : Prop :=
  (∀ (d : Word) (mask : BitVec 128) (l : Lanes), (rowOf d mask l).length = rowC d * l.length ∧
    ∀ lane i, lane < l.length → i < rowC d → ∀ j, j = rowC d * lane + i →
      (l[lane]? = some none → (rowOf d mask l)[j]? = some none) ∧
      (∀ a, l[lane]? = some (some a) →
        let hidden : Prop :=
          (rowKind d = 1 ∧ rowIdx d ≠ 0 ∧ a.preds.getLsbD (rowIdx d) = false) ∨
          (rowKind d = 2 ∧ (128 ≤ (rowKoff d + j) / 64 ∨ mask.getLsbD ((rowKoff d + j) / 64) = false))
        (hidden → (rowOf d mask l)[j]? = some none) ∧ (¬ hidden → (rowOf d mask l)[j]? = some (some (a.vals.getD (6 + i) 0))))) ∧
  (∀ (m : Main) (aux : Bool) (c : Coil) (f : Fibre),
    rowMaskOf (f.brings (rowGives m aux c)) = (if rowKind (c.getS m.b.toNat) = 2 then c.m.getD (rowIdx (c.getS m.b.toNat)) 0 else 0)) ∧
  (∀ (m : Main) (lead : Arrival) (l : Lanes) (lane : Nat) (own : Arrival), lane < l.length →
    let d := lead.vals.getD 0 0
    let aux := lead.vals.getD 1 0
    let row := rowOf d (rowMaskOf lead) l
    let spreads (i : Instr) (o : RowOut) : Prop :=
      let g := giftOf i lead l lane own
      g.p = [] ∧ g.flags = o.flags ∧ ∃ mine shared, g.v = mine ++ shared ∧
        mine = (if o.elems = [] then [] else (List.range (rowC d)).map (fun i => (m.d.toNat + i, o.elems.getD (rowC d * lane + i) 0))) ∧
        shared.map Prod.snd = o.shared ∧
        shared.map Prod.fst = (List.range o.shared.length).map (fun i => m.d.toNat + mine.length + i)
    (m.mod < 4 → spreads (.rowmax m) (rowMax (decide (2 ≤ m.mod)) (decide (m.mod % 2 = 1)) row)) ∧
    spreads (.rowsum m) (rowSumOut row) ∧ spreads (.rowstat m) (rowStatOut row) ∧ spreads (.rownorm m) (rowNormOut (decide (m.mod = 1)) aux row) ∧
    spreads (.smaxr m) (smaxOut aux row) ∧ spreads (.lse m) (lseOut row))

/-- What the six row instructions compute of a row `r` of at most 1024 elements, `none` where masked (05_special.md R140 to R145). Every value
carries the flags raised on the way to it. Special functions are free within their bounds (log 7), and that LSE raises no flag of LOG2 on an
empty row or one with an infinite entry is the model's choice (log 118). -/
def Sys2Proof.Says.RowsGive : Prop :=
  ∀ (r : Row) (n : Nat), r.length ≤ 2 ^ n → (n = 0 ∨ 2 ^ (n - 1) < r.length) → n ≤ 10 →
    let l := r.filterMap id
    let k := l.length
    let e (x : Word) : Word × Word := (x, 0)
    let each (q : List (Option (Word × Word))) (fn : Word × Word → Word × Word) : List (Option (Word × Word)) := q.map (fun x => x.map fn)
    let sum (q : List (Option (Word × Word))) : Word × Word := treeOf (carry faddW) n (fun j => (q.getD j none).getD (0, 0))
    let raised (q : List (Option (Word × Word))) : Word := (q.filterMap id).foldl (fun fl x => fl ||| x.2) 0
    let filled (q : List (Option (Word × Word))) : List Word := q.map (fun x => (x.getD (0, 0)).1)
    let over_ (x : Word × Word) (n : Nat) : Word × Word := carry1 (fun y => divW y n) x
    let x : List (Option (Word × Word)) := r.map (fun y => y.map e)
    let bad : Prop := ∃ y ∈ l, (fval y).isNan = true ∨ fval y = .inf true ∨ fval y = .inf false
    let nv : Word := if ∃ y ∈ l, (fval y).snan = true then flagNv else 0
    (l = [] → rowSumOut r = ⟨[], [0], flagEmptyRow⟩ ∧ rowStatOut r = ⟨[], [0, 0], flagEmptyRow⟩ ∧
      (∀ abs nan, rowMax abs nan r = ⟨[], [0xFF800000], flagEmptyRow⟩) ∧
      (∀ rms eps, rowNormOut rms eps r = ⟨r.map (fun _ => 0), [], flagEmptyRow⟩)) ∧
    (l ≠ [] → rowSumOut r = ⟨[], [(sum x).1], (sum x).2⟩) ∧
    (l ≠ [] → ∀ abs nan,
      let mag (y : Word) : Word := if abs then y &&& 0x7FFFFFFF else y
      let number (y : Word) : Prop := (fval (mag y)).isNan = false
      (rowMax abs nan r).elems = [] ∧ (rowMax abs nan r).flags = nv ∧
      ((∀ y ∈ l, ¬ number y) ∨ (nan = true ∧ ∃ y ∈ l, ¬ number y) → (rowMax abs nan r).shared = [0x7FC00000]) ∧
      ((∃ y ∈ l, number y) → (nan = true → ∀ y ∈ l, number y) →
        ∃ y ∈ l, number y ∧ (rowMax abs nan r).shared = [mag y] ∧
          ∀ z ∈ l, number z → (fval (mag y)).lt (fval (mag z)) = false ∧ (mag z = 0 → mag y ≠ 0x80000000))) ∧
    (let sq := each x (fun y => carry fmulW y y)
     ∀ pilot, l.head? = some pilot →
      let dist := each x (fun y => carry fsubW y (e pilot))
      let m1 := over_ (sum dist) k
      let mean := carry faddW (e pilot) m1
      let v := carry fsubW (over_ (sum (each dist (fun y => carry fmulW y y))) k) (carry fmulW m1 m1)
      let var : Word × Word := (if (fval v.1).lt (fval 0) then 0 else v.1, v.2)
      (bad → rowStatOut r = ⟨[], [0x7FC00000, 0x7FC00000], nv⟩) ∧
      (¬ bad → rowStatOut r = ⟨[], [mean.1, var.1], mean.2 ||| var.2⟩) ∧
      (∀ eps,
        let s := carry1 rsqW (carry faddW (over_ (sum sq) k) (e eps))
        let y := each x (fun y => carry fmulW y s)
        let o := rowNormOut true eps r
        (bad ∨ (fval s.1).isNan = true → o.elems = r.map (fun _ => 0x7FC00000)) ∧
        (¬ bad → (fval s.1).isNan = false → o.elems = filled y) ∧ o.shared = [] ∧ o.flags = raised y) ∧
      (∀ eps,
        let mean : Word × Word := if bad then (0x7FC00000, nv) else mean
        let var : Word × Word := if bad then (0x7FC00000, nv) else var
        let s := carry1 rsqW (carry faddW var (e eps))
        let y := each x (fun y => carry fmulW (carry fsubW y mean) s)
        let o := rowNormOut false eps r
        (bad ∨ (fval s.1).isNan = true → o.elems = r.map (fun _ => 0x7FC00000)) ∧
        (¬ bad → (fval s.1).isNan = false → o.elems = filled y) ∧ o.shared = [] ∧ o.flags = raised y)) ∧
    (∀ scale,
      let y := each x (fun z => carry fmulW z (e scale))
      let u := y.map (fun z => if z.map Prod.fst = some 0xFF800000 then none else z)
      let U := u.filterMap id
      let ends (elems : List Word) (M S fl : Word) : Prop := smaxOut scale r = ⟨elems, [M, S], fl⟩
      let logs (L fl : Word) : Prop := scale = 0x3F800000 → lseOut r = ⟨[], [L], fl⟩
      let q := (U.filter (fun z => z.1 = 0x7F800000)).length
      (U = [] → ends (r.map (fun _ => 0)) 0xFF800000 0 (raised y ||| flagEmptyRow) ∧ logs 0xFF800000 (raised y ||| flagEmptyRow)) ∧
      ((∃ z ∈ U, (fval z.1).isNan = true) →
        ends (r.map (fun _ => 0x7FC00000)) 0x7FC00000 0x7FC00000 (raised y) ∧ logs 0x7FC00000 (raised y)) ∧
      ((∀ z ∈ U, (fval z.1).isNan = false) → 0 < q →
        let p := divW 0x3F800000 q
        ends (u.map (fun z => if z.map Prod.fst = some 0x7F800000 then p.1 else 0)) 0x7F800000
          (BitVec.ofNat 32 (f32.round 0 0 true (exactOf false q 0)).1) (raised y ||| p.2) ∧
        logs 0x7F800000 (raised y)) ∧
      ((∀ z ∈ U, (fval z.1).isNan = false) → U ≠ [] → q = 0 →
        ∃ M, (rowMax false false (u.map (fun z => z.map Prod.fst))).shared = [M] ∧
          let t := each u (fun z => carry1 exp2W (carry fsubW z (e M)))
          let S := sum t
          let p := each t (fun z => carry fmulW z (carry1 rcpW S))
          let L := carry faddW (e M) (carry1 log2W S)
          ends (filled p) M S.1 (raised y ||| raised p) ∧ logs L.1 (raised y ||| L.2)))

/-- Row instructions complete, a row forms from its group's lanes and its results spread over them, and they are what the rules compute. -/
def Obligations.RowInstructionsComplete : Prop := Says.RowsComplete ∧ Says.RowsSpread ∧ Says.RowsGive

/-- What the simple collectives give: VOTE the conjunction, disjunction or agreement of the contributing members' predicates, BALLOT a bit for
each lane whose predicate is set, ELECT the lowest contributing lane (06_control.md R170). -/
def Obligations.VoteBallotElectGive : Prop :=
  ∀ (m : Main) (l : Lanes) (lane : Nat) (own : Arrival), l.length ≤ 32 →
    (∃ b, (voteGift m l lane own).p = [(m.d.toNat, b)] ∧
      (m.mod = 0 → (b = true ↔ ∀ a, some a ∈ l → a.pred m.a.toNat = true)) ∧
      (m.mod = 1 → (b = true ↔ ∃ a, some a ∈ l ∧ a.pred m.a.toNat = true)) ∧
      (m.mod = 2 → (b = true ↔ ∀ a a', some a ∈ l → some a' ∈ l → a.pred m.a.toNat = a'.pred m.a.toNat))) ∧
    (∃ w, (ballotGift m l lane own).v = [(m.d.toNat, w)] ∧
      ∀ i, i < 32 → (w.getLsbD i = true ↔ ∃ a, l[i]? = some (some a) ∧ a.pred m.a.toNat = true)) ∧
    (∃ b, (electGift m l lane own).p = [(m.d.toNat, b)] ∧ (b = true ↔ ∀ i, i < lane → ∀ a, l[i]? ≠ some (some a)))

/-! ## Branches, calls, loops and pack points -/

/-- A branch or NOP of a plait that is ready takes each fibre where it says, and changes nothing else but the registers that G names. -/
def Sys2Proof.Main.Jumps (m : Main) (i : Instr) (ok : Coil → Place → Prop) (G : Coil → Place → Fibre → Fibre → Fibre)
    (lv : Coil → Place → Fibre → Fibre → Leave) : Prop :=
  ∀ s c pl f0, Ready s c pl f0 m.guard → ok c pl →
    GoesTo i s s c c (G c pl f0) (c.leaving pl f0.pc m.words (lv c pl f0))

/-- BRA takes the fibres whose guard holds to its label and lets the others fall through; CALL also writes the return address, which CALLX does
after it has read its target; BRX and RET take each fibre to its own aligned target (06_control.md R152, R154, R155). -/
def Sys2Proof.Says.BranchesAndCalls : Prop :=
  ∀ m : Main,
    let hit (c : Coil) (pl : Place) (f : Fibre) : Prop := f.idx ∈ c.masked pl m.guard
    let label (f0 : Fibre) : BitVec 64 := f0.pc + BitVec.ofInt 64 (4 * m.simm)
    let link (c : Coil) (pl : Place) (f0 : Fibre) : Fibre → Fibre :=
      c.within pl m.guard (fun f => f.setVD m.d.toNat (f0.pc + BitVec.ofNat 64 (4 * m.words)))
    let aligned (c : Coil) (pl : Place) : Prop := ∀ f ∈ c.fibres, hit c pl f → (f.getVD m.a.toNat).toNat % 4 = 0
    m.Jumps (.bra m) (fun _ _ => True) (fun _ _ _ f => f) (fun c pl f0 f => if hit c pl f then .branch (label f0) else .fall) ∧
    m.Jumps (.call m) (fun _ _ => True) link (fun c pl f0 f => if hit c pl f then .call (label f0) else .fall) ∧
    m.Jumps (.callx m) aligned link (fun c pl _ f => if hit c pl f then .call (f.getVD m.a.toNat) else .fall) ∧
    m.Jumps (.ret m) aligned (fun _ _ _ f => f) (fun c pl _ f => if hit c pl f then .branch (f.getVD m.a.toNat) else .fall) ∧
    (m.mod = 0 → m.Jumps (.brx m) aligned (fun _ _ _ f => f)
      (fun c pl _ f => if hit c pl f then .branch (f.getVD m.a.toNat) else .fall))

/-- BRA.U and BRX.U never split: the plait follows its lowest active fibre, with DIVU in every active fibre where the guard, or the target, is
not uniform and FCTL.CHKU is clear (06_control.md R153, R154). -/
def Sys2Proof.Says.UniformBranchesFollowTheLowest : Prop :=
  ∀ m : Main,
    let label (f0 : Fibre) : BitVec 64 := f0.pc + BitVec.ofInt 64 (4 * m.simm)
    let quiet (c : Coil) (pl : Place) : Prop := ∀ f ∈ c.fibres, f.idx ∈ c.actives pl → f.fctl.getLsbD 1 = false
    let divu (c : Coil) (pl : Place) (_ : Fibre) (f : Fibre) : Fibre := if f.idx ∈ c.actives pl then f.raise flagDivu else f
    m.Jumps (.braU m) (fun c pl => c.masked pl m.guard = c.actives pl) (fun _ _ _ f => f) (fun _ _ f0 _ => .branch (label f0)) ∧
    m.Jumps (.braU m) (fun c pl => c.masked pl m.guard ≠ c.actives pl ∧ quiet c pl) divu
      (fun c pl f0 _ => if (c.masked pl m.guard).head? = (c.actives pl).head? then .branch (label f0) else .fall) ∧
    (m.mod = 1 → ∀ s c pl f0 low, Ready s c pl f0 m.guard → c.lowest pl m.guard = some low → (low.getVD m.a.toNat).toNat % 4 = 0 →
      (c.masked pl m.guard = c.actives pl → (∀ f ∈ c.fibres, f.idx ∈ c.actives pl → f.getVD m.a.toNat = low.getVD m.a.toNat) →
        GoesTo (.brx m) s s c c (fun f => f) (c.leaving pl f0.pc m.words (fun _ => .branch (low.getVD m.a.toNat)))) ∧
      (c.masked pl m.guard ≠ c.actives pl → quiet c pl →
        GoesTo (.brx m) s s c c (divu c pl f0) (c.leaving pl f0.pc m.words
          (fun f => if f.idx ∈ c.masked pl m.guard then .branch (low.getVD m.a.toNat) else .fall))) ∧
      (c.masked pl m.guard = c.actives pl → (∃ f ∈ c.acting pl m.guard, f.getVD m.a.toNat ≠ low.getVD m.a.toNat) → quiet c pl →
        GoesTo (.brx m) s s c c (divu c pl f0) (c.leaving pl f0.pc m.words (fun _ => .branch (low.getVD m.a.toNat)))))

/-- Branches, calls and returns send each fibre of the mask where the rules say; the uniform forms follow the lowest one. -/
def Obligations.BranchesSendFibres : Prop := Says.BranchesAndCalls ∧ Says.UniformBranchesFollowTheLowest

/-- LOOP sets up a level where its count is not 0 and the level nests, and skips the body where the count is 0 (06_control.md R157). -/
def Sys2Proof.Says.LoopSetsUpALevel : Prop :=
  ∀ (m : Main) (s : State) (c : Coil) (pl : Place) (f0 : Fibre), Ready s c pl f0 m.guard →
    let lend := f0.pc + BitVec.ofInt 64 (4 * m.simm)
    let start := f0.pc + BitVec.ofNat 64 (4 * m.words)
    let count (f : Fibre) : Nat :=
      if m.d = 0 then (f.getV m.a.toNat).toNat else if m.d = 1 then (c.getS m.a.toNat).toNat else m.b.toNat
    (∀ f ∈ c.fibres, f.idx ∈ c.masked pl m.guard → f.nests start lend = true) →
      GoesTo (.loopOp m) s s c c (fun f => f) (fun f =>
        if f.idx ∉ c.actives pl then (f.loops, f.pc)
        else if f.idx ∉ c.masked pl m.guard then f.onward f0.pc (4 * m.words) .fall
        else if count f = 0 then f.onward f0.pc (4 * m.words) (.skip lend)
        else { f with loops := { start := start, lend := lend, count := count f } :: f.loops }.onward f0.pc (4 * m.words) .fall)

/-- Where an instruction of a loop body leads (06_control.md R158): with no level, on or to the target; at the last instruction of the body, back
to its start while the count lasts and out of it at the end; a taken branch out of the body ends the level, and a call does not. While the
handler runs, no level that was active at its entry counts or ends; one that it sets up itself does. -/
def Sys2Proof.Says.HardwareLoopsSettle : Prop :=
  ∀ (l : Loop) (r : List Loop) (y : BitVec 64) (n : Nat) (t : BitVec 64),
    let next := y + BitVec.ofNat 64 n
    let inside := l.covers y = true
    (∀ f : Fibre, f.handler = false → f.loops = l :: r → f.onward y n .fall = settle (l :: r) y n .fall ∧
      f.onward y n (.branch t) = settle (l :: r) y n (.branch t)) ∧
    (∀ f : Fibre, f.handler = true → f.loops = l :: r → f.outer = r.length + 1 → f.onward y n .fall = (l :: r, next) ∧
      f.onward y n (.branch t) = (l :: r, t)) ∧
    (∀ f : Fibre, f.handler = true → f.loops = l :: r → f.outer = r.length →
      f.onward y n .fall = ((settle [l] y n .fall).1 ++ r, (settle [l] y n .fall).2)) ∧
    (settle [] y n .fall = ([], next) ∧ settle [] y n (.branch t) = ([], t) ∧ settle [] y n (.call t) = ([], t)) ∧
    (inside → l.lend = next → 1 < l.count → settle (l :: r) y n .fall = ({ l with count := l.count - 1 } :: r, l.start)) ∧
    (inside → l.lend = next → l.count ≤ 1 → (∀ o ∈ r, o.lend ≠ next) → settle (l :: r) y n .fall = (r, next)) ∧
    (inside → l.lend ≠ next → settle (l :: r) y n .fall = (l :: r, next)) ∧
    (inside → l.lend ≠ next → l.covers t = true → settle (l :: r) y n (.branch t) = (l :: r, t)) ∧
    (inside → l.lend ≠ next → l.covers t = false → (∀ o ∈ r, o.covers t = true) → settle (l :: r) y n (.branch t) = (r, t)) ∧
    (inside → l.lend ≠ next → settle (l :: r) y n (.call t) = (l :: r, t)) ∧
    (inside → l.lend = next → 1 < l.count → l.covers t = true →
      settle (l :: r) y n (.branch t) = ({ l with count := l.count - 1 } :: r, t)) ∧
    (l.covers y = false → settle (l :: r) y n .fall = (l :: r, next) ∧ settle (l :: r) y n (.branch t) = (l :: r, t))

/-- LOOP sets up a level, and the levels settle at the loop's end. -/
def Obligations.HardwareLoopsRepeat : Prop := Says.LoopSetsUpALevel ∧ Says.HardwareLoopsSettle

/-- The fibres of the mask come to be held at a pack point with those that it holds already. PACK releases them all when they are 64 or every live
fibre of the coil, CONVM.COIL when they are every live fibre, CONVM the members of each group whose live members it holds all; the others stay held.
YIELD makes its plait wait, and NOP does nothing (06_control.md R160 to R163). -/
def Obligations.PackPointsAndYield : Prop :=
  ∀ (m : Main) (s : State) (c : Coil) (pl : Place) (f0 : Fibre), Ready s c pl f0 m.guard →
    let mask := c.masked pl m.guard
    let there (k : PackKind) : List Nat := (c.fibres.filter (fun f => mask.contains f.idx || f.status = .held f0.pc k)).map Fibre.idx
    let all (k : PackKind) : Prop := ∀ f ∈ c.fibres, f.idx ∈ there k
    let leaves (i : Instr) (k : PackKind) (out : List Nat) : Prop :=
      GoesTo i s s c c (fun f => if f.idx ∈ out then { f with status := .runnable } else if f.idx ∈ mask then { f with status := .held f0.pc k } else f)
        (fun f => if f.idx ∈ out then f.onward f.pc 8 .fall else if f.idx ∈ mask then (f.loops, f.pc)
          else c.leaving pl f0.pc m.words (fun _ => .fall) f)
    let g := c.g.getD m.a.toNat 0
    let own : PackKind := .convm m.a.toNat g
    let full (n : Nat) : Bool := c.live.all (fun e => !(grpHas g e && grpOf g e = n) || (there own).contains e)
    ((64 ≤ (there .pack).length ∨ all .pack) → leaves (.pack m) .pack (there .pack)) ∧
    ((there .pack).length < 64 → ¬ all .pack → leaves (.pack m) .pack []) ∧
    (m.mod = 1 → all .convmCoil → leaves (.convm m) .convmCoil (there .convmCoil)) ∧
    (m.mod = 1 → ¬ all .convmCoil → leaves (.convm m) .convmCoil []) ∧
    (m.mod = 0 → grpValid g = true → (∀ i ∈ mask, grpHas g i = true) →
      leaves (.convm m) own ((there own).filter (fun i => full (grpOf g i)))) ∧
    GoesTo (.yieldOp m) s s c c (fun f => if f.idx ∈ c.actives pl then { f with status := .yielded } else f)
      (c.leaving pl f0.pc m.words (fun _ => .fall)) ∧
    GoesTo (.nop m) s s c c (fun f => f) (c.leaving pl f0.pc m.words (fun _ => .fall))

/-! ## Loads, stores and cache control -/

/-- A load executes wherever its lanes reach their bytes: the device is as the reads leave it, the coil as K says of the bytes read, each fibre of
the mask as G says. -/
def Sys2Proof.Main.Loads (m : Main) (i : Instr) (h : Coil → Option Handle) (need : Need) (l1 : Bool)
    (offs : Coil → Place → List (Nat × BitVec 64)) (K : Coil → List (Nat × List PByte) → Coil)
    (G : Coil → List (Nat × List PByte) → Fibre → Fibre) : Prop :=
  ∀ s c pl f0, Ready s c pl f0 m.guard → ∀ l v vals w, Reaches s c pl (h c) need (offs c pl) l v → v.readLanes c l1 l = (vals, [], w) →
    Goes i s w c (K c vals) (c.within pl m.guard (G c vals))

/-- A vector load of n bytes from a slot, and a uniform one. -/
def Sys2Proof.Main.LoadsV (m : Main) (i : Instr) (n : Nat) (spaces : List Nat) : Prop :=
  m.Loads i (fun c => c.slot m.mod) { size := n, align := n, write := false, spaces := spaces } true (m.offsets m.memOff) (fun c _ => c)
    (fun c vals f => (f.steps c m.mod).load m.d.toNat (max 1 (n / 4)) (bytesOf vals f.idx))
def Sys2Proof.Main.LoadsS (m : Main) (i : Instr) (n : Nat) : Prop :=
  m.Loads i (fun c => c.slot m.mod) { size := n, align := n, write := false, spaces := [0, 1, 2, 3] } true (m.offset1 m.memOff)
    (fun c vals =>
      let b := (vals.head?.map Prod.snd).getD []
      let d := c.setSs m.d.toNat (pbWords (n / 4) b)
      if b.any Prod.snd then (List.range (n / 4)).foldl (fun d i => d.taint (m.d.toNat + i) .data) d else d)
    (fun c _ f => f.steps c m.mod)

/-- LD writes the bytes at its lanes' places, in little-endian order, to D; LDS those of the coil's scratchpad; LDU the lowest lane's, once, to
s registers; LDMX unpacks a block of elements and its scale (08_memory.md R237, R238). -/
def Obligations.LoadsExecute : Prop :=
  ∀ m : Main,
    m.LoadsV (.ldB8 m) 1 [0, 1, 2, 3] ∧
    m.LoadsV (.ldB16 m) 2 [0, 1, 2, 3] ∧
    m.LoadsV (.ldB32 m) 4 [0, 1, 2, 3] ∧
    m.LoadsV (.ldB64 m) 8 [0, 1, 2, 3] ∧
    m.LoadsV (.ldB128 m) 16 [0, 1, 3] ∧
    m.Loads (.lds m) (fun c => some c.scratchHandle) { size := 2 ^ m.mod, align := 2 ^ m.mod, write := false, spaces := [3] } true
      (m.padOffsets m.memOff) (fun c _ => c) (fun _ vals f => f.load m.d.toNat (max 1 (2 ^ m.mod / 4)) (bytesOf vals f.idx)) ∧
    m.LoadsS (.lduB32 m) 4 ∧
    m.LoadsS (.lduB64 m) 8 ∧
    (∀ s c pl f0 h, Ready s c pl f0 m.guard → c.slot m.mod = some h → m.d.toNat + h.mxRegs + 1 ≤ c.window →
      ∀ l v vals w, s.draw.2.mxLanes c h false (m.offsets m.memOff c pl) = (l, [], v) →
        (pl ∈ c.ignoreWatch ∨ c.watchHit true false (l.flatMap (fun e => [⟨e.1, e.2.1⟩, ⟨e.1, e.2.2⟩])) = none) →
        v.readBlocks c l = (vals, [], w) →
        Goes (.ldmx m) s w c c (c.within pl m.guard (fun f =>
          let e := (((vals.find? (fun b => b.1 = f.idx)).map Prod.snd).getD ([], [])).1
          let r := (((vals.find? (fun b => b.1 = f.idx)).map Prod.snd).getD ([], [])).2
          let g := (f.steps c m.mod).setVs m.d.toNat (mxUnpack h.mxfmt h.mxRegs (e.map Prod.fst) ++ [BitVec.ofNat 32 (leNat (r.map Prod.fst))])
          if e.any Prod.snd || r.any Prod.snd then (List.range (h.mxRegs + 1)).foldl (fun g i => g.taint (m.d.toNat + i) .data) g else g)))

/-- The youngest byte that a fibre has stored to a physical address, if its stores still wait (08_memory.md R234). -/
def Sys2Proof.Machine.Coil.ownByte (c : Coil) (fibre a : Nat) : Option Byte :=
  c.stores.foldl (fun b st =>
    match st.tgt, st.op with
    | .mem q _ _ _ _ _ _, .bytes d _ => if st.fibre = fibre ∧ q ≤ a ∧ a < q + d.length then some (d.getD (a - q) 0) else b
    | _, _ => b) none

/-- A load through a handle that is not CACHED sees its own fibre's waiting stores and, below them, the memory as it is performed, with a poisoned
sector of an ACTIVE group reconstructed first; a CACHED load that the L1 does not hold sees the same (08_memory.md R230, R234; 14_survivable.md
R394). What the L1 holds is free (log 9). -/
def Obligations.LoadsSeeOwnStores : Prop :=
  ∀ (s : State) (c : Coil) (fibre cache tkey : Nat) (g : Seg), g.pa % 32 + g.n ≤ 32 → cache < 3 → s.keyClash g.pa tkey = false →
    let v := ((s.touch (cache = 2) g.pa tkey).healRange g.pa g.n).report
    (cache = 0 → ∀ e ∈ v.l1, e.core = c.core → e.asid = c.asid → e.psec / 8 ≠ g.pa / 256 ∧ e.vsec ≠ g.va.toNat / 32) →
    ∃ l, (s.readSeg c (some fibre) cache tkey g).1 = .ok l ∧ l.length = g.n ∧
      ∀ k, k < g.n → (l[k]?).map Prod.fst = some ((c.ownByte fibre (g.pa + k)).getD (cellGet v.mem (g.pa + k)))

/-- A store executes wherever its lanes reach their places and the buffer takes its entries: `data` are the bytes of a lane. Scratchpad bytes are
written at once, in increasing index, and the coil's other fibres may go on finding what they replace (09_ordering.md R254); all others wait in the store
buffer. -/
def Sys2Proof.Main.Puts (m : Main) (i : Instr) (s : State) (c : Coil) (pl : Place) (f0 : Fibre) (v : State) (puts : List (Lane × List Byte))
    (step : Bool) : Prop :=
  let new := puts.flatMap (fun e => storesOf e.1.fibre f0.pc false e.1.spot e.2)
  let p := puts.foldl (fun p e => match e.1.spot with | .scratch g => writeScrs p g e.2 false | _ => p) (v, v.noteScr c (puts.map Prod.fst))
  (new = [] ∨ (c.stores.filter (fun st => match st.op with | .marker _ => false | _ => true)).length + new.length ≤ v.storeRoom c) →
    Goes i s p.1 c { p.2 with stores := c.stores ++ new } (c.within pl m.guard (fun f => if step then f.steps c m.mod else f))

def Sys2Proof.Main.Stores (m : Main) (i : Instr) (h : Coil → Option Handle) (need : Need) (offs : Coil → Place → List (Nat × BitVec 64))
    (data : Fibre → List Byte) (step : Bool) : Prop :=
  ∀ s c pl f0, Ready s c pl f0 m.guard → ∀ l v, Reaches s c pl (h c) need (offs c pl) l v →
    m.Puts i s c pl f0 v (l.map (fun i => (i, ((c.fibre? i.fibre).map data).getD []))) step

/-- A vector store of the low n bytes of D. -/
def Sys2Proof.Main.StoresV (m : Main) (i : Instr) (n : Nat) (spaces : List Nat) : Prop :=
  m.Stores i (fun c => c.slot m.mod) { size := n, align := n, write := true, spaces := spaces } (m.offsets m.memOff)
    (fun f => (((List.range (max 1 (n / 4))).map (fun k => f.getV (m.d.toNat + k))).flatMap (fun w => leBytes 4 w.toNat)).take n) true

/-- ST puts the low bytes of D in the store buffer for its lanes' places; STS writes them to the coil's scratchpad; STMX stores a block and its
scale, at once through a SCRATCH slot (log 136) (08_memory.md R233, R237, R238). FNEW stores 32 zero bytes (07_work.md R206). -/
def Obligations.StoresExecute : Prop :=
  ∀ m : Main,
    m.StoresV (.stB8 m) 1 [0, 1, 2, 3] ∧
    m.StoresV (.stB16 m) 2 [0, 1, 2, 3] ∧
    m.StoresV (.stB32 m) 4 [0, 1, 2, 3] ∧
    m.StoresV (.stB64 m) 8 [0, 1, 2, 3] ∧
    m.StoresV (.stB128 m) 16 [0, 1, 3] ∧
    m.Stores (.sts m) (fun c => some c.scratchHandle) { size := 2 ^ m.mod, align := 2 ^ m.mod, write := true, spaces := [3] }
      (m.padOffsets m.memOff) (fun f => f.regBytes m.d.toNat (2 ^ m.mod)) false ∧
    m.Stores (.fnew m) (fun c => c.slot m.mod) { size := 32, align := 1, write := true, spaces := [0], addrAlign := 32 } (m.offsets m.memOff)
      (fun _ => List.replicate 32 0) true ∧
    (∀ s c pl f0 h, Ready s c pl f0 m.guard → c.slot m.mod = some h → m.d.toNat + h.mxRegs + 1 ≤ c.window →
      ∀ l v, s.draw.2.mxLanes c h true (m.offsets m.memOff c pl) = (l, [], v) →
        (pl ∈ c.ignoreWatch ∨ c.watchHit false true (l.flatMap (fun e => [⟨e.1, e.2.1⟩, ⟨e.1, e.2.2⟩])) = none) →
        let puts : List (Lane × List Byte) := l.flatMap (fun e => match c.fibre? e.1 with
          | none => []
          | some f => [(⟨e.1, e.2.1⟩, (mxPack h.mxfmt (f.getVs m.d.toNat h.mxRegs)).take h.mxBytes),
                       (⟨e.1, e.2.2⟩, leBytes 2 (f.getV (m.d.toNat + h.mxRegs)).toNat)])
        (h.space ≠ 3 → m.Puts (.stmx m) s c pl f0 v puts true) ∧
        (h.space = 3 → ∀ w, v.spotFaults (l.map (fun e => ⟨e.1, e.2.2⟩)) = ([], w) →
          let x : Iss := { m.issued s c pl f0 with s := w, c := c.stepped pl m.guard m.mod }
          let y := x.storeUnits (puts.map (fun e : Lane × List Byte => (e.1, e.2, false)))
          Goes (.stmx m) s y.s y.c y.c (fun f => f)))

/-- The physical addresses of the table entries that a walk reads (08_memory.md R228). -/
def Sys2Proof.Machine.State.entriesOf (s : State) (va : BitVec 64) : List Level → Nat → List Nat
  | [], _ => []
  | l :: r, tbl => let a := tbl + 8 * bitsOf va.toNat l.shift l.width; a :: s.entriesOf va r (pteAddr (s.peek64 a))

/-- Translation writes nothing but A and D bits of the entries that it walks (08_memory.md R228): every byte outside them, and every other bit of
them, is as before. An erasure group that protects the tables gets its deltas besides (14_survivable.md R389), and a record may follow a write
(08_memory.md R247): this is about neither. -/
def Sys2Proof.Says.TranslationMarksEntries : Prop :=
  ∀ (s : State) (asid : BitVec 12) (va : BitVec 64) (k : Access), Memory.wf s = true → (∀ g, (s.grp g).st = 0) → s.errqEn = false →
    let t := (s.translate asid va k).2
    let l := s.entriesOf va levels ((s.peek64 (s.regs.asidtab.toNat + 8 * asid.toNat)).toNat / 4096 % 2 ^ 40 * 4096)
    ({ s with mem := t.mem, coding := t.coding, sideDir := t.sideDir, skeys := t.skeys, regs := { s.regs with errqctl := t.regs.errqctl } } = t) ∧
    (∀ a, (∀ e ∈ l, a < e ∨ e + 8 ≤ a) → cellGet t.mem a = cellGet s.mem a) ∧
    (∀ e ∈ l, cellGet t.mem e &&& 0x9F = cellGet s.mem e &&& 0x9F ∧ ∀ j, 0 < j → j < 8 → cellGet t.mem (e + j) = cellGet s.mem (e + j))

/-- A translation (08_memory.md R228, R229): five levels of entries, a leaf of 64 KiB or of 2 MiB, its permission and the address; and what each
level raises where its entry is not valid (MEM_UNMAPPED) or breaks its format (MEM_PTE). That every walk reads the tables is the model's choice
(log 11). -/
def Sys2Proof.Says.MappedPagesTranslate : Prop :=
  ∀ (s : State) (asid : BitVec 12) (va : BitVec 64) (k : Access) (e4 e3 e2 e1 e0 : DWord),
    let got : Except MemFault Xlat := (s.translate asid va k).1
    let unmapped : Prop := got = .error ⟨0x105, 0, va⟩
    let broken : Prop := got = .error ⟨0x107, 0, va⟩
    let high (e : DWord) : Prop := e.getLsbD 7 = true ∨ 2 ^ 52 ≤ e.toNat
    let upper (e : DWord) : Prop :=
      (e.getLsbD 0 = false → unmapped) ∧
      (e.getLsbD 0 = true → e.getLsbD 1 = true ∨ high e ∨ pteAddr e % 2 ^ 12 ≠ 0 → broken)
    let leaf (e : DWord) (n : Nat) (big : Bool) : Prop :=
      (e.getLsbD 0 = false → unmapped) ∧
      (e.getLsbD 0 = true → high e ∨ pteAddr e % 2 ^ n ≠ 0 → broken) ∧
      (e.getLsbD 0 = true → e.getLsbD 7 = false → e.toNat < 2 ^ 52 → pteAddr e % 2 ^ n = 0 →
        (k = .write → e.getLsbD 2 = false → got = .error ⟨0x104, 2, va⟩) ∧
        (k = .fetch → e.getLsbD 3 = false → got = .error ⟨0x106, 0, va⟩) ∧
        ((k = .write → e.getLsbD 2 = true) → (k = .fetch → e.getLsbD 3 = true) →
          got = .ok ⟨pteAddr e + va.toNat % 2 ^ n, e.getLsbD 4, big⟩))
    let root := s.peek64 (s.regs.asidtab.toNat + 8 * asid.toNat)
    let next (e : DWord) (n : Nat) : Prop := e.getLsbD 0 = true ∧ e.getLsbD 1 = false ∧ e.getLsbD 7 = false ∧ e.toNat < 2 ^ 52 ∧ pteAddr e % 2 ^ n = 0
    (2 ^ 57 ≤ va.toNat → unmapped) ∧ (va.toNat < 2 ^ 57 → root.getLsbD 0 = false → unmapped) ∧
    (va.toNat < 2 ^ 57 → root.getLsbD 0 = true →
      s.peek64 (root.toNat / 4096 % 2 ^ 40 * 4096 + 8 * (va.toNat / 2 ^ 48 % 512)) = e4 → upper e4 ∧ (next e4 12 →
        s.peek64 (pteAddr e4 + 8 * (va.toNat / 2 ^ 39 % 512)) = e3 → upper e3 ∧ (next e3 12 →
          s.peek64 (pteAddr e3 + 8 * (va.toNat / 2 ^ 30 % 512)) = e2 → upper e2 ∧ (next e2 12 →
            s.peek64 (pteAddr e2 + 8 * (va.toNat / 2 ^ 21 % 512)) = e1 →
              (e1.getLsbD 1 = true → leaf e1 21 true) ∧
              (e1.getLsbD 1 = false →
                (e1.getLsbD 0 = false → unmapped) ∧
                (e1.getLsbD 0 = true → high e1 ∨ pteAddr e1 % 2 ^ 8 ≠ 0 → broken) ∧
                (next e1 8 → s.peek64 (pteAddr e1 + 8 * (va.toNat / 2 ^ 16 % 32)) = e0 → leaf e0 16 false))))))

/-- A walk marks the entries that it passes, and a mapped page translates. -/
def Obligations.TranslationFollowsTables : Prop := Says.TranslationMarksEntries ∧ Says.MappedPagesTranslate

/-- Cache control and handle slots: PF does nothing where it would fault; CCTL drops the named L1 lines, all of them, or the L2 lines; ICINV commits
and drops instruction lines; HBIND loads an entry, HQRY reads a slot, SPTMAP swaps and reads blocks (08_memory.md R218, R219, R226, R239). What the
caches hold is free (logs 9 and 10). -/
def Obligations.CacheControlAndSlots : Prop :=
  ∀ m : Main,
    let line (sp : List Nat) : Need := { size := 1, align := 1, write := false, spaces := sp }
    let cctl (i : Instr) (u : Coil → List Seg → State → State) : Prop := ∀ s c pl f0, Ready s c pl f0 m.guard →
      ∀ l v, Reaches s c pl (c.slot m.mod) (line [0, 1]) (m.offsets m.memOff c pl) l v →
        Goes i s (u c (lineSegs l) v) c c (c.within pl m.guard (fun f => f.steps c m.mod))
    let pf (i : Instr) : Prop := ∀ s c pl f0, Ready s c pl f0 m.guard → ∀ l bad v,
      s.draw.2.resolveLanes c (c.slot m.mod) (line [0, 1]) (m.offsets m.memOff c pl) = (l, bad, v) →
        (bad ≠ [] → Goes i s s c c (fun f => f)) ∧
        (bad = [] → ∃ w, Goes i s w c c (c.within pl m.guard (fun f => f.steps c m.mod)) ∧
          { v with l1 := w.l1, l2keys := w.l2keys, skeys := w.skeys, mem := w.mem, free := w.free, prof := w.prof } = w ∧
          (v.skeys = [] → (∀ h, c.slot m.mod = some h → v.slotKey h.tkey = 0) → w.mem = v.mem))
    let ic (i : Instr) (core : Coil → Option Nat) : Prop := ∀ s c pl f0, Ready s c pl f0 m.guard →
      ∀ l v w k, Reaches s c pl (c.slot m.mod) (line [0]) (m.offsets m.memOff c pl) l v →
        m.Commits v (c.stepped pl m.guard m.mod) pl f0 w k →
        Goes i s { w with icache := w.icache.filter (fun e => !((core c).all (fun n => n = e.core) && e.asid = c.asid
          && l.any (fun i => e.va.toNat / 256 = i.spot.va.toNat / 256))) } k k (fun f => f)
    pf (.pfL1 m) ∧ pf (.pfL2 m) ∧
    cctl (.cctlInv m) (fun c l v =>
      { v with l1 := v.l1.filter (fun e => !(e.core = c.core && e.asid = c.asid && l.any (fun g => e.vsec / 8 = g.va.toNat / 256))) }) ∧
    cctl (.cctlWb m) (fun _ _ v => v) ∧
    cctl (.cctlWbinv m) (fun _ l v =>
      { v with l2keys := v.l2keys.map (fun e => if l.any (fun g => g.pa / 256 = e.line) then { e with held := false } else e) }) ∧
    (∀ s c pl f0, Ready s c pl f0 m.guard →
      Goes (.cctlInvall m) s { s with l1 := s.l1.filter (fun e => !(e.core = c.core && e.asid = c.asid)) } c c (fun f => f)) ∧
    ic (.icinvCore m) (fun c => some c.core) ∧ ic (.icinvDev m) (fun _ => none) ∧
    (∀ s c pl f0 h v, Ready s c pl f0 m.guard →
      s.draw.2.readEntry c.core c.asid c.ctxbase (c.getS m.a.toNat).toNat (c.getSD m.b.toNat) = .ok h v →
        Goes (.hbind m) s v c { c with hs := c.hs.set m.mod (some h) } (fun f => f)) ∧
    (∀ s c pl f0, Ready s c pl f0 m.guard →
      Goes (.hqry m) s s c (c.setSs m.d.toNat (match c.slot m.mod with
        | none => [0, 0, 0, 0]
        | some h => [BitVec.ofNat 32 h.len, BitVec.ofNat 32 (h.len / 2 ^ 32), h.attr, BitVec.ofNat 32 (h.idx + 2 ^ 31)])) (fun f => f)) ∧
    (∀ s c pl f0, Ready s c pl f0 m.guard →
      let a := (c.getS m.a.toNat).toNat
      let b := (c.getS m.b.toNat).toNat
      a < 64 → b < 64 → a < partSlog c.partw → b < partSlog c.partw →
        (c.blocks.contains a = c.blocks.contains b → Goes (.sptmapSwap m) s s c c (fun f => f)) ∧
        (∀ out into, (out = a ∧ into = b ∨ out = b ∧ into = a) → c.blocks.contains out = true → c.blocks.contains into = false →
          ∀ x y v w, s.draw.2.translate c.asid (c.backing out) .write = (.ok x, v) → v.translate c.asid (c.backing into) .read = (.ok y, w) →
            let p := w.blockOut c out
            let d := p.1.draw
            let q := d.2.blockIn { p.2 with blocks := p.2.blocks.filter (fun n => n ≠ out) ++ [into]
                                            pool := pickBlocks d.1 p.2.pool p.2.pool.length } into
            Goes (.sptmapSwap m) s q.1 c q.2 (fun f => f))) ∧
    (∀ s c pl f0, Ready s c pl f0 m.guard →
      let a := (c.getS m.a.toNat).toNat
      let back := (c.backing a).toNat / 65536 % 2 ^ 41 * 65536
      a < 64 →
        (partSlog c.partw ≤ a → Goes (.sptmapRd m) s s c (c.setSD m.d.toNat 0) (fun f => f)) ∧
        (a < partSlog c.partw → c.blocks.contains a = false →
          Goes (.sptmapRd m) s s c (c.setSD m.d.toNat (BitVec.ofNat 64 (2 ^ 63 + back))) (fun f => f)) ∧
        (a < partSlog c.partw → c.blocks.contains a = true →
          Goes (.sptmapRd m) s s c (c.setSD m.d.toNat (BitVec.ofNat 64 (2 ^ 63 + 2 ^ 62 + back + c.poolOf a % 128))) (fun f => f)))

/-! ## Atomic operations -/

/-- The operations of an atomic on 32-bit words and on 64-bit double words, integer and floating-point (08_memory.md R241). -/
def Sys2Proof.Says.AtomicOperationsCompute : Prop :=
  ∀ m x : DWord,
    let narrow (op : Nat) (r : Word) : Prop := (amoOp op false m x).lo = r
    let wide (op : Nat) (r : DWord) : Prop := amoOp op true m x = r
    (narrow 0 (m.lo + x.lo) ∧ wide 0 (m + x)) ∧
    (narrow 2 (if m.lo.toInt ≤ x.lo.toInt then m.lo else x.lo) ∧ wide 2 (if m.toInt ≤ x.toInt then m else x)) ∧
    (narrow 3 (if m.lo.toInt ≤ x.lo.toInt then x.lo else m.lo) ∧ wide 3 (if m.toInt ≤ x.toInt then x else m)) ∧
    (narrow 4 (if m.lo ≤ x.lo then m.lo else x.lo) ∧ wide 4 (if m ≤ x then m else x)) ∧
    (narrow 5 (if m.lo ≤ x.lo then x.lo else m.lo) ∧ wide 5 (if m ≤ x then x else m)) ∧
    (narrow 6 (m.lo &&& x.lo) ∧ wide 6 (m &&& x)) ∧ (narrow 7 (m.lo ||| x.lo) ∧ wide 7 (m ||| x)) ∧
    (narrow 8 (m.lo ^^^ x.lo) ∧ wide 8 (m ^^^ x)) ∧ (narrow 9 x.lo ∧ wide 9 x) ∧
    (narrow 10 (if x.lo ≤ m.lo then 0 else m.lo + 1) ∧ wide 10 (if x ≤ m then 0 else m + 1)) ∧
    (narrow 11 (if m.lo = 0 ∨ x.lo < m.lo then x.lo else m.lo - 1) ∧ wide 11 (if m = 0 ∨ x < m then x else m - 1)) ∧
    (narrow 1 (f32.once 0 (addVal 0 (fval m.lo) (fval x.lo))).1.lo ∧ wide 1 (f64.once 0 (addVal 0 (f64.of m) (f64.of x))).1) ∧
    (∀ o, o = 12 ∨ o = 13 →
      narrow o (BitVec.ofNat 32 (minMax f32 (o = 13) false m.lo.toNat x.lo.toNat).1) ∧
      wide o (BitVec.ofNat 64 (minMax f64 (o = 13) false m.toNat x.toNat).1))

/-- Atomics execute: ATOM and CAS are commit points whose lanes, where none meets another tenant's line or a peer that does not answer, act one after
another, each on what the one before has left; ATRED waits in the store buffer; ATOMS acts on the scratchpad (08_memory.md R242, R243). -/
def Sys2Proof.Says.AtomicsExecute : Prop :=
  ∀ m : Main,
    let wide := m.b.getLsbD 4
    let n := if wide then 8 else 4
    let need (sp : List Nat) : Need := { size := n, align := n, write := true, spaces := sp, both := true }
    let arg (f : Fibre) (d : Nat) : DWord := if wide then f.getVD d else (f.getV d).setWidth 64
    let runs (i : Instr) (op : Fibre → Amo) : Prop := ∀ s c pl f0, Ready s c pl f0 m.guard →
      ∀ l v w k u, Reaches s c pl (c.slot m.mod) (need [0, 1]) (m.offsets 0 c pl) l v → m.Commits v (c.stepped pl m.guard m.mod) pl f0 w k →
        w.spotFaults l = ([], u) →
        let y := { m.issued s c pl f0 with s := u, c := k }.amoLanes wide m.d.toNat op l
        let z := if m.b.getLsbD 5 then y.c.sees (c.masked pl m.guard) else y.c
        Goes i s (if m.b.getLsbD 5 then y.s.dropL1 c.core c.asid else y.s) z z (fun f => f)
    runs (.atom m) (fun f =>
      { next := fun old => some (amoOp (m.b.toNat % 16) wide old (arg f m.d.toNat))
        ask := fun dev va => .peerAtomic dev va (m.b.toNat % 16) wide (arg f m.d.toNat) }) ∧
    runs (.cas m) (fun f =>
      { next := fun old => if old = arg f m.d.toNat then some (arg f (m.d.toNat + n / 4)) else none
        ask := fun dev va => .peerCas dev va wide (arg f m.d.toNat) (arg f (m.d.toNat + n / 4)) }) ∧
    (∀ s c pl f0, Ready s c pl f0 m.guard → ∀ l v, Reaches s c pl (c.slot m.mod) (need [0, 1]) (m.offsets 0 c pl) l v →
      let new := l.flatMap (fun i => redOf i.fibre f0.pc (m.b.toNat % 16) wide (((c.fibre? i.fibre).map (fun f => arg f m.d.toNat)).getD 0) i.spot)
      (new = [] ∨ (c.stores.filter (fun st => match st.op with | .marker _ => false | _ => true)).length + new.length ≤ v.storeRoom c) →
        Goes (.atred m) s v c { c with stores := c.stores ++ new } (c.within pl m.guard (fun f => f.steps c m.mod))) ∧
    (∀ s c pl f0, Ready s c pl f0 m.guard → ∀ l v, Reaches s c pl (some c.scratchHandle) (need [3]) (m.padOffsets 0 c pl) l v →
      let y := { m.issued s c pl f0 with s := v }.amoScr m l
      let z := if m.b.getLsbD 5 then y.c.sees (c.masked pl m.guard) else y.c
      Goes (.atoms m) s y.s z z (fun f => f))

/-- An atomic operation computes what its table says, and its instruction executes. -/
def Obligations.AtomicsComputeAndExecute : Prop := Says.AtomicOperationsCompute ∧ Says.AtomicsExecute

/-- An atomic on a place in device memory answers the old value there and leaves the new one, and changes no other byte of memory while no erasure
group is live (08_memory.md R242). -/
def Sys2Proof.Says.AtomicsExchangeMemory : Prop :=
  ∀ (s : State) (c : Coil) (g : Seg) (r : List Seg) (cache : Nat) (compr : Bool) (tkey : Nat) (wide : Bool) (op : Amo),
    let n := if wide then 8 else 4
    let t := s.touch (cache = 2) g.pa tkey
    let q := s.amoAt c (.mem (g :: r) cache compr tkey) wide op
    let old : DWord := leDWord (t.peek g.pa n)
    g.pa % n = 0 → Memory.wf t = true → (∀ k, (s.grp k).st = 0) → s.errqEn = false →
      q.1 = (old, t.poisoned g.pa n) ∧
      ∀ a, cellGet q.2.mem a = match op.next old with
        | some x => if g.pa ≤ a ∧ a < g.pa + n then x.extractLsb' (8 * (a - g.pa)) 8 else cellGet t.mem a
        | none => cellGet t.mem a

/-- A performed write puts its bytes at their addresses and changes no other byte of memory while no erasure group is live; memory keeps its
canonical form (09_ordering.md R252; 14_survivable.md R391). -/
def Sys2Proof.Says.PerformedWritesLand : Prop :=
  ∀ (s : State) (pa : Nat) (d : List Byte) (bad side compr : Bool), Memory.wf s = true → (∀ k, (s.grp k).st = 0) →
    let t := (s.perform pa d bad side compr).s
    Memory.wf t = true ∧
    ∀ a, cellGet t.mem a = if pa ≤ a ∧ a < pa + d.length then d.getD (a - pa) 0 else cellGet s.mem a

/-- An atomic exchanges device memory, and a performed write lands there and nowhere else. -/
def Obligations.AtomicsAndWritesReachMemory : Prop := Says.AtomicsExchangeMemory ∧ Says.PerformedWritesLand

/-- A commit point performs the plait's waiting stores and no others, and starts the regions of its fibres after the instruction, with what they hold
there (07_work.md R188, R190, R191). -/
def Obligations.CommitPointsStartRegions : Prop :=
  ∀ (s : State) (c : Coil) (act : List Nat) (start : BitVec 64) (livein : Nat),
    (∀ f ∈ c.fibres, ∀ k, f.status ≠ .provisional k) →
    let q := s.commitFor c act start livein
    let d := { c with stores := c.stores.filter (fun st => !act.contains st.fibre), ueAt := [] }
    (q.1, q.2.2) = s.performStores d (act.flatMap (fun i => c.stores.filter (fun st => st.fibre = i))) ∧
    q.2.1 = d.onFibres act (fun f =>
      { f with region := { start := start, livein := livein, p := f.p, pos := f.pos, srs := f.srs, loops := f.loops } })

/-! ## Synchronisation objects, fences and barriers -/

/-- The synchronisation object of a slot is there: its physical place and the device that its translation, and the reconstruction of a poisoned object
(14_survivable.md R394), leave (09_ordering.md R258, R267). -/
def Sys2Proof.Machine.SyncAt (s : State) (c : Coil) (slot : Nat) (write : Bool) (p : Xlat) (v : State) : Prop :=
  ∃ h u, c.slot slot = some h ∧ h.sync ≠ 0 ∧ s.draw.2.translate c.asid h.sync (if write then .write else .read) = (.ok p, u) ∧
    v = (u.healRange p.pa 16).report ∧ (write = true → v.refuses p.pa = false) ∧ leNat (v.peek (p.pa + 12) 4) = 0

/-- The device after a write by a fibre of a coil at the home, which its core's L1 sees. -/
def Sys2Proof.Machine.State.wrote (s : State) (c : Coil) (pa : Nat) (side : Bool) (d : List Byte) : State :=
  ((s.perform pa d false side true).report).l1Update c.core pa

/-- ACQ takes the epoch and acquires; ACQ.X takes a free hold, and waits for one that another coil has; REL and REL.X advance the epoch, and REL.X
gives the hold up (09_ordering.md R258, R267). -/
def Sys2Proof.Says.AcquireAndRelease : Prop :=
  ∀ (m : Main) (s : State) (c : Coil) (pl : Place) (f0 : Fibre), Ready s c pl f0 m.guard →
    let held := m.b.getLsbD 3
    let sees (k : Coil) : Coil := k.sees (c.masked pl m.guard)
    let acquired (v : State) : State := if 3 ≤ m.b.toNat % 8 then v.dropL1 c.core c.asid else v
    let epoch (v : State) (p : Xlat) (k : Coil) : Coil := if m.d = 0 then k else k.setSD m.d.toNat (BitVec.ofNat 64 (leNat (v.peek p.pa 8)))
    (∀ p v, SyncAt s c m.mod held p v →
      (held = false → Goes (.acq m) s (acquired v) c (sees (epoch v p c)) (fun f => f)) ∧
      (held = true → leNat (v.peek (p.pa + 8) 4) = 0 ∨ leNat (v.peek (p.pa + 8) 4) = c.id + 1 → ∀ w k, m.Commits v c pl f0 w k →
        let w' := w.wrote k (p.pa + 8) p.side (leBytes 4 (c.id + 1))
        Goes (.acq m) s (acquired w') k (sees (epoch w' p k)) (fun f => f)) ∧
      (held = true → leNat (v.peek (p.pa + 8) 4) ≠ 0 → leNat (v.peek (p.pa + 8) 4) ≠ c.id + 1 → exec (.acq m) s = .next s.stall)) ∧
    (∀ p v w k, SyncAt s c m.mod true p v → m.Commits v c pl f0 w k →
      let w' := w.wrote k p.pa p.side (leBytes 8 (leNat (w.peek p.pa 8) + 1))
      (held = false → Goes (.rel m) s w' k k (fun f => f)) ∧
      (held = true → leNat (w.peek (p.pa + 8) 4) = c.id + 1 → Goes (.rel m) s (w'.wrote k (p.pa + 8) p.side [0, 0, 0, 0]) k k (fun f => f)))

/-- FENCE puts a marker of its scope in the store buffer for each fibre unless it only acquires, and drops the core's L1 lines of the address space
unless it only releases or its scope is the coil; FENCE.SURV waits for the deltas that are sent (09_ordering.md R268). -/
def Sys2Proof.Says.FencesOrder : Prop :=
  ∀ (m : Main) (s : State) (c : Coil) (pl : Place) (f0 : Fibre), Ready s c pl f0 m.guard →
    let mask := c.masked pl m.guard
    let marks : List Store := if m.b = 2 then [] else mask.map (fun i => { fibre := i, pc := f0.pc, tgt := .hostio 0 0 false, op := .marker m.mod })
    let snap := s.deltas.map (fun d => (d.group, d.holder, d.seq))
    let waits : List Wait := if m.mod = 7 ∧ s.deltas ≠ [] then
        mask.zipIdx.map (fun e => { id := s.nextId + e.2, fibres := [e.1], flag := m.flag, kind := .surv e.1 snap })
      else []
    Goes (.fence m) s (if m.b ≠ 1 ∧ 3 ≤ m.mod then s.dropL1 c.core c.asid else s) c
      { (if m.b ≠ 1 then c.sees mask else c) with stores := c.stores ++ marks, waits := c.waits ++ waits } (fun f => f)

/-- A unit of 32 bytes of the scratchpad or of a tile register that other fibres have written shows a fibre what it held before or what it holds now,
whole; a fibre that has made an acquire since, or has written the unit itself, finds what it holds now (09_ordering.md R251, R254, R256). That one
earlier content is all that is kept, and when a fibre comes to find the new one without an acquire, is the model's choice (log 144). -/
def Sys2Proof.Says.UnitsShowWhole : Prop :=
  ∀ (s : State) (c : Coil) (f : Nat) (tile : Option Nat) (off : Nat) (l : List PByte),
    ((∀ e ∈ c.olds, e.tile = tile → off / 32 ≤ e.unit → e.unit ≤ (off + l.length) / 32 → f ∉ e.hid) → c.asSeen s f tile off l = l) ∧
    (off % 32 + l.length ≤ 32 → c.asSeen s f tile off l = l ∨ ∃ e ∈ c.olds, e.tile = tile ∧ e.unit = off / 32 ∧ f ∈ e.hid ∧
      ∀ k x, l[k]? = some x → (c.asSeen s f tile off l)[k]? = some (e.old.getD (off % 32 + k) x)) ∧
    (∀ who, f ∈ who → ∀ e ∈ (c.sees who).olds, f ∉ e.hid) ∧
    (∀ old w u, (f, u) ∈ w → ∀ e ∈ (c.noteOld s tile old w).olds, e.tile = tile → e.unit = u → f ∉ e.hid) ∧
    (∀ old w u, f ∈ c.live → (f, u) ∉ w → (∃ g, (g, u) ∈ w) → ∃ e ∈ (c.noteOld s tile old w).olds, e.tile = tile ∧ e.unit = u ∧ f ∈ e.hid ∧ e.old = old u)

/-- ACQ, REL and FENCE execute and order what they name, and what is not ordered shows a unit whole. -/
def Obligations.AcquireReleaseFencesOrder : Prop := Says.AcquireAndRelease ∧ Says.FencesOrder ∧ Says.UnitsShowWhole

/-- A grid barrier: an arrival counts, gives its token and, when it is the last, starts the next generation; a wait is registered, and completes with an
acquire when the generation differs from its token (09_ordering.md R269, R270). -/
def Obligations.GridBarriersTurn : Prop :=
  (∀ (m : Main) (s : State) (c : Coil) (pl : Place) (f0 : Fibre), Ready s c pl f0 m.guard →
    let need (b : Bool) : Need := { size := 16, align := 16, write := b, spaces := [0], both := b }
    let own (v : State) (l : List Seg) (tkey : Nat) : Prop := ∀ g ∈ l, v.keyClash g.pa tkey = false
    (∀ i g r cache compr tkey v w k, Reaches s c pl (c.slot m.mod) (need true) (m.offset1 0 c pl) [⟨i, .mem (g :: r) cache compr tkey⟩] v →
      m.Commits v (c.stepped pl m.guard m.mod) pl f0 w k → own w (g :: r) tkey →
      let u := ((w.touch (cache = 2) g.pa tkey).healRange g.pa 16).report
      let word (j : Nat) : Nat := leNat (u.peek (g.pa + 4 * j) 4)
      word 0 < word 2 → word 3 = 0 →
        Goes (.gbarArv m) s (u.wrote k g.pa g.side (if word 0 + 1 = word 2 then leBytes 4 0 ++ leBytes 4 (word 1 + 1) else leBytes 4 (word 0 + 1)))
          k (k.setS m.d.toNat (BitVec.ofNat 32 (word 1))) (fun f => f)) ∧
    (∀ i g r cache compr tkey v, Reaches s c pl (c.slot m.mod) (need false) (m.offset1 0 c pl) [⟨i, .mem (g :: r) cache compr tkey⟩] v →
      own v (g :: r) tkey →
      Goes (.gbarWait m) s (v.touch (cache = 2) g.pa tkey) c
        { c with waits := c.waits ++ [{ id := v.nextId, fibres := c.actives pl, flag := m.flag, kind := .gbar (c.getS m.d.toNat) g.pa }] }
        (c.within pl m.guard (fun f => f.steps c m.mod)))) ∧
  (∀ (s : State) (c : Coil) (w : Wait) (gen : Word) (pa : Nat), s.coil? c.id = some c → c.wait? w.id = some w → w.kind = .gbar gen pa →
    let v := (s.healRange pa 16).report
    exec (.gbarWaitComplete c.id w.id) s = .next (if leWord (v.peek (pa + 4) 4) = gen then v
      else (v.setCoil (((c.dropWait w.id).sees w.fibres).onFibres w.fibres (fun f => f.clearFlag? w.flag))).dropL1 c.core c.asid))

/-- The fields of a barrier register. -/
def Sys2Proof.Machine.Coil.barIs (c : Coil) (n state phase members arrived : Nat) (bytes : Int) : Prop :=
  c.bar n = { state := state, phase := phase, members := members, arrived := arrived, bytes := bytes }

/-- An arrival at an ACTIVE barrier counts and adds its bytes; the phase completes when all have arrived and no bytes are out; one arrival too many,
or a count of bytes outside its field, makes an error; at a barrier that is not ACTIVE nothing counts (09_ordering.md R271, R272, R274). The order of
two errors of one arrival is the model's choice (log 71). -/
def Sys2Proof.Says.BarrierArrivalsCount : Prop :=
  ∀ (s : State) (c : Coil) (n : Nat) (d : Int) (r : Rec) (st ph mem arr : Nat) (by_ : Int), n < c.b.length → c.barIs n st ph mem arr by_ →
    let q := s.arrive c n d r
    (st ≠ 1 → q = (s, c, false)) ∧
    (st = 1 → (by_ + d < -(2 ^ 31) ∨ 2 ^ 31 ≤ by_ + d) → q.2.1.barIs n 2 ph mem arr by_ ∧ q.2.2 = false) ∧
    (st = 1 → -(2 ^ 31) ≤ by_ + d → by_ + d < 2 ^ 31 → mem ≤ arr → q.2.1.barIs n 2 ph mem arr (by_ + d) ∧ q.2.2 = false) ∧
    (st = 1 → -(2 ^ 31) ≤ by_ + d → by_ + d < 2 ^ 31 → arr + 1 < mem ∨ (arr + 1 = mem ∧ by_ + d ≠ 0) →
      q.1 = s ∧ q.2.1.barIs n 1 ph mem (arr + 1) (by_ + d) ∧ q.2.2 = true) ∧
    (st = 1 → arr + 1 = mem → by_ + d = 0 → q.1 = s ∧ q.2.1.barIs n 1 ((ph + 1) % 256) mem 0 0 ∧ q.2.2 = true)

/-- Barrier instructions execute: BINIT readies a barrier, BARV and BARX arrive fibre by fibre, BWAIT gives its answer or waits for it, BTEST reads
the register, BCAN cancels the barrier and lets its waiters go (09_ordering.md R273 to R277). What an arrival at a barrier that is not ACTIVE writes
is the model's reading (log 70). -/
def Sys2Proof.Says.BarriersExecute : Prop :=
  ∀ (m : Main) (s : State) (c : Coil) (pl : Place) (f0 : Fibre), Ready s c pl f0 m.guard →
    let k := (c.getS m.a.toNat).toNat
    let arrives (bytes : Fibre → Nat) : Iss := (m.issued s c pl f0).arriveLanes m.a.toNat m.d.toNat bytes (c.acting pl m.guard)
    let answer (f : Fibre) : Option Bool := (c.bar m.a.toNat).answer ((f.getV m.b.toNat).setWidth 8)
    let waiting := (c.acting pl m.guard).filter (fun f => answer f = none)
    let passed := ((c.acting pl m.guard).filter (fun f => answer f = some true)).map Fibre.idx
    let canceled := c.changeBar m.a.toNat { c.bar m.a.toNat with state := 3 }
    (1 ≤ k → k < 2048 → c.barWaited m.d.toNat = false → s.barNamed c m.d.toNat = false →
      Goes (.binit m) s s c { c with b := c.b.set m.d.toNat (BitVec.ofNat 64 (2 ^ 62 + k * 2 ^ 43)) }
        (fun f => { f with arrivals := f.arrivals.filter (fun e => e.1 ≠ m.d.toNat), arrived := f.arrived.filter (fun k => k ≠ m.d.toNat) })) ∧
    Goes (.barv m) s (arrives (fun _ => 0)).s (arrives (fun _ => 0)).c (arrives (fun _ => 0)).c (fun f => f) ∧
    Goes (.barx m) s (arrives (fun f => (m.wordB f).toNat)).s (arrives (fun f => (m.wordB f).toNat)).c (arrives (fun f => (m.wordB f).toNat)).c
      (fun f => f) ∧
    Goes (.bwait m) s s c
      { c.sees passed with waits := c.waits ++ waiting.zipIdx.map (fun e =>
        { id := s.nextId + e.2, fibres := [e.1.idx], flag := m.flag,
          kind := .bwait e.1.idx m.a.toNat m.d.toNat ((e.1.getV m.b.toNat).setWidth 8) }) }
      (c.within pl m.guard (fun f => match answer f with | some r => f.setP m.d.toNat r | none => f)) ∧
    Goes (.btest m) s s c c (c.within pl m.guard (fun f => f.setVD m.d.toNat (c.b.getD m.a.toNat 0))) ∧
    Goes (.bcan m) s s canceled canceled (fun f => f)

/-- Barrier arrivals count, and the barrier instructions execute. -/
def Obligations.BarriersCountAndExecute : Prop := Says.BarrierArrivalsCount ∧ Says.BarriersExecute

/-- Late results and the ends of waits: a writeback clears the flag that nothing holds any more; YIELD and SLEEPN end; a plait gives its slot to a
side that waits for one (02_encoding.md R41; 06_control.md R149, R162; 07_work.md R208). When they happen is the model's choice (logs 2 and 16). -/
def Obligations.LateResultsAndWakeups : Prop :=
  (∀ (s : State) (c : Coil) (fibre flag : Nat), s.coil? c.id = some c →
    (flag < 12 → exec (.resultWriteback c.id fibre flag) s =
      .next (if s.flagHeld c fibre flag then s else s.setCoil (c.onFibre fibre (fun f => f.clearFlag flag)))) ∧
    (12 ≤ flag → exec (.resultWriteback c.id fibre flag) s =
      .next (s.setCoil (c.onFibre fibre (fun f => { f with pend := f.pend.filter (fun e => e.flag.isSome || e.left.isSome || !e.known) }))))) ∧
  (∀ (s : State) (c : Coil) (slot : Nat), s.coil? c.id = some c → c.resident = true →
    let woken (st : FStatus) : Coil :=
      { c with fibres := c.fibres.map (fun f => if f.place = .slot slot && f.status = st then { f with status := .runnable } else f) }
    let awake (st : FStatus) : State := let q := s.split (woken st) (.slot slot); q.1.setCoil q.2
    ((∃ f ∈ c.fibres, f.place = .slot slot ∧ f.status = .yielded) → exec (.yieldExpiry c.id slot) s = .next (awake .yielded)) ∧
    ((∃ f ∈ c.fibres, f.place = .slot slot ∧ f.status = .asleep) → exec (.sleepnExpiry c.id slot) s = .next (awake .asleep))) ∧
  (∀ (s : State) (core slot : Nat) (c d : Coil) (pl : Place), s.coilAt core slot = some c →
    s.sidesWaiting.find? (fun p => match s.coil? p.1 with | some e => e.core = core | none => false) = some (d.id, pl) →
    freeSlot (s.slotsUsed core) = none →
    (if s.anyAtCollective core = true then c.atCollective (.slot slot) = true
     else ∀ n e, n < 64 → s.coilAt core n = some e → c.sinceAt slot ≤ e.sinceAt n) →
    let s' := { (s.setCoil (c.movePlace (.slot slot) (.side s.nextId) s.nextId)) with nextId := s.nextId + 1 }
    s'.coil? d.id = some d →
      exec (.parking core slot) s = .next { s'.setCoil (d.movePlace pl (.slot slot) s'.nextId) with nextId := s'.nextId + 1 })

/-! ## Work creation -/

/-- FIBNEW creates provisional fibres, FIBEND ends those of the mask at a commit point, and the coil with its last fibre (07_work.md R197, R198). -/
def Obligations.FibresStartAndEnd : Prop :=
  ∀ (m : Main) (s : State) (c : Coil) (pl : Place) (f0 : Fibre), Ready s c pl f0 m.guard →
    let x := (m.issued s c pl f0).spawnFibres m (c.acting pl m.guard)
    ((∀ f ∈ c.acting pl m.guard, (f.getVD m.a.toNat).toNat % 4 = 0) → Goes (.fibnew m) s s x.c x.c (fun f => f)) ∧
    (∀ f i, c.freeIdx = some i → ∃ k g, (m.issued s c pl f0).spawnFibres m [f] = { m.issued s c pl f0 with c := k } ∧ k.fibre? i = some g ∧
      g.idx = i ∧ g.pc = f.getVD m.a.toNat ∧ (f.idx ≠ i → g.status = .provisional f.idx ∧ ∀ o, c.fibre? f.idx = some o →
        k.fibre? f.idx = some (o.setV m.d.toNat (BitVec.ofNat 32 i)))) ∧
    (∀ w k, m.Commits s.draw.2 c pl f0 w k →
      let left := { k with fibres := k.fibres.filter (fun f => !(c.masked pl m.guard).contains f.idx) }
      left.mismatch = none →
        let p := w.settleInsts left (left.insts.map Inst.id)
        let q := p.1.settlePacks p.2 p.2.packPoints
        (left.fibres ≠ [] → Goes (.fibend m) s q.1 q.2 q.2 (fun f => f)) ∧
        (left.fibres = [] → ∃ t d, exec (.fibend m) s = .next t ∧ t.coil? c.id = some d ∧ d.st = .ended ∧ d.fibres = [] ∧ d.resident = false))

/-- Items pushed one after another, each while the target is ACTIVE (07_work.md R199). -/
def Sys2Proof.Machine.State.pushAll (s : State) (asid : BitVec 12) (rcb : BitVec 64) : List SpawnItem → Option State
  | [] => some s
  | i :: r => if s.rcbState asid rcb = 1 then (s.pushItem i).bind (fun t => t.pushAll asid rcb r) else none

/-- SPAWN pushes an item for each fibre of the mask at a commit point; items go to the hardware queue of the core while it has room
(07_work.md R199). LAUNCH has a packet accepted; FORK then leaves the core until the child RCB is no longer ACTIVE, to go on after the REGION that
follows it (R182, R191, R201, R202). -/
def Sys2Proof.Says.SpawnsAndLaunches : Prop :=
  ∀ (m : Main) (s : State) (c : Coil) (pl : Place) (f0 : Fibre), Ready s c pl f0 m.guard →
    let target := if c.getSD m.a.toNat = 0 then c.rcb else c.getSD m.a.toNat
    let item (f : Fibre) : SpawnItem :=
      { core := c.core, rcb := target, asid := c.asid, pc := f.getVD m.b.toNat, args := f.getVs m.c 4, fctl := f.fctl &&& 7, acquire := false,
        spill := false }
    (∀ v k w, m.Commits s.draw.2 c pl f0 v k → (∀ f ∈ c.acting pl m.guard, (f.getVD m.b.toNat).toNat % 4 = 0) →
      v.pushAll c.asid target ((c.acting pl m.guard).map item) = some w → Goes (.spawn m) s w k k (fun f => f)) ∧
    (∀ v i, s.rcbHome i.asid i.rcb = (i.asid, i.rcb) → s.eligible i.asid i.rcb i.core = true → s.queuedOn i.core < 4096 → i.spill = false → s.pushItem i = some v →
      v = { s with spawns := s.spawns ++ [i] }) ∧
    (∀ l v w k p u z, Reaches s c pl (c.slot m.mod) { size := 64, align := 1, write := false, spaces := [0], addrAlign := 64 } (m.offset1 m.memOff c pl) l v →
      m.Commits v (c.stepped pl m.guard m.mod) pl f0 w k → w.readPacket k l = (.ok p, u) →
      u.acceptLaunch c.asid p c.rcb (BitVec.ofNat 16 (c.task.toNat / 2 ^ 48)) none (dieOf c.core) false = .ok z →
        Goes (.launch m) s z k k (fun f => f) ∧
        (pkt p 0x10 8 ≠ 0 → let d := { m.issued s c pl f0 with s := z, c := k }.passRegion.c.counted pl
          exec (.fork m) s = .next ((z.setCoil d).save d (some (BitVec.ofNat 64 (pkt p 0x10 8))) false false)))

/-- A launch packet that breaks no rule, for an RCB that is NEW, is accepted: the RCB becomes ACTIVE under the launching one and the launch is queued
(07_work.md R180, R182, R200). -/
def Sys2Proof.Says.LaunchPacketsAreAccepted : Prop :=
  ∀ (s : State) (asid : BitVec 12) (p : BitVec 512) (own : BitVec 64) (queue : BitVec 16) (seq : Option Nat) (die : Nat) (joins : Bool),
    let named := BitVec.ofNat 64 (pkt p 0x10 8)
    (packetBad p = true → s.acceptLaunch asid p own queue seq die joins = .error 0x204) ∧
    (packetBad p = false → named ≠ 0 → named.toNat % 64 = 0 → 2 ≤ s.rcbState asid named →
      s.acceptLaunch asid p own queue seq die joins = .error 0x203) ∧
    (packetBad p = false → named ≠ 0 → named.toNat % 64 = 0 → s.rcbState asid named = 1 → s.rcbForeign asid named = true →
      s.acceptLaunch asid p own queue seq die joins = .error 0x204) ∧
    (packetBad p = false → named ≠ 0 → named.toNat % 64 = 0 → s.rcbState asid named = 0 → ∃ t, s.acceptLaunch asid p own queue seq die joins = .ok t ∧
      t.launches = s.launches ++ [{ id := s.nextId, packet := p, rcb := named, asid := asid, next := 0, queue := queue, seq := seq, die := die }] ∧
      ((t.rcbCtx asid named).map RcbCtx.ctxbase = some (some (BitVec.ofNat 64 (pkt p 0x20 8)))))

/-- Spawns and launches execute, and a packet that breaks no rule is accepted. -/
def Obligations.LaunchesAndSpawnsAreAccepted : Prop := Says.SpawnsAndLaunches ∧ Says.LaunchPacketsAreAccepted

/-- REGION commits, records a region with its own live-in and forgets the arrivals of its fibres (09_ordering.md R277); PRIO, QPOLL, SLEEPN, ENGFORK and RDV execute (07_work.md R190, R207, R208). When a
program starts is the model's reading (log 21). -/
def Obligations.RegionsAndMccPrograms : Prop :=
  ∀ (m : Main) (s : State) (c : Coil) (pl : Place) (f0 : Fibre), Ready s c pl f0 m.guard →
    let args := BitVec.ofNat 64 c.id :: (List.range 4).map (fun i => c.getSD (m.b.toNat + 2 * i))
    let n := (c.getS m.a.toNat).toNat
    let q := s.qslots.getD n QSlot.reset
    (∀ v k, s.draw.2.commitFor c (c.actives pl) (f0.pc + BitVec.ofNat 64 (4 * m.words)) (m.imm % 512) = (v, k, []) →
      Goes (.region m) s v k k (fun f => if f.idx ∈ c.actives pl then { f with arrivals := [] } else f)) ∧
    (∀ v k, c.eng ≠ .queued → c.eng ≠ .running → (c.getSD m.a.toNat).toNat % 4 = 0 → (s.mccWaiting c.core).length < 16 →
      m.Commits s.draw.2 c pl f0 v k →
        Goes (.engfork m) s { v with mccq := v.mccq ++ [c.id] } k
          { k with eng := .queued, mcc := some (MccCtx.start v.nextId (c.getSD m.a.toNat) args) } (fun f => f)) ∧
    (∀ a0, c.eng = .halted a0 → Goes (.rdv m) s (s.dropL1 c.core c.asid) c ((c.setSD m.d.toNat a0).sees (c.masked pl m.guard)) (fun f => f)) ∧
    (c.eng = .queued ∨ c.eng = .running → exec (.rdv m) s = .next s.stall) ∧
    Goes (.prio m) s s c { c with sub := m.imm % 4 } (fun f => f) ∧
    (n < 256 → Goes (.qpoll m) s s c
      (c.setSs m.d.toNat (if q.mapped then [BitVec.ofNat 32 (min (q.write - q.read) (2 ^ 32 - 1)), 1] else [0, 0])) (fun f => f)) ∧
    Goes (.sleepn m) s s c c (fun f => if f.idx ∈ c.actives pl then { f with status := .asleep } else f)

/-- Futures: FREAD reads VALUE and STATE, FWAIT waits for its lane's future and completes when it is settled, FRES resolves and FTHEN registers one lane
after another at a commit point (07_work.md R203 to R206). -/
def Sys2Proof.Says.FuturesExecute : Prop :=
  ∀ m : Main,
    let need (n : Nat) (w : Bool) : Need := { size := n, align := 1, write := w, spaces := [0], addrAlign := 32, both := w }
    let words (b : List PByte) : List Word := let l := pbWords 4 b; [l.getD 2 0, l.getD 3 0, l.getD 0 0 &&& 3]
    (∀ s c pl f0, Ready s c pl f0 m.guard → ∀ l v vals w, Reaches s c pl (c.slot m.mod) (need 16 false) (m.offsets m.memOff c pl) l v →
      v.readLanes c false l = (vals, [], w) →
        let any := vals.any (fun e => (words e.2).getD 2 0 ≠ 0)
        Goes (.fread m) s (if any then w.dropL1 c.core c.asid else w) c (if any then c.sees (c.masked pl m.guard) else c) (c.within pl m.guard (fun f =>
          let b := bytesOf vals f.idx
          let g := (f.steps c m.mod).setVs m.d.toNat (words b)
          if b.any Prod.snd then (List.range 3).foldl (fun g i => g.taint (m.d.toNat + i) .data) g else g))) ∧
    (∀ s c pl f0, Ready s c pl f0 m.guard → ∀ l v w, Reaches s c pl (c.slot m.mod) (need 16 false) (m.offsets m.memOff c pl) l v →
      v.spotFaults l = ([], w) →
      Goes (.fwait m) s ({ m.issued s c pl f0 with s := w }.touches l).s c
        { c with waits := c.waits ++ l.zipIdx.map (fun e =>
            { id := w.nextId + e.2, fibres := [e.1.fibre], flag := m.flag, kind := .fwait e.1.fibre m.d.toNat e.1.spot.va e.1.spot.pa }) }
        (c.within pl m.guard (fun f => f.steps c m.mod))) ∧
    (∀ s c pl f0, Ready s c pl f0 m.guard → ∀ l v w k u y, Reaches s c pl (c.slot m.mod) (need 32 true) (m.offsets m.memOff c pl) l v →
      m.Commits v (c.stepped pl m.guard m.mod) pl f0 w k → w.spotFaults l = ([], u) →
      { m.issued s c pl f0 with s := u, c := k }.resolveLanes m.d.toNat false l = .ok y →
        Goes (.fres m) s y.s k k (fun f => f)) ∧
    (∀ s c pl f0, Ready s c pl f0 m.guard → ∀ l v u w k z y, Reaches s c pl (c.slot m.mod) (need 32 true) (m.offsets m.memOff c pl) l v →
      { m.issued s c pl f0 with s := v }.recordFaults m.d.toNat (c.acting pl m.guard) = ([], u) →
      m.Commits u (c.stepped pl m.guard m.mod) pl f0 w k → w.spotFaults l = ([], z) →
      { m.issued s c pl f0 with s := z, c := k }.registerLanes m.d.toNat false l = .ok y →
        Goes (.fthen m) s y.s k k (fun f => f)) ∧
    (∀ s c w fibre d va pa, s.coil? c.id = some c → c.wait? w.id = some w → w.kind = .fwait fibre d va pa →
      let v := (s.healRange pa 16).report
      let b := v.futureOf c fibre pa
      ((words b).getD 2 0 = 0 → exec (.fwaitComplete c.id w.id) s = .next v) ∧
      ((words b).getD 2 0 ≠ 0 → ∃ k, exec (.fwaitComplete c.id w.id) s = .next ((v.setCoil k).dropL1 c.core c.asid) ∧
        k = ((c.dropWait w.id).onFibre fibre (fun f =>
          let g := f.deliver w.flag [(d, (words b).getD 0 0), (d + 1, (words b).getD 1 0), (d + 2, (words b).getD 2 0)]
          if b.any Prod.snd then (List.range 3).foldl (fun g j => g.taint (d + j) .data) g else g)).sees [fibre]))

/-- Resolving a future (07_work.md R204): an unsettled future takes VALUE and STATE at once, and its list is then released in order; a settled one keeps
what it has. A record's JOIN counts down, and the record is released when it comes to 0. An access through a slot whose tenant key is not that of the
future's line faults (08_memory.md R232). -/
def Sys2Proof.Says.FuturesSettleOnce : Prop :=
  ∀ (s : State) (asid : BitVec 12) (fut : BitVec 64) (core : Nat) (r : Rec) (st : Nat) (x : DWord) (key : Option Nat) (p : Xlat) (v : State),
    s.translate asid fut .write = (.ok p, v) →
    let clash : Prop := ∃ k, key = some k ∧ v.keyClash p.pa k = true
    let u := ((v.touchBy p.pa key).healRange p.pa 16).report
    (clash → s.resolve asid fut core r st x key = .bad ⟨0x109, 0, fut⟩ v) ∧
    (¬ clash → leNat (u.peek p.pa 1) % 4 ≠ 0 → s.resolve asid fut core r st x key = .settled u) ∧
    (¬ clash → leNat (u.peek p.pa 1) % 4 = 0 → u.refuses p.pa = false →
      let w := (u.perform p.pa (leBytes 8 st ++ leBytes 8 x.toNat) false p.side true).report
      s.resolve asid fut core r st x key =
        .done (State.releaseList asid core r w.listFuel w (BitVec.ofNat 64 (leNat (u.peek p.pa 8) / 64 * 64))) ∧
      (p.pa % 32 = 0 → Memory.wf u = true → (∀ k, (u.grp k).st = 0) → u.errqEn = false →
        leNat (w.peek p.pa 8) = st % 2 ^ 64 ∧ leNat (w.peek (p.pa + 8) 8) = x.toNat))

/-- Future instructions execute, and a future settles once. -/
def Obligations.FuturesExecuteAndSettle : Prop := Says.FuturesExecute ∧ Says.FuturesSettleOnce

/-! ## Copies, gathers and tiles -/

/-- A copy or gather command is accepted at a commit point, in the order of its checks, with the slots that it names as they stand
(10_copy_gather.md R280, R284, R285). -/
def Sys2Proof.Main.Accepts (m : Main) (i : Instr) (kind : CopyKind) : Prop :=
  ∀ s c pl f0, Ready s c pl f0 m.guard →
    (∀ f ∈ c.masked pl m.guard, c.decl.allows f = true) → (s.copies.filter (fun k => k.core = c.core)).length < 32 →
    ∀ w k l v d u src, m.Commits s.draw.2 (c.stepped pl m.guard m.mod) pl f0 w k →
      w.resolveLanes k (c.slot m.mod) { size := 64, align := 64, write := false, spaces := [0, 3] } (m.offset1 m.memOff c pl) = (l, [], v) →
      (pl ∈ c.ignoreWatch ∨ (k.watchHit true false l = none ∧ copyWatch k kind d = none)) → v.readPacket k l = (.ok d, u) →
      (if kind.isCopy then copyDescBad kind d else gatherDescBad kind d) = false → slotsTrap k kind d = none → u.tileTrap k kind d = none →
      c.slot (ctrlSslot d) = some src →
        let r := u.coreRegs c.core
        let cmd : CopyCmd :=
          { id := u.nextId, kind := kind, core := c.core, coil := c.id, launch := c.launch, asid := c.asid,
            task := BitVec.ofNat 64 (c.task.toNat / 2 ^ 48 * 2 ^ 48 + r.copySeq % 2 ^ 48), desc := d, src := src,
            lin := if kind.toTile || ctrlLtile d then none else c.slot (ctrlLslot d), idx := if kind.isCopy then none else c.slot (ctrlIslot d),
            cpl := if ctrlStw d || ctrlFut d then c.slot (ctrlCslot d) else none, started := false,
            drain := u.regs.gsdrain.getLsbD 13 && (u.regs.gsdrain.setWidth 12 = c.asid), todo := [], faults := [], dests := [], destFaults := [] }
        Goes i s { u.setCoreRegs c.core { r with copySeq := r.copySeq + 1 } with copies := u.copies ++ [cmd] } k k (fun f => f)

/-- Copy and gather instructions execute: the commands are accepted, CPYC sets the declaration or counts the free entries, GSTAT reads what is asked
(10_copy_gather.md R281, R282, R284, R301). -/
def Obligations.CopyInstructionsExecute : Prop :=
  ∀ m : Main,
    m.Accepts (.cpy m) .cpy ∧ m.Accepts (.cpyt m) .cpyt ∧ m.Accepts (.cpym m) .cpym ∧
    m.Accepts (.gath m) .gath ∧ m.Accepts (.scat m) .scat ∧ m.Accepts (.scata m) .scata ∧
    (∀ s c pl f0, Ready s c pl f0 m.guard →
      let g := c.g.getD m.b.toNat 0
      let lo := grpFirst g + (c.getS m.a.toNat).toNat * grpSize g
      (m.mod = 0 → Goes (.cpyc m) s s c { c with decl := .all } (fun f => f)) ∧
      (m.mod = 1 → grpValid g = true → (c.getS m.a.toNat).toNat * grpSize g < grpCount g →
        Goes (.cpyc m) s s c { c with decl := .range lo (min (lo + grpSize g) (grpFirst g + grpCount g)) } (fun f => f)) ∧
      (m.mod = 2 → Goes (.cpyc m) s s c { c with decl := .none } (fun f => f)) ∧
      (m.mod = 3 → Goes (.cpyc m) s s c
        (c.setS m.d.toNat (BitVec.ofNat 32 (32 - (s.copies.filter (fun k => k.core = c.core)).length))) (fun f => f))) ∧
    (∀ s c pl f0, Ready s c pl f0 m.guard →
      (m.mod = 0 → Goes (.gstat m) s s c (c.setS m.d.toNat (BitVec.ofNat 32 (s.copies.filter (fun k => k.coil = c.id)).length)) (fun f => f)) ∧
      (m.mod = 1 → Goes (.gstat m) s s c (c.setSD m.d.toNat c.last) (fun f => f)) ∧
      (m.mod = 2 →
        let n := (c.getS m.a.toNat).toNat
        (12 ≤ n ∨ s.regs.memAvail.getD (n + 1) 0 = 0 → Goes (.gstat m) s s c (c.setSs m.d.toNat [0, 0]) (fun f => f)) ∧
        (n < 12 → s.regs.memAvail.getD (n + 1) 0 ≠ 0 →
          let l := s.engContexts n
          Goes (.gstat m) s s c (c.setSs m.d.toNat [ctxWord l 0, ctxWord l 1]) (fun f => f) ∧
          ∀ e ∈ l, ∃ k ∈ s.copies, k.kind.isCopy = false ∧ k.started = true ∧ k.asid = e.1 ∧ k.todo ≠ [])))

/-- A command starts when it is the first of its coil that has not, with room on its core and the power that it asks for; a granule of a copy is read
and lands, for a tile register with the granule that fills its 32-byte unit (09_ordering.md R251); an element of a gather, scatter or atomic scatter
is located, taken by its engines, moved and lands, and one that faults is filled (10_copy_gather.md R279, R288, R291, R296, R297, R299, R305). That a granule or an element is one step is the model's choice (logs 2, 8 and 68). -/
def Sys2Proof.Says.EnginesMoveBytes : Prop :=
  ∀ (s : State) (k : CopyCmd), s.copy? k.id = some k →
    let cls := min 15 ((k.bytes + 65535) / 65536)
    let begun : CopyCmd := { k with started := true, todo := List.range k.units }
    (s.copyReady k = true → k.drain = false → k.asks = false → exec (.copyCommandStart k.id) s = .next (s.setCopy begun)) ∧
    (s.copyReady k = true → k.drain = false → k.asks = true → ∀ b v, s.leave k.core (.copy k.id) cls k.coil = (b, v) →
      exec (.copyCommandStart k.id) s = .next (if b then v.setCopy begun else v)) ∧
    (∀ g c b v, k.kind.isCopy = true → k.started = true → k.faults = [] → g ∈ k.todo → (k.drain = true → k.midChunk g = true) →
      s.coil? k.coil = some c → s.readGranules c k (k.together g) = (.ok b, v) →
        let k' := { k with todo := k.todo.filter (fun e => !(k.together g).contains e) }
        let off := (k.granule ((k.together g).headD g)).2
        (∀ h w, k.kind = .cpy → k.lin = some h → v.engWrite k.coil h off b = (.ok (), w) →
          exec (.engineBytesLanded k.id g) s = .next ((w.landOn k k.coil 16).setCopy k')) ∧
        (k.kind = .cpyt → exec (.engineBytesLanded k.id g) s =
          .next (((v.tilePut k.coil (ctrlTile k.desc) off.toNat b).landOn k k.coil b.length).setCopy k')) ∧
        (k.kind = .cpym → exec (.engineBytesLanded k.id g) s =
          .next (let q := v.cpymPuts k' g off.toNat b k.cores; q.1.setCopy q.2))) ∧
    (∀ g, g ∈ k.together g ∧ (k.kind = .cpy → k.together g = [g]) ∧
      ∀ i ∈ k.together g, i = g ∨ (i ∈ k.todo ∧ (k.granule i).2.toNat / 32 = (k.granule g).2.toNat / 32)) ∧
    (∀ e c, k.kind.isCopy = false → k.started = true → k.drain = false → e ∈ k.todo → s.coil? k.coil = some c → s.elementDue c k e = true →
      let k' := { k with todo := k.todo.filter (fun i => i ≠ e) }
      let off := dDoff k.desc + e * gatLstr k.desc
      let lands (w : State) : Prop := exec (.gatherElement k.id e) s = .next ((w.landOn k k.coil (gatElb k.desc)).setCopy k')
      let by_ (engs : List Nat) (u : State) : State := engs.foldl (fun s n => s.engTake k.asid k.src.tkey n) u
      (∀ t engs z v b w u, s.locate c k e = .at_ t engs z → v = by_ engs z → k.kind = .gath → v.engRead c k.src (BitVec.ofNat 64 t) (gatElb k.desc) = (.ok b, w) →
        w.putLinear k off b = (.ok (), u) → lands u) ∧
      (∀ t engs z v b w u, s.locate c k e = .at_ t engs z → v = by_ engs z → k.kind = .scat → v.getLinear c k off = (.ok b, w) →
        w.engWrite k.coil k.src (BitVec.ofNat 64 t) b = (.ok (), u) → lands u) ∧
      (∀ t engs z v b w u, s.locate c k e = .at_ t engs z → v = by_ engs z → k.kind = .scata → v.getLinear c k off = (.ok b, w) → b.any Prod.snd = false →
        w.applyWords k c (gatElb k.desc / 4 + 1) t b = (.ok (), u) → lands u) ∧
      (∀ code inst addr v, s.locate c k e = .fault code inst addr v →
        let filled := match k.fillBytes with | some b => v.fillLinear k off b | none => v
        let failed : CopyCmd := { k' with faults := k.faults ++ [{ elem := e, code := code, inst := inst, addr := addr }] }
        exec (.gatherElement k.id e) s = .next ((filled.landOn k k.coil (gatElb k.desc)).setCopy failed)))

/-- A command whose units are all done ends: it leaves the queue, and GSTAT.LAST holds its status (10_copy_gather.md R286 to R289). When it ends is
the model's choice (log 2). -/
def Sys2Proof.Says.EngineCommandsEnd : Prop :=
  ∀ (s : State) (k : CopyCmd), s.copy? k.id = some k → k.started = true → k.todo = [] →
    ∃ t, exec (.copyCommandEnd k.id) s = .next t ∧ t.copy? k.id = none ∧ ∀ d, t.coil? k.coil = some d → d.last = k.status

/-- Copy engines move the bytes of their commands and end them. -/
def Obligations.CopyEnginesMoveBytes : Prop := Says.EnginesMoveBytes ∧ Says.EngineCommandsEnd

/-- Tile feeding executes where its descriptor, its tile and every row are right: TLD and TLD.T write rows or elements of a column, TST reads rows,
ACCRD reads words of an accumulator's row (11_matrix.md R340, R341). What a fibre may go on finding of a unit that another has written follows
09_ordering.md R254 (log 144). RAW with OFF is the model's reading (log 66). -/
def Obligations.TileFeedingExecutes : Prop :=
  ∀ (m : Main) (s : State) (c : Coil) (pl : Place) (f0 : Fibre), Ready s c pl f0 m.guard →
    let d := c.getS m.b.toNat
    let n := feedC d
    let rows := c.acting pl m.guard
    let units (put : Fibre → List (Nat × List Byte)) : List (Nat × Nat) :=
      rows.flatMap (fun f => ((put f).flatMap (fun w => unitsAll w.1 w.2.length)).eraseDups.map (fun u => (f.idx, u)))
    let writes (t : Tile) (put : Fibre → List (Nat × List Byte)) : Coil :=
      (c.noteOld s.draw.2 (some (feedIdx d)) (fun u => t.readP (32 * u) 32) (units put)).putTile (rows.foldl (fun t f => (put f).foldl (fun t w => t.write w.1 w.2 false) t) t)
    (∀ t, c.tile? (feedIdx d) = some t → feedBad d = false → recInvalid t.record = false →
      ((feedRaw d = true → feedOff d = 0) → m.a.toNat + n ≤ c.window → s.tileHeld c (feedIdx d) = false →
        (∀ f ∈ rows, feedRowOk t.record d (f.getV m.d.toNat).toNat = true) →
        Goes (.tld m) s s c (writes t (fun f => [(feedAt t.record d (f.getV m.d.toNat).toNat, f.regBytes m.a.toNat (4 * n))])) (fun f => f)) ∧
      (feedRaw d = false → m.a.toNat + n ≤ c.window → s.tileHeld c (feedIdx d) = false → fmtBits (recFmt t.record) = 8 ∨ fmtBits (recFmt t.record) = 16 →
        feedOff d + 32 * n / fmtBits (recFmt t.record) ≤ recRows t.record → (∀ f ∈ rows, (f.getV m.d.toNat).toNat < recCols t.record) →
        Goes (.tldT m) s s c (writes t (fun f => columnWrites t.record (feedOff d) (f.getV m.d.toNat).toNat (f.regBytes m.a.toNat (4 * n))))
          (fun f => f)) ∧
      ((feedRaw d = true → feedOff d = 0) → m.d.toNat + n ≤ c.window →
        (∀ f ∈ rows, feedRowOk t.record d (f.getV m.a.toNat).toNat = true) →
        Goes (.tst m) s s c c (c.within pl m.guard (fun f =>
          let at_ := feedAt t.record d (f.getV m.a.toNat).toNat
          f.load m.d.toNat n (c.asSeen s.draw.2 f.idx (some (feedIdx d)) at_ (t.readP at_ (4 * n))))))) ∧
    (∀ a, c.acc? (feedIdx d) = some a → feedBad d = false → feedRaw d = false → m.d.toNat + n ≤ c.window → feedOff d + n ≤ 128 →
      a.st ≠ .opened → a.st ≠ .base → (∀ f ∈ rows, (f.getV m.a.toNat).toNat < 128) →
        Goes (.accrd m) s s c c (c.within pl m.guard (fun f =>
          let k := (f.getV m.a.toNat).toNat * 128 + feedOff d
          let g := f.setVs m.d.toNat ((List.range n).map (fun i => a.get (k + i)))
          if (List.range n).any (fun i => a.poison.contains ((k + i) / 8)) then
            (List.range n).foldl (fun g i => g.taint (m.d.toNat + i) .data) g
          else g)))

/-! ## Scouts and masks -/

/-- SCOUT is accepted where its tiles, its descriptor and its keys are right; TMASK writes the mask of the tiles that some row keeps; mask registers
combine, count and move (12_scout.md R348, R350, R353, R355). -/
def Obligations.ScoutsAndMasksExecute : Prop :=
  ∀ (m : Main) (s : State) (c : Coil) (pl : Place) (f0 : Fibre), Ready s c pl f0 m.guard →
    let d := c.getSs m.b.toNat 8
    let w := c.getS m.b.toNat
    let tau := c.getS (m.b.toNat + 1)
    let setM (x : BitVec 128) : Coil := { c with m := c.m.set m.d.toNat x }
    (∀ h, s.scoutTiles c d = false → c.scoutBad d = false → c.keyTrap m.mod d = none → c.slot m.mod = some h →
      (s.scouts.filter (fun k => k.core = c.core)).length < 8 →
        let r := s.coreRegs c.core
        let k : ScoutCmd := { core := c.core, coil := c.id, pc := f0.pc, fibres := c.actives pl, flag := m.flag, desc := d, key := h,
                              task := BitVec.ofNat 64 (c.task.toNat / 2 ^ 48 * 2 ^ 48 + r.scoutSeq % 2 ^ 48) }
        Goes (.scout m) s { s.setCoreRegs c.core { r with scoutSeq := r.scoutSeq + 1 } with scouts := s.scouts ++ [k] } c c
          (fun f => if f.idx ∈ c.actives pl then { f with holds := f.holds + 1 } else f)) ∧
    (∀ e q, c.tile? (w.toNat % 32) = some e → c.tile? (w.toNat / 32 % 32) = some q → recInvalid e.record = false → recFmt e.record = 9 →
      recBlk e.record = 0 → w.toNat < 2 ^ 30 → w.toNat / 2 ^ 23 % 128 + 1 ≤ recCols e.record → w.toNat / 2 ^ 10 % 4096 * 16 + 512 ≤ 65536 →
      finiteW tau = true → (tau.getLsbD 31 = true → tau = 0x80000000) →
      (s.scoutPending c (c.actives pl) [w.toNat % 32, w.toNat / 32 % 32] = false ∨ ∀ f ∈ c.acting pl m.guard, f.fctl.getLsbD 0 = false) →
      c.tmaskBad w = false → Goes (.tmask m) s s c (setM (c.tmask w tau)) (fun f => f)) ∧
    Goes (.mkand m) s s c (setM (if m.mod = 1 then c.getM m.a.toNat &&& ~~~c.getM m.b.toNat else c.getM m.a.toNat &&& c.getM m.b.toNat)) (fun f => f) ∧
    Goes (.mkor m) s s c (setM (if m.mod = 1 then c.getM m.a.toNat ^^^ c.getM m.b.toNat else c.getM m.a.toNat ||| c.getM m.b.toNat)) (fun f => f) ∧
    Goes (.mkpop m) s s c (c.setS m.d.toNat (BitVec.ofNat 32 ((List.range 128).filter (fun i =>
      (c.getM m.a.toNat).getLsbD i && (m.mod ≠ 1 || i < (c.getS m.b.toNat).toNat % 256))).length)) (fun f => f) ∧
    Goes (.mkrd m) s s c (c.setSs m.d.toNat ((List.range 4).map (fun k => (c.getM m.a.toNat).extractLsb' (32 * k) 32))) (fun f => f) ∧
    Goes (.mkwr m) s s c
      (setM (c.getS (m.a.toNat + 3) ++ (c.getS (m.a.toNat + 2) ++ (c.getS (m.a.toNat + 1) ++ c.getS m.a.toNat)))) (fun f => f)

/-- A key tile is kept exactly when some query row has an estimate of it that is not below the row's threshold (12_scout.md R353). -/
def Sys2Proof.Says.MasksKeepTiles : Prop :=
  ∀ (c : Coil) (w tau : Word),
    let nt := w.toNat / 2 ^ 23 % 128 + 1
    let e := w.toNat % 32
    let est (i t : Nat) : Val := estVal (c.tileGet e (estAt (c.record e) i t))
    let bound (i : Nat) : Val := boundVal (c.tileGet (w.toNat / 32 % 32) (w.toNat / 2 ^ 10 % 4096 * 16 + 4 * i))
    ∀ t, t < 128 → ((c.tmask w tau).getLsbD t = true ↔ t < nt ∧ ∃ i th, i < recRows (c.record e) ∧
      threshold ((List.range nt).map (est i)) (bound i) (fval tau) (w.getLsbD 22) = some th ∧ est i t ≠ .inf true ∧ (est i t).lt th = false)

/-- The oldest SCOUT of a core executes once it has leave: it writes its estimates and bounds, and releases its fibres (12_scout.md R349, R351). That
a SCOUT executes in one step is the model's choice (logs 2 and 81). -/
def Sys2Proof.Says.ScoutsRun : Prop :=
  ∀ (s : State) (k : ScoutCmd) (c : Coil), s.scouts.find? (fun e => e.core = k.core) = some k → s.coil? k.coil = some c →
    c.st ≠ .ended → c.st ≠ .killed → ∀ b v, s.leave k.core .scout (c.scoutClass k.desc) k.coil = (b, v) →
      (b = false → exec (.scoutCommandExecute k.core) s = .next v) ∧
      (b = true → c.scoutPoison k.desc = false → ∀ keys w,
        { v with scouts := s.scouts.eraseP (fun e => e.core = k.core) }.readKeys c k (scKfmt k.desc) (recCols (c.record (scQtile k.desc)))
          (List.range (scNk k.desc)) = (keys, none, w) →
        exec (.scoutCommandExecute k.core) s = .next (w.setCoil
          (k.release ((c.scoutWords k.desc keys).foldl (fun c e => c.tileSet e.1 e.2.1 e.2.2) c))))

/-- A scout executes when it has leave, and a mask keeps the key tiles that some row keeps (12_scout.md R349, R351, R353). -/
def Obligations.ScoutsRunAndMasksKeep : Prop := Says.ScoutsRun ∧ Says.MasksKeepTiles

/-! ## Surrogates -/

/-- Surrogate instructions execute (13_surrogate.md R366, R367, R370 to R376, R382): SGLOAD binds an image that is valid, SGREC sets a recovery PC,
SGREL and SGINV free a slot and drop copies, SGQB writes and reads a q register, SGCNT, SGDIS and their forms read and change a slot; SGCALL queues a
call. SGLOAD commits first; that it reads the image at once, and is LOADED later, is the model's reading (log 41). -/
def Obligations.SurrogateInstructionsExecute : Prop :=
  ∀ (m : Main) (s : State) (c : Coil) (pl : Place) (f0 : Fibre), Ready s c pl f0 m.guard →
    let k := m.d.toNat
    let on (n : Nat) (f : SgSlot → SgSlot) : Coil := if (c.sgSlot n).st = .empty then c else { c with sg := c.sg.set n (f (c.sgSlot n)) }
    let blk (w : Word) : Nat := partWblk w + partSblk w + partAblk w
    let need (n : Nat) : Need := { size := n, align := 16, write := false, spaces := [0] }
    (∀ w d l v off u h b x, m.Commits s.draw.2 (c.stepped pl m.guard m.mod) pl f0 w d → m.offset1 m.memOff c pl = [(x, off)] →
      c.slot m.mod = some h → w.resolveLanes d (some h) (need 64) [(x, off)] = (l, [], v) →
      (pl ∈ d.ignoreWatch ∨ d.watchHit true false l = none) → v.sgCached d.core d.asid (h.base + off) = (none, u) →
      ∀ hd u1 l1 u2, { m.issued s c pl f0 with s := u, c := d.sgFree k }.sgRead (some h) off 64 = (.ok hd, u1) →
        { m.issued s c pl f0 with s := u1, c := d.sgFree k }.sgRead (some h) off (Image.size (hd.map Prod.fst)) = (.ok l1, u2) →
        b = l1.map Prod.fst → hd.any Prod.snd = false → l1.any Prod.snd = false → sgSizeOk (Image.size (hd.map Prod.fst)) = true → Image.ok b = true →
        let e := (d.sgFree k).putSg k { SgSlot.empty with st := .loading, addr := h.base + off, asid := c.asid, image := b }
        Goes (.sgload m) s (u2.sgKeep c.core c.asid (h.base + off) b) e
          { e with waits := e.waits ++ [{ id := u2.nextId, fibres := c.actives pl, flag := m.flag, kind := .sgload k }] } (fun f => f)) ∧
    (let g := c.sgSlot k
     (c.getSD m.a.toNat).toNat % 4 = 0 → g.st = .loaded → blk c.partw + blk (s.rcbSppartw c.asid c.rcb) ≤ 128 →
      max (max (Image.nin g.image) (Image.nout g.image)) 2 ≤ 8 * s.rcbSpwin c.asid c.rcb →
        Goes (.sgrec m) s s c { c with sg := c.sg.set k { g with recPc := c.getSD m.a.toNat } } (fun f => f)) ∧
    Goes (.sgrel m) s s (c.sgFree k) (c.sgFree k) (fun f => f) ∧
    (∀ l v h x off, Reaches s c pl (c.slot m.mod) (need 16) [(x, off)] l v → m.offset1 m.memOff c pl = [(x, off)] → c.slot m.mod = some h →
      Goes (.sginv m) s { v with sgstore := v.sgstore.filter (fun e => !(e.asid = c.asid && e.addr = h.base + off)) } c c
        (c.within pl m.guard (fun f => f.steps c m.mod))) ∧
    (m.mod = 1 → Goes (.sgqb m) s s c (c.setSD m.d.toNat (c.q.getD m.a.toNat 0)) (fun f => f)) ∧
    (m.mod ≠ 1 → qBad (c.getSD m.a.toNat) = false → Goes (.sgqb m) s s c { c with q := c.q.set m.d.toNat (c.getSD m.a.toNat) } (fun f => f)) ∧
    Goes (.sgcnt m) s s c (c.setSD m.d.toNat (s.sgItem c (c.sgSlot m.a.toNat) m.b.toNat)) (fun f => f) ∧
    Goes (.sgcntClr m) s s c (on m.a.toNat (fun g => { g with calls := 0, fallback := 0, sampled := 0, viol := 0, errmax := 0 })) (fun f => f) ∧
    Goes (.sgdis m) s s c (on m.a.toNat (fun g => { g with dis := true })) (fun f => f) ∧
    Goes (.sgdisEn m) s s c (on m.a.toNat (fun g => { g with dis := false })) (fun f => f) ∧
    Goes (.sgdisRd m) s s c (c.setSD m.d.toNat s.regs.sgctl) (fun f => f) ∧
    (let g := c.sgSlot (m.b.toNat % 8)
     let q := c.q.getD (m.b.toNat / 8 % 16) 0
     let mask := c.masked pl m.guard
     g.st ≠ .empty → m.a.toNat + Image.nin g.image ≤ c.window → m.d.toNat + Image.nout g.image ≤ c.window →
      (g.recPc = 0 → qMode q = 2 ∧ g.dis = false ∧ s.sgDev = false) → g.stale = false →
      (s.sgcalls.filter (fun e => e.core = c.core)).length < 16 → s.sgLoadOf c.core + mask.length ≤ 4096 →
        let call : SgCall :=
          { core := c.core, coil := c.id, pc := f0.pc, seq := c.callNo, sg := m.b.toNat % 8, slot := g, q := q, dev := s.sgDev, flag := m.setf,
            dreg := m.d.toNat, lanes := (c.acting pl m.guard).map (fun f => (f.idx, f.getVs m.a.toNat (Image.nin g.image), f.fctl)) }
        Goes (.sgcall m) s { s with sgcalls := s.sgcalls ++ [call] } c { c with callNo := (c.callNo + 1) % 65536 }
          (c.within pl m.guard (fun f => { f with holds := f.holds + 1 })))

/-- A plait of a recovery coil that is quiet and whose guard holds in some fibre; `c` is the coil as it issues (13_surrogate.md R359). -/
structure Sys2Proof.Machine.Recovers (s : State) (c0 c : Coil) (pl : Place) (f0 : Fibre) (guard : Fibre → Bool) : Prop where
  turn : s.turn = .plait c0.id pl
  coil : s.coil? c0.id = some c0
  own : c0.recOf.isSome = true
  lent : c = s.lend c0
  first : (c.plait pl).head? = some f0
  free : ∀ w ∈ c.waits, ∀ i ∈ c.actives pl, i ∉ w.fibres
  calm : ∀ f ∈ c.fibres, f.idx ∈ c.actives pl → f.cf = 0 ∧ f.pend = [] ∧ f.poison = [] ∧ f.holds = 0
  some_ : c.masked pl guard ≠ []

/-- SGMERGE gives each of its fibres' results to the coil that called and ends the fibres (13_surrogate.md R379). -/
def Sys2Proof.Says.MergesDeliver : Prop :=
  ∀ (m : Main) (s : State) (c0 c : Coil) (pl : Place) (f0 : Fibre), Recovers s c0 c pl f0 m.guard → c.insts = [] →
    (∀ f ∈ c.fibres, ∀ p k, f.status ≠ .held p k) →
    (∀ f ∈ c.acting pl m.guard, ∃ e, f.recov = some e ∧ m.a.toNat + e.nout ≤ c.window) →
      let u := (c.acting pl m.guard).foldl (fun u f => match f.recov with
        | some e => u.merge e (f.getVs m.a.toNat e.nout) f.fstat
        | none => u) s.draw.2
      ∃ t, exec (.sgmerge m) s = .next t ∧
        (∀ d, t.coil? c0.id = some d → ∀ f ∈ d.fibres, f.idx ∉ c.masked pl m.guard) ∧
        (∀ k d, k ≠ c0.id → u.coil? k = some d → ∃ d', t.coil? k = some d' ∧ { d' with st := d.st } = d)

/-- An image that has loaded is LOADED and its waits end; the head of a core's call queue is evaluated once its slot has loaded and it has leave, lane
by lane: results, counters and recovery entries (13_surrogate.md R370, R375, R377). That a call is one step is the model's choice (log 83). -/
def Sys2Proof.Says.CallsAreEvaluated : Prop :=
  (∀ (s : State) (c : Coil) (k : Nat), s.coil? c.id = some c → (c.sgSlot k).st = .loading →
    exec (.sgImageLoaded c.id k) s = .next (s.setCoil ((c.sgFree k).putSg k { c.sgSlot k with st := .loaded }))) ∧
  (∀ (s : State) (k : SgCall) (c : Coil), s.sgcalls.find? (fun e => e.core = k.core) = some k → s.coil? k.coil = some c →
    ((c.sgSlot k.sg).st = .loading → exec (.surrogateCallEvaluate k.core) s = .next s) ∧
    ((c.sgSlot k.sg).st ≠ .loading → ∀ b v, (if k.cls = 0 then (true, s) else s.leave k.core .surrogate k.cls k.coil) = (b, v) →
      (b = false → exec (.surrogateCallEvaluate k.core) s = .next v) ∧
      (b = true → ∀ d, v.coil? k.coil = some d →
        let p := k.lanes.foldl k.lane ([], d)
        exec (.surrogateCallEvaluate k.core) s = .next
          ({ v with sgcalls := s.sgcalls.eraseP (fun e => e.core = k.core), recovery := v.recovery ++ p.1 }.setCoil p.2))))

/-- What the engine decides for a lane (13_surrogate.md R375, R377): a lane out of domain, forced, or with a predicted error above the bound recovers; any
other takes the image's result; with no recovery PC a lane that would recover takes NaNs. -/
def Sys2Proof.Says.LanesAreDecided : Prop :=
  ∀ (k : SgCall) (args : List Word),
    let r := Image.eval k.slot.image args
    let forced := qMode k.q = 1 ∨ k.slot.dis = true ∨ k.dev = true
    let above := qMode k.q ≠ 2 ∧ (fval (qBound k.q)).lt (Image.pred k.slot.image args) = true
    let recovers := r = none ∨ forced ∨ above
    let d := k.decide args
    (recovers → k.slot.recPc = 0 → d.res = List.replicate (Image.nout k.slot.image) 0x7FC00000 ∧ d.answer = true ∧ d.flags = none) ∧
    (recovers → k.slot.recPc ≠ 0 → d.answer = false ∧ ∃ b, d.flags = some b ∧ b.getLsbD 0 = false) ∧
    (¬ recovers → r = some d.res ∧ d.answer = true ∧
      (d.flags = none ↔ ¬ (0 < qSk k.q ∧ qMode k.q = 0 ∧ sgSample (Image.seed k.slot.image) args (qSk k.q) = true)))

/-- Calls are evaluated lane by lane, and recovery fibres give their results (13_surrogate.md R370, R375, R377, R379). -/
def Obligations.SurrogateCallsAreAnswered : Prop := Says.CallsAreEvaluated ∧ Says.LanesAreDecided ∧ Says.MergesDeliver

/-! ## Survivable memory -/

/-- PGRP and PSTAT read a group; PWAIT answers what is over and waits for the rest; scrubs and rebuilds are accepted where the group's state, its
stripes and its administrator allow (14_survivable.md R396, R397, R398). -/
def Sys2Proof.Says.SurvivableInstructionsExecute : Prop :=
  ∀ (m : Main) (s : State) (c : Coil) (pl : Place) (f0 : Fibre), Ready s c pl f0 m.guard → (c.getS m.a.toNat).toNat < 256 →
    let g := (c.getS m.a.toNat).toNat
    let x := s.grp g
    let first := (c.getS m.b.toNat).toNat
    let count := (c.getS (m.b.toNat + 1)).toNat
    let hold (f : Fibre) : Fibre := if f.idx ∈ c.actives pl then { f with holds := f.holds + 1 } else f
    let k (kind extra : Nat) : Scrub :=
      { id := s.nextId, coil := c.id, fibres := c.actives pl, flag := m.flag, deliver := true, kind := kind, group := g, sd := m.d.toNat, stripe := first,
        left := count, off := 0, count := 0, extra := extra, task := c.task }
    let admin := c.asid.toNat = leNat (s.peek (s.groupAt g + 4) 2)
    Goes (.pgrp m) s s c (c.setSD m.d.toNat (s.pgrpItem g m.b.toNat)) (fun f => f) ∧
    Goes (.pstat m) s s c (c.setSD m.d.toNat (s.pstatItem g m.b.toNat)) (fun f => f) ∧
    (∀ b, s.pwaitDone g x.sent = some b → Goes (.pwait m) s s c c (c.within pl m.guard (fun f => f.setP m.d.toNat b))) ∧
    (s.pwaitDone g x.sent = none →
      let kind : WaitKind := .pwait m.d.toNat g x.sent (if c.getS m.b.toNat = 0 then none else some ((c.getS m.b.toNat).toNat * 1024))
      Goes (.pwait m) s s c
        { c with waits := c.waits ++ [{ id := s.nextId, fibres := c.masked pl m.guard, flag := m.flag, kind := kind }] } (fun f => f)) ∧
    (1 ≤ count → count ≤ 2 ^ 24 → first + count ≤ s.groupNs g →
      (x.st = 1 → Goes (.pscrub m) s { s with scrubs := s.scrubs ++ [k 0 0xFFFFFFFF] } c c hold) ∧
      (x.st = 1 → admin → Goes (.pscrubFix m) s { s with scrubs := s.scrubs ++ [k 1 0xFFFFFFFF] } c c hold) ∧
      (x.st = 3 ∨ x.st = 4 → s.groupRank g ∈ x.lost → admin → Goes (.prebuild m) s { s with scrubs := s.scrubs ++ [k 2 0] } c c hold))

/-- A PWAIT is over with 1 when every holder has acknowledged what had been sent and the group is ACTIVE, with 0 when all is acknowledged in another state
or when the group is INACTIVE or BROKEN, and with 0 at its limit (14_survivable.md R397). -/
def Sys2Proof.Says.WaitsForAcknowledgement : Prop :=
  (∀ (s : State) (g : Nat) (snap : List Nat), snap.length = (s.grp g).acked.length →
    let all := ∀ i, i < snap.length → snap.getD i 0 ≤ (s.grp g).acked.getD i 0
    (s.pwaitDone g snap = some true ↔ all ∧ (s.grp g).st = 1) ∧
    (s.pwaitDone g snap = none ↔ ¬ all ∧ (s.grp g).st ≠ 0 ∧ (s.grp g).st ≠ 4)) ∧
  (∀ (s : State) (c : Coil) (w : Wait) (pd g : Nat) (snap : List Nat) (n : Nat), s.coil? c.id = some c → c.wait? w.id = some w →
    w.kind = .pwait pd g snap (some n) →
    exec (.pwaitTimeout c.id w.id) s = .next (s.setCoil ((c.dropWait w.id).onFibres w.fibres (fun f => f.deliverP w.flag pd false))))

/-- Deltas: a holder applies the next one of its sender and acknowledges it, and keeps out of any other; an acknowledgement drops the deltas that it
covers (14_survivable.md R391, R392). A member answers a request for its sector once no delta of it for that place is outstanding (R394). When they
arrive, and that a replacement takes the first number of each sender that comes, is the model's choice (logs 2 and 90). -/
def Sys2Proof.Says.DeltasArriveInOrder : Prop :=
  ∀ (s : State) (g n seq stripe off : Nat) (delta : BitVec 256),
    let x := s.grp g
    (1 ≤ x.st → x.st ≤ 3 → g < 256 → n < 16 → stripe % s.groupG g = s.groupRank g → (∀ j, x.applied.getD n none = some j → seq = j + 1) →
      s.groupRank g ∉ x.lost →
      let v := s.applyDelta g stripe (off % 4096 / 32 * 32) delta
      let u := v.setGrp g { v.grp g with applied := x.applied.set n (some seq), nApplied := min (x.nApplied + 1) (2 ^ 64 - 1) }
      exec (.parityDeltaApply g n seq stripe off delta) s = .next { u with out := u.out ++ [.ack g n seq] }) ∧
    ((∃ j, x.applied.getD n none = some j ∧ seq ≠ j + 1) → exec (.parityDeltaApply g n seq stripe off delta) s = .next s) ∧
    (g < s.groups.length → seq ≤ x.sent.getD n 0 → ∃ t, exec (.deltaAck g n seq) s = .next t ∧
      t.deltas = s.deltas.filter (fun d => !(d.group = g && d.holder = n && d.seq ≤ seq)) ∧
      t.grp g = { x with acked := x.acked.set n (max seq (x.acked.getD n 0)) }) ∧
    (x.st ≠ 0 → (∀ d ∈ s.deltas, d.group = g → d.stripe = stripe → d.off ≠ off) → s.sectorPoisoned (s.ownSector g stripe off / 32) = false →
      let v := s.asOwner (s.ownSector g stripe off)
      let t := { v with out := v.out ++ [.sector g stripe off (leSector (v.peek (s.ownSector g stripe off) 32))] }
      exec (.survSectorRequest g stripe off) s =
        .next (if (t.grp g).st = 3 ∧ off = 4096 - 32 ∧ stripe < t.groupNs g then t.setRebuilt g stripe else t))

/-- The states of a group (14_survivable.md R390): ACTIVATE and DEACTIVATE, REPLACE for a lost rank, the loss of a member. Where the rules name no
answer it is the model's (logs 91 and 92). -/
def Sys2Proof.Says.GroupsChangeState : Prop :=
  ∀ (s : State) (w : BitVec 64),
    let g := survGroup w
    let x := s.grp g
    let u := { s with regs := { s.regs with survctl := w &&& 0xFFFFF0000000FF1E } }
    (s.rsc.booted = false → exec (.survActivate w) s = .next s ∧ exec (.survReplace w) s = .next s ∧ exec (.survDeactivate w) s = .next s) ∧
    (s.rsc.booted = true → w.getLsbD 0 = true →
      (survOp w = 1 → x.st = 0 → s.groupBad g = false → w.getLsbD 4 = false →
        exec (.survActivate w) s = .next (u.setGroup g { Group.reset with st := 1 }).survChanged) ∧
      (survOp w = 1 → x.st ≠ 0 → exec (.survActivate w) s = .next (u.record (groupRec 0x702 0))) ∧
      (survOp w = 2 → x.st = 2 → survRank w ∈ x.lost →
        exec (.survReplace w) s = .next ((u.setGroup g { x with st := 3, repl := survDev w, nRebuilt := 0, applied := x.applied.set (survRank w) (some 0) }).clearMap g).survChanged) ∧
      (survOp w = 2 → 1 ≤ x.st → survRank w ∉ x.lost → exec (.survReplace w) s = .next (u.record (groupRec 0x702 0))) ∧
      (survOp w = 3 → ∃ t, exec (.survDeactivate w) s = .next t ∧ (t.grp g).st = 0 ∧ (∀ d ∈ t.deltas, d.group ≠ g) ∧ ∀ d ∈ s.deltas, d.group ≠ g → d ∈ t.deltas)) ∧
    (∀ dev, exec (.linkTimeout dev) s = .next ((s.ackTimeouts dev).loseDevice dev) ∧ exec (.memberResetReport dev) s = .next (s.loseDevice dev)) ∧
    (∀ rank, g < s.groups.length →
      (x.st = 1 → ((s.loseMember g rank).grp g).st = 2 ∧ ((s.loseMember g rank).grp g).lost = [rank]) ∧
      (x.st = 2 ∨ x.st = 3 → rank ∉ x.lost → ((s.loseMember g rank).grp g).st = 4))

/-- Scrubs and rebuilds work sector by sector on the exclusive or of what the members return; a mismatch is counted and recorded, PSCRUB.FIX makes the
parity the exclusive or of the data, PREBUILD makes the unit that of the others (14_survivable.md R394, R399). That a sector is one step is the
model's choice (logs 2 and 88). -/
def Sys2Proof.Says.ScrubsWorkBySector : Prop :=
  ∀ (s : State) (k : Scrub) (peers : List (BitVec 256)), s.scrubs.find? (fun e => e.id = k.id) = some k →
    let others := peers.foldl (· ^^^ ·) 0
    let v := (s.healRange (s.ownSector k.group k.stripe k.off) 32).report.asOwner (s.ownSector k.group k.stripe k.off)
    let at_ := v.ownSector k.group k.stripe k.off
    let own := leSector (v.peek at_ 32)
    let lost := k.stripe ∈ (v.grp k.group).lostStripes
    ((∃ d ∈ s.deltas, d.group = k.group ∧ d.stripe = k.stripe ∧ d.off = k.off) ∨ peers.length + 1 ≠ s.groupG k.group →
      exec (.scrubStep k.id peers) s = .next s) ∧
    ((∀ d ∈ s.deltas, d.group = k.group → d.stripe = k.stripe → d.off ≠ k.off) → peers.length + 1 = s.groupG k.group →
      (k.kind = 0 → own = others → exec (.scrubStep k.id peers) s = .next (v.putScrub k.advance)) ∧
      (k.kind = 0 → own ≠ others → exec (.scrubStep k.id peers) s = .next ((v.mismatch k).putScrub
        { k with count := k.count + 1, extra := if k.extra = 0xFFFFFFFF then k.stripe else k.extra }.advance)) ∧
      (k.kind = 1 → k.stripe % v.groupG k.group = v.groupRank k.group → s.errqEn = false → 1 < k.left →
        ∃ t, exec (.scrubStep k.id peers) s = .next t ∧ (Memory.wf s = true → leSector (t.peek at_ 32) = others)) ∧
      (k.kind = 2 → k.off + 32 < 4096 →
        exec (.scrubStep k.id peers) s = .next ((v.putSector at_ (if lost then 0 else others)).putScrub { k with off := k.off + 32 })) ∧
      (k.kind = 2 → ¬ lost → 4096 ≤ k.off + 32 →
        exec (.scrubStep k.id peers) s = .next (((v.putSector at_ others).setRebuilt k.group k.stripe).putScrub
          { k with count := k.count + 1, off := 0, stripe := k.stripe + 1, left := k.left - 1 }))) ∧
    (∀ g sector, (s.grp g).st = 1 → s.sectorPoisoned sector = true → s.inGroup g (32 * sector) = true → peers.length + 1 = s.groupG g →
      exec (.survReconstructed g sector peers) s =
        .next ((s.putSector (32 * sector) others).record (groupRec 0x705 (homeDie (32 * sector))))) ∧
    (∀ pa d, Memory.wf s = true → s.parityGroup pa = none → ∀ a, cellGet (s.putSector pa d).mem a = if pa ≤ a ∧ a < pa + 32 then d.extractLsb' (8 * (a - pa)) 8 else cellGet s.mem a)

/-- Survivable memory: its instructions execute, its groups change state, its deltas arrive in order, and its scrubs keep parity. -/
def Obligations.SurvivableMemoryIsKept : Prop :=
  Says.SurvivableInstructionsExecute ∧ Says.WaitsForAcknowledgement ∧ Says.DeltasArriveInOrder ∧ Says.GroupsChangeState ∧ Says.ScrubsWorkBySector

/-! ## Traps, special registers, debug and reports -/

/-- What the handler finds in a fibre that enters it (15_system.md R412, R427): EPC, ECODE, EADDR, EINFO and MODE.HANDLER. -/
def Sys2Proof.Machine.Fibre.entered (f : Fibre) (pc : BitVec 64) (ecode : Nat) (eaddr einfo : DWord) : Fibre :=
  { f with epc := pc, ecode := BitVec.ofNat 32 ecode, eaddr := eaddr, einfo := einfo, handler := true,
           outer := f.loops.length }

/-- TRAP commits and enters the handler at HVEC in each fibre of the mask; HRET goes back to EPC, or past the instruction there, where the handler
runs in every fibre of the mask (15_system.md R412, R421, R424). BRK stops a coil that is debugged, raises BREAKPOINT in another, and issues once
after its stop (R428, R430). That LANE is set in every fibre is the model's reading (log 40). -/
def Obligations.TrapsAndReturns : Prop :=
  ∀ (m : Main) (s : State) (c : Coil) (pl : Place) (f0 : Fibre), Ready s c pl f0 m.guard →
    let next : Fibre → List Loop × BitVec 64 := c.leaving pl f0.pc m.words (fun _ => .fall)
    let thread := (∀ f ∈ c.acting pl m.guard, f.handler = false) ∧ ∀ f ∈ c.fibres, f.recov = none
    let code (n : Nat) : Nat := 2 ^ 28 + m.words * 2 ^ 24 + n
    (∀ v k, m.Commits s.draw.2 c pl f0 v k → thread → c.trap.hvec ≠ 0 →
      GoesTo (.trapOp m) s v k k (k.within pl m.guard (fun f => f.entered f0.pc (code 0xB) 0 (BitVec.ofNat 64 m.imm)))
        (fun f => if f.idx ∈ c.masked pl m.guard then (f.loops, c.trap.hvec) else next f)) ∧
    ((∀ f ∈ c.acting pl m.guard, f.handler = true) →
      GoesTo (.hretRetry m) s s c c (c.within pl m.guard (fun f => { f with handler := false }))
        (fun f => if f.idx ∈ c.masked pl m.guard then (f.loops, f.epc) else next f) ∧
      GoesTo (.hretSkip m) s s c c (c.within pl m.guard (fun f => { f with handler := false }))
        (fun f => if f.idx ∈ c.masked pl m.guard then settle f.loops f.epc (4 * (f.ecode.toNat / 2 ^ 24 % 16)) .fall else next f)) ∧
    (c.trap.dbg = true → pl ∈ c.ignoreWatch → Goes (.brk m) s s c c (fun f => f)) ∧
    (c.trap.dbg = true → pl ∉ c.ignoreWatch → ∃ t, exec (.brk m) s = .next t ∧
      t.coil? c.id = some { c with st := .stopped, stops := c.stops + 1, stepping := [], ignoreWatch := pl :: c.ignoreWatch }) ∧
    (c.trap.dbg = false → thread → c.trap.hvec ≠ 0 → c.trap.hmask.getLsbD 0 = true →
      GoesTo (.brk m) s s c c (c.within pl m.guard (fun f => f.entered f0.pc (code 0xC) 0 ((BitVec.ofNat 32 m.imm).setWidth 64)))
        (fun f => if f.idx ∈ c.masked pl m.guard then (f.loops, c.trap.hvec) else next f))

/-- Taking an exception that goes to the handler (15_system.md R412, R413): the fibres that it is delivered to save the PC, the code and the details
and stand at HVEC with their loop levels, the plait's others go on; with the handler running already, or none to run, the coil is killed. LANE of a
fault of no single lane is the model's reading (log 40). -/
def Obligations.ExceptionsEnterTheHandler : Prop :=
  ∀ (s : State) (c c0 : Coil) (pl : Place) (act who : List Nat) (pc : BitVec 64) (words : Nat) (t : Trap),
    s.coil? c.id = some c0 → c.recOf = none → (∀ f ∈ c.fibres, f.recov = none) → t.delivery = .handler →
    let u := s.takeTrap c pl act who pc words t
    let inside := ∃ f ∈ c.fibres, f.idx ∈ who ∧ f.handler = true
    let taken := c.trap.hvec ≠ 0 ∧ (t.code = 0xB ∨ c.trap.hmask.getLsbD (t.code / 256) = true)
    (¬ inside → taken → s.Like u c.id ∧ ∃ c', u.coil? c.id = some c' ∧ c'.Like c ∧ c'.live = c.live ∧
      ∀ k f, c.fibre? k = some f → ∃ f', c'.fibre? k = some f' ∧
        (k ∈ who → f'.Like (f.entered pc (ecodeOf t (t.lanes.isEmpty || t.lanes.contains k) words).toNat (t.addr.getD 0) t.detail) ∧
          f'.pc = c.trap.hvec ∧ f'.loops = f.loops) ∧
        (k ∉ who → f'.Like f ∧
          (f'.loops, f'.pc) = if k ∈ act then f.onward pc (4 * words) .fall else (f.loops, f.pc))) ∧
    (inside ∨ ¬ taken → (u.coil? c.id).map Coil.st = some .killed)

/-- Special registers, watchpoints and reports (15_system.md R426, R429, R431 to R434): RDSR reads in each fibre of the mask or once from the lowest,
WRSR writes FSTAT, FCTL and, in the handler, EPC; WATCH sets a range; RDCNT, DBGMARK, ERRQ and CHKSET read and write what they name. -/
def Sys2Proof.Says.SystemInstructionsExecute : Prop :=
  ∀ (m : Main) (s : State) (c : Coil) (pl : Place) (f0 : Fibre), Ready s c pl f0 m.guard →
    let n := m.b.toNat
    let wide := decide (m.mod % 2 = 1)
    let set (w : Watch) : Coil := { c with watch := c.watch.set (m.d.toNat % 4) w }
    let a := c.getS m.a.toNat
    let r := s.coreRegs c.core
    let marked := s.setCoreRegs c.core { r with marklast := BitVec.ofNat 32 (n * 2 ^ 24 + a.toNat % 2 ^ 24), markcnt := if r.markcnt = BitVec.allOnes 32 then r.markcnt else r.markcnt + 1 }
    let t := s.draw.2.tick
    let reads (v : State) (x : Nat) : Prop := Goes (.rdcnt m) s v c (c.setSD m.d.toNat (BitVec.ofNat 64 x)) (fun f => f)
    (m.mod < 2 → Goes (.rdsr m) s s c c (c.within pl m.guard (fun f => f.put wide m.d.toNat (s.sysReg c f n)))) ∧
    (2 ≤ m.mod → ∀ f, c.lowest pl m.guard = some f → Goes (.rdsr m) s s c (c.put wide m.d.toNat (s.sysReg c f n)) (fun f => f)) ∧
    (n < 2 ∨ n = 0xC ∧ (∀ f ∈ c.acting pl m.guard, f.handler = true) →
      Goes (.wrsr m) s s c c (c.within pl m.guard (fun f =>
        let v : DWord :=
          if m.mod < 2 then (if wide then f.getVD m.a.toNat else (f.getV m.a.toNat).setWidth 64)
          else if wide then c.getSD m.a.toNat else a.setWidth 64
        if n = 0 then { f with fstat := v.setWidth 32 &&& 0x7FF } else if n = 1 then { f with fctl := v.setWidth 32 &&& 7 } else { f with epc := v }))) ∧
    (m.d.toNat / 4 % 4 = 0 → Goes (.watch m) s s c (set Watch.off) (fun f => f)) ∧
    (m.d.toNat / 4 % 4 ≠ 0 → ∀ h p v, c.slot m.mod = some h → c.getS n ≠ 0 →
      s.draw.2.resolveAt c (some h) { size := (c.getS n).toNat, align := 1, write := false, spaces := [0, 3] } (a.setWidth 64) = (.ok p, v) →
        Goes (.watch m) s v c (set { kind := m.d.toNat / 4 % 4, scratch := decide (h.space = 3), lo := (h.base + a.setWidth 64).toNat,
                                     hi := (h.base + a.setWidth 64).toNat + (c.getS n).toNat }) (fun f => f)) ∧
    Goes (.dbgmark m) s
      (if marked.regs.profctl.getLsbD 6 then
        marked.record { marked.coilRec c 0x902 0 0xFF with detail := a.setWidth 64, aux := BitVec.ofNat 32 n }
       else marked) c c (fun f => f) ∧
    (n = 0 → reads t t.refclk) ∧ (n = 1 → reads t (t.coreclk.getD c.core 0)) ∧
    (n = 2 → reads s c.instrs) ∧ (n = 3 → reads s c.pwr) ∧ (n = 5 → reads s c.preempts) ∧ (n = 6 → reads s c.relaunches) ∧
    (n = 7 → reads s c.stops) ∧
    (n = 4 → let q := c.resTime + Config.coreTicks s.free c.core
      Goes (.rdcnt m) s s c ({ c with resTime := q }.setSD m.d.toNat (BitVec.ofNat 64 q)) (fun f => f)) ∧
    Goes (.errq m) s (s.record { s.coilRec c 0x901 0 0xFF with
        soft := true, detail := c.getSD m.a.toNat, aux := BitVec.ofNat 32 n, fibre := (c.masked pl m.guard).head? }) c c (fun f => f) ∧
    Goes (.chkset m) s s c { c with chk := a &&& 0x9F } (fun f => f)

/-- SYSC posts an entry for each lane after its commit, waits with those that the ring has no room for, and stalls before it while the ring is full
(15_system.md R422). An entry whose ring does not translate is the model's choice (logs 95 and 96). -/
def Sys2Proof.Says.SystemCallsPost : Prop :=
  ∀ (m : Main) (s : State) (c : Coil) (pl : Place) (f0 : Fibre), Ready s c pl f0 m.guard → c.trap.syslog ≠ 0 →
    ∀ l v, Reaches s c pl (c.slot m.mod) { size := 64, align := 64, write := true, spaces := [0] } (m.offsets m.memOff c pl) l v →
      let full := 2 ^ c.trap.syslog ≤ (v.vnat c.asid c.trap.sysring 8 + 2 ^ 64 - v.vnat c.asid (c.trap.sysring + 8) 8) % 2 ^ 64
      (full → exec (.sysc m) s = .next s.stall) ∧
      (¬ full → ∀ w k z, m.Commits v (c.stepped pl m.guard m.mod) pl f0 w k → w.spotFaults l = ([], z) →
        ∀ u rest, (Iss.touches { m.issued s c pl f0 with s := z } l).s.postEntries k m.d.toNat (l.map (fun i => (i.fibre, i.spot.va))) = (u, rest) →
          (rest = [] → Goes (.sysc m) s u k k (fun f => f)) ∧
          (rest ≠ [] →
            let p : Coil := Iss.c (Iss.passRegion { m.issued s c pl f0 with s := u, c := k })
            Goes (.sysc m) s u p
              { p with waits := p.waits ++ [{ id := u.nextId, fibres := c.actives pl, flag := m.flag, kind := .sysc m.d.toNat rest }] }
              (fun f => f)))

/-- Coil commands (15_system.md R415, R430): each acts on the coil that it names, with RESULT 0; one whose coil is in the wrong state is refused with
RESULT 2, one that names no living coil answers 1, and a write while GO is 1 is ignored. Before a boot has ended well no application core writes it
(17_module.md R463). The record of a stop by command, and what STEP does where no plait can issue, are the model's choice (log 35). GO of a PREEMPT stays 1 while something still lands in the core. -/
def Sys2Proof.Says.CoilCommandsAct : Prop :=
  ∀ (s : State) (w : DWord), w.getLsbD 0 = true →
    let op := w.toNat / 2 % 8
    let put (u : State) (result : Nat) (go : Bool) : State := { u with regs := { u.regs with coilcmd := cmdWord w result go } }
    let run (i : DWord → Instr) (n : Nat) (u : State) (result : Nat) (go : Bool) : Prop := op = n → exec (i w) s = .next (put u result go)
    let ignored : Prop := exec (.preemptCoil w) s = .next s ∧ exec (.killCoil w) s = .next s ∧ exec (.restartCoil w) s = .next s ∧
      exec (.stopCoil w) s = .next s ∧ exec (.resumeCoil w) s = .next s ∧ exec (.stepCoil w) s = .next s
    (s.rsc.booted = false ∨ s.regs.coilcmd.getLsbD 0 = true → ignored) ∧
    (s.rsc.booted = true → s.regs.coilcmd.getLsbD 0 = false →
      (s.cmdCoil w = none → run .preemptCoil 1 s 1 false ∧ run .killCoil 2 s 1 false ∧ run .restartCoil 3 s 1 false ∧ run .stopCoil 4 s 1 false ∧
        run .resumeCoil 5 s 1 false ∧ run .stepCoil 6 s 1 false) ∧
      (∀ c, s.cmdCoil w = some c →
        (c.st = .running ∨ c.st = .stopped →
          let v := s.save { c with preempts := c.preempts + 1, restop := decide (c.st = .stopped) } none true false
          run .preemptCoil 1 v 0 ((v.coil? c.id).any Coil.leaves)) ∧
        (c.st ≠ .running → c.st ≠ .stopped → run .preemptCoil 1 s 2 false) ∧
        run .killCoil 2 ((s.record (s.coilRec c 0x20D 0 0xFF)).killCoil c.id 0x20D) 0 false ∧
        (c.st = .saved false → run .restartCoil 3 ((s.setCoil { c with st := .saved true }).checkCores c.asid c.rcb) 0 false) ∧
        (c.st ≠ .saved false → run .restartCoil 3 s 2 false) ∧
        (c.st = .running → run .stopCoil 4 (s.stopNow c) 0 false) ∧
        (c.st ≠ .running → run .stopCoil 4 s 2 false) ∧
        (c.st = .stopped → run .resumeCoil 5 (s.setCoil { c with st := .running, stepping := [] }) 0 false) ∧
        (c.st = .stopped → c.steps ≠ [] → run .stepCoil 6 (s.setCoil { c with st := .running, stepping := c.steps }) 0 false) ∧
        (c.st = .stopped → c.steps = [] → run .stepCoil 6 (s.stopNow c) 0 false) ∧
        (c.st ≠ .stopped → run .resumeCoil 5 s 2 false ∧ run .stepCoil 6 s 2 false)))

/-- The barrier checker (15_system.md R434, R435): it leaves a coil with threshold 0 and one that is not deadlocked alone; a deadlocked coil is
reported once, and killed where its KILL is set. What counts as a deadlock is the model's reading (log 99). -/
def Sys2Proof.Says.DeadlocksAreReported : Prop :=
  ∀ (s : State) (c : Coil), s.coil? c.id = some c →
    (c.chk.toNat % 32 = 0 → s.checkCoil c.id = s) ∧
    (c.deadlock = true ∨ s.deadlocked c = false → s.checkDeadlock c = s) ∧
    (c.deadlock = false → s.deadlocked c = true → c.st ≠ .ended →
      (c.chk.getLsbD 7 = true → ((s.checkDeadlock c).coil? c.id).map Coil.st = some .killed) ∧
      (c.chk.getLsbD 7 = false → (s.checkDeadlock c).coil? c.id = some { c with deadlock := true })) ∧
    (∀ core, exec (.barrierCheckerPeriod core) s =
      .next (((s.coils.filter (fun d => d.resident && d.core = core && d.st = .running)).map Coil.id).foldl State.checkCoil s))

/-- System instructions execute, system calls are posted, coil commands act, deadlocks are reported. -/
def Obligations.SystemAndDebugExecute : Prop :=
  Says.SystemInstructionsExecute ∧ Says.SystemCallsPost ∧ Says.CoilCommandsAct ∧ Says.DeadlocksAreReported

/-! ## The MCC -/

/-- The MCC context of a coil has the turn (11_matrix.md R325). -/
structure Sys2Proof.Machine.MccTurn (s : State) (c : Coil) (x : MccCtx) : Prop where
  turn : s.turn = .mcc c.id
  coil : s.coil? c.id = some c
  ctx : c.mcc = some x

/-- A context past an instruction. -/
def Sys2Proof.Machine.MccCtx.past (x : MccCtx) (m : Mcc) : MccCtx := { x with pc := x.pc + (if m.lit = none then 8 else 12), ignore := false }

/-- The MCC's scalar instructions compute modulo 2^64, compare and branch (11_matrix.md R329); they change their register and the PC and nothing else. -/
def Sys2Proof.Says.MccComputes : Prop :=
  ∀ (m : Mcc) (s : State) (c : Coil) (x : MccCtx), MccTurn s c x →
    let y := x.past m
    let a := x.a.getD m.a.toNat 0
    let imm := m.mod % 2 = 1
    let b : DWord := match m.lit with | some l => l.signExtend 64 | none => if imm then m.b.signExtend 64 else x.a.getD m.b.toNat 0
    let n := (if imm then m.b.toNat else (x.a.getD m.b.toNat 0).toNat) % 64
    let dest := x.pc + BitVec.ofInt 64 (4 * m.simm)
    let goes (i : Mcc → Instr) (z : MccCtx) : Prop := exec (i m) s = .next (s.putMcc c.id z)
    let gives (i : Mcc → Instr) (v : DWord) : Prop := goes i { y with a := x.a.set m.d.toNat v }
    let holds : Prop :=
      if m.c = 0 then a = b else if m.c = 1 then a ≠ b else if m.c = 2 then a.toInt < b.toInt else if m.c = 3 then a.toInt ≤ b.toInt
      else if m.c = 4 then a.toNat < b.toNat else a.toNat ≤ b.toNat
    (gives .amov a ∧ gives .ali (BitVec.ofInt 64 m.simm) ∧ gives .aadd (BitVec.ofInt 64 (a.toInt + b.toInt)) ∧
      gives .asub (BitVec.ofInt 64 (a.toInt - b.toInt)) ∧ gives .amul (BitVec.ofInt 64 (a.toInt * b.toInt)) ∧ gives .aand (a &&& b) ∧
      gives .aor (a ||| b) ∧ gives .ashl (BitVec.ofNat 64 (a.toNat * 2 ^ n)) ∧
      gives .ashr (if m.mod / 2 = 1 then BitVec.ofInt 64 (a.toInt / 2 ^ n) else BitVec.ofNat 64 (a.toNat / 2 ^ n))) ∧
    (holds → gives .acmp 1) ∧ (¬ holds → gives .acmp 0) ∧
    goes .abr { y with pc := dest } ∧
    goes .abc { y with pc := if (a = 0 ↔ m.d = 1) then dest else y.pc } ∧
    goes .aloop { y with a := x.a.set m.a.toNat (a - 1), pc := if a = 1 then y.pc else dest } ∧
    goes .acall { y with a := x.a.set m.d.toNat y.pc, pc := dest } ∧
    (a.toNat % 4 = 0 → goes .aret { y with pc := a }) ∧
    (x.events ≠ [] → goes .evwait y) ∧ (x.events = [] → exec (.evwait m) s = .next s.stall) ∧
    goes .evpop { y with a := (x.a.set m.d.toNat (x.events.headD (0, 0)).1).set (m.d.toNat + 1) (x.events.headD (0, 0)).2, events := x.events.tail } ∧
    goes .arel y

/-- ALD reads and AST writes 8 bytes through a slot of the owning coil (11_matrix.md R330). MXSCL, MXTOL and MXSTAT set and read what drains use (R323,
R334); ABWAIT answers a phase, ABARV arrives, AHALT ends the context (R336). -/
def Sys2Proof.Says.MccReadsAndWrites : Prop :=
  ∀ (m : Mcc) (s : State) (c : Coil) (x : MccCtx), MccTurn s c x →
    let y := x.past m
    let a := x.a.getD m.a.toNat 0
    let b := x.a.getD m.b.toNat 0
    let off := a + (match m.lit with | some l => l.signExtend 64 | none => m.b.signExtend 64)
    let need (w : Bool) : Need := { size := 8, align := 8, write := w, spaces := [0, 3] }
    let calm (w : Bool) (sp : Spot) : Prop := x.ignore = true ∨ ∀ n, n < 4 → (c.watch.getD n Watch.off).hits (!w) w sp = false
    let core (e : Nat) : Nat := if e = 4 then c.core else c.core / 4 * 4 + e
    let minus (w : Word) : Prop := w.getLsbD 31 = true ∧ w ≠ 0x80000000
    (∀ sp v l w, s.resolveAt c (c.slot m.mod) (need false) off = (.ok sp, v) → calm false sp → v.readSpot c none false sp = (.ok l, w) →
      l.all (fun e => e.2 = false) = true →
        exec (.ald m) s = .next (w.putMcc c.id { y with a := x.a.set m.d.toNat (leDWord (l.map Prod.fst)) })) ∧
    (∀ sp v r w, s.resolveAt c (c.slot m.mod) (need true) off = (.ok sp, v) → calm true sp →
      v.engPut c sp (plainBytes (leBytes 8 (x.a.getD m.d.toNat 0).toNat)) = (.ok r, w) → exec (.ast m) s = .next (w.putMcc c.id y)) ∧
    (m.d.toNat = 4 ∨ s.present (core m.d.toNat) = true → b.toNat / 2 ^ 22 = 0 → b.toNat % 8 < 6 → finiteW a.lo = true →
      exec (.mxscl m) s = .next (s.putMcc c.id { y with epi := x.epi.set (core m.d.toNat % 4) { scale := a.lo, ctrl := b.lo } })) ∧
    (m.d.toNat ≠ 4 → s.present (core m.d.toNat) = false →
      ∃ t, exec (.mxscl m) s = .next t ∧ (t.coil? c.id).map Coil.eng = some .faulted) ∧
    (finiteW a.lo = true → ¬ minus a.lo → exec (.mxtol m) s = .next (s.putMcc c.id { y with mxtol := a.lo })) ∧
    (finiteW a.lo = false ∨ minus a.lo → ∃ t, exec (.mxtol m) s = .next t ∧ (t.coil? c.id).map Coil.eng = some .faulted) ∧
    (∀ t e, s.mxTarget c m.b.toNat = some t → s.mxq.any (fun k => k.core = core m.b.toNat) = false → t.acc? (a.toNat % 16) = some e →
      exec (.mxstat m) s = .next (s.putMcc c.id { y with a := x.a.set m.d.toNat (e.item m.c (a.toNat / 256 % 128)) })) ∧
    (∀ r, (c.bar m.a.toNat).answer (b.setWidth 8) = some r →
      exec (.abwait m) s = .next (s.putMcc c.id { y with a := x.a.set m.d.toNat (if r then 1 else 0) })) ∧
    ((c.bar m.a.toNat).answer (b.setWidth 8) = none → exec (.abwait m) s = .next s.stall) ∧
    (∀ u k e, s.arrive c m.a.toNat 0 { s.mccRec c y 0 with count := 1 } = (u, k, e) →
      exec (.abarv m) s =
        .next ((u.setCoil k).putMcc c.id { y with a := x.a.set m.d.toNat (BitVec.ofNat 64 (c.bar m.a.toNat).phase) })) ∧
    (s.mxq.any (fun k => k.owner = c.id && k.run = x.run) = false →
      exec (.ahalt m) s = .next (s.setCoil { c with eng := .halted (x.a.getD 0 0), mcc := none }))

/-- TRES and TREL reserve and free a tile register (11_matrix.md R311, R333); a matrix command that breaks no rule enters its engine's queue with what it
names, one that breaks a rule faults the context, and one for which there is no room waits (R331, R332). -/
def Sys2Proof.Says.MccFeedsEngines : Prop :=
  ∀ (m : Mcc) (s : State) (c : Coil) (x : MccCtx), MccTurn s c x → ∀ t, s.mxTarget c m.d.toNat = some t →
    let y := x.past m
    let n := m.a.toNat
    let r := x.a.getD m.b.toNat 0
    let core := if m.d.toNat = 4 then c.core else c.core / 4 * 4 + m.d.toNat
    let ev := m.e.getLsbD 8
    let step : MxStep := { ta := m.b.toNat, tb := m.c, mask := none, axis := m.e.getLsbD 7, kt0 := m.e.toNat % 128 }
    let epi := x.epi.getD (core % 4) { scale := 0x3F800000, ctrl := 0 }
    let room (entry : Bool) : Prop :=
      (s.mxq.filter (fun k => k.core = core)).length < 8 ∧ (entry = true → x.reserved + x.events.length < 64)
    let cmd (drain : Bool) (op : MxOp) : MxCmd :=
      { core := core, owner := c.id, run := x.run, target := t.id, acc := n, op := op, ev := ev, tag := m.e.toNat / 2 ^ 9, seq := x.seq,
        bar := if drain && m.e.getLsbD 4 then some (m.e.toNat % 16) else none, entry := ev || drain, mxtol := x.mxtol,
        task := taskOf c x.seq, started := false, replayed := 0 }
    let queues (i : Mcc → Instr) (drain : Bool) (op : MxOp) : Prop :=
      (s.mxCheck t n op = none → room (ev || drain) → exec (i m) s = .next ({ s with mxq := s.mxq ++ [cmd drain op] }.putMcc c.id
        { y with seq := (x.seq + 1) % 2 ^ 48, reserved := x.reserved + if ev || drain then 1 else 0 })) ∧
      (s.mxCheck t n op = none → ¬ room (ev || drain) → exec (i m) s = .next s.stall) ∧
      (s.mxCheck t n op ≠ none → ∃ u, exec (i m) s = .next u ∧ u.mxq = s.mxq ∧ (u.coil? c.id).map Coil.eng = some .faulted)
    (s.tileTaken t n = false → s.tileHeld t n = false → recInvalid r = false →
      (∀ u, t.tile? n = some u → exec (.tres m) s = .next ((s.setCoil (t.putTile { u with record := r })).putMcc c.id y)) ∧
      (t.tile? n = none → t.tiles.length < 8 → exec (.tres m) s =
        .next ((s.setCoil { t with tiles := t.tiles ++ [{ num := n, record := r, bytes := [], poison := [] }] }).putMcc c.id y))) ∧
    (t.tile? n ≠ none → s.tileHeld t n = false → s.tileNamed t n = false →
      exec (.trel m) s = .next ((s.setCoil { t with tiles := t.tiles.filter (fun u => u.num ≠ n) }).putMcc c.id y)) ∧
    queues .mma false (.mma step none) ∧ queues .mmaM false (.mma step (some m.mod)) ∧ queues .mxzero false (.zero (decide (m.mod = 1))) ∧
    queues .mxdrain true (.drain m.b.toNat epi) ∧ queues .mxdrainAcc true (.drainAcc epi) ∧ queues .mxdrainChk true (.drainChk m.b.toNat)

/-- The MCC computes, reads and writes, and feeds its engines. -/
def Obligations.MccInstructionsExecute : Prop := Says.MccComputes ∧ Says.MccReadsAndWrites ∧ Says.MccFeedsEngines

/-! ## The matrix engine -/

/-- An accumulator's elements as the engine keeps them. -/
def Sys2Proof.Machine.Acc.sorted (a : Acc) : Prop := a.elems.Pairwise (fun x y => x.1 < y.1)

/-- The sum of a row and of a column of an INT32 accumulator, modulo 2^32. -/
def Sys2Proof.Machine.Acc.rowSum (a : Acc) (i : Nat) : Word := (a.row i).foldl (· + ·) 0
def Sys2Proof.Machine.Acc.colSum (a : Acc) (j : Nat) : Word := (a.col j).foldl (· + ·) 0

/-- A step adds to each element of an INT32 accumulator the products of its unmasked blocks in its unmasked columns, and to each element of an F32
accumulator the promoted sum of them (11_matrix.md R314, R315, R317); the checks of an INT32 accumulator stay those of its rows and columns (R318), so
that the correction of one wrong element restores its row (R320). The sign of an exact zero is the model's choice (log 32). -/
def Sys2Proof.Says.StepsAccumulate : Prop :=
  ∀ (a : Acc) (ta tb : Tile) (st : MxStep), a.sorted →
    let b := mmaAcc a ta tb st
    let js := st.cols (recRows tb.record)
    let bs := st.blocks (recCols ta.record) (mxLen ta)
    let ks := bs.flatMap (blockKs (recCols ta.record) 32)
    (js ≠ [] → bs ≠ [] → ∀ i j, i < 128 → j < 128 →
      (¬ (i < recRows ta.record ∧ j ∈ js) → b.get (128 * i + j) = a.get (128 * i + j)) ∧
      (i < recRows ta.record → j ∈ js →
        (a.int = true → b.get (128 * i + j) =
          a.get (128 * i + j) + BitVec.ofInt 32 ((ks.map (fun k => valInt (ta.val i k) * valInt (tb.val j k))).foldl (· + ·) 0)) ∧
        (a.int = false → b.get (128 * i + j) = (promote (a.get (128 * i + j))
          (mxDot (ta.line false i) (tb.line false j) (recCols ta.record) (mxLen ta) bs none) (ta.coarse i) (tb.coarse 0)).1))) ∧
    (a.int = true →
      ((∀ i, i < 128 → a.rowSum i = a.cc.getD i 0) → ∀ i, i < 128 → b.rowSum i = b.cc.getD i 0) ∧
      ((∀ j, j < 128 → a.colSum j = a.cr.getD j 0) → ∀ j, j < 128 → b.colSum j = b.cr.getD j 0)) ∧
    (a.int = true → ∀ i j, i < 128 → j < 128 →
      a.cc.getD i 0 = { a with elems := elemSet a.elems (128 * i + j) (a.fix i j) }.rowSum i)

/-- A matrix command starts with the leave for its class, its mask read then, and ends with its effect: MMA appends its step to the log, MXZERO opens
a zeroed accumulator, a drain that matches passes; one that finds its accumulator in another state ends with MX_ACC (11_matrix.md R317, R321, R322,
R332). MX_ACC for a target that has gone is the model's choice (log 77). -/
def Sys2Proof.Says.CommandsStartAndEnd : Prop :=
  ∀ (s : State) (k : MxCmd), s.mxHead k.core = some k →
    (k.started = false →
      (∀ c a st masked, s.mxOn k = some (c, a) → k.op = .mma st masked →
        let st' := { st with mask := masked.map (fun n => c.m.getD n 0) }
        ∀ b v, (if c.stepClass st' = 0 then (true, s) else s.leave k.core .matrix (c.stepClass st') k.target) = (b, v) →
          exec (.matrixCommandStart k.core) s = .next (if b then v.mxSet { k with op := .mma st' masked, started := true } else v)) ∧
      (s.mxOn k = none ∨ (∀ st n, k.op ≠ .mma st n) → exec (.matrixCommandStart k.core) s = .next (s.mxSet { k with started := true })) ∧
      exec (.matrixCommandEnd k.core) s = .next s) ∧
    (k.started = true →
      exec (.matrixCommandStart k.core) s = .next s ∧
      (s.mxOn k = none → exec (.matrixCommandEnd k.core) s =
        .next (s.mxFail k 0x502 ((s.coil? k.target).bind (fun c => c.acc? k.acc)) 0)) ∧
      (∀ c a, s.mxOn k = some (c, a) →
        (∀ st n ta tb, k.op = .mma st n → c.tile? st.ta = some ta → c.tile? st.tb = some tb → ta.poison = [] → tb.poison = [] → a.poison = [] →
          exec (.matrixCommandEnd k.core) s = .next ((s.setCoil (c.putAcc ((mmaAcc a ta tb st).logStep st))).mxEnd k 0)) ∧
        (∀ int, k.op = .zero int → exec (.matrixCommandEnd k.core) s =
          .next ((s.setCoil ((c.freeBase a).putAcc { Acc.new a.num with st := .opened, int := int })).mxEnd k 0)) ∧
        (∀ e, k.op = .drainAcc e → a.poison = [] → c.biasBad k.op = false → a.badRows k.mxtol = [] → a.badCols k.mxtol = [] →
          exec (.matrixCommandEnd k.core) s = .next ((s.setCoil ((c.freeBase a).putAcc { c.drainIn a e with
            st := .drained, log := [], names := [], ovfl := false, baseOf := none })).mxEnd k 0))))

/-- Matrix commands start and end as the rules say, and their steps accumulate. -/
def Obligations.MatrixEnginesAccumulate : Prop := Says.StepsAccumulate ∧ Says.CommandsStartAndEnd

/-! ## Queues and placement -/

/-- A queue's next packet is accepted, or recorded and skipped, and READ advances (07_work.md R182, R183). MAP and UNMAP map and unmap a slot with the
result that the register names; a scan maps a registered queue with work to a free slot of its die (R185). MAP with a NEW owner follows the model's
reading (log 37). -/
def Sys2Proof.Says.QueuesAreServed : Prop :=
  ∀ (s : State) (n : Nat),
    let q := s.qslot n
    let ready := s.rsc.queuesStopped = false ∧ q.mapped = true ∧ q.read < q.write
    let packet (r : Except MemFault (List Byte) × State) : State :=
      ((r.2.setQslot n { q with read := q.read + 1 }).vput q.casid (q.cur + 0x20) 8 (q.read + 1))
    (¬ ready → exec (.queuePacketConsume n) s = .next s) ∧
    (ready → ∀ d l v, s.qdesc q.casid q.cur = some d → s.vread q.casid (d.ring + BitVec.ofNat 64 (64 * (q.read % 2 ^ d.size))) 64 = (.ok l, v) →
      (∀ t, v.acceptLaunch q.casid (BitVec.ofNat 512 (leNat l)) d.owner (BitVec.ofNat 16 n) (some q.read) (n / 64) true = .ok t →
        exec (.queuePacketConsume n) s = .next (packet (.ok l, t))) ∧
      (∀ code, v.acceptLaunch q.casid (BitVec.ofNat 512 (leNat l)) d.owner (BitVec.ofNat 16 n) (some q.read) (n / 64) true = .error code →
        exec (.queuePacketConsume n) s = .next (packet (.ok l, v.record (v.packetRec n q d.owner code))))) ∧
    (s.rsc.booted = true → n < 256 → s.qslots.length = 256 → ∀ w : BitVec 64, w.getLsbD 0 = true →
      let asid := BitVec.ofNat 12 (w.toNat / 2 ^ 20)
      let va := q.desc &&& ~~~0x3F
      let map (r : Nat) : Prop := ∃ t, exec (.mapQueue n w) s = .next t ∧ ((t.qslot n).result).toNat = r ∧ ((t.qslot n).mapped = true ↔ q.mapped = true ∨ r = 0)
      let u := s.setQslot n { q with asid := asid, op := BitVec.ofNat 2 (w.toNat / 2) }
      (w.toNat / 2 % 4 = 1 →
        (q.mapped = true → map 1) ∧ (q.mapped = false → u.qdesc asid va = none → map 3) ∧
        (q.mapped = false → ∀ d, u.qdesc asid va = some d →
          (d.ok = false ∨ d.slot ≠ 0xFFFF → map 2) ∧
          (d.ok = true → d.slot = 0xFFFF → map 0 ∧ ∀ t, exec (.mapQueue n w) s = .next t →
            (t.qslot n).cur = va ∧ (t.qslot n).casid = asid ∧ (t.qslot n).write = d.write ∧ (t.qslot n).read = d.read))) ∧
      (w.toNat / 2 % 4 = 2 → ∃ t, exec (.unmapQueue n w) s = .next t ∧ (t.qslot n).mapped = false ∧
        ((t.qslot n).result).toNat = if q.mapped then 0 else 1)) ∧
    (∀ die i d k, let e := s.regEntry i
      e / 2 ^ 79 % 2 = 1 → e / 2 ^ 80 % 256 = die → e % 64 = 0 → s.qdesc (BitVec.ofNat 12 (e / 2 ^ 64)) (BitVec.ofNat 64 e) = some d → d.ok = true →
      d.slot = 0xFFFF → d.read < d.write → s.slotFor die = some k → (s.qslot k).mapped = false → s.qslots.length = 256 → k < 256 →
        ((s.scanEntry die i).qslot k).mapped = true ∧ ((s.scanEntry die i).qslot k).cur = BitVec.ofNat 64 e) ∧
    (∀ die, exec (.registryScan die) s =
      .next ((List.range (min 4096 (s.regs.qreg.toNat % 8192))).foldl (fun s i => s.scanEntry die i) s))

/-- The next coil of a launch is placed on a core that it fits, a saved coil whose frame is intact comes back, one whose frame is not intact ends its
context, and a coil makes way for work of higher priority that no core can take (01_machine.md R15, R16; 07_work.md R193, R194, R200; 08_memory.md
R217). What fits, and what of a frame is compared, rest on the model's readings (logs 22, 36, 51 and 55). -/
def Sys2Proof.Says.CoilsArePlaced : Prop :=
  ∀ s : State,
    (s.rsc.queuesStopped = true → ∀ k core, exec (.coilPlace k core) s = .next s) ∧
    (s.rsc.queuesStopped = false → ∀ l core, s.launches.find? (fun k => k.id = l.id) = some l →
      (s.fits l.want core = false → exec (.coilPlace l.id core) s = .next s) ∧
      (s.fits l.want core = true → ∃ t c, exec (.coilPlace l.id core) s = .next t ∧ s.coil? c.id = none ∧ t.coil? c.id = some c ∧
        c.resident = true ∧ c.core = core ∧ c.st = .running ∧ c.asid = l.asid ∧ c.rcb = l.rcb ∧ c.launch = l.id ∧ c.index = l.next ∧
        c.window = pkt l.packet 0x1C 2 ∧ c.fibres.length = pkt l.packet 2 2 + 1 ∧
        ∀ f ∈ c.fibres, f.pc = BitVec.ofNat 64 (pkt l.packet 8 8) ∧ f.status = .runnable)) ∧
    (s.rsc.queuesStopped = false → ∀ (c : Coil) core, s.coil? c.id = some c → c.st = .saved true → s.fits (s.coilWant c) core = true →
      (c.priv = none ∨ c.priv = some (s.framePrivate c) → ∃ t d, exec (.coilRestart c.id core) s = .next t ∧ t.coil? c.id = some d ∧ d.resident = true ∧ d.core = core ∧
        d.st = (if c.restop then .stopped else .running)) ∧
      (∀ p, c.priv = some p → p ≠ s.framePrivate c →
        exec (.coilRestart c.id core) s = .next ((s.record (s.coilRec c 0x10C 0 0xFF)).killContext c.asid (some c.id) 0x10C))) ∧
    (∀ c : Coil, s.coil? c.id = some c →
      (c.resident = true → c.recOf = none → c.leaves = false →
        (∃ w ∈ s.wants, s.outranks w c = true ∧ ∀ k, k < 256 → s.fits w k = false) →
        exec (.preemption c.id) s = .next (s.save { c with preempts := c.preempts + 1, restop := decide (c.st = .stopped) } none true false)) ∧
      (c.resident = false ∨ c.leaves = true → exec (.preemption c.id) s = .next s)) ∧
    (∀ core c pc, s.firstPack core = some (c, pc) →
      let r := s.releaseHeld c (c.heldAt pc .pack)
      exec (.packingWindowExpiry core) s = .next (r.1.setCoil r.2)) ∧
    (∀ core, s.firstPack core = none → s.recoveryJoin core = none → s.spawnJoin core = none → exec (.packingWindowExpiry core) s = .next s)

/-- A translation invalidation drops the L1 lines that it covers, a drain stops the accepted commands of an ASID, both only while none runs; the side
table's low mark is reported (08_memory.md R231, R247; 10_copy_gather.md R302). Which lines an invalidation covers is the model's choice (log 54). -/
def Sys2Proof.Says.InvalidationsAndDrains : Prop :=
  ∀ (s : State) (w : BitVec 64), w.getLsbD 13 = true →
    (s.rsc.booted = false ∨ s.regs.tlbinvc.getLsbD 13 = true → exec (.tlbInvalidate w) s = .next s) ∧
    (s.rsc.booted = true → s.regs.tlbinvc.getLsbD 13 = false →
      let u := { s with regs := { s.regs with tlbinvc := w &&& 0x3FFF } }
      exec (.tlbInvalidate w) s = .next
        { u with l1 := u.l1.filter (fun e => !(e.asid = w.setWidth 12 && u.tlbCovers (BitVec.ofNat 64 (32 * e.vsec)) e.big)) }.endTlb) ∧
    (s.rsc.booted = false ∨ s.regs.gsdrain.getLsbD 13 = true → exec (.gsdrain w) s = .next s) ∧
    (s.rsc.booted = true → s.regs.gsdrain.getLsbD 13 = false →
      let u := { s with regs := { s.regs with gsdrain := w &&& 0x2FFF } }
      exec (.gsdrain w) s =
        .next { u with copies := s.copies.map (fun (k : CopyCmd) => if k.asid = w.setWidth 12 then { k with drain := true } else k) }.endDrain) ∧
    (∀ die,
      let free := s.sideCapacity die - (s.sideFrames die).length
      exec (.sideEccLow die) s = .next (if 64 * free < s.sideCapacity die then s.record (Rec.plain 0x807 7 (locDie die 0xFF)) else s))

/-- Queues are served, coils are placed, invalidations and drains act. -/
def Obligations.QueuesAndPlacement : Prop := Says.QueuesAreServed ∧ Says.CoilsArePlaced ∧ Says.InvalidationsAndDrains

/-! ## The register window -/

/-- Registers of the window (15_system.md R425; 17_module.md R457, R458, R467): a written one reads back within its writable bits, ERRQHEAD and what
is not aligned ignore a write; W1C bits clear; RSTREQ's key resets; a NOTIFY raises WRITE; SYSRVAL resolves its future (15_system.md R423); DBGDATA
reads and writes a stopped coil, where LIFECYCLE lets it (R465). Before a boot has ended well nothing of this happens (R463). Fields that are written
outside their range are the model's choice (log 38). -/
def Obligations.RegisterWindowActs : Prop :=
  ∀ (s : State) (w : BitVec 64),
    let reads (off : Nat) (v : BitVec 64) : Prop := ∃ t, exec (.registerWrite off w) s = .next t ∧ t.readWindow off = v
    (s.rsc.booted = false → (∀ off, exec (.registerWrite off w) s = .next s) ∧ exec (.intstatWrite w) s = .next s ∧ exec (.softwareReset w) s = .next s ∧
      (∀ n, exec (.notify n w) s = .next s) ∧ (∀ app, exec (.sysrvalWrite app w) s = .next s) ∧ ∀ v, exec (.dbgdataAccess v) s = .next s) ∧
    (s.rsc.booted = true →
    (s.dbgOpen = true → reads 0x40040 (w &&& 0xFFFFFFFFF3FFFFFF)) ∧
    (s.dbgOpen = false → exec (.registerWrite 0x40040 w) s = .next s ∧ s.readWindow 0x40040 = 0) ∧
    (reads (8 * 0x38) (w &&& ~~~0xFFFF) ∧ reads (8 * 0x3B) w ∧ reads (8 * 0x41) (w &&& ~~~0xFFFF) ∧ reads (8 * 0x50) (w &&& ~~~0xFFFF) ∧
      reads (8 * 0x5A) (w &&& 0x01FFFFFFFFFF0000) ∧ reads (8 * 0x5B) w ∧ reads 0x40010 (w &&& 0xFFFFFF) ∧ reads 0x40058 w ∧
      reads 0x40060 (w &&& 0x000FFFFFFFFF0000) ∧ reads 0x40078 (w &&& 0xFFFFFFFFFFFF1FFF)) ∧
    (exec (.registerWrite (8 * 0x3A) w) s = .next s ∧ ∀ off, off % 8 ≠ 0 → exec (.registerWrite off w) s = .next s) ∧
    exec (.intstatWrite w) s = .next { s with regs := { s.regs with intstat := s.regs.intstat &&& ~~~(w.setWidth 4) } } ∧
    (w = 0x52535431 → ∃ t, exec (.softwareReset w) s = .next t ∧ t.regs.resetcause = 4 ∧ t.mem = [] ∧ t.coils = []) ∧
    (w ≠ 0x52535431 → exec (.softwareReset w) s = .next s) ∧
    (∀ n, (s.qslot n).held = false → exec (.notify n w) s = .next s) ∧
    (∀ n, n < 256 → s.qslots.length = 256 → (s.qslot n).mapped = true → (s.qslot n).held = true →
      ∃ t, exec (.notify n w) s = .next t ∧ (t.qslot n).write = max (s.qslot n).write w.toNat) ∧
    (∀ app, app < 16 →
      let asid := (s.regs.sysrasid.getD app 0).setWidth 12
      let at_ := s.regs.sysraddr.getD app 0
      let r := { appRec app 0 with asid := some asid }
      (∀ t, s.resolve asid at_ 0 r 1 w none = .done t → exec (.sysrvalWrite app w) s = .next t) ∧
      (∀ t, s.resolve asid at_ 0 r 1 w none = .settled t → exec (.sysrvalWrite app w) s = .next (t.deferred { r with detail := w } 0x206 at_))) ∧
    exec (.dbgdataAccess none) s = .next { s with out := s.out ++ [.answer (leBytes 8 (s.readWindow 0x40048).toNat)] } ∧
    (s.dbgCoil = none → exec (.dbgdataAccess (some w)) s = .next s ∧ s.readWindow 0x40048 = 0) ∧
    (∀ c, s.dbgCoil = some c → s.dbgItem = 1 → s.dbgIndex < c.s.length → ∃ t d, exec (.dbgdataAccess (some w)) s = .next t ∧
      t.coil? c.id = some d ∧ d.getS s.dbgIndex = w.setWidth 32))

/-! ## The module boundary -/

/-- Accesses from outside (09_ordering.md R263; 17_module.md R457, R461): a load answers the bytes of device memory or the window; a
device or port acts on the bytes that its address translates to, and is not answered where it does not; a requester without an ASID is unsupported,
with a record; the window takes aligned accesses of 8 bytes alone. Key 0 for outside agents and the record of a refusal are the model's (logs 24, 60). -/
def Sys2Proof.Says.OutsideAccessesAct : Prop :=
  ∀ (s : State) (r : MemReq),
    (∀ app a n, s.rsc.booted = true → app < 16 → r = { asid := none, addr := a, act := .load n } →
      (a.toNat + n ≤ windowBase ∨ windowBase + 2 ^ 24 ≤ a.toNat) → (∀ g ∈ s.physSegs a.toNat n, s.keyClash g.pa 0 = false) →
      let l := s.physSegs a.toNat n
      let v := l.foldl (fun v g => ((v.touchLine g.pa 0).healRange g.pa g.n).report) s
      exec (.applicationCoreMemoryAccess app r) s = .next { v with out := v.out ++ [.answer (l.flatMap (fun g => v.peek g.pa g.n))] }) ∧
    (∀ app off, s.rsc.booted = true → app < 16 → off < 2 ^ 24 → off % 8 = 0 → r = { asid := none, addr := BitVec.ofNat 64 (windowBase + off), act := .load 8 } →
      exec (.applicationCoreMemoryAccess app r) s = .next { s with out := s.out ++ [.answer (leBytes 8 (s.readWindow off).toNat)] }) ∧
    (∀ app off, s.rsc.booted = true → app < 16 → off < 2 ^ 24 → (∀ k, r.act = .load k → k ≠ 8 ∨ off % 8 ≠ 0) → (∀ d, r.act = .store d → d.length ≠ 8 ∨ off % 8 ≠ 0) →
      r.act ≠ .fence → r.addr = BitVec.ofNat 64 (windowBase + off) →
      exec (.applicationCoreMemoryAccess app r) s = .next { s with out := s.out ++ [.accessFault app] }) ∧
    (∀ app a n, s.rsc.booted = true → app < 16 → r = { asid := none, addr := a, act := .load n } → a.toNat < windowBase → windowBase < a.toNat + n →
      exec (.applicationCoreMemoryAccess app r) s = .next { s with out := s.out ++ [.accessFault app] }) ∧
    (∀ app, s.rsc.booted = false → exec (.applicationCoreMemoryAccess app r) s = .next s) ∧
    (∀ port asid f v, r.asid = some asid → s.reqSegs asid r = (.error f, v) → exec (.peerRequest ⟨port, r⟩) s = .next v) ∧
    (∀ port asid l v, r.asid = some asid → s.reqSegs asid r = (.ok l, v) →
      exec (.peerRequest ⟨port, r⟩) s = .next (v.outsideAct l r.act (fun code => { Rec.plain code 8 (osierLoc port) with asid := some asid }))) ∧
    (∀ port rid, port < 2 →
      let e := leNat (s.peek ((if port = 0 then s.regs.pciasid0 else s.regs.pciasid1).toNat + 2 * rid.toNat) 2)
      let asid := BitVec.ofNat 12 e
      (e < 2 ^ 15 → exec (.pcieInboundDma port rid r) s =
        .next (let t := s.record { Rec.plain 0x105 7 (pciLoc port) with addr := some r.addr }; { t with out := t.out ++ [.unsupported port rid] })) ∧
      (2 ^ 15 ≤ e → ∀ l v, s.reqSegs asid r = (.ok l, v) →
        exec (.pcieInboundDma port rid r) s = .next (v.outsideAct l r.act (fun code => { Rec.plain code 7 (pciLoc port) with asid := some asid }))))

/-- Ports and interrupts (17_module.md R458, R459, R461): a port that changes state is reported and raises LINK, retried flits count; an interrupt
whose bit is clear and whose route is enabled sends one message, and none while the bit is set. The records of PCIe messages are the model's reading
(log 61). -/
def Sys2Proof.Says.PortsAndInterrupts : Prop :=
  ∀ s : State,
    (∀ k, k < 4 → ((s.interrupt k).regs.intstat.getLsbD k = true ∧
      (s.regs.intstat.getLsbD k = true → (s.interrupt k).out = s.out) ∧
      (s.regs.intstat.getLsbD k = false → (s.regs.introute.getD k 0).getLsbD 16 = true → (s.regs.introute.getD k 0).toNat / 16 % 2 ^ 12 ≠ 0 →
        (s.interrupt k).out = s.out ++ [.msi ((s.regs.introute.getD k 0).setWidth 32)]))) ∧
    (∀ port, port < 2 → exec (.pciePortStateChange port) s = .next (s.interrupt 3)) ∧
    (∀ e : AerError, e.linkDown = true → exec (.pcieAer e) s = .next ((s.record (Rec.plain 0x905 10 (pciLoc e.port))).interrupt 3)) ∧
    (∀ e : AerError, e.linkDown = false → ∃ r, exec (.pcieAer e) s = .next (s.record r) ∧ r.code = 0x907 ∧ r.aux = e.header ∧
      r.sev = (if e.uncorrectable then 2 else 1)) ∧
    (∀ port peer lanes st, port < s.regs.osierstat.length → port < 18 →
      ∃ t, exec (.osierPortStateChange port peer lanes st) s = .next t ∧
        (t.regs.osierstat.getD port 0).toNat % 4 = st.toNat ∧ (t.regs.osierstat.getD port 0).toNat / 2 ^ 48 = peer.toNat ∧
        ((s.regs.osierstat.getD port 0).toNat % 4 ≠ st.toNat → t.regs.intstat.getLsbD 3 = true)) ∧
    (∀ port, exec (.osierFlitReceive port false) s = .next s) ∧
    (∀ port, port < s.regs.osierstat.length →
      let n := (s.regs.osierstat.getD port 0).toNat / 2 ^ 16 % 2 ^ 32
      ∃ t, exec (.osierFlitReceive port true) s = .next t ∧
        (t.regs.osierstat.getD port 0).toNat / 2 ^ 16 % 2 ^ 32 = min (n + 1) (2 ^ 32 - 1))

/-- Device resets (17_module.md R465, R469, R470): every cause leaves no coil and no memory and states itself in RESETCAUSE; only the fuse transitions
of the rule happen; a die at 110 °C resets, one at 100 °C is limited until it is below 98 °C. That a reset ends after its boot is the model's choice
(log 20), and that a trip comes first its reading (log 62). -/
def Sys2Proof.Says.ResetsAndTemperature : Prop :=
  ∀ s : State,
    let left (i : Instr) (cause code : Nat) : Prop := ∃ t, exec i s = .next t ∧ t.mem = [] ∧ t.coils = [] ∧ t.rsc.tkeys = [] ∧
      t.regs.resetcause = BitVec.ofNat 64 (code * 2 ^ 32 + cause) ∧ t.turn = .free
    let life := s.regs.lifecycle.toNat % 8
    (left .powerOn 1 0 ∧ left .pinReset 2 0 ∧ left .mgmtReset 3 0 ∧ left .watchdogReset 5 0 ∧ (∀ code, left (.fwFatal code) 7 0x906)) ∧
    (∀ st : BitVec 3, (life = 1 ∧ st = 2) ∨ (life = 2 ∧ st = 4) ∨ (life = 4 ∧ st = 5) → left (.fuseTransition st) 8 0) ∧
    (∀ st : BitVec 3, ¬ ((life = 1 ∧ st = 2) ∨ (life = 2 ∧ st = 4) ∨ (life = 4 ∧ st = 5)) → exec (.fuseTransition st) s = .next s) ∧
    (∀ temps : BitVec 64, (∃ d, d < 4 ∧ 1760 ≤ dieTemp temps d) → left (.thermstatUpdate temps) 6 0x904) ∧
    (∀ temps : BitVec 64, (∀ d, d < 4 → dieTemp temps d < 1760) → ∃ t, exec (.thermstatUpdate temps) s = .next t ∧ t.regs.thermstat = temps ∧
      ∀ d, d < 4 → (d ∈ t.rsc.throttled ↔ 1600 ≤ dieTemp temps d ∨ (d ∈ s.rsc.throttled ∧ 1568 ≤ dieTemp temps d))) ∧
    (∀ island mhz, exec (.islandFrequencyChange island mhz) s = .next s) ∧
    exec .powerBucketRefill s =
      .next { s with buckets := s.buckets.map (fun b => { b with tokens := min (s.pwrDepth * s.pwrUnits) (b.tokens + s.pwrUnits) }) }

/-- The management port (17_module.md R462 to R466): before a boot has ended well only ATTEST, FWUPDATE and resets act; a nonce is fresh and answered;
keys are loaded in PRODUCTION and zeroed; a token that is not accepted changes nothing, and one that is accepted stops the queues, wipes the keys,
ends the coils and unlocks. Signatures, hashes and nonces are free (log 20). -/
def Sys2Proof.Says.ManagementPortActs : Prop :=
  ∀ s : State,
    let set (slot : Nat) (key : BitVec 512) : State := s.setKey slot key
    (s.rsc.booted = false → exec .challenge s = .next s ∧ exec .telemetry s = .next s ∧ (∀ k x, exec (.keyload k x) s = .next s) ∧
      (∀ k, exec (.keyzero k) s = .next s) ∧ (∀ r d, exec (.measurementExtension r d) s = .next s) ∧ ∀ t, exec (.unlock t) s = .next s) ∧
    (∀ nonce, exec (.attest nonce) s =
      .next { s with out := s.out ++ [.answer (s.report nonce ++ Config.attestSign (s.rsc.mr.getD 0 0) (s.report nonce))] }) ∧
    (∀ image, exec (.fwupdate image) s = .next { s with rsc := { s.rsc with pending := some image } }) ∧
    (s.rsc.booted = true →
      (∃ t n, exec .challenge s = .next t ∧ t.rsc.nonce = some n ∧ t.out = s.out ++ [.answer (leBytes 48 n.toNat)]) ∧
      exec .telemetry s = .next { s with out := s.out ++
        [.answer (leBytes 8 s.regs.thermstat.toNat ++ leBytes 8 s.regs.pwrctl.toNat ++ leBytes 8 s.regs.resetcause.toNat)] } ∧
      (∀ k x, 1 ≤ k → k ≤ 255 →
        (s.regs.lifecycle.toNat % 8 = 2 → exec (.keyload k x) s = .next (set k x)) ∧
        (s.regs.lifecycle.toNat % 8 ≠ 2 → exec (.keyload k x) s = .next s) ∧
        exec (.keyzero k) s = .next (set k 0) ∧ (∀ e ∈ (set k 0).rsc.tkeys, e.1 ≠ k)) ∧
      (∀ r d, 3 ≤ r → r ≤ 6 → s.rsc.recorded < 4096 → exec (.measurementExtension r d) s =
        .next { s with rsc := { s.rsc with
          mr := s.rsc.mr.set r (Config.sha384 (leBytes 48 (s.rsc.mr.getD r 0).toNat ++ leBytes 48 d.toNat)), recorded := s.rsc.recorded + 1 } }) ∧
      (∀ r d, r < 3 ∨ 6 < r ∨ 4096 ≤ s.rsc.recorded → exec (.measurementExtension r d) s = .next s) ∧
      (∀ token, s.tokenOk token = false → exec (.unlock token) s = .next s) ∧
      (∀ token, s.tokenOk token = true → ∃ t, exec (.unlock token) s = .next t ∧ t.rsc.tkeys = [] ∧ t.rsc.nonce = none ∧ t.rsc.queuesStopped = true ∧
        t.regs.lifecycle.toNat % 8 = 3 ∧ ∀ c ∈ t.coils, c.st = .ended ∨ c.st = .killed))

/-- Retirement, errors and profiling (01_machine.md R23, R24; 15_system.md R416, R418, R437, R438): a retired core leaves CORES_AVAIL, an error in a
register, a scratchpad, a tile or an accumulator poisons its unit and is recorded, a mask reads all ones; each source writes its record and MARKCNT
starts again. A word that is no instruction, and a fetch that faults, raise their fault in every fibre of the plait (02_encoding.md R27, R49). Records
and delivery follow the model's readings where the rules are silent (logs 39, 52 and 53). -/
def Sys2Proof.Says.RetirementErrorsAndFaults : Prop :=
  ∀ s : State,
    (∀ n, n < 256 → ∃ t, exec (.unitRetired false n) s = .next t ∧
      ∀ k, k < 256 → t.regs.coresAvail.getLsbD k = (s.regs.coresAvail.getLsbD k && !decide (k = n))) ∧
    (∀ stack pch (a : BitVec 64), exec (.pageRetired stack pch (some a)) s = .next ({ s with rsc := { s.rsc with
      pages := a.toNat / 65536 :: s.rsc.pages.filter (fun p => p ≠ a.toNat / 65536) } }.record { fwRec 0x80A with addr := some a })) ∧
    (∀ c : Coil, s.coil? c.id = some c →
      (∀ k, k < 64 → ∃ t, exec (.regfileLatent c.id none k) s = .next t ∧ t.coil? c.id = some (c.taint k .latent)) ∧
      (∀ f k, k < c.window → ∃ t, exec (.regfileLatent c.id (some f) k) s = .next t ∧ t.coil? c.id = some (c.onFibre f (fun x => x.taint k .latent))) ∧
      (∀ off, ∃ t, exec (.sramError (.scratch c.id off)) s = .next t ∧ ∃ d, t.coil? c.id = some d ∧ off / 32 ∈ d.spoiled) ∧
      (∀ n off u, c.tile? n = some u → ∃ t, exec (.sramError (.tile c.id n off)) s = .next t ∧ ∃ d e, t.coil? c.id = some d ∧ d.tile? n = some e ∧
        off / 32 ∈ e.poison) ∧
      (∀ n off u, c.acc? n = some u → ∃ t, exec (.sramError (.acc c.id n off)) s = .next t ∧ ∃ d e, t.coil? c.id = some d ∧ d.acc? n = some e ∧
        off / 32 ∈ e.poison) ∧
      (∀ n, ∃ t, exec (.sramError (.mask c.id n)) s = .next t ∧ t.coil? c.id = some { c with m := c.m.set n (BitVec.allOnes 128) }) ∧
      (∀ n k x u, c.acc? n = some u → ∃ t, exec (.sramError (.cell c.id n k x)) s = .next t ∧ ∃ d e, t.coil? c.id = some d ∧ d.acc? n = some e ∧
        { e with elems := u.elems } = u)) ∧
    (∀ a, s.errqEn = false → ∃ t, exec (.sramError (.l2 a)) s = .next t ∧ t.sectorPoisoned (a / 32) = true) ∧
    (s.regs.profctl.getLsbD 0 = false → exec .profilingTick s = .next s) ∧
    (s.regs.profctl.getLsbD 0 = true →
      let n := s.regs.profNext
      let due := n * 2 ^ (s.regs.profctl.toNat / 2 % 32) ≤ s.tick.refclk
      (¬ due → exec .profilingTick s = .next s.tick) ∧
      (due → ∃ t, exec .profilingTick s = .next t ∧ t.coils = s.coils ∧ t.regs.profNext = n + 1 ∧ t.regs.profOpen = true ∧ ∀ r ∈ t.cores, r.markcnt = 0)) ∧
    (∀ (c : Coil) (pl : Place) (f0 : Fibre), Quiet s c pl f0 →
      (∀ f : DecodeFault, exec (.unassignedEncoding f) s = .next (s.takeTrap (c.watched pl) pl (c.actives pl) (c.actives pl) f0.pc f.words
        { Trap.of f.code.toNat with sub := f.sub, addr := some f0.pc, count := (c.actives pl).length,
                                    detail := BitVec.ofNat 64 (f.word0.toNat * 2 ^ 32 + f.bit % 256 * 256 + f.sub % 256) })) ∧
      (∀ code sub k, exec (.instructionFetchFault code sub k) s = .next (s.takeTrap (c.watched pl) pl (c.actives pl) (c.actives pl) f0.pc (k + 1)
        { Trap.of code.toNat with sub := sub, addr := some (f0.pc + BitVec.ofNat 64 (4 * k)), count := (c.actives pl).length }))) ∧
    (∀ (c : Coil) (x : MccCtx), MccTurn s c x → ∀ f : DecodeFault, ∃ t, exec (.unassignedEncoding f) s = .next t ∧
      (t.coil? c.id).map Coil.eng = some .faulted)

/-- What stands at the module's boundary acts as the rules say. -/
def Obligations.ModuleBoundaryActs : Prop :=
  Says.OutsideAccessesAct ∧ Says.PortsAndInterrupts ∧ Says.ResetsAndTemperature ∧ Says.ManagementPortActs ∧ Says.RetirementErrorsAndFaults

/-! ## Encodings -/

/-- The fields of a main-format instruction with its scheduling fields at their defaults. -/
def Sys2Proof.Main.plain (d a b : BitVec 8) (x : BitVec 11) : Main :=
  { dist := 0, wait := 0, gsel := 0, gneg := 0, d := d, a := a, b := b, x := x, lit := none }

/-- Words that the spec writes out decode to the instructions that it names (02_encoding.md R38; 03_integer.md; 07_work.md; 09_ordering.md; 11_matrix.md;
12_scout.md; 15_system.md R421; 18_programs_vector.md). -/
def Obligations.WrittenOutWordsDecode : Prop :=
  decode false 256 [0x00000020] = .ok (.nopCompact { dist := 0, w := 0, d := 0, a := 0, b := 0 }) ∧
  decode false 256 [0x140C262C] = .ok (.shlImmCompact { dist := 3, w := 0, d := 9, a := 3, b := 5 }) ∧
  decode false 256 [0x00460001, 0x00604021] = .ok (.pmac2 (Main.plain 8 1 2 3)) ∧
  decode false 256 [0x00FA0001, 0x00600000] = .ok (.region (Main.plain 0 0 0 3)) ∧
  decode false 256 [0x01440001, 0xA1E00000] = .ok (.fence (Main.plain 0 0 0 0x50F)) ∧
  decode true 256 [0x81EA0C01, 0x00604000] = .ok (.mma { e := 0x300, d := 4, a := 0, b := 2, x := 3, lit := none }) ∧
  decode false 256 [0x41820021, 0x00228000] = .ok (.tmask { Main.plain 2 0 20 1 with wait := 1 }) ∧
  decode false 256 [0x01A80001, 0x00A00000] = .ok (.trapOp (Main.plain 0 0 0 5)) ∧
  decode false 256 [0x03AC0001, 0x21E00000] = .ok (.hretSkip { Main.plain 0 0 0 0x10F with gsel := 1 }) ∧
  decode false 256 [0x016A0001, 0x01E28200] = .ok (.tldT (Main.plain 0 16 20 0xF))

/-- Every instruction that has an encoding, with every operand at every value that the encoding admits, is what its words decode to
(02_encoding.md R26 to R37; 11_matrix.md R326). -/
def Obligations.EncodedInstructionsDecode : Prop :=
  ∀ (win : Nat) (i : Instr), i.form ≠ .event → i.wfIn win = true → decode i.isMcc win (encode i) = .ok i

/-- Words have one meaning: what three words decode to is well formed, and its words are the first of them (02_encoding.md R26 to R37, R48). -/
def Obligations.DecodedWordsEncodeBack : Prop :=
  ∀ (mcc : Bool) (win : Nat) (w0 w1 w2 : Word) (i : Instr), decode mcc win [w0, w1, w2] = .ok i →
    i.wfIn win = true ∧ i.isMcc = mcc ∧ encode i = [w0, w1, w2].take (wordsOf w0)

/-- What is no instruction is refused with the fault of its row and names its place: a length, a compact form on the MCC, the unassigned compact opcode 0,
an opcode of the other kind of core; and so is a reserved bit of the MCC (02_encoding.md R48 to R51). -/
def Obligations.ReservedEncodingsAreRefused : Prop :=
  ∀ (win : Nat) (w0 w1 w2 : Word),
    (w0.toNat % 4 = 3 → decode false win [w0, w1, w2] = .bad ⟨1, 0, 0xFF⟩ ∧ decode true win [w0, w1, w2] = .bad ⟨1, 0, 0xFF⟩) ∧
    (w0.toNat % 4 = 0 → decode true win [w0, w1, w2] = .bad ⟨1, 0, 0xFF⟩) ∧
    (w0.toNat % 4 = 0 → w0.toNat / 32 % 32 = 0 → decode false win [w0, w1, w2] = .bad ⟨2, 0, 5⟩) ∧
    (w0.toNat % 4 ∈ [1, 2] → 0xE0 ≤ w0.toNat / 2 ^ 17 % 256 → decode false win [w0, w1, w2] = .bad ⟨2, 0, 17⟩) ∧
    (w0.toNat % 4 ∈ [1, 2] → w0.toNat / 2 ^ 17 % 256 < 0xE0 → decode true win [w0, w1, w2] = .bad ⟨2, 0, 17⟩) ∧
    (w0.toNat / 2 ^ 25 % 16 ≠ 0 → ∃ o, decode true win [w0, w1, w2] = .bad o)

/-! ## Issue -/

/-- An instruction issues only when every flag that its WAIT selects is clear in every fibre of the plait (02_encoding.md R40), whatever the instruction;
a compact form with W waits for every flag (R38). -/
def Obligations.FlagsHoldBackIssue : Prop :=
  ∀ (i : Instr) (s : State) (c : Coil) (pl : Place) (f0 f : Fibre), s.turn = .plait c.id pl → s.coil? c.id = some c →
    (c.plait pl).head? = some f0 → f ∈ c.plait pl →
      (∀ opc m, i.form = .main opc m → f.cf &&& m.wait ≠ 0 → exec i s = .next s.stall) ∧
      (∀ cop k, i.form = .compact cop k → k.w = 1 → f.cf ≠ 0 → exec i s = .next s.stall)

/-- The issue of an instruction (02_encoding.md R33, R34, R41; 13_surrogate.md R360; 15_system.md R416): with an empty mask the plait only moves on and no
flag stays set; SETF marks its flag in every fibre of the plait; a lane that reads a poisoned register raises POISON_CONSUMED, or REGFILE_UE where the
error is latent; what exact code may not hold raises SG_IMPURE in a recovery coil. -/
def Obligations.IssueFollowsTheRules : Prop :=
  ∀ (n : Info) (s : State) (c : Coil) (pl : Place) (f0 : Fibre),
    let guard (f : Fibre) : Bool := f.getP n.gsel != n.gneg
    let mask := c.masked pl guard
    (Quiet s c pl f0 → n.coll = false → mask = [] → ∀ eff, ∃ t c', issue n eff s = .next t ∧ s.Like t c.id ∧ t.coil? c.id = some c' ∧ c'.Like c ∧
      c'.live = c.live ∧ ∀ k f, c.fibre? k = some f → ∃ f', c'.fibre? k = some f' ∧ f'.Like f ∧ f'.cf = f.cf ∧
        (f'.loops, f'.pc) = c.leaving pl f0.pc n.words (fun _ => .fall) f) ∧
    (Ready s c pl f0 guard → ∀ k, k < 12 → n.setf = some k → ∃ t c', issue n .ok s = .next t ∧ t.coil? c.id = some c' ∧
      ∀ f, c.fibre? f.idx = some f → f.idx ∈ c.actives pl → ∃ f', c'.fibre? f.idx = some f' ∧ f'.cf.getLsbD k = true) ∧
    (s.turn = .plait c.id pl → s.coil? c.id = some c → c.recOf = none → (c.plait pl).head? = some f0 →
      (∀ w ∈ c.waits, ∀ i ∈ c.actives pl, i ∉ w.fibres) → (∀ f ∈ c.fibres, f.idx ∈ c.actives pl → f.cf = 0 ∧ f.pend = [] ∧ f.holds = 0) →
      ∀ f, (c.fibres.filter (fun f => mask.contains f.idx)).head? = some f → ∀ eff k, firstPoison c f (n.reads ++ n.first) = some k →
        let lanes := ((c.fibres.filter (fun g => mask.contains g.idx)).filter (fun g =>
          (firstPoison c g (n.reads ++ if g.idx = f.idx then n.first else [])).isSome)).map Fibre.idx
        issue n eff s = .next (s.draw.2.takeTrap (c.counted pl) pl (c.actives pl) mask f0.pc n.words
          { Trap.of (match k with | .latent => 0x805 | .data => 0x806) with lanes := lanes, count := lanes.length })) ∧
    (∀ c0, Recovers s c0 c pl f0 guard → n.impure = true → ∀ eff, issue n eff s =
      .next (s.draw.2.takeTrap (c.counted pl) pl (c.actives pl) mask f0.pc n.words { Trap.of 0x600 with count := mask.length, lanes := mask }))

/-! ## The machine -/

/-- A step runs the instruction that is decoded at the program counter: of a plait or of an MCC context that has the turn, then what ends the turn; words
that are no instruction, and a fetch that faults, run the fault in its place; an event of the inputs runs at once (02_encoding.md R26, R27, R49). The
profiling unit counts what the step has done, and changes nothing else (15_system.md R439). With nothing cached, a word is fetched from the physical
address of its PC (08_memory.md R229). -/
def Obligations.StepsRunDecodedInstructions : Prop :=
  ∀ (s v : State) (c : Coil),
    (s.inputs = [] → s.coil? c.id = some c →
      (∀ pl f0, s.turn = .plait c.id pl → (c.plait pl).head? = some f0 → pl ∈ c.issuers →
        (∀ ws i, s.fetchWords c.core c.asid f0.pc = (.ok ws, v) → decode false c.window ws = .ok i →
          step s = mapNext (fun t => s.profiled t.endTurn.after) (exec i v)) ∧
        (∀ ws o, s.fetchWords c.core c.asid f0.pc = (.ok ws, v) → decode false c.window ws = .bad o →
          step s = mapNext (fun t => s.profiled t.endTurn.after) (exec (.unassignedEncoding (o.fault (wordAt ws 0))) v)) ∧
        (∀ e k, s.fetchWords c.core c.asid f0.pc = (.error (e, k), v) →
          step s = mapNext (fun t => s.profiled t.endTurn.after) (exec (.instructionFetchFault e.code e.sub k) v))) ∧
      (∀ x ws i, s.turn = .mcc c.id → c.mcc = some x → c.mccRuns = true → s.fetchWords c.core c.asid x.pc = (.ok ws, v) →
        decode true 256 ws = .ok i → step s = mapNext (fun t => s.profiled t.endTurn.after) (exec i v))) ∧
    (∀ i r, s.inputs = .event i :: r → step s = mapNext (fun t => s.profiled t.after) (exec i { s with inputs := r, tried := [] })) ∧
    { s.profiled v with prof := v.prof } = v ∧
    (∀ core asid pc x, s.icache = [] → s.translate asid pc .fetch = (.ok x, v) →
      let w := leWord ((v.healRange x.pa 4).report.peek x.pa 4)
      wordsOf w = 1 → (s.fetchWords core asid pc).1 = .ok [w])

/-- What reset leaves (15_system.md R407, R425, R436; 17_module.md R457 to R469; 14_survivable.md R387, R390; 07_work.md R185, R210): the device registers at
the values of their maps, no queue mapped, every group INACTIVE. Memory lists nothing and no coil is there. CORES_AVAIL and LIFECYCLE are the
model's choices of logs 18 and 19 and are not stated. -/
def Obligations.ResetLeavesTheRegisters : Prop :=
  let s := State.reset
  s.mem = [] ∧ s.coils = [] ∧ s.turn = .free ∧ s.regs.resetcause = 1 ∧
  s.readWindow 0x40000 = BitVec.ofNat 64 (3600 * 2 ^ 32 + 192 * 2 ^ 24 + 4 * 2 ^ 16) ∧ s.readWindow 0x40008 = 0 ∧ s.readWindow 0x40018 = 0 ∧
  (∀ n ∈ [0x38, 0x3A, 0x3B, 0x41, 0x50, 0x51, 0x58, 0x59, 0x5A, 0x5B, 0x60], s.readWindow (8 * n) = 0) ∧
  (∀ k, k < 256 → s.readWindow (0x50000 + 0x20 * k) = 0 ∧ (s.qslot k).mapped = false ∧ (s.grp k).st = 0)

/-- The invariant holds right after reset: memory is canonical, and the tables have the sizes of 14_survivable.md R390 and 07_work.md R185. The
canonical form of memory is the model's own (DESIGN CHOICE, log 150). -/
def Obligations.ResetIsCanonical : Prop := State.reset.Inv

/-- Every step keeps the invariant: device memory, the scratchpads and the tile registers stay in canonical form, and the tables keep their sizes
(14_survivable.md R390; 07_work.md R185). The canonical form is the model's own (DESIGN CHOICE, log 150). -/
def Obligations.StepsKeepTheInvariant : Prop := ∀ s t : State, s.Inv → step s = .next t → t.Inv
end

