-- ==== Sys2Proof/Laws/Issue.lean ====
section
/-! SUPPORT. What issuing an instruction can do: its inversion, and its outcome in a quiet plait. -/

namespace Sys2Proof.Machine

/-! ## Lists of coils and fibres -/

theorem find?_map_key {α : Type} (key : α → Nat) (g : α → α) (hg : ∀ a, key (g a) = key a) (k : Nat) (l : List α) :
    (l.map g).find? (fun a => decide (key a = k)) = (l.find? (fun a => decide (key a = k))).map g := by
  induction l with
  | nil => rfl
  | cons a r ih => by_cases h : key a = k <;> simp [hg, h, ih]

theorem Coil.fibre?_map {c d : Coil} {g : Fibre → Fibre} (h : d.fibres = c.fibres.map g) (hg : ∀ f, (g f).idx = f.idx) (k : Nat) :
    d.fibre? k = (c.fibre? k).map g := by
  unfold Coil.fibre?
  rw [h]
  exact find?_map_key Fibre.idx g hg k c.fibres

theorem Coil.fibre?_idx {c : Coil} {k : Nat} {f : Fibre} (h : c.fibre? k = some f) : f.idx = k := by
  simpa using List.find?_some h

theorem Coil.fibre?_mem {c : Coil} {k : Nat} {f : Fibre} (h : c.fibre? k = some f) : f ∈ c.fibres := List.mem_of_find?_eq_some h

theorem State.coil?_id {s : State} {k : Nat} {c : Coil} (h : s.coil? k = some c) : c.id = k := by
  simpa using List.find?_some h

theorem State.coil?_setCoil (s : State) (d : Coil) (k : Nat) :
    (s.setCoil d).coil? k = if k = d.id then (s.coil? k).map (fun _ => d) else s.coil? k := by
  unfold State.coil? State.setCoil
  induction s.coils with
  | nil => simp
  | cons a r ih =>
    by_cases h : a.id = d.id
    · by_cases hk : k = d.id
      · simp [h, hk]
      · have h1 : ¬ d.id = k := fun e => hk e.symm
        simp only [List.map_cons, h, if_true, List.find?_cons, h1, decide_false, hk, if_false] at ih ⊢
        exact ih
    · by_cases hk : a.id = k
      · have : ¬ k = d.id := fun e => h (hk.trans e)
        simp [hk, this]
      · simp only [List.map_cons, h, if_false, List.find?_cons, hk, decide_false] at ih ⊢
        exact ih

/-! ## A quiet plait -/

theorem Fibre.age_nil (f : Fibre) (d : Nat) (h : f.pend = []) : f.age d = f := by
  cases f; simp_all [Fibre.age]

theorem Fibre.pendOf_nil (f : Fibre) (r : RegCls × Nat) (h : f.pend = []) : f.pendOf r = none := by
  simp [Fibre.pendOf, h]

theorem foldl_fixed {α β : Type} (g : α → β → α) (a : α) (l : List β) (h : ∀ b ∈ l, g a b = a) : l.foldl g a = a := by
  induction l with
  | nil => rfl
  | cons b r ih =>
    rw [List.foldl_cons, h b (List.mem_cons_self ..)]
    exact ih (fun x hx => h x (List.mem_cons_of_mem _ hx))

theorem seenBy_nil (k : Nat) (reads : List (RegCls × Nat)) (f : Fibre) (h : f.pend = []) : seenBy k reads f = f :=
  foldl_fixed _ _ _ (fun r _ => by simp [Fibre.pendOf_nil f r h])

theorem seenS_nil (k : Nat) (reads : List (RegCls × Nat)) (act : List Fibre) (c : Coil) (h : ∀ f ∈ act, f.pend = []) :
    seenS k reads act c = c := by
  have hn : ∀ r, act.findSome? (fun f => f.pendOf r) = none := fun r => by
    rw [List.findSome?_eq_none_iff]
    exact fun f hf => Fibre.pendOf_nil f r (h f hf)
  exact foldl_fixed _ _ _ (fun r _ => by cases hr : r.1.shared <;> simp [hn])

theorem map_self_of {α : Type} (g : α → α) (l : List α) (h : ∀ a ∈ l, g a = a) : l.map g = l := by
  induction l with
  | nil => rfl
  | cons a r ih => simp_all

section
variable {s : State} {c : Coil} {pl : Place} {f0 : Fibre}

theorem Quiet.pend_nil (h : Quiet s c pl f0) : ∀ f ∈ c.fibres, f.idx ∈ c.actives pl → f.pend = [] :=
  fun f hf ha => (h.calm f hf ha).2.1

theorem Quiet.lend (h : Quiet s c pl f0) : s.lend c = c := by simp [State.lend, h.own]

theorem Quiet.age (h : Quiet s c pl f0) (d : Nat) : c.onFibres (c.actives pl) (fun f => f.age d) = c := by
  have : c.fibres.map (fun f => if (c.actives pl).contains f.idx then f.age d else f) = c.fibres := by
    refine map_self_of _ _ fun f hf => ?_
    by_cases hc : f.idx ∈ c.actives pl
    · simp [hc, Fibre.age_nil f d (h.pend_nil f hf hc)]
    · simp [hc]
  simp only [Coil.onFibres, this]

theorem Quiet.seen (h : Quiet s c pl f0) (k : Nat) (reads : List (RegCls × Nat)) : c.seen k reads (c.actives pl) = c := by
  unfold Coil.seen
  have h1 : ∀ f ∈ c.fibres.filter (fun f => (c.actives pl).contains f.idx), f.pend = [] := by
    intro f hf
    simp only [List.mem_filter, List.contains_iff_mem] at hf
    exact h.pend_nil f hf.1 hf.2
  have h2 : c.fibres.map (fun f => if (c.actives pl).contains f.idx then seenBy k reads f else f) = c.fibres := by
    refine map_self_of _ _ fun f hf => ?_
    by_cases hc : f.idx ∈ c.actives pl
    · simp [hc, seenBy_nil k reads f (h.pend_nil f hf hc)]
    · simp [hc]
  simp only [seenS_nil k reads _ c h1, h2]

theorem Quiet.hazard (h : Quiet s c pl f0) (mask : List Nat) (regs first : List (RegCls × Nat)) :
    hazard (c.fibres.filter (fun f => (c.actives pl).contains f.idx)) mask regs first = false := by
  unfold Machine.hazard
  rw [List.any_eq_false]
  intro f hf
  simp only [List.mem_filter, List.contains_iff_mem] at hf
  have := h.pend_nil f hf.1 hf.2
  simp [Fibre.pendOf_nil f _ this]

theorem Quiet.poison (h : Quiet s c pl f0) (mask : List Nat) (hm : ∀ i ∈ mask, i ∈ c.actives pl) (reads first : List (RegCls × Nat)) :
    poisonFault c ((c.fibres.filter (fun f => (c.actives pl).contains f.idx)).filter (fun f => mask.contains f.idx)) reads first = none := by
  have none_of : ∀ f ∈ c.fibres, f.idx ∈ mask → ∀ l, firstPoison c f l = none := by
    intro f hf hk l
    have hp := (h.calm f hf (hm _ hk)).2.2.1
    unfold firstPoison
    rw [List.findSome?_eq_none_iff]
    intro r _
    cases r.1 <;> simp [Fibre.poisonOf, Coil.poisonOf, hp, h.clean]
  unfold poisonFault
  simp only [Option.map_eq_none_iff]
  rw [List.findSome?_eq_none_iff]
  intro f hf
  simp only [List.mem_filter, List.contains_iff_mem] at hf
  exact none_of f hf.1.1 hf.2 _

theorem Quiet.unheld (h : Quiet s c pl f0) (p : Wait → Bool) (l : List Nat) (hl : ∀ i ∈ l, i ∈ c.actives pl) :
    c.waits.any (fun w => p w && w.fibres.any (fun i => l.contains i)) = false := by
  rw [List.any_eq_false]
  intro w hw
  have : w.fibres.any (fun i => l.contains i) = false := by
    rw [List.any_eq_false]
    intro i hi hc
    exact h.free w hw i (hl i (by simpa using hc)) hi
  simp only [this, Bool.and_false, Bool.false_eq_true, not_false_eq_true]

theorem Quiet.plait_mem (f : Fibre) (hf : f ∈ c.plait pl) : f ∈ c.fibres ∧ f.idx ∈ c.actives pl :=
  ⟨(List.mem_filter.mp hf).1, List.mem_map_of_mem hf⟩

theorem maskOf_masked (n : Info) (c : Coil) (pl : Place) :
    maskOf n (c.fibres.filter (fun f => (c.actives pl).contains f.idx)) = c.masked pl (fun f => f.getP n.gsel != n.gneg) := rfl

theorem masked_sub (c : Coil) (pl : Place) (g : Fibre → Bool) : ∀ i ∈ c.masked pl g, i ∈ c.actives pl := by
  intro i hi
  simp only [Coil.masked, List.mem_map, List.mem_filter, List.contains_iff_mem] at hi
  obtain ⟨f, ⟨⟨_, ha⟩, _⟩, rfl⟩ := hi
  exact ha

theorem Quiet.may (h : Quiet s c pl f0) (n : Info) : mayIssue n c (c.plait pl) = true := by
  have ha : (c.plait pl).all (fun f => decide (f.cf &&& n.flags = 0)) = true := by
    rw [List.all_eq_true]
    intro f hf
    have hm := Quiet.plait_mem (pl := pl) f hf
    simp [(h.calm f hm.1 hm.2).1]
  have hh : (c.plait pl).any (fun f => decide (f.holds > 0)) = false := by
    rw [List.any_eq_false]
    intro f hf
    have hm := Quiet.plait_mem (pl := pl) f hf
    simp [(h.calm f hm.1 hm.2).2.2.2]
  have hb : c.heldBack ((c.plait pl).map Fibre.idx) = false := h.unheld _ _ (fun i hi => hi)
  have hq : c.acquiring (maskOf n (c.plait pl)) = false := by
    refine h.unheld _ _ (fun i hi => ?_)
    obtain ⟨f, hf, rfl⟩ := List.mem_map.mp hi
    exact List.mem_map_of_mem (List.mem_filter.mp hf).1
  simp only [mayIssue, ha, hb, hh, hq]
  cases n.commits <;> cases n.ordered <;> rfl

/-- The issue record of an instruction in a quiet plait. -/
def Quiet.iss (n : Info) (s : State) (c : Coil) (pl : Place) (f0 : Fibre) : Iss :=
  ⟨s.draw.2, c, c, pl, f0.pc, n.words, c.actives pl, c.masked pl (fun f => f.getP n.gsel != n.gneg), [], n.setf, []⟩

/-- In a quiet plait with a fibre whose guard holds, an instruction has its effect (02_encoding.md R33 to R45). -/
theorem issue_quiet (h : Quiet s c pl f0) (n : Info) (eff : Iss → Res)
    (hm : c.masked pl (fun f => f.getP n.gsel != n.gneg) ≠ []) :
    issue n eff s =
      .next (match eff (Quiet.iss n s c pl f0) with
        | .ok x => finish n c x
        | .trap t x => x.s.takeTrap (c.counted pl) pl (c.actives pl) (c.masked pl (fun f => f.getP n.gsel != n.gneg)) f0.pc n.words t
        | .late t x => x.s.takeTrap (x.c.counted pl) pl (c.actives pl) (c.masked pl (fun f => f.getP n.gsel != n.gneg)) f0.pc n.words t
        | .stop r x => x.s.stopAt c pl r
        | .stall => s.stall
        | .gone s' => s') := by
  have hcons : ∃ r, c.plait pl = f0 :: r := by
    have := h.first
    cases hp : c.plait pl with
    | nil => simp [hp] at this
    | cons a r => exact ⟨r, by simp_all⟩
  obtain ⟨r, hr⟩ := hcons
  have hmay := h.may n
  have hact : (f0 :: r).map Fibre.idx = c.actives pl := by simp [Coil.actives, hr]
  rw [hr] at hmay
  simp only [issue, h.turn, h.coil, hr, h.lend, issueIn, hmay, hact, h.age, h.seen, h.hazard, maskOf_masked]
  have hne : (c.masked pl (fun f => f.getP n.gsel != n.gneg)).isEmpty = false := by
    cases hx : c.masked pl (fun f => f.getP n.gsel != n.gneg) with
    | nil => exact absurd hx hm
    | cons => rfl
  simp only [hne, h.own, Option.isSome_none, h.poison _ (masked_sub c pl _), Quiet.iss]
  simp only [Bool.not_true, Bool.false_eq_true, if_false, Bool.false_and, Bool.and_false, Bool.not_false]
  all_goals (cases eff _ <;> rfl)

end

/-! ## The outcome of an issue -/

/-- Issuing answers a next state exactly where a plait has the turn, and that state is what its issue leaves. -/
theorem issue_inv {n : Info} {eff : Iss → Res} {s t : State} (h : issue n eff s = .next t) :
    ∃ id pl c f r, s.turn = .plait id pl ∧ s.coil? id = some c ∧ c.plait pl = f :: r ∧ t = issueIn n eff s (s.lend c) pl (f :: r) f.pc := by
  unfold issue at h
  split at h
  · split at h
    · cases h
    · split at h
      · cases h
      · cases h
        exact ⟨_, _, _, _, _, ‹_›, ‹_›, ‹_›, rfl⟩
  · cases h

theorem issue_next {s : State} {id : Nat} {pl : Place} {c : Coil} {f : Fibre} {r : List Fibre} (n : Info) (eff : Iss → Res)
    (ht : s.turn = .plait id pl) (hc : s.coil? id = some c) (hf : c.plait pl = f :: r) :
    issue n eff s = .next (issueIn n eff s (s.lend c) pl (f :: r) f.pc) := by
  simp only [issue, ht, hc, hf]

/-- While an instruction may not issue, it changes nothing but the turn (02_encoding.md R40). -/
theorem issueIn_stall (n : Info) (eff : Iss → Res) (s : State) (c : Coil) (pl : Place) (l : List Fibre) (pc : BitVec 64)
    (h : mayIssue n c l = false) : issueIn n eff s c pl l pc = s.stall := by
  simp [issueIn, h]

/-- A taken exception of a fibre that has no handler running, delivered to a handler, puts its fibres there (15_system.md R412). -/
theorem State.takeTrap_handler (s : State) (c : Coil) (pl : Place) (act who : List Nat) (pc : BitVec 64) (words : Nat) (t : Trap)
    (hr : ∀ f ∈ c.fibres, f.recov = none) (hh : ∀ f ∈ c.fibres, f.idx ∈ who → f.handler = false)
    (hd : t.delivery = .handler) (ht : c.trap.takes t.code = true) :
    s.takeTrap c pl act who pc words t =
      let d := (c.onFibres who (fun f => f.enter t pc words c.trap.hvec)).onFibres (act.filter (fun i => !who.contains i))
        (fun f => f.retire pc (4 * words) .fall)
      (s.split d pl).1.setCoil (s.split d pl).2 := by
  have h1 : ∀ l : List Fibre, (∀ f ∈ l, f ∈ c.fibres) → l.findSome? Fibre.recov = none := fun l hl =>
    List.findSome?_eq_none_iff.mpr (fun f hf => hr f (hl f hf))
  have h2 : (c.fibres.filter (fun f => who.contains f.idx)).find? (fun f => f.handler) = none := by
    rw [List.find?_eq_none]
    intro f hf
    simp only [List.mem_filter, List.contains_iff_mem] at hf
    simp [hh f hf.1 hf.2]
  unfold State.takeTrap
  simp only []
  rw [h1]
  · simp only [h2, hd, ht, if_true]
  · intro f hf
    simp only [List.mem_append, List.mem_filter] at hf
    rcases hf with hf | hf
    · exact hf.1.1
    · exact hf.1

end Sys2Proof.Machine
end

