-- ==== Sys2Proof/Laws/Finish.lean ====
section
/-! SUPPORT. What follows an effect (02_encoding.md R41, R44; 06_control.md R147, R148): the pending writes, the flag, the place and the
PC change, and nothing else. -/

namespace Sys2Proof.Machine

/-! ## Likeness -/

theorem Fibre.Like.refl (f : Fibre) : f.Like f := rfl

theorem Fibre.Like.trans {f g k : Fibre} (h : f.Like g) (h' : g.Like k) : f.Like k := by
  unfold Fibre.Like at *
  rw [← h', ← h]

theorem Fibre.Like.idx {f g : Fibre} (h : f.Like g) : f.idx = g.idx := by
  have := congrArg Fibre.idx h
  exact this

theorem Fibre.Like.handler {f g : Fibre} (h : f.Like g) : f.handler = g.handler := by
  have := congrArg Fibre.handler h
  exact this

theorem Fibre.Like.outer {f g : Fibre} (h : f.Like g) : f.outer = g.outer := by
  have := congrArg Fibre.outer h
  exact this

theorem Coil.Like.refl (c : Coil) : c.Like c := rfl

theorem Coil.Like.trans {c d e : Coil} (h : c.Like d) (h' : d.Like e) : c.Like e := by
  unfold Coil.Like at *
  rw [← h', ← h]

/-- Where a fibre stands, with its loop levels. -/
def Fibre.stand (f : Fibre) : List Loop × BitVec 64 := (f.loops, f.pc)

/-- A fibre after a change that leaves where it stands and what its way on depends on. -/
def Fibre.Keeps (g f : Fibre) : Prop := g.idx = f.idx ∧ g.stand = f.stand ∧ g.handler = f.handler ∧ g.outer = f.outer

theorem Fibre.Keeps.refl (f : Fibre) : f.Keeps f := ⟨rfl, rfl, rfl, rfl⟩
theorem Fibre.Keeps.trans {f g k : Fibre} (h : f.Keeps g) (h' : g.Keeps k) : f.Keeps k :=
  ⟨h.1.trans h'.1, h.2.1.trans h'.2.1, h.2.2.1.trans h'.2.2.1, h.2.2.2.trans h'.2.2.2⟩

/-- One change after another, the first of which only moves fibres. -/
theorem Coil.Moves.trans {c d e : Coil} {g : Fibre → Fibre} {p q r : Fibre → List Loop × BitVec 64} (h : c.Moves d (fun f => f) p)
    (h' : d.Moves e g r) (hp : ∀ f f', f'.Like (g f) → f'.stand = r f → p f' = q f) : c.Moves e g q := by
  refine ⟨h.1.trans h'.1, fun k f hf => ?_⟩
  obtain ⟨f1, h1, l1, p1⟩ := h'.2 k f hf
  obtain ⟨f2, h2, l2, p2⟩ := h.2 k f1 h1
  exact ⟨f2, h2, l2.trans l1, p2.trans (hp f f1 l1 p1)⟩

/-- A coil with the same fibres. -/
theorem Coil.moves_of_eq {c d : Coil} (h : d.fibres = c.fibres) : d.Moves c (fun f => f) Fibre.stand := by
  refine ⟨by simp [Coil.live, h], fun k f hf => ⟨f, ?_, rfl, rfl⟩⟩
  rwa [Coil.fibre?, h]

/-- Changes of fibres that leave each like itself. -/
theorem Coil.moves_of_map {c d : Coil} {g : Fibre → Fibre} {dest : Fibre → List Loop × BitVec 64} (h : d.fibres = c.fibres.map g)
    (hg : ∀ f, (g f).Like f ∧ (g f).stand = dest f) : d.Moves c (fun f => f) dest := by
  refine ⟨?_, fun k f hf => ?_⟩
  · simp only [Coil.live, h, List.map_map]
    exact List.map_congr_left (fun f _ => Fibre.Like.idx (hg f).1)
  · exact ⟨g f, by rw [Coil.fibre?_map h (fun f => Fibre.Like.idx (hg f).1), hf]; rfl, (hg f).1, (hg f).2⟩

/-! ## Pending writes and flags -/

/-- The fibre is like another and stands where it stands. -/
def Fibre.Same (f g : Fibre) : Prop := f.Like g ∧ f.stand = g.stand

theorem Fibre.Same.refl (f : Fibre) : f.Same f := ⟨rfl, rfl⟩

theorem Fibre.Same.trans {f g k : Fibre} (h : f.Same g) (h' : g.Same k) : f.Same k := ⟨h.1.trans h'.1, h.2.trans h'.2⟩

theorem Fibre.addPend_same (old f : Fibre) (s : Coil) (n : Info) (known : Bool) (k : Nat) (r : RegCls × Nat) (h : old.pend = []) :
    (Fibre.addPend old f s n known k r).Same f := by
  simp [Fibre.addPend, Fibre.pendOf_nil old r h, Fibre.Same, Fibre.Like, Fibre.stand]

theorem Fibre.addPends_same (old f : Fibre) (s : Coil) (n : Info) (known : Bool) (k : Nat) (masked : Bool) (h : old.pend = []) :
    (Fibre.addPends old f s n known k masked).Same f := by
  unfold Fibre.addPends
  induction n.writes generalizing f with
  | nil => exact Fibre.Same.refl f
  | cons r l ih =>
    rw [List.foldl_cons]
    split
    · exact (ih _).trans (Fibre.addPend_same old f s n known k r h)
    · exact ih f

theorem Fibre.mark_same (f : Fibre) (setf : Option Nat) : (f.mark setf).Same f := by cases setf <;> exact ⟨rfl, rfl⟩

theorem Fibre.retire_like (f : Fibre) (y : BitVec 64) (n : Nat) (lv : Leave) : (f.retire y n lv).Like f := rfl

theorem Coil.clash_nil (before c : Coil) (n : Info) (k : Nat) (act : List Nat)
    (h : ∀ f ∈ before.fibres, f.idx ∈ act → f.pend = []) : before.clash c n k act = c := by
  refine foldl_fixed _ _ _ (fun r _ => ?_)
  have : (before.fibres.filter (fun f => act.contains f.idx)).findSome? (fun f => (f.pendOf r).map (fun e => (f, e))) = none := by
    rw [List.findSome?_eq_none_iff]
    intro f hf
    simp only [List.mem_filter, List.contains_iff_mem] at hf
    simp [Fibre.pendOf_nil f r (h f hf.1 hf.2)]
  rw [this]
  split <;> rfl

/-- The fibres that follow an effect. -/
theorem Coil.pendWrites_moves (before c : Coil) (n : Info) (k : Nat) (act mask early : List Nat)
    (h : ∀ f ∈ before.fibres, f.idx ∈ act → f.pend = []) :
    (before.pendWrites c n k act mask early).Moves c (fun f => f) Fibre.stand := by
  unfold Coil.pendWrites
  rw [Coil.clash_nil before c n k act h]
  refine Coil.moves_of_map rfl (fun g => ?_)
  split
  · rename_i ha
    cases hb : before.fibre? g.idx with
    | none => exact Fibre.Same.refl g
    | some old =>
      have hp : old.pend = [] := h old (Coil.fibre?_mem hb) (by rw [Coil.fibre?_idx hb]; simpa using ha)
      exact (Fibre.mark_same _ _).trans (Fibre.addPends_same old g before n _ k _ hp)
  · exact Fibre.Same.refl g

/-! ## Splits -/

/-- A split moves fibres to other places, and numbers the places. -/
theorem State.split_like (s : State) (c : Coil) (pl : Place) :
    (∃ k, (s.split c pl).1 = { s with nextId := k }) ∧ (s.split c pl).2.Like c ∧ (s.split c pl).2.Moves c (fun f => f) Fibre.stand
      ∧ (s.split c pl).2.fibres.length = c.fibres.length := by
  have same : (∃ k, s = { s with nextId := k }) ∧ c.Like c ∧ c.Moves c (fun f => f) Fibre.stand ∧ c.fibres.length = c.fibres.length :=
    ⟨⟨s.nextId, rfl⟩, rfl, Coil.moves_of_eq rfl, rfl⟩
  unfold State.split
  simp only []
  cases pcsOf (c.atPlace pl) with
  | nil => exact same
  | cons p others =>
  cases others with
  | nil => exact same
  | cons q r =>
  refine ⟨⟨_, rfl⟩, rfl, ?_, by simp⟩
  refine Coil.moves_of_map rfl (fun g => ?_)
  split
  · split <;> exact ⟨rfl, rfl⟩
  · exact ⟨rfl, rfl⟩

/-- Where the fibres of a list come to stand; the others stay. -/
def Leaves.dest (lv : Leaves) (l : List Nat) (y : BitVec 64) (n : Nat) (f : Fibre) : List Loop × BitVec 64 :=
  if l.contains f.idx then f.onward y n (leaveOf lv f.idx) else f.stand

theorem Coil.onFibres_moves (c : Coil) (l : List Nat) (y : BitVec 64) (n : Nat) (lv : Leaves) :
    (c.onFibres l (fun f => f.retire y n (leaveOf lv f.idx))).Moves c (fun f => f) (Leaves.dest lv l y n) := by
  refine Coil.moves_of_map rfl (fun f => ?_)
  unfold Leaves.dest
  split
  · exact ⟨f.retire_like y n _, rfl⟩
  · exact ⟨rfl, rfl⟩

/-- Retiring moves the fibres of a list on. -/
theorem State.retire_like (s : State) (c : Coil) (pl : Place) (l : List Nat) (y : BitVec 64) (n : Nat) (lv : Leaves) :
    (∃ k, (s.retire c pl l y n lv).1 = { s with nextId := k }) ∧ (s.retire c pl l y n lv).2.Like c
      ∧ (s.retire c pl l y n lv).2.Moves c (fun f => f) (Leaves.dest lv l y n) ∧ (s.retire c pl l y n lv).2.fibres.length = c.fibres.length := by
  unfold State.retire
  obtain ⟨h1, h2, h3, h4⟩ := s.split_like (c.onFibres l (fun f => f.retire y n (leaveOf lv f.idx))) pl
  refine ⟨h1, ?_, h3.trans (c.onFibres_moves l y n lv) (fun f f' _ hp => hp), h4.trans (by simp [Coil.onFibres])⟩
  unfold Coil.Like Coil.onFibres at *
  have := congrArg (fun d : Coil => { d with fibres := c.fibres }) h2
  exact this

/-- What a fibre's way on depends on (06_control.md R158; 15_system.md R412). -/
theorem Leaves.dest_congr (lv : Leaves) (l : List Nat) (y : BitVec 64) (n : Nat) {f f' : Fibre} (hi : f'.idx = f.idx) (hs : f'.stand = f.stand)
    (hh : f'.handler = f.handler) (ho : f'.outer = f.outer) : Leaves.dest lv l y n f' = Leaves.dest lv l y n f := by
  have hl : f'.loops = f.loops := congrArg Prod.fst hs
  unfold Leaves.dest Fibre.onward Fibre.ownLoops Fibre.outerLoops
  rw [hi, hs, hh, ho, hl]

/-- An instruction that has executed moves its plait on and is counted. -/
theorem finish_tail (s : State) (w : Coil) (pl : Place) (act : List Nat) (y : BitVec 64) (k : Nat) (lv : Leaves) (hne : w.fibres ≠ []) :
    ∃ c' m, ((s.retire { w with instrs := w.instrs + 1, ignoreWatch := w.ignoreWatch.filter (fun p => p ≠ pl), deadlock := false,
                                stalled := w.stalled.filter (fun i => !act.contains i) } pl act y k lv).1.putOrEnd
              (s.retire { w with instrs := w.instrs + 1, ignoreWatch := w.ignoreWatch.filter (fun p => p ≠ pl), deadlock := false,
                                 stalled := w.stalled.filter (fun i => !act.contains i) } pl act y k lv).2)
        = { s with nextId := m }.setCoil c' ∧ c'.Like w ∧ c'.Moves w (fun f => f) (Leaves.dest lv act y k) := by
  generalize hc1 : ({ w with instrs := w.instrs + 1, ignoreWatch := w.ignoreWatch.filter (fun p => p ≠ pl), deadlock := false,
                             stalled := w.stalled.filter (fun i => !act.contains i) } : Coil) = c1
  have h2 : c1.Like w := by subst hc1; rfl
  have h3 : c1.fibres = w.fibres := by subst hc1; rfl
  obtain ⟨⟨m, hm⟩, hl, he, hn⟩ := s.retire_like c1 pl act y k lv
  refine ⟨_, m, ?_, hl.trans h2, he.trans (Coil.moves_of_eq h3) (fun f f' hk hs => ?_)⟩
  · have h0 : (s.retire c1 pl act y k lv).2.fibres.isEmpty = false := by
      rw [List.isEmpty_eq_false_iff, ← List.length_pos_iff, hn, h3]
      exact List.length_pos_iff.mpr hne
    simp only [State.putOrEnd, h0, Bool.false_and, Bool.false_eq_true, if_false, hm]
  · exact Leaves.dest_congr lv act y k hk.idx hs hk.handler hk.outer

/-- What follows an effect in a plait with no pending write (02_encoding.md R41, R44). -/
theorem finish_like (n : Info) (before : Coil) (x : Iss) (h : ∀ f ∈ before.fibres, f.idx ∈ x.act → f.pend = [])
    (hne : x.c.fibres ≠ []) :
    ∃ c' k, finish n before x = { x.s with free := x.s.free + 1, nextId := k }.setCoil c' ∧ c'.Like x.c
      ∧ c'.Moves x.c (fun f => f) (Leaves.dest x.leaves x.act x.pc (4 * n.words)) := by
  have hw := Coil.pendWrites_moves before x.c { n with setf := x.setf } x.s.draw.1 x.act x.mask x.early h
  have hwf : (before.pendWrites x.c { n with setf := x.setf } x.s.draw.1 x.act x.mask x.early).fibres ≠ [] := by
    simpa [Coil.pendWrites] using hne
  have hwl : (before.pendWrites x.c { n with setf := x.setf } x.s.draw.1 x.act x.mask x.early).Like x.c := by
    simp only [Coil.pendWrites, Coil.clash_nil before x.c _ _ _ h]
    rfl
  obtain ⟨c', k, h1, h2, h3⟩ := finish_tail x.s.draw.2 _ x.place x.act x.pc (4 * n.words) x.leaves hwf
  refine ⟨c', k, h1, h2.trans hwl, h3.trans hw (fun f f' hk hs => ?_)⟩
  exact Leaves.dest_congr _ _ _ _ hk.idx hs hk.handler hk.outer

end Sys2Proof.Machine
end

