-- ==== Sys2Proof/Laws/Goes.lean ====
section
/-! SUPPORT. How an instruction in a quiet plait executes, by the kind of effect it has. -/

namespace Sys2Proof.Machine

theorem State.Like.refl (s : State) (id : Nat) : s.Like s id := ⟨rfl, fun _ _ => rfl⟩

theorem State.Like.trans {s t u : State} {id : Nat} (h : s.Like t id) (h' : t.Like u id) : s.Like u id :=
  ⟨by rw [← h'.1, ← h.1], fun k hk => (h.2 k hk).trans (h'.2 k hk)⟩

theorem State.like_setCoil (s : State) (c : Coil) (n k : Nat) : s.Like ({ s with free := n, nextId := k }.setCoil c) c.id :=
  ⟨rfl, fun i hi => by rw [State.coil?_setCoil, if_neg hi]; rfl⟩

/-- What an effect that is carried out leads to. -/
theorem finish_goes {n : Info} {before : Coil} {x : Iss} {c : Coil} (h : ∀ f ∈ before.fibres, f.idx ∈ x.act → f.pend = [])
    (hne : x.c.fibres ≠ []) (hid : x.c.id = c.id) (hcoil : (x.s.coil? c.id).isSome) :
    ∃ c', x.s.Like (finish n before x) c.id ∧ (finish n before x).coil? c.id = some c' ∧ c'.Like x.c
      ∧ c'.Moves x.c (fun f => f) (Leaves.dest x.leaves x.act x.pc (4 * n.words)) := by
  obtain ⟨c', k, hf, hl, he⟩ := finish_like n before x h hne
  have hc : c'.id = c.id := (congrArg Coil.id hl).trans hid
  refine ⟨c', ?_, ?_, hl, he⟩
  · rw [hf, ← hc]
    exact x.s.like_setCoil c' _ k
  · rw [hf, State.coil?_setCoil, if_pos hc.symm]
    obtain ⟨d, hd⟩ := Option.isSome_iff_exists.mp hcoil
    show Option.map _ (x.s.coil? c.id) = _
    rw [hd]
    rfl

section
variable {s u : State} {c d : Coil} {pl : Place} {f0 : Fibre} {n : Info} {i : Instr} {g : Fibre → Fibre}

theorem Ready.fibres_ne {guard : Fibre → Bool} (h : Ready s c pl f0 guard) : c.fibres ≠ [] := by
  intro he
  apply h.2
  simp [Coil.masked, he]

/-- An instruction whose effect is carried out executes, and its plait goes where the effect's leaves say; `e` is the coil whose fibres it moves. -/
theorem goesTo_of_ok {eff : Iss → Res} {x : Iss} {e : Coil} (h : Ready s c pl f0 (fun f => f.getP n.gsel != n.gneg))
    (he : exec i s = issue n eff s) (hr : eff (Quiet.iss n s c pl f0) = .ok x) (hact : ∀ k ∈ x.act, k ∈ c.actives pl) (hid : x.c.id = e.id)
    (hec : e.id = c.id) (hne : x.c.fibres ≠ []) (hcoil : (x.s.coil? c.id).isSome) (hu : u.Like x.s c.id) (hl : x.c.Like d)
    (hg : x.c.Moves e g Fibre.stand) (hk : ∀ f, (g f).Keeps f) :
    GoesTo i s u e d g (Leaves.dest x.leaves x.act x.pc (4 * n.words)) := by
  obtain ⟨c', h1, h2, h3, h4⟩ := finish_goes (n := n) (before := c) (x := x) (c := c) (fun f hf ha => h.1.pend_nil f hf (hact _ ha)) hne
    (hid.trans hec) hcoil
  refine ⟨_, c', ?_, hec.symm ▸ hu.trans h1, hec.symm ▸ h2, h3.trans hl, h4.trans hg (fun f f' hf hs => ?_)⟩
  · rw [he, issue_quiet h.1 n eff h.2, hr]
  · exact Leaves.dest_congr _ _ _ _ (hf.idx.trans (hk f).1) hs (hf.handler.trans (hk f).2.2.1) (hf.outer.trans (hk f).2.2.2)

/-- A plait that falls through goes past the instruction. -/
theorem Ready.past {guard : Fibre → Bool} (h : Ready s c pl f0 guard) (i : Instr) :
    s.past i = Leaves.dest [] (c.actives pl) f0.pc (4 * i.form.words) := by
  funext f
  simp only [State.past, h.1.turn, h.1.coil, h.1.first, Option.map_some, Option.getD_some, Coil.leaving, Leaves.dest, List.contains_iff_mem]
  rfl

/-- An instruction whose effect is carried out, and leaves its plait to fall through, executes. -/
theorem goes_of_ok {eff : Iss → Res} {x : Iss} {e : Coil} (h : Ready s c pl f0 (fun f => f.getP n.gsel != n.gneg))
    (he : exec i s = issue n eff s) (hr : eff (Quiet.iss n s c pl f0) = .ok x) (hact : x.act = c.actives pl) (hpc : x.pc = f0.pc)
    (hlv : x.leaves = []) (hw : n.words = i.form.words) (hid : x.c.id = e.id) (hec : e.id = c.id) (hne : x.c.fibres ≠ [])
    (hcoil : (x.s.coil? c.id).isSome) (hu : u.Like x.s c.id) (hl : x.c.Like d) (hg : x.c.Moves e g Fibre.stand) (hk : ∀ f, (g f).Keeps f) :
    Goes i s u e d g := by
  have := goesTo_of_ok (u := u) (d := d) h he hr (fun k hk => hact ▸ hk) hid hec hne hcoil hu hl hg hk
  rwa [hact, hpc, hlv, hw, ← h.past i] at this

/-- An instruction whose effect only touches its own coil executes. -/
theorem goes_of_coil {eff : Iss → Iss} {e : Coil} (h : Ready s c pl f0 (fun f => f.getP n.gsel != n.gneg)) (he : exec i s = issueOk n eff s)
    (hw : n.words = i.form.words) (hr : eff (Quiet.iss n s c pl f0) = { Quiet.iss n s c pl f0 with c := e }) (hid : e.id = c.id)
    (hne : e.fibres ≠ []) (hl : e.Like d) (hg : e.Moves c g Fibre.stand) (hk : ∀ f, (g f).Keeps f) :
    Goes i s s c d g := by
  refine goes_of_ok (x := { Quiet.iss n s c pl f0 with c := e }) h he (by rw [← hr]) rfl rfl rfl hw hid rfl hne ?_ ⟨rfl, fun _ _ => rfl⟩ hl hg hk
  show (s.coil? c.id).isSome
  rw [h.1.coil]
  rfl

/-! ## Effects on the fibres of the mask -/

/-- What a computation in the mask leaves: each fibre of the mask as its old state and itself say. -/
theorem Iss.onMask_moves (x : Iss) (pl : Place) (guard : Fibre → Bool) (G : Fibre → Fibre → Fibre) (hs : x.src = x.c)
    (hm : x.mask = x.c.masked pl guard) (hG : ∀ o f, (G o f).Keeps f) :
    (x.onMask G).c.Moves x.c (x.c.within pl guard (fun f => G f f)) Fibre.stand := by
  have hi : ∀ f : Fibre, (if x.mask.contains f.idx then match x.src.fibre? f.idx with | some o => G o f | none => f else f).idx = f.idx := by
    intro f
    split
    · split
      · exact (hG _ _).1
      · rfl
    · rfl
  refine ⟨by simp only [Coil.live, Iss.onMask, List.map_map]; exact List.map_congr_left (fun f _ => hi f), ?_⟩
  intro k f hf
  have hk : f.idx = k := Coil.fibre?_idx hf
  refine ⟨_, by
    rw [Coil.fibre?_map (c := x.c) (d := (x.onMask G).c) rfl hi, hf]
    rfl, ?_⟩
  unfold Coil.within
  rw [hs, hm]
  by_cases h : f.idx ∈ x.c.masked pl guard
  · simp only [List.contains_iff_mem, h, if_true]
    rw [hk, hf]
    exact ⟨Fibre.Like.refl _, (hG _ _).2.1⟩
  · simp only [List.contains_iff_mem, h, if_false]
    exact Fibre.Same.refl _

theorem Coil.within_keeps {guard : Fibre → Bool} {G : Fibre → Fibre} (hG : ∀ f, (G f).Keeps f) (f : Fibre) :
    (c.within pl guard G f).Keeps f := by
  unfold Coil.within
  split
  · exact hG f
  · exact Fibre.Keeps.refl f

theorem Iss.onMask_fibres_ne (x : Iss) (G : Fibre → Fibre → Fibre) (h : x.c.fibres ≠ []) : (x.onMask G).c.fibres ≠ [] := by
  simpa [Iss.onMask] using h

/-- An instruction that computes in each fibre of its mask executes. -/
theorem goes_onMask {guard : Fibre → Bool} {eff : Iss → Iss} (G : Fibre → Fibre → Fibre) (hG : ∀ o f, (G o f).Keeps f)
    (h : Ready s c pl f0 guard) (hn : guard = fun f => f.getP n.gsel != n.gneg) (he : exec i s = issueOk n eff s) (hw : n.words = i.form.words)
    (hr : eff (Quiet.iss n s c pl f0) = (Quiet.iss n s c pl f0).onMask G) : Goes i s s c c (c.within pl guard (fun f => G f f)) := by
  subst hn
  exact goes_of_coil (e := ((Quiet.iss n s c pl f0).onMask G).c) h he hw hr rfl (Iss.onMask_fibres_ne _ G h.fibres_ne) rfl
    (Iss.onMask_moves (Quiet.iss n s c pl f0) pl _ G rfl rfl hG) (Coil.within_keeps (fun f => hG f f))

theorem Fibre.put_keeps (f : Fibre) (w : Bool) (d : Nat) (v : DWord) : (f.put w d v).Keeps f := by cases w <;> exact ⟨rfl, rfl, rfl, rfl⟩
theorem Fibre.setP_keeps (f : Fibre) (n : Nat) (b : Bool) : (f.setP n b).Keeps f := by
  unfold Fibre.setP
  split <;> exact ⟨rfl, rfl, rfl, rfl⟩
theorem Fibre.raise_keeps (f : Fibre) (w : Word) : (f.raise w).Keeps f := ⟨rfl, rfl, rfl, rfl⟩

theorem Ready.lowest {guard : Fibre → Bool} (h : Ready s c pl f0 guard) : ∃ f, c.lowest pl guard = some f := by
  unfold Coil.lowest
  cases hm : c.masked pl guard with
  | nil => exact absurd hm h.2
  | cons a r =>
    have ha : a ∈ c.masked pl guard := by simp [hm]
    simp only [Coil.masked, List.mem_map, List.mem_filter] at ha
    obtain ⟨f, ⟨⟨hf, -⟩, -⟩, rfl⟩ := ha
    have : (c.fibre? f.idx).isSome := by
      unfold Coil.fibre?
      rw [List.find?_isSome]
      exact ⟨f, hf, by simp⟩
    exact Option.isSome_iff_exists.mp this

theorem Quiet.iss_lowest (h : Ready s c pl f0 (fun f => f.getP n.gsel != n.gneg)) :
    (Quiet.iss n s c pl f0).lowest = c.lowest pl (fun f => f.getP n.gsel != n.gneg) := by
  obtain ⟨f, hf⟩ := h.lowest
  rw [hf]
  unfold Iss.lowest Iss.lanes
  unfold Coil.lowest at hf
  show (List.filterMap (fun i => c.fibre? i) (c.masked pl _)).head? = some f
  cases hm : c.masked pl (fun f => f.getP n.gsel != n.gneg) with
  | nil => exact absurd hm h.2
  | cons a r =>
    rw [hm] at hf
    have : c.fibre? a = some f := hf
    simp [this]

/-- Changes of a fibre by a write keep what the write does not name. -/
theorem goes_shared {guard : Fibre → Bool} {eff : Iss → Iss} {K : Coil → Fibre → Coil} {fl : Coil → Fibre → Word} {f : Fibre}
    (h : Ready s c pl f0 guard) (hn : guard = fun f => f.getP n.gsel != n.gneg) (he : exec i s = issueOk n eff s)
    (hw : n.words = i.form.words) (hr : eff (Quiet.iss n s c pl f0) = { (Quiet.iss n s c pl f0).raise (fl c f) with c := K ((Quiet.iss n s c pl f0).raise (fl c f)).c f })
    (hK : ∀ d l, K { d with fibres := l } f = { K d f with fibres := l }) (hF : ∀ d, (K d f).fibres = d.fibres) (hid : ∀ d, (K d f).id = d.id) :
    Goes i s s c (K c f) (c.within pl guard (fun o => o.raise (fl c f))) := by
  subst hn
  have hkc : K ((Quiet.iss n s c pl f0).raise (fl c f)).c f
      = { K c f with fibres := ((Quiet.iss n s c pl f0).raise (fl c f)).c.fibres } := hK c _
  refine goes_of_coil (e := K ((Quiet.iss n s c pl f0).raise (fl c f)).c f) h he hw (by rw [hr]; rfl) (hid _) ?_ ?_ ?_
    (Coil.within_keeps (fun o => o.raise_keeps _))
  · rw [hF]
    exact Iss.onMask_fibres_ne (Quiet.iss n s c pl f0) (fun _ o => o.raise (fl c f)) h.fibres_ne
  · rw [hkc]
    rfl
  · have h1 := Iss.onMask_moves (Quiet.iss n s c pl f0) pl _ (fun _ o => o.raise (fl c f)) rfl rfl (fun _ o => Fibre.raise_keeps o _)
    refine ⟨(by rw [Coil.live, hF]; exact h1.1), fun k o ho => ?_⟩
    obtain ⟨f', h2, h3⟩ := h1.2 k o ho
    refine ⟨f', ?_, h3⟩
    unfold Coil.fibre? at h2 ⊢
    rw [hF]
    exact h2

theorem Coil.put_lo (c : Coil) (w : Bool) (d : Nat) (x y : DWord) (h : if w then x = y else x.lo = y.lo) : c.put w d x = c.put w d y := by
  cases w <;> simp_all [Coil.put]
theorem Fibre.put_lo (f : Fibre) (w : Bool) (d : Nat) (x y : DWord) (h : if w then x = y else x.lo = y.lo) : f.put w d x = f.put w d y := by
  cases w <;> simp_all [Fibre.put]

/-- An instruction that computes a register executes (03_integer.md R61): only the low word of a 32-bit result matters. -/
theorem computes_of {guard : Fibre → Bool} {uni wide : Bool} {dd : Nat} {args : List Opnd} {op : List DWord → DWord × Word}
    {val : Coil → Fibre → DWord × Word} (he : ∀ s, exec i s = issueOk n (fun x => x.compute uni wide dd args op) s)
    (hn : guard = fun f => f.getP n.gsel != n.gneg) (hw : n.words = i.form.words)
    (hv : ∀ c f, (if wide then (op (args.map (Opnd.get c f))).1 = (val c f).1 else (op (args.map (Opnd.get c f))).1.lo = (val c f).1.lo)
      ∧ (op (args.map (Opnd.get c f))).2 = (val c f).2) : Computes i guard uni wide dd val := by
  cases uni with
  | false =>
    intro s c pl f0 h
    have e : (fun f : Fibre => (f.put wide dd (val c f).1).raise (val c f).2)
        = fun f => (f.put wide dd (op (args.map (Opnd.get c f))).1).raise (op (args.map (Opnd.get c f))).2 := by
      funext f
      rw [Fibre.put_lo f wide dd _ _ (hv c f).1, (hv c f).2]
    show Goes i s s c c (c.within pl guard (fun f : Fibre => (f.put wide dd (val c f).1).raise (val c f).2))
    rw [e]
    exact goes_onMask (fun o f => (f.put wide dd (op (args.map (Opnd.get c o))).1).raise (op (args.map (Opnd.get c o))).2)
      (fun o f => (Fibre.raise_keeps _ _).trans (f.put_keeps _ _ _)) h hn (he s) hw rfl
  | true =>
    intro s c pl f0 h
    obtain ⟨f, hf⟩ := h.lowest
    refine ⟨f, hf, ?_⟩
    refine goes_shared (K := fun d _ => d.put wide dd (val c f).1) (fl := fun _ _ => (val c f).2) (f := f) h hn (he s) hw ?_ ?_ ?_ ?_
    · subst hn
      have hl := (Quiet.iss_lowest h).trans hf
      show (match (Quiet.iss n s c pl f0).lowest with | none => _ | some f => _) = _
      rw [hl]
      show (Quiet.iss n s c pl f0).putS wide dd (op (args.map (Opnd.get c f))) = _
      unfold Iss.putS
      rw [Coil.put_lo _ wide dd _ _ (hv c f).1, (hv c f).2]
    · intro d l
      cases wide <;> rfl
    · intro d
      cases wide <;> rfl
    · intro d
      cases wide <;> rfl

/-- An instruction that computes a predicate executes (03_integer.md R73). -/
theorem goes_computeP {guard : Fibre → Bool} {dd : Nat} {args : List Opnd} {op : List DWord → Bool × Word} (h : Ready s c pl f0 guard)
    (hn : guard = fun f => f.getP n.gsel != n.gneg) (he : exec i s = issueOk n (fun x => x.computeP dd args op) s)
    (hw : n.words = i.form.words) :
    Goes i s s c c (c.within pl guard (fun f => (f.setP dd (op (args.map (Opnd.get c f))).1).raise (op (args.map (Opnd.get c f))).2)) :=
  goes_onMask (fun o f => (f.setP dd (op (args.map (Opnd.get c o))).1).raise (op (args.map (Opnd.get c o))).2)
    (fun _ f => (Fibre.raise_keeps _ _).trans (f.setP_keeps dd _)) h hn he hw rfl

end

end Sys2Proof.Machine
end

