-- ==== Sys2Proof/Laws/State.lean ====
section
/-! SUPPORT. What each update of the state leaves of each field: one lemma for a field and an update. -/

namespace Sys2Proof.Machine

/-! ## The device -/

@[simp] theorem State.poke_poison (s : State) (pa : Nat) (d : List Byte) : (s.poke pa d).poison = s.poison := rfl
@[simp] theorem State.poke_coding (s : State) (pa : Nat) (d : List Byte) : (s.poke pa d).coding = s.coding := rfl
@[simp] theorem State.poke_sideDir (s : State) (pa : Nat) (d : List Byte) : (s.poke pa d).sideDir = s.sideDir := rfl
@[simp] theorem State.poke_l2keys (s : State) (pa : Nat) (d : List Byte) : (s.poke pa d).l2keys = s.l2keys := rfl
@[simp] theorem State.poke_skeys (s : State) (pa : Nat) (d : List Byte) : (s.poke pa d).skeys = s.skeys := rfl
@[simp] theorem State.poke_l1 (s : State) (pa : Nat) (d : List Byte) : (s.poke pa d).l1 = s.l1 := rfl
@[simp] theorem State.poke_icache (s : State) (pa : Nat) (d : List Byte) : (s.poke pa d).icache = s.icache := rfl
@[simp] theorem State.poke_coils (s : State) (pa : Nat) (d : List Byte) : (s.poke pa d).coils = s.coils := rfl
@[simp] theorem State.poke_launches (s : State) (pa : Nat) (d : List Byte) : (s.poke pa d).launches = s.launches := rfl
@[simp] theorem State.poke_rcbs (s : State) (pa : Nat) (d : List Byte) : (s.poke pa d).rcbs = s.rcbs := rfl
@[simp] theorem State.poke_spawns (s : State) (pa : Nat) (d : List Byte) : (s.poke pa d).spawns = s.spawns := rfl
@[simp] theorem State.poke_recovery (s : State) (pa : Nat) (d : List Byte) : (s.poke pa d).recovery = s.recovery := rfl
@[simp] theorem State.poke_sgstore (s : State) (pa : Nat) (d : List Byte) : (s.poke pa d).sgstore = s.sgstore := rfl
@[simp] theorem State.poke_sgcalls (s : State) (pa : Nat) (d : List Byte) : (s.poke pa d).sgcalls = s.sgcalls := rfl
@[simp] theorem State.poke_copies (s : State) (pa : Nat) (d : List Byte) : (s.poke pa d).copies = s.copies := rfl
@[simp] theorem State.poke_mxq (s : State) (pa : Nat) (d : List Byte) : (s.poke pa d).mxq = s.mxq := rfl
@[simp] theorem State.poke_scouts (s : State) (pa : Nat) (d : List Byte) : (s.poke pa d).scouts = s.scouts := rfl
@[simp] theorem State.poke_scrubs (s : State) (pa : Nat) (d : List Byte) : (s.poke pa d).scrubs = s.scrubs := rfl
@[simp] theorem State.poke_mccq (s : State) (pa : Nat) (d : List Byte) : (s.poke pa d).mccq = s.mccq := rfl
@[simp] theorem State.poke_qslots (s : State) (pa : Nat) (d : List Byte) : (s.poke pa d).qslots = s.qslots := rfl
@[simp] theorem State.poke_groups (s : State) (pa : Nat) (d : List Byte) : (s.poke pa d).groups = s.groups := rfl
@[simp] theorem State.poke_deltas (s : State) (pa : Nat) (d : List Byte) : (s.poke pa d).deltas = s.deltas := rfl
@[simp] theorem State.poke_scanned (s : State) (pa : Nat) (d : List Byte) : (s.poke pa d).scanned = s.scanned := rfl
@[simp] theorem State.poke_cores (s : State) (pa : Nat) (d : List Byte) : (s.poke pa d).cores = s.cores := rfl
@[simp] theorem State.poke_buckets (s : State) (pa : Nat) (d : List Byte) : (s.poke pa d).buckets = s.buckets := rfl
@[simp] theorem State.poke_regs (s : State) (pa : Nat) (d : List Byte) : (s.poke pa d).regs = s.regs := rfl
@[simp] theorem State.poke_rsc (s : State) (pa : Nat) (d : List Byte) : (s.poke pa d).rsc = s.rsc := rfl
@[simp] theorem State.poke_refclk (s : State) (pa : Nat) (d : List Byte) : (s.poke pa d).refclk = s.refclk := rfl
@[simp] theorem State.poke_coreclk (s : State) (pa : Nat) (d : List Byte) : (s.poke pa d).coreclk = s.coreclk := rfl
@[simp] theorem State.poke_coilSeq (s : State) (pa : Nat) (d : List Byte) : (s.poke pa d).coilSeq = s.coilSeq := rfl
@[simp] theorem State.poke_engines (s : State) (pa : Nat) (d : List Byte) : (s.poke pa d).engines = s.engines := rfl
@[simp] theorem State.poke_prof (s : State) (pa : Nat) (d : List Byte) : (s.poke pa d).prof = s.prof := rfl
@[simp] theorem State.poke_profClk (s : State) (pa : Nat) (d : List Byte) : (s.poke pa d).profClk = s.profClk := rfl
@[simp] theorem State.poke_out (s : State) (pa : Nat) (d : List Byte) : (s.poke pa d).out = s.out := rfl
@[simp] theorem State.poke_turn (s : State) (pa : Nat) (d : List Byte) : (s.poke pa d).turn = s.turn := rfl
@[simp] theorem State.poke_tried (s : State) (pa : Nat) (d : List Byte) : (s.poke pa d).tried = s.tried := rfl
@[simp] theorem State.poke_inputs (s : State) (pa : Nat) (d : List Byte) : (s.poke pa d).inputs = s.inputs := rfl
@[simp] theorem State.poke_rr (s : State) (pa : Nat) (d : List Byte) : (s.poke pa d).rr = s.rr := rfl
@[simp] theorem State.poke_free (s : State) (pa : Nat) (d : List Byte) : (s.poke pa d).free = s.free := rfl
@[simp] theorem State.poke_nextId (s : State) (pa : Nat) (d : List Byte) : (s.poke pa d).nextId = s.nextId := rfl
@[simp] theorem State.poke_mem (s : State) (pa : Nat) (d : List Byte) : (s.poke pa d).mem = cellsWrite s.mem pa d := rfl

@[simp] theorem State.draw_mem (s : State) : (s.draw.2).mem = s.mem := rfl
@[simp] theorem State.draw_poison (s : State) : (s.draw.2).poison = s.poison := rfl
@[simp] theorem State.draw_coding (s : State) : (s.draw.2).coding = s.coding := rfl
@[simp] theorem State.draw_sideDir (s : State) : (s.draw.2).sideDir = s.sideDir := rfl
@[simp] theorem State.draw_l2keys (s : State) : (s.draw.2).l2keys = s.l2keys := rfl
@[simp] theorem State.draw_skeys (s : State) : (s.draw.2).skeys = s.skeys := rfl
@[simp] theorem State.draw_l1 (s : State) : (s.draw.2).l1 = s.l1 := rfl
@[simp] theorem State.draw_icache (s : State) : (s.draw.2).icache = s.icache := rfl
@[simp] theorem State.draw_coils (s : State) : (s.draw.2).coils = s.coils := rfl
@[simp] theorem State.draw_launches (s : State) : (s.draw.2).launches = s.launches := rfl
@[simp] theorem State.draw_rcbs (s : State) : (s.draw.2).rcbs = s.rcbs := rfl
@[simp] theorem State.draw_spawns (s : State) : (s.draw.2).spawns = s.spawns := rfl
@[simp] theorem State.draw_recovery (s : State) : (s.draw.2).recovery = s.recovery := rfl
@[simp] theorem State.draw_sgstore (s : State) : (s.draw.2).sgstore = s.sgstore := rfl
@[simp] theorem State.draw_sgcalls (s : State) : (s.draw.2).sgcalls = s.sgcalls := rfl
@[simp] theorem State.draw_copies (s : State) : (s.draw.2).copies = s.copies := rfl
@[simp] theorem State.draw_mxq (s : State) : (s.draw.2).mxq = s.mxq := rfl
@[simp] theorem State.draw_scouts (s : State) : (s.draw.2).scouts = s.scouts := rfl
@[simp] theorem State.draw_scrubs (s : State) : (s.draw.2).scrubs = s.scrubs := rfl
@[simp] theorem State.draw_mccq (s : State) : (s.draw.2).mccq = s.mccq := rfl
@[simp] theorem State.draw_qslots (s : State) : (s.draw.2).qslots = s.qslots := rfl
@[simp] theorem State.draw_groups (s : State) : (s.draw.2).groups = s.groups := rfl
@[simp] theorem State.draw_deltas (s : State) : (s.draw.2).deltas = s.deltas := rfl
@[simp] theorem State.draw_scanned (s : State) : (s.draw.2).scanned = s.scanned := rfl
@[simp] theorem State.draw_cores (s : State) : (s.draw.2).cores = s.cores := rfl
@[simp] theorem State.draw_buckets (s : State) : (s.draw.2).buckets = s.buckets := rfl
@[simp] theorem State.draw_regs (s : State) : (s.draw.2).regs = s.regs := rfl
@[simp] theorem State.draw_rsc (s : State) : (s.draw.2).rsc = s.rsc := rfl
@[simp] theorem State.draw_refclk (s : State) : (s.draw.2).refclk = s.refclk := rfl
@[simp] theorem State.draw_coreclk (s : State) : (s.draw.2).coreclk = s.coreclk := rfl
@[simp] theorem State.draw_coilSeq (s : State) : (s.draw.2).coilSeq = s.coilSeq := rfl
@[simp] theorem State.draw_engines (s : State) : (s.draw.2).engines = s.engines := rfl
@[simp] theorem State.draw_prof (s : State) : (s.draw.2).prof = s.prof := rfl
@[simp] theorem State.draw_profClk (s : State) : (s.draw.2).profClk = s.profClk := rfl
@[simp] theorem State.draw_out (s : State) : (s.draw.2).out = s.out := rfl
@[simp] theorem State.draw_turn (s : State) : (s.draw.2).turn = s.turn := rfl
@[simp] theorem State.draw_tried (s : State) : (s.draw.2).tried = s.tried := rfl
@[simp] theorem State.draw_inputs (s : State) : (s.draw.2).inputs = s.inputs := rfl
@[simp] theorem State.draw_rr (s : State) : (s.draw.2).rr = s.rr := rfl
@[simp] theorem State.draw_nextId (s : State) : (s.draw.2).nextId = s.nextId := rfl
@[simp] theorem State.draw_free (s : State) : (s.draw.2).free = s.free + 1 := rfl

@[simp] theorem State.tick_mem (s : State) : (s.tick).mem = s.mem := rfl
@[simp] theorem State.tick_poison (s : State) : (s.tick).poison = s.poison := rfl
@[simp] theorem State.tick_coding (s : State) : (s.tick).coding = s.coding := rfl
@[simp] theorem State.tick_sideDir (s : State) : (s.tick).sideDir = s.sideDir := rfl
@[simp] theorem State.tick_l2keys (s : State) : (s.tick).l2keys = s.l2keys := rfl
@[simp] theorem State.tick_skeys (s : State) : (s.tick).skeys = s.skeys := rfl
@[simp] theorem State.tick_l1 (s : State) : (s.tick).l1 = s.l1 := rfl
@[simp] theorem State.tick_icache (s : State) : (s.tick).icache = s.icache := rfl
@[simp] theorem State.tick_coils (s : State) : (s.tick).coils = s.coils := rfl
@[simp] theorem State.tick_launches (s : State) : (s.tick).launches = s.launches := rfl
@[simp] theorem State.tick_rcbs (s : State) : (s.tick).rcbs = s.rcbs := rfl
@[simp] theorem State.tick_spawns (s : State) : (s.tick).spawns = s.spawns := rfl
@[simp] theorem State.tick_recovery (s : State) : (s.tick).recovery = s.recovery := rfl
@[simp] theorem State.tick_sgstore (s : State) : (s.tick).sgstore = s.sgstore := rfl
@[simp] theorem State.tick_sgcalls (s : State) : (s.tick).sgcalls = s.sgcalls := rfl
@[simp] theorem State.tick_copies (s : State) : (s.tick).copies = s.copies := rfl
@[simp] theorem State.tick_mxq (s : State) : (s.tick).mxq = s.mxq := rfl
@[simp] theorem State.tick_scouts (s : State) : (s.tick).scouts = s.scouts := rfl
@[simp] theorem State.tick_scrubs (s : State) : (s.tick).scrubs = s.scrubs := rfl
@[simp] theorem State.tick_mccq (s : State) : (s.tick).mccq = s.mccq := rfl
@[simp] theorem State.tick_qslots (s : State) : (s.tick).qslots = s.qslots := rfl
@[simp] theorem State.tick_groups (s : State) : (s.tick).groups = s.groups := rfl
@[simp] theorem State.tick_deltas (s : State) : (s.tick).deltas = s.deltas := rfl
@[simp] theorem State.tick_scanned (s : State) : (s.tick).scanned = s.scanned := rfl
@[simp] theorem State.tick_cores (s : State) : (s.tick).cores = s.cores := rfl
@[simp] theorem State.tick_buckets (s : State) : (s.tick).buckets = s.buckets := rfl
@[simp] theorem State.tick_regs (s : State) : (s.tick).regs = s.regs := rfl
@[simp] theorem State.tick_rsc (s : State) : (s.tick).rsc = s.rsc := rfl
@[simp] theorem State.tick_coilSeq (s : State) : (s.tick).coilSeq = s.coilSeq := rfl
@[simp] theorem State.tick_engines (s : State) : (s.tick).engines = s.engines := rfl
@[simp] theorem State.tick_prof (s : State) : (s.tick).prof = s.prof := rfl
@[simp] theorem State.tick_profClk (s : State) : (s.tick).profClk = s.profClk := rfl
@[simp] theorem State.tick_out (s : State) : (s.tick).out = s.out := rfl
@[simp] theorem State.tick_turn (s : State) : (s.tick).turn = s.turn := rfl
@[simp] theorem State.tick_tried (s : State) : (s.tick).tried = s.tried := rfl
@[simp] theorem State.tick_inputs (s : State) : (s.tick).inputs = s.inputs := rfl
@[simp] theorem State.tick_rr (s : State) : (s.tick).rr = s.rr := rfl
@[simp] theorem State.tick_nextId (s : State) : (s.tick).nextId = s.nextId := rfl
@[simp] theorem State.tick_free (s : State) : (s.tick).free = s.free + 1 := rfl

@[simp] theorem State.setCoil_mem (s : State) (c : Coil) : (s.setCoil c).mem = s.mem := rfl
@[simp] theorem State.setCoil_poison (s : State) (c : Coil) : (s.setCoil c).poison = s.poison := rfl
@[simp] theorem State.setCoil_coding (s : State) (c : Coil) : (s.setCoil c).coding = s.coding := rfl
@[simp] theorem State.setCoil_sideDir (s : State) (c : Coil) : (s.setCoil c).sideDir = s.sideDir := rfl
@[simp] theorem State.setCoil_l2keys (s : State) (c : Coil) : (s.setCoil c).l2keys = s.l2keys := rfl
@[simp] theorem State.setCoil_skeys (s : State) (c : Coil) : (s.setCoil c).skeys = s.skeys := rfl
@[simp] theorem State.setCoil_l1 (s : State) (c : Coil) : (s.setCoil c).l1 = s.l1 := rfl
@[simp] theorem State.setCoil_icache (s : State) (c : Coil) : (s.setCoil c).icache = s.icache := rfl
@[simp] theorem State.setCoil_launches (s : State) (c : Coil) : (s.setCoil c).launches = s.launches := rfl
@[simp] theorem State.setCoil_rcbs (s : State) (c : Coil) : (s.setCoil c).rcbs = s.rcbs := rfl
@[simp] theorem State.setCoil_spawns (s : State) (c : Coil) : (s.setCoil c).spawns = s.spawns := rfl
@[simp] theorem State.setCoil_recovery (s : State) (c : Coil) : (s.setCoil c).recovery = s.recovery := rfl
@[simp] theorem State.setCoil_sgstore (s : State) (c : Coil) : (s.setCoil c).sgstore = s.sgstore := rfl
@[simp] theorem State.setCoil_sgcalls (s : State) (c : Coil) : (s.setCoil c).sgcalls = s.sgcalls := rfl
@[simp] theorem State.setCoil_copies (s : State) (c : Coil) : (s.setCoil c).copies = s.copies := rfl
@[simp] theorem State.setCoil_mxq (s : State) (c : Coil) : (s.setCoil c).mxq = s.mxq := rfl
@[simp] theorem State.setCoil_scouts (s : State) (c : Coil) : (s.setCoil c).scouts = s.scouts := rfl
@[simp] theorem State.setCoil_scrubs (s : State) (c : Coil) : (s.setCoil c).scrubs = s.scrubs := rfl
@[simp] theorem State.setCoil_mccq (s : State) (c : Coil) : (s.setCoil c).mccq = s.mccq := rfl
@[simp] theorem State.setCoil_qslots (s : State) (c : Coil) : (s.setCoil c).qslots = s.qslots := rfl
@[simp] theorem State.setCoil_groups (s : State) (c : Coil) : (s.setCoil c).groups = s.groups := rfl
@[simp] theorem State.setCoil_deltas (s : State) (c : Coil) : (s.setCoil c).deltas = s.deltas := rfl
@[simp] theorem State.setCoil_scanned (s : State) (c : Coil) : (s.setCoil c).scanned = s.scanned := rfl
@[simp] theorem State.setCoil_cores (s : State) (c : Coil) : (s.setCoil c).cores = s.cores := rfl
@[simp] theorem State.setCoil_buckets (s : State) (c : Coil) : (s.setCoil c).buckets = s.buckets := rfl
@[simp] theorem State.setCoil_regs (s : State) (c : Coil) : (s.setCoil c).regs = s.regs := rfl
@[simp] theorem State.setCoil_rsc (s : State) (c : Coil) : (s.setCoil c).rsc = s.rsc := rfl
@[simp] theorem State.setCoil_refclk (s : State) (c : Coil) : (s.setCoil c).refclk = s.refclk := rfl
@[simp] theorem State.setCoil_coreclk (s : State) (c : Coil) : (s.setCoil c).coreclk = s.coreclk := rfl
@[simp] theorem State.setCoil_coilSeq (s : State) (c : Coil) : (s.setCoil c).coilSeq = s.coilSeq := rfl
@[simp] theorem State.setCoil_engines (s : State) (c : Coil) : (s.setCoil c).engines = s.engines := rfl
@[simp] theorem State.setCoil_prof (s : State) (c : Coil) : (s.setCoil c).prof = s.prof := rfl
@[simp] theorem State.setCoil_profClk (s : State) (c : Coil) : (s.setCoil c).profClk = s.profClk := rfl
@[simp] theorem State.setCoil_out (s : State) (c : Coil) : (s.setCoil c).out = s.out := rfl
@[simp] theorem State.setCoil_turn (s : State) (c : Coil) : (s.setCoil c).turn = s.turn := rfl
@[simp] theorem State.setCoil_tried (s : State) (c : Coil) : (s.setCoil c).tried = s.tried := rfl
@[simp] theorem State.setCoil_inputs (s : State) (c : Coil) : (s.setCoil c).inputs = s.inputs := rfl
@[simp] theorem State.setCoil_rr (s : State) (c : Coil) : (s.setCoil c).rr = s.rr := rfl
@[simp] theorem State.setCoil_free (s : State) (c : Coil) : (s.setCoil c).free = s.free := rfl
@[simp] theorem State.setCoil_nextId (s : State) (c : Coil) : (s.setCoil c).nextId = s.nextId := rfl
@[simp] theorem State.setCoil_coils (s : State) (c : Coil) : (s.setCoil c).coils = s.coils.map (fun d => if d.id = c.id then c else d) := rfl

@[simp] theorem State.setGrp_mem (s : State) (g : Nat) (x : Group) : (s.setGrp g x).mem = s.mem := rfl
@[simp] theorem State.setGrp_poison (s : State) (g : Nat) (x : Group) : (s.setGrp g x).poison = s.poison := rfl
@[simp] theorem State.setGrp_coding (s : State) (g : Nat) (x : Group) : (s.setGrp g x).coding = s.coding := rfl
@[simp] theorem State.setGrp_sideDir (s : State) (g : Nat) (x : Group) : (s.setGrp g x).sideDir = s.sideDir := rfl
@[simp] theorem State.setGrp_l2keys (s : State) (g : Nat) (x : Group) : (s.setGrp g x).l2keys = s.l2keys := rfl
@[simp] theorem State.setGrp_skeys (s : State) (g : Nat) (x : Group) : (s.setGrp g x).skeys = s.skeys := rfl
@[simp] theorem State.setGrp_l1 (s : State) (g : Nat) (x : Group) : (s.setGrp g x).l1 = s.l1 := rfl
@[simp] theorem State.setGrp_icache (s : State) (g : Nat) (x : Group) : (s.setGrp g x).icache = s.icache := rfl
@[simp] theorem State.setGrp_coils (s : State) (g : Nat) (x : Group) : (s.setGrp g x).coils = s.coils := rfl
@[simp] theorem State.setGrp_launches (s : State) (g : Nat) (x : Group) : (s.setGrp g x).launches = s.launches := rfl
@[simp] theorem State.setGrp_rcbs (s : State) (g : Nat) (x : Group) : (s.setGrp g x).rcbs = s.rcbs := rfl
@[simp] theorem State.setGrp_spawns (s : State) (g : Nat) (x : Group) : (s.setGrp g x).spawns = s.spawns := rfl
@[simp] theorem State.setGrp_recovery (s : State) (g : Nat) (x : Group) : (s.setGrp g x).recovery = s.recovery := rfl
@[simp] theorem State.setGrp_sgstore (s : State) (g : Nat) (x : Group) : (s.setGrp g x).sgstore = s.sgstore := rfl
@[simp] theorem State.setGrp_sgcalls (s : State) (g : Nat) (x : Group) : (s.setGrp g x).sgcalls = s.sgcalls := rfl
@[simp] theorem State.setGrp_copies (s : State) (g : Nat) (x : Group) : (s.setGrp g x).copies = s.copies := rfl
@[simp] theorem State.setGrp_mxq (s : State) (g : Nat) (x : Group) : (s.setGrp g x).mxq = s.mxq := rfl
@[simp] theorem State.setGrp_scouts (s : State) (g : Nat) (x : Group) : (s.setGrp g x).scouts = s.scouts := rfl
@[simp] theorem State.setGrp_scrubs (s : State) (g : Nat) (x : Group) : (s.setGrp g x).scrubs = s.scrubs := rfl
@[simp] theorem State.setGrp_mccq (s : State) (g : Nat) (x : Group) : (s.setGrp g x).mccq = s.mccq := rfl
@[simp] theorem State.setGrp_qslots (s : State) (g : Nat) (x : Group) : (s.setGrp g x).qslots = s.qslots := rfl
@[simp] theorem State.setGrp_deltas (s : State) (g : Nat) (x : Group) : (s.setGrp g x).deltas = s.deltas := rfl
@[simp] theorem State.setGrp_scanned (s : State) (g : Nat) (x : Group) : (s.setGrp g x).scanned = s.scanned := rfl
@[simp] theorem State.setGrp_cores (s : State) (g : Nat) (x : Group) : (s.setGrp g x).cores = s.cores := rfl
@[simp] theorem State.setGrp_buckets (s : State) (g : Nat) (x : Group) : (s.setGrp g x).buckets = s.buckets := rfl
@[simp] theorem State.setGrp_regs (s : State) (g : Nat) (x : Group) : (s.setGrp g x).regs = s.regs := rfl
@[simp] theorem State.setGrp_rsc (s : State) (g : Nat) (x : Group) : (s.setGrp g x).rsc = s.rsc := rfl
@[simp] theorem State.setGrp_refclk (s : State) (g : Nat) (x : Group) : (s.setGrp g x).refclk = s.refclk := rfl
@[simp] theorem State.setGrp_coreclk (s : State) (g : Nat) (x : Group) : (s.setGrp g x).coreclk = s.coreclk := rfl
@[simp] theorem State.setGrp_coilSeq (s : State) (g : Nat) (x : Group) : (s.setGrp g x).coilSeq = s.coilSeq := rfl
@[simp] theorem State.setGrp_engines (s : State) (g : Nat) (x : Group) : (s.setGrp g x).engines = s.engines := rfl
@[simp] theorem State.setGrp_prof (s : State) (g : Nat) (x : Group) : (s.setGrp g x).prof = s.prof := rfl
@[simp] theorem State.setGrp_profClk (s : State) (g : Nat) (x : Group) : (s.setGrp g x).profClk = s.profClk := rfl
@[simp] theorem State.setGrp_out (s : State) (g : Nat) (x : Group) : (s.setGrp g x).out = s.out := rfl
@[simp] theorem State.setGrp_turn (s : State) (g : Nat) (x : Group) : (s.setGrp g x).turn = s.turn := rfl
@[simp] theorem State.setGrp_tried (s : State) (g : Nat) (x : Group) : (s.setGrp g x).tried = s.tried := rfl
@[simp] theorem State.setGrp_inputs (s : State) (g : Nat) (x : Group) : (s.setGrp g x).inputs = s.inputs := rfl
@[simp] theorem State.setGrp_rr (s : State) (g : Nat) (x : Group) : (s.setGrp g x).rr = s.rr := rfl
@[simp] theorem State.setGrp_free (s : State) (g : Nat) (x : Group) : (s.setGrp g x).free = s.free := rfl
@[simp] theorem State.setGrp_nextId (s : State) (g : Nat) (x : Group) : (s.setGrp g x).nextId = s.nextId := rfl
@[simp] theorem State.setGrp_groups (s : State) (g : Nat) (x : Group) : (s.setGrp g x).groups = s.groups.set g x := rfl

@[simp] theorem State.setL2key_mem (s : State) (line k : Nat) : (s.setL2key line k).mem = s.mem := rfl
@[simp] theorem State.setL2key_poison (s : State) (line k : Nat) : (s.setL2key line k).poison = s.poison := rfl
@[simp] theorem State.setL2key_coding (s : State) (line k : Nat) : (s.setL2key line k).coding = s.coding := rfl
@[simp] theorem State.setL2key_sideDir (s : State) (line k : Nat) : (s.setL2key line k).sideDir = s.sideDir := rfl
@[simp] theorem State.setL2key_skeys (s : State) (line k : Nat) : (s.setL2key line k).skeys = s.skeys := rfl
@[simp] theorem State.setL2key_l1 (s : State) (line k : Nat) : (s.setL2key line k).l1 = s.l1 := rfl
@[simp] theorem State.setL2key_icache (s : State) (line k : Nat) : (s.setL2key line k).icache = s.icache := rfl
@[simp] theorem State.setL2key_coils (s : State) (line k : Nat) : (s.setL2key line k).coils = s.coils := rfl
@[simp] theorem State.setL2key_launches (s : State) (line k : Nat) : (s.setL2key line k).launches = s.launches := rfl
@[simp] theorem State.setL2key_rcbs (s : State) (line k : Nat) : (s.setL2key line k).rcbs = s.rcbs := rfl
@[simp] theorem State.setL2key_spawns (s : State) (line k : Nat) : (s.setL2key line k).spawns = s.spawns := rfl
@[simp] theorem State.setL2key_recovery (s : State) (line k : Nat) : (s.setL2key line k).recovery = s.recovery := rfl
@[simp] theorem State.setL2key_sgstore (s : State) (line k : Nat) : (s.setL2key line k).sgstore = s.sgstore := rfl
@[simp] theorem State.setL2key_sgcalls (s : State) (line k : Nat) : (s.setL2key line k).sgcalls = s.sgcalls := rfl
@[simp] theorem State.setL2key_copies (s : State) (line k : Nat) : (s.setL2key line k).copies = s.copies := rfl
@[simp] theorem State.setL2key_mxq (s : State) (line k : Nat) : (s.setL2key line k).mxq = s.mxq := rfl
@[simp] theorem State.setL2key_scouts (s : State) (line k : Nat) : (s.setL2key line k).scouts = s.scouts := rfl
@[simp] theorem State.setL2key_scrubs (s : State) (line k : Nat) : (s.setL2key line k).scrubs = s.scrubs := rfl
@[simp] theorem State.setL2key_mccq (s : State) (line k : Nat) : (s.setL2key line k).mccq = s.mccq := rfl
@[simp] theorem State.setL2key_qslots (s : State) (line k : Nat) : (s.setL2key line k).qslots = s.qslots := rfl
@[simp] theorem State.setL2key_groups (s : State) (line k : Nat) : (s.setL2key line k).groups = s.groups := rfl
@[simp] theorem State.setL2key_deltas (s : State) (line k : Nat) : (s.setL2key line k).deltas = s.deltas := rfl
@[simp] theorem State.setL2key_scanned (s : State) (line k : Nat) : (s.setL2key line k).scanned = s.scanned := rfl
@[simp] theorem State.setL2key_cores (s : State) (line k : Nat) : (s.setL2key line k).cores = s.cores := rfl
@[simp] theorem State.setL2key_buckets (s : State) (line k : Nat) : (s.setL2key line k).buckets = s.buckets := rfl
@[simp] theorem State.setL2key_regs (s : State) (line k : Nat) : (s.setL2key line k).regs = s.regs := rfl
@[simp] theorem State.setL2key_rsc (s : State) (line k : Nat) : (s.setL2key line k).rsc = s.rsc := rfl
@[simp] theorem State.setL2key_refclk (s : State) (line k : Nat) : (s.setL2key line k).refclk = s.refclk := rfl
@[simp] theorem State.setL2key_coreclk (s : State) (line k : Nat) : (s.setL2key line k).coreclk = s.coreclk := rfl
@[simp] theorem State.setL2key_coilSeq (s : State) (line k : Nat) : (s.setL2key line k).coilSeq = s.coilSeq := rfl
@[simp] theorem State.setL2key_engines (s : State) (line k : Nat) : (s.setL2key line k).engines = s.engines := rfl
@[simp] theorem State.setL2key_prof (s : State) (line k : Nat) : (s.setL2key line k).prof = s.prof := rfl
@[simp] theorem State.setL2key_profClk (s : State) (line k : Nat) : (s.setL2key line k).profClk = s.profClk := rfl
@[simp] theorem State.setL2key_out (s : State) (line k : Nat) : (s.setL2key line k).out = s.out := rfl
@[simp] theorem State.setL2key_turn (s : State) (line k : Nat) : (s.setL2key line k).turn = s.turn := rfl
@[simp] theorem State.setL2key_tried (s : State) (line k : Nat) : (s.setL2key line k).tried = s.tried := rfl
@[simp] theorem State.setL2key_inputs (s : State) (line k : Nat) : (s.setL2key line k).inputs = s.inputs := rfl
@[simp] theorem State.setL2key_rr (s : State) (line k : Nat) : (s.setL2key line k).rr = s.rr := rfl
@[simp] theorem State.setL2key_free (s : State) (line k : Nat) : (s.setL2key line k).free = s.free := rfl
@[simp] theorem State.setL2key_nextId (s : State) (line k : Nat) : (s.setL2key line k).nextId = s.nextId := rfl

@[simp] theorem State.dropL1_mem (s : State) (core : Nat) (asid : BitVec 12) : (s.dropL1 core asid).mem = s.mem := rfl
@[simp] theorem State.dropL1_poison (s : State) (core : Nat) (asid : BitVec 12) : (s.dropL1 core asid).poison = s.poison := rfl
@[simp] theorem State.dropL1_coding (s : State) (core : Nat) (asid : BitVec 12) : (s.dropL1 core asid).coding = s.coding := rfl
@[simp] theorem State.dropL1_sideDir (s : State) (core : Nat) (asid : BitVec 12) : (s.dropL1 core asid).sideDir = s.sideDir := rfl
@[simp] theorem State.dropL1_l2keys (s : State) (core : Nat) (asid : BitVec 12) : (s.dropL1 core asid).l2keys = s.l2keys := rfl
@[simp] theorem State.dropL1_skeys (s : State) (core : Nat) (asid : BitVec 12) : (s.dropL1 core asid).skeys = s.skeys := rfl
@[simp] theorem State.dropL1_icache (s : State) (core : Nat) (asid : BitVec 12) : (s.dropL1 core asid).icache = s.icache := rfl
@[simp] theorem State.dropL1_coils (s : State) (core : Nat) (asid : BitVec 12) : (s.dropL1 core asid).coils = s.coils := rfl
@[simp] theorem State.dropL1_launches (s : State) (core : Nat) (asid : BitVec 12) : (s.dropL1 core asid).launches = s.launches := rfl
@[simp] theorem State.dropL1_rcbs (s : State) (core : Nat) (asid : BitVec 12) : (s.dropL1 core asid).rcbs = s.rcbs := rfl
@[simp] theorem State.dropL1_spawns (s : State) (core : Nat) (asid : BitVec 12) : (s.dropL1 core asid).spawns = s.spawns := rfl
@[simp] theorem State.dropL1_recovery (s : State) (core : Nat) (asid : BitVec 12) : (s.dropL1 core asid).recovery = s.recovery := rfl
@[simp] theorem State.dropL1_sgstore (s : State) (core : Nat) (asid : BitVec 12) : (s.dropL1 core asid).sgstore = s.sgstore := rfl
@[simp] theorem State.dropL1_sgcalls (s : State) (core : Nat) (asid : BitVec 12) : (s.dropL1 core asid).sgcalls = s.sgcalls := rfl
@[simp] theorem State.dropL1_copies (s : State) (core : Nat) (asid : BitVec 12) : (s.dropL1 core asid).copies = s.copies := rfl
@[simp] theorem State.dropL1_mxq (s : State) (core : Nat) (asid : BitVec 12) : (s.dropL1 core asid).mxq = s.mxq := rfl
@[simp] theorem State.dropL1_scouts (s : State) (core : Nat) (asid : BitVec 12) : (s.dropL1 core asid).scouts = s.scouts := rfl
@[simp] theorem State.dropL1_scrubs (s : State) (core : Nat) (asid : BitVec 12) : (s.dropL1 core asid).scrubs = s.scrubs := rfl
@[simp] theorem State.dropL1_mccq (s : State) (core : Nat) (asid : BitVec 12) : (s.dropL1 core asid).mccq = s.mccq := rfl
@[simp] theorem State.dropL1_qslots (s : State) (core : Nat) (asid : BitVec 12) : (s.dropL1 core asid).qslots = s.qslots := rfl
@[simp] theorem State.dropL1_groups (s : State) (core : Nat) (asid : BitVec 12) : (s.dropL1 core asid).groups = s.groups := rfl
@[simp] theorem State.dropL1_deltas (s : State) (core : Nat) (asid : BitVec 12) : (s.dropL1 core asid).deltas = s.deltas := rfl
@[simp] theorem State.dropL1_scanned (s : State) (core : Nat) (asid : BitVec 12) : (s.dropL1 core asid).scanned = s.scanned := rfl
@[simp] theorem State.dropL1_cores (s : State) (core : Nat) (asid : BitVec 12) : (s.dropL1 core asid).cores = s.cores := rfl
@[simp] theorem State.dropL1_buckets (s : State) (core : Nat) (asid : BitVec 12) : (s.dropL1 core asid).buckets = s.buckets := rfl
@[simp] theorem State.dropL1_regs (s : State) (core : Nat) (asid : BitVec 12) : (s.dropL1 core asid).regs = s.regs := rfl
@[simp] theorem State.dropL1_rsc (s : State) (core : Nat) (asid : BitVec 12) : (s.dropL1 core asid).rsc = s.rsc := rfl
@[simp] theorem State.dropL1_refclk (s : State) (core : Nat) (asid : BitVec 12) : (s.dropL1 core asid).refclk = s.refclk := rfl
@[simp] theorem State.dropL1_coreclk (s : State) (core : Nat) (asid : BitVec 12) : (s.dropL1 core asid).coreclk = s.coreclk := rfl
@[simp] theorem State.dropL1_coilSeq (s : State) (core : Nat) (asid : BitVec 12) : (s.dropL1 core asid).coilSeq = s.coilSeq := rfl
@[simp] theorem State.dropL1_engines (s : State) (core : Nat) (asid : BitVec 12) : (s.dropL1 core asid).engines = s.engines := rfl
@[simp] theorem State.dropL1_prof (s : State) (core : Nat) (asid : BitVec 12) : (s.dropL1 core asid).prof = s.prof := rfl
@[simp] theorem State.dropL1_profClk (s : State) (core : Nat) (asid : BitVec 12) : (s.dropL1 core asid).profClk = s.profClk := rfl
@[simp] theorem State.dropL1_out (s : State) (core : Nat) (asid : BitVec 12) : (s.dropL1 core asid).out = s.out := rfl
@[simp] theorem State.dropL1_turn (s : State) (core : Nat) (asid : BitVec 12) : (s.dropL1 core asid).turn = s.turn := rfl
@[simp] theorem State.dropL1_tried (s : State) (core : Nat) (asid : BitVec 12) : (s.dropL1 core asid).tried = s.tried := rfl
@[simp] theorem State.dropL1_inputs (s : State) (core : Nat) (asid : BitVec 12) : (s.dropL1 core asid).inputs = s.inputs := rfl
@[simp] theorem State.dropL1_rr (s : State) (core : Nat) (asid : BitVec 12) : (s.dropL1 core asid).rr = s.rr := rfl
@[simp] theorem State.dropL1_free (s : State) (core : Nat) (asid : BitVec 12) : (s.dropL1 core asid).free = s.free := rfl
@[simp] theorem State.dropL1_nextId (s : State) (core : Nat) (asid : BitVec 12) : (s.dropL1 core asid).nextId = s.nextId := rfl

@[simp] theorem State.stall_mem (s : State) : (s.stall).mem = s.mem := rfl
@[simp] theorem State.stall_poison (s : State) : (s.stall).poison = s.poison := rfl
@[simp] theorem State.stall_coding (s : State) : (s.stall).coding = s.coding := rfl
@[simp] theorem State.stall_sideDir (s : State) : (s.stall).sideDir = s.sideDir := rfl
@[simp] theorem State.stall_l2keys (s : State) : (s.stall).l2keys = s.l2keys := rfl
@[simp] theorem State.stall_skeys (s : State) : (s.stall).skeys = s.skeys := rfl
@[simp] theorem State.stall_l1 (s : State) : (s.stall).l1 = s.l1 := rfl
@[simp] theorem State.stall_icache (s : State) : (s.stall).icache = s.icache := rfl
@[simp] theorem State.stall_coils (s : State) : (s.stall).coils = s.coils := rfl
@[simp] theorem State.stall_launches (s : State) : (s.stall).launches = s.launches := rfl
@[simp] theorem State.stall_rcbs (s : State) : (s.stall).rcbs = s.rcbs := rfl
@[simp] theorem State.stall_spawns (s : State) : (s.stall).spawns = s.spawns := rfl
@[simp] theorem State.stall_recovery (s : State) : (s.stall).recovery = s.recovery := rfl
@[simp] theorem State.stall_sgstore (s : State) : (s.stall).sgstore = s.sgstore := rfl
@[simp] theorem State.stall_sgcalls (s : State) : (s.stall).sgcalls = s.sgcalls := rfl
@[simp] theorem State.stall_copies (s : State) : (s.stall).copies = s.copies := rfl
@[simp] theorem State.stall_mxq (s : State) : (s.stall).mxq = s.mxq := rfl
@[simp] theorem State.stall_scouts (s : State) : (s.stall).scouts = s.scouts := rfl
@[simp] theorem State.stall_scrubs (s : State) : (s.stall).scrubs = s.scrubs := rfl
@[simp] theorem State.stall_mccq (s : State) : (s.stall).mccq = s.mccq := rfl
@[simp] theorem State.stall_qslots (s : State) : (s.stall).qslots = s.qslots := rfl
@[simp] theorem State.stall_groups (s : State) : (s.stall).groups = s.groups := rfl
@[simp] theorem State.stall_deltas (s : State) : (s.stall).deltas = s.deltas := rfl
@[simp] theorem State.stall_scanned (s : State) : (s.stall).scanned = s.scanned := rfl
@[simp] theorem State.stall_cores (s : State) : (s.stall).cores = s.cores := rfl
@[simp] theorem State.stall_buckets (s : State) : (s.stall).buckets = s.buckets := rfl
@[simp] theorem State.stall_regs (s : State) : (s.stall).regs = s.regs := rfl
@[simp] theorem State.stall_rsc (s : State) : (s.stall).rsc = s.rsc := rfl
@[simp] theorem State.stall_refclk (s : State) : (s.stall).refclk = s.refclk := rfl
@[simp] theorem State.stall_coreclk (s : State) : (s.stall).coreclk = s.coreclk := rfl
@[simp] theorem State.stall_coilSeq (s : State) : (s.stall).coilSeq = s.coilSeq := rfl
@[simp] theorem State.stall_engines (s : State) : (s.stall).engines = s.engines := rfl
@[simp] theorem State.stall_prof (s : State) : (s.stall).prof = s.prof := rfl
@[simp] theorem State.stall_profClk (s : State) : (s.stall).profClk = s.profClk := rfl
@[simp] theorem State.stall_out (s : State) : (s.stall).out = s.out := rfl
@[simp] theorem State.stall_inputs (s : State) : (s.stall).inputs = s.inputs := rfl
@[simp] theorem State.stall_free (s : State) : (s.stall).free = s.free := rfl
@[simp] theorem State.stall_nextId (s : State) : (s.stall).nextId = s.nextId := rfl
@[simp] theorem State.stall_turn (s : State) : (s.stall).turn = .free := rfl
@[simp] theorem State.stall_rr (s : State) : (s.stall).rr = s.rr + 1 := rfl
@[simp] theorem State.stall_tried (s : State) : (s.stall).tried = s.turn :: s.tried := rfl

@[simp] theorem State.setSkey_mem (s : State) (e : SecKey) : (s.setSkey e).mem = s.mem := rfl
@[simp] theorem State.setSkey_poison (s : State) (e : SecKey) : (s.setSkey e).poison = s.poison := rfl
@[simp] theorem State.setSkey_coding (s : State) (e : SecKey) : (s.setSkey e).coding = s.coding := rfl
@[simp] theorem State.setSkey_sideDir (s : State) (e : SecKey) : (s.setSkey e).sideDir = s.sideDir := rfl
@[simp] theorem State.setSkey_l2keys (s : State) (e : SecKey) : (s.setSkey e).l2keys = s.l2keys := rfl
@[simp] theorem State.setSkey_l1 (s : State) (e : SecKey) : (s.setSkey e).l1 = s.l1 := rfl
@[simp] theorem State.setSkey_icache (s : State) (e : SecKey) : (s.setSkey e).icache = s.icache := rfl
@[simp] theorem State.setSkey_coils (s : State) (e : SecKey) : (s.setSkey e).coils = s.coils := rfl
@[simp] theorem State.setSkey_launches (s : State) (e : SecKey) : (s.setSkey e).launches = s.launches := rfl
@[simp] theorem State.setSkey_rcbs (s : State) (e : SecKey) : (s.setSkey e).rcbs = s.rcbs := rfl
@[simp] theorem State.setSkey_spawns (s : State) (e : SecKey) : (s.setSkey e).spawns = s.spawns := rfl
@[simp] theorem State.setSkey_recovery (s : State) (e : SecKey) : (s.setSkey e).recovery = s.recovery := rfl
@[simp] theorem State.setSkey_sgstore (s : State) (e : SecKey) : (s.setSkey e).sgstore = s.sgstore := rfl
@[simp] theorem State.setSkey_sgcalls (s : State) (e : SecKey) : (s.setSkey e).sgcalls = s.sgcalls := rfl
@[simp] theorem State.setSkey_copies (s : State) (e : SecKey) : (s.setSkey e).copies = s.copies := rfl
@[simp] theorem State.setSkey_mxq (s : State) (e : SecKey) : (s.setSkey e).mxq = s.mxq := rfl
@[simp] theorem State.setSkey_scouts (s : State) (e : SecKey) : (s.setSkey e).scouts = s.scouts := rfl
@[simp] theorem State.setSkey_scrubs (s : State) (e : SecKey) : (s.setSkey e).scrubs = s.scrubs := rfl
@[simp] theorem State.setSkey_mccq (s : State) (e : SecKey) : (s.setSkey e).mccq = s.mccq := rfl
@[simp] theorem State.setSkey_qslots (s : State) (e : SecKey) : (s.setSkey e).qslots = s.qslots := rfl
@[simp] theorem State.setSkey_groups (s : State) (e : SecKey) : (s.setSkey e).groups = s.groups := rfl
@[simp] theorem State.setSkey_deltas (s : State) (e : SecKey) : (s.setSkey e).deltas = s.deltas := rfl
@[simp] theorem State.setSkey_scanned (s : State) (e : SecKey) : (s.setSkey e).scanned = s.scanned := rfl
@[simp] theorem State.setSkey_cores (s : State) (e : SecKey) : (s.setSkey e).cores = s.cores := rfl
@[simp] theorem State.setSkey_buckets (s : State) (e : SecKey) : (s.setSkey e).buckets = s.buckets := rfl
@[simp] theorem State.setSkey_regs (s : State) (e : SecKey) : (s.setSkey e).regs = s.regs := rfl
@[simp] theorem State.setSkey_rsc (s : State) (e : SecKey) : (s.setSkey e).rsc = s.rsc := rfl
@[simp] theorem State.setSkey_refclk (s : State) (e : SecKey) : (s.setSkey e).refclk = s.refclk := rfl
@[simp] theorem State.setSkey_coreclk (s : State) (e : SecKey) : (s.setSkey e).coreclk = s.coreclk := rfl
@[simp] theorem State.setSkey_coilSeq (s : State) (e : SecKey) : (s.setSkey e).coilSeq = s.coilSeq := rfl
@[simp] theorem State.setSkey_engines (s : State) (e : SecKey) : (s.setSkey e).engines = s.engines := rfl
@[simp] theorem State.setSkey_prof (s : State) (e : SecKey) : (s.setSkey e).prof = s.prof := rfl
@[simp] theorem State.setSkey_profClk (s : State) (e : SecKey) : (s.setSkey e).profClk = s.profClk := rfl
@[simp] theorem State.setSkey_out (s : State) (e : SecKey) : (s.setSkey e).out = s.out := rfl
@[simp] theorem State.setSkey_turn (s : State) (e : SecKey) : (s.setSkey e).turn = s.turn := rfl
@[simp] theorem State.setSkey_tried (s : State) (e : SecKey) : (s.setSkey e).tried = s.tried := rfl
@[simp] theorem State.setSkey_inputs (s : State) (e : SecKey) : (s.setSkey e).inputs = s.inputs := rfl
@[simp] theorem State.setSkey_rr (s : State) (e : SecKey) : (s.setSkey e).rr = s.rr := rfl
@[simp] theorem State.setSkey_free (s : State) (e : SecKey) : (s.setSkey e).free = s.free := rfl
@[simp] theorem State.setSkey_nextId (s : State) (e : SecKey) : (s.setSkey e).nextId = s.nextId := rfl

@[simp] theorem State.dropLine_mem (s : State) (line : Nat) : (s.dropLine line).mem = s.mem := rfl
@[simp] theorem State.dropLine_poison (s : State) (line : Nat) : (s.dropLine line).poison = s.poison := rfl
@[simp] theorem State.dropLine_coding (s : State) (line : Nat) : (s.dropLine line).coding = s.coding := rfl
@[simp] theorem State.dropLine_sideDir (s : State) (line : Nat) : (s.dropLine line).sideDir = s.sideDir := rfl
@[simp] theorem State.dropLine_skeys (s : State) (line : Nat) : (s.dropLine line).skeys = s.skeys := rfl
@[simp] theorem State.dropLine_l1 (s : State) (line : Nat) : (s.dropLine line).l1 = s.l1 := rfl
@[simp] theorem State.dropLine_icache (s : State) (line : Nat) : (s.dropLine line).icache = s.icache := rfl
@[simp] theorem State.dropLine_coils (s : State) (line : Nat) : (s.dropLine line).coils = s.coils := rfl
@[simp] theorem State.dropLine_launches (s : State) (line : Nat) : (s.dropLine line).launches = s.launches := rfl
@[simp] theorem State.dropLine_rcbs (s : State) (line : Nat) : (s.dropLine line).rcbs = s.rcbs := rfl
@[simp] theorem State.dropLine_spawns (s : State) (line : Nat) : (s.dropLine line).spawns = s.spawns := rfl
@[simp] theorem State.dropLine_recovery (s : State) (line : Nat) : (s.dropLine line).recovery = s.recovery := rfl
@[simp] theorem State.dropLine_sgstore (s : State) (line : Nat) : (s.dropLine line).sgstore = s.sgstore := rfl
@[simp] theorem State.dropLine_sgcalls (s : State) (line : Nat) : (s.dropLine line).sgcalls = s.sgcalls := rfl
@[simp] theorem State.dropLine_copies (s : State) (line : Nat) : (s.dropLine line).copies = s.copies := rfl
@[simp] theorem State.dropLine_mxq (s : State) (line : Nat) : (s.dropLine line).mxq = s.mxq := rfl
@[simp] theorem State.dropLine_scouts (s : State) (line : Nat) : (s.dropLine line).scouts = s.scouts := rfl
@[simp] theorem State.dropLine_scrubs (s : State) (line : Nat) : (s.dropLine line).scrubs = s.scrubs := rfl
@[simp] theorem State.dropLine_mccq (s : State) (line : Nat) : (s.dropLine line).mccq = s.mccq := rfl
@[simp] theorem State.dropLine_qslots (s : State) (line : Nat) : (s.dropLine line).qslots = s.qslots := rfl
@[simp] theorem State.dropLine_groups (s : State) (line : Nat) : (s.dropLine line).groups = s.groups := rfl
@[simp] theorem State.dropLine_deltas (s : State) (line : Nat) : (s.dropLine line).deltas = s.deltas := rfl
@[simp] theorem State.dropLine_scanned (s : State) (line : Nat) : (s.dropLine line).scanned = s.scanned := rfl
@[simp] theorem State.dropLine_cores (s : State) (line : Nat) : (s.dropLine line).cores = s.cores := rfl
@[simp] theorem State.dropLine_buckets (s : State) (line : Nat) : (s.dropLine line).buckets = s.buckets := rfl
@[simp] theorem State.dropLine_regs (s : State) (line : Nat) : (s.dropLine line).regs = s.regs := rfl
@[simp] theorem State.dropLine_rsc (s : State) (line : Nat) : (s.dropLine line).rsc = s.rsc := rfl
@[simp] theorem State.dropLine_refclk (s : State) (line : Nat) : (s.dropLine line).refclk = s.refclk := rfl
@[simp] theorem State.dropLine_coreclk (s : State) (line : Nat) : (s.dropLine line).coreclk = s.coreclk := rfl
@[simp] theorem State.dropLine_coilSeq (s : State) (line : Nat) : (s.dropLine line).coilSeq = s.coilSeq := rfl
@[simp] theorem State.dropLine_engines (s : State) (line : Nat) : (s.dropLine line).engines = s.engines := rfl
@[simp] theorem State.dropLine_prof (s : State) (line : Nat) : (s.dropLine line).prof = s.prof := rfl
@[simp] theorem State.dropLine_profClk (s : State) (line : Nat) : (s.dropLine line).profClk = s.profClk := rfl
@[simp] theorem State.dropLine_out (s : State) (line : Nat) : (s.dropLine line).out = s.out := rfl
@[simp] theorem State.dropLine_turn (s : State) (line : Nat) : (s.dropLine line).turn = s.turn := rfl
@[simp] theorem State.dropLine_tried (s : State) (line : Nat) : (s.dropLine line).tried = s.tried := rfl
@[simp] theorem State.dropLine_inputs (s : State) (line : Nat) : (s.dropLine line).inputs = s.inputs := rfl
@[simp] theorem State.dropLine_rr (s : State) (line : Nat) : (s.dropLine line).rr = s.rr := rfl
@[simp] theorem State.dropLine_free (s : State) (line : Nat) : (s.dropLine line).free = s.free := rfl
@[simp] theorem State.dropLine_nextId (s : State) (line : Nat) : (s.dropLine line).nextId = s.nextId := rfl

@[simp] theorem State.l1Update_mem (s : State) (core pa : Nat) : (s.l1Update core pa).mem = s.mem := rfl
@[simp] theorem State.l1Update_poison (s : State) (core pa : Nat) : (s.l1Update core pa).poison = s.poison := rfl
@[simp] theorem State.l1Update_coding (s : State) (core pa : Nat) : (s.l1Update core pa).coding = s.coding := rfl
@[simp] theorem State.l1Update_sideDir (s : State) (core pa : Nat) : (s.l1Update core pa).sideDir = s.sideDir := rfl
@[simp] theorem State.l1Update_l2keys (s : State) (core pa : Nat) : (s.l1Update core pa).l2keys = s.l2keys := rfl
@[simp] theorem State.l1Update_skeys (s : State) (core pa : Nat) : (s.l1Update core pa).skeys = s.skeys := rfl
@[simp] theorem State.l1Update_icache (s : State) (core pa : Nat) : (s.l1Update core pa).icache = s.icache := rfl
@[simp] theorem State.l1Update_coils (s : State) (core pa : Nat) : (s.l1Update core pa).coils = s.coils := rfl
@[simp] theorem State.l1Update_launches (s : State) (core pa : Nat) : (s.l1Update core pa).launches = s.launches := rfl
@[simp] theorem State.l1Update_rcbs (s : State) (core pa : Nat) : (s.l1Update core pa).rcbs = s.rcbs := rfl
@[simp] theorem State.l1Update_spawns (s : State) (core pa : Nat) : (s.l1Update core pa).spawns = s.spawns := rfl
@[simp] theorem State.l1Update_recovery (s : State) (core pa : Nat) : (s.l1Update core pa).recovery = s.recovery := rfl
@[simp] theorem State.l1Update_sgstore (s : State) (core pa : Nat) : (s.l1Update core pa).sgstore = s.sgstore := rfl
@[simp] theorem State.l1Update_sgcalls (s : State) (core pa : Nat) : (s.l1Update core pa).sgcalls = s.sgcalls := rfl
@[simp] theorem State.l1Update_copies (s : State) (core pa : Nat) : (s.l1Update core pa).copies = s.copies := rfl
@[simp] theorem State.l1Update_mxq (s : State) (core pa : Nat) : (s.l1Update core pa).mxq = s.mxq := rfl
@[simp] theorem State.l1Update_scouts (s : State) (core pa : Nat) : (s.l1Update core pa).scouts = s.scouts := rfl
@[simp] theorem State.l1Update_scrubs (s : State) (core pa : Nat) : (s.l1Update core pa).scrubs = s.scrubs := rfl
@[simp] theorem State.l1Update_mccq (s : State) (core pa : Nat) : (s.l1Update core pa).mccq = s.mccq := rfl
@[simp] theorem State.l1Update_qslots (s : State) (core pa : Nat) : (s.l1Update core pa).qslots = s.qslots := rfl
@[simp] theorem State.l1Update_groups (s : State) (core pa : Nat) : (s.l1Update core pa).groups = s.groups := rfl
@[simp] theorem State.l1Update_deltas (s : State) (core pa : Nat) : (s.l1Update core pa).deltas = s.deltas := rfl
@[simp] theorem State.l1Update_scanned (s : State) (core pa : Nat) : (s.l1Update core pa).scanned = s.scanned := rfl
@[simp] theorem State.l1Update_cores (s : State) (core pa : Nat) : (s.l1Update core pa).cores = s.cores := rfl
@[simp] theorem State.l1Update_buckets (s : State) (core pa : Nat) : (s.l1Update core pa).buckets = s.buckets := rfl
@[simp] theorem State.l1Update_regs (s : State) (core pa : Nat) : (s.l1Update core pa).regs = s.regs := rfl
@[simp] theorem State.l1Update_rsc (s : State) (core pa : Nat) : (s.l1Update core pa).rsc = s.rsc := rfl
@[simp] theorem State.l1Update_refclk (s : State) (core pa : Nat) : (s.l1Update core pa).refclk = s.refclk := rfl
@[simp] theorem State.l1Update_coreclk (s : State) (core pa : Nat) : (s.l1Update core pa).coreclk = s.coreclk := rfl
@[simp] theorem State.l1Update_coilSeq (s : State) (core pa : Nat) : (s.l1Update core pa).coilSeq = s.coilSeq := rfl
@[simp] theorem State.l1Update_engines (s : State) (core pa : Nat) : (s.l1Update core pa).engines = s.engines := rfl
@[simp] theorem State.l1Update_prof (s : State) (core pa : Nat) : (s.l1Update core pa).prof = s.prof := rfl
@[simp] theorem State.l1Update_profClk (s : State) (core pa : Nat) : (s.l1Update core pa).profClk = s.profClk := rfl
@[simp] theorem State.l1Update_out (s : State) (core pa : Nat) : (s.l1Update core pa).out = s.out := rfl
@[simp] theorem State.l1Update_turn (s : State) (core pa : Nat) : (s.l1Update core pa).turn = s.turn := rfl
@[simp] theorem State.l1Update_tried (s : State) (core pa : Nat) : (s.l1Update core pa).tried = s.tried := rfl
@[simp] theorem State.l1Update_inputs (s : State) (core pa : Nat) : (s.l1Update core pa).inputs = s.inputs := rfl
@[simp] theorem State.l1Update_rr (s : State) (core pa : Nat) : (s.l1Update core pa).rr = s.rr := rfl
@[simp] theorem State.l1Update_free (s : State) (core pa : Nat) : (s.l1Update core pa).free = s.free := rfl
@[simp] theorem State.l1Update_nextId (s : State) (core pa : Nat) : (s.l1Update core pa).nextId = s.nextId := rfl

@[simp] theorem State.l1Put_mem (s : State) (e : L1Line) : (s.l1Put e).mem = s.mem := rfl
@[simp] theorem State.l1Put_poison (s : State) (e : L1Line) : (s.l1Put e).poison = s.poison := rfl
@[simp] theorem State.l1Put_coding (s : State) (e : L1Line) : (s.l1Put e).coding = s.coding := rfl
@[simp] theorem State.l1Put_sideDir (s : State) (e : L1Line) : (s.l1Put e).sideDir = s.sideDir := rfl
@[simp] theorem State.l1Put_l2keys (s : State) (e : L1Line) : (s.l1Put e).l2keys = s.l2keys := rfl
@[simp] theorem State.l1Put_skeys (s : State) (e : L1Line) : (s.l1Put e).skeys = s.skeys := rfl
@[simp] theorem State.l1Put_icache (s : State) (e : L1Line) : (s.l1Put e).icache = s.icache := rfl
@[simp] theorem State.l1Put_coils (s : State) (e : L1Line) : (s.l1Put e).coils = s.coils := rfl
@[simp] theorem State.l1Put_launches (s : State) (e : L1Line) : (s.l1Put e).launches = s.launches := rfl
@[simp] theorem State.l1Put_rcbs (s : State) (e : L1Line) : (s.l1Put e).rcbs = s.rcbs := rfl
@[simp] theorem State.l1Put_spawns (s : State) (e : L1Line) : (s.l1Put e).spawns = s.spawns := rfl
@[simp] theorem State.l1Put_recovery (s : State) (e : L1Line) : (s.l1Put e).recovery = s.recovery := rfl
@[simp] theorem State.l1Put_sgstore (s : State) (e : L1Line) : (s.l1Put e).sgstore = s.sgstore := rfl
@[simp] theorem State.l1Put_sgcalls (s : State) (e : L1Line) : (s.l1Put e).sgcalls = s.sgcalls := rfl
@[simp] theorem State.l1Put_copies (s : State) (e : L1Line) : (s.l1Put e).copies = s.copies := rfl
@[simp] theorem State.l1Put_mxq (s : State) (e : L1Line) : (s.l1Put e).mxq = s.mxq := rfl
@[simp] theorem State.l1Put_scouts (s : State) (e : L1Line) : (s.l1Put e).scouts = s.scouts := rfl
@[simp] theorem State.l1Put_scrubs (s : State) (e : L1Line) : (s.l1Put e).scrubs = s.scrubs := rfl
@[simp] theorem State.l1Put_mccq (s : State) (e : L1Line) : (s.l1Put e).mccq = s.mccq := rfl
@[simp] theorem State.l1Put_qslots (s : State) (e : L1Line) : (s.l1Put e).qslots = s.qslots := rfl
@[simp] theorem State.l1Put_groups (s : State) (e : L1Line) : (s.l1Put e).groups = s.groups := rfl
@[simp] theorem State.l1Put_deltas (s : State) (e : L1Line) : (s.l1Put e).deltas = s.deltas := rfl
@[simp] theorem State.l1Put_scanned (s : State) (e : L1Line) : (s.l1Put e).scanned = s.scanned := rfl
@[simp] theorem State.l1Put_cores (s : State) (e : L1Line) : (s.l1Put e).cores = s.cores := rfl
@[simp] theorem State.l1Put_buckets (s : State) (e : L1Line) : (s.l1Put e).buckets = s.buckets := rfl
@[simp] theorem State.l1Put_regs (s : State) (e : L1Line) : (s.l1Put e).regs = s.regs := rfl
@[simp] theorem State.l1Put_rsc (s : State) (e : L1Line) : (s.l1Put e).rsc = s.rsc := rfl
@[simp] theorem State.l1Put_refclk (s : State) (e : L1Line) : (s.l1Put e).refclk = s.refclk := rfl
@[simp] theorem State.l1Put_coreclk (s : State) (e : L1Line) : (s.l1Put e).coreclk = s.coreclk := rfl
@[simp] theorem State.l1Put_coilSeq (s : State) (e : L1Line) : (s.l1Put e).coilSeq = s.coilSeq := rfl
@[simp] theorem State.l1Put_engines (s : State) (e : L1Line) : (s.l1Put e).engines = s.engines := rfl
@[simp] theorem State.l1Put_prof (s : State) (e : L1Line) : (s.l1Put e).prof = s.prof := rfl
@[simp] theorem State.l1Put_profClk (s : State) (e : L1Line) : (s.l1Put e).profClk = s.profClk := rfl
@[simp] theorem State.l1Put_out (s : State) (e : L1Line) : (s.l1Put e).out = s.out := rfl
@[simp] theorem State.l1Put_turn (s : State) (e : L1Line) : (s.l1Put e).turn = s.turn := rfl
@[simp] theorem State.l1Put_tried (s : State) (e : L1Line) : (s.l1Put e).tried = s.tried := rfl
@[simp] theorem State.l1Put_inputs (s : State) (e : L1Line) : (s.l1Put e).inputs = s.inputs := rfl
@[simp] theorem State.l1Put_rr (s : State) (e : L1Line) : (s.l1Put e).rr = s.rr := rfl
@[simp] theorem State.l1Put_free (s : State) (e : L1Line) : (s.l1Put e).free = s.free := rfl
@[simp] theorem State.l1Put_nextId (s : State) (e : L1Line) : (s.l1Put e).nextId = s.nextId := rfl

@[simp] theorem State.icPut_mem (s : State) (e : IcLine) : (s.icPut e).mem = s.mem := rfl
@[simp] theorem State.icPut_poison (s : State) (e : IcLine) : (s.icPut e).poison = s.poison := rfl
@[simp] theorem State.icPut_coding (s : State) (e : IcLine) : (s.icPut e).coding = s.coding := rfl
@[simp] theorem State.icPut_sideDir (s : State) (e : IcLine) : (s.icPut e).sideDir = s.sideDir := rfl
@[simp] theorem State.icPut_l2keys (s : State) (e : IcLine) : (s.icPut e).l2keys = s.l2keys := rfl
@[simp] theorem State.icPut_skeys (s : State) (e : IcLine) : (s.icPut e).skeys = s.skeys := rfl
@[simp] theorem State.icPut_l1 (s : State) (e : IcLine) : (s.icPut e).l1 = s.l1 := rfl
@[simp] theorem State.icPut_coils (s : State) (e : IcLine) : (s.icPut e).coils = s.coils := rfl
@[simp] theorem State.icPut_launches (s : State) (e : IcLine) : (s.icPut e).launches = s.launches := rfl
@[simp] theorem State.icPut_rcbs (s : State) (e : IcLine) : (s.icPut e).rcbs = s.rcbs := rfl
@[simp] theorem State.icPut_spawns (s : State) (e : IcLine) : (s.icPut e).spawns = s.spawns := rfl
@[simp] theorem State.icPut_recovery (s : State) (e : IcLine) : (s.icPut e).recovery = s.recovery := rfl
@[simp] theorem State.icPut_sgstore (s : State) (e : IcLine) : (s.icPut e).sgstore = s.sgstore := rfl
@[simp] theorem State.icPut_sgcalls (s : State) (e : IcLine) : (s.icPut e).sgcalls = s.sgcalls := rfl
@[simp] theorem State.icPut_copies (s : State) (e : IcLine) : (s.icPut e).copies = s.copies := rfl
@[simp] theorem State.icPut_mxq (s : State) (e : IcLine) : (s.icPut e).mxq = s.mxq := rfl
@[simp] theorem State.icPut_scouts (s : State) (e : IcLine) : (s.icPut e).scouts = s.scouts := rfl
@[simp] theorem State.icPut_scrubs (s : State) (e : IcLine) : (s.icPut e).scrubs = s.scrubs := rfl
@[simp] theorem State.icPut_mccq (s : State) (e : IcLine) : (s.icPut e).mccq = s.mccq := rfl
@[simp] theorem State.icPut_qslots (s : State) (e : IcLine) : (s.icPut e).qslots = s.qslots := rfl
@[simp] theorem State.icPut_groups (s : State) (e : IcLine) : (s.icPut e).groups = s.groups := rfl
@[simp] theorem State.icPut_deltas (s : State) (e : IcLine) : (s.icPut e).deltas = s.deltas := rfl
@[simp] theorem State.icPut_scanned (s : State) (e : IcLine) : (s.icPut e).scanned = s.scanned := rfl
@[simp] theorem State.icPut_cores (s : State) (e : IcLine) : (s.icPut e).cores = s.cores := rfl
@[simp] theorem State.icPut_buckets (s : State) (e : IcLine) : (s.icPut e).buckets = s.buckets := rfl
@[simp] theorem State.icPut_regs (s : State) (e : IcLine) : (s.icPut e).regs = s.regs := rfl
@[simp] theorem State.icPut_rsc (s : State) (e : IcLine) : (s.icPut e).rsc = s.rsc := rfl
@[simp] theorem State.icPut_refclk (s : State) (e : IcLine) : (s.icPut e).refclk = s.refclk := rfl
@[simp] theorem State.icPut_coreclk (s : State) (e : IcLine) : (s.icPut e).coreclk = s.coreclk := rfl
@[simp] theorem State.icPut_coilSeq (s : State) (e : IcLine) : (s.icPut e).coilSeq = s.coilSeq := rfl
@[simp] theorem State.icPut_engines (s : State) (e : IcLine) : (s.icPut e).engines = s.engines := rfl
@[simp] theorem State.icPut_prof (s : State) (e : IcLine) : (s.icPut e).prof = s.prof := rfl
@[simp] theorem State.icPut_profClk (s : State) (e : IcLine) : (s.icPut e).profClk = s.profClk := rfl
@[simp] theorem State.icPut_out (s : State) (e : IcLine) : (s.icPut e).out = s.out := rfl
@[simp] theorem State.icPut_turn (s : State) (e : IcLine) : (s.icPut e).turn = s.turn := rfl
@[simp] theorem State.icPut_tried (s : State) (e : IcLine) : (s.icPut e).tried = s.tried := rfl
@[simp] theorem State.icPut_inputs (s : State) (e : IcLine) : (s.icPut e).inputs = s.inputs := rfl
@[simp] theorem State.icPut_rr (s : State) (e : IcLine) : (s.icPut e).rr = s.rr := rfl
@[simp] theorem State.icPut_free (s : State) (e : IcLine) : (s.icPut e).free = s.free := rfl
@[simp] theorem State.icPut_nextId (s : State) (e : IcLine) : (s.icPut e).nextId = s.nextId := rfl

@[simp] theorem State.setCopy_mem (s : State) (k : CopyCmd) : (s.setCopy k).mem = s.mem := rfl
@[simp] theorem State.setCopy_poison (s : State) (k : CopyCmd) : (s.setCopy k).poison = s.poison := rfl
@[simp] theorem State.setCopy_coding (s : State) (k : CopyCmd) : (s.setCopy k).coding = s.coding := rfl
@[simp] theorem State.setCopy_sideDir (s : State) (k : CopyCmd) : (s.setCopy k).sideDir = s.sideDir := rfl
@[simp] theorem State.setCopy_l2keys (s : State) (k : CopyCmd) : (s.setCopy k).l2keys = s.l2keys := rfl
@[simp] theorem State.setCopy_skeys (s : State) (k : CopyCmd) : (s.setCopy k).skeys = s.skeys := rfl
@[simp] theorem State.setCopy_l1 (s : State) (k : CopyCmd) : (s.setCopy k).l1 = s.l1 := rfl
@[simp] theorem State.setCopy_icache (s : State) (k : CopyCmd) : (s.setCopy k).icache = s.icache := rfl
@[simp] theorem State.setCopy_coils (s : State) (k : CopyCmd) : (s.setCopy k).coils = s.coils := rfl
@[simp] theorem State.setCopy_launches (s : State) (k : CopyCmd) : (s.setCopy k).launches = s.launches := rfl
@[simp] theorem State.setCopy_rcbs (s : State) (k : CopyCmd) : (s.setCopy k).rcbs = s.rcbs := rfl
@[simp] theorem State.setCopy_spawns (s : State) (k : CopyCmd) : (s.setCopy k).spawns = s.spawns := rfl
@[simp] theorem State.setCopy_recovery (s : State) (k : CopyCmd) : (s.setCopy k).recovery = s.recovery := rfl
@[simp] theorem State.setCopy_sgstore (s : State) (k : CopyCmd) : (s.setCopy k).sgstore = s.sgstore := rfl
@[simp] theorem State.setCopy_sgcalls (s : State) (k : CopyCmd) : (s.setCopy k).sgcalls = s.sgcalls := rfl
@[simp] theorem State.setCopy_mxq (s : State) (k : CopyCmd) : (s.setCopy k).mxq = s.mxq := rfl
@[simp] theorem State.setCopy_scouts (s : State) (k : CopyCmd) : (s.setCopy k).scouts = s.scouts := rfl
@[simp] theorem State.setCopy_scrubs (s : State) (k : CopyCmd) : (s.setCopy k).scrubs = s.scrubs := rfl
@[simp] theorem State.setCopy_mccq (s : State) (k : CopyCmd) : (s.setCopy k).mccq = s.mccq := rfl
@[simp] theorem State.setCopy_qslots (s : State) (k : CopyCmd) : (s.setCopy k).qslots = s.qslots := rfl
@[simp] theorem State.setCopy_groups (s : State) (k : CopyCmd) : (s.setCopy k).groups = s.groups := rfl
@[simp] theorem State.setCopy_deltas (s : State) (k : CopyCmd) : (s.setCopy k).deltas = s.deltas := rfl
@[simp] theorem State.setCopy_scanned (s : State) (k : CopyCmd) : (s.setCopy k).scanned = s.scanned := rfl
@[simp] theorem State.setCopy_cores (s : State) (k : CopyCmd) : (s.setCopy k).cores = s.cores := rfl
@[simp] theorem State.setCopy_buckets (s : State) (k : CopyCmd) : (s.setCopy k).buckets = s.buckets := rfl
@[simp] theorem State.setCopy_regs (s : State) (k : CopyCmd) : (s.setCopy k).regs = s.regs := rfl
@[simp] theorem State.setCopy_rsc (s : State) (k : CopyCmd) : (s.setCopy k).rsc = s.rsc := rfl
@[simp] theorem State.setCopy_refclk (s : State) (k : CopyCmd) : (s.setCopy k).refclk = s.refclk := rfl
@[simp] theorem State.setCopy_coreclk (s : State) (k : CopyCmd) : (s.setCopy k).coreclk = s.coreclk := rfl
@[simp] theorem State.setCopy_coilSeq (s : State) (k : CopyCmd) : (s.setCopy k).coilSeq = s.coilSeq := rfl
@[simp] theorem State.setCopy_engines (s : State) (k : CopyCmd) : (s.setCopy k).engines = s.engines := rfl
@[simp] theorem State.setCopy_prof (s : State) (k : CopyCmd) : (s.setCopy k).prof = s.prof := rfl
@[simp] theorem State.setCopy_profClk (s : State) (k : CopyCmd) : (s.setCopy k).profClk = s.profClk := rfl
@[simp] theorem State.setCopy_out (s : State) (k : CopyCmd) : (s.setCopy k).out = s.out := rfl
@[simp] theorem State.setCopy_turn (s : State) (k : CopyCmd) : (s.setCopy k).turn = s.turn := rfl
@[simp] theorem State.setCopy_tried (s : State) (k : CopyCmd) : (s.setCopy k).tried = s.tried := rfl
@[simp] theorem State.setCopy_inputs (s : State) (k : CopyCmd) : (s.setCopy k).inputs = s.inputs := rfl
@[simp] theorem State.setCopy_rr (s : State) (k : CopyCmd) : (s.setCopy k).rr = s.rr := rfl
@[simp] theorem State.setCopy_free (s : State) (k : CopyCmd) : (s.setCopy k).free = s.free := rfl
@[simp] theorem State.setCopy_nextId (s : State) (k : CopyCmd) : (s.setCopy k).nextId = s.nextId := rfl

@[simp] theorem State.setCoreRegs_mem (s : State) (core : Nat) (r : CoreRegs) : (s.setCoreRegs core r).mem = s.mem := rfl
@[simp] theorem State.setCoreRegs_poison (s : State) (core : Nat) (r : CoreRegs) : (s.setCoreRegs core r).poison = s.poison := rfl
@[simp] theorem State.setCoreRegs_coding (s : State) (core : Nat) (r : CoreRegs) : (s.setCoreRegs core r).coding = s.coding := rfl
@[simp] theorem State.setCoreRegs_sideDir (s : State) (core : Nat) (r : CoreRegs) : (s.setCoreRegs core r).sideDir = s.sideDir := rfl
@[simp] theorem State.setCoreRegs_l2keys (s : State) (core : Nat) (r : CoreRegs) : (s.setCoreRegs core r).l2keys = s.l2keys := rfl
@[simp] theorem State.setCoreRegs_skeys (s : State) (core : Nat) (r : CoreRegs) : (s.setCoreRegs core r).skeys = s.skeys := rfl
@[simp] theorem State.setCoreRegs_l1 (s : State) (core : Nat) (r : CoreRegs) : (s.setCoreRegs core r).l1 = s.l1 := rfl
@[simp] theorem State.setCoreRegs_icache (s : State) (core : Nat) (r : CoreRegs) : (s.setCoreRegs core r).icache = s.icache := rfl
@[simp] theorem State.setCoreRegs_coils (s : State) (core : Nat) (r : CoreRegs) : (s.setCoreRegs core r).coils = s.coils := rfl
@[simp] theorem State.setCoreRegs_launches (s : State) (core : Nat) (r : CoreRegs) : (s.setCoreRegs core r).launches = s.launches := rfl
@[simp] theorem State.setCoreRegs_rcbs (s : State) (core : Nat) (r : CoreRegs) : (s.setCoreRegs core r).rcbs = s.rcbs := rfl
@[simp] theorem State.setCoreRegs_spawns (s : State) (core : Nat) (r : CoreRegs) : (s.setCoreRegs core r).spawns = s.spawns := rfl
@[simp] theorem State.setCoreRegs_recovery (s : State) (core : Nat) (r : CoreRegs) : (s.setCoreRegs core r).recovery = s.recovery := rfl
@[simp] theorem State.setCoreRegs_sgstore (s : State) (core : Nat) (r : CoreRegs) : (s.setCoreRegs core r).sgstore = s.sgstore := rfl
@[simp] theorem State.setCoreRegs_sgcalls (s : State) (core : Nat) (r : CoreRegs) : (s.setCoreRegs core r).sgcalls = s.sgcalls := rfl
@[simp] theorem State.setCoreRegs_copies (s : State) (core : Nat) (r : CoreRegs) : (s.setCoreRegs core r).copies = s.copies := rfl
@[simp] theorem State.setCoreRegs_mxq (s : State) (core : Nat) (r : CoreRegs) : (s.setCoreRegs core r).mxq = s.mxq := rfl
@[simp] theorem State.setCoreRegs_scouts (s : State) (core : Nat) (r : CoreRegs) : (s.setCoreRegs core r).scouts = s.scouts := rfl
@[simp] theorem State.setCoreRegs_scrubs (s : State) (core : Nat) (r : CoreRegs) : (s.setCoreRegs core r).scrubs = s.scrubs := rfl
@[simp] theorem State.setCoreRegs_mccq (s : State) (core : Nat) (r : CoreRegs) : (s.setCoreRegs core r).mccq = s.mccq := rfl
@[simp] theorem State.setCoreRegs_qslots (s : State) (core : Nat) (r : CoreRegs) : (s.setCoreRegs core r).qslots = s.qslots := rfl
@[simp] theorem State.setCoreRegs_groups (s : State) (core : Nat) (r : CoreRegs) : (s.setCoreRegs core r).groups = s.groups := rfl
@[simp] theorem State.setCoreRegs_deltas (s : State) (core : Nat) (r : CoreRegs) : (s.setCoreRegs core r).deltas = s.deltas := rfl
@[simp] theorem State.setCoreRegs_scanned (s : State) (core : Nat) (r : CoreRegs) : (s.setCoreRegs core r).scanned = s.scanned := rfl
@[simp] theorem State.setCoreRegs_buckets (s : State) (core : Nat) (r : CoreRegs) : (s.setCoreRegs core r).buckets = s.buckets := rfl
@[simp] theorem State.setCoreRegs_regs (s : State) (core : Nat) (r : CoreRegs) : (s.setCoreRegs core r).regs = s.regs := rfl
@[simp] theorem State.setCoreRegs_rsc (s : State) (core : Nat) (r : CoreRegs) : (s.setCoreRegs core r).rsc = s.rsc := rfl
@[simp] theorem State.setCoreRegs_refclk (s : State) (core : Nat) (r : CoreRegs) : (s.setCoreRegs core r).refclk = s.refclk := rfl
@[simp] theorem State.setCoreRegs_coreclk (s : State) (core : Nat) (r : CoreRegs) : (s.setCoreRegs core r).coreclk = s.coreclk := rfl
@[simp] theorem State.setCoreRegs_coilSeq (s : State) (core : Nat) (r : CoreRegs) : (s.setCoreRegs core r).coilSeq = s.coilSeq := rfl
@[simp] theorem State.setCoreRegs_engines (s : State) (core : Nat) (r : CoreRegs) : (s.setCoreRegs core r).engines = s.engines := rfl
@[simp] theorem State.setCoreRegs_prof (s : State) (core : Nat) (r : CoreRegs) : (s.setCoreRegs core r).prof = s.prof := rfl
@[simp] theorem State.setCoreRegs_profClk (s : State) (core : Nat) (r : CoreRegs) : (s.setCoreRegs core r).profClk = s.profClk := rfl
@[simp] theorem State.setCoreRegs_out (s : State) (core : Nat) (r : CoreRegs) : (s.setCoreRegs core r).out = s.out := rfl
@[simp] theorem State.setCoreRegs_turn (s : State) (core : Nat) (r : CoreRegs) : (s.setCoreRegs core r).turn = s.turn := rfl
@[simp] theorem State.setCoreRegs_tried (s : State) (core : Nat) (r : CoreRegs) : (s.setCoreRegs core r).tried = s.tried := rfl
@[simp] theorem State.setCoreRegs_inputs (s : State) (core : Nat) (r : CoreRegs) : (s.setCoreRegs core r).inputs = s.inputs := rfl
@[simp] theorem State.setCoreRegs_rr (s : State) (core : Nat) (r : CoreRegs) : (s.setCoreRegs core r).rr = s.rr := rfl
@[simp] theorem State.setCoreRegs_free (s : State) (core : Nat) (r : CoreRegs) : (s.setCoreRegs core r).free = s.free := rfl
@[simp] theorem State.setCoreRegs_nextId (s : State) (core : Nat) (r : CoreRegs) : (s.setCoreRegs core r).nextId = s.nextId := rfl
@[simp] theorem State.setCoreRegs_cores (s : State) (core : Nat) (r : CoreRegs) : (s.setCoreRegs core r).cores = s.cores.set core r := rfl

@[simp] theorem State.setQslot_mem (s : State) (n : Nat) (q : QSlot) : (s.setQslot n q).mem = s.mem := rfl
@[simp] theorem State.setQslot_poison (s : State) (n : Nat) (q : QSlot) : (s.setQslot n q).poison = s.poison := rfl
@[simp] theorem State.setQslot_coding (s : State) (n : Nat) (q : QSlot) : (s.setQslot n q).coding = s.coding := rfl
@[simp] theorem State.setQslot_sideDir (s : State) (n : Nat) (q : QSlot) : (s.setQslot n q).sideDir = s.sideDir := rfl
@[simp] theorem State.setQslot_l2keys (s : State) (n : Nat) (q : QSlot) : (s.setQslot n q).l2keys = s.l2keys := rfl
@[simp] theorem State.setQslot_skeys (s : State) (n : Nat) (q : QSlot) : (s.setQslot n q).skeys = s.skeys := rfl
@[simp] theorem State.setQslot_l1 (s : State) (n : Nat) (q : QSlot) : (s.setQslot n q).l1 = s.l1 := rfl
@[simp] theorem State.setQslot_icache (s : State) (n : Nat) (q : QSlot) : (s.setQslot n q).icache = s.icache := rfl
@[simp] theorem State.setQslot_coils (s : State) (n : Nat) (q : QSlot) : (s.setQslot n q).coils = s.coils := rfl
@[simp] theorem State.setQslot_launches (s : State) (n : Nat) (q : QSlot) : (s.setQslot n q).launches = s.launches := rfl
@[simp] theorem State.setQslot_rcbs (s : State) (n : Nat) (q : QSlot) : (s.setQslot n q).rcbs = s.rcbs := rfl
@[simp] theorem State.setQslot_spawns (s : State) (n : Nat) (q : QSlot) : (s.setQslot n q).spawns = s.spawns := rfl
@[simp] theorem State.setQslot_recovery (s : State) (n : Nat) (q : QSlot) : (s.setQslot n q).recovery = s.recovery := rfl
@[simp] theorem State.setQslot_sgstore (s : State) (n : Nat) (q : QSlot) : (s.setQslot n q).sgstore = s.sgstore := rfl
@[simp] theorem State.setQslot_sgcalls (s : State) (n : Nat) (q : QSlot) : (s.setQslot n q).sgcalls = s.sgcalls := rfl
@[simp] theorem State.setQslot_copies (s : State) (n : Nat) (q : QSlot) : (s.setQslot n q).copies = s.copies := rfl
@[simp] theorem State.setQslot_mxq (s : State) (n : Nat) (q : QSlot) : (s.setQslot n q).mxq = s.mxq := rfl
@[simp] theorem State.setQslot_scouts (s : State) (n : Nat) (q : QSlot) : (s.setQslot n q).scouts = s.scouts := rfl
@[simp] theorem State.setQslot_scrubs (s : State) (n : Nat) (q : QSlot) : (s.setQslot n q).scrubs = s.scrubs := rfl
@[simp] theorem State.setQslot_mccq (s : State) (n : Nat) (q : QSlot) : (s.setQslot n q).mccq = s.mccq := rfl
@[simp] theorem State.setQslot_groups (s : State) (n : Nat) (q : QSlot) : (s.setQslot n q).groups = s.groups := rfl
@[simp] theorem State.setQslot_deltas (s : State) (n : Nat) (q : QSlot) : (s.setQslot n q).deltas = s.deltas := rfl
@[simp] theorem State.setQslot_scanned (s : State) (n : Nat) (q : QSlot) : (s.setQslot n q).scanned = s.scanned := rfl
@[simp] theorem State.setQslot_cores (s : State) (n : Nat) (q : QSlot) : (s.setQslot n q).cores = s.cores := rfl
@[simp] theorem State.setQslot_buckets (s : State) (n : Nat) (q : QSlot) : (s.setQslot n q).buckets = s.buckets := rfl
@[simp] theorem State.setQslot_regs (s : State) (n : Nat) (q : QSlot) : (s.setQslot n q).regs = s.regs := rfl
@[simp] theorem State.setQslot_rsc (s : State) (n : Nat) (q : QSlot) : (s.setQslot n q).rsc = s.rsc := rfl
@[simp] theorem State.setQslot_refclk (s : State) (n : Nat) (q : QSlot) : (s.setQslot n q).refclk = s.refclk := rfl
@[simp] theorem State.setQslot_coreclk (s : State) (n : Nat) (q : QSlot) : (s.setQslot n q).coreclk = s.coreclk := rfl
@[simp] theorem State.setQslot_coilSeq (s : State) (n : Nat) (q : QSlot) : (s.setQslot n q).coilSeq = s.coilSeq := rfl
@[simp] theorem State.setQslot_engines (s : State) (n : Nat) (q : QSlot) : (s.setQslot n q).engines = s.engines := rfl
@[simp] theorem State.setQslot_prof (s : State) (n : Nat) (q : QSlot) : (s.setQslot n q).prof = s.prof := rfl
@[simp] theorem State.setQslot_profClk (s : State) (n : Nat) (q : QSlot) : (s.setQslot n q).profClk = s.profClk := rfl
@[simp] theorem State.setQslot_out (s : State) (n : Nat) (q : QSlot) : (s.setQslot n q).out = s.out := rfl
@[simp] theorem State.setQslot_turn (s : State) (n : Nat) (q : QSlot) : (s.setQslot n q).turn = s.turn := rfl
@[simp] theorem State.setQslot_tried (s : State) (n : Nat) (q : QSlot) : (s.setQslot n q).tried = s.tried := rfl
@[simp] theorem State.setQslot_inputs (s : State) (n : Nat) (q : QSlot) : (s.setQslot n q).inputs = s.inputs := rfl
@[simp] theorem State.setQslot_rr (s : State) (n : Nat) (q : QSlot) : (s.setQslot n q).rr = s.rr := rfl
@[simp] theorem State.setQslot_free (s : State) (n : Nat) (q : QSlot) : (s.setQslot n q).free = s.free := rfl
@[simp] theorem State.setQslot_nextId (s : State) (n : Nat) (q : QSlot) : (s.setQslot n q).nextId = s.nextId := rfl
@[simp] theorem State.setQslot_qslots (s : State) (n : Nat) (q : QSlot) : (s.setQslot n q).qslots = s.qslots.set n q := rfl

/-! ## The counts of the profiling unit -/

@[simp] theorem State.profiled_mem (t : State) (s : State) : (s.profiled t).mem = t.mem := rfl
@[simp] theorem State.profiled_poison (t : State) (s : State) : (s.profiled t).poison = t.poison := rfl
@[simp] theorem State.profiled_coding (t : State) (s : State) : (s.profiled t).coding = t.coding := rfl
@[simp] theorem State.profiled_sideDir (t : State) (s : State) : (s.profiled t).sideDir = t.sideDir := rfl
@[simp] theorem State.profiled_l2keys (t : State) (s : State) : (s.profiled t).l2keys = t.l2keys := rfl
@[simp] theorem State.profiled_skeys (t : State) (s : State) : (s.profiled t).skeys = t.skeys := rfl
@[simp] theorem State.profiled_l1 (t : State) (s : State) : (s.profiled t).l1 = t.l1 := rfl
@[simp] theorem State.profiled_icache (t : State) (s : State) : (s.profiled t).icache = t.icache := rfl
@[simp] theorem State.profiled_coils (t : State) (s : State) : (s.profiled t).coils = t.coils := rfl
@[simp] theorem State.profiled_launches (t : State) (s : State) : (s.profiled t).launches = t.launches := rfl
@[simp] theorem State.profiled_rcbs (t : State) (s : State) : (s.profiled t).rcbs = t.rcbs := rfl
@[simp] theorem State.profiled_spawns (t : State) (s : State) : (s.profiled t).spawns = t.spawns := rfl
@[simp] theorem State.profiled_recovery (t : State) (s : State) : (s.profiled t).recovery = t.recovery := rfl
@[simp] theorem State.profiled_sgstore (t : State) (s : State) : (s.profiled t).sgstore = t.sgstore := rfl
@[simp] theorem State.profiled_sgcalls (t : State) (s : State) : (s.profiled t).sgcalls = t.sgcalls := rfl
@[simp] theorem State.profiled_copies (t : State) (s : State) : (s.profiled t).copies = t.copies := rfl
@[simp] theorem State.profiled_mxq (t : State) (s : State) : (s.profiled t).mxq = t.mxq := rfl
@[simp] theorem State.profiled_scouts (t : State) (s : State) : (s.profiled t).scouts = t.scouts := rfl
@[simp] theorem State.profiled_scrubs (t : State) (s : State) : (s.profiled t).scrubs = t.scrubs := rfl
@[simp] theorem State.profiled_mccq (t : State) (s : State) : (s.profiled t).mccq = t.mccq := rfl
@[simp] theorem State.profiled_qslots (t : State) (s : State) : (s.profiled t).qslots = t.qslots := rfl
@[simp] theorem State.profiled_groups (t : State) (s : State) : (s.profiled t).groups = t.groups := rfl
@[simp] theorem State.profiled_deltas (t : State) (s : State) : (s.profiled t).deltas = t.deltas := rfl
@[simp] theorem State.profiled_scanned (t : State) (s : State) : (s.profiled t).scanned = t.scanned := rfl
@[simp] theorem State.profiled_cores (t : State) (s : State) : (s.profiled t).cores = t.cores := rfl
@[simp] theorem State.profiled_buckets (t : State) (s : State) : (s.profiled t).buckets = t.buckets := rfl
@[simp] theorem State.profiled_regs (t : State) (s : State) : (s.profiled t).regs = t.regs := rfl
@[simp] theorem State.profiled_rsc (t : State) (s : State) : (s.profiled t).rsc = t.rsc := rfl
@[simp] theorem State.profiled_refclk (t : State) (s : State) : (s.profiled t).refclk = t.refclk := rfl
@[simp] theorem State.profiled_coreclk (t : State) (s : State) : (s.profiled t).coreclk = t.coreclk := rfl
@[simp] theorem State.profiled_coilSeq (t : State) (s : State) : (s.profiled t).coilSeq = t.coilSeq := rfl
@[simp] theorem State.profiled_engines (t : State) (s : State) : (s.profiled t).engines = t.engines := rfl
@[simp] theorem State.profiled_profClk (t : State) (s : State) : (s.profiled t).profClk = t.profClk := rfl
@[simp] theorem State.profiled_out (t : State) (s : State) : (s.profiled t).out = t.out := rfl
@[simp] theorem State.profiled_turn (t : State) (s : State) : (s.profiled t).turn = t.turn := rfl
@[simp] theorem State.profiled_tried (t : State) (s : State) : (s.profiled t).tried = t.tried := rfl
@[simp] theorem State.profiled_inputs (t : State) (s : State) : (s.profiled t).inputs = t.inputs := rfl
@[simp] theorem State.profiled_rr (t : State) (s : State) : (s.profiled t).rr = t.rr := rfl
@[simp] theorem State.profiled_free (t : State) (s : State) : (s.profiled t).free = t.free := rfl
@[simp] theorem State.profiled_nextId (t : State) (s : State) : (s.profiled t).nextId = t.nextId := rfl

/-! ## A coil -/

@[simp] theorem Coil.setS_id (c : Coil) (n : Nat) (x : Word) : (c.setS n x).id = c.id := rfl
@[simp] theorem Coil.setS_core (c : Coil) (n : Nat) (x : Word) : (c.setS n x).core = c.core := rfl
@[simp] theorem Coil.setS_cslot (c : Coil) (n : Nat) (x : Word) : (c.setS n x).cslot = c.cslot := rfl
@[simp] theorem Coil.setS_resident (c : Coil) (n : Nat) (x : Word) : (c.setS n x).resident = c.resident := rfl
@[simp] theorem Coil.setS_st (c : Coil) (n : Nat) (x : Word) : (c.setS n x).st = c.st := rfl
@[simp] theorem Coil.setS_asid (c : Coil) (n : Nat) (x : Word) : (c.setS n x).asid = c.asid := rfl
@[simp] theorem Coil.setS_ctxbase (c : Coil) (n : Nat) (x : Word) : (c.setS n x).ctxbase = c.ctxbase := rfl
@[simp] theorem Coil.setS_rcb (c : Coil) (n : Nat) (x : Word) : (c.setS n x).rcb = c.rcb := rfl
@[simp] theorem Coil.setS_partw (c : Coil) (n : Nat) (x : Word) : (c.setS n x).partw = c.partw := rfl
@[simp] theorem Coil.setS_window (c : Coil) (n : Nat) (x : Word) : (c.setS n x).window = c.window := rfl
@[simp] theorem Coil.setS_task (c : Coil) (n : Nat) (x : Word) : (c.setS n x).task = c.task := rfl
@[simp] theorem Coil.setS_launch (c : Coil) (n : Nat) (x : Word) : (c.setS n x).launch = c.launch := rfl
@[simp] theorem Coil.setS_pin (c : Coil) (n : Nat) (x : Word) : (c.setS n x).pin = c.pin := rfl
@[simp] theorem Coil.setS_packet (c : Coil) (n : Nat) (x : Word) : (c.setS n x).packet = c.packet := rfl
@[simp] theorem Coil.setS_index (c : Coil) (n : Nat) (x : Word) : (c.setS n x).index = c.index := rfl
@[simp] theorem Coil.setS_sub (c : Coil) (n : Nat) (x : Word) : (c.setS n x).sub = c.sub := rfl
@[simp] theorem Coil.setS_fibres (c : Coil) (n : Nat) (x : Word) : (c.setS n x).fibres = c.fibres := rfl
@[simp] theorem Coil.setS_sm (c : Coil) (n : Nat) (x : Word) : (c.setS n x).sm = c.sm := rfl
@[simp] theorem Coil.setS_hs (c : Coil) (n : Nat) (x : Word) : (c.setS n x).hs = c.hs := rfl
@[simp] theorem Coil.setS_binds (c : Coil) (n : Nat) (x : Word) : (c.setS n x).binds = c.binds := rfl
@[simp] theorem Coil.setS_g (c : Coil) (n : Nat) (x : Word) : (c.setS n x).g = c.g := rfl
@[simp] theorem Coil.setS_b (c : Coil) (n : Nat) (x : Word) : (c.setS n x).b = c.b := rfl
@[simp] theorem Coil.setS_q (c : Coil) (n : Nat) (x : Word) : (c.setS n x).q = c.q := rfl
@[simp] theorem Coil.setS_sg (c : Coil) (n : Nat) (x : Word) : (c.setS n x).sg = c.sg := rfl
@[simp] theorem Coil.setS_m (c : Coil) (n : Nat) (x : Word) : (c.setS n x).m = c.m := rfl
@[simp] theorem Coil.setS_tiles (c : Coil) (n : Nat) (x : Word) : (c.setS n x).tiles = c.tiles := rfl
@[simp] theorem Coil.setS_accs (c : Coil) (n : Nat) (x : Word) : (c.setS n x).accs = c.accs := rfl
@[simp] theorem Coil.setS_scratch (c : Coil) (n : Nat) (x : Word) : (c.setS n x).scratch = c.scratch := rfl
@[simp] theorem Coil.setS_spoiled (c : Coil) (n : Nat) (x : Word) : (c.setS n x).spoiled = c.spoiled := rfl
@[simp] theorem Coil.setS_blocks (c : Coil) (n : Nat) (x : Word) : (c.setS n x).blocks = c.blocks := rfl
@[simp] theorem Coil.setS_pool (c : Coil) (n : Nat) (x : Word) : (c.setS n x).pool = c.pool := rfl
@[simp] theorem Coil.setS_frame (c : Coil) (n : Nat) (x : Word) : (c.setS n x).frame = c.frame := rfl
@[simp] theorem Coil.setS_own (c : Coil) (n : Nat) (x : Word) : (c.setS n x).own = c.own := rfl
@[simp] theorem Coil.setS_priv (c : Coil) (n : Nat) (x : Word) : (c.setS n x).priv = c.priv := rfl
@[simp] theorem Coil.setS_stores (c : Coil) (n : Nat) (x : Word) : (c.setS n x).stores = c.stores := rfl
@[simp] theorem Coil.setS_waits (c : Coil) (n : Nat) (x : Word) : (c.setS n x).waits = c.waits := rfl
@[simp] theorem Coil.setS_insts (c : Coil) (n : Nat) (x : Word) : (c.setS n x).insts = c.insts := rfl
@[simp] theorem Coil.setS_decl (c : Coil) (n : Nat) (x : Word) : (c.setS n x).decl = c.decl := rfl
@[simp] theorem Coil.setS_last (c : Coil) (n : Nat) (x : Word) : (c.setS n x).last = c.last := rfl
@[simp] theorem Coil.setS_chk (c : Coil) (n : Nat) (x : Word) : (c.setS n x).chk = c.chk := rfl
@[simp] theorem Coil.setS_watch (c : Coil) (n : Nat) (x : Word) : (c.setS n x).watch = c.watch := rfl
@[simp] theorem Coil.setS_trap (c : Coil) (n : Nat) (x : Word) : (c.setS n x).trap = c.trap := rfl
@[simp] theorem Coil.setS_instrs (c : Coil) (n : Nat) (x : Word) : (c.setS n x).instrs = c.instrs := rfl
@[simp] theorem Coil.setS_pwr (c : Coil) (n : Nat) (x : Word) : (c.setS n x).pwr = c.pwr := rfl
@[simp] theorem Coil.setS_resTime (c : Coil) (n : Nat) (x : Word) : (c.setS n x).resTime = c.resTime := rfl
@[simp] theorem Coil.setS_preempts (c : Coil) (n : Nat) (x : Word) : (c.setS n x).preempts = c.preempts := rfl
@[simp] theorem Coil.setS_relaunches (c : Coil) (n : Nat) (x : Word) : (c.setS n x).relaunches = c.relaunches := rfl
@[simp] theorem Coil.setS_stops (c : Coil) (n : Nat) (x : Word) : (c.setS n x).stops = c.stops := rfl
@[simp] theorem Coil.setS_deadlock (c : Coil) (n : Nat) (x : Word) : (c.setS n x).deadlock = c.deadlock := rfl
@[simp] theorem Coil.setS_stalled (c : Coil) (n : Nat) (x : Word) : (c.setS n x).stalled = c.stalled := rfl
@[simp] theorem Coil.setS_eng (c : Coil) (n : Nat) (x : Word) : (c.setS n x).eng = c.eng := rfl
@[simp] theorem Coil.setS_mcc (c : Coil) (n : Nat) (x : Word) : (c.setS n x).mcc = c.mcc := rfl
@[simp] theorem Coil.setS_callNo (c : Coil) (n : Nat) (x : Word) : (c.setS n x).callNo = c.callNo := rfl
@[simp] theorem Coil.setS_ueAt (c : Coil) (n : Nat) (x : Word) : (c.setS n x).ueAt = c.ueAt := rfl
@[simp] theorem Coil.setS_stepping (c : Coil) (n : Nat) (x : Word) : (c.setS n x).stepping = c.stepping := rfl
@[simp] theorem Coil.setS_ignoreWatch (c : Coil) (n : Nat) (x : Word) : (c.setS n x).ignoreWatch = c.ignoreWatch := rfl
@[simp] theorem Coil.setS_restop (c : Coil) (n : Nat) (x : Word) : (c.setS n x).restop = c.restop := rfl
@[simp] theorem Coil.setS_recOf (c : Coil) (n : Nat) (x : Word) : (c.setS n x).recOf = c.recOf := rfl
@[simp] theorem Coil.setS_olds (c : Coil) (n : Nat) (x : Word) : (c.setS n x).olds = c.olds := rfl
@[simp] theorem Coil.setS_s (c : Coil) (n : Nat) (x : Word) : (c.setS n x).s = c.s.set n x := rfl

@[simp] theorem Coil.taint_id (c : Coil) (n : Nat) (k : Poison) : (c.taint n k).id = c.id := rfl
@[simp] theorem Coil.taint_core (c : Coil) (n : Nat) (k : Poison) : (c.taint n k).core = c.core := rfl
@[simp] theorem Coil.taint_cslot (c : Coil) (n : Nat) (k : Poison) : (c.taint n k).cslot = c.cslot := rfl
@[simp] theorem Coil.taint_resident (c : Coil) (n : Nat) (k : Poison) : (c.taint n k).resident = c.resident := rfl
@[simp] theorem Coil.taint_st (c : Coil) (n : Nat) (k : Poison) : (c.taint n k).st = c.st := rfl
@[simp] theorem Coil.taint_asid (c : Coil) (n : Nat) (k : Poison) : (c.taint n k).asid = c.asid := rfl
@[simp] theorem Coil.taint_ctxbase (c : Coil) (n : Nat) (k : Poison) : (c.taint n k).ctxbase = c.ctxbase := rfl
@[simp] theorem Coil.taint_rcb (c : Coil) (n : Nat) (k : Poison) : (c.taint n k).rcb = c.rcb := rfl
@[simp] theorem Coil.taint_partw (c : Coil) (n : Nat) (k : Poison) : (c.taint n k).partw = c.partw := rfl
@[simp] theorem Coil.taint_window (c : Coil) (n : Nat) (k : Poison) : (c.taint n k).window = c.window := rfl
@[simp] theorem Coil.taint_task (c : Coil) (n : Nat) (k : Poison) : (c.taint n k).task = c.task := rfl
@[simp] theorem Coil.taint_launch (c : Coil) (n : Nat) (k : Poison) : (c.taint n k).launch = c.launch := rfl
@[simp] theorem Coil.taint_pin (c : Coil) (n : Nat) (k : Poison) : (c.taint n k).pin = c.pin := rfl
@[simp] theorem Coil.taint_packet (c : Coil) (n : Nat) (k : Poison) : (c.taint n k).packet = c.packet := rfl
@[simp] theorem Coil.taint_index (c : Coil) (n : Nat) (k : Poison) : (c.taint n k).index = c.index := rfl
@[simp] theorem Coil.taint_sub (c : Coil) (n : Nat) (k : Poison) : (c.taint n k).sub = c.sub := rfl
@[simp] theorem Coil.taint_fibres (c : Coil) (n : Nat) (k : Poison) : (c.taint n k).fibres = c.fibres := rfl
@[simp] theorem Coil.taint_s (c : Coil) (n : Nat) (k : Poison) : (c.taint n k).s = c.s := rfl
@[simp] theorem Coil.taint_sm (c : Coil) (n : Nat) (k : Poison) : (c.taint n k).sm = c.sm := rfl
@[simp] theorem Coil.taint_hs (c : Coil) (n : Nat) (k : Poison) : (c.taint n k).hs = c.hs := rfl
@[simp] theorem Coil.taint_binds (c : Coil) (n : Nat) (k : Poison) : (c.taint n k).binds = c.binds := rfl
@[simp] theorem Coil.taint_g (c : Coil) (n : Nat) (k : Poison) : (c.taint n k).g = c.g := rfl
@[simp] theorem Coil.taint_b (c : Coil) (n : Nat) (k : Poison) : (c.taint n k).b = c.b := rfl
@[simp] theorem Coil.taint_q (c : Coil) (n : Nat) (k : Poison) : (c.taint n k).q = c.q := rfl
@[simp] theorem Coil.taint_sg (c : Coil) (n : Nat) (k : Poison) : (c.taint n k).sg = c.sg := rfl
@[simp] theorem Coil.taint_m (c : Coil) (n : Nat) (k : Poison) : (c.taint n k).m = c.m := rfl
@[simp] theorem Coil.taint_tiles (c : Coil) (n : Nat) (k : Poison) : (c.taint n k).tiles = c.tiles := rfl
@[simp] theorem Coil.taint_accs (c : Coil) (n : Nat) (k : Poison) : (c.taint n k).accs = c.accs := rfl
@[simp] theorem Coil.taint_scratch (c : Coil) (n : Nat) (k : Poison) : (c.taint n k).scratch = c.scratch := rfl
@[simp] theorem Coil.taint_spoiled (c : Coil) (n : Nat) (k : Poison) : (c.taint n k).spoiled = c.spoiled := rfl
@[simp] theorem Coil.taint_blocks (c : Coil) (n : Nat) (k : Poison) : (c.taint n k).blocks = c.blocks := rfl
@[simp] theorem Coil.taint_pool (c : Coil) (n : Nat) (k : Poison) : (c.taint n k).pool = c.pool := rfl
@[simp] theorem Coil.taint_frame (c : Coil) (n : Nat) (k : Poison) : (c.taint n k).frame = c.frame := rfl
@[simp] theorem Coil.taint_own (c : Coil) (n : Nat) (k : Poison) : (c.taint n k).own = c.own := rfl
@[simp] theorem Coil.taint_priv (c : Coil) (n : Nat) (k : Poison) : (c.taint n k).priv = c.priv := rfl
@[simp] theorem Coil.taint_stores (c : Coil) (n : Nat) (k : Poison) : (c.taint n k).stores = c.stores := rfl
@[simp] theorem Coil.taint_waits (c : Coil) (n : Nat) (k : Poison) : (c.taint n k).waits = c.waits := rfl
@[simp] theorem Coil.taint_insts (c : Coil) (n : Nat) (k : Poison) : (c.taint n k).insts = c.insts := rfl
@[simp] theorem Coil.taint_decl (c : Coil) (n : Nat) (k : Poison) : (c.taint n k).decl = c.decl := rfl
@[simp] theorem Coil.taint_last (c : Coil) (n : Nat) (k : Poison) : (c.taint n k).last = c.last := rfl
@[simp] theorem Coil.taint_chk (c : Coil) (n : Nat) (k : Poison) : (c.taint n k).chk = c.chk := rfl
@[simp] theorem Coil.taint_watch (c : Coil) (n : Nat) (k : Poison) : (c.taint n k).watch = c.watch := rfl
@[simp] theorem Coil.taint_trap (c : Coil) (n : Nat) (k : Poison) : (c.taint n k).trap = c.trap := rfl
@[simp] theorem Coil.taint_instrs (c : Coil) (n : Nat) (k : Poison) : (c.taint n k).instrs = c.instrs := rfl
@[simp] theorem Coil.taint_pwr (c : Coil) (n : Nat) (k : Poison) : (c.taint n k).pwr = c.pwr := rfl
@[simp] theorem Coil.taint_resTime (c : Coil) (n : Nat) (k : Poison) : (c.taint n k).resTime = c.resTime := rfl
@[simp] theorem Coil.taint_preempts (c : Coil) (n : Nat) (k : Poison) : (c.taint n k).preempts = c.preempts := rfl
@[simp] theorem Coil.taint_relaunches (c : Coil) (n : Nat) (k : Poison) : (c.taint n k).relaunches = c.relaunches := rfl
@[simp] theorem Coil.taint_stops (c : Coil) (n : Nat) (k : Poison) : (c.taint n k).stops = c.stops := rfl
@[simp] theorem Coil.taint_deadlock (c : Coil) (n : Nat) (k : Poison) : (c.taint n k).deadlock = c.deadlock := rfl
@[simp] theorem Coil.taint_stalled (c : Coil) (n : Nat) (k : Poison) : (c.taint n k).stalled = c.stalled := rfl
@[simp] theorem Coil.taint_eng (c : Coil) (n : Nat) (k : Poison) : (c.taint n k).eng = c.eng := rfl
@[simp] theorem Coil.taint_mcc (c : Coil) (n : Nat) (k : Poison) : (c.taint n k).mcc = c.mcc := rfl
@[simp] theorem Coil.taint_callNo (c : Coil) (n : Nat) (k : Poison) : (c.taint n k).callNo = c.callNo := rfl
@[simp] theorem Coil.taint_ueAt (c : Coil) (n : Nat) (k : Poison) : (c.taint n k).ueAt = c.ueAt := rfl
@[simp] theorem Coil.taint_stepping (c : Coil) (n : Nat) (k : Poison) : (c.taint n k).stepping = c.stepping := rfl
@[simp] theorem Coil.taint_ignoreWatch (c : Coil) (n : Nat) (k : Poison) : (c.taint n k).ignoreWatch = c.ignoreWatch := rfl
@[simp] theorem Coil.taint_restop (c : Coil) (n : Nat) (k : Poison) : (c.taint n k).restop = c.restop := rfl
@[simp] theorem Coil.taint_recOf (c : Coil) (n : Nat) (k : Poison) : (c.taint n k).recOf = c.recOf := rfl
@[simp] theorem Coil.taint_olds (c : Coil) (n : Nat) (k : Poison) : (c.taint n k).olds = c.olds := rfl

@[simp] theorem Coil.onFibre_id (c : Coil) (i : Nat) (g : Fibre → Fibre) : (c.onFibre i g).id = c.id := rfl
@[simp] theorem Coil.onFibre_core (c : Coil) (i : Nat) (g : Fibre → Fibre) : (c.onFibre i g).core = c.core := rfl
@[simp] theorem Coil.onFibre_cslot (c : Coil) (i : Nat) (g : Fibre → Fibre) : (c.onFibre i g).cslot = c.cslot := rfl
@[simp] theorem Coil.onFibre_resident (c : Coil) (i : Nat) (g : Fibre → Fibre) : (c.onFibre i g).resident = c.resident := rfl
@[simp] theorem Coil.onFibre_st (c : Coil) (i : Nat) (g : Fibre → Fibre) : (c.onFibre i g).st = c.st := rfl
@[simp] theorem Coil.onFibre_asid (c : Coil) (i : Nat) (g : Fibre → Fibre) : (c.onFibre i g).asid = c.asid := rfl
@[simp] theorem Coil.onFibre_ctxbase (c : Coil) (i : Nat) (g : Fibre → Fibre) : (c.onFibre i g).ctxbase = c.ctxbase := rfl
@[simp] theorem Coil.onFibre_rcb (c : Coil) (i : Nat) (g : Fibre → Fibre) : (c.onFibre i g).rcb = c.rcb := rfl
@[simp] theorem Coil.onFibre_partw (c : Coil) (i : Nat) (g : Fibre → Fibre) : (c.onFibre i g).partw = c.partw := rfl
@[simp] theorem Coil.onFibre_window (c : Coil) (i : Nat) (g : Fibre → Fibre) : (c.onFibre i g).window = c.window := rfl
@[simp] theorem Coil.onFibre_task (c : Coil) (i : Nat) (g : Fibre → Fibre) : (c.onFibre i g).task = c.task := rfl
@[simp] theorem Coil.onFibre_launch (c : Coil) (i : Nat) (g : Fibre → Fibre) : (c.onFibre i g).launch = c.launch := rfl
@[simp] theorem Coil.onFibre_pin (c : Coil) (i : Nat) (g : Fibre → Fibre) : (c.onFibre i g).pin = c.pin := rfl
@[simp] theorem Coil.onFibre_packet (c : Coil) (i : Nat) (g : Fibre → Fibre) : (c.onFibre i g).packet = c.packet := rfl
@[simp] theorem Coil.onFibre_index (c : Coil) (i : Nat) (g : Fibre → Fibre) : (c.onFibre i g).index = c.index := rfl
@[simp] theorem Coil.onFibre_sub (c : Coil) (i : Nat) (g : Fibre → Fibre) : (c.onFibre i g).sub = c.sub := rfl
@[simp] theorem Coil.onFibre_s (c : Coil) (i : Nat) (g : Fibre → Fibre) : (c.onFibre i g).s = c.s := rfl
@[simp] theorem Coil.onFibre_spoison (c : Coil) (i : Nat) (g : Fibre → Fibre) : (c.onFibre i g).spoison = c.spoison := rfl
@[simp] theorem Coil.onFibre_sm (c : Coil) (i : Nat) (g : Fibre → Fibre) : (c.onFibre i g).sm = c.sm := rfl
@[simp] theorem Coil.onFibre_hs (c : Coil) (i : Nat) (g : Fibre → Fibre) : (c.onFibre i g).hs = c.hs := rfl
@[simp] theorem Coil.onFibre_binds (c : Coil) (i : Nat) (g : Fibre → Fibre) : (c.onFibre i g).binds = c.binds := rfl
@[simp] theorem Coil.onFibre_g (c : Coil) (i : Nat) (g : Fibre → Fibre) : (c.onFibre i g).g = c.g := rfl
@[simp] theorem Coil.onFibre_b (c : Coil) (i : Nat) (g : Fibre → Fibre) : (c.onFibre i g).b = c.b := rfl
@[simp] theorem Coil.onFibre_q (c : Coil) (i : Nat) (g : Fibre → Fibre) : (c.onFibre i g).q = c.q := rfl
@[simp] theorem Coil.onFibre_sg (c : Coil) (i : Nat) (g : Fibre → Fibre) : (c.onFibre i g).sg = c.sg := rfl
@[simp] theorem Coil.onFibre_m (c : Coil) (i : Nat) (g : Fibre → Fibre) : (c.onFibre i g).m = c.m := rfl
@[simp] theorem Coil.onFibre_tiles (c : Coil) (i : Nat) (g : Fibre → Fibre) : (c.onFibre i g).tiles = c.tiles := rfl
@[simp] theorem Coil.onFibre_accs (c : Coil) (i : Nat) (g : Fibre → Fibre) : (c.onFibre i g).accs = c.accs := rfl
@[simp] theorem Coil.onFibre_scratch (c : Coil) (i : Nat) (g : Fibre → Fibre) : (c.onFibre i g).scratch = c.scratch := rfl
@[simp] theorem Coil.onFibre_spoiled (c : Coil) (i : Nat) (g : Fibre → Fibre) : (c.onFibre i g).spoiled = c.spoiled := rfl
@[simp] theorem Coil.onFibre_blocks (c : Coil) (i : Nat) (g : Fibre → Fibre) : (c.onFibre i g).blocks = c.blocks := rfl
@[simp] theorem Coil.onFibre_pool (c : Coil) (i : Nat) (g : Fibre → Fibre) : (c.onFibre i g).pool = c.pool := rfl
@[simp] theorem Coil.onFibre_frame (c : Coil) (i : Nat) (g : Fibre → Fibre) : (c.onFibre i g).frame = c.frame := rfl
@[simp] theorem Coil.onFibre_own (c : Coil) (i : Nat) (g : Fibre → Fibre) : (c.onFibre i g).own = c.own := rfl
@[simp] theorem Coil.onFibre_priv (c : Coil) (i : Nat) (g : Fibre → Fibre) : (c.onFibre i g).priv = c.priv := rfl
@[simp] theorem Coil.onFibre_stores (c : Coil) (i : Nat) (g : Fibre → Fibre) : (c.onFibre i g).stores = c.stores := rfl
@[simp] theorem Coil.onFibre_waits (c : Coil) (i : Nat) (g : Fibre → Fibre) : (c.onFibre i g).waits = c.waits := rfl
@[simp] theorem Coil.onFibre_insts (c : Coil) (i : Nat) (g : Fibre → Fibre) : (c.onFibre i g).insts = c.insts := rfl
@[simp] theorem Coil.onFibre_decl (c : Coil) (i : Nat) (g : Fibre → Fibre) : (c.onFibre i g).decl = c.decl := rfl
@[simp] theorem Coil.onFibre_last (c : Coil) (i : Nat) (g : Fibre → Fibre) : (c.onFibre i g).last = c.last := rfl
@[simp] theorem Coil.onFibre_chk (c : Coil) (i : Nat) (g : Fibre → Fibre) : (c.onFibre i g).chk = c.chk := rfl
@[simp] theorem Coil.onFibre_watch (c : Coil) (i : Nat) (g : Fibre → Fibre) : (c.onFibre i g).watch = c.watch := rfl
@[simp] theorem Coil.onFibre_trap (c : Coil) (i : Nat) (g : Fibre → Fibre) : (c.onFibre i g).trap = c.trap := rfl
@[simp] theorem Coil.onFibre_instrs (c : Coil) (i : Nat) (g : Fibre → Fibre) : (c.onFibre i g).instrs = c.instrs := rfl
@[simp] theorem Coil.onFibre_pwr (c : Coil) (i : Nat) (g : Fibre → Fibre) : (c.onFibre i g).pwr = c.pwr := rfl
@[simp] theorem Coil.onFibre_resTime (c : Coil) (i : Nat) (g : Fibre → Fibre) : (c.onFibre i g).resTime = c.resTime := rfl
@[simp] theorem Coil.onFibre_preempts (c : Coil) (i : Nat) (g : Fibre → Fibre) : (c.onFibre i g).preempts = c.preempts := rfl
@[simp] theorem Coil.onFibre_relaunches (c : Coil) (i : Nat) (g : Fibre → Fibre) : (c.onFibre i g).relaunches = c.relaunches := rfl
@[simp] theorem Coil.onFibre_stops (c : Coil) (i : Nat) (g : Fibre → Fibre) : (c.onFibre i g).stops = c.stops := rfl
@[simp] theorem Coil.onFibre_deadlock (c : Coil) (i : Nat) (g : Fibre → Fibre) : (c.onFibre i g).deadlock = c.deadlock := rfl
@[simp] theorem Coil.onFibre_stalled (c : Coil) (i : Nat) (g : Fibre → Fibre) : (c.onFibre i g).stalled = c.stalled := rfl
@[simp] theorem Coil.onFibre_eng (c : Coil) (i : Nat) (g : Fibre → Fibre) : (c.onFibre i g).eng = c.eng := rfl
@[simp] theorem Coil.onFibre_mcc (c : Coil) (i : Nat) (g : Fibre → Fibre) : (c.onFibre i g).mcc = c.mcc := rfl
@[simp] theorem Coil.onFibre_callNo (c : Coil) (i : Nat) (g : Fibre → Fibre) : (c.onFibre i g).callNo = c.callNo := rfl
@[simp] theorem Coil.onFibre_ueAt (c : Coil) (i : Nat) (g : Fibre → Fibre) : (c.onFibre i g).ueAt = c.ueAt := rfl
@[simp] theorem Coil.onFibre_stepping (c : Coil) (i : Nat) (g : Fibre → Fibre) : (c.onFibre i g).stepping = c.stepping := rfl
@[simp] theorem Coil.onFibre_ignoreWatch (c : Coil) (i : Nat) (g : Fibre → Fibre) : (c.onFibre i g).ignoreWatch = c.ignoreWatch := rfl
@[simp] theorem Coil.onFibre_restop (c : Coil) (i : Nat) (g : Fibre → Fibre) : (c.onFibre i g).restop = c.restop := rfl
@[simp] theorem Coil.onFibre_recOf (c : Coil) (i : Nat) (g : Fibre → Fibre) : (c.onFibre i g).recOf = c.recOf := rfl
@[simp] theorem Coil.onFibre_olds (c : Coil) (i : Nat) (g : Fibre → Fibre) : (c.onFibre i g).olds = c.olds := rfl

@[simp] theorem Coil.movePlace_id (c : Coil) (a b : Place) (n : Nat) : (c.movePlace a b n).id = c.id := rfl
@[simp] theorem Coil.movePlace_core (c : Coil) (a b : Place) (n : Nat) : (c.movePlace a b n).core = c.core := rfl
@[simp] theorem Coil.movePlace_cslot (c : Coil) (a b : Place) (n : Nat) : (c.movePlace a b n).cslot = c.cslot := rfl
@[simp] theorem Coil.movePlace_resident (c : Coil) (a b : Place) (n : Nat) : (c.movePlace a b n).resident = c.resident := rfl
@[simp] theorem Coil.movePlace_st (c : Coil) (a b : Place) (n : Nat) : (c.movePlace a b n).st = c.st := rfl
@[simp] theorem Coil.movePlace_asid (c : Coil) (a b : Place) (n : Nat) : (c.movePlace a b n).asid = c.asid := rfl
@[simp] theorem Coil.movePlace_ctxbase (c : Coil) (a b : Place) (n : Nat) : (c.movePlace a b n).ctxbase = c.ctxbase := rfl
@[simp] theorem Coil.movePlace_rcb (c : Coil) (a b : Place) (n : Nat) : (c.movePlace a b n).rcb = c.rcb := rfl
@[simp] theorem Coil.movePlace_partw (c : Coil) (a b : Place) (n : Nat) : (c.movePlace a b n).partw = c.partw := rfl
@[simp] theorem Coil.movePlace_window (c : Coil) (a b : Place) (n : Nat) : (c.movePlace a b n).window = c.window := rfl
@[simp] theorem Coil.movePlace_task (c : Coil) (a b : Place) (n : Nat) : (c.movePlace a b n).task = c.task := rfl
@[simp] theorem Coil.movePlace_launch (c : Coil) (a b : Place) (n : Nat) : (c.movePlace a b n).launch = c.launch := rfl
@[simp] theorem Coil.movePlace_pin (c : Coil) (a b : Place) (n : Nat) : (c.movePlace a b n).pin = c.pin := rfl
@[simp] theorem Coil.movePlace_packet (c : Coil) (a b : Place) (n : Nat) : (c.movePlace a b n).packet = c.packet := rfl
@[simp] theorem Coil.movePlace_index (c : Coil) (a b : Place) (n : Nat) : (c.movePlace a b n).index = c.index := rfl
@[simp] theorem Coil.movePlace_sub (c : Coil) (a b : Place) (n : Nat) : (c.movePlace a b n).sub = c.sub := rfl
@[simp] theorem Coil.movePlace_s (c : Coil) (a b : Place) (n : Nat) : (c.movePlace a b n).s = c.s := rfl
@[simp] theorem Coil.movePlace_spoison (c : Coil) (a b : Place) (n : Nat) : (c.movePlace a b n).spoison = c.spoison := rfl
@[simp] theorem Coil.movePlace_sm (c : Coil) (a b : Place) (n : Nat) : (c.movePlace a b n).sm = c.sm := rfl
@[simp] theorem Coil.movePlace_hs (c : Coil) (a b : Place) (n : Nat) : (c.movePlace a b n).hs = c.hs := rfl
@[simp] theorem Coil.movePlace_binds (c : Coil) (a b : Place) (n : Nat) : (c.movePlace a b n).binds = c.binds := rfl
@[simp] theorem Coil.movePlace_g (c : Coil) (a b : Place) (n : Nat) : (c.movePlace a b n).g = c.g := rfl
@[simp] theorem Coil.movePlace_b (c : Coil) (a b : Place) (n : Nat) : (c.movePlace a b n).b = c.b := rfl
@[simp] theorem Coil.movePlace_q (c : Coil) (a b : Place) (n : Nat) : (c.movePlace a b n).q = c.q := rfl
@[simp] theorem Coil.movePlace_sg (c : Coil) (a b : Place) (n : Nat) : (c.movePlace a b n).sg = c.sg := rfl
@[simp] theorem Coil.movePlace_m (c : Coil) (a b : Place) (n : Nat) : (c.movePlace a b n).m = c.m := rfl
@[simp] theorem Coil.movePlace_tiles (c : Coil) (a b : Place) (n : Nat) : (c.movePlace a b n).tiles = c.tiles := rfl
@[simp] theorem Coil.movePlace_accs (c : Coil) (a b : Place) (n : Nat) : (c.movePlace a b n).accs = c.accs := rfl
@[simp] theorem Coil.movePlace_scratch (c : Coil) (a b : Place) (n : Nat) : (c.movePlace a b n).scratch = c.scratch := rfl
@[simp] theorem Coil.movePlace_spoiled (c : Coil) (a b : Place) (n : Nat) : (c.movePlace a b n).spoiled = c.spoiled := rfl
@[simp] theorem Coil.movePlace_blocks (c : Coil) (a b : Place) (n : Nat) : (c.movePlace a b n).blocks = c.blocks := rfl
@[simp] theorem Coil.movePlace_pool (c : Coil) (a b : Place) (n : Nat) : (c.movePlace a b n).pool = c.pool := rfl
@[simp] theorem Coil.movePlace_frame (c : Coil) (a b : Place) (n : Nat) : (c.movePlace a b n).frame = c.frame := rfl
@[simp] theorem Coil.movePlace_own (c : Coil) (a b : Place) (n : Nat) : (c.movePlace a b n).own = c.own := rfl
@[simp] theorem Coil.movePlace_priv (c : Coil) (a b : Place) (n : Nat) : (c.movePlace a b n).priv = c.priv := rfl
@[simp] theorem Coil.movePlace_stores (c : Coil) (a b : Place) (n : Nat) : (c.movePlace a b n).stores = c.stores := rfl
@[simp] theorem Coil.movePlace_waits (c : Coil) (a b : Place) (n : Nat) : (c.movePlace a b n).waits = c.waits := rfl
@[simp] theorem Coil.movePlace_insts (c : Coil) (a b : Place) (n : Nat) : (c.movePlace a b n).insts = c.insts := rfl
@[simp] theorem Coil.movePlace_decl (c : Coil) (a b : Place) (n : Nat) : (c.movePlace a b n).decl = c.decl := rfl
@[simp] theorem Coil.movePlace_last (c : Coil) (a b : Place) (n : Nat) : (c.movePlace a b n).last = c.last := rfl
@[simp] theorem Coil.movePlace_chk (c : Coil) (a b : Place) (n : Nat) : (c.movePlace a b n).chk = c.chk := rfl
@[simp] theorem Coil.movePlace_watch (c : Coil) (a b : Place) (n : Nat) : (c.movePlace a b n).watch = c.watch := rfl
@[simp] theorem Coil.movePlace_trap (c : Coil) (a b : Place) (n : Nat) : (c.movePlace a b n).trap = c.trap := rfl
@[simp] theorem Coil.movePlace_instrs (c : Coil) (a b : Place) (n : Nat) : (c.movePlace a b n).instrs = c.instrs := rfl
@[simp] theorem Coil.movePlace_pwr (c : Coil) (a b : Place) (n : Nat) : (c.movePlace a b n).pwr = c.pwr := rfl
@[simp] theorem Coil.movePlace_resTime (c : Coil) (a b : Place) (n : Nat) : (c.movePlace a b n).resTime = c.resTime := rfl
@[simp] theorem Coil.movePlace_preempts (c : Coil) (a b : Place) (n : Nat) : (c.movePlace a b n).preempts = c.preempts := rfl
@[simp] theorem Coil.movePlace_relaunches (c : Coil) (a b : Place) (n : Nat) : (c.movePlace a b n).relaunches = c.relaunches := rfl
@[simp] theorem Coil.movePlace_stops (c : Coil) (a b : Place) (n : Nat) : (c.movePlace a b n).stops = c.stops := rfl
@[simp] theorem Coil.movePlace_deadlock (c : Coil) (a b : Place) (n : Nat) : (c.movePlace a b n).deadlock = c.deadlock := rfl
@[simp] theorem Coil.movePlace_stalled (c : Coil) (a b : Place) (n : Nat) : (c.movePlace a b n).stalled = c.stalled := rfl
@[simp] theorem Coil.movePlace_eng (c : Coil) (a b : Place) (n : Nat) : (c.movePlace a b n).eng = c.eng := rfl
@[simp] theorem Coil.movePlace_mcc (c : Coil) (a b : Place) (n : Nat) : (c.movePlace a b n).mcc = c.mcc := rfl
@[simp] theorem Coil.movePlace_callNo (c : Coil) (a b : Place) (n : Nat) : (c.movePlace a b n).callNo = c.callNo := rfl
@[simp] theorem Coil.movePlace_ueAt (c : Coil) (a b : Place) (n : Nat) : (c.movePlace a b n).ueAt = c.ueAt := rfl
@[simp] theorem Coil.movePlace_restop (c : Coil) (a b : Place) (n : Nat) : (c.movePlace a b n).restop = c.restop := rfl
@[simp] theorem Coil.movePlace_recOf (c : Coil) (a b : Place) (n : Nat) : (c.movePlace a b n).recOf = c.recOf := rfl
@[simp] theorem Coil.movePlace_olds (c : Coil) (a b : Place) (n : Nat) : (c.movePlace a b n).olds = c.olds := rfl

@[simp] theorem Coil.noneArrived_id (c : Coil) (n : Nat) : (c.noneArrived n).id = c.id := rfl
@[simp] theorem Coil.noneArrived_core (c : Coil) (n : Nat) : (c.noneArrived n).core = c.core := rfl
@[simp] theorem Coil.noneArrived_cslot (c : Coil) (n : Nat) : (c.noneArrived n).cslot = c.cslot := rfl
@[simp] theorem Coil.noneArrived_resident (c : Coil) (n : Nat) : (c.noneArrived n).resident = c.resident := rfl
@[simp] theorem Coil.noneArrived_st (c : Coil) (n : Nat) : (c.noneArrived n).st = c.st := rfl
@[simp] theorem Coil.noneArrived_asid (c : Coil) (n : Nat) : (c.noneArrived n).asid = c.asid := rfl
@[simp] theorem Coil.noneArrived_ctxbase (c : Coil) (n : Nat) : (c.noneArrived n).ctxbase = c.ctxbase := rfl
@[simp] theorem Coil.noneArrived_rcb (c : Coil) (n : Nat) : (c.noneArrived n).rcb = c.rcb := rfl
@[simp] theorem Coil.noneArrived_partw (c : Coil) (n : Nat) : (c.noneArrived n).partw = c.partw := rfl
@[simp] theorem Coil.noneArrived_window (c : Coil) (n : Nat) : (c.noneArrived n).window = c.window := rfl
@[simp] theorem Coil.noneArrived_task (c : Coil) (n : Nat) : (c.noneArrived n).task = c.task := rfl
@[simp] theorem Coil.noneArrived_launch (c : Coil) (n : Nat) : (c.noneArrived n).launch = c.launch := rfl
@[simp] theorem Coil.noneArrived_pin (c : Coil) (n : Nat) : (c.noneArrived n).pin = c.pin := rfl
@[simp] theorem Coil.noneArrived_packet (c : Coil) (n : Nat) : (c.noneArrived n).packet = c.packet := rfl
@[simp] theorem Coil.noneArrived_index (c : Coil) (n : Nat) : (c.noneArrived n).index = c.index := rfl
@[simp] theorem Coil.noneArrived_sub (c : Coil) (n : Nat) : (c.noneArrived n).sub = c.sub := rfl
@[simp] theorem Coil.noneArrived_s (c : Coil) (n : Nat) : (c.noneArrived n).s = c.s := rfl
@[simp] theorem Coil.noneArrived_spoison (c : Coil) (n : Nat) : (c.noneArrived n).spoison = c.spoison := rfl
@[simp] theorem Coil.noneArrived_sm (c : Coil) (n : Nat) : (c.noneArrived n).sm = c.sm := rfl
@[simp] theorem Coil.noneArrived_hs (c : Coil) (n : Nat) : (c.noneArrived n).hs = c.hs := rfl
@[simp] theorem Coil.noneArrived_binds (c : Coil) (n : Nat) : (c.noneArrived n).binds = c.binds := rfl
@[simp] theorem Coil.noneArrived_g (c : Coil) (n : Nat) : (c.noneArrived n).g = c.g := rfl
@[simp] theorem Coil.noneArrived_b (c : Coil) (n : Nat) : (c.noneArrived n).b = c.b := rfl
@[simp] theorem Coil.noneArrived_q (c : Coil) (n : Nat) : (c.noneArrived n).q = c.q := rfl
@[simp] theorem Coil.noneArrived_sg (c : Coil) (n : Nat) : (c.noneArrived n).sg = c.sg := rfl
@[simp] theorem Coil.noneArrived_m (c : Coil) (n : Nat) : (c.noneArrived n).m = c.m := rfl
@[simp] theorem Coil.noneArrived_tiles (c : Coil) (n : Nat) : (c.noneArrived n).tiles = c.tiles := rfl
@[simp] theorem Coil.noneArrived_accs (c : Coil) (n : Nat) : (c.noneArrived n).accs = c.accs := rfl
@[simp] theorem Coil.noneArrived_scratch (c : Coil) (n : Nat) : (c.noneArrived n).scratch = c.scratch := rfl
@[simp] theorem Coil.noneArrived_spoiled (c : Coil) (n : Nat) : (c.noneArrived n).spoiled = c.spoiled := rfl
@[simp] theorem Coil.noneArrived_blocks (c : Coil) (n : Nat) : (c.noneArrived n).blocks = c.blocks := rfl
@[simp] theorem Coil.noneArrived_pool (c : Coil) (n : Nat) : (c.noneArrived n).pool = c.pool := rfl
@[simp] theorem Coil.noneArrived_frame (c : Coil) (n : Nat) : (c.noneArrived n).frame = c.frame := rfl
@[simp] theorem Coil.noneArrived_own (c : Coil) (n : Nat) : (c.noneArrived n).own = c.own := rfl
@[simp] theorem Coil.noneArrived_priv (c : Coil) (n : Nat) : (c.noneArrived n).priv = c.priv := rfl
@[simp] theorem Coil.noneArrived_stores (c : Coil) (n : Nat) : (c.noneArrived n).stores = c.stores := rfl
@[simp] theorem Coil.noneArrived_waits (c : Coil) (n : Nat) : (c.noneArrived n).waits = c.waits := rfl
@[simp] theorem Coil.noneArrived_insts (c : Coil) (n : Nat) : (c.noneArrived n).insts = c.insts := rfl
@[simp] theorem Coil.noneArrived_decl (c : Coil) (n : Nat) : (c.noneArrived n).decl = c.decl := rfl
@[simp] theorem Coil.noneArrived_last (c : Coil) (n : Nat) : (c.noneArrived n).last = c.last := rfl
@[simp] theorem Coil.noneArrived_chk (c : Coil) (n : Nat) : (c.noneArrived n).chk = c.chk := rfl
@[simp] theorem Coil.noneArrived_watch (c : Coil) (n : Nat) : (c.noneArrived n).watch = c.watch := rfl
@[simp] theorem Coil.noneArrived_trap (c : Coil) (n : Nat) : (c.noneArrived n).trap = c.trap := rfl
@[simp] theorem Coil.noneArrived_instrs (c : Coil) (n : Nat) : (c.noneArrived n).instrs = c.instrs := rfl
@[simp] theorem Coil.noneArrived_pwr (c : Coil) (n : Nat) : (c.noneArrived n).pwr = c.pwr := rfl
@[simp] theorem Coil.noneArrived_resTime (c : Coil) (n : Nat) : (c.noneArrived n).resTime = c.resTime := rfl
@[simp] theorem Coil.noneArrived_preempts (c : Coil) (n : Nat) : (c.noneArrived n).preempts = c.preempts := rfl
@[simp] theorem Coil.noneArrived_relaunches (c : Coil) (n : Nat) : (c.noneArrived n).relaunches = c.relaunches := rfl
@[simp] theorem Coil.noneArrived_stops (c : Coil) (n : Nat) : (c.noneArrived n).stops = c.stops := rfl
@[simp] theorem Coil.noneArrived_deadlock (c : Coil) (n : Nat) : (c.noneArrived n).deadlock = c.deadlock := rfl
@[simp] theorem Coil.noneArrived_stalled (c : Coil) (n : Nat) : (c.noneArrived n).stalled = c.stalled := rfl
@[simp] theorem Coil.noneArrived_eng (c : Coil) (n : Nat) : (c.noneArrived n).eng = c.eng := rfl
@[simp] theorem Coil.noneArrived_mcc (c : Coil) (n : Nat) : (c.noneArrived n).mcc = c.mcc := rfl
@[simp] theorem Coil.noneArrived_callNo (c : Coil) (n : Nat) : (c.noneArrived n).callNo = c.callNo := rfl
@[simp] theorem Coil.noneArrived_ueAt (c : Coil) (n : Nat) : (c.noneArrived n).ueAt = c.ueAt := rfl
@[simp] theorem Coil.noneArrived_stepping (c : Coil) (n : Nat) : (c.noneArrived n).stepping = c.stepping := rfl
@[simp] theorem Coil.noneArrived_ignoreWatch (c : Coil) (n : Nat) : (c.noneArrived n).ignoreWatch = c.ignoreWatch := rfl
@[simp] theorem Coil.noneArrived_restop (c : Coil) (n : Nat) : (c.noneArrived n).restop = c.restop := rfl
@[simp] theorem Coil.noneArrived_recOf (c : Coil) (n : Nat) : (c.noneArrived n).recOf = c.recOf := rfl
@[simp] theorem Coil.noneArrived_olds (c : Coil) (n : Nat) : (c.noneArrived n).olds = c.olds := rfl

@[simp] theorem Coil.watched_id (c : Coil) (pl : Place) : (c.watched pl).id = c.id := rfl
@[simp] theorem Coil.watched_core (c : Coil) (pl : Place) : (c.watched pl).core = c.core := rfl
@[simp] theorem Coil.watched_cslot (c : Coil) (pl : Place) : (c.watched pl).cslot = c.cslot := rfl
@[simp] theorem Coil.watched_resident (c : Coil) (pl : Place) : (c.watched pl).resident = c.resident := rfl
@[simp] theorem Coil.watched_st (c : Coil) (pl : Place) : (c.watched pl).st = c.st := rfl
@[simp] theorem Coil.watched_asid (c : Coil) (pl : Place) : (c.watched pl).asid = c.asid := rfl
@[simp] theorem Coil.watched_ctxbase (c : Coil) (pl : Place) : (c.watched pl).ctxbase = c.ctxbase := rfl
@[simp] theorem Coil.watched_rcb (c : Coil) (pl : Place) : (c.watched pl).rcb = c.rcb := rfl
@[simp] theorem Coil.watched_partw (c : Coil) (pl : Place) : (c.watched pl).partw = c.partw := rfl
@[simp] theorem Coil.watched_window (c : Coil) (pl : Place) : (c.watched pl).window = c.window := rfl
@[simp] theorem Coil.watched_task (c : Coil) (pl : Place) : (c.watched pl).task = c.task := rfl
@[simp] theorem Coil.watched_launch (c : Coil) (pl : Place) : (c.watched pl).launch = c.launch := rfl
@[simp] theorem Coil.watched_pin (c : Coil) (pl : Place) : (c.watched pl).pin = c.pin := rfl
@[simp] theorem Coil.watched_packet (c : Coil) (pl : Place) : (c.watched pl).packet = c.packet := rfl
@[simp] theorem Coil.watched_index (c : Coil) (pl : Place) : (c.watched pl).index = c.index := rfl
@[simp] theorem Coil.watched_sub (c : Coil) (pl : Place) : (c.watched pl).sub = c.sub := rfl
@[simp] theorem Coil.watched_fibres (c : Coil) (pl : Place) : (c.watched pl).fibres = c.fibres := rfl
@[simp] theorem Coil.watched_s (c : Coil) (pl : Place) : (c.watched pl).s = c.s := rfl
@[simp] theorem Coil.watched_spoison (c : Coil) (pl : Place) : (c.watched pl).spoison = c.spoison := rfl
@[simp] theorem Coil.watched_sm (c : Coil) (pl : Place) : (c.watched pl).sm = c.sm := rfl
@[simp] theorem Coil.watched_hs (c : Coil) (pl : Place) : (c.watched pl).hs = c.hs := rfl
@[simp] theorem Coil.watched_binds (c : Coil) (pl : Place) : (c.watched pl).binds = c.binds := rfl
@[simp] theorem Coil.watched_g (c : Coil) (pl : Place) : (c.watched pl).g = c.g := rfl
@[simp] theorem Coil.watched_b (c : Coil) (pl : Place) : (c.watched pl).b = c.b := rfl
@[simp] theorem Coil.watched_q (c : Coil) (pl : Place) : (c.watched pl).q = c.q := rfl
@[simp] theorem Coil.watched_sg (c : Coil) (pl : Place) : (c.watched pl).sg = c.sg := rfl
@[simp] theorem Coil.watched_m (c : Coil) (pl : Place) : (c.watched pl).m = c.m := rfl
@[simp] theorem Coil.watched_tiles (c : Coil) (pl : Place) : (c.watched pl).tiles = c.tiles := rfl
@[simp] theorem Coil.watched_accs (c : Coil) (pl : Place) : (c.watched pl).accs = c.accs := rfl
@[simp] theorem Coil.watched_scratch (c : Coil) (pl : Place) : (c.watched pl).scratch = c.scratch := rfl
@[simp] theorem Coil.watched_spoiled (c : Coil) (pl : Place) : (c.watched pl).spoiled = c.spoiled := rfl
@[simp] theorem Coil.watched_blocks (c : Coil) (pl : Place) : (c.watched pl).blocks = c.blocks := rfl
@[simp] theorem Coil.watched_pool (c : Coil) (pl : Place) : (c.watched pl).pool = c.pool := rfl
@[simp] theorem Coil.watched_frame (c : Coil) (pl : Place) : (c.watched pl).frame = c.frame := rfl
@[simp] theorem Coil.watched_own (c : Coil) (pl : Place) : (c.watched pl).own = c.own := rfl
@[simp] theorem Coil.watched_priv (c : Coil) (pl : Place) : (c.watched pl).priv = c.priv := rfl
@[simp] theorem Coil.watched_stores (c : Coil) (pl : Place) : (c.watched pl).stores = c.stores := rfl
@[simp] theorem Coil.watched_waits (c : Coil) (pl : Place) : (c.watched pl).waits = c.waits := rfl
@[simp] theorem Coil.watched_insts (c : Coil) (pl : Place) : (c.watched pl).insts = c.insts := rfl
@[simp] theorem Coil.watched_decl (c : Coil) (pl : Place) : (c.watched pl).decl = c.decl := rfl
@[simp] theorem Coil.watched_last (c : Coil) (pl : Place) : (c.watched pl).last = c.last := rfl
@[simp] theorem Coil.watched_chk (c : Coil) (pl : Place) : (c.watched pl).chk = c.chk := rfl
@[simp] theorem Coil.watched_watch (c : Coil) (pl : Place) : (c.watched pl).watch = c.watch := rfl
@[simp] theorem Coil.watched_trap (c : Coil) (pl : Place) : (c.watched pl).trap = c.trap := rfl
@[simp] theorem Coil.watched_instrs (c : Coil) (pl : Place) : (c.watched pl).instrs = c.instrs := rfl
@[simp] theorem Coil.watched_pwr (c : Coil) (pl : Place) : (c.watched pl).pwr = c.pwr := rfl
@[simp] theorem Coil.watched_resTime (c : Coil) (pl : Place) : (c.watched pl).resTime = c.resTime := rfl
@[simp] theorem Coil.watched_preempts (c : Coil) (pl : Place) : (c.watched pl).preempts = c.preempts := rfl
@[simp] theorem Coil.watched_relaunches (c : Coil) (pl : Place) : (c.watched pl).relaunches = c.relaunches := rfl
@[simp] theorem Coil.watched_stops (c : Coil) (pl : Place) : (c.watched pl).stops = c.stops := rfl
@[simp] theorem Coil.watched_deadlock (c : Coil) (pl : Place) : (c.watched pl).deadlock = c.deadlock := rfl
@[simp] theorem Coil.watched_stalled (c : Coil) (pl : Place) : (c.watched pl).stalled = c.stalled := rfl
@[simp] theorem Coil.watched_eng (c : Coil) (pl : Place) : (c.watched pl).eng = c.eng := rfl
@[simp] theorem Coil.watched_mcc (c : Coil) (pl : Place) : (c.watched pl).mcc = c.mcc := rfl
@[simp] theorem Coil.watched_callNo (c : Coil) (pl : Place) : (c.watched pl).callNo = c.callNo := rfl
@[simp] theorem Coil.watched_ueAt (c : Coil) (pl : Place) : (c.watched pl).ueAt = c.ueAt := rfl
@[simp] theorem Coil.watched_stepping (c : Coil) (pl : Place) : (c.watched pl).stepping = c.stepping := rfl
@[simp] theorem Coil.watched_restop (c : Coil) (pl : Place) : (c.watched pl).restop = c.restop := rfl
@[simp] theorem Coil.watched_recOf (c : Coil) (pl : Place) : (c.watched pl).recOf = c.recOf := rfl
@[simp] theorem Coil.watched_olds (c : Coil) (pl : Place) : (c.watched pl).olds = c.olds := rfl

@[simp] theorem Coil.onFibres_id (c : Coil) (l : List Nat) (g : Fibre → Fibre) : (c.onFibres l g).id = c.id := rfl
@[simp] theorem Coil.onFibres_core (c : Coil) (l : List Nat) (g : Fibre → Fibre) : (c.onFibres l g).core = c.core := rfl
@[simp] theorem Coil.onFibres_cslot (c : Coil) (l : List Nat) (g : Fibre → Fibre) : (c.onFibres l g).cslot = c.cslot := rfl
@[simp] theorem Coil.onFibres_resident (c : Coil) (l : List Nat) (g : Fibre → Fibre) : (c.onFibres l g).resident = c.resident := rfl
@[simp] theorem Coil.onFibres_st (c : Coil) (l : List Nat) (g : Fibre → Fibre) : (c.onFibres l g).st = c.st := rfl
@[simp] theorem Coil.onFibres_asid (c : Coil) (l : List Nat) (g : Fibre → Fibre) : (c.onFibres l g).asid = c.asid := rfl
@[simp] theorem Coil.onFibres_ctxbase (c : Coil) (l : List Nat) (g : Fibre → Fibre) : (c.onFibres l g).ctxbase = c.ctxbase := rfl
@[simp] theorem Coil.onFibres_rcb (c : Coil) (l : List Nat) (g : Fibre → Fibre) : (c.onFibres l g).rcb = c.rcb := rfl
@[simp] theorem Coil.onFibres_partw (c : Coil) (l : List Nat) (g : Fibre → Fibre) : (c.onFibres l g).partw = c.partw := rfl
@[simp] theorem Coil.onFibres_window (c : Coil) (l : List Nat) (g : Fibre → Fibre) : (c.onFibres l g).window = c.window := rfl
@[simp] theorem Coil.onFibres_task (c : Coil) (l : List Nat) (g : Fibre → Fibre) : (c.onFibres l g).task = c.task := rfl
@[simp] theorem Coil.onFibres_launch (c : Coil) (l : List Nat) (g : Fibre → Fibre) : (c.onFibres l g).launch = c.launch := rfl
@[simp] theorem Coil.onFibres_pin (c : Coil) (l : List Nat) (g : Fibre → Fibre) : (c.onFibres l g).pin = c.pin := rfl
@[simp] theorem Coil.onFibres_packet (c : Coil) (l : List Nat) (g : Fibre → Fibre) : (c.onFibres l g).packet = c.packet := rfl
@[simp] theorem Coil.onFibres_index (c : Coil) (l : List Nat) (g : Fibre → Fibre) : (c.onFibres l g).index = c.index := rfl
@[simp] theorem Coil.onFibres_sub (c : Coil) (l : List Nat) (g : Fibre → Fibre) : (c.onFibres l g).sub = c.sub := rfl
@[simp] theorem Coil.onFibres_s (c : Coil) (l : List Nat) (g : Fibre → Fibre) : (c.onFibres l g).s = c.s := rfl
@[simp] theorem Coil.onFibres_spoison (c : Coil) (l : List Nat) (g : Fibre → Fibre) : (c.onFibres l g).spoison = c.spoison := rfl
@[simp] theorem Coil.onFibres_sm (c : Coil) (l : List Nat) (g : Fibre → Fibre) : (c.onFibres l g).sm = c.sm := rfl
@[simp] theorem Coil.onFibres_hs (c : Coil) (l : List Nat) (g : Fibre → Fibre) : (c.onFibres l g).hs = c.hs := rfl
@[simp] theorem Coil.onFibres_binds (c : Coil) (l : List Nat) (g : Fibre → Fibre) : (c.onFibres l g).binds = c.binds := rfl
@[simp] theorem Coil.onFibres_g (c : Coil) (l : List Nat) (g : Fibre → Fibre) : (c.onFibres l g).g = c.g := rfl
@[simp] theorem Coil.onFibres_b (c : Coil) (l : List Nat) (g : Fibre → Fibre) : (c.onFibres l g).b = c.b := rfl
@[simp] theorem Coil.onFibres_q (c : Coil) (l : List Nat) (g : Fibre → Fibre) : (c.onFibres l g).q = c.q := rfl
@[simp] theorem Coil.onFibres_sg (c : Coil) (l : List Nat) (g : Fibre → Fibre) : (c.onFibres l g).sg = c.sg := rfl
@[simp] theorem Coil.onFibres_m (c : Coil) (l : List Nat) (g : Fibre → Fibre) : (c.onFibres l g).m = c.m := rfl
@[simp] theorem Coil.onFibres_tiles (c : Coil) (l : List Nat) (g : Fibre → Fibre) : (c.onFibres l g).tiles = c.tiles := rfl
@[simp] theorem Coil.onFibres_accs (c : Coil) (l : List Nat) (g : Fibre → Fibre) : (c.onFibres l g).accs = c.accs := rfl
@[simp] theorem Coil.onFibres_scratch (c : Coil) (l : List Nat) (g : Fibre → Fibre) : (c.onFibres l g).scratch = c.scratch := rfl
@[simp] theorem Coil.onFibres_spoiled (c : Coil) (l : List Nat) (g : Fibre → Fibre) : (c.onFibres l g).spoiled = c.spoiled := rfl
@[simp] theorem Coil.onFibres_blocks (c : Coil) (l : List Nat) (g : Fibre → Fibre) : (c.onFibres l g).blocks = c.blocks := rfl
@[simp] theorem Coil.onFibres_pool (c : Coil) (l : List Nat) (g : Fibre → Fibre) : (c.onFibres l g).pool = c.pool := rfl
@[simp] theorem Coil.onFibres_frame (c : Coil) (l : List Nat) (g : Fibre → Fibre) : (c.onFibres l g).frame = c.frame := rfl
@[simp] theorem Coil.onFibres_own (c : Coil) (l : List Nat) (g : Fibre → Fibre) : (c.onFibres l g).own = c.own := rfl
@[simp] theorem Coil.onFibres_priv (c : Coil) (l : List Nat) (g : Fibre → Fibre) : (c.onFibres l g).priv = c.priv := rfl
@[simp] theorem Coil.onFibres_stores (c : Coil) (l : List Nat) (g : Fibre → Fibre) : (c.onFibres l g).stores = c.stores := rfl
@[simp] theorem Coil.onFibres_waits (c : Coil) (l : List Nat) (g : Fibre → Fibre) : (c.onFibres l g).waits = c.waits := rfl
@[simp] theorem Coil.onFibres_insts (c : Coil) (l : List Nat) (g : Fibre → Fibre) : (c.onFibres l g).insts = c.insts := rfl
@[simp] theorem Coil.onFibres_decl (c : Coil) (l : List Nat) (g : Fibre → Fibre) : (c.onFibres l g).decl = c.decl := rfl
@[simp] theorem Coil.onFibres_last (c : Coil) (l : List Nat) (g : Fibre → Fibre) : (c.onFibres l g).last = c.last := rfl
@[simp] theorem Coil.onFibres_chk (c : Coil) (l : List Nat) (g : Fibre → Fibre) : (c.onFibres l g).chk = c.chk := rfl
@[simp] theorem Coil.onFibres_watch (c : Coil) (l : List Nat) (g : Fibre → Fibre) : (c.onFibres l g).watch = c.watch := rfl
@[simp] theorem Coil.onFibres_trap (c : Coil) (l : List Nat) (g : Fibre → Fibre) : (c.onFibres l g).trap = c.trap := rfl
@[simp] theorem Coil.onFibres_instrs (c : Coil) (l : List Nat) (g : Fibre → Fibre) : (c.onFibres l g).instrs = c.instrs := rfl
@[simp] theorem Coil.onFibres_pwr (c : Coil) (l : List Nat) (g : Fibre → Fibre) : (c.onFibres l g).pwr = c.pwr := rfl
@[simp] theorem Coil.onFibres_resTime (c : Coil) (l : List Nat) (g : Fibre → Fibre) : (c.onFibres l g).resTime = c.resTime := rfl
@[simp] theorem Coil.onFibres_preempts (c : Coil) (l : List Nat) (g : Fibre → Fibre) : (c.onFibres l g).preempts = c.preempts := rfl
@[simp] theorem Coil.onFibres_relaunches (c : Coil) (l : List Nat) (g : Fibre → Fibre) : (c.onFibres l g).relaunches = c.relaunches := rfl
@[simp] theorem Coil.onFibres_stops (c : Coil) (l : List Nat) (g : Fibre → Fibre) : (c.onFibres l g).stops = c.stops := rfl
@[simp] theorem Coil.onFibres_deadlock (c : Coil) (l : List Nat) (g : Fibre → Fibre) : (c.onFibres l g).deadlock = c.deadlock := rfl
@[simp] theorem Coil.onFibres_stalled (c : Coil) (l : List Nat) (g : Fibre → Fibre) : (c.onFibres l g).stalled = c.stalled := rfl
@[simp] theorem Coil.onFibres_eng (c : Coil) (l : List Nat) (g : Fibre → Fibre) : (c.onFibres l g).eng = c.eng := rfl
@[simp] theorem Coil.onFibres_mcc (c : Coil) (l : List Nat) (g : Fibre → Fibre) : (c.onFibres l g).mcc = c.mcc := rfl
@[simp] theorem Coil.onFibres_callNo (c : Coil) (l : List Nat) (g : Fibre → Fibre) : (c.onFibres l g).callNo = c.callNo := rfl
@[simp] theorem Coil.onFibres_ueAt (c : Coil) (l : List Nat) (g : Fibre → Fibre) : (c.onFibres l g).ueAt = c.ueAt := rfl
@[simp] theorem Coil.onFibres_stepping (c : Coil) (l : List Nat) (g : Fibre → Fibre) : (c.onFibres l g).stepping = c.stepping := rfl
@[simp] theorem Coil.onFibres_ignoreWatch (c : Coil) (l : List Nat) (g : Fibre → Fibre) : (c.onFibres l g).ignoreWatch = c.ignoreWatch := rfl
@[simp] theorem Coil.onFibres_restop (c : Coil) (l : List Nat) (g : Fibre → Fibre) : (c.onFibres l g).restop = c.restop := rfl
@[simp] theorem Coil.onFibres_recOf (c : Coil) (l : List Nat) (g : Fibre → Fibre) : (c.onFibres l g).recOf = c.recOf := rfl
@[simp] theorem Coil.onFibres_olds (c : Coil) (l : List Nat) (g : Fibre → Fibre) : (c.onFibres l g).olds = c.olds := rfl

/-! ## A fibre -/

@[simp] theorem Fibre.setV_idx (f : Fibre) (n : Nat) (x : Word) : (f.setV n x).idx = f.idx := rfl
@[simp] theorem Fibre.setV_status (f : Fibre) (n : Nat) (x : Word) : (f.setV n x).status = f.status := rfl
@[simp] theorem Fibre.setV_place (f : Fibre) (n : Nat) (x : Word) : (f.setV n x).place = f.place := rfl
@[simp] theorem Fibre.setV_strand (f : Fibre) (n : Nat) (x : Word) : (f.setV n x).strand = f.strand := rfl
@[simp] theorem Fibre.setV_since (f : Fibre) (n : Nat) (x : Word) : (f.setV n x).since = f.since := rfl
@[simp] theorem Fibre.setV_waited (f : Fibre) (n : Nat) (x : Word) : (f.setV n x).waited = f.waited := rfl
@[simp] theorem Fibre.setV_pc (f : Fibre) (n : Nat) (x : Word) : (f.setV n x).pc = f.pc := rfl
@[simp] theorem Fibre.setV_p (f : Fibre) (n : Nat) (x : Word) : (f.setV n x).p = f.p := rfl
@[simp] theorem Fibre.setV_cf (f : Fibre) (n : Nat) (x : Word) : (f.setV n x).cf = f.cf := rfl
@[simp] theorem Fibre.setV_fstat (f : Fibre) (n : Nat) (x : Word) : (f.setV n x).fstat = f.fstat := rfl
@[simp] theorem Fibre.setV_fctl (f : Fibre) (n : Nat) (x : Word) : (f.setV n x).fctl = f.fctl := rfl
@[simp] theorem Fibre.setV_srs (f : Fibre) (n : Nat) (x : Word) : (f.setV n x).srs = f.srs := rfl
@[simp] theorem Fibre.setV_pos (f : Fibre) (n : Nat) (x : Word) : (f.setV n x).pos = f.pos := rfl
@[simp] theorem Fibre.setV_loops (f : Fibre) (n : Nat) (x : Word) : (f.setV n x).loops = f.loops := rfl
@[simp] theorem Fibre.setV_region (f : Fibre) (n : Nat) (x : Word) : (f.setV n x).region = f.region := rfl
@[simp] theorem Fibre.setV_handler (f : Fibre) (n : Nat) (x : Word) : (f.setV n x).handler = f.handler := rfl
@[simp] theorem Fibre.setV_outer (f : Fibre) (n : Nat) (x : Word) : (f.setV n x).outer = f.outer := rfl
@[simp] theorem Fibre.setV_epc (f : Fibre) (n : Nat) (x : Word) : (f.setV n x).epc = f.epc := rfl
@[simp] theorem Fibre.setV_ecode (f : Fibre) (n : Nat) (x : Word) : (f.setV n x).ecode = f.ecode := rfl
@[simp] theorem Fibre.setV_eaddr (f : Fibre) (n : Nat) (x : Word) : (f.setV n x).eaddr = f.eaddr := rfl
@[simp] theorem Fibre.setV_einfo (f : Fibre) (n : Nat) (x : Word) : (f.setV n x).einfo = f.einfo := rfl
@[simp] theorem Fibre.setV_arrivals (f : Fibre) (n : Nat) (x : Word) : (f.setV n x).arrivals = f.arrivals := rfl
@[simp] theorem Fibre.setV_arrived (f : Fibre) (n : Nat) (x : Word) : (f.setV n x).arrived = f.arrived := rfl
@[simp] theorem Fibre.setV_pend (f : Fibre) (n : Nat) (x : Word) : (f.setV n x).pend = f.pend := rfl
@[simp] theorem Fibre.setV_holds (f : Fibre) (n : Nat) (x : Word) : (f.setV n x).holds = f.holds := rfl
@[simp] theorem Fibre.setV_recov (f : Fibre) (n : Nat) (x : Word) : (f.setV n x).recov = f.recov := rfl
@[simp] theorem Fibre.setV_v (f : Fibre) (n : Nat) (x : Word) : (f.setV n x).v = f.v.set n x := rfl

@[simp] theorem Fibre.raise_idx (f : Fibre) (w : Word) : (f.raise w).idx = f.idx := rfl
@[simp] theorem Fibre.raise_status (f : Fibre) (w : Word) : (f.raise w).status = f.status := rfl
@[simp] theorem Fibre.raise_place (f : Fibre) (w : Word) : (f.raise w).place = f.place := rfl
@[simp] theorem Fibre.raise_strand (f : Fibre) (w : Word) : (f.raise w).strand = f.strand := rfl
@[simp] theorem Fibre.raise_since (f : Fibre) (w : Word) : (f.raise w).since = f.since := rfl
@[simp] theorem Fibre.raise_waited (f : Fibre) (w : Word) : (f.raise w).waited = f.waited := rfl
@[simp] theorem Fibre.raise_pc (f : Fibre) (w : Word) : (f.raise w).pc = f.pc := rfl
@[simp] theorem Fibre.raise_v (f : Fibre) (w : Word) : (f.raise w).v = f.v := rfl
@[simp] theorem Fibre.raise_p (f : Fibre) (w : Word) : (f.raise w).p = f.p := rfl
@[simp] theorem Fibre.raise_cf (f : Fibre) (w : Word) : (f.raise w).cf = f.cf := rfl
@[simp] theorem Fibre.raise_fctl (f : Fibre) (w : Word) : (f.raise w).fctl = f.fctl := rfl
@[simp] theorem Fibre.raise_srs (f : Fibre) (w : Word) : (f.raise w).srs = f.srs := rfl
@[simp] theorem Fibre.raise_pos (f : Fibre) (w : Word) : (f.raise w).pos = f.pos := rfl
@[simp] theorem Fibre.raise_loops (f : Fibre) (w : Word) : (f.raise w).loops = f.loops := rfl
@[simp] theorem Fibre.raise_region (f : Fibre) (w : Word) : (f.raise w).region = f.region := rfl
@[simp] theorem Fibre.raise_handler (f : Fibre) (w : Word) : (f.raise w).handler = f.handler := rfl
@[simp] theorem Fibre.raise_outer (f : Fibre) (w : Word) : (f.raise w).outer = f.outer := rfl
@[simp] theorem Fibre.raise_epc (f : Fibre) (w : Word) : (f.raise w).epc = f.epc := rfl
@[simp] theorem Fibre.raise_ecode (f : Fibre) (w : Word) : (f.raise w).ecode = f.ecode := rfl
@[simp] theorem Fibre.raise_eaddr (f : Fibre) (w : Word) : (f.raise w).eaddr = f.eaddr := rfl
@[simp] theorem Fibre.raise_einfo (f : Fibre) (w : Word) : (f.raise w).einfo = f.einfo := rfl
@[simp] theorem Fibre.raise_poison (f : Fibre) (w : Word) : (f.raise w).poison = f.poison := rfl
@[simp] theorem Fibre.raise_arrivals (f : Fibre) (w : Word) : (f.raise w).arrivals = f.arrivals := rfl
@[simp] theorem Fibre.raise_arrived (f : Fibre) (w : Word) : (f.raise w).arrived = f.arrived := rfl
@[simp] theorem Fibre.raise_pend (f : Fibre) (w : Word) : (f.raise w).pend = f.pend := rfl
@[simp] theorem Fibre.raise_holds (f : Fibre) (w : Word) : (f.raise w).holds = f.holds := rfl
@[simp] theorem Fibre.raise_recov (f : Fibre) (w : Word) : (f.raise w).recov = f.recov := rfl
@[simp] theorem Fibre.raise_fstat (f : Fibre) (w : Word) : (f.raise w).fstat = f.fstat ||| w := rfl

@[simp] theorem Fibre.taint_idx (f : Fibre) (n : Nat) (k : Poison) : (f.taint n k).idx = f.idx := rfl
@[simp] theorem Fibre.taint_status (f : Fibre) (n : Nat) (k : Poison) : (f.taint n k).status = f.status := rfl
@[simp] theorem Fibre.taint_place (f : Fibre) (n : Nat) (k : Poison) : (f.taint n k).place = f.place := rfl
@[simp] theorem Fibre.taint_strand (f : Fibre) (n : Nat) (k : Poison) : (f.taint n k).strand = f.strand := rfl
@[simp] theorem Fibre.taint_since (f : Fibre) (n : Nat) (k : Poison) : (f.taint n k).since = f.since := rfl
@[simp] theorem Fibre.taint_waited (f : Fibre) (n : Nat) (k : Poison) : (f.taint n k).waited = f.waited := rfl
@[simp] theorem Fibre.taint_pc (f : Fibre) (n : Nat) (k : Poison) : (f.taint n k).pc = f.pc := rfl
@[simp] theorem Fibre.taint_v (f : Fibre) (n : Nat) (k : Poison) : (f.taint n k).v = f.v := rfl
@[simp] theorem Fibre.taint_p (f : Fibre) (n : Nat) (k : Poison) : (f.taint n k).p = f.p := rfl
@[simp] theorem Fibre.taint_cf (f : Fibre) (n : Nat) (k : Poison) : (f.taint n k).cf = f.cf := rfl
@[simp] theorem Fibre.taint_fstat (f : Fibre) (n : Nat) (k : Poison) : (f.taint n k).fstat = f.fstat := rfl
@[simp] theorem Fibre.taint_fctl (f : Fibre) (n : Nat) (k : Poison) : (f.taint n k).fctl = f.fctl := rfl
@[simp] theorem Fibre.taint_srs (f : Fibre) (n : Nat) (k : Poison) : (f.taint n k).srs = f.srs := rfl
@[simp] theorem Fibre.taint_pos (f : Fibre) (n : Nat) (k : Poison) : (f.taint n k).pos = f.pos := rfl
@[simp] theorem Fibre.taint_loops (f : Fibre) (n : Nat) (k : Poison) : (f.taint n k).loops = f.loops := rfl
@[simp] theorem Fibre.taint_region (f : Fibre) (n : Nat) (k : Poison) : (f.taint n k).region = f.region := rfl
@[simp] theorem Fibre.taint_handler (f : Fibre) (n : Nat) (k : Poison) : (f.taint n k).handler = f.handler := rfl
@[simp] theorem Fibre.taint_outer (f : Fibre) (n : Nat) (k : Poison) : (f.taint n k).outer = f.outer := rfl
@[simp] theorem Fibre.taint_epc (f : Fibre) (n : Nat) (k : Poison) : (f.taint n k).epc = f.epc := rfl
@[simp] theorem Fibre.taint_ecode (f : Fibre) (n : Nat) (k : Poison) : (f.taint n k).ecode = f.ecode := rfl
@[simp] theorem Fibre.taint_eaddr (f : Fibre) (n : Nat) (k : Poison) : (f.taint n k).eaddr = f.eaddr := rfl
@[simp] theorem Fibre.taint_einfo (f : Fibre) (n : Nat) (k : Poison) : (f.taint n k).einfo = f.einfo := rfl
@[simp] theorem Fibre.taint_arrivals (f : Fibre) (n : Nat) (k : Poison) : (f.taint n k).arrivals = f.arrivals := rfl
@[simp] theorem Fibre.taint_arrived (f : Fibre) (n : Nat) (k : Poison) : (f.taint n k).arrived = f.arrived := rfl
@[simp] theorem Fibre.taint_pend (f : Fibre) (n : Nat) (k : Poison) : (f.taint n k).pend = f.pend := rfl
@[simp] theorem Fibre.taint_holds (f : Fibre) (n : Nat) (k : Poison) : (f.taint n k).holds = f.holds := rfl
@[simp] theorem Fibre.taint_recov (f : Fibre) (n : Nat) (k : Poison) : (f.taint n k).recov = f.recov := rfl

@[simp] theorem Fibre.setPos_idx (f : Fibre) (n k : Nat) : (f.setPos n k).idx = f.idx := rfl
@[simp] theorem Fibre.setPos_status (f : Fibre) (n k : Nat) : (f.setPos n k).status = f.status := rfl
@[simp] theorem Fibre.setPos_place (f : Fibre) (n k : Nat) : (f.setPos n k).place = f.place := rfl
@[simp] theorem Fibre.setPos_strand (f : Fibre) (n k : Nat) : (f.setPos n k).strand = f.strand := rfl
@[simp] theorem Fibre.setPos_since (f : Fibre) (n k : Nat) : (f.setPos n k).since = f.since := rfl
@[simp] theorem Fibre.setPos_waited (f : Fibre) (n k : Nat) : (f.setPos n k).waited = f.waited := rfl
@[simp] theorem Fibre.setPos_pc (f : Fibre) (n k : Nat) : (f.setPos n k).pc = f.pc := rfl
@[simp] theorem Fibre.setPos_v (f : Fibre) (n k : Nat) : (f.setPos n k).v = f.v := rfl
@[simp] theorem Fibre.setPos_p (f : Fibre) (n k : Nat) : (f.setPos n k).p = f.p := rfl
@[simp] theorem Fibre.setPos_cf (f : Fibre) (n k : Nat) : (f.setPos n k).cf = f.cf := rfl
@[simp] theorem Fibre.setPos_fstat (f : Fibre) (n k : Nat) : (f.setPos n k).fstat = f.fstat := rfl
@[simp] theorem Fibre.setPos_fctl (f : Fibre) (n k : Nat) : (f.setPos n k).fctl = f.fctl := rfl
@[simp] theorem Fibre.setPos_srs (f : Fibre) (n k : Nat) : (f.setPos n k).srs = f.srs := rfl
@[simp] theorem Fibre.setPos_loops (f : Fibre) (n k : Nat) : (f.setPos n k).loops = f.loops := rfl
@[simp] theorem Fibre.setPos_region (f : Fibre) (n k : Nat) : (f.setPos n k).region = f.region := rfl
@[simp] theorem Fibre.setPos_handler (f : Fibre) (n k : Nat) : (f.setPos n k).handler = f.handler := rfl
@[simp] theorem Fibre.setPos_outer (f : Fibre) (n k : Nat) : (f.setPos n k).outer = f.outer := rfl
@[simp] theorem Fibre.setPos_epc (f : Fibre) (n k : Nat) : (f.setPos n k).epc = f.epc := rfl
@[simp] theorem Fibre.setPos_ecode (f : Fibre) (n k : Nat) : (f.setPos n k).ecode = f.ecode := rfl
@[simp] theorem Fibre.setPos_eaddr (f : Fibre) (n k : Nat) : (f.setPos n k).eaddr = f.eaddr := rfl
@[simp] theorem Fibre.setPos_einfo (f : Fibre) (n k : Nat) : (f.setPos n k).einfo = f.einfo := rfl
@[simp] theorem Fibre.setPos_poison (f : Fibre) (n k : Nat) : (f.setPos n k).poison = f.poison := rfl
@[simp] theorem Fibre.setPos_arrivals (f : Fibre) (n k : Nat) : (f.setPos n k).arrivals = f.arrivals := rfl
@[simp] theorem Fibre.setPos_arrived (f : Fibre) (n k : Nat) : (f.setPos n k).arrived = f.arrived := rfl
@[simp] theorem Fibre.setPos_pend (f : Fibre) (n k : Nat) : (f.setPos n k).pend = f.pend := rfl
@[simp] theorem Fibre.setPos_holds (f : Fibre) (n k : Nat) : (f.setPos n k).holds = f.holds := rfl
@[simp] theorem Fibre.setPos_recov (f : Fibre) (n k : Nat) : (f.setPos n k).recov = f.recov := rfl
@[simp] theorem Fibre.setPos_pos (f : Fibre) (n k : Nat) : (f.setPos n k).pos = f.pos.set n k := rfl

@[simp] theorem Fibre.newRegion_idx (f : Fibre) : (f.newRegion).idx = f.idx := rfl
@[simp] theorem Fibre.newRegion_status (f : Fibre) : (f.newRegion).status = f.status := rfl
@[simp] theorem Fibre.newRegion_place (f : Fibre) : (f.newRegion).place = f.place := rfl
@[simp] theorem Fibre.newRegion_strand (f : Fibre) : (f.newRegion).strand = f.strand := rfl
@[simp] theorem Fibre.newRegion_since (f : Fibre) : (f.newRegion).since = f.since := rfl
@[simp] theorem Fibre.newRegion_waited (f : Fibre) : (f.newRegion).waited = f.waited := rfl
@[simp] theorem Fibre.newRegion_pc (f : Fibre) : (f.newRegion).pc = f.pc := rfl
@[simp] theorem Fibre.newRegion_v (f : Fibre) : (f.newRegion).v = f.v := rfl
@[simp] theorem Fibre.newRegion_p (f : Fibre) : (f.newRegion).p = f.p := rfl
@[simp] theorem Fibre.newRegion_cf (f : Fibre) : (f.newRegion).cf = f.cf := rfl
@[simp] theorem Fibre.newRegion_fstat (f : Fibre) : (f.newRegion).fstat = f.fstat := rfl
@[simp] theorem Fibre.newRegion_fctl (f : Fibre) : (f.newRegion).fctl = f.fctl := rfl
@[simp] theorem Fibre.newRegion_srs (f : Fibre) : (f.newRegion).srs = f.srs := rfl
@[simp] theorem Fibre.newRegion_pos (f : Fibre) : (f.newRegion).pos = f.pos := rfl
@[simp] theorem Fibre.newRegion_loops (f : Fibre) : (f.newRegion).loops = f.loops := rfl
@[simp] theorem Fibre.newRegion_region (f : Fibre) : (f.newRegion).region = f.region := rfl
@[simp] theorem Fibre.newRegion_handler (f : Fibre) : (f.newRegion).handler = f.handler := rfl
@[simp] theorem Fibre.newRegion_outer (f : Fibre) : (f.newRegion).outer = f.outer := rfl
@[simp] theorem Fibre.newRegion_epc (f : Fibre) : (f.newRegion).epc = f.epc := rfl
@[simp] theorem Fibre.newRegion_ecode (f : Fibre) : (f.newRegion).ecode = f.ecode := rfl
@[simp] theorem Fibre.newRegion_eaddr (f : Fibre) : (f.newRegion).eaddr = f.eaddr := rfl
@[simp] theorem Fibre.newRegion_einfo (f : Fibre) : (f.newRegion).einfo = f.einfo := rfl
@[simp] theorem Fibre.newRegion_poison (f : Fibre) : (f.newRegion).poison = f.poison := rfl
@[simp] theorem Fibre.newRegion_arrived (f : Fibre) : (f.newRegion).arrived = f.arrived := rfl
@[simp] theorem Fibre.newRegion_pend (f : Fibre) : (f.newRegion).pend = f.pend := rfl
@[simp] theorem Fibre.newRegion_holds (f : Fibre) : (f.newRegion).holds = f.holds := rfl
@[simp] theorem Fibre.newRegion_recov (f : Fibre) : (f.newRegion).recov = f.recov := rfl
@[simp] theorem Fibre.newRegion_arrivals (f : Fibre) : (f.newRegion).arrivals = [] := rfl

@[simp] theorem Fibre.clearFlag_idx (f : Fibre) (n : Nat) : (f.clearFlag n).idx = f.idx := rfl
@[simp] theorem Fibre.clearFlag_status (f : Fibre) (n : Nat) : (f.clearFlag n).status = f.status := rfl
@[simp] theorem Fibre.clearFlag_place (f : Fibre) (n : Nat) : (f.clearFlag n).place = f.place := rfl
@[simp] theorem Fibre.clearFlag_strand (f : Fibre) (n : Nat) : (f.clearFlag n).strand = f.strand := rfl
@[simp] theorem Fibre.clearFlag_since (f : Fibre) (n : Nat) : (f.clearFlag n).since = f.since := rfl
@[simp] theorem Fibre.clearFlag_waited (f : Fibre) (n : Nat) : (f.clearFlag n).waited = f.waited := rfl
@[simp] theorem Fibre.clearFlag_pc (f : Fibre) (n : Nat) : (f.clearFlag n).pc = f.pc := rfl
@[simp] theorem Fibre.clearFlag_v (f : Fibre) (n : Nat) : (f.clearFlag n).v = f.v := rfl
@[simp] theorem Fibre.clearFlag_p (f : Fibre) (n : Nat) : (f.clearFlag n).p = f.p := rfl
@[simp] theorem Fibre.clearFlag_fstat (f : Fibre) (n : Nat) : (f.clearFlag n).fstat = f.fstat := rfl
@[simp] theorem Fibre.clearFlag_fctl (f : Fibre) (n : Nat) : (f.clearFlag n).fctl = f.fctl := rfl
@[simp] theorem Fibre.clearFlag_srs (f : Fibre) (n : Nat) : (f.clearFlag n).srs = f.srs := rfl
@[simp] theorem Fibre.clearFlag_pos (f : Fibre) (n : Nat) : (f.clearFlag n).pos = f.pos := rfl
@[simp] theorem Fibre.clearFlag_loops (f : Fibre) (n : Nat) : (f.clearFlag n).loops = f.loops := rfl
@[simp] theorem Fibre.clearFlag_region (f : Fibre) (n : Nat) : (f.clearFlag n).region = f.region := rfl
@[simp] theorem Fibre.clearFlag_handler (f : Fibre) (n : Nat) : (f.clearFlag n).handler = f.handler := rfl
@[simp] theorem Fibre.clearFlag_outer (f : Fibre) (n : Nat) : (f.clearFlag n).outer = f.outer := rfl
@[simp] theorem Fibre.clearFlag_epc (f : Fibre) (n : Nat) : (f.clearFlag n).epc = f.epc := rfl
@[simp] theorem Fibre.clearFlag_ecode (f : Fibre) (n : Nat) : (f.clearFlag n).ecode = f.ecode := rfl
@[simp] theorem Fibre.clearFlag_eaddr (f : Fibre) (n : Nat) : (f.clearFlag n).eaddr = f.eaddr := rfl
@[simp] theorem Fibre.clearFlag_einfo (f : Fibre) (n : Nat) : (f.clearFlag n).einfo = f.einfo := rfl
@[simp] theorem Fibre.clearFlag_poison (f : Fibre) (n : Nat) : (f.clearFlag n).poison = f.poison := rfl
@[simp] theorem Fibre.clearFlag_arrivals (f : Fibre) (n : Nat) : (f.clearFlag n).arrivals = f.arrivals := rfl
@[simp] theorem Fibre.clearFlag_arrived (f : Fibre) (n : Nat) : (f.clearFlag n).arrived = f.arrived := rfl
@[simp] theorem Fibre.clearFlag_holds (f : Fibre) (n : Nat) : (f.clearFlag n).holds = f.holds := rfl
@[simp] theorem Fibre.clearFlag_recov (f : Fibre) (n : Nat) : (f.clearFlag n).recov = f.recov := rfl
@[simp] theorem Fibre.clearFlag_cf (f : Fibre) (n : Nat) : (f.clearFlag n).cf = putBit f.cf n false := rfl

@[simp] theorem Fibre.retire_idx (f : Fibre) (y : BitVec 64) (n : Nat) (lv : Leave) : (f.retire y n lv).idx = f.idx := rfl
@[simp] theorem Fibre.retire_status (f : Fibre) (y : BitVec 64) (n : Nat) (lv : Leave) : (f.retire y n lv).status = f.status := rfl
@[simp] theorem Fibre.retire_place (f : Fibre) (y : BitVec 64) (n : Nat) (lv : Leave) : (f.retire y n lv).place = f.place := rfl
@[simp] theorem Fibre.retire_strand (f : Fibre) (y : BitVec 64) (n : Nat) (lv : Leave) : (f.retire y n lv).strand = f.strand := rfl
@[simp] theorem Fibre.retire_since (f : Fibre) (y : BitVec 64) (n : Nat) (lv : Leave) : (f.retire y n lv).since = f.since := rfl
@[simp] theorem Fibre.retire_v (f : Fibre) (y : BitVec 64) (n : Nat) (lv : Leave) : (f.retire y n lv).v = f.v := rfl
@[simp] theorem Fibre.retire_p (f : Fibre) (y : BitVec 64) (n : Nat) (lv : Leave) : (f.retire y n lv).p = f.p := rfl
@[simp] theorem Fibre.retire_cf (f : Fibre) (y : BitVec 64) (n : Nat) (lv : Leave) : (f.retire y n lv).cf = f.cf := rfl
@[simp] theorem Fibre.retire_fstat (f : Fibre) (y : BitVec 64) (n : Nat) (lv : Leave) : (f.retire y n lv).fstat = f.fstat := rfl
@[simp] theorem Fibre.retire_fctl (f : Fibre) (y : BitVec 64) (n : Nat) (lv : Leave) : (f.retire y n lv).fctl = f.fctl := rfl
@[simp] theorem Fibre.retire_srs (f : Fibre) (y : BitVec 64) (n : Nat) (lv : Leave) : (f.retire y n lv).srs = f.srs := rfl
@[simp] theorem Fibre.retire_pos (f : Fibre) (y : BitVec 64) (n : Nat) (lv : Leave) : (f.retire y n lv).pos = f.pos := rfl
@[simp] theorem Fibre.retire_region (f : Fibre) (y : BitVec 64) (n : Nat) (lv : Leave) : (f.retire y n lv).region = f.region := rfl
@[simp] theorem Fibre.retire_handler (f : Fibre) (y : BitVec 64) (n : Nat) (lv : Leave) : (f.retire y n lv).handler = f.handler := rfl
@[simp] theorem Fibre.retire_outer (f : Fibre) (y : BitVec 64) (n : Nat) (lv : Leave) : (f.retire y n lv).outer = f.outer := rfl
@[simp] theorem Fibre.retire_epc (f : Fibre) (y : BitVec 64) (n : Nat) (lv : Leave) : (f.retire y n lv).epc = f.epc := rfl
@[simp] theorem Fibre.retire_ecode (f : Fibre) (y : BitVec 64) (n : Nat) (lv : Leave) : (f.retire y n lv).ecode = f.ecode := rfl
@[simp] theorem Fibre.retire_eaddr (f : Fibre) (y : BitVec 64) (n : Nat) (lv : Leave) : (f.retire y n lv).eaddr = f.eaddr := rfl
@[simp] theorem Fibre.retire_einfo (f : Fibre) (y : BitVec 64) (n : Nat) (lv : Leave) : (f.retire y n lv).einfo = f.einfo := rfl
@[simp] theorem Fibre.retire_poison (f : Fibre) (y : BitVec 64) (n : Nat) (lv : Leave) : (f.retire y n lv).poison = f.poison := rfl
@[simp] theorem Fibre.retire_arrivals (f : Fibre) (y : BitVec 64) (n : Nat) (lv : Leave) : (f.retire y n lv).arrivals = f.arrivals := rfl
@[simp] theorem Fibre.retire_arrived (f : Fibre) (y : BitVec 64) (n : Nat) (lv : Leave) : (f.retire y n lv).arrived = f.arrived := rfl
@[simp] theorem Fibre.retire_pend (f : Fibre) (y : BitVec 64) (n : Nat) (lv : Leave) : (f.retire y n lv).pend = f.pend := rfl
@[simp] theorem Fibre.retire_holds (f : Fibre) (y : BitVec 64) (n : Nat) (lv : Leave) : (f.retire y n lv).holds = f.holds := rfl
@[simp] theorem Fibre.retire_recov (f : Fibre) (y : BitVec 64) (n : Nat) (lv : Leave) : (f.retire y n lv).recov = f.recov := rfl
@[simp] theorem Fibre.retire_loops (f : Fibre) (y : BitVec 64) (n : Nat) (lv : Leave) : (f.retire y n lv).loops = (f.onward y n lv).1 := rfl
@[simp] theorem Fibre.retire_pc (f : Fibre) (y : BitVec 64) (n : Nat) (lv : Leave) : (f.retire y n lv).pc = (f.onward y n lv).2 := rfl
@[simp] theorem Fibre.retire_waited (f : Fibre) (y : BitVec 64) (n : Nat) (lv : Leave) : (f.retire y n lv).waited = 0 := rfl

/-! ## Right after reset -/

@[simp] theorem State.reset_mem : State.reset.mem = [] := rfl
@[simp] theorem State.reset_coils : State.reset.coils = [] := rfl
@[simp] theorem State.reset_poison : State.reset.poison = [] := rfl
@[simp] theorem State.reset_coding : State.reset.coding = [] := rfl
@[simp] theorem State.reset_sideDir : State.reset.sideDir = [] := rfl
@[simp] theorem State.reset_l2keys : State.reset.l2keys = [] := rfl
@[simp] theorem State.reset_skeys : State.reset.skeys = [] := rfl
@[simp] theorem State.reset_tried : State.reset.tried = [] := rfl
@[simp] theorem State.reset_l1 : State.reset.l1 = [] := rfl
@[simp] theorem State.reset_icache : State.reset.icache = [] := rfl
@[simp] theorem State.reset_inputs : State.reset.inputs = [] := rfl
@[simp] theorem State.reset_turn : State.reset.turn = .free := rfl
@[simp] theorem State.reset_groups : State.reset.groups = List.replicate 256 Group.reset := rfl
@[simp] theorem State.reset_qslots : State.reset.qslots = List.replicate 256 QSlot.reset := rfl
@[simp] theorem State.reset_regs : State.reset.regs = DevRegs.reset := rfl
@[simp] theorem State.reset_launches : State.reset.launches = [] := rfl
@[simp] theorem State.reset_spawns : State.reset.spawns = [] := rfl
@[simp] theorem State.reset_copies : State.reset.copies = [] := rfl
@[simp] theorem State.reset_mxq : State.reset.mxq = [] := rfl

end Sys2Proof.Machine
end

