-- ==== Sys2Proof/Laws/Memory.lean ====
section
/-! SUPPORT. The bytes of memories: reads after writes, and that every operation keeps the canonical form. -/

namespace Sys2Proof.Machine

/-! ## The canonical form -/

theorem cellsFrom_cons {n : Nat} {e : Host.Cell} {r : List Host.Cell} :
    cellsFrom n (e :: r) = true ↔ n ≤ e.1 ∧ e.2 ≠ 0 ∧ cellsFrom (e.1 + 1) r = true := by
  simp [cellsFrom, and_assoc]

theorem cellsFrom_mono {n m : Nat} {l : List Host.Cell} (h : cellsFrom n l = true) (hm : m ≤ n) : cellsFrom m l = true := by
  cases l with
  | nil => rfl
  | cons e r =>
    have := cellsFrom_cons.mp h
    exact cellsFrom_cons.mpr ⟨Nat.le_trans hm this.1, this.2⟩

theorem cellsFrom_wf {n : Nat} {l : List Host.Cell} (h : cellsFrom n l = true) : cellsWf l = true := cellsFrom_mono h (Nat.zero_le n)

theorem cellGet_cons (e : Host.Cell) (r : List Host.Cell) (a : Nat) :
    cellGet (e :: r) a = if e.1 = a then e.2 else if a < e.1 then 0 else cellGet r a := rfl

theorem cellSet_nil (a : Nat) (b : Byte) : cellSet [] a b = if b = 0 then [] else [(a, b)] := rfl

theorem cellSet_cons (e : Host.Cell) (r : List Host.Cell) (a : Nat) (b : Byte) :
    cellSet (e :: r) a b = if e.1 = a then if b = 0 then r else (a, b) :: r
      else if a < e.1 then if b = 0 then e :: r else (a, b) :: e :: r else e :: cellSet r a b := rfl

theorem cellGet_below {n a : Nat} {l : List Host.Cell} (h : cellsFrom n l = true) (ha : a < n) : cellGet l a = 0 := by
  cases l with
  | nil => rfl
  | cons e r =>
    have := cellsFrom_cons.mp h
    rw [cellGet_cons, if_neg (by omega), if_pos (by omega)]

theorem cellSet_from {n a : Nat} {l : List Host.Cell} (b : Byte) (h : cellsFrom n l = true) (ha : n ≤ a) :
    cellsFrom n (cellSet l a b) = true := by
  induction l generalizing n with
  | nil =>
    rw [cellSet_nil]
    split
    · rfl
    · exact cellsFrom_cons.mpr ⟨ha, ‹_›, rfl⟩
  | cons e r ih =>
    obtain ⟨h1, h2, h3⟩ := cellsFrom_cons.mp h
    rw [cellSet_cons]
    split
    · rename_i he
      split
      · exact cellsFrom_mono h3 (by omega)
      · exact cellsFrom_cons.mpr ⟨ha, ‹_›, he ▸ h3⟩
    · split
      · split
        · exact h
        · exact cellsFrom_cons.mpr ⟨ha, ‹_›, cellsFrom_cons.mpr ⟨‹_›, h2, h3⟩⟩
      · exact cellsFrom_cons.mpr ⟨h1, h2, ih h3 (by omega)⟩

theorem cellSet_wf {l : List Host.Cell} (a : Nat) (b : Byte) (h : cellsWf l = true) : cellsWf (cellSet l a b) = true :=
  cellSet_from b h (Nat.zero_le a)

theorem cellsWrite_wf {l : List Host.Cell} (a : Nat) (d : List Byte) (h : cellsWf l = true) : cellsWf (cellsWrite l a d) = true := by
  induction d generalizing l a with
  | nil => exact h
  | cons b r ih => exact ih (a + 1) (cellSet_wf a b h)

/-! ## Reads after writes -/

theorem cellGet_cellSet {n : Nat} {l : List Host.Cell} (a : Nat) (b : Byte) (x : Nat) (h : cellsFrom n l = true) :
    cellGet (cellSet l a b) x = if x = a then b else cellGet l x := by
  induction l generalizing n with
  | nil =>
    rw [cellSet_nil]
    by_cases hx : x = a
    · subst hx
      split
      · simp_all [cellGet]
      · rw [cellGet_cons, if_pos rfl, if_pos rfl]
    · rw [if_neg hx]
      split
      · rfl
      · rw [cellGet_cons, if_neg (Ne.symm hx)]
        simp [cellGet]
  | cons e r ih =>
    obtain ⟨h1, h2, h3⟩ := cellsFrom_cons.mp h
    have hr : ∀ y, y ≤ e.1 → cellGet r y = 0 := fun y hy => cellGet_below h3 (by omega)
    rw [cellSet_cons]
    split
    · rename_i he
      by_cases hx : x = a
      · rw [if_pos hx]
        split
        · rw [hr x (by omega)]
          exact Eq.symm ‹_›
        · rw [cellGet_cons, if_pos hx.symm]
      · rw [if_neg hx, cellGet_cons e, if_neg (by omega : ¬ e.1 = x)]
        split
        · split
          · exact hr x (by omega)
          · rfl
        · rw [cellGet_cons, if_neg (Ne.symm hx)]
          simp only [he]
    · split
      · by_cases hx : x = a
        · rw [if_pos hx]
          split
          · rename_i hb
            rw [cellGet_cons, if_neg (by omega), if_pos (by omega), hb]
          · rw [cellGet_cons, if_pos hx.symm]
        · rw [if_neg hx]
          split
          · rfl
          · rw [cellGet_cons, if_neg (Ne.symm hx)]
            split
            · rw [cellGet_cons, if_neg (by omega), if_pos (by omega)]
            · rfl
      · rw [cellGet_cons, cellGet_cons, ih h3]
        by_cases hx : x = a
        · rw [if_pos hx, if_neg (by omega), if_neg (by omega), if_pos hx]
        · simp only [if_neg hx]

/-- A read after a write to the same place gives the byte written, and a write leaves every other byte alone. -/
theorem cellGet_set {l : List Host.Cell} (a : Nat) (b : Byte) (x : Nat) (h : cellsWf l = true) :
    cellGet (cellSet l a b) x = if x = a then b else cellGet l x := cellGet_cellSet a b x h

/-- The byte at an address after bytes have been written. -/
theorem cellGet_write {l : List Host.Cell} (a : Nat) (d : List Byte) (x : Nat) (h : cellsWf l = true) :
    cellGet (cellsWrite l a d) x = if a ≤ x ∧ x < a + d.length then d.getD (x - a) 0 else cellGet l x := by
  induction d generalizing l a with
  | nil =>
    have : ¬ (a ≤ x ∧ x < a) := by omega
    simp [cellsWrite, this]
  | cons b r ih =>
    rw [cellsWrite, ih (a + 1) (cellSet_wf a b h), cellGet_set a b x h, List.length_cons]
    by_cases h1 : x = a
    · subst h1
      have h2 : ¬ (x + 1 ≤ x ∧ x < x + 1 + r.length) := by omega
      have h3 : x ≤ x ∧ x < x + (r.length + 1) := by omega
      simp [h2, h3]
    · by_cases h2 : a + 1 ≤ x ∧ x < a + 1 + r.length
      · have h3 : a ≤ x ∧ x < a + (r.length + 1) := by omega
        have h4 : x - a = (x - (a + 1)) + 1 := by omega
        rw [if_pos h2, if_pos h3, h4, List.getD_cons_succ]
      · have h3 : ¬ (a ≤ x ∧ x < a + (r.length + 1)) := by omega
        rw [if_neg h2, if_neg h3, if_neg h1]

theorem cellsRead_length (l : List Host.Cell) (a n : Nat) : (cellsRead l a n).length = n := by
  induction n generalizing a with
  | zero => rfl
  | succ n ih => simp [cellsRead, ih]

theorem cellsRead_getD (l : List Host.Cell) (a n i : Nat) (h : i < n) : (cellsRead l a n).getD i 0 = cellGet l (a + i) := by
  induction n generalizing a i with
  | zero => omega
  | succ n ih =>
    cases i with
    | zero => rfl
    | succ i =>
      rw [cellsRead, List.getD_cons_succ, ih (a + 1) i (by omega)]
      congr 1
      omega

/-- A read sees only the bytes that it names. -/
theorem cellsRead_congr {l m : List Host.Cell} (a n : Nat) (h : ∀ i, i < n → cellGet l (a + i) = cellGet m (a + i)) :
    cellsRead l a n = cellsRead m a n := by
  induction n generalizing a with
  | zero => rfl
  | succ n ih =>
    rw [cellsRead, cellsRead, ih (a + 1) (fun i hi => by have := h (i + 1) (by omega); rwa [show a + 1 + i = a + (i + 1) by omega])]
    rw [show cellGet l a = cellGet m a from h 0 (by omega)]

/-- Memories in canonical form that read the same are the same. -/
theorem cells_ext {n : Nat} {l m : List Host.Cell} (hl : cellsFrom n l = true) (hm : cellsFrom n m = true)
    (h : ∀ a, cellGet l a = cellGet m a) : l = m := by
  induction l generalizing n m with
  | nil =>
    cases m with
    | nil => rfl
    | cons e r =>
      have := h e.1
      rw [cellGet_cons, if_pos rfl] at this
      exact absurd this.symm (cellsFrom_cons.mp hm).2.1
  | cons e r ih =>
    obtain ⟨h1, h2, h3⟩ := cellsFrom_cons.mp hl
    cases m with
    | nil =>
      have := h e.1
      rw [cellGet_cons, if_pos rfl] at this
      exact absurd this h2
    | cons e' r' =>
      obtain ⟨h1', h2', h3'⟩ := cellsFrom_cons.mp hm
      have hk : e.1 = e'.1 := by
        rcases Nat.lt_trichotomy e.1 e'.1 with hlt | heq | hgt
        · have := h e.1
          rw [cellGet_cons, cellGet_cons, if_pos rfl, if_neg (by omega), if_pos hlt] at this
          exact absurd this h2
        · exact heq
        · have := h e'.1
          rw [cellGet_cons, cellGet_cons, if_pos rfl, if_neg (by omega), if_pos hgt] at this
          exact absurd this.symm h2'
      have hv : e.2 = e'.2 := by
        have := h e.1
        rwa [cellGet_cons, cellGet_cons, if_pos rfl, if_pos hk.symm] at this
      have hr : r = r' := ih h3 (hk ▸ h3') (fun a => by
        have := h a
        rw [cellGet_cons, cellGet_cons, ← hk] at this
        by_cases ha : a ≤ e.1
        · rw [cellGet_below h3 (by omega), cellGet_below h3' (by omega)]
        · rwa [if_neg (by omega), if_neg (by omega), if_neg (by omega), if_neg (by omega)] at this)
      rw [hr, Prod.ext hk hv]

/-! ## Blocks of a memory -/

theorem cellsFrom_filter {n : Nat} {l : List Host.Cell} (p : Host.Cell → Bool) (h : cellsFrom n l = true) :
    cellsFrom n (l.filter p) = true := by
  induction l generalizing n with
  | nil => rfl
  | cons e r ih =>
    obtain ⟨h1, h2, h3⟩ := cellsFrom_cons.mp h
    rw [List.filter_cons]
    split
    · exact cellsFrom_cons.mpr ⟨h1, h2, ih h3⟩
    · exact cellsFrom_mono (ih h3) (by omega)

/-- A list in canonical form below a bound, followed by one above it. -/
theorem cellsFrom_append {n k : Nat} {l m : List Host.Cell} (hl : cellsFrom n l = true) (hk : ∀ e ∈ l, e.1 < k)
    (hm : cellsFrom k m = true) (hn : n ≤ k) : cellsFrom n (l ++ m) = true := by
  induction l generalizing n with
  | nil => exact cellsFrom_mono hm hn
  | cons e r ih =>
    obtain ⟨h1, h2, h3⟩ := cellsFrom_cons.mp hl
    exact cellsFrom_cons.mpr ⟨h1, h2, ih h3 (fun x hx => hk x (List.mem_cons_of_mem _ hx)) (hk e (List.mem_cons_self ..))⟩

theorem cellsFrom_raise {n k : Nat} {l : List Host.Cell} (h : cellsFrom n l = true) (hk : ∀ e ∈ l, k ≤ e.1) : cellsFrom k l = true := by
  cases l with
  | nil => rfl
  | cons e r => exact cellsFrom_cons.mpr ⟨hk e (List.mem_cons_self ..), (cellsFrom_cons.mp h).2⟩

theorem cellsFrom_shift {n lo base : Nat} {l : List Host.Cell} (h : cellsFrom n l = true) (hl : lo ≤ n) :
    cellsFrom (n - lo + base) (l.map (fun e => (e.1 - lo + base, e.2))) = true := by
  induction l generalizing n with
  | nil => rfl
  | cons e r ih =>
    obtain ⟨h1, h2, h3⟩ := cellsFrom_cons.mp h
    have h4 := ih h3 (by omega)
    rw [show e.1 + 1 - lo + base = e.1 - lo + base + 1 by omega] at h4
    refine cellsFrom_cons.mpr ⟨?_, h2, h4⟩
    show n - lo + base ≤ e.1 - lo + base
    omega

/-- Moved cells are in canonical form and lie in the range that they are moved to. -/
theorem cellsMove_from {l : List Host.Cell} (lo hi base : Nat) (h : cellsWf l = true) :
    cellsFrom base (cellsMove l lo hi base) = true ∧ ∀ e ∈ cellsMove l lo hi base, e.1 < base + (hi - lo) := by
  constructor
  · have h1 : cellsFrom lo (l.filter (fun e => decide (lo ≤ e.1) && decide (e.1 < hi))) = true :=
      cellsFrom_raise (cellsFrom_filter _ h) (fun e he => by
        simp only [List.mem_filter, Bool.and_eq_true, decide_eq_true_eq] at he
        exact he.2.1)
    have := cellsFrom_shift (base := base) h1 (Nat.le_refl lo)
    rwa [Nat.sub_self, Nat.zero_add] at this
  · intro e he
    simp only [cellsMove, List.mem_map, List.mem_filter, Bool.and_eq_true, decide_eq_true_eq] at he
    obtain ⟨x, ⟨-, h1, h2⟩, rfl⟩ := he
    show x.1 - lo + base < _
    omega

/-- Replacing a range keeps the canonical form. -/
theorem cellsReplace_wf {l new : List Host.Cell} (base n : Nat) (h : cellsWf l = true) (hn : cellsFrom base new = true)
    (hb : ∀ e ∈ new, e.1 < base + n) : cellsWf (cellsReplace l base n new) = true := by
  have h1 : cellsFrom (base + n) (l.filter (fun e => decide (base + n ≤ e.1))) = true :=
    cellsFrom_raise (cellsFrom_filter _ h) (fun e he => by simpa using (List.mem_filter.mp he).2)
  have h2 := cellsFrom_append hn hb h1 (by omega)
  have h3 : cellsFrom 0 (l.filter (fun e => decide (e.1 < base))) = true := cellsFrom_filter _ h
  unfold cellsReplace
  rw [List.append_assoc]
  exact cellsFrom_append h3 (fun e he => by simpa using (List.mem_filter.mp he).2) h2 (Nat.zero_le _)

/-! ## Device memory -/

theorem Memory.wf_reset : Memory.wf State.reset = true := rfl

theorem State.poke_wf {s : State} (pa : Nat) (d : List Byte) (h : Memory.wf s = true) : Memory.wf (s.poke pa d) = true :=
  cellsWrite_wf pa d h

theorem State.peek_length (s : State) (pa n : Nat) : (s.peek pa n).length = n := cellsRead_length s.mem pa n

/-- Only the bytes of memory count for the canonical form. -/
theorem Memory.wf_of_mem {s t : State} (h : t.mem = s.mem) (hs : Memory.wf s = true) : Memory.wf t = true := by
  unfold Memory.wf at *
  rwa [h]

theorem State.sideRelease_mem (s : State) (frame : Nat) : (s.sideRelease frame).mem = s.mem := by
  unfold State.sideRelease
  split <;> rfl

theorem State.uncode_mem (s : State) (sec : Nat) : (s.uncode sec).mem = s.mem := rfl

theorem State.setPoison_mem (s : State) (sec : Nat) (b : Bool) : (s.setPoison sec b).mem = s.mem := by
  unfold State.setPoison
  split
  · split
    · rfl
    · exact State.uncode_mem s sec
  · rfl

theorem State.sideBlock_mem {s t : State} {frame : Nat} (h : s.sideBlock frame = some t) : t.mem = s.mem := by
  unfold State.sideBlock at h
  split at h
  · simp_all
  · dsimp only at h
    split at h
    · obtain ⟨b, -, rfl⟩ := Option.map_eq_some_iff.mp h
      rfl
    · cases h

theorem State.recode_mem (s : State) (sec : Nat) (side compr : Bool) : (s.recode sec side compr).1.mem = s.mem := by
  unfold State.recode
  split
  · exact State.uncode_mem s sec
  · split
    · rw [State.sideRelease_mem, State.uncode_mem]
    · dsimp only
      split
      · rename_i t ht
        show t.mem = s.mem
        exact State.sideBlock_mem ht
      · rfl

theorem State.sealSector_mem (s : State) (sec : Nat) : (s.sealSector sec).mem = s.mem := rfl

/-- A sector that is filled under a key keeps the canonical form. -/
theorem State.fillSector_wf {s : State} (tkey : BitVec 512) (sec : Nat) (h : Memory.wf s = true) : Memory.wf (s.fillSector tkey sec) = true := by
  have wrong : ∀ (e : SecKey) (l : List Byte), Memory.wf ((s.draw.2.poke (32 * sec) l).setSkey e) = true := fun e l =>
    Memory.wf_of_mem (State.setSkey_mem _ e) (State.poke_wf (s := s.draw.2) (32 * sec) l h)
  unfold State.fillSector
  dsimp only
  split
  · exact h
  · split
    · exact Memory.wf_of_mem (State.setSkey_mem _ _) (State.poke_wf _ _ h)
    · exact wrong _ _

/-- A line that is taken under another key keeps the canonical form. -/
theorem State.touchLine_wf {s : State} (pa tkey : Nat) (h : Memory.wf s = true) : Memory.wf (s.touchLine pa tkey) = true := by
  have fill : ∀ (l : List Nat) (t : State), Memory.wf t = true →
      Memory.wf (l.foldl (fun s i => s.fillSector (s.slotKey tkey) (pa / 256 * 8 + i)) t) = true := by
    intro l
    induction l with
    | nil => exact fun t ht => ht
    | cons a l ih => exact fun t ht => ih _ (State.fillSector_wf _ _ ht)
  have h1 := fill (List.range 8) s h
  unfold State.touchLine
  dsimp only
  generalize List.foldl _ s (List.range 8) = t at h1
  split
  · split
    · exact h
    · exact h1
  · exact h1

/-- The device's own access to a sector keeps the canonical form. -/
theorem State.asOwner_wf {s : State} (pa : Nat) (h : Memory.wf s = true) : Memory.wf (s.asOwner pa) = true := by
  unfold State.asOwner
  split
  · exact State.touchLine_wf _ _ h
  · exact h

theorem State.putSector_wf {s : State} (pa : Nat) (d : BitVec 256) (h : Memory.wf s = true) : Memory.wf (s.putSector pa d) = true := by
  refine Memory.wf_of_mem (s := (s.asOwner pa).poke pa (leBytes 32 d.toNat)) ?_ (State.poke_wf pa _ (State.asOwner_wf pa h))
  unfold State.putSector
  rw [State.recode_mem, State.sealSector_mem, State.setPoison_mem]

/-- A sector that is reconstructed keeps the canonical form. -/
theorem State.heal_wf {s : State} (sec : Nat) (h : Memory.wf s = true) : Memory.wf (s.heal sec).1 = true := by
  unfold State.heal
  split
  · exact h
  · dsimp only
    split
    · exact h
    · exact State.putSector_wf _ _ (s := s.draw.2) h

/-- A fold keeps what each of its steps keeps. -/
theorem foldl_keeps {α β : Type} {P : β → Prop} {f : β → α → β} (hf : ∀ b a, P b → P (f b a)) (l : List α) {b : β} (h : P b) : P (l.foldl f b) := by
  induction l generalizing b with
  | nil => exact h
  | cons a l ih => exact ih (hf b a h)

theorem State.applyDelta_wf {s : State} (g stripe off : Nat) (d : BitVec 256) (h : Memory.wf s = true) :
    Memory.wf (s.applyDelta g stripe off d) = true := by
  unfold State.applyDelta
  dsimp only
  split
  · exact State.poke_wf _ _ (State.asOwner_wf _ (State.heal_wf _ h))
  · exact State.putSector_wf _ _ (State.asOwner_wf _ (State.heal_wf _ h))

theorem State.sendFor_wf {s : State} (pa : Nat) (d : BitVec 256) (g : Nat) (h : Memory.wf s = true) : Memory.wf (s.sendFor pa d g) = true := by
  unfold State.sendFor
  dsimp only
  split
  · exact State.applyDelta_wf _ _ _ _ h
  · split <;> exact h

/-- A delta that is applied, or sent, keeps the canonical form. -/
theorem State.sendDelta_wf {s : State} (pa : Nat) (old : List Byte) (h : Memory.wf s = true) : Memory.wf (s.sendDelta pa old) = true :=
  foldl_keeps (P := fun s => Memory.wf s = true) (fun _ g hs => State.sendFor_wf pa _ g hs) _ h

theorem State.markStale_mem (s : State) (pa : Nat) : (s.markStale pa).mem = s.mem := by
  refine foldl_keeps (P := fun t : State => t.mem = s.mem) (fun t g ht => ?_) _ rfl
  dsimp only
  split <;> exact ht

theorem Wrote.heal_wf {w : Wrote} (sec : Nat) (h : Memory.wf w.s = true) : Memory.wf (w.heal sec).s = true := State.heal_wf sec h

theorem writeSector_wf {w : Wrote} (pa : Nat) (d : List Byte) (bad side compr : Bool) (h : Memory.wf w.s = true) :
    Memory.wf (writeSector w pa d bad side compr).s = true := by
  unfold writeSector
  split
  · exact h
  · have h1 := Wrote.heal_wf (pa / 32) h
    dsimp only
    generalize w.heal (pa / 32) = v at h1 ⊢
    have h2 : Memory.wf ((v.s.poke pa d).sealSector (pa / 32)) = true := State.poke_wf pa d h1
    generalize (v.s.poke pa d).sealSector (pa / 32) = u at h2 ⊢
    refine Memory.wf_of_mem (s := if v.s.sectorPoisoned (pa / 32) then u.markStale (32 * (pa / 32))
      else u.sendDelta (32 * (pa / 32)) (v.s.peek (32 * (pa / 32)) 32)) ?_ ?_
    · rw [State.recode_mem, State.setPoison_mem]
    · split
      · exact Memory.wf_of_mem (State.markStale_mem u _) h2
      · exact State.sendDelta_wf _ _ h2

theorem writeSectors_wf {w : Wrote} (fuel pa : Nat) (d : List Byte) (bad side compr : Bool) (h : Memory.wf w.s = true) :
    Memory.wf (writeSectors fuel w pa d bad side compr).s = true := by
  induction fuel generalizing w pa d with
  | zero => exact h
  | succ n ih =>
    unfold writeSectors
    split
    · exact h
    · exact ih _ _ (writeSector_wf _ _ _ _ _ h)

/-- A performed write keeps the canonical form. -/
theorem State.perform_wf {s : State} (pa : Nat) (d : List Byte) (bad side compr : Bool) (h : Memory.wf s = true) :
    Memory.wf (s.perform pa d bad side compr).s = true := writeSectors_wf _ _ _ _ _ _ h

/-! ## Records -/

theorem State.interrupt_wf {s : State} (bit : Nat) (h : Memory.wf s = true) : Memory.wf (s.interrupt bit) = true := by
  unfold State.interrupt
  dsimp only
  split <;> exact h

theorem State.setLost_wf {s : State} (n : Nat) (h : Memory.wf s = true) : Memory.wf (s.setLost n) = true := by
  refine Memory.wf_of_mem ?_ h
  unfold State.setLost
  rfl

theorem State.putRecord_wf {s : State} (r : Rec) (loss : Bool) (h : Memory.wf s = true) : Memory.wf (s.putRecord r loss) = true := by
  unfold State.putRecord
  have h1 : Memory.wf s.tick = true := Memory.wf_of_mem (State.tick_mem s) h
  generalize s.tick = t at h1 ⊢
  dsimp only
  have h2 := State.perform_wf (t.regs.errqbase.toNat / 2 ^ 16 * 2 ^ 16 + 64 * (t.regs.errqhead.toNat % t.errqSize)) (r.bytes loss t.refclk)
    false false true h1
  generalize t.perform _ _ false false true = w at h2 ⊢
  exact State.interrupt_wf 0 (Memory.wf_of_mem rfl h2)

/-- A record that is written, or lost, keeps the canonical form. -/
theorem State.record_wf {s : State} (r : Rec) (h : Memory.wf s = true) : Memory.wf (s.record r) = true := by
  unfold State.record
  split
  · exact State.setLost_wf _ h
  · split
    · exact State.putRecord_wf _ _ h
    · have h1 := State.setLost_wf 0 (State.putRecord_wf (overflowRec s.errqLost) true h)
      dsimp only
      generalize (s.putRecord (overflowRec s.errqLost) true).setLost 0 = u at h1 ⊢
      split
      · exact State.putRecord_wf _ _ h1
      · exact State.setLost_wf _ h1

/-- Records in a row. -/
theorem State.records_wf {s : State} (l : List Nat) (r : State → Nat → Rec) (h : Memory.wf s = true) :
    Memory.wf (l.foldl (fun s pa => s.record (r s pa)) s) = true := by
  induction l generalizing s with
  | nil => exact h
  | cons a l ih => exact ih (State.record_wf _ h)

/-- What a write reports keeps the canonical form. -/
theorem Wrote.report_wf {w : Wrote} (h : Memory.wf w.s = true) : Memory.wf w.report = true := by
  unfold Wrote.report
  exact State.records_wf _ _ (State.records_wf _ _ (State.records_wf _ _ h))

/-! ## Translation and keys -/

/-- Setting the A and D bits of an entry keeps the canonical form. -/
theorem State.touchPte_wf {s : State} (a : Nat) (e : DWord) (k : Access) (h : Memory.wf s = true) : Memory.wf (s.touchPte a e k) = true := by
  unfold State.touchPte
  generalize (e ||| 0x20 ||| if k = .write then 0x40 else 0) = e'
  dsimp only
  split
  · exact h
  · exact Wrote.report_wf (State.perform_wf a _ _ _ _ h)

theorem State.walk_wf {s : State} (va : BitVec 64) (k : Access) (l : List Level) (tbl : Nat) (h : Memory.wf s = true) :
    Memory.wf (s.walk va k l tbl).2 = true := by
  induction l generalizing tbl with
  | nil => exact h
  | cons x r ih =>
    unfold State.walk
    generalize tbl + 8 * bitsOf va.toNat x.shift x.width = a
    generalize s.peek64 a = e
    generalize (decide (x.shift = 16) || decide (x.shift = 21) && pteLeaf e) = b
    cases b <;> dsimp only <;> (repeat' split) <;> first
      | exact h
      | exact State.touchPte_wf _ _ _ h
      | exact ih _
      | exact State.touchPte_wf _ _ _ (ih _)

/-- A translation keeps the canonical form. -/
theorem State.translate_wf {s : State} (asid : BitVec 12) (va : BitVec 64) (k : Access) (h : Memory.wf s = true) :
    Memory.wf (s.translate asid va k).2 = true := by
  unfold State.translate
  dsimp only
  split
  · exact h
  · split
    · exact h
    · exact State.walk_wf va k _ _ h

end Sys2Proof.Machine
end

