-- ==== Sys2Proof/Machine/Kco.lean ====
section
/-! DEFINITION. Kuosh code objects (16_portable.md R450 to R455): the bytes of an object, what makes the loader reject it, where it places the
sections and the handle-table entries, and the launch packet of a kernel. The loader is software: no step of the device runs it, and what it
does is what system software does to the device's memory before a launch (log 119). -/

namespace Sys2Proof.Machine

/-! ## The object (R450, R451) -/

/-- The little-endian value of n bytes of an object. -/
def kcoNat (o : List Byte) (off n : Nat) : Nat := leNat ((o.drop off).take n)

/-- The header of an object (R450). -/
structure KcoHeader where
  magic : Nat
  version : Nat
  flags : Nat
  target : Nat
  nsect : Nat
  sectoff : Nat
  size : Nat
  textsize : Nat
  dataend : Nat
  check : Nat
  deriving DecidableEq, Repr

/-- The header that an object begins with. -/
def KcoHeader.of (o : List Byte) : KcoHeader :=
  { magic := kcoNat o 0 4, version := kcoNat o 4 2, flags := kcoNat o 6 2, target := kcoNat o 8 4, nsect := kcoNat o 0xC 4,
    sectoff := kcoNat o 0x10 8, size := kcoNat o 0x18 8, textsize := kcoNat o 0x20 8, dataend := kcoNat o 0x28 8, check := kcoNat o 0x30 4 }

/-- The sum of every 32-bit word of an object but its CHECK, modulo 2^32 (R450). -/
def kcoSum (o : List Byte) : Nat := ((wordsIn ((o.length + 3) / 4) o).sum + 2 ^ 32 - kcoNat o 0x30 4) % 2 ^ 32

/-- An entry of the section table (R451). -/
structure KcoSection where
  kind : Nat
  alignLog : Nat
  fileOff : Nat
  fileSize : Nat
  place : Nat
  deriving DecidableEq, Repr

/-- Section entry i of an object. -/
def KcoSection.of (o : List Byte) (i : Nat) : KcoSection :=
  let a := (KcoHeader.of o).sectoff + 32 * i
  { kind := kcoNat o a 2, alignLog := kcoNat o (a + 2) 1, fileOff := kcoNat o (a + 8) 8, fileSize := kcoNat o (a + 0x10) 8,
    place := kcoNat o (a + 0x18) 8 }

/-- The sections of an object. -/
def kcoSections (o : List Byte) : List KcoSection := (List.range (KcoHeader.of o).nsect).map (KcoSection.of o)

/-- A section that holds code, of the text image. -/
def KcoSection.isText (x : KcoSection) : Bool := x.kind = 1 || x.kind = 2
/-- The bytes of a section. -/
def KcoSection.bytes (x : KcoSection) (o : List Byte) : List Byte := (o.drop x.fileOff).take x.fileSize

/-- Whether ranges, start and length, are disjoint. -/
def apart : List (Nat × Nat) → Bool
  | [] => true
  | e :: r => r.all (fun f => e.2 = 0 || f.2 = 0 || e.1 + e.2 ≤ f.1 || f.1 + f.2 ≤ e.1) && apart r

/-- Whether a section entry is one that the format allows (R451). -/
def KcoSection.ok (x : KcoSection) (h : KcoHeader) : Bool :=
  ((1 ≤ x.kind && x.kind ≤ 8) || (0x8000 ≤ x.kind && x.kind ≤ 0xFFFF)) && 2 ≤ x.alignLog && x.alignLog ≤ 16 && x.fileOff + x.fileSize ≤ h.size
  && x.place % 2 ^ x.alignLog = 0 && (!x.isText || x.place + x.fileSize ≤ h.textsize)
  && (x.kind ≠ 3 || (0x10040 ≤ x.place && x.place + x.fileSize ≤ h.dataend)) && (x.isText || x.kind = 3 || x.place = 0)

/-- Whether FLAGS, TARGET and DATAEND say what the sections are (R450): bit 0 a GPF section, bit 1 native ones, TARGET 0 for portable code alone, and
DATAEND the end of the data. -/
def KcoHeader.suits (h : KcoHeader) (l : List KcoSection) : Bool :=
  let native := l.any KcoSection.isText
  let data := l.filter (fun x => x.kind = 3)
  h.flags = (if l.any (fun x => x.kind = 7) then 1 else 0) + (if native then 2 else 0) && (h.flags ≠ 1 || h.target = 0) && (!native || h.target ≠ 0)
  && (data.isEmpty || h.dataend = (data.map (fun x => x.place + x.fileSize)).foldl max 0)

/-- The records of n bytes in the sections of a kind. -/
def kcoRecords (o : List Byte) (kind n : Nat) : List (List Byte) :=
  ((kcoSections o).filter (fun x => x.kind = kind)).flatMap (fun x => (List.range (x.fileSize / n)).map (fun i => ((x.bytes o).drop (n * i)).take n))

/-- A SYM record (R453): KIND 0 to 3, reserved bits 0. -/
def symOk (r : List Byte) : Bool := kcoNat r 4 1 ≤ 3 && kcoNat r 5 3 = 0
/-- A KINFO record (R453): FIBRES 1 to 1024, WIN a multiple of 8 from 8 to 256 (02_encoding.md R31), SCRATCHKIB a multiple of 64 up to 4096, ACC at most
16, reserved bits 0. -/
def kinfoOk (r : List Byte) : Bool :=
  1 ≤ kcoNat r 8 2 && kcoNat r 8 2 ≤ 1024 && kcoNat r 0xA 2 % 8 = 0 && 8 ≤ kcoNat r 0xA 2 && kcoNat r 0xA 2 ≤ 256 && kcoNat r 0xC 2 % 64 = 0
  && kcoNat r 0xC 2 ≤ 4096 && kcoNat r 0xE 1 ≤ 16 && kcoNat r 0xF 1 ≤ 1 && kcoNat r 0x10 16 = 0
/-- A HANDLES record (R454): INDEX 2 to 2047, KIND 0 or 1, reserved bits 0. -/
def handleOk (r : List Byte) : Bool := 2 ≤ kcoNat r 0 2 && kcoNat r 0 2 ≤ 2047 && kcoNat r 2 1 ≤ 1 && kcoNat r 3 1 = 0

/-- Whether the sections of a kind hold whole records of n bytes, each of them right. -/
def recordsOk (o : List Byte) (kind n : Nat) (ok : List Byte → Bool) : Bool :=
  ((kcoSections o).filter (fun x => x.kind = kind)).all (fun x => x.fileSize % n = 0) && (kcoRecords o kind n).all ok

/-- Whether the loader accepts an object (R450, R451). That it rejects every object that breaks the format, and not only those that R451 names, is
the model's choice (log 119). -/
def kcoOk (o : List Byte) : Bool :=
  let h := KcoHeader.of o
  let l := kcoSections o
  let span (x : KcoSection) : Nat × Nat := (x.place, x.fileSize)
  64 ≤ o.length && h.magic = 0x004F434B && h.version = 1 && h.suits l && 1 ≤ h.nsect && h.nsect ≤ 256 && h.sectoff % 32 = 0
  && recordsOk o 4 24 symOk && recordsOk o 5 32 kinfoOk && recordsOk o 6 16 handleOk
  && h.size = o.length && h.sectoff + 32 * h.nsect ≤ h.size && kcoNat o 0x34 12 = 0 && h.check = kcoSum o
  && (List.range h.nsect).all (fun i => kcoNat o (h.sectoff + 32 * i + 3) 1 = 0 && kcoNat o (h.sectoff + 32 * i + 4) 4 = 0)
  && l.all (fun x => x.ok h) && apart (l.map (fun x => (x.fileOff, x.fileSize))) && apart ((l.filter KcoSection.isText).map span)
  && apart ((l.filter (fun x => x.kind = 3)).map span)

/-! ## Symbols, kernels and handle requests (R453, R454) -/

/-- The name at an offset of the STRINGS section: its bytes before the zero. -/
def kcoName (o : List Byte) (off : Nat) : List Byte :=
  match (kcoSections o).find? (fun x => x.kind = 8) with
  | some x => ((x.bytes o).drop off).takeWhile (fun b => b ≠ 0)
  | none => []

/-- A symbol (R453): 0 kernel, 1 MCC program, 2 data object, 3 code label. -/
structure KcoSym where
  name : List Byte
  kind : Nat
  value : Nat
  size : Nat
  deriving DecidableEq, Repr

/-- The symbols of an object. -/
def kcoSyms (o : List Byte) : List KcoSym :=
  (kcoRecords o 4 24).map (fun r => { name := kcoName o (kcoNat r 0 4), kind := kcoNat r 4 1, value := kcoNat r 8 8, size := kcoNat r 0x10 8 })

/-- The launch attributes of a kernel (R453). -/
structure Kinfo where
  entry : Nat
  fibres : Nat
  win : Nat
  scratchKib : Nat
  acc : Nat
  pin : Bool
  deriving DecidableEq, Repr

/-- The kernels of an object. -/
def kcoKernels (o : List Byte) : List Kinfo :=
  (kcoRecords o 5 32).map (fun r => { entry := kcoNat r 0 8, fibres := kcoNat r 8 2, win := kcoNat r 0xA 2, scratchKib := kcoNat r 0xC 2,
                                      acc := kcoNat r 0xE 1, pin := kcoNat r 0xF 1 % 2 = 1 })

/-- A handle request (R454): `own` says that the entry is a data object of this code object, and not supplied by the launcher. -/
structure HandleReq where
  index : Nat
  own : Bool
  name : List Byte
  doff : Nat
  len : Nat
  deriving DecidableEq, Repr

/-- The handle requests of an object. -/
def kcoHandles (o : List Byte) : List HandleReq :=
  (kcoRecords o 6 16).map (fun r => { index := kcoNat r 0 2, own := kcoNat r 2 1 = 1, name := kcoName o (kcoNat r 4 4), doff := kcoNat r 8 4,
                                      len := kcoNat r 0xC 4 })

/-! ## Loading (R452, R454) -/

/-- System software writes bytes at a virtual address of a context, piece by piece. -/
def State.loadPieces (s : State) (asid : BitVec 12) : List (Nat × Nat) → List Byte → State
  | [], _ => s
  | p :: r, d => ((s.vwrite asid (BitVec.ofNat 64 p.1) (d.take p.2)).2).loadPieces asid r (d.drop p.2)

/-- System software writes bytes at a virtual address of a context. -/
def State.loadBytes (s : State) (asid : BitVec 12) (va : Nat) (d : List Byte) : State := s.loadPieces asid (pieces (d.length / 32 + 2) va d.length) d

/-- Whether a page is one for text: X set and W clear (R452; 08_memory.md R228). -/
def State.textPage (s : State) (asid : BitVec 12) (va : Nat) : Bool :=
  (match (s.translate asid (BitVec.ofNat 64 va) .fetch).1 with | .ok _ => true | .error _ => false)
  && (match (s.translate asid (BitVec.ofNat 64 va) .write).1 with | .ok _ => false | .error f => f.code = 0x104)

/-- Whether every page of a virtual range is one for text, by steps of 64 KiB. -/
def State.textPages (s : State) (asid : BitVec 12) (va n : Nat) : Bool :=
  (List.range ((n + 65535) / 65536 + 1)).all (fun k => let a := (va / 65536 + k) * 65536; va + n ≤ a || s.textPage asid (max va a))

/-- System software writes text, piece by piece, where the pages lie: they are not writable, so it goes by their physical addresses. -/
def State.loadTextPieces (s : State) (asid : BitVec 12) : List (Nat × Nat) → List Byte → State
  | [], _ => s
  | p :: r, d =>
    match (s.translate asid (BitVec.ofNat 64 p.1) .fetch).1 with
    | .ok x => ((s.perform x.pa (d.take p.2) false x.side true).report).loadTextPieces asid r (d.drop p.2)
    | .error _ => s.loadTextPieces asid r (d.drop p.2)

/-- The text image: every CODE and MCC section at its place in the one block of the image, by virtual address (R452). -/
def State.loadText (s : State) (o : List Byte) (asid : BitVec 12) (text : Nat) : State :=
  ((kcoSections o).filter KcoSection.isText).foldl (fun s x =>
    s.loadTextPieces asid (pieces (x.fileSize / 32 + 2) (text + x.place) x.fileSize) (x.bytes o)) s

/-- The data sections, at their places from CTXBASE (R452). -/
def State.loadData (s : State) (o : List Byte) (asid : BitVec 12) (ctx : Nat) : State :=
  ((kcoSections o).filter (fun x => x.kind = 3)).foldl (fun s x => s.loadBytes asid (ctx + x.place) (x.bytes o)) s

/-- The handle-table entry that the loader writes for a data object (R454; 08_memory.md R215): VALID, GLOBAL, CACHED. -/
def HandleReq.entry (r : HandleReq) (ctx : Nat) : List Byte := leBytes 8 (ctx + r.doff) ++ leBytes 8 r.len ++ leBytes 8 1 ++ leBytes 8 0

/-- The entries that the loader writes (R454). -/
def State.loadHandles (s : State) (o : List Byte) (asid : BitVec 12) (ctx : Nat) : State :=
  ((kcoHandles o).filter (fun r => r.own && 2 ≤ r.index && r.index ≤ 2047)).foldl (fun s r => s.loadBytes asid (ctx + 32 * r.index) (r.entry ctx)) s

/-- What loading comes to (R451, R452): the object is rejected, or it is in place. -/
inductive Loaded where
  | rejected
  | placed (s : State)

/-- The target of native code of the OD-DN7A (R450). -/
def kcoTarget : Nat := 0x00070001

/-- Places a native object for a context: the text at a base aligned to 256 bytes, in pages of its own kind, the data and the entries at CTXBASE
(R452, R454). -/
def State.placeKco (s : State) (o : List Byte) (asid : BitVec 12) (text ctx : Nat) : Loaded :=
  if !kcoOk o || (KcoHeader.of o).target ≠ kcoTarget || text % 256 ≠ 0 || !s.textPages asid text (KcoHeader.of o).textsize then .rejected
  else .placed (((s.loadText o asid text).loadData o asid ctx).loadHandles o asid ctx)

/-- Loads an object (R452): a native one as it is; for another target the native object that the lowerer makes of its GPF section, `lower`, which gives
none where there is no such section that can be lowered (Lowering.lean says which code is right). -/
def State.loadKco (s : State) (o : List Byte) (lower : List Byte → Option (List Byte)) (asid : BitVec 12) (text ctx : Nat) : Loaded :=
  if (KcoHeader.of o).target = kcoTarget then s.placeKco o asid text ctx
  else
    match (kcoSections o).find? (fun x => x.kind = 7) with
    | some g =>
      match kcoOk o, lower (g.bytes o) with
      | true, some n => s.placeKco n asid text ctx
      | _, _ => .rejected
    | none => .rejected

/-! ## The launcher (R453, R455) -/

/-- The pool blocks that the windows of a kernel take. -/
def Kinfo.wblk (k : Kinfo) : Nat := (k.fibres * k.win * 4 + 65535) / 65536
/-- The logical scratchpad of a kernel, in blocks of 64 KiB. -/
def Kinfo.slog (k : Kinfo) : Nat := k.scratchKib / 64
/-- Whether a kernel can be launched on the device (R443, R455). -/
def Kinfo.launchable (k : Kinfo) : Bool := k.wblk + k.acc ≤ 128 && k.slog ≤ 64
/-- The largest SBLK that the launcher may choose. -/
def Kinfo.maxSblk (k : Kinfo) : Nat := min k.slog (128 - k.wblk - k.acc)
/-- PARTW of a launch with some SBLK (R455; 08_memory.md R223). -/
def Kinfo.partw (k : Kinfo) (sblk : Nat) : Nat := k.wblk + sblk * 2 ^ 8 + k.acc * 2 ^ 16 + k.slog * 2 ^ 24

/-- What a launcher chooses of a launch: how many coils, the RCB, its future, the context, SBLK, FCTL and s0 to s3. -/
structure LaunchArgs where
  coils : Nat
  rcb : BitVec 64
  future : BitVec 64
  ctx : BitVec 64
  sblk : Nat
  fctl : Nat
  s : List Word

/-- The launch packet of a kernel whose text image begins at a virtual address (R453; 07_work.md R182). -/
def Kinfo.packet (k : Kinfo) (text : BitVec 64) (a : LaunchArgs) : BitVec 512 :=
  BitVec.ofNat 512 (leNat (leBytes 1 1 ++ leBytes 1 (if k.pin then 1 else 0) ++ leBytes 2 (k.fibres - 1) ++ leBytes 4 a.coils
    ++ leBytes 8 (text.toNat + k.entry) ++ leBytes 8 a.rcb.toNat ++ leBytes 4 (k.partw a.sblk) ++ leBytes 2 k.win ++ leBytes 1 (a.fctl % 8) ++ leBytes 1 0
    ++ leBytes 8 a.ctx.toNat ++ leBytes 8 a.future.toNat ++ (List.range 4).flatMap (fun i => leBytes 4 (a.s.getD i 0).toNat)))

end Sys2Proof.Machine
end

