-- ==== Sys2Proof/Machine/Portable.lean ====
section
/-! DEFINITION. The Gorrak portable form (16_portable.md R443 to R449): target constants, value types, operation records, what makes a function valid,
where convergence markers go, and the native instruction of a record. No step of the device runs it (log 120); Lowering.lean says what a right
lowering is. -/

namespace Sys2Proof.Machine

/-- The target constants of the DN7, by index (R443). -/
def targetConst (i : Nat) : Option Nat := [128, 128, 64, 128, 64, 16, 8, 64][i]?

/-- The types of GPF values (R444). -/
inductive GTy where
  | p | w32 | w64 | w128 | u32 | u64
  | blk (n : Nat)
  deriving DecidableEq, Repr

/-- The code of a type. -/
def GTy.code : GTy → Nat
  | .p => 0 | .w32 => 1 | .w64 => 2 | .w128 => 3 | .u32 => 4 | .u64 => 5 | .blk _ => 6

/-- A coil-uniform type. -/
def GTy.uniform (t : GTy) : Bool := t = .u32 || t = .u64

/-! ## Records (R445) -/

/-- An operand word: a native field value, a value number, or a target constant. -/
inductive GOpd where
  | field (n : Nat)
  | value (n : Nat)
  | const (i : Nat)
  deriving DecidableEq, Repr

/-- Reads an operand word; that of X holds 11 bits. -/
def GOpd.ofWord (isX : Bool) (w : Word) : Option GOpd :=
  let n := w.toNat % 2 ^ 30
  match w.toNat / 2 ^ 30 with
  | 0 => if n < (if isX then 2048 else 256) then some (.field n) else none
  | 1 => if n < 2 ^ 24 then some (.value n) else none
  | 2 => none
  | _ => if (targetConst n).isSome then some (.const n) else none

/-- A SIMT or MCC operation. -/
structure GOp where
  mcc : Bool
  opc : Nat
  mod : Nat
  gneg : Bool
  d : GOpd
  a : GOpd
  b : GOpd
  x : GOpd
  lit : Option Word
  guard : Option Nat
  rd : Option Nat
  deriving DecidableEq, Repr

/-- A record. A PHI holds its value, its predecessors, and the value that comes in from each. A branch names the block where its condition holds and
the other one; blocks are numbered from 0 in their order, and a function or block that a CALL names by its number. -/
inductive GRec where
  | op (o : GOp)
  | phi (d : Nat) (blocks vals : List Nat)
  | jump (t : Nat)
  | branch (t e c : Nat)
  | conv (g : Nat)
  | call (t : Nat)
  | ret
  deriving DecidableEq, Repr

/-- The value number in an operand word. -/
def gValue (w : Word) : Option Nat :=
  match GOpd.ofWord false w with
  | some (.value n) => some n
  | _ => none

/-- The block number or the group field in a word of a control record, which has TAG 0. -/
def gField (w : Word) : Option Nat := if w.toNat < 2 ^ 30 then some w.toNat else none

/-- The optional words of an operation record, in their order: literal, guard value, read value; with what follows them. -/
def gOption (on : Bool) : List Word → Option (Option Word × List Word)
  | [] => if on then none else some (none, [])
  | w :: r => if on then some (some w, r) else some (none, w :: r)

/-- An operation from its first word, its four operand words and what follows. One of the MCC has no guard (11_matrix.md R326). -/
def GOp.ofWords (w0 d a b x : Word) (rest : List Word) : Option (GOp × List Word) := do
  let l ← gOption (w0.getLsbD 17) rest
  let g ← gOption (w0.getLsbD 16) l.2
  let v ← gOption (w0.getLsbD 18) g.2
  let d ← GOpd.ofWord false d
  let a ← GOpd.ofWord false a
  let b ← GOpd.ofWord false b
  let x ← GOpd.ofWord true x
  let mcc := w0.toNat / 2 ^ 11 % 16 = 1
  if g.1.isSome && (g.1.bind gValue).isNone then none
  else if v.1.isSome && (v.1.bind gValue).isNone then none
  else if mcc && (g.1.isSome || w0.getLsbD 15) then none
  else
    some ({ mcc := mcc, opc := w0.toNat % 256, mod := w0.toNat / 256 % 8, gneg := w0.getLsbD 15, d := d, a := a, b := b,
            x := x, lit := l.1, guard := g.1.bind gValue, rd := v.1.bind gValue }, v.2)

/-- The values of n words. -/
def gValues : Nat → List Word → Option (List Nat × List Word)
  | 0, l => some ([], l)
  | _ + 1, [] => none
  | n + 1, w :: r => do
    let v ← gValue w
    let q ← gValues n r
    some (v :: q.1, q.2)

/-- The predecessors that a PHI lists in its words 2 to 4, the first three of them; those beyond follow in rising order (log 120). The words that name
none are 0. -/
def gPreds (preds : List Nat) (ws : List Word) : Option (List Nat) :=
  let n := min 3 preds.length
  let l := (ws.take n).filterMap gField
  if l.length = n && l.Nodup && l.all preds.contains && (ws.drop n).all (fun w => w = 0) then some (l ++ preds.filter (fun p => !l.contains p)) else none

/-- A control record from its kind and its words 1 to 4, which hold, from the first on, what the kind requires, and 0 beyond (R445; log 120). -/
def GRec.ofControl (kind : Nat) (preds : List Nat) (w1 w2 w3 w4 : Word) (rest : List Word) : Option (GRec × List Word) := do
  if kind = 2 then
    let d ← gValue w1
    let b ← gPreds preds [w2, w3, w4]
    let q ← gValues b.length rest
    some (.phi d b q.1, q.2)
  else if kind = 4 then
    let t ← gField w1
    let e ← gField w2
    let c ← gValue w3
    if w4 = 0 then some (.branch t e c, rest) else none
  else if w2 ≠ 0 || w3 ≠ 0 || w4 ≠ 0 then none
  else
    let n ← gField w1
    match kind with
    | 3 => some (.jump n, rest)
    | 5 => some (.conv n, rest)
    | 6 => some (.call n, rest)
    | 7 => if n = 0 then some (.ret, rest) else none
    | _ => none

/-- A record that stands in a block with some predecessors, and the words after it. A control record has none of the fields of an operation. -/
def GRec.ofWords (preds : List Nat) : List Word → Option (GRec × List Word)
  | w0 :: w1 :: w2 :: w3 :: w4 :: rest =>
    let kind := w0.toNat / 2 ^ 11 % 16
    if w0.toNat / 2 ^ 19 ≠ 0 then none
    else if kind ≤ 1 then (GOp.ofWords w0 w1 w2 w3 w4 rest).map (fun q => (.op q.1, q.2))
    else if w0.toNat ≠ kind * 2 ^ 11 then none
    else GRec.ofControl kind preds w1 w2 w3 w4 rest
  | _ => none

/-! ## The native instruction of a record (R448, item 1) -/

/-- An operand's field, where `reg` gives each value its register. -/
def GOpd.num (reg : Nat → Nat) : GOpd → Nat
  | .field n => n
  | .value n => reg n
  | .const i => (targetConst i).getD 0

/-- The literal, where a target constant stands for a register in B: the constant is then the literal that replaces B (R445). -/
def GOp.constLit (o : GOp) (lits : Bool) : Option Word :=
  match lits, o.lit, o.b with
  | true, none, .const i => some (BitVec.ofNat 32 ((targetConst i).getD 0))
  | _, l, _ => l

/-- Field B beside that literal. -/
def GOp.bNum (o : GOp) (reg : Nat → Nat) (lits : Bool) : Nat :=
  match lits, o.b with
  | true, .const _ => 0
  | _, b => b.num reg

/-- Field X: what the record gives, or MOD with the number of C. -/
def GOp.xNum (o : GOp) (reg : Nat → Nat) : Nat := match o.x with | .field n => n | _ => o.mod * 256 + o.x.num reg % 256

/-- The native fields of an operation, with no flag and no wait; `setf` says that X has the SETF layout, whose flag the schedule fills, and `lits`
that a constant in B becomes a literal. -/
def GOp.main (o : GOp) (reg : Nat → Nat) (setf lits : Bool) : Main :=
  let x := o.xNum reg
  { dist := 0, wait := 0, gsel := BitVec.ofNat 3 ((o.guard.map reg).getD 0), gneg := if o.gneg then 1 else 0, d := BitVec.ofNat 8 (o.d.num reg),
    a := BitVec.ofNat 8 (o.a.num reg), b := BitVec.ofNat 8 (o.bNum reg lits), x := BitVec.ofNat 11 (if setf then x / 16 * 16 + 15 else x),
    lit := o.constLit lits }

/-- Whether a field names v or s registers, which no record names by number. -/
def fldIsReg : Fld → Bool
  | .v _ => true
  | .va _ => true
  | .vpair2 => true
  | .s _ => true
  | _ => false

/-- Whether a constant in B becomes the literal that replaces B, for an instruction of some shape. -/
def constToLit (sh : Shape) : Bool := fldIsReg sh.b && (sh.lit = .repB || sh.lit = .repBReq) || sh.lit = .repBReq

/-- The one native instruction of a SIMT record (R448). -/
noncomputable def GOp.native (o : GOp) (reg : Nat → Nat) : Option Instr :=
  match pickSimt o.opc (o.main reg false false) with
  | .op i =>
    match pickSimt o.opc (o.main reg (i.shape.lay = .setf) (constToLit i.shape)) with
    | .op j => some j
    | _ => none
  | _ => none

/-- The fields of an MCC record's instruction. A record has no place for the bits of E, which are 0 (log 120). -/
def GOp.mccMain (o : GOp) (reg : Nat → Nat) (lits : Bool) : Mcc :=
  { e := 0, d := BitVec.ofNat 8 (o.d.num reg), a := BitVec.ofNat 8 (o.a.num reg), b := BitVec.ofNat 8 (o.bNum reg lits),
    x := BitVec.ofNat 11 (o.xNum reg), lit := o.constLit lits }

/-- The one native instruction of an MCC record (R448). -/
noncomputable def GOp.nativeMcc (o : GOp) (reg : Nat → Nat) : Option Instr :=
  match pickMcc o.opc (o.mccMain reg false) with
  | some (some i) =>
    match pickMcc o.opc (o.mccMain reg (i.mccShape.lit = .repB && i.mccShape.b = .ar)) with
    | some (some j) => some j
    | _ => none
  | _ => none

/-- The one native instruction of a record. -/
noncomputable def GOp.instr (o : GOp) (reg : Nat → Nat) : Option Instr := if o.mcc then o.nativeMcc reg else o.native reg

/-- The native shape of a SIMT record. -/
noncomputable def GOp.shape (o : GOp) : Option Shape := (o.native (fun _ => 0)).map Instr.shape

/-! ## Types of operands (R446) -/

/-- What the fields D, A, B and C of an instruction name where the form of the field does not say it: a predicate, or the s register or pair of a
descriptor (02_encoding.md R31; 05_special.md R138; 11_matrix.md R340; 12_scout.md R355). -/
noncomputable def namedFields : Instr → Option GTy × Option GTy × Option GTy × Option GTy
  | .icmp _ => (some .p, none, none, none)
  | .fcmp _ => (some .p, none, none, none)
  | .dcmp _ => (some .p, none, none, none)
  | .sel _ => (none, none, none, some .p)
  | .pset _ => (some .p, none, none, none)
  | .plop _ => (some .p, some .p, some .p, none)
  | .vote _ => (some .p, some .p, none, none)
  | .ballot _ => (none, some .p, none, none)
  | .elect _ => (some .p, none, none, none)
  | .bwait _ => (some .p, none, none, none)
  | .pwait _ => (some .p, none, none, none)
  | .rowmax _ => (none, none, some .u32, none)
  | .rowsum _ => (none, none, some .u32, none)
  | .rowstat _ => (none, none, some .u32, none)
  | .lse _ => (none, none, some .u32, none)
  | .rownorm _ => (none, none, some .u64, none)
  | .smaxr _ => (none, none, some .u64, none)
  | .tld _ => (none, none, some .u32, none)
  | .tldT _ => (none, none, some .u32, none)
  | .tst _ => (none, none, some .u32, none)
  | .accrd _ => (none, none, some .u32, none)
  | .tmask _ => (none, none, some .u64, none)
  | _ => (none, none, none, none)

/-- The instructions whose V fields name a range of a length that a descriptor gives (05_special.md R138; 11_matrix.md R340; 13_surrogate.md R374). -/
noncomputable def takesBlocks : Instr → Bool
  | .rowmax _ => true | .rowsum _ => true | .rowstat _ => true | .rownorm _ => true | .smaxr _ => true | .lse _ => true
  | .tld _ => true | .tldT _ => true | .tst _ => true | .accrd _ => true | .sgcall _ => true
  | _ => false

/-- Whether a field of a class takes a value of a type; `named` is what the field names where its form does not say it. There is no type for a run of
four or eight s registers. -/
def fldTakes (named : Option GTy) (anyLen : Bool) (t : GTy) (f : Fld) : Bool :=
  match named, f with
  | some w, _ => t = w
  | none, .v 1 => t = .w32 || (anyLen && match t with | .blk n => 2 ≤ n && n ≤ 64 | _ => false)
  | none, .v k => t = .blk k || (k = 4 && t = .w128) || (k = 2 && t = .w64)
  | none, .va 2 => t = .w64
  | none, .va k => t = .blk k || (k = 4 && t = .w128)
  | none, .vpair2 => t = .blk 3
  | none, .s 1 => t = .u32
  | none, .s 2 => t = .u64
  | none, _ => false

/-- Whether an operand is one that a field takes: a value of its type, and no v or s register's number. A predicate is a value, or p0, which reads as
true (02_encoding.md R31). `lits` says that a constant becomes the literal that replaces the field. -/
def GOpd.fits (ty : Nat → Option GTy) (o : GOpd) (named : Option GTy) (anyLen lits : Bool) (f : Fld) : Bool :=
  match o with
  | .value n => match ty n with | some t => fldTakes named anyLen t f | none => false
  | .field n => !fldIsReg f && (named.isNone || (named = some .p && n = 0))
  | .const _ => lits || (!fldIsReg f && named.isNone)

/-- Which of D, A and B name registers a0 to a31 of the MCC (11_matrix.md R329 to R336). -/
noncomputable def accFields : Instr → Bool × Bool × Bool
  | .amov _ => (true, true, false)
  | .ali _ => (true, false, false)
  | .aadd m => (true, true, m.mod = 0 && m.lit.isNone)
  | .asub m => (true, true, m.mod = 0 && m.lit.isNone)
  | .amul m => (true, true, m.mod = 0 && m.lit.isNone)
  | .aand m => (true, true, m.mod = 0 && m.lit.isNone)
  | .aor m => (true, true, m.mod = 0 && m.lit.isNone)
  | .acmp m => (true, true, m.mod = 0 && m.lit.isNone)
  | .ashl m => (true, true, m.mod % 2 = 0)
  | .ashr m => (true, true, m.mod % 2 = 0)
  | .abc _ => (false, true, false)
  | .aloop _ => (false, true, false)
  | .acall _ => (true, false, false)
  | .aret _ => (false, true, false)
  | .ald _ => (true, true, false)
  | .ast _ => (true, true, false)
  | .evpop _ => (true, false, false)
  | .tres _ => (false, false, true)
  | .mxscl _ => (false, true, true)
  | .mxtol _ => (false, true, false)
  | .mxstat _ => (true, true, false)
  | .abwait _ => (true, false, true)
  | .abarv _ => (true, false, false)
  | _ => (false, false, false)

/-- Whether an operand is one that a field of an MCC instruction takes: a 64-bit value where it names a register, of which EVPOP names two, and a
native value elsewhere (log 120). -/
def GOpd.fitsMcc (ty : Nat → Option GTy) (o : GOpd) (reg pair : Bool) : Bool :=
  match o with
  | .value n => reg && (if pair then ty n = some .w128 else ty n = some .w64 || ty n = some .u64)
  | .field _ => !reg
  | .const _ => !reg

/-! ## Functions (R446) -/

/-- A function: its blocks, the first of which is entered, and the types of its values. -/
structure GFunc where
  mcc : Bool
  blocks : List (List GRec)
  types : List (Nat × GTy)

/-- The type of a value. -/
def GFunc.ty (f : GFunc) (v : Nat) : Option GTy := (f.types.find? (fun e => e.1 = v)).map Prod.snd
/-- A block. -/
def GFunc.block (f : GFunc) (b : Nat) : List GRec := f.blocks.getD b []

/-- The successors of a block. -/
def GFunc.succs (f : GFunc) (b : Nat) : List Nat :=
  match (f.block b).getLast? with
  | some (.jump t) => [t]
  | some (.branch t e _) => [t, e]
  | _ => []
/-- The predecessors of a block, in rising order. -/
def GFunc.preds (f : GFunc) (b : Nat) : List Nat := (List.range f.blocks.length).filter (fun p => (f.succs p).contains b)

/-- The blocks that are reached from some blocks without passing a block, in at most n steps. -/
def GFunc.reach (f : GFunc) (no : Option Nat) : Nat → List Nat → List Nat
  | 0, l => l
  | n + 1, l => f.reach no n ((l ++ (l.flatMap f.succs).filter (fun b => some b ≠ no)).eraseDups)

/-- Whether block a dominates block b. -/
def GFunc.dominates (f : GFunc) (a b : Nat) : Bool :=
  a = b || a = 0 || !(f.reach (some a) f.blocks.length [0]).contains b

/-- Whether an operation only reads D: a store, which has no value that D reads besides (R445); AST of the MCC (11_matrix.md R330). -/
noncomputable def GOp.onlyReadsD (o : GOp) : Bool := if o.mcc then o.opc = 0xF0 else (o.shape.any Shape.dSrc) && o.rd.isNone

/-- The value numbers of an operand. -/
def GOpd.values : GOpd → List Nat
  | .value n => [n]
  | _ => []

/-- The values that an operation defines: D, unless it only reads D. -/
noncomputable def GOp.defs (o : GOp) : List Nat := if o.onlyReadsD then [] else o.d.values

/-- The values that an operation uses. -/
noncomputable def GOp.uses (o : GOp) : List Nat :=
  (if o.onlyReadsD then o.d.values else []) ++ o.a.values ++ o.b.values ++ o.x.values ++ o.guard.toList ++ o.rd.toList

/-- The values that a record defines. -/
noncomputable def GRec.defs : GRec → List Nat
  | .op o => o.defs
  | .phi d _ _ => [d]
  | _ => []

/-- The values that a record uses where it stands; those of a PHI are used at the ends of the predecessors. -/
noncomputable def GRec.uses : GRec → List Nat
  | .op o => o.uses
  | .branch _ _ c => [c]
  | _ => []

/-- Where a value is defined: block and index. -/
noncomputable def GFunc.defOf (f : GFunc) (v : Nat) : Option (Nat × Nat) :=
  (List.range f.blocks.length).findSome? (fun b =>
    ((f.block b).zipIdx.find? (fun e => e.1.defs.contains v)).map (fun e => (b, e.2)))

/-- Whether a value's definition dominates index j of block b. -/
noncomputable def GFunc.definedAt (f : GFunc) (v b j : Nat) : Bool :=
  match f.defOf v with
  | some (d, i) => if d = b then i < j else f.dominates d b
  | none => false

/-- Whether a record is a PHI. -/
def GRec.isPhi : GRec → Bool
  | .phi _ _ _ => true
  | _ => false

/-- Whether a record ends a block. -/
def GRec.ends : GRec → Bool
  | .jump _ => true
  | .branch _ _ _ => true
  | .ret => true
  | _ => false

/-- Whether the X field of a SIMT record is right for the layout of its instruction: IMM11; C, of a class that is no register, or a value; or, with
SETF and LOOK, which the schedule fills, MOD alone (R446). -/
def GOp.xOk (o : GOp) (ty : Nat → Option GTy) (sh : Shape) (named : Option GTy) : Bool :=
  match o.x, sh.lay with
  | .field _, .imm => true
  | .field n, .setf => n = o.mod * 256
  | .field n, .c => n / 256 = o.mod && (GOpd.field (n % 256)).fits ty named false false sh.c
  | .value v, .c => (GOpd.value v).fits ty named false false sh.c
  | .value _, _ => false
  | .const _, .setf => false
  | .const i, .c => (GOpd.const i).fits ty named false false sh.c
  | .const _, .imm => true

/-- Whether a SIMT operation is well typed, names no v or s register by number, is no REGION and no CONVM, and breaks no rule of its own encoding. -/
noncomputable def GFunc.simtOk (f : GFunc) (o : GOp) : Bool :=
  match o.native (fun _ => 0) with
  | none => false
  | some i =>
    let sh := i.shape
    let p := namedFields i
    let k := takesBlocks i
    let plain : Bool := match i with | .region _ => false | .convm _ => false | _ => true
    let guardOk : Bool := match o.guard with | some g => f.ty g = some .p | none => true
    let litB : Bool := o.lit.isSome && (sh.lit = .repB || sh.lit = .repBReq)
    let bOk : Bool := if litB then o.b = .field 0 else o.b.fits f.ty p.2.2.1 k (constToLit sh) sh.b
    let rdOk : Bool := match o.rd with | some r => (GOpd.value r).fits f.ty p.1 k false sh.d | none => true
    plain && o.d.fits f.ty p.1 k false sh.d && o.a.fits f.ty p.2.1 k false sh.a && bOk && o.xOk f.ty sh p.2.2.2 && guardOk && rdOk
    && (i.offence 256).isNone

/-- The same of an MCC operation, which reads no register that it writes. -/
noncomputable def GFunc.mccOk (f : GFunc) (o : GOp) : Bool :=
  match o.nativeMcc (fun _ => 0) with
  | none => false
  | some i =>
    let k := accFields i
    let sh := i.mccShape
    let pair : Bool := match i with | .evpop _ => true | _ => false
    let xOk : Bool := match o.x with | .field n => sh.imm || n / 256 = o.mod | .value _ => false | .const _ => true
    o.rd.isNone && o.d.fitsMcc f.ty k.1 pair && o.a.fitsMcc f.ty k.2.1 false && o.b.fitsMcc f.ty k.2.2 false && xOk && (i.offence 256).isNone

/-- Whether an operation is one of a function: of its kind, and right (R446). -/
noncomputable def GFunc.opOk (f : GFunc) (o : GOp) : Bool := o.mcc = f.mcc && if o.mcc then f.mccOk o else f.simtOk o

/-- Whether a record is right where it stands, at index j of block b (R446). -/
noncomputable def GFunc.recOk (f : GFunc) (b j : Nat) (r : GRec) : Bool :=
  r.uses.all (fun v => f.definedAt v b j) &&
  (match r with
   | .op o => f.opOk o
   | .phi d blocks vals => blocks.Nodup && blocks.length = (f.preds b).length && blocks.all (f.preds b).contains && vals.length = blocks.length && vals.all (fun v => f.ty v = f.ty d)
       && ((f.block b).take j).all GRec.isPhi && (blocks.zip vals).all (fun e => f.definedAt e.2 e.1 (f.block e.1).length)
   | .jump t => t < f.blocks.length
   | .branch t e c => t < f.blocks.length && e < f.blocks.length && f.ty c = some .p
   | .conv g => g < 8 || g = 0xFF
   | .call _ => true
   | .ret => true)
  && (!r.ends || j + 1 = (f.block b).length)

/-! ## The region rules that a record can break (03_integer.md R95; 06_control.md R165) -/

/-- Coil state that a restart does not restore: stream patterns, bindings of slots, groups. -/
inductive CoilReg where
  | sm (n : Nat)
  | bind (n : Nat)
  | grp (n : Nat)
  deriving DecidableEq, Repr

/-- The handle slot that a memory instruction goes through. -/
noncomputable def slotOf : Instr → Option Nat
  | .ldB8 m | .ldB16 m | .ldB32 m | .ldB64 m | .ldB128 m | .lduB32 m | .lduB64 m | .ldmx m => some m.mod
  | .stB8 m | .stB16 m | .stB32 m | .stB64 m | .stB128 m | .stmx m => some m.mod
  | .atom m | .atred m | .cas m | .pfL1 m | .pfL2 m | .cctlInv m | .cctlWb m | .cctlWbinv m | .icinvCore m | .icinvDev m => some m.mod
  | .cpy m | .cpyt m | .cpym m | .gath m | .scat m | .scata m | .sgload m | .sginv m | .scout m => some m.mod
  | .launch m | .fork m | .fnew m | .fres m | .fthen m | .fread m | .fwait m | .sysc m => some m.mod
  | _ => none

/-- Whether an instruction is a collective that names its group in B (06_control.md R166). -/
noncomputable def namesGroup : Instr → Option Nat
  | .vote m | .ballot m | .matchOp m | .elect m | .shfl m | .slide m | .bcast m | .scan m | .gred m | .gsync m => some (m.b.toNat % 8)
  | _ => none

/-- The coil state that an instruction reads. -/
noncomputable def coilReads (i : Instr) : List CoilReg :=
  ((slotOf i).map CoilReg.bind).toList ++ ((namesGroup i).map CoilReg.grp).toList
  ++ match i with
     | .smpos m => [.sm (m.b.toNat % 8)]
     | .smadv m => [.sm (m.d.toNat % 8)]
     | _ => []

/-- The coil state that an instruction writes. -/
noncomputable def coilWrites : Instr → List CoilReg
  | .smset m => [.sm (m.d.toNat % 8)]
  | .smbind m => [.bind m.mod]
  | .part m => [.grp (m.d.toNat % 8)]
  | _ => []

/-- The side-effecting instructions, after each of which lowering begins a region (07_work.md R188; R448). -/
noncomputable def sideEffect : Instr → Bool
  | .cpy _ | .cpyt _ | .cpym _ | .gath _ | .scat _ | .scata _ | .engfork _ | .spawn _ | .launch _ | .fork _ | .fres _ | .fthen _ => true
  | .atom _ | .cas _ | .gbarArv _ | .icinvCore _ | .icinvDev _ | .sgload _ | .trapOp _ | .sysc _ => true
  | .acq m => m.b.getLsbD 3
  | _ => false

/-- The coil state that has been read in the region where a list of records ends, of what had been read before it; none where a record writes some of
it. -/
noncomputable def GFunc.regionThrough : List GRec → List CoilReg → Option (List CoilReg)
  | [], l => some l
  | .op o :: r, l =>
    match o.native (fun _ => 0) with
    | none => GFunc.regionThrough r l
    | some i =>
      if (coilWrites i).any l.contains then none
      else GFunc.regionThrough r (if sideEffect i then [] else (coilReads i ++ l).eraseDups)
  | .conv g :: r, l => GFunc.regionThrough r (if g < 8 then .grp g :: l else l)
  | _ :: r, l => GFunc.regionThrough r l

/-- The coil state that may have been read when a block is entered, after paths of at most n blocks. -/
noncomputable def GFunc.readBefore (f : GFunc) : Nat → Nat → List CoilReg
  | 0, _ => []
  | n + 1, b => ((f.preds b).flatMap (fun p => (GFunc.regionThrough (f.block p) (f.readBefore n p)).getD [])).eraseDups

/-- Whether no region writes coil state that it has read (R446). What R227 asks of scratchpad locations is a matter of run-time addresses (log 120). -/
noncomputable def GFunc.regionsOk (f : GFunc) : Bool :=
  f.mcc || (List.range f.blocks.length).all (fun b => (GFunc.regionThrough (f.block b) (f.readBefore f.blocks.length b)).isSome)

/-! ## Convergence markers (R447) and liveness (R449) -/

/-- Whether a CONV of a group stands among some records. -/
def hasConv (g : Nat) (l : List GRec) : Bool := l.any (fun r => r = .conv g)

/-- Whether a BRANCH reaches the start of a block with no CONV of a group in between, within n blocks. -/
def GFunc.branchIn (f : GFunc) (g : Nat) : Nat → Nat → Bool
  | 0, _ => false
  | n + 1, b => (f.preds b).any (fun p =>
      (match (f.block p).getLast? with | some (.branch _ _ _) => true | _ => false) || (!hasConv g (f.block p) && f.branchIn g n p))

/-- Whether a BRANCH reaches index j of block b with no CONV of a group in between (R447). -/
def GFunc.marks (f : GFunc) (g b j : Nat) : Bool := !hasConv g ((f.block b).take j) && f.branchIn g f.blocks.length b

/-- The literal that a value is, if a MOVL gives it. -/
noncomputable def GFunc.litOf (f : GFunc) (v : Nat) : Option Word :=
  f.blocks.flatten.findSome? (fun r => match r with
    | .op o => match o.native (fun _ => 0) with | some (.movl _) => if o.defs.contains v then o.lit else none | _ => none
    | _ => none)

/-- The group of a collective or row instruction: field B names it, or GSEL of the row's descriptor where that is a literal (05_special.md R138). A
descriptor that is computed names its group at run time, and lowering can place no marker for it (log 120). -/
noncomputable def GFunc.groupOf (f : GFunc) (o : GOp) : Option Nat :=
  match o.native (fun _ => 0) with
  | some i =>
    match namesGroup i, i with
    | some g, _ => some g
    | none, .rowmax _ | none, .rowsum _ | none, .rowstat _ | none, .rownorm _ | none, .smaxr _ | none, .lse _ =>
      (o.b.values.head?.bind f.litOf).map (fun w => w.toNat % 8)
    | none, _ => none
  | none => none

/-- The native marker of a CONV (R447; 06_control.md R161). -/
noncomputable def convNative (g : Nat) : Instr :=
  .convm { dist := 0, wait := 0, gsel := 0, gneg := 0, d := 0, a := if g = 0xFF then 0 else BitVec.ofNat 8 g, b := 0,
           x := if g = 0xFF then 0x100 else 0, lit := none }

/-- The markers that lowering places before the record at index j of block b: that of a CONV, or that of a collective which a BRANCH reaches (R447). -/
noncomputable def GFunc.convsAt (f : GFunc) (b j : Nat) : List Instr :=
  match (f.block b)[j]? with
  | some (.conv g) => if f.mcc then [] else [convNative g]
  | some (.op o) =>
    match f.groupOf o with
    | some g => if !f.mcc && f.marks g b j then [convNative g] else []
    | none => []
  | _ => []

/-- The blocks that are reached from block b before a value would be defined again. -/
noncomputable def GFunc.ahead (f : GFunc) (v b : Nat) : List Nat :=
  let home := (f.defOf v).map Prod.fst
  f.reach home f.blocks.length ((f.succs b).filter (fun t => some t ≠ home))

/-- Whether a value is used at or after index j of block b, on some path, before it would be defined again; a PHI uses it at the end of the
predecessor that it comes from. -/
noncomputable def GFunc.usedFrom (f : GFunc) (v b j : Nat) : Bool :=
  let l := f.ahead v b
  ((f.block b).drop j).any (fun r => r.uses.contains v) || l.any (fun s => (f.block s).any (fun r => r.uses.contains v))
  || (List.range f.blocks.length).any (fun s => (f.block s).any (fun r => match r with
      | .phi _ blocks vals => (blocks.zip vals).any (fun e => e.2 = v && (e.1 = b || l.contains e.1))
      | _ => false))

/-- The values that live at index j of block b. -/
noncomputable def GFunc.live (f : GFunc) (b j : Nat) : List Nat :=
  (f.blocks.flatten.flatMap GRec.defs).filter (fun v => f.definedAt v b j && f.usedFrom v b j)

/-- Whether an MCC function keeps within the 32 registers of its context (R449). -/
noncomputable def GFunc.fitsMcc (f : GFunc) : Bool :=
  f.blocks.zipIdx.all (fun e => (List.range (e.1.length + 1)).all (fun j => (f.live e.2 j).length ≤ 32))

/-- Whether a function is valid (R446, R449): each value is defined once, each record is right, no region breaks a rule, and one of the MCC keeps within
its registers. -/
noncomputable def GFunc.valid (f : GFunc) : Bool :=
  (f.blocks.flatten.flatMap GRec.defs).Nodup && f.blocks.zipIdx.all (fun e => e.1.zipIdx.all (fun r => f.recOk e.2 r.2 r.1)) && f.regionsOk
  && (!f.mcc || f.fitsMcc)

end Sys2Proof.Machine
end

