-- ==== Sys2Proof/Machine/Lowering.lean ====
section
/-! DEFINITION. What a right lowering of a portable function is (16_portable.md R447 to R449): a checker of native code that is annotated with what each
register and spill slot holds where a block begins. Lowering's choices are free, and this says which of them are right. Control records become branches
that the loader's layout decides, and are not compared (log 120). -/

namespace Sys2Proof.Machine

/-! ## Places -/

/-- Where lowered code keeps a word: a vector, predicate, uniform or MCC register, or a word of the fibre's spill area. -/
inductive GCls where
  | v | p | s | a | slot
  deriving DecidableEq, Repr

/-- One such place. -/
abbrev GCell := GCls × Nat

/-- The class of registers that holds values of a type (R444, R449). -/
def GTy.cls (mcc : Bool) : GTy → GCls
  | .p => .p
  | .u32 => if mcc then .a else .s
  | .u64 => if mcc then .a else .s
  | _ => if mcc then .a else .v

/-- How many registers hold it. -/
def GTy.regs (mcc : Bool) : GTy → Nat
  | .p => 1
  | .w32 => 1
  | .u32 => 1
  | .w64 => if mcc then 1 else 2
  | .u64 => if mcc then 1 else 2
  | .w128 => if mcc then 2 else 4
  | .blk n => n

/-- The places of a value of a type that begins at a register. -/
def GTy.cells (mcc : Bool) (t : GTy) (n : Nat) : List GCell := (List.range (t.regs mcc)).map (fun i => (t.cls mcc, n + i))

/-- A place holds a word of a value. -/
structure GHold where
  cell : GCell
  val : Nat
  word : Nat
  deriving DecidableEq, Repr

/-- A write that may be pending: cycles that are left, if its latency is fixed, and its flag (02_encoding.md R44). -/
structure GPend where
  cell : GCell
  left : Option Nat
  flag : Option Nat
  deriving DecidableEq, Repr

/-- What holds at a point: the values in the places, the writes that may be pending, the s registers, spill slots and coil state that the region has
read, and whether a REGION is due. -/
structure GAt where
  holds : List GHold
  pend : List GPend
  seen : List GCell
  coil : List CoilReg
  due : Bool

/-- A value of some registers stands there, whole. -/
def GAt.has (a : GAt) (mcc : Bool) (v : Nat) (t : GTy) (n : Nat) : Bool :=
  (t.cells mcc n).zipIdx.all (fun e => a.holds.contains ⟨e.1, v, e.2⟩)

/-! ## The semantic layer of an instruction (02_encoding.md R30, R37) -/

/-- The immediate of a compact form, by its COP: none, B as a register, signed, or natural, with the OPC and MOD of its main form. -/
def compactMain : List (Nat × Nat × Nat × Nat) :=
  [(0x01, 0x6A, 0, 0), (0x02, 0x19, 0, 0), (0x03, 0x1A, 0, 2), (0x04, 0x01, 0, 1), (0x05, 0x01, 0, 2), (0x06, 0x02, 0, 1), (0x07, 0x02, 0, 2),
   (0x08, 0x0F, 0, 1), (0x09, 0x0F, 0, 3), (0x0A, 0x0F, 1, 1), (0x0B, 0x0F, 1, 3), (0x0C, 0x0F, 2, 1), (0x0D, 0x0F, 2, 3), (0x0E, 0x0F, 3, 1)]
  ++ [(0x0F, 0x10, 0, 0), (0x10, 0x12, 0, 1), (0x11, 0x12, 0, 3), (0x12, 0x12, 1, 1), (0x13, 0x12, 1, 3), (0x14, 0x12, 2, 1), (0x15, 0x12, 2, 3),
   (0x16, 0x0B, 0, 1), (0x17, 0x0C, 0, 1), (0x18, 0x0B, 1, 1), (0x19, 0x0C, 1, 1), (0x1A, 0x03, 0, 0)]

/-- The main form of a compact one: opcode and fields, with MOD alone in X. -/
def Compact.main (cop : Nat) (f : Compact) : Option (Nat × Main) :=
  (compactMain.find? (fun e => e.1 = cop)).map (fun e =>
    (e.2.1, { dist := 0, wait := 0, gsel := 0, gneg := 0, d := f.d, a := f.a, b := if e.2.2.2 = 1 then f.b.setWidth 8 else 0,
              x := BitVec.ofNat 11 (256 * e.2.2.1)
              lit := if e.2.2.2 = 2 then some (f.b.signExtend 32) else if e.2.2.2 = 3 then some (f.b.setWidth 32) else none }))

/-- An instruction without its schedule: opcode and fields with DIST, WAIT, SETF and LOOK zero. -/
noncomputable def semOf (i : Instr) : Option (Nat × Main) :=
  match i.form with
  | .compact cop f => Compact.main cop f
  | .main opc m => some (opc, { m with dist := 0, wait := 0, x := if i.shape.lay = .setf then BitVec.ofNat 11 (256 * m.mod) else m.x })
  | _ => none

/-- Whether an instruction does what another one, which has no schedule, does (R448, item 1). -/
noncomputable def sameOp (i j : Instr) : Bool :=
  match i.form, j.form with
  | .mcc _ _, _ => i = j
  | _, .mcc _ _ => false
  | _, _ => (semOf i).isSome && semOf i = semOf j

/-- Whether a main form could have been written as a compact one: no guard, no flag, WAIT none or all, DIST at most 3, and B or the immediate in range
(02_encoding.md R55). -/
noncomputable def couldBeCompact (i : Instr) : Bool :=
  match i.form with
  | .main _ m =>
    (m.wait = 0 || m.wait = BitVec.allOnes 12) && m.dist.toNat ≤ 3 && m.gsel = 0 && m.gneg = 0 && i.shape.lay = .setf && m.setf = 15
    && compactMain.any (fun e =>
        let imm : BitVec 6 := (m.lit.getD 0).setWidth 6
        let b : BitVec 6 := if e.2.2.2 = 1 then m.b.setWidth 6 else imm
        semOf i = (Compact.main e.1 { dist := 0, w := 0, d := m.d, a := m.a, b := b })
        && !(e.2.1 = 0x12 && e.2.2.2 = 3 && 32 ≤ b.toNat))
  | _ => false

/-- When an instruction issues: DIST, the flags of WAIT, and its own flag (02_encoding.md R39 to R41). -/
noncomputable def timingOf (i : Instr) : Nat × BitVec 12 × Option Nat :=
  match i.form with
  | .compact _ f => (f.dist.toNat, if f.w = 1 then BitVec.allOnes 12 else 0, none)
  | .main _ m => (m.dist.toNat, m.wait, i.shape.flag m)
  | _ => (0, 0, none)

/-! ## One instruction -/

/-- An instruction issues that reads and writes some places: no write that it meets is pending (02_encoding.md R44, R46), and it writes no s register,
spill slot or coil state that its region has read (03_integer.md R95; 08_memory.md R227). `lat` are the latencies of the device, none for one that is
not fixed; MCC instructions have no schedule. -/
noncomputable def GAt.issue (a : GAt) (lat : Instr → Option Nat) (base : Option Nat) (i : Instr) (reads writes : List GCell) : Option GAt :=
  let t := timingOf i
  let landed (e : GPend) : Bool := match e.flag with | some k => t.2.1.getLsbD k || t.2.2 = some k | none => false
  let pend := (a.pend.filter (fun e => !landed e)).filterMap (fun e =>
    match e.left with
    | some n => if n ≤ max t.1 1 then none else some { e with left := some (n - max t.1 1) }
    | none => some e)
  let bound (c : GCell) : Bool := c.1 = .s || c.1 = .slot
  if a.due || (!i.isMcc && pend.any (fun e => (reads ++ writes).contains e.cell)) || writes.any a.seen.contains || (coilWrites i).any a.coil.contains
    || base.any (fun b => writes.contains (.v, b)) || couldBeCompact i then none
  else
    some { a with pend := (writes.filter (fun c => c.1 ≠ .slot)).map (fun c => ⟨c, lat i, t.2.2⟩) ++ pend
                  seen := (reads.filter bound ++ a.seen).eraseDups
                  coil := (coilReads i ++ a.coil).eraseDups }

/-- Places get what they now hold. -/
def GAt.put (a : GAt) (cells : List GCell) (l : List GHold) : GAt := { a with holds := l ++ a.holds.filter (fun h => !cells.contains h.cell) }

/-- The words that some places hold come to others, in the same order. -/
def GAt.copy (a : GAt) (src dst : List GCell) : GAt :=
  a.put dst ((src.zip dst).flatMap (fun e => (a.holds.filter (fun h => h.cell = e.1)).map (fun h => { h with cell := e.2 })))

/-- The places that a field names. -/
def fieldCells (f : Fld) (n : Nat) : List GCell :=
  (fieldRegs f n).filterMap (fun r => match r.1 with | .v => some (.v, r.2) | .s => some (.s, r.2) | _ => none)

/-- The source and destination of a move: MOV, AMOV, or the PLOP that copies a predicate (03_integer.md R78, R82; 11_matrix.md R329). -/
noncomputable def movePlaces (i : Instr) : Option (List GCell × List GCell) :=
  match i with
  | .mov m => some (fieldCells i.shape.a m.a.toNat, fieldCells i.shape.d m.d.toNat)
  | .movCompact f => some ([(.v, f.a.toNat)], [(.v, f.d.toNat)])
  | .plop m => if m.a = m.b && m.imm % 2 = 0 && m.imm / 8 % 2 = 1 then some ([(.p, m.a.toNat)], [(.p, m.d.toNat)]) else none
  | .amov m => some ([(.a, m.a.toNat)], [(.a, m.d.toNat)])
  | _ => none

/-- The spill slots of an LDS or an STS of whole words at an offset from the register that holds the base of the fibre's spill area. -/
def spillCells (m : Main) (base : Option Nat) : Option (List GCell) :=
  let off : Int := match m.lit with | some l => l.toInt | none => m.b.toInt
  let n : Nat := match m.mod with | 2 => 1 | 3 => 2 | 4 => 4 | _ => 0
  if n = 0 || base ≠ some m.a.toNat || off < 0 || off.toNat % (4 * n) ≠ 0 then none else some ((List.range n).map (fun k => (.slot, off.toNat / 4 + k)))

/-! ## What lowering emits -/

/-- An emitted instruction: that of the record, with the register of each value that it names; a move; a spill and its reload; a REGION; a marker. -/
inductive GEmit where
  | own (i : Instr) (regs : List (Nat × Nat))
  | move (i : Instr)
  | spill (i : Instr)
  | reload (i : Instr)
  | region (i : Instr)
  | mark (i : Instr)

/-- The instruction of an emission. -/
def GEmit.instr : GEmit → Instr
  | .own i _ => i
  | .move i => i
  | .spill i => i
  | .reload i => i
  | .region i => i
  | .mark i => i

/-- A lowering of a function: the window, the register that holds the base of the spill area, what holds where each block begins, the code of each
record, and the code on edges. -/
structure GLow where
  win : Nat
  base : Option Nat
  entry : List GAt
  code : List (List (List GEmit))
  edges : List ((Nat × Nat) × List GEmit)

/-- The register of a value in a record's instruction. -/
def regIn (regs : List (Nat × Nat)) (v : Nat) : Nat := ((regs.find? (fun e => e.1 = v)).map Prod.snd).getD 0

/-- The places of a value in a record's instruction. -/
def GFunc.cellsIn (f : GFunc) (regs : List (Nat × Nat)) (v : Nat) : List GCell :=
  match f.ty v with
  | some t => t.cells f.mcc (regIn regs v)
  | none => []

/-- The instruction of a record (R448, items 1 and 2): it is the record's own, each value that the record uses stands where the instruction reads it,
and the value that D reads stands in D's register. -/
noncomputable def GLow.op (l : GLow) (lat : Instr → Option Nat) (f : GFunc) (o : GOp) (a : GAt) (i : Instr) (regs : List (Nat × Nat)) : Option GAt :=
  let same : Bool := match o.instr (regIn regs) with | some j => sameOp i j | none => false
  let held : Bool := o.uses.all (fun v => match f.ty v with | some t => a.has f.mcc v t (regIn regs v) | none => false)
  let rd : Bool := match o.rd with | some r => o.defs.all (fun d => regIn regs d = regIn regs r) | none => true
  let dst := o.defs.flatMap (f.cellsIn regs)
  if !same || !held || !rd then none
  else
    (a.issue lat l.base i (o.uses.flatMap (f.cellsIn regs)) dst).map (fun a =>
      { a.put dst (o.defs.flatMap (fun v => (f.cellsIn regs v).zipIdx.map (fun e => ⟨e.1, v, e.2⟩))) with due := sideEffect i })

/-- One emission, for the record that it belongs to. A REGION comes after a side effect and nowhere else; the values that live on stand in v0 to
v(n - 1), and so does the base of the spill area (R448, item 4; 07_work.md R190). -/
noncomputable def GLow.emit (l : GLow) (lat : Instr → Option Nat) (f : GFunc) (o : Option GOp) (a : GAt) (e : GEmit) : Option GAt :=
  match e with
  | .own i regs => o.bind (fun o => l.op lat f o a i regs)
  | .move i => (movePlaces i).bind (fun q => (a.issue lat l.base i q.1 q.2).map (fun b => b.copy q.1 q.2))
  | .spill (.sts m) =>
    (spillCells m l.base).bind (fun q =>
      let src := fieldCells (Instr.sts m).shape.d m.d.toNat
      (a.issue lat l.base (.sts m) ((.v, m.a.toNat) :: src) q).map (fun b => b.copy src q))
  | .reload (.lds m) =>
    (spillCells m l.base).bind (fun q =>
      let dst := fieldCells (Instr.lds m).shape.d m.d.toNat
      (a.issue lat l.base (.lds m) ((.v, m.a.toNat) :: q) dst).map (fun b => b.copy q dst))
  | .region (.region m) =>
    let n := m.imm % 512
    if !a.due || f.mcc || l.base.any (fun b => n ≤ b) then none
    else
      (GAt.issue { a with due := false } lat l.base (.region m) [] []).map (fun b =>
        { b with seen := [], coil := [], holds := b.holds.filter (fun h => h.cell.1 ≠ .v || h.cell.2 < n) })
  | .mark i => a.issue lat l.base i [] []
  | _ => none

/-- A list of emissions. -/
noncomputable def GLow.run (l : GLow) (lat : Instr → Option Nat) (f : GFunc) (o : Option GOp) : GAt → List GEmit → Option GAt
  | a, [] => some a
  | a, e :: r => (l.emit lat f o a e).bind (fun b => l.run lat f o b r)

/-! ## Blocks and functions -/

/-- The emissions of one record: for an operation exactly one instruction, and before it the markers of R447; for a control record no instruction of its
own. -/
noncomputable def GLow.record (l : GLow) (lat : Instr → Option Nat) (f : GFunc) (b j : Nat) (r : GRec) (a : GAt) : Option GAt :=
  let es := ((l.code.getD b []).getD j [])
  let marks := es.filterMap (fun e => match e with | .mark i => some i | _ => none)
  let recs := es.filter (fun e => match e with | .own _ _ => true | _ => false)
  let want := f.convsAt b j
  let right := marks.length = want.length && (marks.zip want).all (fun e => sameOp e.1 e.2)
  match r with
  | .op o => if right && recs.length = 1 then l.run lat f (some o) a es else none
  | .phi _ _ _ => if es.isEmpty then some a else none
  | _ => if right && recs.isEmpty then l.run lat f none a es else none

/-- The records of a block from index j on. -/
noncomputable def GLow.records (l : GLow) (lat : Instr → Option Nat) (f : GFunc) (b : Nat) : Nat → List GRec → GAt → Option GAt
  | _, [], a => some a
  | j, r :: rest, a => (l.record lat f b j r a).bind (l.records lat f b (j + 1) rest)

/-- The value that comes to a block as one of its values: what a PHI takes on this edge, or the same. -/
def GFunc.comes (f : GFunc) (b t v : Nat) : Nat :=
  ((f.block t).findSome? (fun r => match r with
    | .phi d blocks vals => if d = v then ((blocks.zip vals).find? (fun e => e.1 = b)).map Prod.snd else none
    | _ => none)).getD v

/-- Whether what holds at the end of an edge is enough for what a block assumes (PHIs as moves on the edge, R448, item 2). -/
def GAt.suits (out inn : GAt) (f : GFunc) (b t : Nat) : Bool :=
  !out.due && !inn.due && inn.holds.all (fun h => out.holds.contains { h with val := f.comes b t h.val })
  && out.pend.all (fun e => inn.pend.any (fun g => g.cell = e.cell && g.flag = e.flag && match g.left, e.left with
      | none, _ => true
      | some x, some y => y ≤ x
      | some _, none => false))
  && out.seen.all inn.seen.contains && out.coil.all inn.coil.contains

/-- A block and the edges that leave it. -/
noncomputable def GLow.blockOk (l : GLow) (lat : Instr → Option Nat) (f : GFunc) (b : Nat) : Bool :=
  match l.entry[b]? with
  | none => false
  | some a =>
    match l.records lat f b 0 (f.block b) a with
    | none => false
    | some out => !out.due && (f.succs b).all (fun t =>
        let code := ((l.edges.find? (fun e => e.1 = (b, t))).map Prod.snd).getD []
        match l.run lat f none out code, l.entry[t]? with
        | some x, some inn => x.suits inn f b t
        | _, _ => false)

/-- Every emission. -/
def GLow.all (l : GLow) : List GEmit := l.code.flatten.flatten ++ l.edges.flatMap Prod.snd

/-- The highest vector register that an emission names, and one more. -/
noncomputable def GEmit.top (f : GFunc) (e : GEmit) : Nat :=
  let sh := e.instr.shape
  let named : List GCell := match e.instr.form with
    | .main _ m => fieldCells sh.d m.d.toNat ++ fieldCells sh.a m.a.toNat ++ (if m.lit.isSome then [] else fieldCells sh.b m.b.toNat)
        ++ (if sh.lay = .c then fieldCells sh.c m.c else [])
    | .compact _ g => [(.v, g.d.toNat), (.v, g.a.toNat)]
    | _ => []
  let vals := match e with | .own _ regs => regs.flatMap (fun q => f.cellsIn regs q.1) | _ => []
  ((named ++ vals).filter (fun c => c.1 = .v)).foldl (fun n c => max n (c.2 + 1)) 0

/-- Whether a function is lowered right (R447 to R449): it is valid; the window is the smallest that holds its registers, a multiple of 8 of at most 256;
no instruction offends in it, the bank rule among them; MCC values stand in a0 to a31; and every block is right. A function for which there is no such
code is rejected. -/
noncomputable def GFunc.lowersTo (f : GFunc) (lat : Instr → Option Nat) (l : GLow) : Bool :=
  let top := (l.all.map (GEmit.top f)).foldl max ((l.base.map Nat.succ).getD 0)
  f.valid && l.win = max 8 ((top + 7) / 8 * 8) && l.win ≤ 256 && l.all.all (fun e => (e.instr.offence l.win).isNone)
  && l.code.length = f.blocks.length && l.entry.length = f.blocks.length
  && (match l.entry with | a :: _ => a.holds.isEmpty && !a.due | [] => false) && (List.range f.blocks.length).all (l.blockOk lat f)

end Sys2Proof.Machine
end

