-- ==== Sys2Proof/Tests/Slice0.lean ====
section
/-! SUPPORT. Tests: ill-formed terms that the check refuses, words that the manual writes out, small steps with the results that the manual gives,
and for each statement that has hypotheses a state that meets them. -/

namespace Sys2Proof.Tests

set_option Elab.async false

open Sys2Proof Sys2Proof.Machine

/-- A main-format instruction with its scheduling fields at their defaults. -/
def M (d a b x : Nat) : Main := Main.plain (BitVec.ofNat 8 d) (BitVec.ofNat 8 a) (BitVec.ofNat 8 b) (BitVec.ofNat 11 x)

/-- An MCC instruction. -/
def K (e d a b x : Nat) : Mcc :=
  { e := BitVec.ofNat 15 e, d := BitVec.ofNat 8 d, a := BitVec.ofNat 8 a, b := BitVec.ofNat 8 b, x := BitVec.ofNat 11 x, lit := none }

/-! ## Ill-formed terms (02_encoding.md R29 to R37, R49) -/

/-- A well-formed one, for comparison. -/
theorem test_wf_iadd : (Instr.iadd (M 1 2 3 15)).wf = true := by decide +kernel
/-- A field that selects within the opcode holds another instruction's value. -/
theorem test_ill_selects : (Instr.andOp (M 1 2 3 (256 + 15))).wf = false := by decide +kernel
/-- MOD is not assigned. -/
theorem test_ill_mod : (Instr.sel (M 1 2 3 (2 * 256))).offence 256 = some ⟨3, 0, 61⟩ := by decide +kernel
/-- A bit that must be zero is set: field D of NOP. -/
theorem test_ill_reserved : (Instr.nop (M 1 0 0 15)).offence 256 = some ⟨4, 1, 29⟩ := by decide +kernel
/-- A register number is outside its range: v4 in a window of four, s64, an odd pair, p16. -/
theorem test_ill_range : (Instr.iadd (M 4 0 0 15)).wfIn 4 = false ∧ (Instr.iadd (M 64 0 0 (4 * 256 + 15))).wf = false ∧
    (Instr.iadd (M 1 2 4 (2 * 256 + 15))).wf = false ∧ (Instr.icmp (M 16 0 0 0)).wf = false := by decide +kernel
/-- SETF names no flag, 12 to 14. -/
theorem test_ill_setf : (Instr.iadd (M 1 2 3 12)).offence 256 = some ⟨4, 3, 53⟩ := by decide +kernel
/-- SETF must name a flag. -/
theorem test_ill_setf_needed : (Instr.sgcall (M 12 8 0x11 15)).offence 256 = some ⟨4, 3, 53⟩ := by decide +kernel
/-- A literal where none may stand, one that is missing, and one beside a field B that is not zero. -/
theorem test_ill_literal : (Instr.popc { M 1 2 0 15 with lit := some 1 }).offence 256 = some ⟨4, 4, 64⟩ ∧
    (Instr.movl (M 1 0 0 15)).offence 256 = some ⟨4, 4, 0⟩ ∧
    (Instr.iadd { M 1 2 3 15 with lit := some 1 }).offence 256 = some ⟨4, 4, 45⟩ := by decide +kernel
/-- Three sources in one bank (R35). -/
theorem test_ill_banks : (Instr.imad (M 1 4 8 12)).offence 256 = some ⟨4, 5, 0xFF⟩ := by decide +kernel
/-- The live-in of a REGION passes the window (07_work.md R190). -/
theorem test_ill_region : (Instr.region (M 0 0 0 17)).wfIn 16 = false ∧ (Instr.region (M 0 0 0 16)).wfIn 16 = true := by decide +kernel
/-- A compact form with a field that must be zero, and one with a register outside the window. -/
theorem test_ill_compact : (Instr.notCompact ⟨0, 0, 1, 2, 3⟩).wf = false ∧ (Instr.movCompact ⟨0, 0, 16, 2, 0⟩).wfIn 16 = false := by decide +kernel
/-- An MCC form with a reserved bit, with a register above a31, and with a literal beside B. -/
theorem test_ill_mcc : (Instr.amov (K 1 0 0 0 0)).wf = false ∧ (Instr.amov (K 0 32 0 0 0)).wf = false ∧
    (Instr.aadd { K 0 0 0 1 0 with lit := some 5 }).wf = false := by decide +kernel

/-! ## Words that the manual writes out -/

/-- 02_encoding.md: `SHL v9, v3, 5 | dist=3` and `?!p3 IADD.S32 v10, v4, v7 | dist=2 wait=cf1 set=cf5 look=3`. -/
theorem test_word_shl : decode false 256 [0x140C262C] = .ok (.shlImmCompact { dist := 3, w := 0, d := 9, a := 3, b := 5 }) := by decide +kernel
theorem test_word_iadd : decode false 256 [0x56020049, 0x06A0E081] =
    .ok (.iadd { M 10 4 7 (5 + 3 * 16) with dist := 2, wait := 2, gsel := 3, gneg := 1 }) := by decide +kernel
/-- 03_integer.md: PMAC2 with D = 8, A = 1, B = 2, C = 3. -/
theorem test_word_pmac2 : decode false 256 [0x00460001, 0x00604021] = .ok (.pmac2 (M 8 1 2 3)) := by decide +kernel
/-- 04_floating.md: QCVT v16, v16 with B = 0x14 and SETF 2. -/
theorem test_word_qcvt : decode false 256 [0x008C0001, 0x00428205] = .ok (.qcvt (M 40 16 0x14 2)) := by decide +kernel
/-- 05_special.md: SMAXR v20, v8, s6 with SETF 1. -/
theorem test_word_smaxr : decode false 256 [0x80AE0001, 0x0020C102] = .ok (.smaxr (M 20 8 6 1)) := by decide +kernel
/-- 06_control.md: SLIDE.FILL.B16 v10, v4, s6 with DIST 3 and SETF 2; 16_portable.md: CONVM g1. -/
theorem test_word_slide : decode false 256 [0x40E2000D, 0x8040C081] = .ok (.slide { M 10 4 6 (4 * 256 + 2) with dist := 3 }) := by decide +kernel
theorem test_word_convm : decode false 256 [0x00D00001, 0x00000020] = .ok (.convm (M 0 1 0 0)) := by decide +kernel
/-- 07_work.md: `.region livein=3`; 19_programs_engines.md: `?p2 FRES hs1[v0+0x20], v10.d`. -/
theorem test_word_region : decode false 256 [0x00FA0001, 0x00600000] = .ok (.region (M 0 0 0 3)) := by decide +kernel
theorem test_word_fres : decode false 256 [0x44FE0001, 0x21E40001] = .ok (.fres { M 10 0 0x20 (256 + 15) with gsel := 2 }) := by decide +kernel
/-- 08_memory.md: LD.B32 hs2[v1+8], v5 with SETF 0. -/
theorem test_word_memory : decode false 256 [0xA1140001, 0x40010020] = .ok (.ldB32 (M 5 1 8 (2 * 256))) := by decide +kernel
/-- 09_ordering.md: FENCE.DEV, FENCE.SURV, and BARX with SETF 3. -/
theorem test_word_fence : decode false 256 [0x01440001, 0xA1E00000] = .ok (.fence (M 0 0 0 (5 * 256 + 15))) ∧
    decode false 256 [0x01440001, 0xE1E00000] = .ok (.fence (M 0 0 0 (7 * 256 + 15))) := by decide +kernel
theorem test_word_barx : decode false 256 [0x214C0001, 0x00618041] = .ok (.barx (M 9 2 12 3)) := by decide +kernel
/-- 10_copy_gather.md: GATH with WAIT cf0 to cf3, A = 8, B = 0, SETF 4 and MOD 2. -/
theorem test_word_gath : decode false 256 [0x016001E1, 0x40800100] = .ok (.gath { M 0 8 0 (2 * 256 + 4) with wait := 15 }) := by decide +kernel
/-- 11_matrix.md: MMA with D = 4, A = 0, B = 2, C = 3 and E = 0x300; 19_programs_engines.md: MMA.M with MOD 1. -/
theorem test_word_mma : decode true 256 [0x81EA0C01, 0x00604000] = .ok (.mma (K 0x300 4 0 2 3)) ∧
    decode true 256 [0x81EC0001, 0x20604000] = .ok (.mmaM (K 0 4 0 2 (256 + 3))) := by decide +kernel
/-- 12_scout.md: `SCOUT s8, hs3 | set=cf0` and `TMASK m2, s20 | wait=cf0 set=cf1`. -/
theorem test_word_scout : decode false 256 [0x01800001, 0x60010000] = .ok (.scout (M 0 0 8 (3 * 256))) ∧
    decode false 256 [0x41820021, 0x00228000] = .ok (.tmask { M 2 0 20 1 with wait := 1 }) := by decide +kernel
/-- 13_surrogate.md: SGCALL v12, v8, B = 0x11, SETF 3; 19_programs_engines.md: SGMERGE v4. -/
theorem test_word_sgcall : decode false 256 [0x81920001, 0x00622101] = .ok (.sgcall (M 12 8 0x11 3)) ∧
    decode false 256 [0x01960001, 0x01E00080] = .ok (.sgmerge (M 0 4 0 15)) := by decide +kernel
/-- 14_survivable.md: PWAIT with DIST 4, D = 1, A = 4, B = 5 and SETF 2. -/
theorem test_word_pwait : decode false 256 [0x21A40011, 0x0040A080] = .ok (.pwait { M 1 4 5 2 with dist := 4 }) := by decide +kernel
/-- 15_system.md: TRAP 5, RDSR v20 of register 0x0D with SETF 1, and `?p1 HRET.SKIP`. -/
theorem test_word_trap : decode false 256 [0x01A80001, 0x00A00000] = .ok (.trapOp (M 0 0 0 5)) := by decide +kernel
theorem test_word_rdsr : decode false 256 [0x81AE0001, 0x0021A002] = .ok (.rdsr (M 20 0 0x0D 1)) := by decide +kernel
theorem test_word_hret : decode false 256 [0x03AC0001, 0x21E00000] = .ok (.hretSkip { M 0 0 0 (256 + 15) with gsel := 1 }) := by decide +kernel
/-- 18_programs_vector.md: TLD.T s20, v16, v0. -/
theorem test_word_tldT : decode false 256 [0x016A0001, 0x01E28200] = .ok (.tldT (M 0 16 20 15)) := by decide +kernel
/-- 02_encoding.md R48: the word of zeros is no instruction. -/
theorem test_word_zero : decode false 256 [0, 0, 0] = .bad ⟨2, 0, 5⟩ := by decide +kernel

/-! ## A small machine for what follows: one coil of two fibres, and one page for code and two for data, each mapped to its own address -/

/-- Fibre i: v0 is 16·i, and the other registers hold small values. -/
def tFib (i : Nat) : Fibre :=
  { Fibre.new i 64 0x200000 [BitVec.ofNat 32 (16 * i), 0xFFFFFFF9, 2, 0, 5, 0] 0 64 with place := .slot 0 }

/-- Slots: hs0 no handle, hs1 and hs2 global, streamed and not, hs3 local, hs4 an MX pair; all of them let sectors be compressed. -/
def tH (k : Nat) : Option Handle :=
  match k with
  | 0 => none
  | 3 => some { base := 0, len := 4096, attr := 7, peer := 0, egrp := 0, tkey := 0, sync := 0, idx := 5, scale := none }
  | 4 => some { base := 0x400000, len := 4096, attr := 0x10109, peer := 0, egrp := 0, tkey := 0, sync := 0, idx := 6, scale := some (0x401000, 256) }
  | k => some { base := 0x400000, len := 4096, attr := BitVec.ofNat 32 (8 * k + 249), peer := 0, egrp := 0, tkey := 0, sync := 0x401000, idx := k + 2, scale := none }

def tC : Coil :=
  { Coil.new 7 1 0x500000 0x300000 0x02020101 64 0 0 with
    resident := true, st := .running, fibres := [tFib 0, tFib 1], hs := (List.range 8).map (fun k => if k < 5 then tH k else none),
    frame := some 0x600000, blocks := [0] }

def tS : State :=
  { State.reset with
    regs := { State.reset.regs with asidtab := 0x1000 }, coils := [tC], turn := .plait 7 (.slot 0), nextId := 9,
    mem := [(0x1008, 1), (0x1009, 0x20), (0x2000, 0x21), (0x2001, 0x30), (0x3000, 0x21), (0x3001, 0x40), (0x4000, 0x21), (0x4001, 0x50),
      (0x5008, 0x6F), (0x500A, 0x20), (0x5010, 0x6F), (0x5012, 0x40), (0x5018, 0x6F), (0x501A, 0x60)] }

/-- The device with another coil in the place of tC, and with bytes of memory. -/
def tWith (c : Coil) : State := { tS with coils := [c] }
def tMem (s : State) (a : Nat) (l : List Byte) : State := s.poke a l
def tPl : Place := .slot 0

theorem test_world_canonical : Memory.wf tS = true := by decide +kernel

/-- Readiness as a computation. -/
def readyB (s : State) (c : Coil) (f0 : Fibre) (g : Fibre → Bool) : Bool :=
  decide (s.turn = .plait c.id tPl) && decide (s.coil? c.id = some c) && decide (c.recOf = none) && decide ((c.plait tPl).head? = some f0) &&
  c.waits.all (fun w => (c.actives tPl).all (fun i => !w.fibres.contains i)) && decide (c.spoison = []) &&
  c.fibres.all (fun f => !(c.actives tPl).contains f.idx || decide (f.cf = 0 ∧ f.pend = [] ∧ f.poison = [] ∧ f.holds = 0)) &&
  decide (c.masked tPl g ≠ [])

theorem ready_of {s : State} {c : Coil} {f0 : Fibre} {g : Fibre → Bool} (h : readyB s c f0 g = true) : Ready s c tPl f0 g := by
  simp only [readyB, Bool.and_eq_true, decide_eq_true_eq, List.all_eq_true, Bool.or_eq_true, Bool.not_eq_true',
    List.contains_eq_mem, decide_eq_false_iff_not] at h
  obtain ⟨⟨⟨⟨⟨⟨⟨h1, h2⟩, h3⟩, h4⟩, h5⟩, h6⟩, h7⟩, h8⟩ := h
  exact ⟨⟨h1, h2, h3, h4, h5, h6, fun f hf ha => (h7 f hf).resolve_left (fun hn => hn ha)⟩, h8⟩

theorem ready_tS : Ready tS tC tPl (tFib 0) (fun _ => true) := ready_of (by decide +kernel)
theorem ready_main : Ready tS tC tPl (tFib 0) (M 1 2 3 15).guard := ready_of (by decide +kernel)

/-! ## Small steps, with the results that the manual gives -/

/-- The coil with fibres that hold these registers from v0 on. -/
def tRegs (l : List (List Word)) : Coil :=
  { tC with fibres := l.zipIdx.map (fun e => { Fibre.new e.2 64 0x200000 e.1 0 64 with place := .slot 0 }) }
/-- What the coil is after one instruction. -/
def after (i : Instr) (s : State) : Option Coil := match exec i s with | .next t => t.coil? 7 | _ => none
/-- Register d of each fibre, and each FSTAT. -/
def gotV (i : Instr) (c : Coil) (d : Nat) : List Word := ((after i (tWith c)).map (fun k => k.fibres.map (fun f => f.getV d))).getD []
def gotF (i : Instr) (c : Coil) : List Word := ((after i (tWith c)).map (fun k => k.fibres.map Fibre.fstat)).getD []
/-- One s register. -/
def gotS (i : Instr) (s : State) (d : Nat) : Option Word := (after i s).map (fun k => k.getS d)
/-- What the fibres' PCs are. -/
def gotPc (i : Instr) (c : Coil) : List (BitVec 64) := ((after i (tWith c)).map (fun k => k.fibres.map Fibre.pc)).getD []

/-- 03_integer.md, the worked example: PMAC2.S16 saturates in fibre 0 and gives −15 in fibre 1; SHRR.S32.NAR clamps and rounds. -/
theorem test_pmac2 : let c := tRegs [[0, 0x7FFF8000, 0x7FFF8000, 0x00010000], [0, 0x0003FFFE, 0x00050007, 0xFFFFFFF0]]
    gotV (.pmac2 (M 8 1 2 3)) c 8 = [0x7FFFFFFF, 0xFFFFFFF1] ∧ gotF (.pmac2 (M 8 1 2 3)) c = [flagSat, 0] := by decide +kernel
theorem test_shrr : let c := tRegs [[0, 0x7FFFFFFF, 15], [0, 0xFFFFFFF1, 2]]
    gotV (.shrr (M 8 1 2 (4 * 256 + 15))) c 8 = [0x7FFF, 0xFFFFFFFC] ∧ gotF (.shrr (M 8 1 2 (4 * 256 + 15))) c = [flagSat, 0] := by decide +kernel
/-- 03_integer.md R69: sums wrap at 2^32, and a literal stands for B. -/
theorem test_iadd_wraps : gotV (.iadd (M 3 1 2 15)) (tRegs [[0, 0xFFFFFFFF, 2]]) 3 = [1] ∧
    gotV (.isub { M 1 1 0 15 with lit := some 1 }) (tRegs [[0, 0]]) 1 = [0xFFFFFFFF] := by decide +kernel
/-- R71: a zero divisor gives all ones and the dividend; the remainder takes the dividend's sign. -/
theorem test_idiv : gotV (.idiv (M 3 1 2 15)) (tRegs [[0, 7, 0], [0, 0xFFFFFFF9, 2]]) 3 = [0xFFFFFFFF, 0xFFFFFFFD] ∧
    gotF (.idiv (M 3 1 2 15)) (tRegs [[0, 7, 0]]) = [flagDivz] := by decide +kernel
theorem test_irem : gotV (.irem (M 3 1 2 15)) (tRegs [[0, 7, 0], [0, 0xFFFFFFF9, 2]]) 3 = [7, 0xFFFFFFFF] := by decide +kernel
/-- 03_integer.md R72's example: ISAT.S32.N8 of −100 and 200. -/
theorem test_isat : gotV (.isat (M 3 1 8 (4 * 256 + 15))) (tRegs [[0, 0xFFFFFF9C], [0, 200]]) 3 = [0, 200] ∧
    gotF (.isat (M 3 1 8 (4 * 256 + 15))) (tRegs [[0, 0xFFFFFF9C], [0, 200]]) = [flagSat, 0] := by decide +kernel
/-- R75: a shift by 32 to 63 gives 0, and an arithmetic one the sign. -/
theorem test_shift_past : gotV (.shl (M 3 1 2 15)) (tRegs [[0, 1, 33], [0, 1, 65]]) 3 = [0, 2] ∧
    gotV (.sar (M 3 1 2 15)) (tRegs [[0, 0x80000000, 40]]) 3 = [0xFFFFFFFF] := by decide +kernel
/-- R77: CLZ, CTZ and POPC at 0 and at one bit; BREV mirrors. -/
theorem test_bits : gotV (.clz (M 3 1 0 15)) (tRegs [[0, 0], [0, 1]]) 3 = [32, 31] ∧ gotV (.ctz (M 3 1 0 15)) (tRegs [[0, 0], [0, 8]]) 3 = [32, 3] ∧
    gotV (.brev (M 3 1 0 15)) (tRegs [[0, 1]]) 3 = [0x80000000] := by decide +kernel
/-- R94's example: fibre 3 at position 5 of the pattern has the offset 4096 + 12 + 256 + 64. -/
theorem test_stream : smOffset (0x1000 + 2 ^ 64 * 4 + 2 ^ 96 * 256 + 2 ^ 128 * 64 + 2 ^ 192 * 4 + 2 ^ 208 * 2 + 2 ^ 224) 3 5 = 4428 := by decide +kernel

/-- 04_floating.md R112: 1 + 2 is 3; the sum of opposite infinities is the canonical NaN with NV. -/
theorem test_fadd : gotV (.fadd (M 3 1 2 15)) (tRegs [[0, 0x3F800000, 0x40000000], [0, 0x7F800000, 0xFF800000]]) 3 = [0x40400000, 0x7FC00000] ∧
    gotF (.fadd (M 3 1 2 15)) (tRegs [[0, 0x7F800000, 0xFF800000]]) = [flagNv] := by decide +kernel
/-- 04_floating.md, the worked block: QCVT.E2M1.B16.H16 of 12.0 and fifteen 0.5, then DQCVT and HADM. -/
theorem test_qcvt : let c := tRegs [List.replicate 16 0 ++ 0x41400000 :: List.replicate 15 0x3F000000]
    gotV (.qcvt (M 40 16 0x14 2)) c 40 = [0x55555556] ∧ gotV (.qcvt (M 40 16 0x14 2)) c 41 = [0x55555555] ∧
    gotV (.qcvt (M 40 16 0x14 2)) c 42 = [0x7F00] := by decide +kernel
theorem test_dqcvt : let c := tRegs [[0x55555556, 0x55555555, 0x7F00]]
    gotV (.dqcvt (M 20 0 0x04 3)) c 20 = [0x40800000] ∧ gotV (.dqcvt (M 20 0 0x04 3)) c 35 = [0x40400000] := by decide +kernel
/-- 05_special.md R134: 2^3 is exact. -/
theorem test_exp2 : gotV (.exp2 (M 3 1 0 15)) (tRegs [[0, 0x40400000]]) 3 = [0x41000000] := by decide +kernel
/-- 05_special.md, the worked softmax row: scores 3, 2, 1 and 1; and an infinite score shares the row. -/
def rowC4 (l : List Word) : Coil :=
  { tRegs (l.map (fun w => [w])) with s := List.replicate 6 0 ++ [1, 0x3F800000] ++ List.replicate 56 0, g := [0xC0100000, 0x80100000, 0, 0, 0, 0, 0, 0] }
theorem test_smaxr : let c := rowC4 [0x40400000, 0x40000000, 0x3F800000, 0x3F800000]
    gotV (.smaxr (M 20 0 6 1)) c 20 = [0x3F000000, 0x3E800000, 0x3E000000, 0x3E000000] ∧ gotV (.smaxr (M 20 0 6 1)) c 21 = List.replicate 4 0x40400000 ∧
    gotV (.smaxr (M 20 0 6 1)) c 22 = List.replicate 4 0x40000000 := by decide +kernel

/-- 06_control.md, the worked slide, FILL and EDGE. -/
def slideC : Coil :=
  { tRegs [[0x0A010A00, 0x0B010B00], [0x0A030A02, 0x0B030B02], [0x0A050A04, 0x0B050B04], [0x0A070A06, 0x0B070B06]] with
    s := List.replicate 6 0 ++ [0x31] ++ List.replicate 57 0, g := [0xC0100000, 0x80100000, 0, 0, 0, 0, 0, 0] }
theorem test_slide : gotV (.slide (M 1 0 6 (4 * 256 + 2))) slideC 1 = [0x0B060B05, 0x0A000B07, 0x0A020A01, 0x0A040A03] ∧
    gotV (.slide (M 1 0 6 (6 * 256 + 2))) slideC 1 = [0x0A000A00, 0x0A000A00, 0x0A020A01, 0x0A040A03] := by decide +kernel
/-- R152: a branch goes to its label from its own address; the fibre whose guard is false falls through. -/
theorem test_bra : gotPc (.bra { M 0 0 0 4 with gsel := 1 })
    { tC with fibres := [{ tFib 0 with p := 3 }, tFib 1] } = [0x200010, 0x200008] := by decide +kernel
/-- R157: a LOOP whose count is 0 skips its body. -/
theorem test_loop : gotPc (.loopOp (M 2 0 3 6)) tC = [0x200008, 0x200008] ∧ gotPc (.loopOp (M 2 0 0 6)) tC = [0x200018, 0x200018] := by decide +kernel

/-- 08_memory.md: a load of the little-endian word at each lane's place, and the fault of a lane outside the window. -/
theorem test_ld : (match exec (.ldB32 (M 3 0 4 0x20F)) (tS.poke 0x400004 [0x78, 0x56, 0x34, 0x12]) with
    | .next t => (t.coil? 7).map (fun k => k.fibres.map (fun f => f.getV 3)) | _ => none) = some [0x12345678, 0] := by decide +kernel
/-- 08_memory.md R242: two lanes add 5 and 7 to a counter that holds 100; v7 is 100 and 105, and the counter 112. -/
theorem test_atom : let s := (tWith (tRegs [[0, 5], [0, 7]])).poke 0x400000 [100]
    (match exec (.atom (M 1 0 0 0x20F)) s with
      | .next t => some ((t.coil? 7).map (fun k => k.fibres.map (fun f => f.getV 1)), leNat (t.peek 0x400000 4)) | _ => none)
      = some (some [100, 105], 112) := by decide +kernel
/-- 09_ordering.md R273: BINIT of three members. -/
theorem test_binit : (after (.binit (M 2 1 0 15)) (tWith { tC with s := 0 :: 3 :: List.replicate 62 0 })).map (fun k => k.b.getD 2 0)
    = some 0x4000180000000000 := by decide +kernel
/-- 15_system.md R412, R421: TRAP 5 enters the handler with EPC, ECODE and EINFO. -/
theorem test_trap : (after (.trapOp (M 0 0 0 5)) (tWith { tC with trap := { TrapDesc.none with hvec := 0x200100 } })).map
    (fun k => k.fibres.map (fun f => (f.pc, f.epc, f.ecode &&& 0xFFFF, f.einfo, f.handler)))
    = some [(0x200100, 0x200000, 0xB, 5, true), (0x200100, 0x200000, 0xB, 5, true)] := by decide +kernel
/-- 11_matrix.md R330: AADD on the MCC wraps modulo 2^64. -/
def tX : MccCtx := { MccCtx.start 3 0x200000 [1, 0xFFFFFFFFFFFFFFFF, 5, 0x200100, 0] with slot := some 0 }
def tCM : Coil := { tC with eng := .running, mcc := some tX }
def tSM : State := { tWith tCM with turn := .mcc 7 }
theorem test_aadd : ((after (.aadd (K 0 6 0 1 0)) tSM).bind Coil.mcc).map (fun x => (x.a.getD 6 0, x.pc)) = some (0, 0x200008) := by decide +kernel
/-- The instruction at the PC right after reset runs (logs 1 and 20): NOP moves the plait on by four bytes. -/
theorem test_step : (match step (State.reset.withFetchWord 32 0x20) with
    | .next t => (t.coils.head?).map (fun k => k.fibres.map (fun f => f.pc - (Option.getD ((State.reset.withFetchWord 32 0x20).coils.head?.bind (fun c => c.fibres.head?.map Fibre.pc)) 0)))
    | _ => none) = some [4] := by decide +kernel
/-- 15_system.md R439: the step has issued one instruction on core 0, with one active lane. -/
theorem test_step_counts : (match step (State.reset.withFetchWord 32 0x20) with
    | .next t => (t.tallied 0 1, t.tallied 0 2, t.tallied 1 1) | _ => (0, 0, 0)) = (1, 1, 0) := by decide +kernel

/-! ## Portable form and code objects -/

/-- The function of 16_portable.md, 'A join lowered'. -/
def tOp (opc mod : Nat) (d a b x : GOpd) (lit : Option Word) : GRec :=
  .op { mcc := false, opc := opc, mod := mod, gneg := false, d := d, a := a, b := b, x := x, lit := lit, guard := none, rd := none }
def tJoin : GFunc :=
  { mcc := false
    blocks := [[tOp 0x6B 0 (.field 1) (.field 0) (.field 0) (.field 0) none, tOp 0xD7 0 (.value 6) (.field 0) (.field 2) (.field 0) none,
                tOp 0x01 0 (.value 0) (.value 6) (.field 0) (.field 0) (some 0xFFFFFFFD), tOp 0x0E 0 (.value 1) (.value 0) (.field 0) (.field 2) (some 0),
                .branch 1 2 1],
               [tOp 0x03 0 (.value 2) (.value 0) (.field 0) (.field 0) none, .jump 3],
               [tOp 0x05 0 (.value 3) (.value 0) (.value 0) (.field 0) none, .jump 3],
               [.phi 4 [1, 2] [2, 3], tOp 0x74 0 (.value 5) (.value 4) (.field 1) (.field 0) none, tOp 0x79 0 (.field 0) (.field 0) (.field 0) (.field 0) none]]
    types := [(0, .w32), (1, .p), (2, .w32), (3, .w32), (4, .w32), (5, .w32), (6, .w32)] }
/-- R446, R447: it is valid, the lowerer inserts CONVM g1 before the GRED, and `CONVM g1` has the words given there. -/
theorem test_gpf_join : tJoin.valid = true ∧ tJoin.marks 1 3 1 = true ∧ tJoin.marks 1 0 1 = false ∧
    encode (convNative 1) = [0x00D00001, 0x00000020] := by decide +kernel
/-- R446: a value that is used before it is defined, and a v register that is named by number, make a function invalid. -/
theorem test_gpf_bad : ({ tJoin with blocks := [[tOp 0x03 0 (.value 2) (.value 2) (.field 0) (.field 0) none]] } : GFunc).valid = false ∧
    ({ tJoin with blocks := [[tOp 0x03 0 (.value 2) (.field 3) (.field 0) (.field 0) none]] } : GFunc).valid = false := by decide +kernel
/-- The lowering that 16_portable.md gives of it, with or without the marker, where every latency is one cycle. -/
def tForm (d a b x : Nat) (lit : Option Word) : Main :=
  { dist := 0, wait := 0, gsel := 0, gneg := 0, d := BitVec.ofNat 8 d, a := BitVec.ofNat 8 a, b := BitVec.ofNat 8 b, x := BitVec.ofNat 11 x, lit := lit }
def tAtBlock (l : List GHold) (p : List GPend) : GAt := { holds := l, pend := p, seen := [], coil := [], due := false }
noncomputable def tLow (marks : List GEmit) (read : Nat) : GLow :=
  { win := 8, base := none, edges := []
    entry := [tAtBlock [] [], tAtBlock [⟨(.v, 0), 0, 0⟩] [⟨(.p, 1), some 1, none⟩], tAtBlock [⟨(.v, 0), 0, 0⟩] [⟨(.p, 1), some 1, none⟩],
              tAtBlock [⟨(.v, 1), 4, 0⟩] [⟨(.v, 1), some 1, none⟩]]
    code := [[[.own (.part (tForm 1 0 0 0 none)) []], [.own (.rdsr (tForm 0 0 2 15 none)) [(6, 0)]],
              [.own (.iaddS32ImmCompact { dist := 0, w := 0, d := 0, a := 0, b := 61 }) [(6, 0), (0, 0)]],
              [.own (.icmp (tForm 1 0 0 2 (some 0))) [(0, 0), (1, 1)]], []],
             [[.own (.inegS32Compact { dist := 0, w := 0, d := 1, a := 0, b := 0 }) [(0, 0), (2, 1)]], []],
             [[.own (.imul (tForm 1 0 0 15 none)) [(0, 0), (3, 1)]], []],
             [[], marks ++ [.own (.gred (tForm 2 read 1 15 none)) [(4, read), (5, 2)]], [.own (.fibend (tForm 0 0 0 0 none)) []]]] }
/-- R447, R448: it is right as it stands there; without the marker, or with the GRED reading v0, it is not. -/
theorem test_gpf_lowered : tJoin.lowersTo (fun _ => some 1) (tLow [.mark (convNative 1)] 1) = true := by decide +kernel
theorem test_gpf_not_lowered : tJoin.lowersTo (fun _ => some 1) (tLow [] 1) = false ∧
    tJoin.lowersTo (fun _ => some 1) (tLow [.mark (convNative 1)] 0) = false := by decide +kernel
/-- R455: 300 fibres with a window of 64 take two pool blocks, and 192 KiB of scratchpad three; the packet breaks no rule of 07_work.md R182. -/
def tKinfo : Kinfo := { entry := 0x40, fibres := 300, win := 64, scratchKib := 192, acc := 4, pin := false }
theorem test_kinfo : tKinfo.partw 1 = 0x03040102 ∧ tKinfo.maxSblk = 3 ∧
    packetBad (tKinfo.packet 0x200000 { coils := 1, rcb := 0x1000, future := 0, ctx := 0x10000, sblk := 1, fctl := 0, s := [] }) = false := by
  decide +kernel
/-- R450, R451: an object of one CODE section of one word is accepted, and one byte changed makes its CHECK wrong. -/
def tKco (x : Nat) : List Byte :=
  leBytes 4 0x004F434B ++ leBytes 2 1 ++ leBytes 2 2 ++ leBytes 4 0x00070001 ++ leBytes 4 1 ++ leBytes 8 64 ++ leBytes 8 100 ++ leBytes 8 4
  ++ leBytes 8 0 ++ leBytes 4 (0x004F434B + 0x00020001 + 0x00070001 + 1 + 64 + 100 + 4 + 0x00020001 + 96 + 4 + 0x20) ++ leBytes 12 0
  ++ leBytes 2 1 ++ leBytes 1 2 ++ leBytes 5 0 ++ leBytes 8 96 ++ leBytes 8 4 ++ leBytes 8 0 ++ leBytes 4 x
theorem test_kco : kcoOk (tKco 0x20) = true ∧ kcoOk (tKco 0x21) = false := by decide +kernel

/-! ## Witnesses: for each statement that has hypotheses, states and operands that meet them -/

theorem reaches_of {s : State} {c : Coil} {h : Option Handle} {need : Need} {offs : List (Nat × BitVec 64)}
    (h1 : (s.draw.2.resolveLanes c h need offs).2.1 = []) (h2 : c.watchHit need.read need.write (s.draw.2.resolveLanes c h need offs).1 = none) :
    Reaches s c tPl h need offs (s.draw.2.resolveLanes c h need offs).1 (s.draw.2.resolveLanes c h need offs).2.2 :=
  ⟨Prod.ext rfl (Prod.ext h1 rfl), .inr h2⟩
theorem commits_of {m : Main} {u : State} {c : Coil} {f0 : Fibre}
    (h : (u.commitFor c (c.actives tPl) (f0.pc + BitVec.ofNat 64 (4 * m.words)) c.window).2.2 = []) :
    m.Commits u c tPl f0 (u.commitFor c (c.actives tPl) (f0.pc + BitVec.ofNat 64 (4 * m.words)) c.window).1
      (u.commitFor c (c.actives tPl) (f0.pc + BitVec.ofNat 64 (4 * m.words)) c.window).2.1 :=
  Prod.ext rfl (Prod.ext rfl h)
theorem triple_of {α β γ : Type} {x : α × β × γ} {b : β} (h : x.2.1 = b) : x = (x.1, b, x.2.2) := by subst h; rfl
theorem triple3_of {α β γ : Type} {x : α × β × γ} {b : γ} (h : x.2.2 = b) : x = (x.1, x.2.1, b) := by subst h; rfl
/-- The value of an answer that is one. -/
def okOf {ε α : Type} (x : Except ε α) (d : α) : α := match x with | .ok a => a | .error _ => d
theorem ok_of {ε α : Type} {x : Except ε α} {d : α} (h : x.isOk = true) : x = .ok (okOf x d) := by
  cases x with
  | ok a => rfl
  | error e => cases h
theorem pair_of {α β : Type} {x : α × β} {a : α} (h : x.1 = a) : x = (a, x.2) := by subst h; rfl

/-- A guard on p1, which holds in fibre 0 of tC1 and not in fibre 1. -/
def tG (d a b x : Nat) : Main := { M d a b x with gsel := 1 }
def tC1 : Coil := { tC with fibres := [{ tFib 0 with p := 3 }, tFib 1] }
theorem ready_tC1 : Ready (tWith tC1) tC1 tPl { tFib 0 with p := 3 } (tG 0 0 0 0).guard := ready_of (by decide +kernel)

theorem witness_IntegerArithmeticWrites : Ready tS tC tPl (tFib 0) (M 1 2 3 15).guard := ready_main
theorem witness_IntegerDivisionTruncates : Ready tS tC tPl (tFib 0) (M 1 2 3 15).guard ∧ (M 1 2 3 15).ib tC (tFib 0) = 0 ∧
    (M 1 2 4 15).ib tC (tFib 0) ≠ 0 := ⟨ready_main, by decide +kernel⟩
theorem witness_SaturateAndCompare : Ready tS tC tPl (tFib 0) (M 1 1 2 1).guard := ready_of (by decide +kernel)
theorem witness_LogicShiftsBitFields : Ready tS tC tPl (tFib 0) (M 1 1 2 (1024 + 31)).guard := ready_of (by decide +kernel)
theorem witness_PackedArithmetic : Ready tS tC tPl (tFib 0) (M 8 1 2 3).guard := ready_of (by decide +kernel)
/-- MOVL with each MOD, ADR and CTXA with either destination class. -/
theorem witness_MovesSelectsAndAddresses : ∀ x ∈ [0x0F, 0x10F, 0x20F, 0x30F],
    Ready tS tC tPl (tFib 0) { M 2 0 0 x with lit := some 0x80000000 }.guard ∧ { M 2 0 0 x with lit := some 0x80000000 }.mod = x / 256 := by
  intro x hx
  simp only [List.mem_cons, List.not_mem_nil, or_false] at hx
  rcases hx with rfl | rfl | rfl | rfl <;> exact ⟨ready_of (by decide +kernel), by decide +kernel⟩
theorem witness_CompactFormsExecute : Ready tS tC tPl (tFib 0) (fun _ => true) := ready_tS
theorem witness_StreamPatternsWalk : ∀ x ∈ [0, 0x100, 0x200], Ready tS tC tPl (tFib 0) (M 2 8 7 x).guard ∧ (M 2 8 7 x).mod = x / 256 := by
  intro x hx
  simp only [List.mem_cons, List.not_mem_nil, or_false] at hx
  rcases hx with rfl | rfl | rfl <;> exact ⟨ready_of (by decide +kernel), by decide +kernel⟩
/-- A rounding of 5 / 2 in each mode, of either sign. -/
theorem witness_FloatArithmeticRounds : Ready tS tC tPl (tFib 0) (M 1 2 3 15).guard ∧ 0 < 1 ∧
    ((exactOf false 5 0).at 1 0 0).1 = 2 ∧ ((exactOf false 5 0).at 1 2 0).1 = 3 ∧ ((exactOf true 5 0).at 1 3 0).1 = 3 :=
  ⟨ready_main, by decide +kernel⟩
theorem witness_FloatComparesAndClasses : Ready tS tC tPl (tFib 0) (M 1 2 4 0x103).guard := ready_of (by decide +kernel)
theorem witness_ConversionsAndBlocks : Ready tS tC tPl (tFib 0) (M 40 16 0x14 2).guard := ready_of (by decide +kernel)
theorem witness_SpecialFunctionsExecute : Ready tS tC tPl (tFib 0) (M 1 2 0 15).guard := ready_of (by decide +kernel)

/-- PART over the coil, from s2 to the end of the range, and to none. -/
theorem witness_PartSetsGroups : Ready tS tC tPl (tFib 0) (M 1 0 2 3).guard ∧ (M 1 0 2 3).imm % 4 = 3 ∧
    ∃ c : Coil, Ready (tWith c) c tPl (tFib 0) (M 1 0 2 6).guard ∧ (M 1 0 2 6).imm % 4 = 2 ∧ (M 1 0 2 6).imm / 4 % 2 = 1 ∧
      (c.getS 2).toNat % 65536 = 1008 ∧ (c.getS 2).toNat / 65536 = 16 :=
  ⟨ready_of (by decide +kernel), by decide +kernel, { tC with s := tC.s.set 2 (16 * 65536 + 1008) }, ready_of (by decide +kernel), by decide +kernel⟩
/-- A coil of one plait, in the groups of g0, with no collective under way. -/
theorem witness_CollectivesGatherTheirGroups : ∀ x ∈ [0, 0x100], Ready tS tC tPl (tFib 0) (M 1 2 0 x).guard ∧ (M 1 2 0 x).mod = x / 256 ∧
    (∀ f ∈ tC.fibres, f.idx ∈ tC.actives tPl) ∧ tC.insts = [] ∧ grpValid (tC.g.getD 0 0) = true ∧
    ∀ f ∈ tC.fibres, grpHas (tC.g.getD 0 0) f.idx = true := by
  intro x hx
  simp only [List.mem_cons, List.not_mem_nil, or_false] at hx
  rcases hx with rfl | rfl <;> exact ⟨ready_of (by decide +kernel), by decide +kernel⟩
/-- A row descriptor of one element, with the window just large enough for SMAXR's c + 2 results at v61. -/
theorem witness_RowInstructionsComplete :
    Ready tS tC tPl (tFib 0) (M 61 0 6 1).guard ∧ rowFits (M 61 0 6 1) (fun k => k + 2) tC ∧ rowFits (M 63 0 6 1) (fun _ => 1) tC ∧
    (∀ f ∈ tC.fibres, f.idx ∈ tC.actives tPl) ∧ tC.insts = [] ∧ grpValid (tC.g.getD (rowGsel (tC.getS 6)) 0) = true ∧
    ∀ f ∈ tC.fibres, grpHas (tC.g.getD (rowGsel (tC.getS 6)) 0) f.idx = true :=
  ⟨ready_of (by decide +kernel), by unfold rowFits; decide +kernel, by unfold rowFits; decide +kernel, by decide +kernel⟩
theorem witness_VoteBallotElectGive : (List.replicate 32 (none : Option Arrival)).length ≤ 32 := by decide +kernel

/-- Branches: aligned targets in v0 and v1 of tC, a guard that is not uniform in tC1, and one that is. -/
theorem witness_BranchesSendFibres :
    Ready tS tC tPl (tFib 0) (M 2 2 0 0x100).guard ∧ (∀ f ∈ tC.fibres, f.idx ∈ tC.masked tPl (M 2 2 0 0x100).guard → (f.getVD 2).toNat % 4 ≠ 1) ∧
    (M 2 2 0 0x100).mod = 1 ∧ tC.masked tPl (M 2 2 0 0x100).guard = tC.actives tPl ∧
    Ready (tWith tC1) tC1 tPl { tFib 0 with p := 3 } (tG 2 4 0 0x100).guard ∧ tC1.masked tPl (tG 2 4 0 0x100).guard ≠ tC1.actives tPl ∧
    (∀ f ∈ tC1.fibres, f.idx ∈ tC1.actives tPl → f.fctl.getLsbD 1 = false) :=
  ⟨ready_of (by decide +kernel), by decide +kernel, by decide +kernel, by decide +kernel, ready_of (by decide +kernel), by decide +kernel⟩
/-- Targets that are aligned and the same: v6 and v7 hold 0. -/
theorem witness_BranchTargets : (∀ f ∈ tC.fibres, f.idx ∈ tC.masked tPl (M 2 6 0 0x100).guard → (f.getVD 6).toNat % 4 = 0) ∧
    tC.lowest tPl (M 2 6 0 0x100).guard = some (tFib 0) ∧ ((tFib 0).getVD 6).toNat % 4 = 0 ∧
    (∀ f ∈ tC.fibres, f.idx ∈ tC.actives tPl → f.getVD 6 = (tFib 0).getVD 6) ∧
    tC1.lowest tPl (tG 2 6 0 0x100).guard = some { tFib 0 with p := 3 } := by decide +kernel
theorem witness_LoopSetsUpALevel : Ready tS tC tPl (tFib 0) (M 2 0 3 6).guard ∧
    (∀ f ∈ tC.fibres, f.idx ∈ tC.masked tPl (M 2 0 3 6).guard →
      f.nests ((tFib 0).pc + BitVec.ofNat 64 (4 * (M 2 0 3 6).words)) ((tFib 0).pc + BitVec.ofInt 64 (4 * (M 2 0 3 6).simm)) = true) :=
  ⟨ready_of (by decide +kernel), by decide +kernel⟩
/-- A level with its last instruction at 24 and one before it, counts 2, 1 and 0, an outer level that ends elsewhere, and a place outside. -/
theorem witness_HardwareLoopsRepeat :
    let l (n : Nat) : Loop := { start := 8, lend := 32, count := n }
    let o : Loop := { start := 0, lend := 64, count := 2 }
    (∀ n, (l n).covers 24 = true ∧ (l n).covers 8 = true ∧ (l n).covers 32 = false ∧ (l n).lend = 24 + 8 ∧ (l n).lend ≠ 16 + 8) ∧
    o.lend ≠ 24 + 8 ∧ o.covers 32 = true := ⟨fun n => ⟨rfl, rfl, rfl, rfl, show (32 : BitVec 64) ≠ 16 + 8 by decide⟩, by decide +kernel⟩
/-- A pack point that holds every fibre, and one that a fibre of another place keeps waiting. -/
theorem witness_PackPointsAndYield :
    (Ready tS tC tPl (tFib 0) (M 0 0 0 0x100).guard ∧ (∀ f ∈ tC.fibres, f.idx ∈ tC.masked tPl (M 0 0 0 0x100).guard) ∧
      (M 0 0 0 0x100).mod = 1 ∧ (M 0 0 0 0).mod = 0 ∧ grpValid (tC.g.getD 0 0) = true ∧ ∀ f ∈ tC.fibres, grpHas (tC.g.getD 0 0) f.idx = true) ∧
    (Ready (tWith tC1) tC1 tPl { tFib 0 with p := 3 } (tG 0 0 0 0x100).guard ∧
      (¬ ∀ f ∈ tC1.fibres, f.idx ∈ tC1.masked tPl (tG 0 0 0 0x100).guard) ∧ (tC1.masked tPl (tG 0 0 0 0x100).guard).length < 64 ∧
      ∀ f ∈ tC1.fibres, f.status ≠ .held 0x200000 .pack ∧ f.status ≠ .held 0x200000 .convmCoil) :=
  ⟨⟨ready_of (by decide +kernel), by decide +kernel⟩, ready_of (by decide +kernel), by decide +kernel⟩

/-- What a read of lanes asks for. -/
def tNeed (n : Nat) (w : Bool) (sp : List Nat) : Need := { size := n, align := n, write := w, spaces := sp }
/-- What a read that also writes asks for: bytes, alignment of the offset and of the address. -/
def tBoth (n a adr : Nat) (sp : List Nat) : Need := { size := n, align := a, write := true, spaces := sp, addrAlign := adr, both := true }
theorem forall_mem_cons {P : Nat → Prop} {a : Nat} {l : List Nat} (h : P a) (t : ∀ x ∈ l, P x) : ∀ x ∈ a :: l, P x := by
  intro x hx; cases hx with
  | head => exact h
  | tail _ m => exact t x m
theorem forall_mem_nil {P : Nat → Prop} : ∀ x ∈ ([] : List Nat), P x := fun _ h => nomatch h

/-- Loads of every size at places whose last byte is the last of a 32-byte unit, from the scratchpad, of one word for the coil, and of a block. -/
theorem witness_LoadsExecute : ∀ n ∈ [1, 2, 4, 8, 16], ∃ l v vals w, Ready tS tC tPl (tFib 0) (M 4 0 16 0x20F).guard ∧
    Reaches tS tC tPl (tC.slot 2) (tNeed n false [0, 1, 2, 3]) ((M 4 0 16 0x20F).offsets (M 4 0 16 0x20F).memOff tC tPl) l v ∧
    v.readLanes tC true l = (vals, [], w) :=
  forall_mem_cons ⟨_, _, _, _, ready_of (by decide +kernel), reaches_of (by decide +kernel) (by decide +kernel), triple_of (by decide +kernel)⟩ <|
  forall_mem_cons ⟨_, _, _, _, ready_of (by decide +kernel), reaches_of (by decide +kernel) (by decide +kernel), triple_of (by decide +kernel)⟩ <|
  forall_mem_cons ⟨_, _, _, _, ready_of (by decide +kernel), reaches_of (by decide +kernel) (by decide +kernel), triple_of (by decide +kernel)⟩ <|
  forall_mem_cons ⟨_, _, _, _, ready_of (by decide +kernel), reaches_of (by decide +kernel) (by decide +kernel), triple_of (by decide +kernel)⟩ <|
  forall_mem_cons ⟨_, _, _, _, ready_of (by decide +kernel), reaches_of (by decide +kernel) (by decide +kernel), triple_of (by decide +kernel)⟩
  forall_mem_nil
theorem witness_LoadsFromScratchpad : ∃ l v vals w, Ready tS tC tPl (tFib 0) (M 4 0 16 0x40F).guard ∧
    Reaches tS tC tPl (some tC.scratchHandle) (tNeed (2 ^ (M 4 0 16 0x40F).mod) false [3])
      ((M 4 0 16 0x40F).padOffsets (M 4 0 16 0x40F).memOff tC tPl) l v ∧ v.readLanes tC true l = (vals, [], w) :=
  ⟨_, _, _, _, ready_of (by decide +kernel), reaches_of (by decide +kernel) (by decide +kernel), triple_of (by decide +kernel)⟩
theorem witness_LoadsOfTheCoil : ∃ l v vals w, Ready tS tC tPl (tFib 0) (M 4 0 16 0x10F).guard ∧
    Reaches tS tC tPl (tC.slot 1) (tNeed 8 false [0, 1, 2, 3]) ((M 4 0 16 0x10F).offset1 (M 4 0 16 0x10F).memOff tC tPl) l v ∧
    v.readLanes tC true l = (vals, [], w) :=
  ⟨_, _, _, _, ready_of (by decide +kernel), reaches_of (by decide +kernel) (by decide +kernel), triple_of (by decide +kernel)⟩
/-- The block of each lane ends in the last register of the window. -/
theorem witness_LoadsOfBlocks : ∃ h l v vals w, Ready tS tC tPl (tFib 0) (M 59 0 0 0x40F).guard ∧ tC.slot 4 = some h ∧
    (M 59 0 0 0x40F).mod = 4 ∧ 59 + h.mxRegs + 1 = 64 ∧
    tS.draw.2.mxLanes tC h false ((M 59 0 0 0x40F).offsets (M 59 0 0 0x40F).memOff tC tPl) = (l, [], v) ∧
    tC.watchHit true false (l.flatMap (fun e => [⟨e.1, e.2.1⟩, ⟨e.1, e.2.2⟩])) = none ∧ v.readBlocks tC l = (vals, [], w) :=
  ⟨(tH 4).getD tC.scratchHandle, _, _, _, _, ready_of (by decide +kernel), by decide +kernel, by decide +kernel, by decide +kernel,
    triple_of (by decide +kernel), by decide +kernel, triple_of (by decide +kernel)⟩
/-- A piece that ends a sector, through a handle that is cached while the L1 holds another sector, and not. -/
theorem witness_LoadsSeeOwnStores : let g : Seg := { va := 0x400010, pa := 0x400010, n := 16, side := false, big := false }
    let s : State := { tS with l1 := [{ core := 0, asid := 1, vsec := 0x20008, big := false, psec := 0x20008, bytes := [], block := none }] }
    g.pa % 32 + g.n = 32 ∧ s.keyClash g.pa 0 = false ∧ s.l1.length = 1 ∧
    (let v := ((s.touch false g.pa 0).healRange g.pa g.n).report
     ∀ e ∈ v.l1, e.core = tC.core → e.asid = tC.asid → e.psec / 8 ≠ g.pa / 256 ∧ e.vsec ≠ g.va.toNat / 32) := by decide +kernel

/-- What the stores of a puts list put in the buffer. -/
def tNew (puts : List (Lane × List Byte)) : List Store := puts.flatMap (fun e => storesOf e.1.fibre 0x200000 false e.1.spot e.2)
theorem room_of {s : State} {c : Coil} {n : Nat} (h : n ≤ 256) : n ≤ s.storeRoom c := Nat.le_trans h (Nat.le_add_right _ _)
theorem witness_StoresExecute : ∀ n ∈ [1, 32], ∃ l v, Ready tS tC tPl (tFib 0) (M 4 6 0 0x20F).guard ∧
    Reaches tS tC tPl (tC.slot 2) (tNeed n true [0]) ((M 4 6 0 0x20F).offsets (M 4 6 0 0x20F).memOff tC tPl) l v ∧
    (tC.stores.filter (fun st => match st.op with | .marker _ => false | _ => true)).length +
      (tNew (l.map (fun i => (i, List.replicate n 0)))).length ≤ v.storeRoom tC :=
  forall_mem_cons ⟨_, _, ready_of (by decide +kernel), reaches_of (by decide +kernel) (by decide +kernel), room_of (by decide +kernel)⟩ <|
  forall_mem_cons ⟨_, _, ready_of (by decide +kernel), reaches_of (by decide +kernel) (by decide +kernel), room_of (by decide +kernel)⟩
  forall_mem_nil
theorem witness_StoresToScratchpad : ∃ l v, Ready tS tC tPl (tFib 0) (M 4 0 0 0x40F).guard ∧
    Reaches tS tC tPl (some tC.scratchHandle) (tNeed 16 true [3]) ((M 4 0 0 0x40F).padOffsets (M 4 0 0 0x40F).memOff tC tPl) l v ∧
    tNew (l.map (fun i => (i, List.replicate 16 0))) = [] :=
  ⟨_, _, ready_of (by decide +kernel), reaches_of (by decide +kernel) (by decide +kernel), by decide +kernel⟩
theorem witness_StoresOfBlocks : ∃ h l v, Ready tS tC tPl (tFib 0) (M 59 0 0 0x40F).guard ∧ tC.slot 4 = some h ∧ 59 + h.mxRegs + 1 = 64 ∧
    tS.draw.2.mxLanes tC h true ((M 59 0 0 0x40F).offsets (M 59 0 0 0x40F).memOff tC tPl) = (l, [], v) ∧
    tC.watchHit false true (l.flatMap (fun e => [⟨e.1, e.2.1⟩, ⟨e.1, e.2.2⟩])) = none ∧ 2 * l.length + 2 * l.length ≤ v.storeRoom tC :=
  ⟨(tH 4).getD tC.scratchHandle, _, _, ready_of (by decide +kernel), by decide +kernel, by decide +kernel,
    triple_of (by decide +kernel), by decide +kernel, room_of (by decide +kernel)⟩

theorem groups_idle (s : State) (h : s.groups = List.replicate 256 Group.reset) : ∀ k, (s.grp k).st = 0 := by
  intro k
  simp only [State.grp, h, List.getD_eq_getElem?_getD, List.getElem?_replicate]
  split <;> rfl

/-- A table of 64 KiB pages below 0xA00000: the first not valid, the second for reading, the third for all. -/
def tTbl : State := (tS.poke 0x5020 [0x21, 0x60]).poke 0x6008 [0x61, 0, 0x40, 0, 0, 0, 0, 0, 0x6D, 0, 0x60]
theorem witness_TranslationFollowsTables : (Memory.wf tTbl = true ∧ (∀ g, (tTbl.grp g).st = 0) ∧ tTbl.errqEn = false) ∧
    let root := tTbl.peek64 (tTbl.regs.asidtab.toNat + 8)
    let next (e : DWord) (n : Nat) : Prop :=
      e.getLsbD 0 = true ∧ e.getLsbD 1 = false ∧ e.getLsbD 7 = false ∧ e.toNat < 2 ^ 52 ∧ pteAddr e % 2 ^ n = 0
    let leaf (k : Nat) : DWord := tTbl.peek64 (0x6000 + 8 * k)
    root.getLsbD 0 = true ∧ root.toNat / 4096 % 2 ^ 40 * 4096 = 0x2000 ∧ next (tTbl.peek64 0x2000) 12 ∧ pteAddr (tTbl.peek64 0x2000) = 0x3000 ∧
    next (tTbl.peek64 0x3000) 12 ∧ pteAddr (tTbl.peek64 0x3000) = 0x4000 ∧ next (tTbl.peek64 0x4000) 12 ∧ pteAddr (tTbl.peek64 0x4000) = 0x5000 ∧
    next (tTbl.peek64 0x5020) 8 ∧ pteAddr (tTbl.peek64 0x5020) = 0x6000 ∧ (leaf 0).getLsbD 0 = false ∧
    (∀ k, k = 1 ∨ k = 2 → (leaf k).getLsbD 0 = true ∧ (leaf k).getLsbD 7 = false ∧ (leaf k).toNat < 2 ^ 52 ∧ pteAddr (leaf k) % 2 ^ 16 = 0) ∧
    (leaf 1).getLsbD 2 = false ∧ (leaf 1).getLsbD 3 = false ∧ (leaf 2).getLsbD 2 = true ∧ (leaf 2).getLsbD 3 = true := by
  refine ⟨⟨by decide +kernel, groups_idle _ rfl, rfl⟩, ?_⟩
  refine ⟨?_, ?_, ?_, ?_, ?_, ?_, ?_, ?_, ?_, ?_, ?_, ?_, ?_⟩ <;> first | decide +kernel | (rintro k (rfl | rfl) <;> decide +kernel)

/-- A named line that is there, a prefetch that would fault, an I-cache line with its commit. -/
theorem witness_CacheControlAndSlots : ∃ l v b x y w k, Ready tS tC tPl (tFib 0) (M 0 0 0 0x20F).guard ∧
    Reaches tS tC tPl (tC.slot 2) { size := 1, align := 1, write := false, spaces := [0, 1] } ((M 0 0 0 0x20F).offsets 0 tC tPl) l v ∧
    tS.draw.2.resolveLanes tC (tC.slot 0) { size := 1, align := 1, write := false, spaces := [0, 1] } ((M 0 0 0 0xF).offsets 0 tC tPl) = (x, b, y) ∧
    b ≠ [] ∧ v.skeys = [] ∧ (∀ h, tC.slot 2 = some h → v.slotKey h.tkey = 0) ∧
    (M 0 0 0 0x20F).Commits v (tC.stepped tPl (M 0 0 0 0x20F).guard 2) tPl (tFib 0) w k :=
  ⟨_, _, (tS.draw.2.resolveLanes tC (tC.slot 0) { size := 1, align := 1, write := false, spaces := [0, 1] } ((M 0 0 0 0xF).offsets 0 tC tPl)).2.1, _, _, _, _,
    ready_of (by decide +kernel), reaches_of (by decide +kernel) (by decide +kernel), rfl, by decide +kernel, by decide +kernel,
    fun h hh => by cases hh; rfl, commits_of (by decide +kernel)⟩
theorem entry_of {e : Entry} (h : (match e with | .ok _ _ => true | _ => false) = true) :
    e = .ok (match e with | .ok h _ => h | _ => tC.scratchHandle) (match e with | .ok _ s => s | _ => tS) := by
  cases e with
  | ok h s => rfl
  | invalid s => cases h
  | bad f s => cases h
/-- An entry of the handle table at CTXBASE, entry 2. -/
def tHandleS : State := tS.poke 0x500040 [0, 0, 0x40, 0, 0, 0, 0, 0, 0, 1, 0, 0, 0, 0, 0, 0, 1]
def tC2 : Coil := { tC with s := tC.s.set 8 2 }
def tHS : State := { tHandleS with coils := [tC2] }
theorem witness_HandleTableEntry : ∃ h v, Ready tHS tC2 tPl (tFib 0) (M 0 8 10 0xF).guard ∧
    tHS.draw.2.readEntry tC2.core tC2.asid tC2.ctxbase (tC2.getS 8).toNat (tC2.getSD 10) = .ok h v :=
  ⟨_, _, ready_of (by decide +kernel), entry_of (by decide +kernel)⟩
theorem xlat_of {x : Except MemFault Xlat × State} (h : x.1.isOk = true) :
    x = (.ok (okOf x.1 ⟨0, false, false⟩), x.2) := Prod.ext (ok_of h) rfl
/-- Blocks of a scratchpad of two: both the same, and one resident beside one that is backed. -/
def tC3 : Coil := { tC with s := tC.s.set 9 1 }
theorem witness_ScratchBlocks : Ready (tWith tC3) tC3 tPl (tFib 0) (M 0 8 9 0xF).guard ∧ (tC3.getS 8).toNat = 0 ∧ (tC3.getS 9).toNat = 1 ∧
    partSlog tC3.partw = 2 ∧ tC3.blocks.contains 0 = true ∧ tC3.blocks.contains 1 = false ∧
    ∃ x v y w, (tWith tC3).draw.2.translate tC3.asid (tC3.backing 0) .write = (.ok x, v) ∧
      v.translate tC3.asid (tC3.backing 1) .read = (.ok y, w) :=
  ⟨ready_of (by decide +kernel), by decide +kernel, by decide +kernel, by decide +kernel, by decide +kernel, by decide +kernel,
    _, _, _, _, xlat_of (by decide +kernel), xlat_of (by decide +kernel)⟩

/-- An effect that goes through. -/
def Res.fine (r : Res) : Bool := match r with | .ok _ => true | _ => false
theorem fine_of {r : Res} (h : Res.fine r = true) : ∃ y, r = .ok y := by
  cases r with
  | ok x => exact ⟨x, rfl⟩
  | trap t x => cases h
  | late t x => cases h
  | stop r x => cases h
  | stall => cases h
  | gone s => cases h
/-- An atomic of 64 bits through hs2 and one on the scratchpad; a counter at the end of a sector. -/
theorem witness_AtomicsComputeAndExecute : ∃ l v w k u, Ready tS tC tPl (tFib 0) (M 4 6 16 0x20F).guard ∧
    Reaches tS tC tPl (tC.slot 2) (tBoth 8 8 1 [0, 1]) ((M 4 6 16 0x20F).offsets 0 tC tPl) l v ∧
    (M 4 6 16 0x20F).Commits v (tC.stepped tPl (M 4 6 16 0x20F).guard 2) tPl (tFib 0) w k ∧ w.spotFaults l = ([], u) :=
  ⟨_, _, _, _, _, ready_of (by decide +kernel), reaches_of (by decide +kernel) (by decide +kernel), commits_of (by decide +kernel),
    pair_of (by decide +kernel)⟩
theorem witness_AtomicsOnScratchpad : ∃ l v, Ready tS tC tPl (tFib 0) (M 4 6 0 0xF).guard ∧
    Reaches tS tC tPl (some tC.scratchHandle) (tBoth 4 4 1 [3]) ((M 4 6 0 0xF).padOffsets 0 tC tPl) l v :=
  ⟨_, _, ready_of (by decide +kernel), reaches_of (by decide +kernel) (by decide +kernel)⟩
theorem witness_AtomicsAndWritesReachMemory : tS.keyClash 0x40001C 0 = false ∧ 0x40001C % 4 = 0 ∧ Memory.wf (tS.touch false 0x40001C 0) = true ∧ Memory.wf (tS.touch true 0x40001C 0) = true ∧
    Memory.wf tS = true ∧ (∀ k, (tS.grp k).st = 0) ∧ tS.errqEn = false :=
  ⟨by decide +kernel, by decide, by decide +kernel, by decide +kernel, by decide +kernel, groups_idle _ rfl, rfl⟩
theorem witness_CommitPointsStartRegions : ∀ f ∈ tC.fibres, ∀ k, f.status ≠ .provisional k := by
  intro f hf k
  have : f.status = .runnable := by
    revert f
    decide +kernel
  rw [this]; exact FStatus.noConfusion

/-- The translation of the object of hs2, and the device past it. -/
def tSyncX (s : State) : Except MemFault Xlat × State := s.draw.2.translate tC.asid 0x401000 .write
def tSyncP (s : State) : Xlat := okOf (tSyncX s).1 ⟨0, false, false⟩
def tSyncS (s : State) : State := ((tSyncX s).2.healRange (tSyncP s).pa 16).report
theorem sync_of {s : State} (h1 : (tSyncX s).1.isOk = true) (h2 : (tSyncS s).refuses (tSyncP s).pa = false)
    (h3 : leNat ((tSyncS s).peek ((tSyncP s).pa + 12) 4) = 0) : SyncAt s tC 2 true (tSyncP s) (tSyncS s) :=
  ⟨(tH 2).getD tC.scratchHandle, (tSyncX s).2, rfl, by decide +kernel, xlat_of h1, rfl, fun _ => h2, h3⟩
/-- The object of hs2 free, held by this coil, and held by another. -/
def tSyncN (n : Nat) : State := tS.poke 0x401008 [BitVec.ofNat 8 n]
def tSyncM : Main := M 2 0 8 0x20F
def tSyncW (n : Nat) : State × Coil × List Dropped :=
  (tSyncS (tSyncN n)).commitFor tC (tC.actives tPl) ((tFib 0).pc + BitVec.ofNat 64 (4 * tSyncM.words)) tC.window
theorem witness_AcquireReleaseFencesOrder : ∀ n ∈ [0, 8, 9], Ready (tSyncN n) tC tPl (tFib 0) tSyncM.guard ∧
    SyncAt (tSyncN n) tC 2 true (tSyncP (tSyncN n)) (tSyncS (tSyncN n)) ∧ (tSyncW n).2.2 = [] ∧
    leNat ((tSyncS (tSyncN n)).peek ((tSyncP (tSyncN n)).pa + 8) 4) = n ∧ leNat ((tSyncW n).1.peek ((tSyncP (tSyncN n)).pa + 8) 4) = n ∧ tC.id + 1 = 8 := by
  intro n hn
  simp only [List.mem_cons, List.not_mem_nil, or_false] at hn
  rcases hn with rfl | rfl | rfl <;>
    exact ⟨ready_of (by decide +kernel), sync_of (by decide +kernel) (by decide +kernel) (by decide +kernel), by decide +kernel⟩

/-- A grid barrier of two at 0x400000 in its fifth generation: the next arrival is the first, or the last. -/
def tGrid (n : Nat) : State := tS.poke 0x400000 [BitVec.ofNat 8 n, 0, 0, 0, 5, 0, 0, 0, 2]
def tGridSeg : Seg := { va := 0x400000, pa := 0x400000, n := 16, side := false, big := true }
def tGridMain : Main := M 2 8 0 0x20F
def tGridOf (n : Nat) : List Lane × List (Nat × MemFault) × State :=
  (tGrid n).draw.2.resolveLanes tC (tC.slot 2) (tBoth 16 16 1 [0]) (tGridMain.offset1 0 tC tPl)
def tGridCommit (n : Nat) : State × Coil × List Dropped :=
  (tGridOf n).2.2.commitFor (tC.stepped tPl tGridMain.guard 2) (tC.actives tPl) ((tFib 0).pc + BitVec.ofNat 64 (4 * tGridMain.words)) 64
theorem witness_GridBarriersTurn : ∀ n ∈ [0, 1], Ready (tGrid n) tC tPl (tFib 0) tGridMain.guard ∧
    (tGridOf n).1 = [⟨0, .mem [tGridSeg] 1 true 0⟩] ∧ (tGridOf n).2.1 = [] ∧ tC.watchHit true true (tGridOf n).1 = none ∧
    (tGridCommit n).2.2.length = 0 ∧ (tGridCommit n).1.keyClash 0x400000 0 = false ∧
    (((tGridCommit n).1.touch false 0x400000 0).healRange 0x400000 16).report.peek 0x400000 16 = [BitVec.ofNat 8 n, 0, 0, 0, 5, 0, 0, 0, 2, 0, 0, 0, 0, 0, 0, 0] :=
  forall_mem_cons ⟨ready_of (by decide +kernel), by decide +kernel⟩ <| forall_mem_cons ⟨ready_of (by decide +kernel), by decide +kernel⟩ forall_mem_nil
/-- A coil with a wait of a given kind. -/
def tWaits (k : WaitKind) : Coil := { tC with waits := [{ id := 3, fibres := [0], flag := some 1, kind := k }] }
theorem witness_GridWaitEnds : let c := tWaits (.gbar 5 0x400000)
    (tWith c).coil? c.id = some c ∧ c.wait? 3 = some { id := 3, fibres := [0], flag := some 1, kind := .gbar 5 0x400000 } :=
  ⟨rfl, rfl⟩

/-- Barrier register 2: a phase of three members, with one, two and three arrivals, and one that is not ACTIVE. -/
def tBar (arr state : Nat) : Coil := { tC with b := tC.b.set 2 (BitVec.ofNat 64 (state * 2 ^ 62 + 3 * 2 ^ 43 + arr * 2 ^ 32)), s := (tC.s.set 1 1).set 2 2047 }
theorem witness_BarriersCountAndExecute : (∀ a ∈ [0, 1, 2, 3], 2 < (tBar a 1).b.length ∧ (tBar a 1).barIs 2 1 0 3 a 0) ∧ (tBar 0 0).barIs 2 0 0 3 0 0 ∧
    ((2 : Nat) + 1 = 3 ∧ (0 : Int) + 0 = 0 ∧ -(2 ^ 31) ≤ (0 : Int) + (2 ^ 31 - 1) ∧ (0 : Int) + (2 ^ 31 - 1) < 2 ^ 31 ∧ (0 : Int) + 2 ^ 31 ≥ 2 ^ 31) := by
  refine ⟨?_, by unfold Coil.barIs; decide +kernel, by decide⟩
  unfold Coil.barIs
  decide +kernel
theorem witness_BarrierInstructions : Ready (tWith (tBar 0 1)) (tBar 0 1) tPl (tFib 0) (M 2 1 0 15).guard ∧ ((tBar 0 1).getS 1).toNat = 1 ∧
    ((tBar 0 1).getS 2).toNat = 2047 ∧ (tBar 0 1).barWaited 2 = false ∧ (tWith (tBar 0 1)).barNamed (tBar 0 1) 2 = false :=
  ⟨ready_of (by decide +kernel), by decide +kernel⟩

/-- Fibres that yielded and that sleep, and a coil whose side waits for a slot of a core that is full. -/
def tIdle (st : FStatus) : Coil := { tC with fibres := [{ tFib 0 with status := st }, tFib 1] }
theorem witness_LateResultsAndWakeups : ∀ st, st = .yielded ∨ st = .asleep →
    (tWith (tIdle st)).coil? 7 = some (tIdle st) ∧ (tIdle st).resident = true ∧ ∃ f ∈ (tIdle st).fibres, f.place = .slot 0 ∧ f.status = st := by
  rintro st (rfl | rfl) <;> exact ⟨rfl, rfl, by decide +kernel⟩
/-- A coil of 65 fibres: one in each slot of the core, and one that waits on a side. -/
def tFull : Coil :=
  { tC with fibres := (List.range 64).map (fun i => { tFib i with place := .slot i }) ++ [{ tFib 64 with place := .side 5 }] }
theorem witness_Parking : (tWith tFull).coilAt 0 3 = some tFull ∧ (tWith tFull).sidesWaiting = [(7, .side 5)] ∧
    freeSlot ((tWith tFull).slotsUsed 0) = none ∧ (tWith tFull).anyAtCollective 0 = false ∧
    ((List.range 64).all fun n => ((tWith tFull).coilAt 0 n).all fun e => decide (tFull.sinceAt 3 ≤ e.sinceAt n)) = true := by decide +kernel

theorem some_of {α : Type} {x : Option α} (h : x.isSome = true) : ∃ y, x = some y := Option.isSome_iff_exists.mp h
theorem ok_ex {ε α : Type} {x : Except ε α} (h : x.isOk = true) : ∃ a, x = .ok a := by
  cases x with
  | ok a => exact ⟨a, rfl⟩
  | error e => cases h

/-- v6 and v7 hold 0, an aligned PC; all fibres end, or only fibre 0. -/
theorem witness_FibresStartAndEnd : Ready tS tC tPl (tFib 0) (M 2 6 0 0xF).guard ∧
    (∀ f ∈ tC.acting tPl (M 2 6 0 0xF).guard, (f.getVD 6).toNat % 4 = 0) ∧ tC.freeIdx = some 2 ∧
    (∃ w k, (M 2 6 0 0xF).Commits tS.draw.2 tC tPl (tFib 0) w k ∧
      { k with fibres := k.fibres.filter (fun f => !(tC.masked tPl (M 2 6 0 0xF).guard).contains f.idx) }.mismatch = none ∧
      k.fibres.filter (fun f => !(tC.masked tPl (M 2 6 0 0xF).guard).contains f.idx) = []) ∧
    Ready (tWith tC1) tC1 tPl { tFib 0 with p := 3 } (tG 0 0 0 0xF).guard ∧
    ∃ w k, (tG 0 0 0 0xF).Commits (tWith tC1).draw.2 tC1 tPl { tFib 0 with p := 3 } w k ∧
      { k with fibres := k.fibres.filter (fun f => !(tC1.masked tPl (tG 0 0 0 0xF).guard).contains f.idx) }.mismatch = none ∧
      k.fibres.filter (fun f => !(tC1.masked tPl (tG 0 0 0 0xF).guard).contains f.idx) ≠ [] :=
  ⟨ready_of (by decide +kernel), by decide +kernel, by decide +kernel, ⟨_, _, commits_of (by decide +kernel), by decide +kernel, by decide +kernel⟩,
    ready_of (by decide +kernel), _, _, commits_of (by decide +kernel), by decide +kernel, by decide +kernel⟩

/-- An RCB at 0x300000 that is ACTIVE with every cluster in its domain, and a launch packet at 0x400000 for an RCB that is NEW. -/
def tPkt : List Byte :=
  leBytes 4 (1 + 65536) ++ leBytes 4 2 ++ leBytes 8 0x200000 ++ leBytes 8 0x310000 ++ leBytes 4 0x02020101 ++ leBytes 4 16 ++ leBytes 8 0x500000
def tLS : State := ((tS.poke 0x30000F [1]).poke 0x300018 (List.replicate 8 0xFF)).poke 0x400000 tPkt
def tSpawn : Main := M 0 8 6 0xF
def tSpawned : State × Coil × List Dropped :=
  tLS.draw.2.commitFor tC (tC.actives tPl) ((tFib 0).pc + BitVec.ofNat 64 (4 * tSpawn.words)) 64
def tItem : SpawnItem := { core := 0, rcb := 0x300000, asid := 1, pc := 0, args := [1, 2, 3, 4], fctl := 0, acquire := false, spill := false }
theorem witness_Spawns : Ready tLS tC tPl (tFib 0) tSpawn.guard ∧ tSpawned.2.2.length = 0 ∧ tC.getSD 8 = 0 ∧ tC.rcb = 0x300000 ∧
    (∀ f ∈ tC.acting tPl tSpawn.guard, (f.getVD 6).toNat % 4 = 0) ∧ (tSpawned.1.pushAll 1 0x300000 [tItem, tItem]).isSome = true ∧
    tLS.eligible 1 0x300000 0 = true ∧ tLS.queuedOn 0 < 4096 ∧ (tLS.pushItem tItem).isSome = true :=
  ⟨ready_of (by decide +kernel), by decide +kernel⟩
def tLaunched : List Lane × List (Nat × MemFault) × State :=
  tLS.draw.2.resolveLanes tC (tC.slot 2) { size := 64, align := 1, write := false, spaces := [0], addrAlign := 64 } ((M 0 0 0 0x20F).offset1 (M 0 0 0 0x20F).memOff tC tPl)
theorem witness_LaunchesAndSpawnsAreAccepted : Ready tLS tC tPl (tFib 0) (M 0 0 0 0x20F).guard ∧ tLaunched.2.1 = [] ∧
    tC.watchHit true false tLaunched.1 = none ∧ ∃ w k, (M 0 0 0 0x20F).Commits tLaunched.2.2 (tC.stepped tPl (M 0 0 0 0x20F).guard 2) tPl (tFib 0) w k ∧
      (w.readPacket k tLaunched.1).1.isOk = true ∧
      ((w.readPacket k tLaunched.1).2.acceptLaunch 1 (BitVec.ofNat 512 (leNat tPkt)) 0x300000 0 none 0 false).isOk = true :=
  ⟨ready_of (by decide +kernel), by decide +kernel, by decide +kernel, _, _, commits_of (by decide +kernel), by decide +kernel, by decide +kernel⟩
theorem witness_LaunchPackets : packetBad (BitVec.ofNat 512 (leNat tPkt)) = false ∧ packetBad 0 = true ∧
    BitVec.ofNat 64 (pkt (BitVec.ofNat 512 (leNat tPkt)) 0x10 8) = 0x310000 ∧ (0x310000 : BitVec 64).toNat % 64 = 0 ∧ tLS.rcbState 1 0x310000 = 0 ∧
    2 ≤ (tLS.poke 0x31000F [2]).rcbState 1 0x310000 := by decide +kernel

/-- A coil with its engine in a given state, and s8 the last queue slot. -/
def tEng (e : EngState) : Coil := { tC with eng := e, s := tC.s.set 8 255 }
theorem witness_RegionsAndMccPrograms : Ready tS tC tPl (tFib 0) (M 2 6 0 64).guard ∧
    (tS.draw.2.commitFor tC (tC.actives tPl) ((tFib 0).pc + 8) 64).2.2.length = 0 ∧
    (Ready (tWith (tEng .idle)) (tEng .idle) tPl (tFib 0) (M 2 6 0 64).guard ∧ (tEng .idle).eng = .idle ∧ ((tEng .idle).getSD 6).toNat % 4 = 0 ∧
      ((tWith (tEng .idle)).mccWaiting 0).length < 16 ∧ ((tEng .idle).getS 8).toNat = 255 ∧
      ∃ v k, (M 2 6 0 64).Commits (tWith (tEng .idle)).draw.2 (tEng .idle) tPl (tFib 0) v k) ∧
    Ready (tWith (tEng (.halted 5))) (tEng (.halted 5)) tPl (tFib 0) (M 2 6 0 64).guard ∧
    Ready (tWith (tEng .queued)) (tEng .queued) tPl (tFib 0) (M 2 6 0 64).guard :=
  ⟨ready_of (by decide +kernel), by decide +kernel, ⟨ready_of (by decide +kernel), rfl, by decide +kernel, by decide +kernel, by decide +kernel, _, _,
    commits_of (by decide +kernel)⟩, ready_of (by decide +kernel), ready_of (by decide +kernel)⟩

/-- A future at 0x400000, and fibre 0 with a record's address in v8. -/
def tCF : Coil := { tC with fibres := [{ tFib 0 with p := 3, v := (tFib 0).v.set 8 0x400100 }, tFib 1] }
def tFut (d : Nat) : Main := tG d 6 0 0x20F
def tFLanes (n : Nat) (w : Bool) : List Lane × List (Nat × MemFault) × State :=
  (tWith tCF).draw.2.resolveLanes tCF (tCF.slot 2) { size := n, align := 1, write := w, spaces := [0], addrAlign := 32, both := w } ((tFut 8).offsets (tFut 8).memOff tCF tPl)
def tFCommit (s : State) : State × Coil × List Dropped :=
  s.commitFor (tCF.stepped tPl (tFut 8).guard 2) (tCF.actives tPl) (0x200000 + BitVec.ofNat 64 (4 * (tFut 8).words)) 64
theorem witness_FuturesExecuteAndSettle : readyB (tWith tCF) tCF { tFib 0 with p := 3, v := (tFib 0).v.set 8 0x400100 } (tFut 8).guard = true ∧
    (∀ n w, n = 16 ∧ w = false ∨ n = 32 ∧ w = true → (tFLanes n w).2.1 = [] ∧ tCF.watchHit true w (tFLanes n w).1 = none) ∧
    ((tFLanes 16 false).2.2.readLanes tCF false (tFLanes 16 false).1).2.1 = [] := by
  refine ⟨by decide +kernel, ?_, by decide +kernel⟩
  rintro n w (⟨rfl, rfl⟩ | ⟨rfl, rfl⟩) <;> decide +kernel
theorem witness_FutureCommits :
    let x : Iss := (tFut 8).issued (tWith tCF) tCF tPl { tFib 0 with p := 3, v := (tFib 0).v.set 8 0x400100 }
    let z (q : State × Coil × List Dropped) : List (Nat × MemFault) × State := q.1.spotFaults (tFLanes 32 true).1
    let y (q : State × Coil × List Dropped) : Iss := { x with s := (z q).2, c := q.2.1 }
    let q := tFCommit (tFLanes 32 true).2.2
    let r := tFCommit ({ x with s := (tFLanes 32 true).2.2 }.recordFaults 8 (tCF.acting tPl (tFut 8).guard)).2
    q.2.2.length = 0 ∧ (z q).1 = [] ∧ Res.fine ((y q).resolveLanes 8 false (tFLanes 32 true).1) = true ∧
    ({ x with s := (tFLanes 32 true).2.2 }.recordFaults 8 (tCF.acting tPl (tFut 8).guard)).1 = [] ∧
    r.2.2.length = 0 ∧ (z r).1 = [] ∧ Res.fine ((y r).registerLanes 8 false (tFLanes 32 true).1) = true := by decide +kernel
theorem witness_FutureWaits : let c := tWaits (.fwait 0 4 0x400000 0x400000)
    (tWith c).coil? c.id = some c ∧ (c.wait? 3).map Wait.kind = some (.fwait 0 4 0x400000 0x400000) ∧
    ((pbWords 4 ((tWith c).futureOf c 0 0x400000)).getD 0 0 &&& 3) = 0 ∧
    ((pbWords 4 (((tWith c).poke 0x400000 [1]).futureOf c 0 0x400000)).getD 0 0 &&& 3) ≠ 0 := by decide +kernel
theorem witness_FuturesSettleOnce : ∃ p v, tS.translate 1 0x400000 .write = (.ok p, v) ∧ p.pa % 32 = 0 ∧
    (let u := ((v.touchBy p.pa none).healRange p.pa 16).report
     leNat (u.peek p.pa 1) % 4 = 0 ∧ u.refuses p.pa = false ∧ Memory.wf u = true ∧ u.groups = List.replicate 256 Group.reset ∧ u.errqEn = false) ∧
    { v with l2keys := [{ line := 0x4000, tkey := 2, held := true }] }.keyClash p.pa 1 = true ∧
    ∃ q w, (tS.poke 0x400000 [1]).translate 1 0x400000 .write = (.ok q, w) ∧
      leNat (((w.touchBy q.pa none).healRange q.pa 16).report.peek q.pa 1) % 4 ≠ 0 :=
  ⟨_, _, xlat_of (by decide +kernel), by decide +kernel, by decide +kernel, by decide +kernel, _, _, xlat_of (by decide +kernel), by decide +kernel⟩

/-- The bytes of words. -/
def tWords (l : List Nat) : List Byte := l.flatMap (leBytes 4)
/-- A copy of one granule from offset 0 to offset 0x100 of hs2, and a gather of one element with its index at 0x80. -/
def tCpy : List Byte := tWords [0, 0, 0x100, 0, 16, 1, 0, 0, 0x12]
def tGath : List Byte := tWords [0, 0, 0x100, 0, 0x80, 0, 1, 16, 0x412]
def tDesc (l : List Byte) : BitVec 512 := BitVec.ofNat 512 (leNat l)
def tCopyM : Main := { M 0 0 0 0x20F with lit := some 0x200 }
def tCopyS (l : List Byte) : State := tS.poke 0x400200 l
def tCopyW (l : List Byte) : State × Coil × List Dropped :=
  (tCopyS l).draw.2.commitFor (tC.stepped tPl tCopyM.guard 2) (tC.actives tPl) ((tFib 0).pc + BitVec.ofNat 64 (4 * tCopyM.words)) 64
def tCopyL (l : List Byte) : List Lane × List (Nat × MemFault) × State :=
  (tCopyW l).1.resolveLanes (tCopyW l).2.1 (tC.slot 2) { size := 64, align := 64, write := false, spaces := [0, 3] } (tCopyM.offset1 tCopyM.memOff tC tPl)
def tCopyOk (k : CopyKind) (l : List Byte) : Bool :=
  readyB (tCopyS l) tC (tFib 0) tCopyM.guard && (tC.masked tPl tCopyM.guard).all tC.decl.allows &&
  decide ((tCopyW l).2.2.length = 0) && decide ((tCopyL l).2.1 = []) && decide ((tCopyW l).2.1.watchHit true false (tCopyL l).1 = none) &&
  (match (tCopyL l).2.2.readPacket (tCopyW l).2.1 (tCopyL l).1 with
    | (.ok d, u) => decide (d = tDesc l) && !(if k.isCopy then copyDescBad k d else gatherDescBad k d) && (copyWatch (tCopyW l).2.1 k d).isNone
        && (slotsTrap (tCopyW l).2.1 k d).isNone && (u.tileTrap (tCopyW l).2.1 k d).isNone && (tC.slot (ctrlSslot d)).isSome
    | _ => false)
theorem witness_CopyInstructionsExecute : tCopyOk .cpy tCpy = true ∧ tCopyOk .gath tGath = true ∧
    ((tCopyS tCpy).copies.filter (fun k => k.core = tC.core)).length < 32 := by decide +kernel
/-- CPYC's forms: the last part of g0, whose groups are of 32. -/
theorem witness_ProducerDeclarations : Ready tS tC tPl (tFib 0) (M 2 8 0 0x10F).guard ∧ (M 2 8 0 0x10F).mod = 1 ∧ (M 2 8 0 0x20F).mod = 2 ∧
    (M 2 8 0 0x30F).mod = 3 ∧ (M 2 8 0 0x0F).mod = 0 ∧ grpValid (tC.g.getD 0 0) = true ∧ (tC.getS 8).toNat * grpSize (tC.g.getD 0 0) < grpCount (tC.g.getD 0 0) :=
  ⟨ready_of (by decide +kernel), by decide +kernel⟩

/-- A command with its granule or element still to do, before it starts and in progress, and one with an index past the table. -/
def tCmd (kind : CopyKind) (d : List Byte) (started : Bool) (todo : List Nat) : CopyCmd :=
  { id := 3, kind := kind, core := 0, coil := 7, launch := 0, asid := 1, task := 0, desc := tDesc d, src := (tH 2).getD tC.scratchHandle, lin := tH 2,
    idx := tH 2, cpl := none, started := started, drain := false, todo := todo, faults := [], dests := [], destFaults := [] }
def tCmdS (k : CopyCmd) : State := { tS with copies := [k] }
def tCmdBad (k : CopyCmd) : State := (tCmdS k).poke 0x400080 [0xFF, 0xFF]
theorem witness_CopyEnginesMoveBytes : let k := tCmd .cpy tCpy false []
    (tCmdS k).copy? 3 = some k ∧ (tCmdS k).copyReady k = true ∧ k.drain = false ∧ k.asks = false ∧
    (tCmd .gath tGath false []).asks = true ∧ (tCmdS (tCmd .gath tGath false [])).copyReady (tCmd .gath tGath false []) = true ∧
    (tCmd .cpy tCpy true []).started = true ∧ (tCmd .cpy tCpy true []).todo = [] := by decide +kernel
theorem epair_of {ε α β : Type} {x : Except ε α × β} {d : α} (h : x.1.isOk = true) : x = (.ok (okOf x.1 d), x.2) := Prod.ext (ok_of h) rfl
theorem witness_CopyGranules : let k := tCmd .cpy tCpy true [0]
    (tCmdS k).coil? k.coil = some tC ∧ 0 ∈ k.todo ∧ k.faults = [] ∧ k.midChunk 0 = false ∧ ∃ b v u w,
      (tCmdS k).readGranules tC k (k.together 0) = (.ok b, v) ∧
      v.engWrite 7 ((tH 2).getD tC.scratchHandle) (k.granule 0).2 b = (.ok u, w) :=
  ⟨rfl, by decide +kernel, rfl, by decide +kernel, _, _, _, _, epair_of (d := []) (by decide +kernel), epair_of (d := ()) (by decide +kernel)⟩
def found (x : Located) : Bool := match x with | .at_ _ _ _ => true | .fault _ _ _ _ => false
def tGathK : CopyCmd := tCmd .gath tGath true [0]
theorem tGath_due : (tCmdS tGathK).elementDue tC tGathK 0 = true := rfl
theorem witness_GatherElements : let k := tGathK
    (tCmdS k).elementDue tC k 0 = true ∧ found ((tCmdS k).locate tC k 0) = true ∧
    found ((tCmdBad k).locate tC k 0) = false ∧
    (match (tCmdS k).locate tC k 0 with
      | .at_ t l v => (match (l.foldl (fun s n => s.engTake k.asid k.src.tkey n) v).engRead tC k.src (BitVec.ofNat 64 t) 16 with
          | (.ok b, w) => (w.putLinear k 0x100 b).1.isOk | _ => false) | _ => false) = true ∧
    (match (tCmdS k).locate tC k 0 with
      | .at_ t l v => (match (l.foldl (fun s n => s.engTake k.asid k.src.tkey n) v).getLinear tC k 0x100 with
          | (.ok b, w) => (w.engWrite 7 k.src (BitVec.ofNat 64 t) b).1.isOk && (w.applyWords k tC 5 t b).1.isOk && !b.any Prod.snd | _ => false) | _ => false) = true := by
  refine ⟨tGath_due, ?_, ?_, ?_, ?_⟩ <;> decide +kernel

/-- Tile 0 of F32 with four columns, tile 1 of F16 with 32, and an idle accumulator; the data registers end the window. -/
def tTile (n rec : Nat) : Tile := { num := n, record := BitVec.ofNat 64 rec, bytes := [], poison := [] }
def tCT : Coil := { tC with
  tiles := [tTile 0 (127 * 2 ^ 15 + 3 * 2 ^ 22 + 9 * 2 ^ 29), tTile 1 (127 * 2 ^ 15 + 31 * 2 ^ 22 + 7 * 2 ^ 29)]
  s := (tC.s.set 8 (3 * 2 ^ 21)).set 9 (3 * 2 ^ 21 + 120 * 2 ^ 13 + 1) }
theorem witness_TileFeedingExecutes : Ready (tWith tCT) tCT tPl (tFib 0) (M 0 60 8 0xF).guard ∧
    (tCT.tile? (feedIdx (tCT.getS 8))).isSome = true ∧ feedBad (tCT.getS 8) = false ∧ feedC (tCT.getS 8) = 4 ∧ feedRaw (tCT.getS 8) = false ∧
    recInvalid (127 * 2 ^ 15 + 3 * 2 ^ 22 + 9 * 2 ^ 29) = false ∧ (tWith tCT).tileHeld tCT 0 = false ∧
    (∀ f ∈ tCT.acting tPl (M 0 60 8 0xF).guard, feedRowOk (127 * 2 ^ 15 + 3 * 2 ^ 22 + 9 * 2 ^ 29) (tCT.getS 8) (f.getV 0).toNat = true) ∧
    (tCT.tile? (feedIdx (tCT.getS 9))).isSome = true ∧ (tWith tCT).tileHeld tCT 1 = false ∧ fmtBits 7 = 16 ∧
    feedOff (tCT.getS 9) + 32 * feedC (tCT.getS 9) / 16 = 128 ∧ (∀ f ∈ tCT.acting tPl (M 0 60 8 0xF).guard, (f.getV 0).toNat < 32) ∧
    (tCT.acc? 0).map Acc.st = some .idle ∧ feedOff (tCT.getS 8) + feedC (tCT.getS 8) ≤ 128 :=
  ⟨ready_of (by decide +kernel), by decide +kernel⟩

/-- 12_scout.md, the worked pass: its tiles, its descriptor in s8 to s15 and its TMASK words in s20 and s21. -/
def tCS : Coil := { tC with
  tiles := [tTile 4 (2 ^ 15 + 15 * 2 ^ 22 + 7 * 2 ^ 29), tTile 5 (2 ^ 15 + 2 * 2 ^ 22 + 9 * 2 ^ 29 + 1), tTile 6 (9 * 2 ^ 29)]
  s := [0, 0, 0, 0, 0, 0, 0, 0, 0, 0, 0x069000BF, 16, 0x3E800000, 0, 0x18A4, 0, 0, 0, 0, 0, 0x010000C5, 0x40000000] ++ List.replicate 42 0 }
theorem witness_ScoutsAndMasksExecute : Ready (tWith tCS) tCS tPl (tFib 0) (M 2 0 8 0x200).guard ∧
    (tWith tCS).scoutTiles tCS (tCS.getSs 8 8) = false ∧ tCS.scoutBad (tCS.getSs 8 8) = false ∧ tCS.keyTrap 2 (tCS.getSs 8 8) = none ∧
    (tCS.slot 2).isSome = true ∧ ((tWith tCS).scouts.filter (fun k => k.core = tCS.core)).length < 8 ∧
    (tCS.tile? 5).isSome = true ∧ (tCS.tile? 6).isSome = true ∧ recInvalid (tCS.record 5) = false ∧ recFmt (tCS.record 5) = 9 ∧ recBlk (tCS.record 5) = 0 ∧
    (tCS.getS 20).toNat % 32 = 5 ∧ (tCS.getS 20).toNat / 32 % 32 = 6 ∧ (tCS.getS 20).toNat < 2 ^ 30 ∧
    (tCS.getS 20).toNat / 2 ^ 23 % 128 + 1 = recCols (tCS.record 5) ∧ (tCS.getS 20).toNat / 2 ^ 10 % 4096 * 16 + 512 ≤ 65536 ∧
    finiteW (tCS.getS 21) = true ∧ (tCS.getS 21).getLsbD 31 = false ∧ (tWith tCS).scoutPending tCS (tCS.actives tPl) [5, 6] = false ∧
    tCS.tmaskBad (tCS.getS 20) = false :=
  ⟨ready_of (by decide +kernel), by decide +kernel⟩
/-- A command of one key at the head of its core's queue. -/
def tScout : ScoutCmd :=
  { core := 0, coil := 7, pc := 0x200000, fibres := [0, 1], flag := some 0, key := (tH 2).getD tC.scratchHandle, task := 0,
    desc := [0, 0, 0x06900000, 16, 0x3E800000, 0, 0x18A4, 0] }
def tScoutS : State := { tWith tCS with scouts := [tScout] }
def tNoPower : State := { tScoutS with buckets := tScoutS.buckets.map (fun b => { b with tokens := 0 }) }
def tLeft : State := { (tScoutS.leave 0 .scout (tCS.scoutClass tScout.desc) 7).2 with scouts := [] }
theorem witness_ScoutsRunAndMasksKeep : tScoutS.scouts.find? (fun e => e.core = 0) = some tScout ∧ tScoutS.coil? 7 = some tCS ∧ tCS.st = .running ∧
    (tScoutS.leave 0 .scout (tCS.scoutClass tScout.desc) 7).1 = true ∧ tCS.scoutPoison tScout.desc = false ∧
    (tLeft.readKeys tCS tScout (scKfmt tScout.desc) (recCols (tCS.record 4)) (List.range (scNk tScout.desc))).2.1 = none ∧
    (tNoPower.leave 0 .scout (tCS.scoutClass tScout.desc) 7).1 = false := by decide +kernel

/-- 13_surrogate.md, the worked call: the image of x² on [0, 2] and its predictor. -/
def tImage : List Byte := tWords
  [0x53470001, 0x01010101, 144, 0xC95A023B, 0x00010005, 0, 0, 0x40000000, 0, 0, 0x40, 0x60, 0, 0, 0, 0,
   0, 0x3E800000, 0x3F800000, 0x40100000, 0x40800000, 0, 0, 0,
   0, 0x40000000, 0, 0, 0x00010004, 0, 0, 0, 0x3D800000, 0x3D800000, 0x3D800000, 0x3E000000]
theorem test_image : Image.ok tImage = true ∧ Image.eval tImage [0x3F400000] = some [0x3F200000] ∧ Image.eval tImage [0x3FE00000] = some [0x40480000] ∧
    Image.eval tImage [0x40200000] = none ∧ Image.eval tImage [0x3F800000] = some [0x3F800000] := by decide +kernel
/-- A slot with the image and a recovery PC, an MLP-free call of three lanes: one accepted, one above the bound 0.1, one out of domain. -/
def tSlot : SgSlot := { SgSlot.empty with st := .loaded, addr := 0x400000, asid := 1, image := tImage, recPc := 0x200100 }
def tQ : DWord := 0x3DCCCCCD
def tCall (slot : SgSlot) (q : DWord) : SgCall :=
  { core := 0, coil := 7, pc := 0x200000, seq := 0, sg := 1, slot := slot, q := q, dev := false, flag := 3, dreg := 63, lanes := [(0, [0x3F400000], 0)] }
theorem test_call : ((tCall tSlot tQ).decide [0x3F400000]).res = [0x3F200000] ∧ ((tCall tSlot tQ).decide [0x3F400000]).answer = true ∧
    ((tCall tSlot tQ).decide [0x3FE00000]).answer = false ∧ ((tCall tSlot tQ).decide [0x40200000]).answer = false := by decide +kernel

def tSgS : State := (tS.poke 0x400000 tImage).poke 0x300038 [1]
def tSgLoad : Main := M 1 0 0 0x200
def tSgCommit : State × Coil × List Dropped :=
  tSgS.draw.2.commitFor (tC.stepped tPl tSgLoad.guard 2) (tC.actives tPl) ((tFib 0).pc + BitVec.ofNat 64 (4 * tSgLoad.words)) 64
def tSgLanes : List Lane × List (Nat × MemFault) × State :=
  tSgCommit.1.resolveLanes tSgCommit.2.1 (tC.slot 2) { size := 64, align := 16, write := false, spaces := [0] } [(0, 0)]
def tSgIss (s : State) : Iss := { tSgLoad.issued tSgS tC tPl (tFib 0) with s := s, c := tSgCommit.2.1.sgFree 1 }
theorem witness_SurrogateLoads : readyB tSgS tC (tFib 0) tSgLoad.guard = true ∧ tSgLoad.offset1 0 tC tPl = [(0, 0)] ∧ tSgLanes.2.1 = [] ∧
    tSgCommit.2.1.watchHit true false tSgLanes.1 = none ∧ tSgCommit.2.2.length = 0 ∧ (tSgLanes.2.2.sgCached 0 1 0x400000).1 = none ∧
    (match (tSgIss (tSgLanes.2.2.sgCached 0 1 0x400000).2).sgRead (tC.slot 2) 0 64 with
      | (.ok hd, u) => !hd.any Prod.snd && Image.size (hd.map Prod.fst) = 144 &&
          (match (tSgIss u).sgRead (tC.slot 2) 0 144 with | (.ok l, _) => l.map Prod.fst = tImage && !l.any Prod.snd | _ => false)
      | _ => false) = true ∧ sgSizeOk 144 = true ∧ Image.ok tImage = true := by decide +kernel
/-- The slot in sg1, a bound in q2, and arguments and results in the last register of the window. -/
def tCG : Coil := { tC with sg := tC.sg.set 1 tSlot, q := tC.q.set 2 tQ }
def tSgCS : State := { tSgS with coils := [tCG] }
theorem witness_SurrogateInstructionsExecute : Ready tSgCS tCG tPl (tFib 0) (M 63 63 0x11 3).guard ∧ (tCG.sgSlot 1).st = .loaded ∧
    (63 + Image.nin (tCG.sgSlot 1).image = 64 ∧ 63 + Image.nout (tCG.sgSlot 1).image = 64) ∧ (tCG.sgSlot 1).recPc ≠ 0 ∧ (tCG.sgSlot 1).stale = false ∧
    (tSgCS.sgcalls.filter (fun e => e.core = tCG.core)).length < 16 ∧ tSgCS.sgLoadOf 0 + (tCG.masked tPl (M 63 63 0x11 3).guard).length ≤ 4096 ∧
    (tCG.getSD 0).toNat % 4 = 0 ∧ partWblk tCG.partw + partSblk tCG.partw + partAblk tCG.partw +
      (partWblk (tSgCS.rcbSppartw 1 0x300000) + partSblk (tSgCS.rcbSppartw 1 0x300000) + partAblk (tSgCS.rcbSppartw 1 0x300000)) ≤ 128 ∧
    max (max (Image.nin tImage) (Image.nout tImage)) 2 ≤ 8 * tSgCS.rcbSpwin 1 0x300000 ∧ qBad (tCG.getSD 0) = false ∧
    (M 0 0 0 0x10F).mod = 1 ∧ (M 0 0 0 0x0F).mod ≠ 1 :=
  ⟨ready_of (by decide +kernel), by decide +kernel⟩
/-- A call at the head of its queue, whose slot has loaded or has not; a table's call asks for no power. -/
def tCallS (st : SgState) : State := { tWith { tC with sg := tC.sg.set 1 { tSlot with st := st } } with sgcalls := [tCall tSlot tQ] }
theorem witness_SurrogateCallsAreAnswered : (tCallS .loaded).sgcalls.find? (fun e => e.core = 0) = some (tCall tSlot tQ) ∧
    (∃ c, (tCallS .loading).coil? 7 = some c ∧ (c.sgSlot 1).st = .loading) ∧ (∃ c, (tCallS .loaded).coil? 7 = some c ∧ (c.sgSlot 1).st ≠ .loading) ∧
    (tCall tSlot tQ).cls = 0 :=
  ⟨by decide +kernel, ⟨_, rfl, by decide +kernel⟩, ⟨_, rfl, by decide +kernel⟩, by decide +kernel⟩
/-- Lanes that recover with and without a recovery PC, and one that does not. -/
theorem witness_LanesAreDecided : Image.eval tImage [0x40200000] = none ∧ tSlot.recPc ≠ 0 ∧ { tSlot with recPc := 0 }.recPc = 0 ∧
    Image.eval tImage [0x3F400000] ≠ none ∧ qMode tQ = 0 ∧ tSlot.dis = false ∧ (fval (qBound tQ)).lt (Image.pred tImage [0x3F400000]) = false ∧
    (fval (qBound tQ)).lt (Image.pred tImage [0x3FE00000]) = true := by decide +kernel
/-- A recovery coil of one fibre that answers fibre 0 of coil 7. -/
def tEntry : RecEntry :=
  { coil := 7, fibre := 0, seq := 0, callPc := 0x200000, dreg := 12, sg := 1, nin := 1, nout := 1, flags := 2, rpc := 0x200100, args := [0x40200000],
    sval := [], bound := 0x3DCCCCCD, fctl := 0, flag := 3 }
def tRF : Fibre := { tFib 0 with recov := some tEntry }
def tRC : Coil := { tC with id := 8, recOf := some 7, fibres := [tRF] }
def tRS : State := { tS with coils := [tCG, tRC], turn := .plait 8 tPl }
theorem witness_MergesDeliver : Recovers tRS tRC (tRS.lend tRC) tPl tRF (M 0 4 0 0xF).guard ∧ (tRS.lend tRC).insts = [] ∧
    (∀ f ∈ (tRS.lend tRC).fibres, ∀ p k, f.status ≠ .held p k) ∧
    (∀ f ∈ (tRS.lend tRC).acting tPl (M 0 4 0 0xF).guard, ∃ e, f.recov = some e ∧ 4 + e.nout ≤ (tRS.lend tRC).window) := by
  refine ⟨⟨rfl, by decide +kernel, rfl, rfl, by decide +kernel, by decide +kernel, by decide +kernel, by decide +kernel⟩, by decide +kernel, ?_, ?_⟩
  · have h : (tRS.lend tRC).fibres = [tRF] := by decide +kernel
    intro f hf p k
    rw [h, List.mem_singleton] at hf
    subst hf
    exact FStatus.noConfusion
  · have h : (tRS.lend tRC).acting tPl (M 0 4 0 0xF).guard = [tRF] := by decide +kernel
    intro f hf
    rw [h, List.mem_singleton] at hf
    subst hf
    exact ⟨tEntry, rfl, by decide +kernel⟩

/-- Group 3: four members, this device rank 1, 64 stripes; s2 names it, and s4 and s5 the last stripe. -/
def tSurv (st : Nat) (lost acked : List Nat) : State :=
  ((tWith { tC with s := ((tC.s.set 2 3).set 4 63).set 5 1 }).poke 0x60300
    (tWords [0x00010401, 1, 0x400000, 0, 0x30000, 0, 0x600000, 0, 0x00080007, 0x000A0009, 0, 0, 0, 0, 0, 0, 0x700000])).setGrp 3
      { Group.reset with st := st, lost := lost, sent := List.replicate 16 1, acked := acked, applied := List.replicate 16 (some 0) }
def tSurvS (st : Nat) (lost acked : List Nat) : State :=
  { tSurv st lost acked with regs := { tS.regs with survbase := 0x60000 } }
def tCV : Coil := { tC with s := ((tC.s.set 2 3).set 4 63).set 5 1 }
def tOnes : List Nat := List.replicate 16 1
def tZeros : List Nat := List.replicate 16 0
theorem witness_SurvivableInstructionsExecute : readyB (tSurvS 1 [] tOnes) tCV (tFib 0) (M 1 2 4 2).guard = true ∧
    readyB (tSurvS 3 [1] tZeros) tCV (tFib 0) (M 1 2 4 2).guard = true ∧ (tCV.getS 2).toNat = 3 ∧ (tCV.getS 5).toNat = 1 ∧
    (tCV.getS 4).toNat + 1 = (tSurvS 1 [] tOnes).groupNs 3 ∧ ((tSurvS 1 [] tOnes).grp 3).st = 1 ∧ (tSurvS 1 [] tOnes).pwaitDone 3 tOnes = some true ∧
    (tSurvS 3 [1] tZeros).pwaitDone 3 tOnes = none ∧ ((tSurvS 3 [1] tZeros).grp 3).st = 3 ∧ (tSurvS 3 [1] tZeros).groupRank 3 = 1 ∧
    tCV.asid.toNat = leNat ((tSurvS 3 [1] tZeros).peek ((tSurvS 3 [1] tZeros).groupAt 3 + 4) 2) := by decide +kernel
theorem witness_SurvivableMemoryIsKept : tOnes.length = ((tSurvS 1 [] tOnes).grp 3).acked.length ∧
    (let c := tWaits (.pwait 2 3 tOnes (some 1024))
     (tWith c).coil? c.id = some c ∧ (c.wait? 3).map Wait.kind = some (.pwait 2 3 tOnes (some 1024))) ∧
    (let s := tSurvS 1 [] tOnes
     (s.grp 3).st = 1 ∧ 5 % s.groupG 3 = s.groupRank 3 ∧ (s.grp 3).applied.getD 0 none = some 0 ∧ s.groupRank 3 ∉ (s.grp 3).lost ∧ 3 < s.groups.length ∧
       1 ≤ (s.grp 3).sent.getD 15 0 ∧ s.deltas = [] ∧ s.sectorPoisoned (s.ownSector 3 5 0 / 32) = false) := by decide +kernel
/-- SURVCTL words for group 3: ACTIVATE, REPLACE of rank 1 by device 5, DEACTIVATE. -/
theorem witness_GroupsChangeState : let w (op : Nat) : BitVec 64 := BitVec.ofNat 64 (1 + 2 * op + 3 * 256 + 2 ^ 44 + 5 * 2 ^ 48)
    (∀ op, op = 1 ∨ op = 2 ∨ op = 3 → (w op).getLsbD 0 = true ∧ survOp (w op) = op ∧ survGroup (w op) = 3 ∧ (w op).getLsbD 4 = false) ∧
    survRank (w 2) = 1 ∧ ((tSurvS 0 [] tZeros).grp 3).st = 0 ∧ (tSurvS 0 [] tZeros).groupBad 3 = false ∧ ((tSurvS 2 [1] tZeros).grp 3).st = 2 ∧
    1 ∈ ((tSurvS 2 [1] tZeros).grp 3).lost ∧ 1 ∉ ((tSurvS 2 [0] tZeros).grp 3).lost := by
  refine ⟨?_, by decide +kernel⟩
  rintro op (rfl | rfl | rfl) <;> decide +kernel
/-- Scrubs of each kind on a stripe whose parity is here, in the first and the last sector of its unit, with an outstanding delta and without. -/
def tScrub (kind stripe off : Nat) : Scrub :=
  { id := 77, coil := 7, fibres := [], flag := none, deliver := true, kind := kind, group := 3, sd := 4, stripe := stripe, left := 2, off := off, count := 0,
    extra := 0xFFFFFFFF, task := 0 }
def tHealed (s : State) : State := (s.healRange (s.ownSector 3 5 0) 32).report
theorem witness_ScrubsWorkBySector : let s (k : Scrub) : State := { tSurvS 4 [1] tZeros with scrubs := [k] }
    (∀ k, (s k).scrubs.find? (fun e => e.id = k.id) = some k) ∧ (∃ k : Scrub, k.kind = 0) ∧
    5 % (s (tScrub 1 5 0)).groupG 3 = (s (tScrub 1 5 0)).groupRank 3 ∧ (s (tScrub 1 5 0)).errqEn = false ∧ ((s (tScrub 2 5 0)).grp 3).st = 4 ∧
    5 ∉ ((s (tScrub 2 5 0)).grp 3).lostStripes ∧ 4032 + 32 < 4096 ∧ 4096 ≤ 4064 + 32 ∧ 1 < (tScrub 1 5 0).left ∧
    [(1 : BitVec 256), 1, 0].length + 1 = (s (tScrub 0 5 0)).groupG 3 ∧ (s (tScrub 0 5 0)).deltas = [] ∧
    leSector ((tHealed (s (tScrub 0 5 0))).peek ((tHealed (s (tScrub 0 5 0))).ownSector 3 5 0) 32) = [(1 : BitVec 256), 1, 0].foldl (· ^^^ ·) 0 ∧
    leSector ((tHealed (s (tScrub 0 5 0))).peek ((tHealed (s (tScrub 0 5 0))).ownSector 3 5 0) 32) ≠ [(1 : BitVec 256), 0, 0].foldl (· ^^^ ·) 0 ∧
    (∃ d : Delta, d.group = 3 ∧ d.stripe = 5 ∧ d.off = 0) :=
  ⟨fun k => by simp, ⟨tScrub 0 5 0, rfl⟩, by decide +kernel, by decide +kernel, rfl, by decide +kernel, by decide, by decide, by decide,
    by decide +kernel, rfl, by decide +kernel, by decide +kernel, ⟨⟨3, 0, 1, 5, 0, 0⟩, rfl, rfl, rfl⟩⟩
theorem witness_Reconstruction : let s := (tSurvS 1 [] tOnes).setPoison (0x400000 / 32) true
    (s.grp 3).st = 1 ∧ s.sectorPoisoned (0x400000 / 32) = true ∧ s.inGroup 3 (32 * (0x400000 / 32)) = true ∧ 3 + 1 = s.groupG 3 := by decide +kernel

/-- A coil with a handler at 0x200100 for the classes of hmask, debugged or not, in thread code or in the handler, with a system-call ring of two. -/
def tT (hmask : BitVec 16) (dbg h : Bool) : Coil :=
  { tC with
    trap := { hvec := 0x200100, sysring := 0x402000, hmask := hmask, dbg := dbg, syslog := 1 }
    fibres := tC.fibres.map (fun f => { f with handler := h, epc := 0x200010 }) }
def tTF (h : Bool) : Fibre := { tFib 0 with handler := h, epc := 0x200010 }
theorem ready_tT (d h : Bool) : Ready (tWith (tT 1 d h)) (tT 1 d h) tPl (tTF h) (M 0 0 0 5).guard := by
  cases d <;> cases h <;> exact ready_of (by decide +kernel)
/-- No fibre of these coils recovers, and all of them run the handler, or none. -/
theorem tT_thread (m : BitVec 16) (d h : Bool) : ∀ f ∈ (tT m d h).fibres, f.recov = none ∧ f.handler = h := by
  have e : (tT m d h).fibres = [tTF h, { tFib 1 with handler := h, epc := 0x200010 }] := rfl
  intro f hf
  rw [e] at hf
  simp only [List.mem_cons, List.not_mem_nil, or_false] at hf
  rcases hf with rfl | rfl <;> exact ⟨rfl, rfl⟩
theorem witness_TrapsAndReturns : (∃ v k, (M 0 0 0 5).Commits (tWith (tT 1 false false)).draw.2 (tT 1 false false) tPl (tTF false) v k) ∧
    (∀ d h, Ready (tWith (tT 1 d h)) (tT 1 d h) tPl (tTF h) (M 0 0 0 5).guard) ∧ (tT 1 false false).trap.hvec ≠ 0 ∧
    (tT 1 false false).trap.hmask.getLsbD 0 = true ∧ (tT 1 true false).trap.dbg = true ∧ tPl ∉ (tT 1 true false).ignoreWatch ∧
    (∀ f ∈ (tT 1 false false).acting tPl (M 0 0 0 5).guard, f.handler = false) ∧ (∀ f ∈ (tT 1 false true).acting tPl (M 0 0 0 5).guard, f.handler = true) ∧
    ∃ c, Ready (tWith c) c tPl (tTF false) (M 0 0 0 5).guard ∧ c.trap.dbg = true ∧ tPl ∈ c.ignoreWatch :=
  ⟨⟨_, _, commits_of (by decide +kernel)⟩, ready_tT, by decide, by decide, rfl, by decide +kernel, by decide +kernel, by decide +kernel,
    ⟨{ tT 1 true false with ignoreWatch := [tPl] }, ready_of (by decide +kernel), rfl, by decide +kernel⟩⟩
/-- An integer-class fault that goes to the handler, one whose class the mask leaves out, and one in the handler. -/
theorem witness_ExceptionsEnterTheHandler : (∀ m h, (tWith (tT m false h)).coil? (tT m false h).id = some (tT m false h)) ∧
    (Trap.of 0x001).delivery = .handler ∧ (tT 1 false false).trap.hmask.getLsbD (0x001 / 256) = true ∧ (tT 0 false false).trap.hmask.getLsbD (0x001 / 256) = false ∧
    (∃ f ∈ (tT 1 false true).fibres, f.idx ∈ [0, 1] ∧ f.handler = true) ∧ ¬ ∃ f ∈ (tT 1 false false).fibres, f.idx ∈ [0, 1] ∧ f.handler = true :=
  ⟨fun _ _ => rfl, by decide, by decide, by decide, by decide +kernel, by decide +kernel⟩

/-- RDSR in each fibre and once, WRSR of FSTAT and, in the handler, of EPC, WATCH off and on, and each counter. -/
theorem witness_SystemInstructionsExecute : Ready tS tC tPl (tFib 0) (M 4 6 0 0x20F).guard ∧ (M 4 6 0 0x10F).mod < 2 ∧ 2 ≤ (M 4 6 0 0x20F).mod ∧
    (tC.lowest tPl (M 4 6 0 0x20F).guard).isSome = true ∧ (M 4 6 0 15).b.toNat < 2 ∧ (M 4 6 12 15).b.toNat = 0xC ∧
    Ready (tWith (tT 1 false true)) (tT 1 false true) tPl (tTF true) (M 4 6 12 15).guard ∧
    (M 1 0 0 15).d.toNat / 4 % 4 = 0 ∧ (M 5 0 0 15).d.toNat / 4 % 4 ≠ 0 :=
  ⟨ready_of (by decide +kernel), by decide +kernel, by decide +kernel, by decide +kernel, by decide +kernel, by decide +kernel, ready_of (by decide +kernel),
    by decide +kernel, by decide +kernel⟩
def tCW : Coil := { tC with s := tC.s.set 9 16 }
theorem witness_Watch : ∃ h p v, Ready (tWith tCW) tCW tPl (tFib 0) (M 5 0 9 0x20F).guard ∧ tCW.slot (M 5 0 9 0x20F).mod = some h ∧
    tCW.getS (M 5 0 9 0x20F).b.toNat ≠ 0 ∧ (tWith tCW).draw.2.resolveAt tCW (some h)
      { size := (tCW.getS 9).toNat, align := 1, write := false, spaces := [0, 3] } ((tCW.getS 0).setWidth 64) = (.ok p, v) := by
  obtain ⟨p, hp⟩ := ok_ex (x := ((tWith tCW).draw.2.resolveAt tCW (tCW.slot 2)
    { size := (tCW.getS 9).toNat, align := 1, write := false, spaces := [0, 3] } ((tCW.getS 0).setWidth 64)).1) (by decide +kernel)
  exact ⟨_, p, _, ready_of (by decide +kernel), rfl, by decide +kernel, Prod.ext hp rfl⟩
/-- SYSC with both lanes at 0x400000: an empty ring, one with room for one, and a full one. -/
def tSysS (n : Nat) : State := (tWith (tT 1 false false)).poke 0x402000 [BitVec.ofNat 8 n]
def tSysM : Main := M 4 3 0 0x20F
def tSysL (n : Nat) : List Lane × List (Nat × MemFault) × State :=
  (tSysS n).draw.2.resolveLanes (tT 1 false false) ((tT 1 false false).slot 2) { size := 64, align := 64, write := true, spaces := [0] }
    (tSysM.offsets tSysM.memOff (tT 1 false false) tPl)
def tSysC (n : Nat) : State × Coil × List Dropped :=
  (tSysL n).2.2.commitFor ((tT 1 false false).stepped tPl tSysM.guard 2) ((tT 1 false false).actives tPl) (0x200000 + BitVec.ofNat 64 (4 * tSysM.words)) 64
/-- What posting the entries leaves over. -/
def tSysP (n : Nat) : State × List (Nat × BitVec 64) :=
  (Iss.touches { tSysM.issued (tSysS n) (tT 1 false false) tPl (tTF false) with s := ((tSysC n).1.spotFaults (tSysL n).1).2 } (tSysL n).1).s.postEntries
    (tSysC n).2.1 4 ((tSysL n).1.map (fun i => (i.fibre, i.spot.va)))
theorem witness_SystemCallsPost : (∀ n ∈ [0, 1, 2], Ready (tSysS n) (tT 1 false false) tPl (tTF false) tSysM.guard ∧ (tSysL n).2.1 = [] ∧
      (tT 1 false false).watchHit false true (tSysL n).1 = none ∧ (tSysL n).1.length = 2) ∧ (tT 1 false false).trap.syslog ≠ 0 ∧
    (tSysL 2).2.2.vnat 1 0x402000 8 = 2 ∧ (tSysC 0).2.2.length = 0 ∧ (tSysC 1).2.2.length = 0 ∧
    ((tSysC 0).1.spotFaults (tSysL 0).1).1 = [] ∧ ((tSysC 1).1.spotFaults (tSysL 1).1).1 = [] ∧ (tSysP 0).2 = [] ∧ (tSysP 1).2 ≠ [] := by
  refine ⟨forall_mem_cons ⟨ready_of (by decide +kernel), by decide +kernel⟩ <| forall_mem_cons ⟨ready_of (by decide +kernel), by decide +kernel⟩ <|
    forall_mem_cons ⟨ready_of (by decide +kernel), by decide +kernel⟩ forall_mem_nil, by decide +kernel⟩
/-- Coil commands for coil 7 of ASID 1 with each operation, while one is in progress and while none is; coils in each state. -/
def tCmdWord (op : Nat) : DWord := BitVec.ofNat 64 (1 + 2 * op + 2 ^ 20 + 7 * 2 ^ 32)
def tIn (st : CoilState) : Coil := { tC with st := st }
theorem witness_CoilCommandsAct : (∀ op ∈ [1, 2, 3, 4, 5, 6], (tCmdWord op).getLsbD 0 = true ∧ (tCmdWord op).toNat / 2 % 8 = op) ∧
    tS.regs.coilcmd.getLsbD 0 = false ∧ State.reset.cmdCoil (tCmdWord 1) = none ∧
    ((tWith (tIn .running)).cmdCoil (tCmdWord 1) = some (tIn .running) ∧ (tWith (tIn .stopped)).cmdCoil (tCmdWord 1) = some (tIn .stopped) ∧
      (tWith (tIn (.saved true))).cmdCoil (tCmdWord 1) = some (tIn (.saved true)) ∧
      (tWith (tIn (.saved false))).cmdCoil (tCmdWord 1) = some (tIn (.saved false))) ∧
    (tIn .running).leaves = false ∧ (tIn .stopped).steps ≠ [] ∧
    (∃ c, (tWith c).cmdCoil (tCmdWord 1) = some c ∧ c.st = .running ∧ (((tWith c).save c none true false).coil? 7).any Coil.leaves = true) ∧
    ∃ s : State, s.regs.coilcmd.getLsbD 0 = true :=
  ⟨by decide +kernel, by decide +kernel, by decide +kernel, by decide +kernel, by decide +kernel, by decide +kernel,
    ⟨tWaits (.sysc 4 [(0, 0x400000)]), by decide +kernel⟩, ⟨{ tS with regs := { tS.regs with coilcmd := 1 } }, rfl⟩⟩
/-- A coil all of whose fibres wait in a collective that others never reach, with KILL and without, and one that runs. -/
def tDead (chk : Word) : Coil := { tC with chk := chk, fibres := tC.fibres.map (fun f => { f with status := .arrived 3 }) }
theorem witness_DeadlocksAreReported : ((tWith (tDead 0x81)).coil? 7 = some (tDead 0x81) ∧ (tWith (tDead 1)).coil? 7 = some (tDead 1)) ∧
    (tWith (tDead 0x81)).deadlocked (tDead 0x81) = true ∧ (tWith (tDead 1)).deadlocked (tDead 1) = true ∧ (tDead 1).deadlock = false ∧
    (tDead 1).st ≠ .ended ∧ (tDead 0x80).chk.toNat % 32 = 0 ∧ tS.deadlocked tC = false ∧ (tDead 0x81).chk.getLsbD 7 = true ∧ (tDead 1).chk.getLsbD 7 = false :=
  ⟨⟨rfl, rfl⟩, by decide +kernel, by decide +kernel, rfl, by decide, by decide +kernel, by decide +kernel, by decide +kernel, by decide +kernel⟩

/-! ## The MCC and its engines -/

/-- Two F16 tiles and one of F32, an opened F32 accumulator and an idle one; the context holds 1.0 and -1.0 in a1 and a2, tile records in a4 and a5. -/
def tXM : MccCtx :=
  { MccCtx.start 3 0x200000 [1, 0x3F800000, 0xBF800000, 0x200100, 0, BitVec.ofNat 64 (2 ^ 15 + 31 * 2 ^ 22 + 7 * 2 ^ 29)] with slot := some 0 }
def tCMX : Coil :=
  { tC with
    eng := .running, mcc := some tXM, b := tC.b.set 2 0x4000180000000000
    tiles := [tTile 0 (2 ^ 15 + 31 * 2 ^ 22 + 7 * 2 ^ 29), tTile 1 (2 ^ 15 + 31 * 2 ^ 22 + 7 * 2 ^ 29), tTile 2 (2 ^ 15 + 3 * 2 ^ 22 + 9 * 2 ^ 29)]
    accs := [{ Acc.new 1 with st := .opened }, Acc.new 2] }
def tSX : State := { tWith tCMX with turn := .mcc 7 }
theorem mcc_tSX : MccTurn tSX tCMX tXM := ⟨rfl, rfl, rfl⟩
theorem mcc_tSM : MccTurn tSM tCM tX := ⟨rfl, rfl, rfl⟩
/-- The scalar forms: an aligned a3, no event and one event. -/
theorem witness_MccComputes : MccTurn tSM tCM tX ∧ tX.events = [] ∧ (tX.a.getD (K 0 0 3 0 0).a.toNat 0).toNat % 4 = 0 ∧
    (∃ x : MccCtx, x.events ≠ [] ∧ MccTurn { tWith { tCM with mcc := some x } with turn := .mcc 7 } { tCM with mcc := some x } x) ∧
    tX.a.getD 0 0 = 1 ∧ tX.a.getD 1 0 ≠ 1 :=
  ⟨mcc_tSM, rfl, by decide +kernel, ⟨{ tX with events := [(1, 2)] }, by decide, ⟨rfl, rfl, rfl⟩⟩, by decide +kernel⟩
/-- ALD and AST of offset 0 of hs2. -/
def tMr (w : Bool) : Except MemFault Spot × State := tSX.resolveAt tCMX (tCMX.slot 2) { size := 8, align := 8, write := w, spaces := [0, 3] } 0
def tMp (w : Bool) : Spot := okOf (tMr w).1 (.mem [] 0 true 0)
def tMl : Except MemFault (List PByte) × State := (tMr false).2.readSpot tCMX none false (tMp false)
theorem witness_MccReads : MccTurn tSX tCMX tXM ∧ ∃ sp v l w, tMr false = (.ok sp, v) ∧ (∀ n, n < 4 → (tCMX.watch.getD n Watch.off).hits true false sp = false) ∧
    v.readSpot tCMX none false sp = (.ok l, w) ∧ l.all (fun e => e.2 = false) = true :=
  ⟨mcc_tSX, tMp false, (tMr false).2, okOf tMl.1 [], tMl.2, pair_of (ok_of (by decide +kernel)), by decide +kernel,
    pair_of (x := tMl) (ok_of (by decide +kernel)), by decide +kernel⟩
theorem witness_MccWrites : ∃ sp v r w, tMr true = (.ok sp, v) ∧ (∀ n, n < 4 → (tCMX.watch.getD n Watch.off).hits false true sp = false) ∧
    v.engPut tCMX sp (plainBytes (leBytes 8 5)) = (.ok r, w) := by
  obtain ⟨r, hr⟩ := ok_ex (x := ((tMr true).2.engPut tCMX (tMp true) (plainBytes (leBytes 8 5))).1) (by decide +kernel)
  have h : ∀ n, n < 4 → (tCMX.watch.getD n Watch.off).hits false true (tMp true) = false := by decide +kernel
  exact ⟨tMp true, (tMr true).2, r, _, pair_of (ok_of (by decide +kernel)), h, pair_of hr⟩
/-- MXSCL of a0 and a4, MXTOL of 1.0 and of -1.0, MXSTAT of accumulator 1, ABWAIT for the phase that goes on and for the one before. -/
theorem witness_MccReadsAndWrites : (tXM.a.getD 4 0).toNat / 2 ^ 22 = 0 ∧ (tXM.a.getD 4 0).toNat % 8 < 6 ∧ finiteW (tXM.a.getD 0 0).lo = true ∧
    finiteW (tXM.a.getD 1 0).lo = true ∧ (tXM.a.getD 1 0).lo.getLsbD 31 = false ∧ (tXM.a.getD 2 0).lo.getLsbD 31 = true ∧
    (tXM.a.getD 2 0).lo ≠ 0x80000000 ∧ tSX.mxTarget tCMX 4 = some tCMX ∧ (tCMX.acc? ((tXM.a.getD 0 0).toNat % 16)).isSome = true ∧
    tSX.mxq = [] ∧ tCMX.core = 0 ∧ tSX.present 1 = true ∧
    { tSX with regs := { tSX.regs with coresAvail := 1 } }.present 1 = false ∧ (tCMX.bar 2).answer ((tXM.a.getD 4 0).setWidth 8) = none ∧ (tCMX.bar 2).answer ((tXM.a.getD 0 0).setWidth 8) = some true := by
  decide +kernel
/-- A command of the context, for the accumulator, in each form. -/
def tEpi : Epilogue := { scale := 0x3F800000, ctrl := 0 }
def tOps : List MxOp :=
  [MxOp.mma { ta := 0, tb := 1, mask := none, axis := false, kt0 := 0 } none, .mma { ta := 0, tb := 1, mask := none, axis := false, kt0 := 0 } (some 1),
    .zero false, .drain 2 tEpi, .drainAcc tEpi, .drainChk 2]
def tMx (op : MxOp) (started : Bool) : MxCmd :=
  { core := 0, owner := 7, run := 3, target := 7, acc := 1, op := op, ev := true, tag := 0, seq := 0, bar := none, entry := true, mxtol := 0x3A800000,
    task := 0, started := started, replayed := 0 }
/-- Reservations of tile 8 anew and of tile 2 again, a free one taken back; every form of command with room and without; and one on an idle accumulator. -/
theorem witness_MccFeedsEngines : tSX.mxTarget tCMX 4 = some tCMX ∧
    tSX.tileTaken tCMX 8 = false ∧ tSX.tileHeld tCMX 8 = false ∧ tCMX.tile? 8 = none ∧ tCMX.tiles.length < 8 ∧ recInvalid (tXM.a.getD 5 0) = false ∧
    tSX.tileTaken tCMX 2 = false ∧ tSX.tileHeld tCMX 2 = false ∧ tSX.tileNamed tCMX 2 = false ∧ (tCMX.tile? 2).isSome = true ∧
    (tOps.all fun op => tSX.mxCheck tCMX 1 op = none) = true ∧ tSX.mxCheck tCMX 2 (.drainChk 2) = some 0x502 ∧ tSX.mxq.length < 8 ∧
    tXM.reserved + tXM.events.length < 64 ∧
    ¬ (({ tSX with mxq := List.replicate 8 (tMx (.zero false) false) }.mxq.filter (fun (k : MxCmd) => k.core = 0)).length < 8) := by decide +kernel

/-- Rows and columns of ones: a step over them adds 32 to the element, and the checks follow. -/
def tOne (n fmt : Nat) : Tile := { num := n, record := BitVec.ofNat 64 (31 * 2 ^ 22 + fmt * 2 ^ 29), bytes := (List.range 32).map (fun k => (k, 1)), poison := [] }
def tStep : MxStep := { ta := 0, tb := 1, mask := none, axis := false, kt0 := 0 }
def tInt : Acc := { Acc.new 1 with st := .opened, int := true, cc := List.replicate 128 0, mc := List.replicate 128 0, cr := List.replicate 128 0, mr := List.replicate 128 0 }
theorem tInt_zero : (∀ i, tInt.row i = List.replicate 128 0) ∧ (∀ j, tInt.col j = List.replicate 128 0) ∧
    ∀ i, (List.replicate 128 (0 : Word)).getD i 0 = 0 := by
  refine ⟨fun i => ?_, fun i => ?_, fun i => ?_⟩
  · rw [← List.length_range (n := 128), ← List.map_const']; rfl
  · rw [← List.length_range (n := 128), ← List.map_const']; rfl
  · rw [List.getD_eq_getElem?_getD, List.getElem?_replicate]; split <;> rfl
theorem tInt_sums : (∀ i, tInt.rowSum i = tInt.cc.getD i 0) ∧ ∀ j, tInt.colSum j = tInt.cr.getD j 0 :=
  ⟨fun i => by rw [Acc.rowSum, tInt_zero.1, show tInt.cc = List.replicate 128 0 from rfl, tInt_zero.2.2]; decide +kernel,
    fun j => by rw [Acc.colSum, tInt_zero.2.1, show tInt.cr = List.replicate 128 0 from rfl, tInt_zero.2.2]; decide +kernel⟩
theorem tInt_match (w : Word) : tInt.badRows w = [] ∧ tInt.badCols w = [] := by
  have h (l : List Word) (h : l = List.replicate 128 0) (c : Word) (hc : c = 0) : lineMatch tInt.int w l c 0 = true := by
    subst h hc
    have z : (List.replicate 128 (0 : Word)).foldl (· + ·) 0 = 0 := by decide +kernel
    rw [lineMatch, show tInt.int = true from rfl, if_pos rfl, z]
    rfl
  constructor
  · refine List.filter_eq_nil_iff.mpr fun i _ => ?_
    rw [show tInt.mc = List.replicate 128 0 from rfl, tInt_zero.2.2, h _ (tInt_zero.1 i) _ (show tInt.cc.getD i 0 = 0 from tInt_zero.2.2 i)]; decide
  · refine List.filter_eq_nil_iff.mpr fun i _ => ?_
    rw [show tInt.mr = List.replicate 128 0 from rfl, tInt_zero.2.2, h _ (tInt_zero.2.1 i) _ (show tInt.cr.getD i 0 = 0 from tInt_zero.2.2 i)]; decide
theorem witness_StepsAccumulate : tInt.sorted ∧ tStep.cols (recRows (tOne 1 6).record) ≠ [] ∧
    tStep.blocks (recCols (tOne 0 6).record) (mxLen (tOne 0 6)) ≠ [] ∧ (∀ i, i < 128 → tInt.rowSum i = tInt.cc.getD i 0) ∧
    (∀ j, j < 128 → tInt.colSum j = tInt.cr.getD j 0) ∧ (mmaAcc tInt (tOne 0 6) (tOne 1 6) tStep).get 0 = 32 :=
  ⟨List.Pairwise.nil, by decide +kernel, by decide +kernel, fun i _ => tInt_sums.1 i, fun j _ => tInt_sums.2 j, by decide +kernel⟩
/-- Each form of command at the head of its queue, started and not, on an accumulator that it fits; one whose target is gone; a drain that matches. -/
def tMxS (op : MxOp) (started : Bool) : State := { tSX with mxq := [tMx op started] }
def tMxGone : State := { tMxS (.zero false) true with coils := [] }
def tCI : Coil := { tCMX with accs := [tInt] }
theorem witness_CommandsStartAndEnd : (∀ op b, (tMxS op b).mxHead 0 = some (tMx op b)) ∧
    (tOps.all fun op => ((tMxS op true).mxOn (tMx op true)).isSome) = true ∧ (tCMX.tile? 0).isSome = true ∧ (tCMX.tile? 1).isSome = true ∧
    tMxGone.mxHead 0 = some (tMx (.zero false) true) ∧ tMxGone.mxOn (tMx (.zero false) true) = none ∧
    { tMxS (.drainAcc tEpi) true with coils := [tCI] }.mxOn (tMx (.drainAcc tEpi) true) = some (tCI, tInt) ∧
    tCI.biasBad (.drainAcc tEpi) = false ∧ tInt.badRows 0 = [] ∧ tInt.badCols 0 = [] :=
  ⟨fun _ _ => rfl, by decide +kernel, by decide +kernel, by decide +kernel, rfl, by decide +kernel, by decide +kernel, by decide +kernel,
    (tInt_match 0).1, (tInt_match 0).2⟩

/-! ## Queues, placement and the register window -/

/-- A queue of ASID 1 at 0x420000 with packet 4 at the head of its ring, mapped at slot n or not; `slot` is what its descriptor says of that, and its
owner the root control block at 0x300000. The registry at 0x600000 names it. -/
def tQs (mapped : Bool) (slot : Nat) (packet : List Byte) : State :=
  ((((({ tLS with regs := { tLS.regs with qreg := 0x600001 } }.poke 0x430100 packet).poke 0x420000 (leBytes 8 0x430000 ++ [6])).poke 0x420010
    (leBytes 8 0x300000 ++ leBytes 8 5 ++ leBytes 8 4 ++ leBytes 2 slot)).poke 0x600000 (leBytes 8 0x420000 ++ leBytes 2 0x8001)).poke 0x30000F [1]).setQslot 2
      { QSlot.reset with desc := 0x420000, mapped := mapped, held := mapped, casid := 1, cur := 0x420000, write := 5, read := 4 }
def tMapWord (op : Nat) : BitVec 64 := BitVec.ofNat 64 (1 + 2 * op + 2 ^ 20)
def tQd (slot : Nat) : QDesc := { ring := 0x430000, size := 6, owner := 0x300000, write := 5, read := 4, slot := slot, clean := true }
/-- A packet that is accepted, and one that breaks a rule. -/
theorem witness_QueuePackets : (∀ p ∈ [tPkt, []], ((tQs true 2 p).vread 1 (0x430000 + BitVec.ofNat 64 (64 * (4 % 2 ^ 6))) 64).1.isOk = true ∧
      (tQs true 2 p).rsc.queuesStopped = false ∧ (tQs true 2 p).qdesc 1 0x420000 = some (tQd 2)) ∧
    ((tQs true 2 tPkt).acceptLaunch 1 (BitVec.ofNat 512 (leNat tPkt)) 0x300000 2 (some 4) 0 true).isOk = true ∧
    ((tQs true 2 []).acceptLaunch 1 0 0x300000 2 (some 4) 0 true).isOk = false := by decide +kernel
theorem witness_QueuesAreServed : ((tMapWord 1).getLsbD 0 = true ∧ (tMapWord 1).toNat / 2 % 4 = 1 ∧ (tMapWord 2).toNat / 2 % 4 = 2) ∧
    (tQs true 2 []).qslots.length = 256 ∧ ((tQs true 2 []).qslot 2).mapped = true ∧ ((tQs false 2 []).qslot 2).mapped = false ∧
    (tQs false 2 []).qdesc 1 0x420000 = some (tQd 2) ∧ (tQs false 0xFFFF []).qdesc 1 0x420000 = some (tQd 0xFFFF) ∧ (tQd 0xFFFF).ok = true ∧
    (tQs false 2 []).qdesc 1 0x7000000 = none := by decide +kernel
theorem witness_RegistryScan : let s := tQs false 0xFFFF []
    s.regEntry 0 / 2 ^ 79 % 2 = 1 ∧ s.regEntry 0 / 2 ^ 80 % 256 = 0 ∧ s.regEntry 0 % 64 = 0 ∧
    s.qdesc (BitVec.ofNat 12 (s.regEntry 0 / 2 ^ 64)) (BitVec.ofNat 64 (s.regEntry 0)) = some (tQd 0xFFFF) ∧ s.slotFor 0 = some 0 ∧
    (s.qslot 0).mapped = false := by decide +kernel

/-- A launch that waits for its first coil, with a context at 0x500000 whose frames stand from 0x600000 on. -/
def tLaunch : Launch :=
  { id := 4, packet := BitVec.ofNat 512 (leNat tPkt), rcb := 0x300000, asid := 1, next := 0, queue := 0, seq := some 3, die := 0 }
def tPlaceS (c : Coil) : State :=
  { ((tLS.poke 0x510000 (leBytes 8 0x600000 ++ leBytes 8 0x400000 ++ [16])).poke 0x31000E [5, 1]).poke 0x310018 (List.replicate 8 0xFF) with
    launches := [tLaunch], coils := [c] }
theorem ite_some {α : Type} {a : α} {x : Option α} (b : Bool) (h : x.isSome = true) : (if b then some a else x).isSome = true := by
  cases b
  · exact h
  · rfl
/-- Whether a context has room for a frame at the end of another or at its base. -/
def frameRoom (s : State) (asid : BitVec 12) (ctx : BitVec 64) (partw : Word) : Bool :=
  match s.ccb asid ctx with
  | none => false
  | some (base, size, spill) =>
    let used := s.framesUsed asid ctx spill
    let n := frameSize partw spill
    let free (a : Nat) : Bool := decide (base ≤ a) && decide (a + n ≤ base + size) && used.all (fun u => decide (a + n ≤ u.1) || decide (u.1 + u.2 ≤ a))
    ((((base :: used.map (fun u => u.1 + u.2)).filter free).foldl
      (fun m a => match m with | none => some a | some b => some (min a b)) none).map (BitVec.ofNat 64)).isSome
theorem frame_of_room {s : State} {asid : BitVec 12} {ctx : BitVec 64} {partw : Word} (k : Nat) (h : frameRoom s asid ctx partw = true) :
    (s.frameFor asid ctx partw k).isSome = true := by
  unfold frameRoom at h
  unfold State.frameFor
  cases e : s.ccb asid ctx with
  | none => rw [e] at h; cases h
  | some r =>
    rw [e] at h
    obtain ⟨base, size, spill⟩ := r
    exact ite_some _ h
theorem fits_of {s : State} {w : Want} {core : Nat} {ctx : BitVec 64} (hc : w.ctx = some ctx) (h : s.fits { w with ctx := none } core = true)
    (f : frameRoom s w.asid ctx w.partw = true) : s.fits w core = true := by
  simp only [State.fits, Bool.and_eq_true] at h ⊢
  refine ⟨h.1, ?_⟩
  rw [hc]
  exact frame_of_room _ f
theorem tLaunch_fits : (tPlaceS tC).fits tLaunch.want 0 = true := by
  have h1 : tLaunch.want.ctx = some 0x500000 := by decide +kernel
  have h2 : (tPlaceS tC).fits { tLaunch.want with ctx := none } 0 = true := by decide +kernel
  have h3 : frameRoom (tPlaceS tC) tLaunch.want.asid 0x500000 tLaunch.want.partw = true := by decide +kernel
  exact fits_of h1 h2 h3
theorem witness_CoilsArePlaced : (tPlaceS tC).rsc.queuesStopped = false ∧ (tPlaceS tC).launches.find? (fun k => k.id = 4) = some tLaunch ∧
    (tPlaceS tC).fits tLaunch.want 0 = true ∧ (tPlaceS tC).fits tLaunch.want 256 = false := by
  exact ⟨by decide +kernel, by decide +kernel, tLaunch_fits, by decide +kernel⟩
/-- A saved coil of RCB 0x310000, of priority 5, whose frame is intact and one whose frame is not. -/
def tSaved (priv : List Host.Cell) : Coil :=
  { tC with id := 8, st := .saved true, resident := false, rcb := 0x310000, partw := 0x0201017D, pin := true, priv := priv }
theorem witness_SavedCoils : (tPlaceS (tSaved [])).coil? 8 = some (tSaved []) ∧ (tPlaceS (tSaved [])).fits ((tPlaceS (tSaved [])).coilWant (tSaved [])) 0 = true ∧
    (tPlaceS (tSaved [])).framePrivate (tSaved []) = (tSaved []).priv ∧
    (tPlaceS (tSaved [(5, 1)])).framePrivate (tSaved [(5, 1)]) ≠ (tSaved [(5, 1)]).priv := by decide +kernel
/-- A coil of lower priority where only the saved coil's core has no room. -/
def tPre : State := { tPlaceS tC with coils := [tC, tSaved []], launches := [] }
theorem witness_Preemption : tPre.coil? 7 = some tC ∧ tC.leaves = false ∧ (tPre.coilWant (tSaved [])) ∈ tPre.wants ∧ tPre.outranks (tPre.coilWant (tSaved [])) tC = true ∧
    (∀ k, k < 256 → tPre.fits (tPre.coilWant (tSaved [])) k = false) ∧ tPre.coil? 8 = some (tSaved []) ∧ (tSaved []).resident = false :=
  ⟨by decide +kernel, by decide +kernel, by decide +kernel, by decide +kernel, by decide +kernel, by decide +kernel, rfl⟩
theorem witness_PackingWindows : (tWith (tIdle (.held 0x200000 .pack))).firstPack 0 = some (tIdle (.held 0x200000 .pack), 0x200000) ∧
    tS.firstPack 0 = none ∧ tS.recoveryJoin 0 = none ∧ tS.spawnJoin 0 = none := by decide +kernel
/-- An invalidation and a drain, with none in progress and with one. -/
theorem witness_InvalidationsAndDrains : (0x2001 : BitVec 64).getLsbD 13 = true ∧ tS.regs.tlbinvc.getLsbD 13 = false ∧ tS.regs.gsdrain.getLsbD 13 = false ∧
    ∃ s : State, s.regs.tlbinvc.getLsbD 13 = true ∧ s.regs.gsdrain.getLsbD 13 = true :=
  ⟨by decide, by decide +kernel, by decide +kernel, { tS with regs := { tS.regs with tlbinvc := 0x2001, gsdrain := 0x2001 } }, rfl, rfl⟩

/-- A slot that holds its queue and one that does not; a stopped coil whose s1 the debugger selects, where the lifecycle allows it. -/
def tStop : Coil := { tC with st := .stopped }
def tDbg (life : BitVec 64) : State :=
  { tWith tStop with regs := { tS.regs with dbgsel := BitVec.ofNat 64 (7 * 2 ^ 32 + 2 ^ 28 + 1), lifecycle := life } }
theorem witness_RegisterWindowActs : ((tQs true 2 []).qslot 2).held = true ∧ ((tQs true 2 []).qslot 3).held = false ∧
    (0x52535431 : BitVec 64) ≠ 0 ∧ (tDbg 4).dbgCoil = some tStop ∧ (tDbg 4).dbgItem = 1 ∧ (tDbg 4).dbgIndex < tStop.s.length ∧
    (tDbg 2).dbgCoil = none := by decide +kernel
/-- SYSRVAL of port 0, whose future is at 0x400000: one that is pending, and one that is resolved. -/
def tSysr (st : Byte) : State :=
  { tS.poke 0x400000 [st] with regs := { tS.regs with sysrasid := tS.regs.sysrasid.set 0 1, sysraddr := tS.regs.sysraddr.set 0 0x400000 } }
def Resolved.how (r : Resolved) : Nat := match r with | .done _ => 0 | .settled _ => 1 | .bad _ _ => 2
theorem witness_SystemCallResults : (∃ t, (tSysr 0).resolve 1 0x400000 0 { appRec 0 0 with asid := some 1 } 1 9 none = .done t) ∧
    (∃ t, (tSysr 1).resolve 1 0x400000 0 { appRec 0 0 with asid := some 1 } 1 9 none = .settled t) ∧
    ((tSysr 0).regs.sysrasid.getD 0 0).setWidth 12 = 1 ∧ (tSysr 0).regs.sysraddr.getD 0 0 = 0x400000 := by
  have h {r : Resolved} : (Resolved.how r = 0 → ∃ t, r = .done t) ∧ (Resolved.how r = 1 → ∃ t, r = .settled t) := by
    cases r with
    | done t => exact ⟨fun _ => ⟨t, rfl⟩, nofun⟩
    | settled t => exact ⟨nofun, fun _ => ⟨t, rfl⟩⟩
    | bad f t => exact ⟨nofun, nofun⟩
  exact ⟨h.1 (by decide +kernel), h.2 (by decide +kernel), by decide +kernel⟩

/-! ## The module boundary -/

/-- Accesses of an application core to memory at the ends of a sector and to the window, of another device and of a port that translate, and that do not. -/
def tReq (asid : Option (BitVec 12)) (a : BitVec 64) (act : MemAct) : MemReq := { asid := asid, addr := a, act := act }
def tDma : State := tS.poke 2 [1, 0x80]
theorem witness_OutsideAccessesAct : tS.rsc.booted = true ∧ (0x3C : BitVec 64).toNat < windowBase ∧
    (∀ g ∈ tS.physSegs 0x3C 8, tS.keyClash g.pa 0 = false) ∧ 0xFFFFF8 % 8 = 0 ∧ (tReq (some 1) 0x40001C (.load 8)).asid = some 1 ∧
    (tS.reqSegs 1 (tReq (some 1) 0x40001C (.load 8))).1.isOk = true ∧ (tS.reqSegs 1 (tReq (some 1) 0x800000 (.load 8))).1.isOk = false ∧
    (tS.reqSegs 1 (tReq (some 1) 0x40001C (.store [1, 2]))).1.isOk = true ∧ leNat (tDma.peek (tDma.regs.pciasid0.toNat + 2 * 0) 2) < 2 ^ 15 ∧
    leNat (tDma.peek (tDma.regs.pciasid0.toNat + 2 * 1) 2) = 2 ^ 15 + 1 ∧
    (∃ r : MemReq, (∀ k, r.act = .load k → k ≠ 8 ∨ 0 % 8 ≠ 0) ∧ (∀ d, r.act = .store d → d.length ≠ 8 ∨ 0 % 8 ≠ 0) ∧ r.act ≠ .fence ∧
      r.addr = BitVec.ofNat 64 (windowBase + 0)) ∧ ∃ s : State, s.rsc.booted = false :=
  ⟨rfl, by decide +kernel, by decide +kernel, by decide, rfl, by decide +kernel, by decide +kernel, by decide +kernel, by decide +kernel, by decide +kernel,
    ⟨tReq none (BitVec.ofNat 64 (windowBase + 0)) (.load 4), fun k h => .inl (by cases h; decide), fun d h => MemAct.noConfusion h, fun h => MemAct.noConfusion h, rfl⟩,
    { tS with rsc := { tS.rsc with booted := false } }, rfl⟩
/-- A cause whose bit is set and one whose bit is clear and whose route is enabled; error messages of each kind; a port that changes state. -/
def tPorts : State :=
  { tS with regs := { tS.regs with intstat := 2, introute := tS.regs.introute.set 3 (BitVec.ofNat 64 (2 ^ 16 + 16 * 5 + 2)) } }
theorem witness_PortsAndInterrupts : tPorts.regs.intstat.getLsbD 1 = true ∧ tPorts.regs.intstat.getLsbD 3 = false ∧
    (tPorts.regs.introute.getD 3 0).getLsbD 16 = true ∧ (tPorts.regs.introute.getD 3 0).toNat / 16 % 2 ^ 12 ≠ 0 ∧
    17 < tPorts.regs.osierstat.length ∧ (tPorts.regs.osierstat.getD 17 0).toNat % 4 ≠ (2 : BitVec 64).toNat ∧
    ({ port := 1, uncorrectable := false, linkDown := true, status := 0, requester := 0, header := 0 } : AerError).linkDown = true ∧
    ({ port := 1, uncorrectable := true, linkDown := false, status := 0, requester := 0, header := 0 } : AerError).linkDown = false := by decide +kernel
/-- The lifecycle states that a fuse leaves, a transition that no rule has, and temperatures at the limits: 110, 100, 98 degrees and less. -/
theorem witness_ResetsAndTemperature : (∀ n ∈ [1, 2, 4], ∃ s : State, s.regs.lifecycle.toNat % 8 = n) ∧
    dieTemp 1760 0 = 1760 ∧ dieTemp (BitVec.ofNat 64 (1600 * 2 ^ 48)) 3 = 1600 ∧ (∀ d, d < 4 → dieTemp (BitVec.ofNat 64 (1600 * 2 ^ 48)) d < 1760) ∧
    (∀ d, d < 4 → dieTemp (BitVec.ofNat 64 (1568 + 1567 * 2 ^ 16)) d < 1600) := by
  refine ⟨?_, by decide +kernel⟩
  intro n hn
  simp only [List.mem_cons, List.not_mem_nil, or_false] at hn
  rcases hn with rfl | rfl | rfl
  · exact ⟨{ tS with regs := { tS.regs with lifecycle := 1 } }, rfl⟩
  · exact ⟨{ tS with regs := { tS.regs with lifecycle := 2 } }, rfl⟩
  · exact ⟨{ tS with regs := { tS.regs with lifecycle := 4 } }, rfl⟩
/-- A device in PRODUCTION and one that is not, a full measurement log, and a token that is not accepted. -/
def tMan (life : BitVec 64) (n : Nat) : State := { tS with regs := { tS.regs with lifecycle := life }, rsc := { tS.rsc with recorded := n, nonce := some 5 } }
def tToken (st : BitVec 3) (e l : List Byte) : Token := { devid := Config.devid, state := st, nonce := 5, ecdsa := e, lms := l }
theorem witness_ManagementPortActs : (tMan 2 0).rsc.booted = true ∧ (tMan 2 0).regs.lifecycle.toNat % 8 = 2 ∧ (tMan 4 0).regs.lifecycle.toNat % 8 ≠ 2 ∧
    (tMan 2 4095).rsc.recorded < 4096 ∧ 4096 ≤ (tMan 2 4096).rsc.recorded ∧ (tMan 2 0).tokenOk (tToken 0 [] []) = false :=
  ⟨rfl, by decide +kernel, by decide +kernel, by decide +kernel, by decide +kernel, by
    simp only [State.tokenOk, tToken, Bool.and_eq_false_iff, decide_eq_false_iff_not]; exact .inl (.inl (.inr (by decide)))⟩
/-- The signatures are what the specification leaves to cryptography (log 20): a token that carries good ones is accepted. -/
theorem witness_AcceptedTokens (e l : List Byte) (he : Config.ecdsaOk (tokenFields (tToken 2 e l)) e = true)
    (hl : Config.lmsOk (tokenFields (tToken 2 e l)) l = true) : (tMan 2 0).tokenOk (tToken 2 e l) = true := by
  rw [State.tokenOk, show (tToken 2 e l).ecdsa = e from rfl, show (tToken 2 e l).lms = l from rfl, he, hl]
  have h1 : (tMan 2 0).regs.lifecycle.toNat % 8 = 2 := by decide +kernel
  have h2 : (tMan 2 0).rsc.nonce = some 5 := rfl
  simp only [tToken, h1, h2, decide_true, Bool.and_true]
/-- A coil with a tile, an accumulator and masks; counters on and off; a plait and an MCC context with the turn. -/
def tProf (n : Nat) : State := { tS with regs := { tS.regs with profctl := 1, profNext := n } }
theorem witness_RetirementErrorsAndFaults : tSX.coil? tCMX.id = some tCMX ∧ (tCMX.tile? 2).isSome = true ∧ (tCMX.acc? 1).isSome = true ∧
    tS.errqEn = false ∧ tS.regs.profctl.getLsbD 0 = false ∧ (∃ s : State, s.regs.profctl.getLsbD 0 = true ∧ s.regs.profNext * 2 ^ (s.regs.profctl.toNat / 2 % 32) ≤ s.tick.refclk) ∧
    (∃ s : State, s.regs.profctl.getLsbD 0 = true ∧ ¬ s.regs.profNext * 2 ^ (s.regs.profctl.toNat / 2 % 32) ≤ s.tick.refclk) ∧ Quiet tS tC tPl (tFib 0) ∧
    MccTurn tSX tCMX tXM :=
  ⟨rfl, by decide +kernel, by decide +kernel, by decide +kernel, by decide +kernel, ⟨tProf 0, rfl, Nat.zero_le _⟩,
    ⟨tProf (tS.tick.refclk + 1), rfl, Nat.not_le.mpr (show tS.tick.refclk < (tS.tick.refclk + 1) * 2 ^ 0 by omega)⟩, ready_tS.1, mcc_tSX⟩

/-! ## Encodings, issue and steps -/

theorem witness_EncodedInstructionsDecode : (Instr.iadd (M 255 255 255 15)).form ≠ .event ∧ (Instr.iadd (M 255 255 255 15)).wfIn 256 = true ∧
    (Instr.mma (K 0x300 4 0 2 3)).form ≠ .event ∧ (Instr.mma (K 0x300 4 0 2 3)).wfIn 256 = true ∧
    (Instr.nopCompact ⟨3, 1, 0, 0, 0⟩).form ≠ .event ∧ (Instr.nopCompact ⟨3, 1, 0, 0, 0⟩).wfIn 4 = true := by decide +kernel
theorem witness_DecodedWordsEncodeBack : (∃ i, decode false 256 [0x00460001, 0x00604021, 0] = .ok i) ∧ (∃ i, decode true 256 [0x81EA0C01, 0x00604000, 0] = .ok i) ∧
    ∃ i, decode false 256 [0x140C262C, 0, 0] = .ok i :=
  ⟨⟨.pmac2 (M 8 1 2 3), by decide +kernel⟩, ⟨.mma (K 0x300 4 0 2 3), by decide +kernel⟩,
    ⟨.shlImmCompact { dist := 3, w := 0, d := 9, a := 3, b := 5 }, by decide +kernel⟩⟩
theorem witness_ReservedEncodingsAreRefused : (0xFFFFFFFF : Word).toNat % 4 = 3 ∧ (0xFFFFFC1C : Word).toNat % 4 = 0 ∧ (0xFFFFFC1C : Word).toNat / 32 % 32 = 0 ∧
    (0x01C00001 : Word).toNat % 4 ∈ [1, 2] ∧ 0xE0 = (0x01C00001 : Word).toNat / 2 ^ 17 % 256 ∧ (0x01BE0002 : Word).toNat % 4 ∈ [1, 2] ∧
    (0x01BE0002 : Word).toNat / 2 ^ 17 % 256 = 0xDF ∧ (0x03C00001 : Word).toNat / 2 ^ 25 % 16 ≠ 0 := by decide
/-- A flag that the WAIT of fibre 1 selects, and that W waits for. -/
def tCFlag : Coil := { tC with fibres := [tFib 0, { tFib 1 with cf := 0x800 }] }
theorem witness_FlagsHoldBackIssue : (tWith tCFlag).turn = .plait tCFlag.id tPl ∧ (tWith tCFlag).coil? tCFlag.id = some tCFlag ∧ (tCFlag.plait tPl).head? = some (tFib 0) ∧
    { tFib 1 with cf := 0x800 } ∈ tCFlag.plait tPl ∧ (∃ opc m, (Instr.iadd { M 1 2 3 15 with wait := 0x800 }).form = .main opc m ∧ (0x800 : BitVec 12) &&& m.wait ≠ 0) ∧
    ∃ cop k, (Instr.nopCompact ⟨0, 1, 0, 0, 0⟩).form = .compact cop k ∧ k.w = 1 :=
  ⟨rfl, rfl, by decide +kernel, by decide +kernel, ⟨_, _, rfl, by decide⟩, ⟨_, _, rfl, rfl⟩⟩
/-- An empty mask, a flag to set, and a poisoned v2 of each kind in fibre 0. -/
def tInfo (m : Main) : Info := Info.of (Instr.iadd m).shape m 4
def tPois (k : Poison) : Coil := { tC with fibres := [{ tFib 0 with poison := [(2, k)] }, tFib 1] }
theorem witness_IssueFollowsTheRules : Quiet tS tC tPl (tFib 0) ∧ (tInfo { M 1 2 3 15 with gsel := 4 }).coll = false ∧
    tC.masked tPl (fun f => f.getP (tInfo { M 1 2 3 15 with gsel := 4 }).gsel != false) = [] ∧
    Ready tS tC tPl (tFib 0) (fun f => f.getP 0 != false) ∧ (tInfo (M 1 2 3 11)).setf = some 11 ∧ (tInfo (M 1 2 3 11)).gsel = 0 ∧
    (∀ k ∈ [Poison.data, Poison.latent], firstPoison (tPois k) { tFib 0 with poison := [(2, k)] } ((tInfo (M 1 2 3 15)).reads ++ (tInfo (M 1 2 3 15)).first) = some k ∧
      (tWith (tPois k)).coil? 7 = some (tPois k) ∧ (∀ f ∈ (tPois k).fibres, f.cf = 0 ∧ f.pend = [] ∧ f.holds = 0) ∧
      ((tPois k).plait tPl).head? = some { tFib 0 with poison := [(2, k)] }) ∧
    Recovers tRS tRC (tRS.lend tRC) tPl tRF (fun f => f.getP 0 != false) ∧ ∃ m, (Info.of (Instr.ldB32 m).shape m 4).gsel = 0 :=
  ⟨ready_tS.1, by decide +kernel, by decide +kernel, ready_of (by decide +kernel), by decide +kernel, by decide +kernel, by decide +kernel,
    ⟨rfl, by decide +kernel, rfl, rfl, by decide +kernel, by decide +kernel, by decide +kernel, by decide +kernel⟩, ⟨M 0 0 0 0, rfl⟩⟩
theorem words_of {ε α : Type} [DecidableEq α] {x : Except ε α} {a : α} (h : (match x with | .ok b => decide (b = a) | .error _ => false) = true) : x = .ok a := by
  cases x with
  | ok b => exact congrArg _ (of_decide_eq_true h)
  | error e => cases h
/-- Code at 0x200000: NOP, a word that is no instruction, an unmapped PC, and an instruction of the MCC. -/
def tCode (l : List Byte) : State := tS.poke 0x200000 l
def tFar : Coil := { tC with fibres := [{ tFib 0 with pc := 0x800000 }] }
theorem witness_StepsRunDecodedInstructions : tS.inputs = [] ∧ tPl ∈ tC.issuers ∧ tCM.mccRuns = true ∧ tS.icache = [] ∧
    (tCode [0x20]).fetchWords 0 1 0x200000 = (.ok [0x20], ((tCode [0x20]).fetchWords 0 1 0x200000).2) ∧
    (∃ i, decode false 64 [0x20] = .ok i) ∧ (tCode [3]).fetchWords 0 1 0x200000 = (.ok [3], ((tCode [3]).fetchWords 0 1 0x200000).2) ∧
    (∃ o, decode false 64 [3] = .bad o) ∧ ((tWith tFar).fetchWords 0 1 0x800000).1.isOk = false ∧
    (∃ i, decode true 256 [0x81EA0C01, 0x00604000] = .ok i) ∧
    (∃ v, { tSM with mem := (tCode [1, 0x0C, 0xEA, 0x81, 0, 0x40, 0x60]).mem }.fetchWords 0 1 0x200000 = (.ok [0x81EA0C01, 0x00604000], v)) ∧
    (∃ x v, (tCode [0x20]).translate 1 0x200000 .fetch = (.ok x, v) ∧ wordsOf (leWord ((v.healRange x.pa 4).report.peek x.pa 4)) = 1) ∧
    ∃ s : State, s.inputs = [.event .challenge] :=
  ⟨rfl, by decide +kernel, by decide +kernel, rfl, pair_of (words_of (by decide +kernel)), ⟨.nopCompact ⟨0, 0, 0, 0, 0⟩, by decide +kernel⟩,
    pair_of (words_of (by decide +kernel)), ⟨⟨1, 0, 0xFF⟩, by decide +kernel⟩, by decide +kernel, ⟨.mma (K 0x300 4 0 2 3), by decide +kernel⟩,
    ⟨_, pair_of (words_of (by decide +kernel))⟩, ⟨_, _, xlat_of (by decide +kernel), by decide +kernel⟩, { tS with inputs := [.event .challenge] }, rfl⟩
/-- FIPS 197, appendix C.3. -/
theorem test_aes256 : aesBlock (aesKeys (List.range 32)) ((List.range 16).map (fun i => 17 * i)) =
    [0x8E, 0xA2, 0xB7, 0xCA, 0x51, 0x67, 0x45, 0xBF, 0xEA, 0xFC, 0x49, 0x90, 0x4B, 0x49, 0x60, 0x89] := by decide +kernel
/-- IEEE 1619, vector 10: its first block under data unit number 0xFF, both ways. -/
def tXtsKey : Nat := 0x92459474098205513799931697418802952783336462842393975853265941312776966649575999699370245777496226357174286053234590452818281827
theorem test_aesXts : leNat (aesXts false tXtsKey 255 ((List.range 16).map (BitVec.ofNat 8))) = 0x9bcf70e3996c83e48603772f103a3b1c ∧
    aesXts true tXtsKey 255 (leBytes 16 0x9bcf70e3996c83e48603772f103a3b1c) = (List.range 16).map (BitVec.ofNat 8) := ⟨by decide +kernel, by decide +kernel⟩
/-- The small machine meets the invariant and has a next state. -/
theorem witness_StepsKeepTheInvariant : tS.Inv ∧ ∃ t, step { tS with inputs := [.turn .free] } = .next t :=
  ⟨⟨by decide +kernel, by decide +kernel, by decide +kernel, by decide +kernel, by decide +kernel⟩, ⟨_, rfl⟩⟩

/-! ## Witnesses of single clauses -/

/-- BRX.U: targets in v0 and v1 that are aligned and differ, with every active fibre in the mask. -/
theorem witness_BranchesOfUnequalTargets : Ready tS tC tPl (tFib 0) (M 2 0 0 0x100).guard ∧ (M 2 0 0 0x100).mod = 1 ∧
    tC.lowest tPl (M 2 0 0 0x100).guard = some (tFib 0) ∧ ((tFib 0).getVD 0).toNat % 4 = 0 ∧
    tC.masked tPl (M 2 0 0 0x100).guard = tC.actives tPl ∧ (∃ f ∈ tC.acting tPl (M 2 0 0 0x100).guard, f.getVD 0 ≠ (tFib 0).getVD 0) ∧
    ∀ f ∈ tC.fibres, f.idx ∈ tC.actives tPl → f.fctl.getLsbD 1 = false :=
  ⟨ready_of (by decide +kernel), by decide +kernel, by decide +kernel, by decide +kernel, by decide +kernel,
    ⟨tFib 1, by decide +kernel, by decide +kernel⟩, by decide +kernel⟩
/-- 64 fibres at a pack point; a fibre in the handler with a level of its own, and one with a level from before. -/
def tAll : Coil := { tC with fibres := (List.range 64).map tFib }
theorem witness_FullPackPoints : Ready (tWith tAll) tAll tPl (tFib 0) (M 0 0 0 0).guard ∧
    64 ≤ ((tAll.fibres.filter (fun f => (tAll.masked tPl (M 0 0 0 0).guard).contains f.idx || f.status = .held (tFib 0).pc .pack)).map Fibre.idx).length :=
  ⟨ready_of (by decide +kernel), by decide +kernel⟩
theorem witness_LevelsOfTheHandler : let l : Loop := { start := 8, lend := 32, count := 2 }
    (∃ f : Fibre, f.handler = true ∧ f.loops = l :: [] ∧ f.outer = ([] : List Loop).length + 1) ∧
    ∃ f : Fibre, f.handler = true ∧ f.loops = l :: [] ∧ f.outer = ([] : List Loop).length :=
  ⟨⟨{ tFib 0 with handler := true, loops := [⟨8, 32, 2⟩], outer := 1 }, rfl, rfl, rfl⟩,
    ⟨{ tFib 0 with handler := true, loops := [⟨8, 32, 2⟩] }, rfl, rfl, rfl⟩⟩
/-- A group of four, whose lane 1 does not contribute: sources inside, absent and outside the group. -/
def tArr (i : Nat) (v : List Word) : Option Arrival := some { fibre := i, contrib := true, vals := v, preds := if i = 2 then 2 else 0 }
def tLanes : Lanes := [tArr 0 [5, 1], none, tArr 2 [5, 9], tArr 3 [7, 1]]
def tOwn (i : Nat) (v : List Word) : Arrival := { fibre := i, contrib := true, vals := v, preds := 0 }
theorem witness_CollectivesGive : tLanes.length ≤ 32 ∧ 3 < tLanes.length ∧ tLanes.length = 2 ^ 2 ∧ (M 1 2 0x10 0x100).mod < 4 ∧
    (M 1 2 0x10 0x100).mod = 1 ∧ 2 + (M 1 2 0x10 0x100).b.toNat / 16 = 3 ∧ tLanes[2]? = some (tArr 2 [5, 9]) ∧ tLanes[1]? = some none ∧
    tLanes.length ≤ (M 1 2 0x40 0).b.toNat / 16 ∧ (M 1 0 6 (6 * 256)).mod % 4 < 3 ∧ ∃ m : Main, m.mod % 4 < 3 ∧ ¬ 4 ≤ m.mod :=
  ⟨by decide, by decide, rfl, by decide +kernel, by decide +kernel, by decide +kernel, rfl, rfl, by decide +kernel, by decide +kernel, M 1 0 6 0, by decide +kernel⟩
/-- 06_control.md R170, R171, R174, R175: MATCH; SHFL.UP of one from a lane, from one that does not contribute and from none; SCAN.ADD with a head in
lane 2, and its exclusive form; GRED.ADD. -/
theorem test_gifts : (matchGift (M 1 2 0 0) tLanes 0 (tOwn 0 [5, 1])).v = [(1, 1)] ∧
    [3, 2, 0].map (fun k => (shflGift (M 1 2 0x10 0x100) tLanes k (tOwn k [40, 0])).v) = [[(1, 5)], [(1, 0)], [(1, 40)]] ∧
    [0, 1, 2, 3].map (fun k => (scanGift (M 1 2 0x80 0x100) tLanes k (tOwn k [])).v) = [[(1, 5)], [(1, 5)], [(1, 5)], [(1, 12)]] ∧
    [0, 1, 2, 3].map (fun k => (scanGift (M 1 2 0x40 0) tLanes k (tOwn k [])).v) = [[(1, 0)], [(1, 5)], [(1, 5)], [(1, 10)]] ∧
    (gredGift (M 1 2 0 0) tLanes 3 (tOwn 3 [])).v = [(1, 17)] := by decide +kernel
/-- 05_special.md R142: the row 10000.0 to 10003.0; R141 with 04_floating.md R105: one signalling NaN; R144: two entries of +∞. -/
def tRow : Row := [some 0x461C4000, some 0x461C4400, some 0x461C4800, some 0x461C4C00]
theorem test_rows : rowStatOut tRow = ⟨[], [0x461C4600, 0x3FA00000], 0⟩ ∧ rowMax false false [none, some 0x7F800001] = ⟨[], [0x7FC00000], flagNv⟩ ∧
    smaxOut 0x3F800000 [some 0x7F800000, some 0, none, some 0x7F800000] = ⟨[0x3F000000, 0, 0, 0x3F000000], [0x7F800000, 0x40000000], 0⟩ := by
  decide +kernel
theorem tame {y : Word} (h : wild y = false) : (fval y).isNan = false ∧ fval y ≠ .inf true ∧ fval y ≠ .inf false := by
  unfold wild at h
  cases e : fval y with
  | fin s n k => exact ⟨rfl, Val.noConfusion, Val.noConfusion⟩
  | inf s => rw [e] at h; cases h
  | nan g => rw [e] at h; cases h
/-- Rows: of numbers, empty, with a NaN, with an infinite entry, and with −∞ alone; elements of a lane that a predicate or the mask hides, and not. -/
theorem witness_RowsGive : tRow.length ≤ 2 ^ 2 ∧ 2 ^ (2 - 1) < tRow.length ∧ tRow.filterMap id ≠ [] ∧ (tRow.filterMap id).head? = some 0x461C4000 ∧
    (∀ y ∈ tRow.filterMap id, (fval y).isNan = false ∧ fval y ≠ .inf true ∧ fval y ≠ .inf false) ∧
    ([none] : Row).length ≤ 2 ^ 0 ∧ ([none] : Row).filterMap id = [] ∧ (fval 0x7FC00000).isNan = true ∧ fval 0x7F800000 = .inf false ∧
    (carry fmulW (0xFF800000, 0) (0x3F800000, 0)).1 = 0xFF800000 ∧ (carry fmulW (0x7F800000, 0) (0x3F800000, 0)).1 = 0x7F800000 := by
  have h : (tRow.filterMap id).all (fun y => !wild y) = true := by decide +kernel
  have k : ∀ y ∈ tRow.filterMap id, wild y = false := by simpa only [List.all_eq_true, Bool.not_eq_true'] using h
  exact ⟨by decide, by decide, List.cons_ne_nil _ _, rfl, fun y hy => tame (k y hy), by decide, rfl, by decide +kernel⟩
theorem witness_RowsSpread : (∃ d : Word, rowKind d = 1 ∧ rowIdx d ≠ 0 ∧ (0 : BitVec 16).getLsbD (rowIdx d) = false) ∧
    (∃ d : Word, rowKind d = 2 ∧ 128 ≤ (rowKoff d + 0) / 64) ∧ rowKind 0 = 0 ∧ 0 < rowC 0 ∧ 3 < tLanes.length ∧ (M 1 0 6 0).mod < 4 :=
  ⟨⟨0xA00, by decide +kernel⟩, ⟨0x20000400, by decide +kernel⟩, by decide +kernel⟩
/-- A block whose elements are in the scratchpad and whose scale is in memory. -/
def tCMx : Coil := { tC with hs := tC.hs.set 4 (some { base := 0, len := 4096, attr := 0x1010F, peer := 0, egrp := 0, tkey := 0, sync := 0, idx := 6, scale := some (0x401000, 256) }) }
theorem witness_BlocksOfTheScratchpad : ∃ h l v w, Ready (tWith tCMx) tCMx tPl (tFib 0) (M 59 0 0 0x40F).guard ∧ tCMx.slot 4 = some h ∧ h.space = 3 ∧
    (tWith tCMx).draw.2.mxLanes tCMx h true ((M 59 0 0 0x40F).offsets (M 59 0 0 0x40F).memOff tCMx tPl) = (l, [], v) ∧
    tCMx.watchHit false true (l.flatMap (fun e => [⟨e.1, e.2.1⟩, ⟨e.1, e.2.2⟩])) = none ∧ v.spotFaults (l.map (fun e => ⟨e.1, e.2.2⟩)) = ([], w) :=
  ⟨(tCMx.slot 4).getD tC.scratchHandle, _, _, _, ready_of (by decide +kernel), by decide +kernel, by decide +kernel,
    triple_of (by decide +kernel), by decide +kernel, pair_of (by decide +kernel)⟩
/-- A leaf of 2 MiB, entries that break their format at each kind of level, an address that is too high, and an address space without a root. -/
theorem witness_TranslationsFail : (let e := tTbl.peek64 0x5008
      e.getLsbD 1 = true ∧ e.getLsbD 0 = true ∧ e.getLsbD 7 = false ∧ e.toNat < 2 ^ 52 ∧ pteAddr e % 2 ^ 21 = 0 ∧ e.getLsbD 2 = true ∧ e.getLsbD 3 = true) ∧
    (∃ e : DWord, e.getLsbD 0 = true ∧ pteAddr e % 2 ^ 12 ≠ 0) ∧ (∃ e : DWord, e.getLsbD 0 = true ∧ 2 ^ 52 ≤ e.toNat) ∧
    (0x200000000000000 : BitVec 64).toNat = 2 ^ 57 ∧ (tTbl.peek64 (tTbl.regs.asidtab.toNat + 8 * 2)).getLsbD 0 = false :=
  ⟨by decide +kernel, ⟨0x101, by decide +kernel⟩, ⟨0x8000000000000001, by decide +kernel⟩, by decide, by decide +kernel⟩
/-- Unit 3 of the scratchpad, which fibre 0 has written and fibre 1 may still find as it was; a read of its last four bytes. -/
def tOlds : Coil := tC.noteOld tS none (fun _ => List.replicate 32 (5, false)) [(0, 3)]
theorem witness_UnitsShowWhole : (∃ e ∈ tOlds.olds, e.tile = none ∧ e.unit = 3 ∧ 1 ∈ e.hid ∧ 0 ∉ e.hid ∧ e.old = List.replicate 32 (5, false)) ∧
    124 % 32 + [((0 : Byte), false), (0, false), (0, false), (0, false)].length ≤ 32 ∧ 124 / 32 = 3 ∧ 1 ∈ tC.live ∧
    (1, 3) ∉ [((0 : Nat), (3 : Nat))] ∧ (tOlds.sees [1]).olds = [] :=
  ⟨⟨_, List.mem_cons_self, by decide +kernel⟩, by decide +kernel⟩
/-- Items of an RCB whose record is its own, and a sector that lies in no parity area. -/
theorem witness_OwnRecords : tLS.rcbHome 1 0x300000 = (1, 0x300000) ∧ (tSurvS 1 [] tOnes).parityGroup 0x900000 = none := by decide +kernel
/-- Registers after a good boot, after a bad one, with debugging open and closed; commands, drains and queue operations after a good boot. -/
theorem witness_BootedRegisters : (tDbg 4).rsc.booted = true ∧ (tDbg 4).dbgOpen = true ∧ (tDbg 2).dbgOpen = false ∧ (tDbg 2).rsc.booted = true ∧
    tS.rsc.booted = true ∧ (tSurvS 2 [1] tZeros).rsc.booted = true ∧ (tQs true 2 []).rsc.booted = true ∧
    ∃ s : State, s.rsc.booted = false ∧ s.regs.coilcmd.getLsbD 0 = false :=
  ⟨rfl, by decide +kernel, by decide +kernel, rfl, rfl, rfl, rfl, ⟨{ tS with rsc := { tS.rsc with booted := false } }, rfl, by decide +kernel⟩⟩
/-- A coil that is stopped without a step to make, and one that takes no PREEMPT. -/
def tStill : Coil := { tIn .stopped with fibres := [] }
theorem witness_StepsOfNone : (tWith tStill).cmdCoil (tCmdWord 6) = some tStill ∧ tStill.st = .stopped ∧ tStill.steps = [] ∧
    (tIn (.saved true)).st ≠ .running ∧ (tIn (.saved true)).st ≠ .stopped := by decide +kernel
/-- An access that starts four bytes below the register window and reaches into it. -/
theorem witness_ReachingIn : (BitVec.ofNat 64 (windowBase - 4)).toNat < windowBase ∧ windowBase < (BitVec.ofNat 64 (windowBase - 4)).toNat + 8 ∧
    tS.rsc.booted = true ∧ 15 < 16 := ⟨by decide +kernel, by decide +kernel, rfl, by decide⟩
/-- Gathers that are not drained, and a future that has been resolved with a value. -/
theorem witness_UndrainedGathers : tGathK.drain = false ∧ tGathK.started = true ∧ 0 ∈ tGathK.todo ∧ tGathK.kind.isCopy = false ∧
    (tCmdS tGathK).coil? tGathK.coil = some tC := by decide +kernel

end Sys2Proof.Tests
end

section
/-! PROOFS. The fields of the three formats (02_encoding.md R26 to R37; 11_matrix.md R326): the words of an instruction hold its fields, and
the fields of words make up the words. -/

namespace Sys2Proof

/-! ## Fields of words -/

theorem DWord.hi_eq_extract (w : BitVec 64) : DWord.hi w = w.extractLsb' 32 32 := BitVec.eq_of_toNat_eq (by simp [DWord.hi])

theorem DWord.lo_eq_extract (w : BitVec 64) : DWord.lo w = w.extractLsb' 0 32 := BitVec.eq_of_toNat_eq (by simp [DWord.lo])

theorem DWord.hi_append_lo (w : BitVec 64) : (DWord.hi w ++ DWord.lo w : BitVec 64) = w := by
  rw [DWord.hi_eq_extract, DWord.lo_eq_extract]
  exact BitVec.extractLsb'_append_extractLsb' (w := 32) (len := 32)

theorem DWord.hi_append (w1 w0 : Word) : DWord.hi (w1 ++ w0) = w1 :=
  (DWord.hi_eq_extract _).trans BitVec.extractLsb'_append_eq_left

theorem DWord.lo_append (w1 w0 : Word) : DWord.lo (w1 ++ w0) = w0 :=
  (DWord.lo_eq_extract _).trans BitVec.extractLsb'_append_eq_right

/-- A field of the first word is that field of the double word. -/
theorem field_of_append (w1 w0 : Word) (s l : Nat) (h : s + l ≤ 32) :
    (w1 ++ w0 : BitVec 64).extractLsb' s l = BitVec.ofNat l (w0.toNat / 2 ^ s) := by
  refine (BitVec.extractLsb'_append_eq_of_add_le h).trans (BitVec.eq_of_toNat_eq ?_)
  simp [Nat.shiftRight_eq_div_pow]

theorem toNat_lo_field (w : BitVec 64) (s l : Nat) (h : s + l ≤ 32) : (DWord.lo w).toNat / 2 ^ s % 2 ^ l = (w.extractLsb' s l).toNat := by
  have hw := congrArg BitVec.toNat (field_of_append (DWord.hi w) (DWord.lo w) s l h)
  rw [DWord.hi_append_lo, BitVec.toNat_ofNat] at hw
  exact hw.symm

theorem lenOf_lo (w : BitVec 64) : lenOf (DWord.lo w) = (w.extractLsb' 0 2).toNat := by
  have hw := toNat_lo_field w 0 2 (by decide)
  rw [Nat.pow_zero, Nat.div_one] at hw
  exact hw

theorem opcOf_lo (w : BitVec 64) : opcOf (DWord.lo w) = (w.extractLsb' 17 8).toNat :=
  toNat_lo_field w 17 8 (by decide)

theorem litLen_toNat (lit : Option Word) : (litLen lit).toNat = if lit.isSome then 2 else 1 := by
  cases lit <;> rfl

/-- LEN of a main format is the low two bits of its words. -/
theorem litLen_eq_extract (w0 w1 : Word) (lit : Option Word) (h : lenOf w0 = if lit.isSome then 2 else 1) :
    litLen lit = (w1 ++ w0 : BitVec 64).extractLsb' 0 2 := by
  rw [field_of_append _ _ 0 2 (by decide)]
  refine BitVec.eq_of_toNat_eq ?_
  cases lit <;> simpa [lenOf, litLen] using h.symm

theorem opcOf_eq_extract (w0 w1 : Word) : BitVec.ofNat 8 (opcOf w0) = (w1 ++ w0 : BitVec 64).extractLsb' 17 8 := by
  rw [field_of_append _ _ 17 8 (by decide)]
  exact BitVec.eq_of_toNat_eq (by simp [opcOf])

/-! ## Compact forms -/

/-- The word of a compact form, field by field (02_encoding.md R36). -/
theorem Compact.word_fields (cop : Nat) (f : Compact) :
    (f.word cop).extractLsb' 0 2 = 0 ∧ (f.word cop).extractLsb' 2 2 = f.dist ∧ (f.word cop).extractLsb' 4 1 = f.w ∧
    (f.word cop).extractLsb' 5 5 = BitVec.ofNat 5 cop ∧ (f.word cop).extractLsb' 10 8 = f.d ∧ (f.word cop).extractLsb' 18 8 = f.a ∧
    (f.word cop).extractLsb' 26 6 = f.b := by
  unfold Compact.word
  refine ⟨?_, ?_, ?_, ?_, ?_, ?_, ?top⟩
  all_goals
    change BitVec.extractLsb' (n := 6 + 8 + 8 + 5 + 1 + 2 + 2) _ _ _ = _
    repeat rw [BitVec.extractLsb'_append_eq_of_le (by decide)]
  case top => exact BitVec.extractLsb'_eq_self
  all_goals exact BitVec.extractLsb'_append_eq_right

theorem Compact.ofWord_word (cop : Nat) (f : Compact) : Compact.ofWord (f.word cop) = f := by
  obtain ⟨-, hdist, hw, -, hd, ha, hb⟩ := f.word_fields cop
  rw [Compact.ofWord, hdist, hw, hd, ha, hb]

theorem Compact.lenOf_word (cop : Nat) (f : Compact) : lenOf (f.word cop) = 0 := by
  simpa [lenOf] using congrArg BitVec.toNat (f.word_fields cop).1

theorem Compact.copOf_word (cop : Nat) (f : Compact) (h : cop < 32) : copOf (f.word cop) = cop := by
  obtain ⟨-, -, -, hcop, -⟩ := f.word_fields cop
  have hn : (f.word cop).toNat / 2 ^ 5 % 2 ^ 5 = cop % 2 ^ 5 := by
    simpa [Nat.shiftRight_eq_div_pow] using congrArg BitVec.toNat hcop
  exact hn.trans (Nat.mod_eq_of_lt h)

theorem Compact.word_ofWord (w : Word) (h : lenOf w = 0) : (Compact.ofWord w).word (copOf w) = w := by
  have hlen : (0 : BitVec 2) = w.extractLsb' 0 2 := BitVec.eq_of_toNat_eq (by simpa [lenOf] using h.symm)
  have hcop : BitVec.ofNat 5 (copOf w) = w.extractLsb' 5 5 := BitVec.eq_of_toNat_eq (by simp [copOf, Nat.shiftRight_eq_div_pow])
  simp only [Compact.word, Compact.ofWord, hlen, hcop, BitVec.extractLsb'_append_extractLsb'_eq_extractLsb', BitVec.extractLsb'_eq_self]

/-! ## Main forms -/

/-- The first two words of a main form, field by field (02_encoding.md R28). -/
theorem Main.bits_fields (opc : Nat) (m : Main) :
    (m.bits opc).extractLsb' 0 2 = litLen m.lit ∧ (m.bits opc).extractLsb' 2 3 = m.dist ∧ (m.bits opc).extractLsb' 5 12 = m.wait ∧
    (m.bits opc).extractLsb' 17 8 = BitVec.ofNat 8 opc ∧ (m.bits opc).extractLsb' 25 3 = m.gsel ∧ (m.bits opc).extractLsb' 28 1 = m.gneg ∧
    (m.bits opc).extractLsb' 29 8 = m.d ∧ (m.bits opc).extractLsb' 37 8 = m.a ∧ (m.bits opc).extractLsb' 45 8 = m.b ∧
    (m.bits opc).extractLsb' 53 11 = m.x := by
  unfold Main.bits
  refine ⟨?_, ?_, ?_, ?_, ?_, ?_, ?_, ?_, ?_, ?top⟩
  all_goals
    change BitVec.extractLsb' (n := 11 + 8 + 8 + 8 + 1 + 3 + 8 + 12 + 3 + 2) _ _ _ = _
    repeat rw [BitVec.extractLsb'_append_eq_of_le (by decide)]
  case top => exact BitVec.extractLsb'_eq_self
  all_goals exact BitVec.extractLsb'_append_eq_right

theorem Main.ofWords_bits (opc : Nat) (m : Main) : Main.ofWords (DWord.lo (m.bits opc)) (DWord.hi (m.bits opc)) m.lit = m := by
  obtain ⟨-, hdist, hwait, -, hgsel, hgneg, hd, ha, hb, hx⟩ := m.bits_fields opc
  simp only [Main.ofWords, DWord.hi_append_lo, hdist, hwait, hgsel, hgneg, hd, ha, hb, hx]

theorem Main.lenOf_bits (opc : Nat) (m : Main) : lenOf (DWord.lo (m.bits opc)) = if m.lit.isSome then 2 else 1 := by
  rw [lenOf_lo, (m.bits_fields opc).1, litLen_toNat]

theorem Main.opcOf_bits (opc : Nat) (m : Main) (h : opc < 256) : opcOf (DWord.lo (m.bits opc)) = opc := by
  obtain ⟨-, -, -, hopc, -⟩ := m.bits_fields opc
  rw [opcOf_lo, hopc, BitVec.toNat_ofNat, Nat.mod_eq_of_lt h]

theorem Main.bits_ofWords (w0 w1 : Word) (lit : Option Word) (h : lenOf w0 = if lit.isSome then 2 else 1) :
    (Main.ofWords w0 w1 lit).bits (opcOf w0) = w1 ++ w0 := by
  simp only [Main.bits, Main.ofWords, litLen_eq_extract w0 w1 lit h, opcOf_eq_extract w0 w1,
    BitVec.extractLsb'_append_extractLsb'_eq_extractLsb', BitVec.extractLsb'_eq_self]

/-! ## MCC forms -/

/-- The first two words of an MCC form, field by field; bits 28:25 are 0 (11_matrix.md R326). -/
theorem Mcc.bits_fields (opc : Nat) (m : Mcc) :
    (m.bits opc).extractLsb' 0 2 = litLen m.lit ∧ (m.bits opc).extractLsb' 2 15 = m.e ∧ (m.bits opc).extractLsb' 17 8 = BitVec.ofNat 8 opc ∧
    (m.bits opc).extractLsb' 25 4 = 0 ∧ (m.bits opc).extractLsb' 29 8 = m.d ∧ (m.bits opc).extractLsb' 37 8 = m.a ∧
    (m.bits opc).extractLsb' 45 8 = m.b ∧ (m.bits opc).extractLsb' 53 11 = m.x := by
  unfold Mcc.bits
  refine ⟨?_, ?_, ?_, ?_, ?_, ?_, ?_, ?top⟩
  all_goals
    change BitVec.extractLsb' (n := 11 + 8 + 8 + 8 + 4 + 8 + 15 + 2) _ _ _ = _
    repeat rw [BitVec.extractLsb'_append_eq_of_le (by decide)]
  case top => exact BitVec.extractLsb'_eq_self
  all_goals exact BitVec.extractLsb'_append_eq_right

theorem Mcc.ofWords_bits (opc : Nat) (m : Mcc) : Mcc.ofWords (DWord.lo (m.bits opc)) (DWord.hi (m.bits opc)) m.lit = m := by
  obtain ⟨-, he, -, -, hd, ha, hb, hx⟩ := m.bits_fields opc
  simp only [Mcc.ofWords, DWord.hi_append_lo, he, hd, ha, hb, hx]

theorem Mcc.lenOf_bits (opc : Nat) (m : Mcc) : lenOf (DWord.lo (m.bits opc)) = if m.lit.isSome then 2 else 1 := by
  rw [lenOf_lo, (m.bits_fields opc).1, litLen_toNat]

theorem Mcc.opcOf_bits (opc : Nat) (m : Mcc) (h : opc < 256) : opcOf (DWord.lo (m.bits opc)) = opc := by
  obtain ⟨-, -, hopc, -⟩ := m.bits_fields opc
  rw [opcOf_lo, hopc, BitVec.toNat_ofNat, Nat.mod_eq_of_lt h]

/-- Bits 28:25 of the first word are those of the double word. -/
theorem gap_of_append (w1 w0 : Word) : w0.extractLsb' 25 4 = (w1 ++ w0 : BitVec 64).extractLsb' 25 4 :=
  (BitVec.extractLsb'_append_eq_of_add_le (by decide)).symm

theorem Mcc.gap_bits (opc : Nat) (m : Mcc) : (DWord.lo (m.bits opc)).extractLsb' 25 4 = 0 := by
  obtain ⟨-, -, -, hgap, -⟩ := m.bits_fields opc
  rw [gap_of_append (DWord.hi (m.bits opc)), DWord.hi_append_lo, hgap]

theorem Mcc.bits_ofWords (w0 w1 : Word) (lit : Option Word) (h : lenOf w0 = if lit.isSome then 2 else 1) (hg : w0.extractLsb' 25 4 = 0) :
    (Mcc.ofWords w0 w1 lit).bits (opcOf w0) = w1 ++ w0 := by
  have h0 : (0 : BitVec 4) = (w1 ++ w0 : BitVec 64).extractLsb' 25 4 := by rw [← gap_of_append, hg]
  simp only [Mcc.bits, Mcc.ofWords, litLen_eq_extract w0 w1 lit h, opcOf_eq_extract w0 w1, h0,
    BitVec.extractLsb'_append_extractLsb'_eq_extractLsb', BitVec.extractLsb'_eq_self]

end Sys2Proof
end

section
/-! PROOFS. The opcodes, the decoder and the encoder (02_encoding.md R26 to R51; 11_matrix.md R326, R327): an instruction's opcode and selecting
fields pick it and nothing else, so that decoding and encoding are inverse on what does not offend. -/

namespace Sys2Proof

/-! ## Opcodes -/

theorem Main.mod_lt (m : Main) : m.mod < 8 := by
  have := m.x.isLt
  unfold Main.mod
  omega

/-- What an opcode of a SIMT core picks has that opcode, and the fields that select it. -/
theorem form_of_pickSimt {i : Instr} {opc : Nat} {m : Main} (h : pickSimt opc m = .op i) :
    i.form = .main opc m ∧ i.selects = true := by
  have hm := m.mod_lt
  unfold pickSimt at h
  repeat' split at h
  all_goals
    simp only [pickSimt0, pickSimt1, pickSimt2, pickSimt3, pickSimt4, pickSimt5, pickSimt6, pickSimt7, pickSimt8, pickSimt9, reduceCtorEq] at h
    repeat' split at h
    all_goals cases h <;> exact ⟨rfl, by simp only [Instr.selects, decide_eq_true_eq] <;> omega⟩

theorem form_of_pickMcc {i : Instr} {opc : Nat} {m : Mcc} (h : pickMcc opc m = some (some i)) :
    i.form = .mcc opc m ∧ i.selects = true := by
  unfold pickMcc at h
  repeat' split at h
  all_goals cases h <;> exact ⟨rfl, by simp only [Instr.selects, decide_eq_true_eq] <;> omega⟩

theorem pickMcc_range {x} {opc : Nat} {m : Mcc} (h : pickMcc opc m = some x) : 0xE0 ≤ opc ∧ opc < 256 := by
  unfold pickMcc at h
  split at h
  all_goals cases h <;> omega

theorem form_of_pickCompact {i : Instr} {cop : Nat} {f : Compact} (h : pickCompact cop f = some i) :
    i.form = .compact cop f ∧ i.selects = true := by
  unfold pickCompact at h
  split at h
  all_goals cases h <;> exact ⟨rfl, rfl⟩

/-- The opcode of a main form picks it, where constructors share the opcode by the field that selects. -/
theorem pickSimt_of_form {i : Instr} {opc : Nat} {m : Main} (h : i.form = .main opc m) (hs : i.selects = true) :
    pickSimt opc m = .op i ∧ opc < 256 := by
  cases i
  all_goals cases h
  all_goals simp_all [pickSimt, pickSimt0, pickSimt1, pickSimt2, pickSimt3, pickSimt4, pickSimt5, pickSimt6, pickSimt7,
    pickSimt8, pickSimt9, Instr.selects]

theorem pickMcc_of_form {i : Instr} {opc : Nat} {m : Mcc} (h : i.form = .mcc opc m) (hs : i.selects = true) :
    pickMcc opc m = some (some i) ∧ opc < 256 := by
  cases i
  all_goals cases h
  all_goals simp_all [pickMcc, Instr.selects]

theorem pickCompact_of_form {i : Instr} {cop : Nat} {f : Compact} (h : i.form = .compact cop f) : pickCompact cop f = some i ∧ cop < 32 := by
  cases i
  all_goals cases h
  all_goals exact ⟨rfl, by decide⟩

/-! ## Offences -/

theorem firstOffence_eq_none {l : List (Bool × Offence)} : firstOffence l = none ↔ ∀ e ∈ l, e.1 = false := by
  induction l with
  | nil => simp [firstOffence]
  | cons e r ih =>
    obtain ⟨b, o⟩ := e
    cases b <;> simp [firstOffence, ih]

/-- An MCC instruction with a bit of its reserved gap set is refused (11_matrix.md R326). -/
theorem mccOffence_gap {i : Instr} {m : Mcc} {g : Nat} (h : mccOffence i m g = none) : g = 0 := by
  have hr := Decidable.not_not.mp (of_decide_eq_false (firstOffence_eq_none.mp h _ (List.mem_cons_of_mem _ List.mem_cons_self)))
  simp only [Nat.add_eq_zero_iff] at hr
  obtain ⟨⟨⟨⟨⟨hg, -⟩, -⟩, -⟩, -⟩, -⟩ := hr
  omega

theorem Decoded.unless_eq_ok {i j : Instr} {o : Option Offence} : Decoded.unless i o = .ok j ↔ i = j ∧ o = none := by
  cases o <;> simp [Decoded.unless]

theorem Instr.wfIn_iff {win : Nat} {i : Instr} : i.wfIn win = true ↔ i.selects = true ∧ i.offence win = none := by
  simp [Instr.wfIn]

/-! ## The decoder -/

/-- The literal of a main format: the third word, where LEN says that there is one (02_encoding.md R26, R30). -/
def litOf (w0 w2 : Word) : Option Word := if lenOf w0 = 2 then some w2 else none

theorem lenOf_of_main {w0 : Word} (w2 : Word) (h : lenOf w0 = 1 ∨ lenOf w0 = 2) : lenOf w0 = if (litOf w0 w2).isSome then 2 else 1 := by
  rcases h with h | h <;> simp [litOf, h]

theorem lenOf_cases (w : Word) : lenOf w = 0 ∨ lenOf w = 3 ∨ lenOf w = 1 ∨ lenOf w = 2 := by
  have : lenOf w < 4 := Nat.mod_lt _ (by decide)
  omega

theorem decodeSimt_compact {win : Nat} {w0 w1 w2 : Word} {i : Instr} (h : lenOf w0 = 0) :
    decodeSimt win w0 w1 w2 = .ok i ↔ pickCompact (copOf w0) (Compact.ofWord w0) = some i ∧ compactOffence win i (Compact.ofWord w0) = none := by
  unfold decodeSimt
  rw [if_neg (by omega), if_pos h]
  cases hp : pickCompact (copOf w0) (Compact.ofWord w0) with
  | none => simp
  | some j =>
    simp only [Decoded.unless_eq_ok, Option.some.injEq]
    exact and_congr_right (by rintro rfl; rfl)

theorem decodeSimt_main {win : Nat} {w0 w1 w2 : Word} {i : Instr} (h : lenOf w0 = 1 ∨ lenOf w0 = 2) :
    decodeSimt win w0 w1 w2 = .ok i ↔
      pickSimt (opcOf w0) (Main.ofWords w0 w1 (litOf w0 w2)) = .op i ∧ mainOffence win i (Main.ofWords w0 w1 (litOf w0 w2)) = none := by
  have h3 : lenOf w0 ≠ 3 := by omega
  have h0 : lenOf w0 ≠ 0 := by omega
  simp only [decodeSimt, h3, h0, if_false]
  rw [← litOf]
  cases hp : pickSimt (opcOf w0) (Main.ofWords w0 w1 (litOf w0 w2)) with
  | op j =>
    simp only [Decoded.unless_eq_ok, Picked.op.injEq]
    exact and_congr_right (by rintro rfl; rfl)
  | noOpcode => simp
  | badMod => simp
  | badD => simp

theorem decodeMcc_main {w0 w1 w2 : Word} {i : Instr} (h : lenOf w0 = 1 ∨ lenOf w0 = 2) :
    decodeMcc w0 w1 w2 = .ok i ↔ pickMcc (opcOf w0) (Mcc.ofWords w0 w1 (litOf w0 w2)) = some (some i) ∧
      mccOffence i (Mcc.ofWords w0 w1 (litOf w0 w2)) (w0.extractLsb' 25 4).toNat = none := by
  have h3 : lenOf w0 ≠ 3 := by omega
  have h0 : lenOf w0 ≠ 0 := by omega
  simp only [decodeMcc, h3, h0, decide_false, Bool.or_self, Bool.false_eq_true, if_false]
  rw [← litOf]
  cases hp : pickMcc (opcOf w0) (Mcc.ofWords w0 w1 (litOf w0 w2)) with
  | none => simp
  | some p =>
    cases p with
    | none => simp
    | some j =>
      simp only [Decoded.unless_eq_ok, Option.some.injEq]
      exact and_congr_right (by rintro rfl; rfl)

theorem decodeMcc_length {w0 : Word} (w1 w2 : Word) (h : lenOf w0 = 0 ∨ lenOf w0 = 3) : decodeMcc w0 w1 w2 = .bad ⟨1, 0, 0xFF⟩ :=
  if_pos (by simpa using h.symm)

/-! ## Encoding, then decoding -/

theorem decode_compact {win cop : Nat} {i : Instr} {f : Compact} (hf : i.form = .compact cop f) (ho : compactOffence win i f = none) :
    decodeSimt win (f.word cop) 0 0 = .ok i := by
  obtain ⟨hp, hc⟩ := pickCompact_of_form hf
  rw [decodeSimt_compact (Compact.lenOf_word cop f), Compact.ofWord_word, Compact.copOf_word cop f hc]
  exact ⟨hp, ho⟩

theorem litOf_of_len {w0 : Word} {lit : Option Word} (h : lenOf w0 = if lit.isSome then 2 else 1) : litOf w0 (lit.getD 0) = lit := by
  cases lit <;> simp_all [litOf]

theorem decode_main {win opc : Nat} {i : Instr} {m : Main} (hf : i.form = .main opc m) (hs : i.selects = true) (ho : mainOffence win i m = none) :
    decodeSimt win (DWord.lo (m.bits opc)) (DWord.hi (m.bits opc)) (m.lit.getD 0) = .ok i := by
  obtain ⟨hp, hc⟩ := pickSimt_of_form hf hs
  have hl := m.lenOf_bits opc
  rw [decodeSimt_main (by rw [hl]; cases m.lit <;> simp), litOf_of_len hl, Main.ofWords_bits, Main.opcOf_bits opc m hc]
  exact ⟨hp, ho⟩

theorem decode_mcc {opc : Nat} {i : Instr} {m : Mcc} (hf : i.form = .mcc opc m) (hs : i.selects = true) (ho : mccOffence i m 0 = none) :
    decodeMcc (DWord.lo (m.bits opc)) (DWord.hi (m.bits opc)) (m.lit.getD 0) = .ok i := by
  obtain ⟨hp, hc⟩ := pickMcc_of_form hf hs
  have hl := m.lenOf_bits opc
  rw [decodeMcc_main (by rw [hl]; cases m.lit <;> simp), litOf_of_len hl, Mcc.ofWords_bits, Mcc.opcOf_bits opc m hc, Mcc.gap_bits]
  exact ⟨hp, ho⟩

theorem decode_words_of_lit (mcc : Bool) (win : Nat) (w0 w1 : Word) (lit : Option Word) :
    decode mcc win ([w0, w1] ++ lit.toList) = if mcc then decodeMcc w0 w1 (lit.getD 0) else decodeSimt win w0 w1 (lit.getD 0) := by
  cases lit <;> rfl

/-- Settles O52, by the form of the instruction: its words have its opcode and its fields, which pick it, and it does not offend. -/
theorem encodedInstructionsDecode : Obligations.EncodedInstructionsDecode := by
  intro win i hev hwf
  obtain ⟨hs, ho⟩ := Instr.wfIn_iff.mp hwf
  cases hf : i.form with
  | compact cop f =>
    simp only [Instr.offence, hf] at ho
    simp only [encode, Instr.isMcc, hf]
    exact decode_compact hf ho
  | main opc m =>
    simp only [Instr.offence, hf] at ho
    simp only [encode, Instr.isMcc, hf, decode_words_of_lit]
    exact decode_main hf hs ho
  | mcc opc m =>
    simp only [Instr.offence, hf] at ho
    simp only [encode, Instr.isMcc, hf, decode_words_of_lit]
    exact decode_mcc hf hs ho
  | event => exact absurd hf hev

/-! ## Decoding, then encoding -/

theorem words_main {w0 : Word} (w1 w2 : Word) (h : lenOf w0 = 1 ∨ lenOf w0 = 2) :
    [w0, w1] ++ (litOf w0 w2).toList = [w0, w1, w2].take (wordsOf w0) := by
  rcases h with h | h <;> simp [litOf, wordsOf, h]

theorem encode_of_decodeSimt {win : Nat} {w0 w1 w2 : Word} {i : Instr} (h : decodeSimt win w0 w1 w2 = .ok i) :
    i.wfIn win = true ∧ i.isMcc = false ∧ encode i = [w0, w1, w2].take (wordsOf w0) := by
  rcases lenOf_cases w0 with h0 | h3 | hm
  · obtain ⟨hp, ho⟩ := (decodeSimt_compact h0).mp h
    obtain ⟨hf, hs⟩ := form_of_pickCompact hp
    refine ⟨Instr.wfIn_iff.mpr ⟨hs, by simpa only [Instr.offence, hf] using ho⟩, by simp only [Instr.isMcc, hf], ?_⟩
    simp [encode, hf, Compact.word_ofWord w0 h0, wordsOf, h0]
  · simp [decodeSimt, h3] at h
  · obtain ⟨hp, ho⟩ := (decodeSimt_main hm).mp h
    obtain ⟨hf, hs⟩ := form_of_pickSimt hp
    refine ⟨Instr.wfIn_iff.mpr ⟨hs, by simpa only [Instr.offence, hf] using ho⟩, by simp only [Instr.isMcc, hf], ?_⟩
    simp only [encode, hf, Main.bits_ofWords w0 w1 _ (lenOf_of_main w2 hm), DWord.lo_append, DWord.hi_append]
    exact words_main w1 w2 hm

theorem encode_of_decodeMcc {win : Nat} {w0 w1 w2 : Word} {i : Instr} (h : decodeMcc w0 w1 w2 = .ok i) :
    i.wfIn win = true ∧ i.isMcc = true ∧ encode i = [w0, w1, w2].take (wordsOf w0) := by
  rcases lenOf_cases w0 with h0 | h3 | hm
  · simp [decodeMcc_length w1 w2 (.inl h0)] at h
  · simp [decodeMcc_length w1 w2 (.inr h3)] at h
  · obtain ⟨hp, ho⟩ := (decodeMcc_main hm).mp h
    obtain ⟨hf, hs⟩ := form_of_pickMcc hp
    have hg := mccOffence_gap ho
    have hgap : w0.extractLsb' 25 4 = 0 := BitVec.eq_of_toNat_eq hg
    rw [hg] at ho
    refine ⟨Instr.wfIn_iff.mpr ⟨hs, by simpa only [Instr.offence, hf] using ho⟩, by simp only [Instr.isMcc, hf], ?_⟩
    simp only [encode, hf, Mcc.bits_ofWords w0 w1 _ (lenOf_of_main w2 hm) hgap, DWord.lo_append, DWord.hi_append]
    exact words_main w1 w2 hm

/-- Settles O53, by the length that the first word announces: what the decoder picks has the fields that it read. -/
theorem decodedWordsEncodeBack : Obligations.DecodedWordsEncodeBack := by
  intro mcc win w0 w1 w2 i h
  cases mcc with
  | false => exact encode_of_decodeSimt h
  | true => exact encode_of_decodeMcc h

/-! ## What is refused -/

theorem pickSimt_foreign {opc : Nat} (m : Main) (h : 0xE0 ≤ opc) : pickSimt opc m = .noOpcode := by
  unfold pickSimt
  repeat rw [if_neg (by omega)]

theorem pickMcc_foreign {opc : Nat} (m : Mcc) (h : opc < 0xE0) : pickMcc opc m = none := by
  cases hp : pickMcc opc m with
  | none => rfl
  | some x => exact absurd (pickMcc_range hp).1 (by omega)

theorem decodeSimt_no_opcode {win : Nat} {w0 w1 w2 : Word} (h : lenOf w0 = 1 ∨ lenOf w0 = 2) (ho : ∀ m, pickSimt (opcOf w0) m = .noOpcode) :
    decodeSimt win w0 w1 w2 = .bad ⟨2, 0, 17⟩ := by
  have h3 : lenOf w0 ≠ 3 := by omega
  have h0 : lenOf w0 ≠ 0 := by omega
  simp only [decodeSimt, h3, h0, if_false, ho]

theorem decodeMcc_no_opcode {w0 w1 w2 : Word} (h : lenOf w0 = 1 ∨ lenOf w0 = 2) (ho : ∀ m, pickMcc (opcOf w0) m = none) :
    decodeMcc w0 w1 w2 = .bad ⟨2, 0, 17⟩ := by
  have h3 : lenOf w0 ≠ 3 := by omega
  have h0 : lenOf w0 ≠ 0 := by omega
  simp only [decodeMcc, h3, h0, decide_false, Bool.or_self, Bool.false_eq_true, if_false, ho]

/-- A word of the MCC with a bit of the reserved gap set decodes to nothing. -/
theorem decodeMcc_gap {w0 w1 w2 : Word} {i : Instr} (h : decodeMcc w0 w1 w2 = .ok i) : w0.toNat / 2 ^ 25 % 16 = 0 := by
  rcases lenOf_cases w0 with h0 | h3 | hm
  · simp [decodeMcc_length w1 w2 (.inl h0)] at h
  · simp [decodeMcc_length w1 w2 (.inr h3)] at h
  · have hg := mccOffence_gap ((decodeMcc_main hm).mp h).2
    rwa [BitVec.extractLsb'_toNat, Nat.shiftRight_eq_div_pow] at hg

/-- Settles O54: the lengths, the unassigned compact opcode and the foreign opcodes answer their faults, and the reserved gap of the MCC offends. -/
theorem reservedEncodingsAreRefused : Obligations.ReservedEncodingsAreRefused := by
  intro win w0 w1 w2
  have len_main (h : w0.toNat % 4 ∈ [1, 2]) : lenOf w0 = 1 ∨ lenOf w0 = 2 := by simpa [lenOf] using h
  refine ⟨fun h => ⟨if_pos h, decodeMcc_length w1 w2 (.inr h)⟩, fun h => decodeMcc_length w1 w2 (.inl h), fun h hc => ?_,
    fun h ho => decodeSimt_no_opcode (len_main h) (fun m => pickSimt_foreign m ho),
    fun h ho => decodeMcc_no_opcode (len_main h) (fun m => pickMcc_foreign m ho), fun hg => ?_⟩
  · change decodeSimt win w0 w1 w2 = _
    simp [decodeSimt, lenOf, h, copOf, hc, pickCompact]
  · cases hd : decode true win [w0, w1, w2] with
    | bad o => exact ⟨o, rfl⟩
    | ok i => exact absurd (decodeMcc_gap hd) hg
/-! ## Words that the manual writes out -/

/-- Settles O51, by evaluating the decoder on each word. -/
theorem writtenOutWordsDecode : Obligations.WrittenOutWordsDecode := by
  unfold Obligations.WrittenOutWordsDecode
  decide +kernel

end Sys2Proof
end

section
/-! PROOFS. The step and what it runs (02_encoding.md R26, R27, R49; 08_memory.md R229; 15_system.md R439). -/

namespace Sys2Proof.Machine

/-! ## The step -/

theorem mapNext_mapNext (f g : State → State) (o : Host.Outcome State Fault Refusal) : mapNext f (mapNext g o) = mapNext (fun t => f (g t)) o := by
  cases o <;> rfl

/-- A step with an event of the inputs performs it. -/
theorem step_event {s : State} {i : Instr} {r : List Input} (h : s.inputs = .event i :: r) :
    step s = mapNext (fun t => s.profiled t.after) (exec i { s with inputs := r, tried := [] }) := by
  unfold step advance
  rw [h]
  exact mapNext_mapNext _ _ _

/-- A step of an issuer that has the turn runs it, and what ends the turn. -/
theorem step_turn {s : State} (hi : s.inputs = []) (ht : s.turn ≠ .free) : step s = mapNext (fun t => s.profiled t.endTurn.after) (runTurn s) := by
  unfold step advance
  rw [hi]
  simp only [if_neg ht]
  exact mapNext_mapNext _ _ _

theorem step_plait {s : State} {c : Coil} {pl : Place} {f0 : Fibre} (hi : s.inputs = []) (hc : s.coil? c.id = some c)
    (ht : s.turn = .plait c.id pl) (hf : (c.plait pl).head? = some f0) (hp : pl ∈ c.issuers) :
    step s = mapNext (fun t => s.profiled t.endTurn.after) (runAt s false c.window c.core c.asid f0.pc) := by
  obtain ⟨r, hr⟩ : ∃ r, c.plait pl = f0 :: r := List.head?_eq_some_iff.mp hf
  have hrun : runTurn s = runAt s false c.window c.core c.asid f0.pc := by
    simp only [runTurn, ht, hc, hr, List.contains_iff_mem.mpr hp, if_true]
  rw [step_turn hi (by simp [ht]), hrun]

theorem step_mcc {s : State} {c : Coil} {x : MccCtx} (hi : s.inputs = []) (hc : s.coil? c.id = some c) (ht : s.turn = .mcc c.id)
    (hx : c.mcc = some x) (hr : c.mccRuns = true) :
    step s = mapNext (fun t => s.profiled t.endTurn.after) (runAt s true 256 c.core c.asid x.pc) := by
  have hrun : runTurn s = runAt s true 256 c.core c.asid x.pc := by simp only [runTurn, ht, hc, hx, hr, if_true]
  rw [step_turn hi (by simp [ht]), hrun]

section
variable {s v : State} {mcc : Bool} {win core : Nat} {asid : BitVec 12} {pc : BitVec 64}

theorem runAt_instr {ws : List Word} {i : Instr} (hw : s.fetchWords core asid pc = (.ok ws, v)) (hd : decode mcc win ws = .ok i) :
    runAt s mcc win core asid pc = exec i v := by
  simp only [runAt, hw, hd]

theorem runAt_bad {ws : List Word} {o : Offence} (hw : s.fetchWords core asid pc = (.ok ws, v)) (hd : decode mcc win ws = .bad o) :
    runAt s mcc win core asid pc = exec (.unassignedEncoding (o.fault (wordAt ws 0))) v := by
  simp only [runAt, hw, hd]

theorem runAt_unfetched {e : MemFault} {k : Nat} (hw : s.fetchWords core asid pc = (.error (e, k), v)) :
    runAt s mcc win core asid pc = exec (.instructionFetchFault e.code e.sub k) v := by
  simp only [runAt, hw]

/-- With nothing cached, a word comes from the physical address of its PC (08_memory.md R229). -/
theorem fetchWord_uncached {x} (hc : s.icache = []) (ht : s.translate asid pc .fetch = (.ok x, v)) :
    (s.fetchWord core asid pc).1 = .ok (leWord ((v.healRange x.pa 4).report.peek x.pa 4)) := by
  simp only [State.fetchWord, hc, List.find?_nil, State.refetch, ht]

theorem fetchWords_one {w : Word} (h : (s.fetchWord core asid pc).1 = .ok w) (hw : wordsOf w = 1) :
    (s.fetchWords core asid pc).1 = .ok [w] := by
  simp only [State.fetchWords, h, hw, if_true]

end

/-- Settles O57: a turn runs what is fetched and decoded at the PC, and the counts of the profiling unit are apart from the rest. -/
theorem stepsRunDecodedInstructions : Obligations.StepsRunDecodedInstructions := by
  intro s v c
  refine ⟨fun hi hc => ⟨fun pl f0 ht hf hp => ⟨fun ws i hw hd => ?_, fun ws o hw hd => ?_, fun e k hw => ?_⟩,
    fun x ws i ht hx hr hw hd => ?_⟩, fun i r h => step_event h, rfl, fun core asid pc x hc ht hw => ?_⟩
  · rw [step_plait hi hc ht hf hp, runAt_instr hw hd]
  · rw [step_plait hi hc ht hf hp, runAt_bad hw hd]
  · rw [step_plait hi hc ht hf hp, runAt_unfetched hw]
  · rw [step_mcc hi hc ht hx hr, runAt_instr hw hd]
  · exact fetchWords_one (fetchWord_uncached hc ht) hw

end Sys2Proof.Machine
end

section
/-! PROOFS. Late results, and the ends of waits (02_encoding.md R41; 06_control.md R149, R162; 07_work.md R208). -/

namespace Sys2Proof.Machine

theorem wakePlace_wakes {s : State} {c : Coil} {pl : Place} {st : FStatus} (hc : s.coil? c.id = some c) (hr : c.resident = true)
    (hw : ∃ f ∈ c.fibres, f.place = pl ∧ f.status = st) :
    s.wakePlace c.id pl st =
      let d := { c with fibres := c.fibres.map (fun f => if f.place = pl && f.status = st then { f with status := .runnable } else f) }
      (s.split d pl).1.setCoil (s.split d pl).2 := by
  have ha : c.fibres.any (fun f => f.place = pl && f.status = st) = true := by simpa using hw
  simp only [State.wakePlace, hc, hr, ha, Bool.not_true, Bool.or_self, Bool.false_eq_true, if_false]

theorem execResultWriteback_flag {s : State} {c : Coil} {fibre flag : Nat} (hc : s.coil? c.id = some c) (h : flag < 12) :
    execResultWriteback c.id fibre flag s =
      .next (if s.flagHeld c fibre flag then s else s.setCoil (c.onFibre fibre (fun f => f.clearFlag flag))) := by
  simp only [execResultWriteback, hc, ge_iff_le, Nat.not_le.mpr h, if_false]
  split <;> rfl

theorem execResultWriteback_unflagged {s : State} {c : Coil} {fibre flag : Nat} (hc : s.coil? c.id = some c) (h : 12 ≤ flag) :
    execResultWriteback c.id fibre flag s =
      .next (s.setCoil (c.onFibre fibre (fun f => { f with pend := f.pend.filter (fun e => e.flag.isSome || e.left.isSome || !e.known) }))) := by
  simp only [execResultWriteback, hc, ge_iff_le, h, if_true]

/-- No plait of the core has been in its slot for longer. -/
theorem olderPlait_eq_false {s : State} {core slot : Nat} {c : Coil}
    (h : ∀ n e, n < 64 → s.coilAt core n = some e → c.sinceAt slot ≤ e.sinceAt n) : s.olderPlait core c slot = false := by
  unfold State.olderPlait
  rw [List.any_eq_false]
  intro n hn
  cases he : s.coilAt core n with
  | none => simp
  | some e => simpa using h n e (List.mem_range.mp hn) he

theorem execParking_gives {s : State} {core slot : Nat} {c d : Coil} {pl : Place} (hc : s.coilAt core slot = some c)
    (hw : s.sidesWaiting.find? (fun p => match s.coil? p.1 with | some e => e.core = core | none => false) = some (d.id, pl))
    (hfull : freeSlot (s.slotsUsed core) = none)
    (hturn : (if s.anyAtCollective core then !c.atCollective (.slot slot) else s.olderPlait core c slot) = false)
    (hd : ({ (s.setCoil (c.movePlace (.slot slot) (.side s.nextId) s.nextId)) with nextId := s.nextId + 1 } : State).coil? d.id = some d) :
    execParking core slot s =
      let s' := { (s.setCoil (c.movePlace (.slot slot) (.side s.nextId) s.nextId)) with nextId := s.nextId + 1 }
      .next { s'.setCoil (d.movePlace pl (.slot slot) s'.nextId) with nextId := s'.nextId + 1 } := by
  unfold execParking
  split
  · next w c' hw' hc' =>
    obtain rfl : (d.id, pl) = w := Option.some.inj (hw.symm.trans hw')
    obtain rfl : c = c' := Option.some.inj (hc.symm.trans hc')
    simp only [hfull, hturn, Option.isSome_none, Bool.or_self, Bool.false_eq_true, if_false, hd]
  · next hn => exact (hn _ _ hw hc).elim

/-- Settles O30, event by event: each is enabled, and does what its clause says. -/
theorem lateResultsAndWakeups : Obligations.LateResultsAndWakeups := by
  refine ⟨fun s c fibre flag hc => ⟨execResultWriteback_flag hc, execResultWriteback_unflagged hc⟩,
    fun s c slot hc hr => ⟨fun hw => congrArg _ (wakePlace_wakes hc hr hw), fun hw => congrArg _ (wakePlace_wakes hc hr hw)⟩,
    fun s core slot c d pl hc hw hfull ho => ?_⟩
  intro s' hd
  refine execParking_gives hc hw hfull ?_ hd
  by_cases ha : s.anyAtCollective core = true
  · rw [if_pos ha] at ho ⊢
    rw [ho, Bool.not_true]
  · rw [if_neg ha] at ho ⊢
    exact olderPlait_eq_false ho

end Sys2Proof.Machine
end

section
/-! PROOFS. Compact forms execute (02_encoding.md R36 to R38). -/

namespace Sys2Proof.Machine

theorem lo_setWidth (x : Word) : DWord.lo (x.setWidth 64) = x := by simp [DWord.lo]

theorem lo_ofInt (z : Int) : DWord.lo (BitVec.ofInt 64 z) = BitVec.ofInt 32 z := by
  apply BitVec.eq_of_toNat_eq
  simp only [DWord.lo, BitVec.toNat_setWidth, BitVec.toNat_ofInt]
  omega

theorem Fibre.raise_zero (f : Fibre) : f.raise 0 = f := by simp [Fibre.raise]

theorem setWidth_twice (x : BitVec 6) : (x.setWidth 32).setWidth 64 = x.setWidth 64 := by
  apply BitVec.eq_of_toNat_eq
  simp

/-- On two 32-bit operands, an operation gives a word and raises no flag. -/
def Gives (op : List DWord → DWord × Word) (val : Word → Word → Word) : Prop :=
  ∀ x y : Word, (op [x.setWidth 64, y.setWidth 64]).1.lo = val x y ∧ (op [x.setWidth 64, y.setWidth 64]).2 = 0

theorem unguarded {n : Info} (hs : n.gsel = 0) (hn : n.gneg = false) : (fun _ => true) = fun f : Fibre => f.getP n.gsel != n.gneg := by
  simp [hs, hn, Fibre.getP]

/-- A computation without a guard into v[D] writes a compact instruction's value. -/
theorem compactWrites_of {i : Instr} {k : Compact} {n : Info} {args : List Opnd} {op : List DWord → DWord × Word} {val : Word → Word → Word}
    {b : Fibre → Word} (he : ∀ s, exec i s = issueOk n (fun x => x.compute false false k.d.toNat args op) s) (hs : n.gsel = 0)
    (hn : n.gneg = false) (hw : n.words = i.form.words)
    (hv : ∀ c f, (op (args.map (Opnd.get c f))).1.lo = val (f.getV k.a.toNat) (b f) ∧ (op (args.map (Opnd.get c f))).2 = 0) :
    CompactWrites i k val b := by
  have := computes_of (val := fun _ f => ((val (f.getV k.a.toNat) (b f)).setWidth 64, 0)) he (unguarded hs hn) hw
    (fun c f => by simpa [lo_setWidth] using hv c f)
  unfold CompactWrites
  simpa only [Computes, Bool.false_eq_true, if_false, Fibre.put, lo_setWidth, Fibre.raise_zero] using this

section
variable {i : Instr} {k : Compact} {op : List DWord → DWord × Word} {val : Word → Word → Word}

theorem compactWrites_reg (he : ∀ s, exec i s = compact2 k none op s) (hw : i.form.words = 1) (hv : Gives op val) :
    CompactWrites i k val k.reg :=
  compactWrites_of he rfl rfl hw.symm (fun _ _ => hv _ _)

theorem compactWrites_signed (he : ∀ s, exec i s = compact2 k (immS k) op s) (hw : i.form.words = 1) (hv : Gives op val) :
    CompactWrites i k val k.signed :=
  compactWrites_of he rfl rfl hw.symm (fun _ _ => hv _ _)

theorem compactWrites_natural (he : ∀ s, exec i s = compact2 k (immN k) op s) (hw : i.form.words = 1) (hv : Gives op val) :
    CompactWrites i k val k.natural :=
  compactWrites_of he rfl rfl hw.symm (fun _ f => by
    have h := hv (f.getV k.a.toNat) (k.natural f)
    rw [show (k.natural f).setWidth 64 = k.b.setWidth 64 from setWidth_twice k.b] at h
    exact h)

theorem compactWrites_unary {g : Word → Word} (he : ∀ s, exec i s = compact2 k (some 0) op s) (hw : i.form.words = 1)
    (hv : Gives op (fun x _ => g x)) : CompactWrites i k (fun x _ => g x) k.reg :=
  compactWrites_of he rfl rfl hw.symm (fun _ f => hv (f.getV k.a.toNat) 0)

end

theorem gives_word2 {g val : Word → Word → Word} (h : ∀ x y, g x y = val x y) : Gives (word2 g) val :=
  fun x y => ⟨by simp only [word2, lo_setWidth, h], rfl⟩

theorem gives_word1 (g : Word → Word) : Gives (word1 g) (fun x _ => g x) :=
  fun x y => ⟨by simp only [word1, lo_setWidth], rfl⟩

theorem gives_copyOp : Gives copyOp (fun x _ => x) := fun x _ => ⟨lo_setWidth x, rfl⟩

theorem tInt_narrow (sgn : Bool) (x : Word) : tInt false sgn (x.setWidth 64) = if sgn then x.toInt else (x.toNat : Int) := by
  cases sgn <;> simp [tInt, lo_setWidth]

theorem gives_exact2 {sgn : Bool} {g : Int → Int → Int} {val : Word → Word → Word}
    (h : ∀ x y : Word, BitVec.ofInt 32 (g (if sgn then x.toInt else x.toNat) (if sgn then y.toInt else y.toNat)) = val x y) :
    Gives (onInts false sgn (exact2 g)) val :=
  fun x y => ⟨by simp only [onInts, List.map_cons, List.map_nil, exact2, lo_ofInt, tInt_narrow, h], rfl⟩

theorem gives_neg : Gives (onInts false true (exact1 (- ·))) (fun x _ => 0 - x) :=
  fun x _ => ⟨by
    simp only [onInts, List.map_cons, List.map_nil, exact1, lo_ofInt, tInt_narrow, if_true]
    simp [BitVec.ofInt_neg], rfl⟩

theorem gives_add : Gives (onInts false true (exact2 (· + ·))) (fun x y => x + y) := gives_exact2 (by simp [BitVec.ofInt_add])

theorem gives_sub : Gives (onInts false true (exact2 (· - ·))) (fun x y => x - y) :=
  gives_exact2 (by simp [Int.sub_eq_add_neg, BitVec.ofInt_add, BitVec.ofInt_neg, BitVec.sub_eq_add_neg])

theorem ofInt_min (x y : Word) : BitVec.ofInt 32 (min x.toInt y.toInt) = if x.toInt ≤ y.toInt then x else y := by
  rw [Int.min_def]
  split <;> exact BitVec.ofInt_toInt

theorem ofInt_max (x y : Word) : BitVec.ofInt 32 (max x.toInt y.toInt) = if x.toInt ≤ y.toInt then y else x := by
  rw [Int.max_def]
  split <;> exact BitVec.ofInt_toInt

theorem ofInt_natMin (x y : Word) : BitVec.ofInt 32 (min (x.toNat : Int) y.toNat) = if x.toNat ≤ y.toNat then x else y := by
  rw [Int.min_def]
  simp only [Int.ofNat_le]
  split <;> exact BitVec.eq_of_toNat_eq (by simp)

theorem ofInt_natMax (x y : Word) : BitVec.ofInt 32 (max (x.toNat : Int) y.toNat) = if x.toNat ≤ y.toNat then y else x := by
  rw [Int.max_def]
  simp only [Int.ofNat_le]
  split <;> exact BitVec.eq_of_toNat_eq (by simp)

theorem shlW_eq (x y : Word) : shlW x y = if y.toNat % 64 < 32 then x <<< (y.toNat % 64) else 0 := by
  unfold shlW shiftCount
  split
  · rfl
  · exact BitVec.shiftLeft_eq_zero (by omega)

theorem shrW_eq (x y : Word) : shrW x y = if y.toNat % 64 < 32 then x >>> (y.toNat % 64) else 0 := by
  unfold shrW shiftCount
  split
  · rfl
  · exact BitVec.ushiftRight_eq_zero (by omega)

/-- A shift by 31 or more leaves the sign in every bit. -/
theorem sarW_eq (x y : Word) : sarW x y = x.sshiftRight (min 31 (y.toNat % 64)) := by
  unfold sarW shiftCount
  rcases Nat.lt_or_ge (y.toNat % 64) 32 with h | h
  · rw [Nat.min_eq_right (by omega)]
  · rw [Nat.min_eq_left (by omega)]
    ext j hj
    have hn : ¬ y.toNat % 64 < 32 := by omega
    rcases Nat.eq_zero_or_pos j with rfl | hpos
    · simp [BitVec.getElem_sshiftRight, hn, BitVec.msb_eq_getLsbD_last]
    · have hn' : ¬ y.toNat % 64 + j < 32 := by omega
      have h31 : ¬ 31 + j < 32 := by omega
      simp [BitVec.getElem_sshiftRight, hn', h31]

theorem Coil.within_self (c : Coil) (pl : Place) (guard : Fibre → Bool) : c.within pl guard (fun f => f) = fun f => f := by
  funext f
  exact ite_self f

/-- An instruction without a guard and without an effect goes past. -/
theorem perFibre_idle {i : Instr} {n : Info} (he : ∀ s, exec i s = issueOk n id s) (hs : n.gsel = 0) (hn : n.gneg = false)
    (hw : n.words = i.form.words) : PerFibre i (fun _ => true) (fun _ f => f) := by
  intro s c pl f0 h
  rw [Coil.within_self]
  rw [unguarded hs hn] at h
  exact goes_of_coil (e := c) h (he s) hw rfl rfl h.fibres_ne rfl (Coil.moves_of_eq rfl) Fibre.Keeps.refl

/-- Settles O7: each compact form is an operation of `compact2`, or moves its immediate, under a mask without a guard. -/
theorem compactFormsExecute : Obligations.CompactFormsExecute := by
  intro k
  refine ⟨?nop, compactWrites_unary (fun _ => rfl) rfl gives_copyOp, ?movImm,
    compactWrites_reg (fun _ => rfl) rfl gives_add, compactWrites_signed (fun _ => rfl) rfl gives_add,
    compactWrites_reg (fun _ => rfl) rfl gives_sub, compactWrites_signed (fun _ => rfl) rfl gives_sub,
    compactWrites_reg (fun _ => rfl) rfl (gives_word2 fun _ _ => rfl), compactWrites_natural (fun _ => rfl) rfl (gives_word2 fun _ _ => rfl),
    compactWrites_reg (fun _ => rfl) rfl (gives_word2 fun _ _ => rfl), compactWrites_natural (fun _ => rfl) rfl (gives_word2 fun _ _ => rfl),
    compactWrites_reg (fun _ => rfl) rfl (gives_word2 fun _ _ => rfl), compactWrites_natural (fun _ => rfl) rfl (gives_word2 fun _ _ => rfl),
    compactWrites_reg (fun _ => rfl) rfl (gives_word2 fun _ _ => rfl), compactWrites_unary (fun _ => rfl) rfl (gives_word1 _),
    compactWrites_reg (fun _ => rfl) rfl (gives_word2 shlW_eq), compactWrites_natural (fun _ => rfl) rfl (gives_word2 shlW_eq),
    compactWrites_reg (fun _ => rfl) rfl (gives_word2 shrW_eq), compactWrites_natural (fun _ => rfl) rfl (gives_word2 shrW_eq),
    compactWrites_reg (fun _ => rfl) rfl (gives_word2 sarW_eq), compactWrites_natural (fun _ => rfl) rfl (gives_word2 sarW_eq),
    compactWrites_reg (fun _ => rfl) rfl (gives_exact2 ofInt_min), compactWrites_reg (fun _ => rfl) rfl (gives_exact2 ofInt_max),
    compactWrites_reg (fun _ => rfl) rfl (gives_exact2 ofInt_natMin), compactWrites_reg (fun _ => rfl) rfl (gives_exact2 ofInt_natMax),
    compactWrites_unary (fun _ => rfl) rfl gives_neg⟩
  case nop =>
    exact perFibre_idle (n := Info.compact (.zero, .zero, .zero) k 1) (fun _ => rfl) rfl rfl rfl
  case movImm =>
    exact compactWrites_of (n := Info.compact (.v 1, .zero, .any) k 4) (fun _ => rfl) rfl rfl rfl (fun _ _ => ⟨lo_setWidth _, rfl⟩)

end Sys2Proof.Machine
end

section
/-! PROOFS. Flags hold back issue (02_encoding.md R38, R40). -/

namespace Sys2Proof.Machine

theorem flags_of_wait {n : Info} {w : BitVec 12} (h : w &&& n.wait ≠ 0) : w &&& n.flags ≠ 0 := by
  intro h0
  rw [Info.flags, BitVec.and_or_distrib_left] at h0
  exact h (BitVec.or_eq_zero_iff.mp h0).1

/-- While a flag that the instruction waits for is set in some fibre of the plait, its issue only gives up the turn (02_encoding.md R40). -/
theorem issue_stall {s : State} {c : Coil} {pl : Place} {f : Fibre} {n : Info} (eff : Iss → Res) (ht : s.turn = .plait c.id pl)
    (hc : s.coil? c.id = some c) (hf : f ∈ c.plait pl) (hw : f.cf &&& n.wait ≠ 0) : issue n eff s = .next s.stall := by
  obtain ⟨a, r, hp⟩ := List.exists_cons_of_ne_nil (List.ne_nil_of_mem hf)
  have hall : (a :: r).all (fun g => g.cf &&& n.flags = 0) = false := by
    rw [← hp, List.all_eq_false]
    exact ⟨f, hf, by simpa using flags_of_wait hw⟩
  rw [issue_next n eff ht hc hp, issueIn_stall n eff s (s.lend c) pl (a :: r) a.pc (by simp only [mayIssue, hall, Bool.false_and])]

theorem exec_issues_compact {i : Instr} {cop : Nat} {k : Compact} (s : State) (h : i.form = .compact cop k) :
    ∃ n eff, exec i s = issue n eff s ∧ n.wait = if k.w = 1 then BitVec.allOnes 12 else 0 := by
  cases i
  all_goals cases h
  all_goals exact ⟨_, _, rfl, rfl⟩

theorem Info.lowestOnly_wait (n : Info) (b : Bool) : (n.lowestOnly b).wait = n.wait := by cases b <;> rfl

/-- A main form issues by what it states of itself, which waits for the flags of its WAIT, or, at REGION, for all (07_work.md R190). -/
theorem exec_issues_main {i : Instr} {opc : Nat} {m : Main} (s : State) (h : i.form = .main opc m) :
    ∃ n eff, exec i s = issue n eff s ∧ (n.wait = m.wait ∨ n.wait = BitVec.allOnes 12) := by
  cases i
  all_goals cases h
  all_goals refine ⟨_, _, rfl, ?_⟩
  case region => exact .inr rfl
  case mov => exact .inl (Info.lowestOnly_wait _ _)
  case acq => left; split <;> split <;> rfl
  case smpos | qcvt | shfl | cpyc | watch => all_goals (left; split <;> rfl)
  all_goals exact .inl rfl

/-- Settles O55: what is encoded issues by what it states of itself, and this waits for the flags of WAIT or of W. -/
theorem flagsHoldBackIssue : Obligations.FlagsHoldBackIssue := by
  intro i s c pl f0 f ht hc _ hf
  constructor
  · intro opc m hi hw
    obtain ⟨n, eff, he, hn⟩ := exec_issues_main s hi
    rw [he]
    refine issue_stall eff ht hc hf fun h0 => hw ?_
    rcases hn with hn | hn
    · rwa [hn] at h0
    · rw [hn, BitVec.and_allOnes] at h0
      rw [h0]
      exact BitVec.zero_and
  · intro cop k hi hk hw
    obtain ⟨n, eff, he, hn⟩ := exec_issues_compact s hi
    rw [he]
    rw [if_pos hk] at hn
    exact issue_stall eff ht hc hf (by rwa [hn, BitVec.and_allOnes])

end Sys2Proof.Machine
end

section
/-! PROOFS. A prefetch of a poisoned base issues, and goes past (08_memory.md R239; 15_system.md R416). -/

namespace Sys2Proof.Machine

/-- PF.L1 through slot 0 with its base in v2. -/
def prefetchMain : Main := Main.plain 0 2 0 0xF

/-- What the prefetch states about itself: where it would fault, it does nothing (08_memory.md R239). -/
def prefetchInfo : Info := { Info.cache (Instr.pfL1 prefetchMain).shape prefetchMain with mild := true }

theorem exec_prefetch : ∃ eff, ∀ s, exec (.pfL1 prefetchMain) s = issueOk prefetchInfo eff s := ⟨_, fun _ => rfl⟩

/-- A fibre whose v2 holds poisoned data. -/
def poisonedFibre : Fibre := { Fibre.new 0 64 0x200000 [] 0 64 with place := .slot 0, poison := [(2, .data)] }

def poisonedCoil : Coil := { Coil.new 0 1 0 0 0 64 0 0 with resident := true, st := .running, fibres := [poisonedFibre] }

def poisonedState : State := { State.reset with coils := [poisonedCoil], turn := .plait 0 (.slot 0), nextId := 1 }

/-- How coil 0 stands after an issue, if it is still there. -/
def coilAfter (o : Host.Outcome State Fault Refusal) : Option CoilState :=
  match o with
  | .next t => (t.coil? 0).map Coil.st
  | _ => none

/-- The prefetch goes past: its coil still runs. -/
theorem prefetch_goes_past : coilAfter (issue prefetchInfo .ok poisonedState) = some .running := by decide +kernel

/-- The exception of consuming v2 kills the coil (15_system.md R419). -/
theorem poison_kills : coilAfter (.next (poisonedState.draw.2.takeTrap (poisonedCoil.counted (.slot 0)) (.slot 0) [0] [0] poisonedFibre.pc
    prefetchInfo.words { Trap.of 0x806 with lanes := [0], count := 1 })) = some .killed := by decide +kernel

/-- Refutes O56: its clause on poisoned sources fails for an instruction that does nothing where it would fault. PF.L1 over a poisoned base goes past
(08_memory.md R239), and does not raise POISON_CONSUMED. -/
theorem not_issueFollowsTheRules : ¬ Obligations.IssueFollowsTheRules := by
  intro h
  obtain ⟨-, -, hpoison, -⟩ := h prefetchInfo poisonedState poisonedCoil (.slot 0) poisonedFibre
  have hcalm : ∀ f ∈ poisonedCoil.fibres, f.idx ∈ poisonedCoil.actives (.slot 0) → f.cf = 0 ∧ f.pend = [] ∧ f.holds = 0 := by decide +kernel
  have ht := hpoison rfl rfl rfl (by decide +kernel) (by decide +kernel) hcalm poisonedFibre (by decide +kernel) .ok .data (by decide +kernel)
  have hkill : coilAfter (issue prefetchInfo .ok poisonedState) = some .killed := by
    rw [ht]
    exact poison_kills
  rw [prefetch_goes_past] at hkill
  cases hkill

end Sys2Proof.Machine
end

section
/-! PROOFS. Integer arithmetic, division, saturation and comparison (03_integer.md R67 to R73). -/

namespace Sys2Proof.Machine

/-! ## Effects in each fibre of the mask -/

/-- An instruction whose effect changes each fibre of its mask from its sources acts per fibre. -/
theorem perFibre_of {i : Instr} {guard : Fibre → Bool} {n : Info} {eff : Iss → Iss} {H : Coil → Fibre → Fibre} (G : Coil → Fibre → Fibre → Fibre)
    (he : ∀ s, exec i s = issueOk n eff s) (hn : guard = fun f => f.getP n.gsel != n.gneg) (hw : n.words = i.form.words)
    (hr : ∀ s c pl f0, eff (Quiet.iss n s c pl f0) = (Quiet.iss n s c pl f0).onMask (G c)) (hG : ∀ c o f, (G c o f).Keeps f)
    (hH : ∀ c f, G c f f = H c f) : PerFibre i guard H := by
  intro s c pl f0 h
  rw [← show (fun f => G c f f) = H c from funext (hH c)]
  exact goes_onMask (G c) (hG c) h hn (he s) hw (hr s c pl f0)

/-! ## Integers and the register values they reduce to -/

/-- A register value of a type is this integer, modulo 2^64 or 2^32 (03_integer.md R67). -/
def Reduces (wide : Bool) (z : Int) (x : DWord) : Prop :=
  if wide then BitVec.ofInt 64 z = x else DWord.lo (BitVec.ofInt 64 z) = x.lo

theorem lo_add (x y : DWord) : (x + y).lo = x.lo + y.lo := BitVec.setWidth_add x y (by omega)
theorem lo_mul (x y : DWord) : (x * y).lo = x.lo * y.lo := BitVec.setWidth_mul x y (by omega)
theorem lo_neg (x : DWord) : (-x).lo = -x.lo := BitVec.setWidth_neg_of_le (by omega)

theorem reduces_ofInt (wide : Bool) (z : Int) : Reduces wide z (BitVec.ofInt 64 z) := by cases wide <;> exact rfl

/-- Reading a register value as signed or natural is undone by reduction. -/
theorem reduces_tInt (wide sgn : Bool) (x : DWord) : Reduces wide (tInt wide sgn x) x := by
  have natural (w : Nat) (y : BitVec w) : BitVec.ofInt w y.toNat = y := by simp
  cases wide with
  | true =>
    cases sgn with
    | true => exact BitVec.ofInt_toInt
    | false => exact natural 64 x
  | false =>
    refine (lo_ofInt _).trans ?_
    cases sgn with
    | true => exact BitVec.ofInt_toInt
    | false => exact natural 32 x.lo

section
variable {wide : Bool} {z w : Int} {x y : DWord}

theorem Reduces.add (h : Reduces wide z x) (h' : Reduces wide w y) : Reduces wide (z + w) (x + y) := by
  cases wide <;> simp_all [Reduces, BitVec.ofInt_add, lo_add]

theorem Reduces.mul (h : Reduces wide z x) (h' : Reduces wide w y) : Reduces wide (z * w) (x * y) := by
  cases wide <;> simp_all [Reduces, BitVec.ofInt_mul, lo_mul]

theorem Reduces.neg (h : Reduces wide z x) : Reduces wide (-z) (0 - x) := by
  rw [BitVec.ofNat_eq_ofNat, BitVec.zero_sub]
  cases wide <;> simp_all [Reduces, BitVec.ofInt_neg, lo_neg]

theorem Reduces.sub (h : Reduces wide z x) (h' : Reduces wide w y) : Reduces wide (z - w) (x - y) := by
  have := h.add h'.neg
  rwa [BitVec.ofNat_eq_ofNat, BitVec.zero_sub, ← BitVec.sub_eq_add_neg, ← Int.sub_eq_add_neg] at this

theorem Reduces.min (h : Reduces wide z x) (h' : Reduces wide w y) : Reduces wide (min z w) (if z ≤ w then x else y) := by
  rw [Int.min_def]
  split
  · exact h
  · exact h'

theorem Reduces.max (h : Reduces wide z x) (h' : Reduces wide w y) : Reduces wide (max z w) (if z ≤ w then y else x) := by
  rw [Int.max_def]
  split
  · exact h'
  · exact h

theorem Reduces.abs (h : Reduces wide z x) : Reduces wide (if z < 0 then -z else z) (if z < 0 then 0 - x else x) := by
  split
  · exact h.neg
  · exact h

end

theorem reduces_ia (m : Main) (c : Coil) (f : Fibre) : Reduces m.wide (m.ia c f) (m.va c f) := reduces_tInt _ _ _
theorem reduces_ib (m : Main) (c : Coil) (f : Fibre) : Reduces m.wide (m.ib c f) (m.vb c f) := reduces_tInt _ _ _

/-! ## The arithmetic forms -/

section
variable {i : Instr} {m : Main} {sh : Shape} {lat : Bool → Bool → Nat} {val : Coil → Fibre → DWord}

/-- A two-operand integer form writes what its operation gives on the operands as integers. -/
theorem computes_arith2 {op : List Int → Int × Word} {val : Coil → Fibre → DWord × Word} (he : ∀ s, exec i s = arith2 sh lat op m s)
    (hw : m.words = i.form.words)
    (hv : ∀ c f, Reduces m.wide (op [m.ia c f, m.ib c f]).1 (val c f).1 ∧ (op [m.ia c f, m.ib c f]).2 = (val c f).2) :
    Computes i m.guard m.uni m.wide m.d.toNat val :=
  computes_of he rfl hw hv

theorem computes_exact2 {g : Int → Int → Int} (he : ∀ s, exec i s = arith2 sh lat (exact2 g) m s) (hw : m.words = i.form.words)
    (hv : ∀ c f, Reduces m.wide (g (m.ia c f) (m.ib c f)) (val c f)) :
    Computes i m.guard m.uni m.wide m.d.toNat (fun c f => (val c f, 0)) :=
  computes_arith2 he hw (fun c f => ⟨hv c f, rfl⟩)

theorem computes_exact1 {g : Int → Int} (he : ∀ s, exec i s = arith1 sh (exact1 g) m s) (hw : m.words = i.form.words)
    (hv : ∀ c f, Reduces m.wide (g (m.ia c f)) (val c f)) :
    Computes i m.guard m.uni m.wide m.d.toNat (fun c f => (val c f, 0)) :=
  computes_of he rfl hw (fun c f => ⟨hv c f, rfl⟩)

end

/-- A 32-bit operand read as an integer is its extension to 64 bits, signed or natural. -/
theorem ofInt_tInt_narrow (sgn : Bool) (x : DWord) :
    BitVec.ofInt 64 (tInt false sgn x) = if sgn then x.lo.signExtend 64 else x.lo.setWidth 64 := by
  cases sgn with
  | true => rfl
  | false => exact BitVec.eq_of_toNat_eq (by simp [tInt])

/-- Settles O1: each form reduces an operation on the operands as integers. -/
theorem integerArithmeticWrites : Obligations.IntegerArithmeticWrites := by
  intro m
  have ha := reduces_ia m
  have hb := reduces_ib m
  refine ⟨computes_exact2 (fun _ => rfl) rfl fun c f => (ha c f).add (hb c f),
    computes_exact2 (fun _ => rfl) rfl fun c f => (ha c f).sub (hb c f),
    computes_exact1 (fun _ => rfl) rfl fun c f => (ha c f).neg,
    computes_exact1 (fun _ => rfl) rfl fun c f => (ha c f).abs,
    computes_exact2 (fun _ => rfl) rfl fun c f => (ha c f).mul (hb c f),
    computes_exact2 (fun _ => rfl) rfl fun c f => reduces_ofInt _ _,
    ?imad, ?imadw,
    computes_exact2 (fun _ => rfl) rfl fun c f => (ha c f).min (hb c f),
    computes_exact2 (fun _ => rfl) rfl fun c f => (ha c f).max (hb c f)⟩
  case imad =>
    exact computes_of (fun _ => rfl) rfl rfl fun c f => ⟨((ha c f).mul (hb c f)).add (reduces_tInt m.wide m.sgn (m.vc c f)), rfl⟩
  case imadw =>
    refine computes_of (fun _ => rfl) rfl rfl fun c f => ⟨?_, rfl⟩
    simp only [List.map_cons, List.map_nil, imadwOp, BitVec.ofInt_mul, ofInt_tInt_narrow, if_true]

/-! ## Division -/

section
variable {i : Instr} {m : Main} {sh : Shape}

/-- A division gives one result for a zero divisor, with DIVZ, and another for any other (03_integer.md R71). -/
theorem computes_division {g : Int → Int → Int} {zero val : Coil → Fibre → DWord}
    (he : ∀ s, exec i s = arith2 sh latDiv (divOp g) m s) (hw : m.words = i.form.words)
    (h0 : ∀ c f, m.ib c f = 0 → Reduces m.wide (g (m.ia c f) (m.ib c f)) (zero c f))
    (hv : ∀ c f, m.ib c f ≠ 0 → Reduces m.wide (g (m.ia c f) (m.ib c f)) (val c f)) :
    Computes i m.guard m.uni m.wide m.d.toNat (fun c f => if m.ib c f = 0 then (zero c f, flagDivz) else (val c f, 0)) := by
  refine computes_arith2 he hw fun c f => ?_
  by_cases hb : m.ib c f = 0
  · simp only [divOp, flagIf, hb, decide_true, if_true, and_true]
    exact hb ▸ h0 c f hb
  · simp only [divOp, flagIf, hb, decide_false, Bool.false_eq_true, if_false, and_true]
    exact hv c f hb

end

/-- Settles O2: the quotient is the truncated one, and the remainder is what it leaves of the dividend. -/
theorem integerDivisionTruncates : Obligations.IntegerDivisionTruncates := by
  refine fun m => ⟨computes_division (fun _ => rfl) rfl (fun _ _ hb => ?_) (fun _ _ hb => ?_),
    computes_division (fun _ => rfl) rfl (fun c f hb => ?_) (fun _ _ hb => ?_)⟩
  · rw [divT, if_pos hb]
    exact reduces_ofInt _ (-1)
  · rw [divT, if_neg hb]
    exact reduces_ofInt _ _
  · rw [remT, if_pos hb]
    exact reduces_ia m c f
  · rw [remT, if_neg hb, Int.tmod_def, Int.mul_comm]
    exact reduces_ofInt _ _

/-! ## Saturation and comparison -/

/-- A saturated result: the value clamped, and SAT when it was out of range (03_integer.md R72). -/
theorem satFlag_eq (x lo hi : Int) :
    satFlag x lo hi = (if x < lo then lo else if x > hi then hi else x, if x < lo ∨ x > hi then flagSat else 0) := by
  simp only [satFlag, clamp, flagIf, Bool.or_eq_true, decide_eq_true_eq]

theorem intLo_not (w : Nat) (b : Bool) : intLo w (!b) = if b then 0 else -2 ^ (w - 1) := by cases b <;> rfl
theorem intHi_not (w : Nat) (b : Bool) : intHi w (!b) = if b then 2 ^ w - 1 else 2 ^ (w - 1) - 1 := by cases b <;> rfl

theorem computes_isat (m : Main) :
    Computes (.isat m) m.guard false m.wide m.d.toNat (fun c f =>
      let r := satFlag (tInt m.wide m.sgn ((m.opA false m.wide).get c f)) (intLo m.b.toNat (!m.uni)) (intHi m.b.toNat (!m.uni))
      (BitVec.ofInt 64 r.1, r.2)) :=
  computes_of (fun _ => rfl) rfl rfl fun _ _ => ⟨reduces_ofInt _ _, rfl⟩

/-- Settles O3: ISAT clamps to the range that B and MOD name, and ICMP sets D by its condition code. -/
theorem saturateAndCompare : Obligations.SaturateAndCompare := by
  refine fun m => ⟨?isat, ?icmp⟩
  case isat => simpa only [satFlag_eq, intLo_not, intHi_not] using computes_isat m
  case icmp =>
    have h : PerFibre (.icmp m) m.guard (fun c f => f.setP m.d.toNat (cmpInt m.c (m.ia c f) (m.ib c f))) :=
      perFibre_of (fun c o f => (f.setP m.d.toNat (cmpInt m.c (m.ia c o) (m.ib c o))).raise 0) (fun _ => rfl) rfl rfl (fun _ _ _ _ => rfl)
        (fun _ _ f => (Fibre.raise_keeps _ _).trans (f.setP_keeps _ _)) (fun _ f => Fibre.raise_zero _)
    rcases hc : m.c with _ | _ | _ | _ | _ | k
    all_goals (rw [hc] at h; exact h)

end Sys2Proof.Machine
end

section
/-! PROOFS. Logic, shifts, bit fields and bit counts (03_integer.md R74 to R77). -/

namespace Sys2Proof.Machine

/-! ## What the word operations give, bit by bit -/

theorem getLsbD_lut3W (imm : Nat) (d a b : Word) {i : Nat} (h : i < 32) :
    (lut3W imm d a b).getLsbD i = imm.testBit (4 * (d.getLsbD i).toNat + 2 * (a.getLsbD i).toNat + (b.getLsbD i).toNat) := by
  simp only [lut3W, BitVec.getLsbD_setWidth, BitVec.getLsbD_ofBoolListLE, h, decide_true, Bool.true_and]
  simp [List.getD, h]

theorem sshiftRight_31 (x : Word) : x.sshiftRight 31 = if x.getLsbD 31 then BitVec.allOnes 32 else 0 := by
  ext j hj
  rcases Nat.eq_zero_or_pos j with rfl | hpos
  · cases h : x.getLsbD 31 <;> simp_all [BitVec.getElem_sshiftRight]
  · have hn : ¬ 31 + j < 32 := by omega
    rw [BitVec.getElem_sshiftRight, dif_neg hn, BitVec.msb_eq_getLsbD_last]
    cases h : x.getLsbD 31
    · simp
    · rw [if_pos rfl, BitVec.getElem_allOnes]

/-- Only bits 4:0 of the count matter to a rotation (R75). -/
theorem rotW_eq (x y : Word) : rotW x y = x.rotateLeft (y.toNat % 32) := by
  rw [rotW, shiftCount, Nat.mod_mod_of_dvd _ (by omega : 32 ∣ 64)]

/-- An arithmetic shift by 32 or more leaves the sign in every bit (R75). -/
theorem sarW_cases (x y : Word) :
    sarW x y = if y.toNat % 64 < 32 then x.sshiftRight (y.toNat % 64) else if x.getLsbD 31 then BitVec.allOnes 32 else 0 := by
  rw [sarW_eq, ← sshiftRight_31]
  split
  · rw [Nat.min_eq_right (by omega)]
  · rw [Nat.min_eq_left (by omega)]

theorem testBit_top_iff {x len : Nat} (hl : 0 < len) (hx : x < 2 ^ len) : x.testBit (len - 1) = true ↔ 2 ^ (len - 1) ≤ x := by
  constructor
  · exact Nat.ge_two_pow_of_testBit
  · intro h
    exact Nat.testBit_of_two_pow_le_and_two_pow_add_one_gt h (by rwa [Nat.sub_add_cancel hl])

/-- A number of a few bits whose top bit is set, read as signed. -/
theorem toInt_sext {x len : Nat} (hl : 0 < len) (hl' : len ≤ 32) (hx : x < 2 ^ len) (ht : 2 ^ (len - 1) ≤ x) :
    (BitVec.ofInt 32 (sext len x)).toInt = (x : Int) - 2 ^ len := by
  have hhalf : 2 ^ len = 2 * 2 ^ (len - 1) := by rw [← Nat.pow_succ', Nat.succ_eq_add_one, Nat.sub_add_cancel hl]
  have h32 : 2 ^ len ≤ 2 ^ 32 := Nat.pow_le_pow_right (by omega) hl'
  have hcast : ((2 ^ len : Nat) : Int) = 2 ^ len := Int.natCast_pow 2 len
  rw [sext, if_neg (by omega)]
  exact BitVec.toInt_ofInt_eq_self (by omega) (by omega) (by omega)

/-- A field whose sign bit is set is below 0 when it is read as signed, and is itself otherwise (R76). -/
theorem bfxW_spec (pos : Nat) {len : Nat} (signed : Bool) (a : Word) (hl : 0 < len) (hl' : len ≤ 32) :
    let x := a.toNat / 2 ^ pos % 2 ^ len
    if signed = true ∧ x.testBit (len - 1) then (bfxW pos len signed a).toInt = (x : Int) - 2 ^ len else (bfxW pos len signed a).toNat = x := by
  intro x
  have hx : x < 2 ^ len := Nat.mod_lt _ (Nat.two_pow_pos len)
  have h32 : 2 ^ len ≤ 2 ^ 32 := Nat.pow_le_pow_right (by omega) hl'
  have hnat : (BitVec.ofNat 32 x).toNat = x := by rw [BitVec.toNat_ofNat]; exact Nat.mod_eq_of_lt (by omega)
  cases signed with
  | false => simpa only [Bool.false_eq_true, false_and, if_false, bfxW] using hnat
  | true =>
    by_cases ht : 2 ^ (len - 1) ≤ x
    · rw [if_pos ⟨rfl, (testBit_top_iff hl hx).mpr ht⟩]
      exact toInt_sext hl hl' hx ht
    · rw [if_neg (fun h => ht ((testBit_top_iff hl hx).mp h.2))]
      have hsext : sext len x = x := if_pos (Nat.lt_of_not_le ht)
      show (BitVec.ofInt 32 (sext len x)).toNat = x
      rw [hsext, BitVec.ofInt_natCast]
      exact hnat

theorem getLsbD_bfiW (pos len : Nat) (d a : Word) {i : Nat} (h : i < 32) :
    (bfiW pos len d a).getLsbD i = if pos ≤ i ∧ i < pos + len then a.getLsbD (i - pos) else d.getLsbD i := by
  have hin : (decide (pos ≤ i) && decide (i - pos < len)) = decide (pos ≤ i ∧ i < pos + len) := by
    rw [Bool.eq_iff_iff, Bool.and_eq_true, decide_eq_true_eq, decide_eq_true_eq, decide_eq_true_eq]
    omega
  have hmask : (BitVec.ofNat 32 ((2 ^ len - 1) * 2 ^ pos)).getLsbD i = decide (pos ≤ i ∧ i < pos + len) := by
    rw [BitVec.getLsbD_ofNat, Nat.mul_comm, Nat.testBit_two_pow_mul, Nat.testBit_two_pow_sub_one, decide_eq_true h, Bool.true_and]
    exact hin
  have hval : (BitVec.ofNat 32 (a.toNat % 2 ^ len * 2 ^ pos)).getLsbD i = (decide (pos ≤ i ∧ i < pos + len) && a.getLsbD (i - pos)) := by
    rw [BitVec.getLsbD_ofNat, Nat.mul_comm, Nat.testBit_two_pow_mul, Nat.testBit_mod_two_pow, decide_eq_true h, Bool.true_and,
      ← Bool.and_assoc, ← hin]
    rfl
  simp only [bfiW, BitVec.getLsbD_or, BitVec.getLsbD_and, BitVec.getLsbD_not, hmask, hval, h, decide_true, Bool.true_and]
  by_cases hb : pos ≤ i ∧ i < pos + len
  · simp only [hb, and_self, decide_true, Bool.not_true, Bool.and_false, Bool.and_true, Bool.true_and, Bool.false_or, if_true]
  · simp only [hb, decide_false, Bool.not_false, Bool.and_true, Bool.false_and, Bool.or_false, if_false]

theorem toNat_popcount (x : Word) :
    (BitVec.ofNat 32 (popcount 32 x.toNat)).toNat = ((List.range 32).filter (fun i => x.getLsbD i)).length := by
  have h : popcount 32 x.toNat ≤ 32 := by
    have := List.length_filter_le x.toNat.testBit (List.range 32)
    rwa [List.length_range] at this
  rw [BitVec.toNat_ofNat]
  exact Nat.mod_eq_of_lt (by omega)

/-- The number of zeros above the highest one of a word that is not 0 (R77). -/
theorem clz_spec {x : Word} (hx : x ≠ 0) :
    let n := (BitVec.ofNat 32 (clzN 32 x.toNat)).toNat
    n < 32 ∧ 2 ^ (31 - n) ≤ x.toNat ∧ x.toNat < 2 ^ (32 - n) := by
  intro n
  have h0 : x.toNat ≠ 0 := fun h => hx (BitVec.eq_of_toNat_eq h)
  have hlog : x.toNat.log2 < 32 := (Nat.log2_lt h0).mpr x.isLt
  have hn : n = 31 - x.toNat.log2 := by
    show (BitVec.ofNat 32 (clzN 32 x.toNat)).toNat = _
    rw [clzN, if_neg h0, BitVec.toNat_ofNat]
    omega
  have h1 : 31 - n = x.toNat.log2 := by omega
  have h2 : 32 - n = x.toNat.log2 + 1 := by omega
  rw [h1, h2]
  exact ⟨by omega, Nat.log2_self_le h0, Nat.lt_log2_self⟩

/-- The lowest one of a number, with only zeros below it. -/
theorem lowBit_spec : ∀ (fuel n : Nat), n ≠ 0 → n < 2 ^ fuel →
    lowBit fuel n < fuel ∧ n % 2 ^ lowBit fuel n = 0 ∧ n.testBit (lowBit fuel n) = true
  | 0, n, h0, h => by omega
  | fuel + 1, n, h0, h => by
    unfold lowBit
    split
    · next hodd => exact ⟨by omega, Nat.mod_one n, by simpa using hodd⟩
    · next heven =>
      obtain ⟨h1, h2, h3⟩ := lowBit_spec fuel (n / 2) (by omega) (by omega)
      refine ⟨by omega, ?_, by rwa [Nat.testBit_succ]⟩
      rw [Nat.pow_succ', Nat.mod_mul, h2]
      omega

/-- The number of zeros below the lowest one of a word that is not 0 (R77). -/
theorem ctz_spec {x : Word} (hx : x ≠ 0) :
    let n := (BitVec.ofNat 32 (ctzN 32 x.toNat)).toNat
    n < 32 ∧ x.toNat % 2 ^ n = 0 ∧ x.getLsbD n = true := by
  intro n
  have h0 : x.toNat ≠ 0 := fun h => hx (BitVec.eq_of_toNat_eq h)
  have h := lowBit_spec 32 x.toNat h0 x.isLt
  have hn : n = lowBit 32 x.toNat := by
    show (BitVec.ofNat 32 (ctzN 32 x.toNat)).toNat = _
    rw [ctzN, if_neg h0, BitVec.toNat_ofNat]
    omega
  rw [hn]
  exact h

theorem getLsbD_brevW (x : Word) {i : Nat} (h : i < 32) : (brevW x).getLsbD i = x.getLsbD (31 - i) := by
  rw [brevW, BitVec.getLsbD_reverse, BitVec.getMsbD]
  simp [h]

theorem below_four {k : Nat} (h : k < 4) : k = 0 ∨ k = 1 ∨ k = 2 ∨ k = 3 := by omega

/-- A byte of a word that is put together from four. -/
theorem extract_bytes (b3 b2 b1 b0 : BitVec 8) {k : Nat} (h : k < 4) :
    (b3 ++ b2 ++ b1 ++ b0 : Word).extractLsb' (8 * k) 8 = [b0, b1, b2, b3][k] := by
  rcases below_four h with rfl | rfl | rfl | rfl <;> simp (disch := omega) only [BitVec.extractLsb'_append_eq_of_add_le, BitVec.extractLsb'_append_eq_of_le] <;>
    exact BitVec.extractLsb'_eq_self

theorem extract_bswap32 (x : Word) {k : Nat} (h : k < 4) : (bswap32 x).extractLsb' (8 * k) 8 = x.extractLsb' (8 * (3 - k)) 8 := by
  rw [bswap32, extract_bytes _ _ _ _ h]
  rcases below_four h with rfl | rfl | rfl | rfl <;> rfl

theorem extract_bswap16 (x : Word) {k : Nat} (h : k < 4) :
    (bswap16 x).extractLsb' (8 * k) 8 = x.extractLsb' (8 * (k / 2 * 2 + (1 - k % 2))) 8 := by
  rw [bswap16, extract_bytes _ _ _ _ h]
  rcases below_four h with rfl | rfl | rfl | rfl <;> rfl

/-! ## The forms on words -/

theorem Opnd.get_v (c : Coil) (f : Fibre) (n : Nat) : (Opnd.reg false false n).get c f = (f.getV n).setWidth 64 := rfl

theorem get_opA_narrow (m : Main) (c : Coil) (f : Fibre) : (m.opA false false).get c f = (f.getV m.a.toNat).setWidth 64 := rfl

theorem get_opC_narrow (m : Main) (c : Coil) (f : Fibre) : (m.opC false false).get c f = (f.getV m.c).setWidth 64 := rfl

theorem get_opB_narrow (m : Main) (sgn : Bool) (c : Coil) (f : Fibre) : (m.opB false false sgn).get c f = (m.wordB f).setWidth 64 := by
  unfold Main.opB Main.wordB
  cases m.lit <;> rfl

section
variable {i : Instr} {m : Main} {sh : Shape} {P : Coil → Fibre → Word → Prop}

theorem computes_logic2 {g : Word → Word → Word} (he : ∀ s, exec i s = logic2 sh g m s) (hw : m.words = i.form.words) :
    Computes i m.guard m.uni false m.d.toNat (fun c f => ((g (m.wa c f) (m.wb c f)).setWidth 64, 0)) :=
  computes_of he rfl hw fun _ _ => ⟨rfl, rfl⟩

theorem computes_logic1 {g : Word → Word} (he : ∀ s, exec i s = logic1 sh g m s) (hw : m.words = i.form.words) :
    Computes i m.guard m.uni false m.d.toNat (fun c f => ((g (m.wa c f)).setWidth 64, 0)) :=
  computes_of he rfl hw fun _ _ => ⟨rfl, rfl⟩

theorem finds_logic2 {g : Word → Word → Word} (he : ∀ s, exec i s = logic2 sh g m s) (hw : m.words = i.form.words)
    (hP : ∀ c f, P c f (g (m.wa c f) (m.wb c f))) : Finds i m m.uni P :=
  ⟨_, hP, computes_logic2 he hw⟩

theorem finds_logic1 {g : Word → Word} (he : ∀ s, exec i s = logic1 sh g m s) (hw : m.words = i.form.words)
    (hP : ∀ c f, P c f (g (m.wa c f))) : Finds i m m.uni P :=
  ⟨_, hP, computes_logic1 he hw⟩

/-- A form on V registers finds the word that its operation gives. -/
theorem finds_of {n : Info} {args : List Opnd} {op : List DWord → DWord × Word} {val : Coil → Fibre → Word}
    (he : ∀ s, exec i s = issueOk n (fun x => x.compute false false m.d.toNat args op) s)
    (hn : m.guard = fun f => f.getP n.gsel != n.gneg) (hw : n.words = i.form.words)
    (hv : ∀ c f, op (args.map (Opnd.get c f)) = ((val c f).setWidth 64, 0)) (hP : ∀ c f, P c f (val c f)) : Finds i m false P :=
  ⟨val, hP, computes_of he hn hw fun c f => by rw [hv]; exact ⟨rfl, rfl⟩⟩

end

/-- Settles O4: each form is an operation on words, of which its rule holds bit by bit or as a number. -/
theorem logicShiftsBitFields : Obligations.LogicShiftsBitFields := by

  intro m
  refine ⟨computes_logic2 (g := (· &&& ·)) (fun _ => rfl) rfl, computes_logic2 (g := (· ||| ·)) (fun _ => rfl) rfl,
    computes_logic2 (g := (· ^^^ ·)) (fun _ => rfl) rfl, computes_logic2 (g := fun a b => a &&& ~~~b) (fun _ => rfl) rfl,
    computes_logic1 (g := (~~~ ·)) (fun _ => rfl) rfl, ?lut3,
    finds_logic2 (fun _ => rfl) rfl fun _ _ => shlW_eq _ _, finds_logic2 (fun _ => rfl) rfl fun _ _ => shrW_eq _ _,
    finds_logic2 (fun _ => rfl) rfl fun _ _ => sarW_cases _ _, finds_logic2 (fun _ => rfl) rfl fun _ _ => rotW_eq _ _,
    ?fshl, ?bfx, ?bfi, finds_logic1 (fun _ => rfl) rfl fun _ _ => toNat_popcount _, ?clz, ?ctz,
    finds_logic1 (fun _ => rfl) rfl fun _ _ _ hi => getLsbD_brevW _ hi, ?bswap⟩
  case lut3 =>
    refine finds_of (val := fun c f => lut3W (m.imm % 256) (f.getV m.d.toNat) (f.getV m.a.toNat) (m.wordB f)) (fun _ => rfl) rfl rfl
      (fun c f => ?_) (fun c f i hi => ?_)
    · simp only [List.map_cons, List.map_nil, word3, Opnd.get_v, get_opA_narrow, get_opB_narrow, lo_setWidth]
    · rw [getLsbD_lut3W _ _ _ _ hi]
      unfold Main.wordB
      cases m.lit <;> rfl
  case fshl =>
    refine finds_of (val := fun c f => fshlW (f.getV m.a.toNat) (m.wordB f) (f.getV m.c)) (fun _ => rfl) rfl rfl
      (fun c f => ?_) (fun c f => DWord.hi_eq_extract _)
    simp only [List.map_cons, List.map_nil, word3, get_opA_narrow, get_opB_narrow, get_opC_narrow, lo_setWidth]
  case bfx =>
    refine finds_of (val := fun c f => bfxW (m.imm % 32) (m.imm / 32 % 32 + 1) (m.imm / 1024 = 1) (f.getV m.a.toNat)) (fun _ => rfl) rfl rfl
      (fun c f => ?_) (fun c f => ?_)
    · simp only [List.map_cons, List.map_nil, word1, get_opA_narrow, lo_setWidth]
    · simpa only [decide_eq_true_eq] using bfxW_spec (m.imm % 32) (m.imm / 1024 = 1) (f.getV m.a.toNat) (Nat.succ_pos (m.imm / 32 % 32)) (by omega)
  case bfi =>
    refine finds_of (val := fun c f => bfiW (m.imm % 32) (m.imm / 32 % 32 + 1) (f.getV m.d.toNat) (f.getV m.a.toNat)) (fun _ => rfl) rfl rfl
      (fun c f => ?_) (fun c f i hi => getLsbD_bfiW _ _ _ _ hi)
    simp only [List.map_cons, List.map_nil, word2, Opnd.get_v, get_opA_narrow, lo_setWidth]
  case clz =>
    refine finds_logic1 (fun _ => rfl) rfl fun c f => ?_
    split
    · next h => rw [h]; rfl
    · next h => exact clz_spec h
  case ctz =>
    refine finds_logic1 (fun _ => rfl) rfl fun c f => ?_
    split
    · next h => rw [h]; rfl
    · next h => exact ctz_spec h
  case bswap =>
    refine finds_logic1 (fun _ => rfl) rfl fun c f k hk => ?_
    split
    · exact extract_bswap32 _ hk
    · exact extract_bswap16 _ hk

end Sys2Proof.Machine
end

section
/-! PROOFS. Packed arithmetic, dot products and rounding shifts (03_integer.md R82 to R84). -/

namespace Sys2Proof.Machine

/-! ## Parts of words, and saturation -/

theorem sext_toNat {w : Nat} (hw : 0 < w) (x : BitVec w) : sext w x.toNat = x.toInt := by
  have hhalf : 2 ^ w = 2 * 2 ^ (w - 1) := by rw [← Nat.pow_succ', Nat.succ_eq_add_one, Nat.sub_add_cancel hw]
  have hlt : 2 * x.toNat < 2 ^ w ↔ x.toNat < 2 ^ (w - 1) := by omega
  have hcast : ((2 ^ w : Nat) : Int) = 2 ^ w := Int.natCast_pow 2 w
  rw [sext, BitVec.toInt_eq_toNat_cond]
  simp only [hlt, hcast]

/-- Part k of w bits is the field of w bits at w·k, read as signed or natural (R82, R83). -/
theorem part_eq {w : Nat} (hw : 0 < w) (sgn : Bool) (a : Word) (k : Nat) :
    part w sgn a k = if sgn then (a.extractLsb' (w * k) w).toInt else ((a.extractLsb' (w * k) w).toNat : Int) := by
  rw [← sext_toNat hw, BitVec.extractLsb'_toNat, Nat.shiftRight_eq_div_pow, part]

theorem satFlag_max_min {x lo hi : Int} (h : lo ≤ hi) :
    satFlag x lo hi = (max lo (min hi x), if x < lo ∨ hi < x then flagSat else 0) := by
  rw [satFlag_eq]
  congr 1
  omega

theorem intLo_le_intHi (w : Nat) (sgn : Bool) : intLo w sgn ≤ intHi w sgn := by
  have h1 : (0 : Int) < 2 ^ (w - 1) := Int.pow_pos (by decide)
  have h2 : (0 : Int) < 2 ^ w := Int.pow_pos (by decide)
  cases sgn
  · exact Int.le_sub_one_of_lt h2
  · simp only [intLo, intHi, if_true]
    omega

section
variable {i : Instr} {n : Info} {guard : Fibre → Bool} {uni wide : Bool} {dd : Nat} {args : List Opnd} {op : List DWord → DWord × Word}
  {val : Coil → Fibre → DWord × Word}

/-- An instruction computes what its operation gives on its operands. -/
theorem computes_op (he : ∀ s, exec i s = issueOk n (fun x => x.compute uni wide dd args op) s)
    (hn : guard = fun f => f.getP n.gsel != n.gneg) (hw : n.words = i.form.words) (hv : ∀ c f, op (args.map (Opnd.get c f)) = val c f) :
    Computes i guard uni wide dd val :=
  computes_of he hn hw fun c f => by
    rw [hv]
    exact ⟨by split <;> rfl, rfl⟩

end

/-! ## Halves -/

theorem part_half (m : Main) (a : Word) (k : Nat) : part 16 (m.mod % 2 = 0) a k = m.half a k := by
  rw [part_eq (by omega), Main.half]
  simp only [decide_eq_true_eq]

/-- The flags of two halves (R63). -/
theorem flagSat_or (p q : Prop) [Decidable p] [Decidable q] :
    ((if p then flagSat else 0) ||| (if q then flagSat else 0) : Word) = if p ∨ q then flagSat else 0 := by
  by_cases hp : p <;> by_cases hq : q <;> simp [hp, hq]

/-- An operation on halves, as the manual's table has it (R82). -/
theorem packed2_eq (m : Main) (op : Int → Int → Int) (c : Coil) (f : Fibre) :
    packed2 m.mod op [(m.opA false false).get c f, (m.opB false false false).get c f] = m.packed op c f := by
  have hlo : intLo 16 (m.mod % 2 = 0) = if m.mod % 2 = 0 then -32768 else 0 := by simp [intLo]
  have hhi : intHi 16 (m.mod % 2 = 0) = if m.mod % 2 = 0 then 32767 else 65535 := by simp [intHi]
  simp only [packed2, Main.packed, halves, part_half, get_opA_narrow, lo_setWidth, satFlag_max_min (intLo_le_intHi _ _)]
  simp only [hlo, hhi]
  by_cases h : m.mod < 2
  · have h' : ¬ 2 ≤ m.mod := by omega
    simp [h, h']
  · have h' : 2 ≤ m.mod := by omega
    simp only [ge_iff_le, h, h', if_true, if_false, true_and, flagSat_or]

theorem computes_packed {i : Instr} {m : Main} {sh : Shape} {g op : Int → Int → Int} (he : ∀ s, exec i s = packedOp sh g m s)
    (hw : m.words = i.form.words) (hg : ∀ a b, g a b = op a b) : Computes i m.guard false false m.d.toNat (m.packed op) := by
  obtain rfl : g = op := funext fun a => funext (hg a)
  exact computes_op he rfl hw (packed2_eq m g)

/-! ## Dot products -/

theorem add_foldl (z : Int) (g : Nat → Int) (l : List Nat) : z + (l.map g).foldl (· + ·) 0 = l.foldl (fun t k => t + g k) z := by
  rw [← List.foldl_assoc (op := (· + · : Int → Int → Int)), Int.add_zero, List.foldl_map]

/-- The sum of the products of the parts, saturated (R83). -/
theorem pmacOp_eq {n : Nat} (hn : n = 2 ∨ n = 4) (asgn bsgn csgn : Bool) (a b c : Word) :
    pmacOp (32 / n) asgn bsgn csgn [a.setWidth 64, b.setWidth 64, c.setWidth 64] = macOf n asgn bsgn csgn a b c := by
  have hw : 0 < 32 / n ∧ 32 / (32 / n) = n := by rcases hn with rfl | rfl <;> decide
  simp only [pmacOp, lo_setWidth, tInt_narrow, hw.2, part_eq hw.1, add_foldl,
    satFlag_max_min (intLo_le_intHi _ _)]
  rfl

/-! ## Rounding shifts -/

theorem shrrOp_eq (wide sgn nar : Bool) (x : DWord) (b : Word) :
    shrrOp wide sgn nar [x, b.setWidth 64] =
      let a := tInt wide sgn x
      let n := b.toNat % 64
      let r := if n = 0 then a else (a + 2 ^ (n - 1)) / 2 ^ n
      let w := if wide then 32 else 16
      if nar then (BitVec.ofInt 64 (max (intLo w sgn) (min (intHi w sgn) r)), if r < intLo w sgn ∨ intHi w sgn < r then flagSat else 0)
      else (BitVec.ofInt 64 r, 0) := by
  have hb : (b.setWidth 64).toNat = b.toNat := BitVec.toNat_setWidth_of_le (by omega)
  have hw : widthOf wide / 2 = if wide then 32 else 16 := by cases wide <;> rfl
  simp only [shrrOp, hb, hw, satFlag_max_min (intLo_le_intHi _ _)]
  cases nar <;> rfl

/-- Settles O5: the forms are operations on parts of words, saturated where they say so. -/
theorem packedArithmetic : Obligations.PackedArithmetic := by
  intro m
  refine ⟨computes_packed (fun _ => rfl) rfl fun _ _ => rfl, computes_packed (fun _ => rfl) rfl fun _ _ => rfl,
    computes_packed (fun _ => rfl) rfl fun _ _ => Int.min_def .., computes_packed (fun _ => rfl) rfl fun _ _ => Int.max_def ..,
    ?pmac2, ?pmac4, ?shrr⟩
  case pmac2 =>
    refine computes_op (fun _ => rfl) rfl rfl fun c f => ?_
    rw [← pmacOp_eq (.inl rfl), ← get_opB_narrow m false c f]
    rfl
  case pmac4 =>
    refine computes_op (fun _ => rfl) rfl rfl fun c f => ?_
    rw [← pmacOp_eq (.inr rfl), ← get_opB_narrow m false c f]
    rfl
  case shrr =>
    refine computes_op (fun _ => rfl) rfl rfl fun c f => ?_
    simp only [List.map_cons, List.map_nil, get_opB_narrow]
    exact shrrOp_eq _ _ _ _ _

end Sys2Proof.Machine
end

section
/-! PROOFS. Moves, selection, predicates and addresses (03_integer.md R78 to R81, R85 to R88). -/

namespace Sys2Proof.Machine

/-! ## Predicates -/

theorem getLsbD_putBit {w : Nat} (x : BitVec w) (n : Nat) (b : Bool) (i : Nat) :
    (putBit x n b).getLsbD i = if i = n ∧ n < w then b else x.getLsbD i := by
  have hbit : (1#w <<< n).getLsbD i = decide (i = n ∧ n < w) := by
    rw [BitVec.getLsbD_shiftLeft, BitVec.getLsbD_one, Bool.eq_iff_iff]
    simp only [Bool.and_eq_true, Bool.not_eq_true', decide_eq_true_eq, decide_eq_false_iff_not]
    omega
  by_cases h : i = n ∧ n < w
  · have hi : i < w := h.1 ▸ h.2
    rw [decide_eq_true h] at hbit
    rw [if_pos h]
    cases b <;> simp [putBit, -BitVec.getLsbD_eq_getElem, hbit]
  · rw [decide_eq_false h] at hbit
    rw [if_neg h]
    by_cases hi : i < w
    · cases b <;> simp [putBit, -BitVec.getLsbD_eq_getElem, hbit, hi]
    · rw [BitVec.getLsbD_of_ge _ _ (by omega), BitVec.getLsbD_of_ge _ _ (by omega)]

/-- Predicates after the writes of some bits of a word to those of the same numbers. -/
def predsFrom (x : Word) (l : List Nat) (p : BitVec 16) : BitVec 16 := l.foldl (fun p i => putBit p i (x.getLsbD i)) p

theorem foldl_setP (x : Word) (l : List Nat) (hl : 0 ∉ l) (f : Fibre) :
    l.foldl (fun f i => f.setP i (x.getLsbD i)) f = { f with p := predsFrom x l f.p } := by
  induction l generalizing f with
  | nil => rfl
  | cons a r ih =>
    obtain ⟨ha, hr⟩ := not_or.mp (mt List.mem_cons.mpr hl)
    rw [List.foldl_cons, ih hr, Fibre.setP, if_neg (Ne.symm ha)]
    rfl

theorem getLsbD_predsFrom (x : Word) (l : List Nat) (hl : ∀ i ∈ l, i < 16) (p : BitVec 16) (i : Nat) :
    (predsFrom x l p).getLsbD i = if i ∈ l then x.getLsbD i else p.getLsbD i := by
  induction l generalizing p with
  | nil => rfl
  | cons a r ih =>
    obtain ⟨ha, hr⟩ := List.forall_mem_cons.mp hl
    show (predsFrom x r (putBit p a (x.getLsbD a))).getLsbD i = _
    rw [ih hr, getLsbD_putBit]
    by_cases hi : i ∈ r
    · simp [hi]
    · by_cases hia : i = a
      · simp [hia, ha]
      · simp [hi, hia]

theorem mem_pwrwRegs {m : Main} {i : Nat} : i ∈ pwrwRegs m ↔ 0 < i ∧ i < 16 ∧ (pwrwMask m).testBit i = true := by
  have hr : i ∈ (List.range 16).drop 1 ↔ 0 < i ∧ i < 16 := by
    show i ∈ [1, 2, 3, 4, 5, 6, 7, 8, 9, 10, 11, 12, 13, 14, 15] ↔ _
    simp only [List.mem_cons, List.not_mem_nil, or_false]
    omega
  rw [pwrwRegs, List.mem_filter, hr, and_assoc]

theorem getLsbD_predWord (f : Fibre) (i : Nat) : f.predWord.getLsbD i = (decide (i < 16) && f.getP i) := by
  have h0 : (1 : BitVec 16).getLsbD i = decide (i = 0) := by simp [BitVec.getLsbD_one]
  by_cases hi : i < 16
  · have h32 : i < 32 := by omega
    simp only [Fibre.predWord, Fibre.getP, BitVec.getLsbD_setWidth, BitVec.getLsbD_or, h0, hi, h32, decide_true, Bool.true_and, Bool.or_comm]
  · have hf : (f.p ||| 1).getLsbD i = false := BitVec.getLsbD_of_ge _ _ (by omega)
    simp only [Fibre.predWord, BitVec.getLsbD_setWidth, hf, hi, Bool.and_false, decide_false, Bool.false_and]

/-! ## Values written by a move or an address form -/

theorem guard_lowestOnly (m : Main) (sh : Shape) (lat : Nat) (b : Bool) :
    m.guard = fun f => f.getP ((Info.of sh m lat).lowestOnly b).gsel != ((Info.of sh m lat).lowestOnly b).gneg := by
  cases b <;> rfl

theorem words_lowestOnly (m : Main) (sh : Shape) (lat : Nat) (b : Bool) : ((Info.of sh m lat).lowestOnly b).words = m.words := by
  cases b <;> rfl

theorem computes_movl (m : Main) : Computes (.movl m) m.guard m.uni (movlWide m) (movlReg m) (fun _ _ => (movlVal m, 0)) :=
  computes_op (fun _ => rfl) rfl rfl fun _ _ => rfl

/-- A form that writes the low words of a value in each fibre, with no flag. -/
theorem computes_of_put {i : Instr} {guard : Fibre → Bool} {n : Info} {eff : Iss → Iss} {wide : Bool} {d : Nat} {val : Coil → Fibre → DWord}
    (he : ∀ s, exec i s = issueOk n eff s) (hn : guard = fun f => f.getP n.gsel != n.gneg) (hw : n.words = i.form.words)
    (hr : ∀ s c pl f0, eff (Quiet.iss n s c pl f0) = (Quiet.iss n s c pl f0).onMask (fun o f => f.put wide d (val c o))) :
    Computes i guard false wide d (fun c f => (val c f, 0)) :=
  perFibre_of (fun c o f => f.put wide d (val c o)) he hn hw hr (fun _ _ f => f.put_keeps _ _ _) fun _ _ => (Fibre.raise_zero _).symm

/-- A value that the issue of an instruction fixes goes to an S pair, or to a V pair of each fibre of the mask (R86). -/
theorem goes_value {s : State} {c : Coil} {pl : Place} {f0 : Fibre} {n : Info} {i : Instr} {guard : Fibre → Bool} {eff : Iss → Iss} {uni : Bool}
    {d : Nat} {v : DWord} (h : Ready s c pl f0 guard) (hn : guard = fun f => f.getP n.gsel != n.gneg) (he : exec i s = issueOk n eff s)
    (hw : n.words = i.form.words) (hr : eff (Quiet.iss n s c pl f0) = (Quiet.iss n s c pl f0).compute uni true d [.val v] copyOp) :
    if uni then Goes i s s c (c.setSD d v) (fun f => f) else Goes i s s c c (c.within pl guard (fun f => f.setVD d v)) := by
  cases uni with
  | false =>
    have hg := goes_onMask (fun _ f => (f.setVD d v).raise 0) (fun _ f => (Fibre.raise_keeps _ _).trans (f.put_keeps true d v)) h hn he hw hr
    simpa only [Bool.false_eq_true, if_false, Fibre.raise_zero] using hg
  | true =>
    obtain ⟨f, hf⟩ := h.lowest
    have hg := goes_shared (K := fun e _ => e.setSD d v) (fl := fun _ _ => 0) (f := f) h hn he hw ?_ (fun _ _ => rfl) (fun _ => rfl) (fun _ => rfl)
    · simpa only [if_true, Fibre.raise_zero, Coil.within_self] using hg
    · subst hn
      rw [hr]
      have hl := (Quiet.iss_lowest h).trans hf
      simp only [Iss.compute, hl, if_true]
      rfl

theorem goes_addrTo {i : Instr} {m : Main} {sh : Shape} {g : Iss → DWord} {s : State} {c : Coil} {pl : Place} {f0 : Fibre}
    (h : Ready s c pl f0 m.guard) (he : exec i s = addrTo sh m g s) (hw : m.words = i.form.words) {v : DWord} (hv : ∀ n, g (Quiet.iss n s c pl f0) = v) :
    if m.b = 0 then Goes i s s c (c.setSD m.d.toNat v) (fun f => f) else Goes i s s c c (c.within pl m.guard (fun f => f.setVD m.d.toNat v)) := by
  have hg := goes_value (uni := m.b = 0) (d := m.d.toNat) (v := v) h rfl he hw (by rw [hv])
  simpa only [decide_eq_true_eq] using hg

/-- The first part of O6: moves, selection and predicates. -/
theorem movesSelectsPredicates : Says.MovesSelectsPredicates := by
  intro m
  refine ⟨?mov, fun l hl => ⟨fun h => ?_, fun h => ?_, fun h => ?_, fun h => ?_⟩, ?sel, ?pset, ?plop, ?prdw, ?pwrw⟩
  case mov =>
    exact computes_op (fun _ => rfl) (guard_lowestOnly ..) (words_lowestOnly ..) fun _ _ => rfl
  iterate 4 · simpa [movlWide, movlReg, movlVal, hl, h] using computes_movl m
  case sel =>
    exact computes_of_put (fun _ => rfl) rfl rfl fun _ _ _ _ => rfl
  case pset =>
    exact perFibre_of (fun _ o f => f.setP m.d.toNat ((o.getV m.a.toNat).getLsbD (m.imm % 32))) (fun _ => rfl) rfl rfl (fun _ _ _ _ => rfl)
      (fun _ _ f => f.setP_keeps _ _) fun _ _ => rfl
  case plop =>
    exact perFibre_of (fun _ o f => f.setP m.d.toNat (m.imm.testBit (2 * (o.getP m.a.toNat).toNat + (o.getP m.b.toNat).toNat))) (fun _ => rfl)
      rfl rfl (fun _ _ _ _ => rfl) (fun _ _ f => f.setP_keeps _ _) fun _ _ => rfl
  case prdw =>
    refine ⟨fun _ f => f.predWord, fun _ f i => getLsbD_predWord f i, computes_of_put (fun _ => rfl) rfl rfl fun s c pl f0 => ?_⟩
    simp only [Fibre.put, Bool.false_eq_true, if_false, lo_setWidth]
  case pwrw =>
    refine ⟨fun f => predsFrom (f.getV m.a.toNat) (pwrwRegs m) f.p, fun f i => ?_, ?_⟩
    · rw [getLsbD_predsFrom _ _ fun j hj => (mem_pwrwRegs.mp hj).2.1]
      simp only [mem_pwrwRegs]
      rfl
    · refine perFibre_of (fun _ o f => { f with p := predsFrom (o.getV m.a.toNat) (pwrwRegs m) f.p }) (fun _ => rfl) rfl rfl
        (fun _ _ _ _ => ?_) (fun _ _ _ => ⟨rfl, rfl, rfl, rfl⟩) fun _ _ => rfl
      have h0 : 0 ∉ pwrwRegs m := fun h => absurd (mem_pwrwRegs.mp h).1 (by omega)
      simp only [foldl_setP _ _ h0]

/-- The second part of O6: LEA, ADR and CTXA. -/
theorem addressesAreFormed : Says.AddressesAreFormed := fun _ =>
  ⟨computes_op (fun _ => rfl) rfl rfl fun _ _ => rfl,
    fun _ _ _ _ h => goes_addrTo h rfl rfl fun _ => rfl,
    fun _ _ _ _ h => goes_addrTo h rfl rfl fun _ => rfl⟩

/-- Settles O6, by its two parts. -/
theorem movesSelectsAndAddresses : Obligations.MovesSelectsAndAddresses := ⟨movesSelectsPredicates, addressesAreFormed⟩

end Sys2Proof.Machine
end

section
/-! PROOFS. Stream patterns (03_integer.md R89 to R94). -/

namespace Sys2Proof.Machine

/-! ## A pattern read from s registers -/

/-- Words put together from the highest down are their sum, each times its place. -/
theorem foldl_reverse_words (v : Nat → Word) (n z : Nat) :
    ((List.range n).map v).reverse.foldl (fun a w => a * 2 ^ 32 + w.toNat) z
      = z * 2 ^ (32 * n) + (List.range n).foldl (fun a k => a + (v k).toNat * 2 ^ (32 * k)) 0 := by
  have place (k : Nat) : 2 ^ (32 * (k + 1)) = 2 ^ 32 * 2 ^ (32 * k) := by rw [Nat.mul_succ, Nat.add_comm, Nat.pow_add]
  induction n generalizing z with
  | zero => simp
  | succ n ih =>
    simp only [List.range_succ, List.map_append, List.map_cons, List.map_nil, List.reverse_append, List.reverse_cons, List.reverse_nil,
      List.nil_append, List.cons_append, List.foldl_cons, List.foldl_append, List.foldl_nil, ih, place, Nat.add_mul]
    ac_rfl

/-- The pattern that SMSET reads from eight s registers, with bits 255:240 at 0 (R91). -/
def patternAt (c : Coil) (n : Nat) : BitVec 256 :=
  BitVec.ofNat 256 (((List.range 8).foldl (fun a k => a + (c.getS (n + k)).toNat * 2 ^ (32 * k)) 0) % 2 ^ 240)

theorem patternAt_eq (c : Coil) (n : Nat) :
    BitVec.ofNat 256 (((c.getSs n 8).reverse.foldl (fun a w => a * 2 ^ 32 + w.toNat) 0) % 2 ^ 240) = patternAt c n := by
  rw [Coil.getSs, foldl_reverse_words, Nat.zero_mul, Nat.zero_add, patternAt]

/-! ## Changes of every fibre -/

/-- Changes of fibres that leave where they stand. -/
theorem Coil.moves_of_keeps {c d : Coil} {g : Fibre → Fibre} (h : d.fibres = c.fibres.map g) (hg : ∀ f, (g f).Keeps f) :
    d.Moves c g Fibre.stand := by
  refine ⟨?_, fun k f hf => ⟨g f, ?_, Fibre.Like.refl _, (hg f).2.1⟩⟩
  · simp only [Coil.live, h, List.map_map]
    exact List.map_congr_left fun f _ => (hg f).1
  · rw [Coil.fibre?_map h (fun f => (hg f).1), hf]
    rfl

theorem Fibre.setPos_keeps (f : Fibre) (n k : Nat) : (f.setPos n k).Keeps f := ⟨rfl, rfl, rfl, rfl⟩

/-- What SMSET leaves of a fibre's position: 0 in the mask, and elsewhere what the new walk leaves of the old one (R91). -/
def Fibre.rewalk (mask : List Nat) (n : Nat) (w : BitVec 256) (f : Fibre) : Fibre :=
  f.setPos n (if f.idx ∈ mask then 0 else f.posOf n % smTotal w)

section
variable {s : State} {c : Coil} {pl : Place} {f0 : Fibre} {m : Main}

theorem goes_smset (h : Ready s c pl f0 m.guard) :
    Goes (.smset m) s s c { c with sm := c.sm.set m.d.toNat (patternAt c m.a.toNat) }
      (Fibre.rewalk (c.masked pl m.guard) m.d.toNat (patternAt c m.a.toNat)) := by
  refine goes_of_coil (n := ((Info.of (Instr.smset m).shape m 4).writing [(.sm, m.d.toNat), (.pos, m.d.toNat)]).impureIf true)
    (e := { c with
      sm := c.sm.set m.d.toNat (patternAt c m.a.toNat)
      fibres := c.fibres.map (Fibre.rewalk (c.masked pl m.guard) m.d.toNat (patternAt c m.a.toNat)) }) h rfl rfl ?_ rfl
    (by simpa using h.fibres_ne) rfl (Coil.moves_of_keeps rfl fun f => f.setPos_keeps _ _) (fun f => f.setPos_keeps _ _)
  simp only [Quiet.iss, patternAt_eq, List.contains_iff_mem]
  rfl

theorem goes_smbind (h : Ready s c pl f0 m.guard) :
    Goes (.smbind m) s s c { c with binds := c.binds.set m.mod (if m.b = 0 then none else some { sm := m.a.toNat, advance := m.b = 2 }) }
      (fun f => f) :=
  goes_of_coil (n := ((Info.of (Instr.smbind m).shape m 4).writing [(.bind, m.mod)]).impureIf true) h rfl rfl rfl rfl h.fibres_ne
    (Coil.Like.refl _) (Coil.moves_of_eq rfl) Fibre.Keeps.refl

end

/-- What SMPOS does in a fibre, by MOD (R93). -/
def Fibre.smpos (m : Main) (c : Coil) (o f : Fibre) : Fibre :=
  if m.mod = 0 then f.setVD m.d.toNat (smOffset (c.smReg m.b.toNat) o.idx (o.posOf m.b.toNat))
  else if m.mod = 1 then f.setVD m.d.toNat (BitVec.ofNat 64 (o.posOf m.b.toNat))
  else f.setPos m.b.toNat ((o.getVD m.a.toNat).toNat % smTotal (c.smReg m.b.toNat))

theorem Fibre.smpos_keeps (m : Main) (c : Coil) (o f : Fibre) : (Fibre.smpos m c o f).Keeps f := by
  unfold Fibre.smpos
  split
  · exact f.put_keeps true _ _
  · split
    · exact f.put_keeps true _ _
    · exact f.setPos_keeps _ _

theorem perFibre_smpos (m : Main) : PerFibre (.smpos m) m.guard (fun c f => Fibre.smpos m c f f) := by
  refine perFibre_of (Fibre.smpos m) (fun _ => rfl) ?_ ?_ (fun _ _ _ _ => rfl) (Fibre.smpos_keeps m) fun _ _ => rfl
  · split <;> rfl
  · split <;> rfl

/-- Settles O8: SMSET and SMBIND change the coil's registers, SMPOS and SMADV act in each fibre of the mask. -/
theorem streamPatternsWalk : Obligations.StreamPatternsWalk := by
  intro m
  refine ⟨fun s c pl f0 h => goes_smset h, fun s c pl f0 h => goes_smbind h, fun h => ?_, fun h => ?_, fun h => ?_, ?smadv⟩
  iterate 3 · simpa [Fibre.smpos, h] using perFibre_smpos m
  case smadv =>
    refine perFibre_of (fun c o f => f.advance (c.smReg m.d.toNat) m.d.toNat (o.posOf m.d.toNat) ((m.opB false false false).get c o).toNat)
      (fun _ => rfl) rfl rfl (fun _ _ _ _ => rfl) (fun _ _ f => (Fibre.raise_keeps _ _).trans (f.setPos_keeps _ _)) fun c f => ?_
    rw [get_opB_narrow, BitVec.toNat_setWidth_of_le (by omega)]
    simp only [Fibre.advance, flagIf, decide_eq_true_eq]

end Sys2Proof.Machine
end

section
/-! PROOFS. Floating-point arithmetic and what a rounding picks (04_floating.md R103, R112, R116 to R118). -/

namespace Sys2Proof.Machine

/-! ## The neighbour that a mode picks (R103) -/

/-- Whether a value of k whole quanta and rem of 2 · half parts of one more goes up to k + 1, away from zero (R103, R109). -/
def roundsUp (mode : Nat) (neg : Bool) (draw k rem half : Nat) : Bool :=
  match mode with
  | 0 => half < rem || (rem = half && k % 2 = 1)
  | 1 => false
  | 2 => rem ≠ 0 && !neg
  | 3 => rem ≠ 0 && neg
  | 4 => half ≤ rem
  | _ => rem ≠ 0 && draw < rem * 2 ^ 32 / (2 * half)

theorem two_mul_two_pow_pred {sh : Nat} (h : 0 < sh) : 2 * 2 ^ (sh - 1) = 2 ^ sh :=
  (Nat.mul_comm _ _).trans (Nat.two_pow_pred_mul_two h)

/-- An exact value in a coarser quantum goes up or stays, and is inexact unless it is a multiple. -/
theorem at_coarser (neg : Bool) (n : Nat) (e : Int) {sh : Nat} (mode draw : Nat) (h : 0 < sh) :
    (exactOf neg n e).at (e + sh) mode draw =
      (if roundsUp mode neg draw (n / 2 ^ sh) (n % 2 ^ sh) (2 ^ (sh - 1)) then n / 2 ^ sh + 1 else n / 2 ^ sh, decide (n % 2 ^ sh ≠ 0)) := by
  have hq : ¬ e + sh ≤ e := by omega
  have hsh : (e + sh - e).toNat = sh := by omega
  simp only [Exact.at, exactOf, hq, if_false, hsh]
  rcases mode with _ | _ | _ | _ | _ | mode <;> simp [roundsUp, two_mul_two_pow_pred h]

section
variable {neg : Bool} {draw k rem half : Nat}

/-- A multiple stays. -/
theorem roundsUp_multiple (mode : Nat) (h : 0 < half) : roundsUp mode neg draw k 0 half = false := by
  rcases mode with _ | _ | _ | _ | _ | mode <;> simp [roundsUp] <;> omega

theorem roundsUp_nearest : roundsUp 0 neg draw k rem half = decide (half < rem ∨ rem = half ∧ k % 2 = 1) := by simp [roundsUp]
theorem roundsUp_truncate : roundsUp 1 neg draw k rem half = false := rfl
theorem roundsUp_up : roundsUp 2 neg draw k rem half = decide (rem ≠ 0 ∧ neg = false) := by simp [roundsUp]
theorem roundsUp_down : roundsUp 3 neg draw k rem half = decide (rem ≠ 0 ∧ neg = true) := by simp [roundsUp]
theorem roundsUp_away : roundsUp 4 neg draw k rem half = decide (half ≤ rem) := rfl

end

/-! ## Arithmetic (R112, R116 to R118) -/

section
variable {i : Instr} {m : Main} {sh : Shape} {lat : Nat} {wide : Bool}

/-- A form of one operand writes what its operation gives. -/
theorem computes_vec1 {wa : Bool} {op : List DWord → DWord × Word} {val : Coil → Fibre → DWord × Word}
    (he : ∀ s, exec i s = vec1 sh lat wide wa op m s) (hw : m.words = i.form.words) (hv : ∀ c f, op [(m.opA false wa).get c f] = val c f) : Computes i m.guard false wide m.d.toNat val :=
  computes_op he rfl hw hv

/-- A form of two operands writes what its operation gives. -/
theorem computes_vec2 {op : List DWord → DWord × Word} {val : Coil → Fibre → DWord × Word} (he : ∀ s, exec i s = vec2 sh lat wide op m s)
    (hw : m.words = i.form.words) (hv : ∀ c f, op [(m.opA false wide).get c f, (m.opB false wide false).get c f] = val c f) :
    Computes i m.guard false wide m.d.toNat val :=
  computes_op he rfl hw hv

/-- A form of three operands writes what its operation gives. -/
theorem computes_vec3 {op : List DWord → DWord × Word} {val : Coil → Fibre → DWord × Word} (he : ∀ s, exec i s = vec3 sh lat wide op m s)
    (hw : m.words = i.form.words)
    (hv : ∀ c f, op [(m.opA false wide).get c f, (m.opB false wide false).get c f, (m.opC false wide).get c f] = val c f) :
    Computes i m.guard false wide m.d.toNat val :=
  computes_op he rfl hw hv

end

theorem fop2_eq (t : Fmt) (mode : Nat) (g : Nat → Val → Val → Raw) (a b : DWord) :
    fop2 t mode g [a, b] = t.once mode (g mode (t.of a) (t.of b)) := rfl

theorem fop3_eq (t : Fmt) (mode : Nat) (g : Nat → Val → Val → Val → Raw) (a b d : DWord) :
    fop3 t mode g [a, b, d] = t.once mode (g mode (t.of a) (t.of b) (t.of d)) := rfl

theorem packHalves_fop2 (t : Fmt) (mode : Nat) (g : Nat → Val → Val → Raw) (a b d : DWord) :
    packHalves (fop2 t mode g) [a, b] = Main.bothHalves (fun x y _ => t.once mode (g mode (t.of x) (t.of y))) a b d := rfl

theorem packHalves_fop3 (t : Fmt) (mode : Nat) (g : Nat → Val → Val → Val → Raw) (a b d : DWord) :
    packHalves (fop3 t mode g) [a, b, d] = Main.bothHalves (fun x y z => t.once mode (g mode (t.of x) (t.of y) (t.of z))) a b d := rfl

/-- The first part of O9: each form rounds once what its operation gives on values. -/
theorem floatArithmeticRoundsOnce : Says.FloatArithmeticRoundsOnce := by
  refine fun m => ⟨computes_vec2 (fun _ => rfl) rfl fun _ _ => fop2_eq f32 _ addVal _ _,
    computes_vec2 (fun _ => rfl) rfl fun _ _ => fop2_eq f32 _ subRaw _ _,
    computes_vec2 (fun _ => rfl) rfl fun _ _ => fop2_eq f32 _ mulRaw _ _,
    computes_vec3 (fun _ => rfl) rfl fun _ _ => fop3_eq f32 _ fmaVal _ _ _,
    computes_vec2 (fun _ => rfl) rfl fun _ _ => fop2_eq f64 _ addVal _ _,
    computes_vec2 (fun _ => rfl) rfl fun _ _ => fop2_eq f64 _ mulRaw _ _,
    computes_vec3 (fun _ => rfl) rfl fun _ _ => fop3_eq f64 _ fmaVal _ _ _,
    computes_vec2 (fun _ => rfl) rfl fun _ _ => packHalves_fop2 (packFmt m) _ addVal _ _ 0,
    computes_vec2 (fun _ => rfl) rfl fun _ _ => packHalves_fop2 (packFmt m) _ mulRaw _ _ 0,
    computes_vec3 (fun _ => rfl) rfl fun _ _ => packHalves_fop3 (packFmt m) _ fmaVal _ _ _,
    computes_vec1 (fun _ => rfl) rfl fun c f => ?frnd, computes_vec2 (fun _ => rfl) rfl fun c f => ?fscale⟩
  case frnd => simp only [List.headD_cons, get_opA_narrow, lo_setWidth]
  case fscale => simp only [get_opA_narrow, get_opB_narrow, lo_setWidth]

/-- The second part of O9: the whole quanta of the value, and what its mode does with the rest. -/
theorem roundingPicksTheNeighbour : Says.RoundingPicksTheNeighbour := by
  intro neg n e sh mode draw hsh
  rw [at_coarser neg n e mode draw hsh]
  have hu : 2 ^ sh = 2 * 2 ^ (sh - 1) := (two_mul_two_pow_pred hsh).symm
  have hhalf : 0 < 2 ^ (sh - 1) := Nat.two_pow_pos _
  have hrem : n % 2 ^ sh < 2 ^ sh := Nat.mod_lt _ (Nat.two_pow_pos _)
  have hn : n / 2 ^ sh * 2 ^ sh + n % 2 ^ sh = n := Nat.div_add_mod' n _
  generalize n / 2 ^ sh = k at *
  generalize n % 2 ^ sh = rem at *
  generalize 2 ^ (sh - 1) = half at *
  generalize 2 ^ sh = u at *
  have hstay : k * u ≤ n := Nat.le.intro hn
  have hnext : (k + 1) * u = k * u + u := Nat.succ_mul k u
  simp only [Nat.mul_assoc]
  refine ⟨?neighbour, by simp, ?multiple, ?nearest, ?truncate, ?up, ?down, ?away⟩
  case neighbour => cases roundsUp mode neg draw k rem half <;> simp
  case multiple =>
    rintro rfl
    simp only [roundsUp_multiple mode hhalf, Bool.false_eq_true, if_false]
  case nearest =>
    rintro rfl
    simp only [roundsUp_nearest, decide_eq_true_eq]
    split <;> omega
  case truncate =>
    rintro rfl
    simp only [roundsUp_truncate, Bool.false_eq_true, if_false]
    exact hstay
  case up =>
    rintro rfl
    cases neg with
    | false =>
      simp only [roundsUp_up, decide_eq_true_eq, and_true, Bool.false_eq_true, if_false]
      split <;> omega
    | true => simpa [roundsUp_up] using hstay
  case down =>
    rintro rfl
    cases neg with
    | true =>
      simp only [roundsUp_down, decide_eq_true_eq, and_true, if_true]
      split <;> omega
    | false => simpa [roundsUp_down] using hstay
  case away =>
    rintro rfl
    simp only [roundsUp_away, decide_eq_true_eq]
    split <;> omega

/-- Settles O9, by its two parts. -/
theorem floatArithmeticRounds : Obligations.FloatArithmeticRounds := ⟨floatArithmeticRoundsOnce, roundingPicksTheNeighbour⟩

end Sys2Proof.Machine
end

section
/-! PROOFS. Minimum, maximum, comparison, class and exponent of floating-point values (04_floating.md R113 to R116). -/

namespace Sys2Proof.Machine

/-- A comparison of patterns into a predicate of each fibre (R114). -/
theorem perFibre_fcmpIn {i : Instr} {m : Main} {sh : Shape} {t : Fmt} {wide : Bool} {lat : Nat} (he : ∀ s, exec i s = fcmpIn sh t wide lat m s)
    (hw : m.words = i.form.words) :
    PerFibre i m.guard (fun c f =>
      let r := cmpVal m.c (m.mod = 1) (t.val ((m.opA false wide).get c f).toNat) (t.val ((m.opB false wide false).get c f).toNat)
      (f.setP m.d.toNat r.1).raise r.2) :=
  fun _ _ _ _ h => goes_computeP h rfl (he _) hw

theorem minMaxOp_eq (isMax : Bool) (m : Main) (a b : DWord) :
    minMaxOp isMax m [a, b] = regOf (minMax (if m.wide then f64 else f32) isMax (m.mod % 2 = 1) a.toNat b.toNat) := rfl

/-- Settles O10: each form is the operation of its table on the values of its operands. -/
theorem floatComparesAndClasses : Obligations.FloatComparesAndClasses := by
  refine fun m => ⟨computes_vec2 (fun _ => rfl) rfl fun _ _ => minMaxOp_eq false m _ _,
    computes_vec2 (fun _ => rfl) rfl fun _ _ => minMaxOp_eq true m _ _, ?fcmp, perFibre_fcmpIn (t := f64) (wide := true) (fun _ => rfl) rfl,
    computes_vec1 (fun _ => rfl) rfl fun c f => ?fclass, computes_vec1 (fun _ => rfl) rfl fun c f => ?fgetexp⟩
  case fcmp =>
    have h : PerFibre (.fcmp m) m.guard _ := perFibre_fcmpIn (fun _ => rfl) rfl
    simpa only [get_opA_narrow, get_opB_narrow, BitVec.toNat_setWidth_of_le (show 32 ≤ 64 by omega)] using h
  case fclass => rfl
  case fgetexp => simp only [List.headD_cons, get_opA_narrow, lo_setWidth]

end Sys2Proof.Machine
end

section
/-! PROOFS. Conversions, stochastic rounding, the Walsh–Hadamard transform and block quantisation (04_floating.md R108, R120 to R126). -/

namespace Sys2Proof.Machine

theorem Fibre.setVs_keeps (f : Fibre) (n : Nat) (l : List Word) : (f.setVs n l).Keeps f := by
  induction l generalizing f n with
  | nil => exact Fibre.Keeps.refl f
  | cons x r ih => exact (ih _ _).trans (f.put_keeps false n (x.setWidth 64))

/-- The element of A that a conversion names, in its destination format (R120, R121). -/
def converted (m : Main) (mode draw : Nat) (c : Coil) (o : Fibre) : Nat × Word :=
  (fmtOf (m.imm % 16)).convert mode draw (o.fctl.getLsbD 2)
    ((fmtOf (m.imm / 16 % 16)).val (element (m.imm / 16 % 16) m.b.toNat ((m.opA false (m.imm / 16 % 16 = 3)).get c o).toNat))

/-- A fibre that takes a converted value into D, with its flags. -/
def Fibre.takeConverted (m : Main) (r : Nat × Word) (f : Fibre) : Fibre :=
  (f.put (m.imm % 16 = 3) m.d.toNat (BitVec.ofNat 64 r.1)).raise r.2

theorem Fibre.takeConverted_keeps (m : Main) (r : Nat × Word) (f : Fibre) : (f.takeConverted m r).Keeps f :=
  (Fibre.raise_keeps _ _).trans (f.put_keeps _ _ _)

/-- A new stochastic-rounding state moves no fibre. -/
theorem Fibre.keeps_srs {g f : Fibre} (x : Word) (h : g.Keeps f) : { g with srs := x }.Keeps f := h

/-- A block of registers and flags, written in a fibre, move it nowhere. -/
theorem Fibre.setVs_raise_keeps (f : Fibre) (n : Nat) (l : List Word) (fl : Word) : ((f.setVs n l).raise fl).Keeps f :=
  (Fibre.raise_keeps _ _).trans (f.setVs_keeps n l)

theorem get_opA_word (m : Main) (uni : Bool) (c : Coil) (f : Fibre) :
    ((m.opA uni false).get c f).lo = if uni then c.getS m.a.toNat else f.getV m.a.toNat := by
  cases uni <;> exact lo_setWidth _

/-- Settles O11: each form writes in its fibre what the conversion, the draw or the transform of its operands gives. -/
theorem conversionsAndBlocks : Obligations.ConversionsAndBlocks := by
  refine fun m => ⟨?fcvt, ?fcvtSr, computes_vec1 (fun _ => rfl) rfl fun _ _ => rfl, computes_vec1 (fun _ => rfl) rfl fun _ _ => rfl, ?srseed,
    ?hadm, ?qcvt, ?dqcvt⟩
  case fcvt =>
    exact perFibre_of (fun c o f => f.takeConverted m (converted m (m.imm / 256) 0 c o)) (fun _ => rfl) rfl rfl (fun _ _ _ _ => rfl)
      (fun _ _ f => f.takeConverted_keeps m _) fun _ _ => rfl
  case fcvtSr =>
    exact perFibre_of (fun c o f => { f.takeConverted m (converted m 5 (srsNext f.srs).toNat c o) with srs := srsNext f.srs }) (fun _ => rfl) rfl
      rfl (fun _ _ _ _ => rfl) (fun _ _ f => Fibre.keeps_srs _ (f.takeConverted_keeps m _)) fun _ _ => rfl
  case srseed =>
    refine perFibre_of (fun c o f => { f with srs := srsSeed ((m.opA (m.mod = 1) false).get c o).lo o.idx }) (fun _ => rfl) rfl rfl
      (fun _ _ _ _ => rfl) (fun _ _ f => Fibre.keeps_srs _ (Fibre.Keeps.refl f)) fun c f => ?_
    simp only [get_opA_word, decide_eq_true_eq]
  case hadm =>
    exact perFibre_of _ (fun _ => rfl) rfl rfl (fun _ _ _ _ => rfl) (fun _ _ f => f.setVs_raise_keeps _ _ _) fun _ _ => rfl
  case qcvt =>
    refine perFibre_of _ (fun _ => rfl) ?_ ?_ (fun _ _ _ _ => rfl) (fun _ _ f => Fibre.keeps_srs _ (f.setVs_raise_keeps _ _ _)) fun _ _ => rfl
    · split <;> rfl
    · split <;> rfl
  case dqcvt =>
    exact perFibre_of _ (fun _ => rfl) rfl rfl (fun _ _ _ _ => rfl) (fun _ _ f => f.setVs_raise_keeps _ _ _) fun _ _ => rfl

end Sys2Proof.Machine
end
